-- ==== Sys2Proof/Word.lean ====
section
/-! DEFINITION. The word types of the FB412 (spec/00_scope.md, "Local memory" and "Numbers and units"). -/

namespace Sys2Proof

/-- A byte of local memory or of a frame body. -/
abbrev Byte := BitVec 8

/-- A halfword: generations, tags, counts. -/
abbrev Half := BitVec 16

/-- A 32-bit word of local memory, a register of the window, an address. -/
abbrev Word := BitVec 32

end Sys2Proof
end

