-- ==== Sys2Proof/Syntax.lean ====
section
/-! DEFINITION. The commands of the block: `Instr` has one constructor for each row of spec/opcode_table.json, in the
table's order. The table gives no operands; the operands here are what the surroundings of the station decide in the
step (a written value, the bits read on the line, an idle time, which transfer is not acknowledged). -/

namespace Sys2Proof

/-- The three claimants of the memory agent (R182). -/
inductive Claimant where
  | commandEngine
  | patchEngine
  | noticeUnit
  deriving DecidableEq, Repr

/-- The width of a register access (R165). -/
inductive Width where
  | byte
  | half
  | word
  deriving DecidableEq, Repr

/-- What the surroundings decide in a step that makes local bus transfers (DESIGN CHOICE, logs 7, 8, 9, 12). -/
structure Env where
  /-- Bytes other bus masters (the host among them) have stored into local memory before this step's transfers. -/
  stores : List Host.Cell := []
  /-- The transfer of this step, counted from 0 in the order made, that is not acknowledged (R182). -/
  failAt : Option Nat := none
  /-- How many transfers of a run of word transfers this step makes, where the run is not over by then: other claimants'
  transfers and other blocks' events come between, and a later row of the same kind goes on with the run (R169, R173,
  R177, R182; log 8). While another claimant waits a step makes one word transfer at the most, whatever stands here. -/
  upTo : Option Nat := none
  /-- Where slots and the Command Engine ask for room in one event: whether the arbiter takes the Command Engine's
  request next (R138); slots first where the list is exhausted. -/
  order : List Bool := []
  /-- Whether the site transfer of a reference this step removes had begun (R125; log 9). -/
  siteBegun : Bool := false
  deriving DecidableEq, Repr

/-- How far the local bus transfers in progress got when a reset took them (R127, R166, R175, R180; log 10). -/
structure Cut where
  /-- The site transfer in progress completed whole. -/
  site : Bool := false
  /-- Words of the notice being written that had been written. -/
  noticeWords : Nat := 0
  /-- Words of the report record being written that had been written. -/
  reportWords : Nat := 0
  deriving DecidableEq, Repr

/-- One constructor per row of spec/opcode_table.json. -/
inductive Instr where
  /-- PIN_RESET (R164): RESET returns high; `straps` is STN3 to STN0, STN3 the most significant bit (R151). -/
  | pinReset (straps : BitVec 4) (cut : Cut)
  /-- PORT_RESET (R166): a whole-word write of `value` to PCTL. -/
  | portReset (value : Word) (cut : Cut)
  /-- INTERRUPT_ENABLE_WRITE (R166): a whole-word write of `value` to PCTL. -/
  | interruptEnableWrite (value : Word)
  /-- SUBMISSION (R167): a whole-word write of `value` to SUBMIT. -/
  | submission (value : Word)
  /-- NCONS_WRITE (R179): a whole-word write of `value` to NCONS. -/
  | nconsWrite (value : Word)
  /-- ISTAT_WRITE (R181): a whole-word write of `value` to ISTAT. -/
  | istatWrite (value : Word)
  /-- IGNORED_REGISTER_WRITE (R165): a write that is acknowledged and ignored. -/
  | ignoredRegisterWrite (offset : Nat) (width : Width) (value : Word)
  /-- UNKNOWN_COMMAND_CODE (R169): the head command's block holds none of the seven codes. -/
  | unknownCommandCode (env : Env)
  /-- CONFIGURE (R154). -/
  | configure (env : Env)
  /-- START (R155). -/
  | start (env : Env)
  /-- STOP (R157). -/
  | stop (env : Env)
  /-- LOAD (R17): the block and the first pass. -/
  | load (env : Env)
  /-- LOAD_COMMIT_EXPORT (R25): the next export record of the commit pass. -/
  | loadCommitExport (env : Env)
  /-- LOAD_COMMIT_IMPORT (R26): the next import record of the commit pass. -/
  | loadCommitImport (env : Env)
  /-- LOAD_COMMIT_END (R28). -/
  | loadCommitEnd
  /-- LOAD_COMMIT_FAULT (R29): the next record of the commit pass is found at fault. -/
  | loadCommitFault (env : Env)
  /-- UNLOAD (R32). -/
  | unload (env : Env)
  /-- RESEEK (R82). -/
  | reseek (env : Env)
  /-- REPORT (R172). -/
  | report (env : Env)
  /-- REPORT_RECORD_WRITE (R173): the next record of the listing. -/
  | reportRecordWrite (env : Env)
  /-- FRAME_BEGIN (R132): `idle` is the bit times the line has been idle, as the station has seen it. -/
  | frameBegin (idle : Nat)
  /-- CONTENTION_LOST (R135): the station reads a 0 where it sent bit `bit` of its key (5 is sent first). -/
  | contentionLost (bit : Nat)
  /-- CONTENTION_WON (R136). -/
  | contentionWon
  /-- SENDER_BIT_MISMATCH (R136): the station reads a 0 at position `pos` of its frame, counted from 0. -/
  | senderBitMismatch (pos : Nat)
  /-- FRAME_CUT_OFF (R131): no transitions for `quiet` bit times after the bits `bits` of a frame. -/
  | frameCutOff (bits : List Bool) (quiet : Nat)
  /-- FRAME_ARRIVAL (R143): the station has read the frame `bits` to its end and its hold window begins; `siteBegun` as in
  `Env`. -/
  | frameArrival (bits : List Bool) (siteBegun : Bool)
  /-- HOLD_WINDOW_END (R139): `othersPull` says whether another station pulls HOLD. -/
  | holdWindowEnd (othersPull : Bool)
  /-- REPEAT (R140): `idle` bit times of idle line after the hold window. -/
  | repeatFrame (idle : Nat)
  /-- RESERVATION_LAPSE (R145): `idle` bit times of idle line after the hold window. -/
  | reservationLapse (idle : Nat) (siteBegun : Bool)
  /-- LAPSE (R96): the head of the receive queue, a lapse marker, is applied; so the rows below for frames. -/
  | lapse
  /-- SEEK_TAKEN (R72). -/
  | seekTaken
  /-- OWN_SEEK_TAKEN (R71). -/
  | ownSeekTaken
  /-- OFFER_TAKEN (R79), another station's or the own. -/
  | offerTaken
  /-- ANNOUNCE_TAKEN (R42). -/
  | announceTaken
  /-- OWN_ANNOUNCE_TAKEN (R41). -/
  | ownAnnounceTaken
  /-- CLASH_TAKEN (R99), another station's or the own. -/
  | clashTaken
  /-- WITHDRAW_TAKEN (R90). -/
  | withdrawTaken
  /-- OWN_WITHDRAW_TAKEN (R91). -/
  | ownWithdrawTaken
  /-- LEAVE_TAKEN (R93). -/
  | leaveTaken
  /-- OWN_LEAVE_TAKEN (R158). -/
  | ownLeaveTaken
  /-- JOIN_TAKEN (R94). -/
  | joinTaken
  /-- OWN_JOIN_TAKEN (R156). -/
  | ownJoinTaken
  /-- SEEK_TIMER_EXPIRY (R73): `elapsed` milliseconds after slot `slot` entered OUT. -/
  | seekTimerExpiry (slot : Nat) (elapsed : Nat)
  /-- WALK_BEGIN (R109). -/
  | walkBegin
  /-- SITE_WRITE_DONE (R117): the locked site transfer under way ends. -/
  | siteWriteDone (env : Env)
  /-- MEMORY_ACK_TIMEOUT (R182): transfer number `env.failAt` of the claimant's next step gets no acknowledge within
  10 microseconds. -/
  | memoryAckTimeout (claimant : Claimant) (env : Env)
  /-- NOTICE_WRITE_DONE (R177): the words of the first reserved notice are written. -/
  | noticeWriteDone (env : Env)
  /-- RESET_LOW (R149): the RESET input goes low. -/
  | resetLow
  deriving DecidableEq, Repr

end Sys2Proof
end

