-- ==== Sys2Proof/Decode.lean ====
section
/-! DEFINITION. Decoding. The rows of spec/opcode_table.json give no bits, so no word spells a command. The bits of the
binding bus are read in Machine/Operands.lean; the two helpers here are shared with WellFormed. -/

namespace Sys2Proof

/-- The command a word of the table's bits spells: none, since no row of the table has bits. -/
def decodeTableWord (_nbits _w : Nat) : Option Instr :=
  none

/-- The value of a bit string, its first bit the most significant (R188). -/
def bitsNat (bits : List Bool) : Nat :=
  bits.foldl (fun n b => 2 * n + b.toNat) 0

/-- The whole length of a frame in bits, as the body length in its header declares it (R188). -/
def declaredLength (bits : List Bool) : Nat :=
  29 + 8 * bitsNat ((bits.drop 21).take 8) + 16

end Sys2Proof
end

