-- ==== Sys2Proof/Config.lean ====
section
/-! DEFINITION. What the part fixes: its capacities and bus figures (each with its rule), and the values the spec
leaves open, as constants without a body. -/

namespace Sys2Proof.Config

/-- The bytes of local memory: local addresses are 0 to 0x0FFF_FFFF (R6). -/
def localBytes : Nat := 0x10000000
/-- Room of the module table (R13). -/
def moduleRoom : Nat := 32
/-- Room of the export directory (R38). -/
def exportRoom : Nat := 512
/-- Room of the reference table (R59). -/
def referenceRoom : Nat := 1024
/-- Records of the site pool (R60). -/
def siteRoom : Nat := 4096
/-- Seek slots (R68). -/
def slotCount : Nat := 16
/-- Places of the transmit queue (R137). -/
def transmitRoom : Nat := 32
/-- Frame places of the receive queue (R143, R146). -/
def receiveRoom : Nat := 32
/-- Places of the command queue (R168). -/
def commandRoom : Nat := 8
/-- Largest value of the pending-drop count (R178). -/
def dropLimit : Nat := 65535
/-- Hold count at which BUS-STALL is posted (R141). -/
def stallCount : Nat := 16
/-- Bit times of idle line that end a frame early (R131, R150). -/
def cutOffIdle : Nat := 2
/-- Bit times of idle line before contention, or before a repeat (R132, R140, R150). -/
def freeIdle : Nat := 12
/-- Bit times of idle line after which a reservation lapses (R145, R150). -/
def lapseIdle : Nat := 48

/-- FREE VALUE (log 6). The content of a location of local memory after a write the local bus did not acknowledge (R122,
R175: "not known to the controller", "an unknown value"), for the n-th such write of a run; a site takes of it the bits that
its form places in the word. -/
opaque unknownWord : Nat → Word

/-- FREE VALUE (log 22). The trap stub address while no configuration record is held (R12: it "then holds no value"). -/
opaque unsetStub : Word

end Sys2Proof.Config
end

