-- ==== Sys2Proof/Machine/Types.lean ====
section
/-! DEFINITION. The records the blocks of the station hold: keys, bindings, export entries, references, seek slots,
frames, module records, walks, notices. Where the spec says a field is present exactly in some state (R38, R59, R62),
the state's constructor carries the field. -/

namespace Sys2Proof.Machine

/-- A station number (R151). -/
abbrev Station := Fin 16

/-- COMMON or GROUP (section 1.2). -/
inductive Scope where
  | common
  | group
  deriving DecidableEq, Repr

/-- The kind of an export (R10). -/
inductive Kind where
  | entry
  | data
  deriving DecidableEq, Repr

/-- The kind an import expects (R10). -/
inductive ExpectedKind where
  | entry
  | data
  | any
  deriving DecidableEq, Repr

/-- A key: scope, group, name (R3); the name is its bytes, its length their number (R1). -/
structure Key where
  scope : Scope
  group : BitVec 3
  name : List Byte
  deriving DecidableEq, Repr

/-- A (station, generation) pair (R9, R38). -/
structure Pair where
  station : Station
  generation : Half
  deriving DecidableEq, Repr

/-- A binding (R61). -/
structure Binding where
  definer : Station
  generation : Half
  target : Word
  kind : Kind
  deriving DecidableEq, Repr

/-- An owner: module id and descriptor index (R15). It names one export entry, or one reference. -/
structure Owner where
  module : Byte
  index : Nat
  deriving DecidableEq, Repr

/-- The state of an export entry (R38), with the fields present only in that state: the refusing owner in REFUSED, the
owed refused list, which only a LIVE entry can have pairs in (R43, R45, R52). -/
inductive ExportState where
  | pending
  | live (owed : List Pair)
  | withdrawing
  | refused (owner : Pair)
  deriving DecidableEq, Repr

/-- An entry of the export directory (R38). -/
structure ExportEntry where
  key : Key
  owner : Owner
  target : Word
  kind : Kind
  generation : Half
  state : ExportState
  deriving DecidableEq, Repr

/-- A member of the answer list (R48). It owes a CLASH exactly while its entry's owed refused list holds a pair. -/
structure Answer where
  owner : Owner
  owesOffer : Bool
  deriving DecidableEq, Repr

/-- A patch form, FLD with its field position, field width and shift (R16, R110). -/
inductive Form where
  | a32
  | hi16
  | lo16
  | d16
  | fld (position width shift : Nat)
  deriving DecidableEq, Repr

/-- A record of the site pool in use (R60). -/
structure Site where
  segment : Nat
  offset : Word
  form : Form
  addend : Word
  /-- The site's local address: its segment's local base plus its offset. -/
  address : Nat
  deriving DecidableEq, Repr

/-- A fault cause (R59). -/
inductive FaultCause where
  | kind
  | fit
  | bus
  deriving DecidableEq, Repr

/-- The phase of a reference with the optional fields R62 gives it: the slot of SEEKING, the binding of PATCHING and
BOUND, the cause of FAULTED. -/
inductive Phase where
  | queued
  | seeking (slot : Nat)
  | waiting
  | patching (binding : Binding)
  | bound (binding : Binding)
  | faulted (cause : FaultCause)
  deriving DecidableEq, Repr

/-- The field "sites reflect" (R63). -/
inductive Reflect where
  | none
  | stub
  | unknown
  | binding (b : Binding)
  deriving DecidableEq, Repr

/-- An entry of the reference table (R59). -/
structure Ref where
  key : Key
  owner : Owner
  expected : ExpectedKind
  sites : List Site
  phase : Phase
  reflect : Reflect
  deriving DecidableEq, Repr

/-- The state of a seek slot in use (R68). -/
inductive SlotState where
  | toSend
  | out
  deriving DecidableEq, Repr

/-- A seek slot in use (R68). -/
structure Slot where
  key : Key
  state : SlotState
  tries : Nat
  timer : Bool
  awaitingRoom : Bool
  deriving DecidableEq, Repr

/-- A walk value (R109): a copy of a binding, or STUB. -/
inductive WalkValue where
  | binding (b : Binding)
  | stub
  deriving DecidableEq, Repr

/-- The pass of a walk (R109). -/
inductive WalkPass where
  | compute
  | write
  deriving DecidableEq, Repr

/-- The current walk (R109); sites are counted from 1. -/
structure Walk where
  ref : Owner
  value : WalkValue
  pass : WalkPass
  next : Nat
  computed : List Word
  deriving DecidableEq, Repr

/-- The locked site transfer under way (R114): the site and the value its bits are to receive. -/
structure SiteTransfer where
  site : Site
  value : Word
  deriving DecidableEq, Repr

/-- A frame's kind and body (R129). -/
inductive Body where
  | clash (scope : Scope) (name : List Byte) (owner : Station) (generation : Half) (target : Word) (kind : Kind)
      (refused : List Pair)
  | offer (scope : Scope) (name : List Byte) (generation : Half) (target : Word) (kind : Kind)
  | join
  | leave
  | withdraw (scope : Scope) (name : List Byte) (generation : Half)
  | announce (scope : Scope) (name : List Byte) (generation : Half) (target : Word) (kind : Kind)
  | seek (scope : Scope) (name : List Byte)
  deriving DecidableEq, Repr

/-- A frame (R129): the class and the body length follow from the body. -/
structure Frame where
  sender : Station
  sequence : Byte
  group : BitVec 3
  body : Body
  deriving DecidableEq, Repr

/-- An entry of the transmit queue (R137). The ANNOUNCE keeps its entry's key and generation, the SEEK its slot
number, for the check at the head (R134). -/
inductive TxEntry where
  | join
  | leave
  | announce (key : Key) (generation : Half) (target : Word) (kind : Kind)
  | withdraw (key : Key) (generation : Half)
  | seek (slot : Nat) (key : Key)
  deriving DecidableEq, Repr

/-- An item of the receive queue (R147). -/
inductive RxItem where
  | frame (f : Frame)
  | lapse (s : Station)
  deriving DecidableEq, Repr

/-- The outgoing frame (R136, R141). -/
structure Outgoing where
  frame : Frame
  holds : Nat
  stalled : Bool
  deriving DecidableEq, Repr

/-- The held-frame record (R139). -/
structure HeldRecord where
  sender : Station
  sequence : Option Byte
  took : Bool
  deriving DecidableEq, Repr

/-- Where a frame in contention came from (R133): an answer list member, or the transmit queue. -/
inductive Source where
  | answer (owner : Owner)
  | queue
  deriving DecidableEq, Repr

/-- This station's outcome on a frame whose hold window is open (R143). -/
inductive Arrival where
  /-- Test 1: the frame is bad; hold. -/
  | heldBad
  /-- Tests 4 and 5: a lapse marker of its sender, or a full receive queue; hold. -/
  | heldFull
  /-- Test 3: the repeat of a held frame this station took; neither take nor hold. -/
  | discarded
  /-- Test 6. -/
  | taken
  deriving DecidableEq, Repr

/-- The hold window of a frame (R139): sender and sequence as this station read them, this station's outcome, and
whether this station sent the frame to its end. -/
structure Window where
  sender : Station
  sequence : Option Byte
  arrival : Arrival
  own : Bool
  deriving DecidableEq, Repr

/-- What the station does on the line (R135, R136, R139). -/
inductive Line where
  /-- It drives nothing. -/
  | quiet
  /-- It sends the key of a frame it has begun. -/
  | contending (source : Source) (frame : Frame)
  /-- It sends its outgoing frame, having won contention, or repeats it. -/
  | sending
  /-- The hold window of a frame. -/
  | window (w : Window)
  deriving DecidableEq, Repr

/-- A record of the peer table (R159). -/
structure Peer where
  present : Bool
  group : BitVec 3
  lastSequence : Byte
  deriving DecidableEq, Repr

/-- The station state (R152). -/
inductive StationState where
  | off
  | configured
  | joining
  | active
  | leaving
  | isolated
  deriving DecidableEq, Repr

/-- The configuration record (R153). -/
structure ConfigRecord where
  group : BitVec 3
  seekTimeout : Nat
  seekTries : Nat
  stub : Word
  ringBase : Word
  ringSize : Nat
  deriving DecidableEq, Repr

/-- A segment of a module (R13). -/
structure Segment where
  base : Word
  length : Word
  deriving DecidableEq, Repr

/-- The state of a module record (R14). -/
inductive ModuleState where
  | loading
  | linking
  | waiting
  | bound
  | faulted
  | unloading
  deriving DecidableEq, Repr

/-- A record of the module table (R13). The segment count is held from the header on, the segments as they are read (R18,
R19); a count of a LOADING record that the first pass has not read yet is 0 (log 15). -/
structure ModuleRecord where
  id : Byte
  descriptor : Word
  segmentCount : Nat
  segments : List Segment
  exportCount : Nat
  importCount : Nat
  siteCount : Nat
  state : ModuleState
  deriving DecidableEq, Repr

/-- The seven commands (R185). -/
inductive CommandKind where
  | configure
  | start
  | stop
  | load
  | unload
  | reseek
  | report
  deriving DecidableEq, Repr

/-- The status codes (R171). -/
inductive Status where
  | ok
  | refusedState
  | badCommand
  | badConfig
  | badDescriptor
  | noRoom
  | duplicateModule
  | duplicateExport
  | unknownModule
  | modulesPresent
  | readError
  | writeError
  deriving DecidableEq, Repr

/-- How a LOAD or the reading of a block ends short: status and detail (R23, R169). -/
structure Ending where
  status : Status
  detail : Nat
  deriving DecidableEq, Repr

/-- The report selectors (R172). -/
inductive Selector where
  | station
  | peers
  | modules
  | exports
  | references
  deriving DecidableEq, Repr

/-- The command in progress (R170). -/
inductive Command where
  /-- The commit pass of a LOAD: next export and import index, byte offset of the next record, running site sum. -/
  | loadCommit (tag : Half) (module : Byte) (nextExport nextImport offset siteSum : Nat)
  /-- A failed commit being taken out, with its status (R29). -/
  | loadTakeOut (tag : Half) (module : Byte) (ending : Ending)
  | unload (tag : Half) (module : Byte)
  | start (tag : Half)
  | stop (tag : Half)
  /-- A REPORT with `written` records written (R173). -/
  | report (tag : Half) (selector : Selector) (module : Byte) (buffer : Nat) (capacity written : Nat)
  deriving DecidableEq, Repr

/-- The last SUBMIT result (R165). -/
inductive SubmitResult where
  | none
  | accepted
  | refusedFull
  | refusedAddress
  deriving DecidableEq, Repr

/-- A revocation cause (R183). -/
inductive RevocationCause where
  | withdrawn
  | peerGone
  | refusedDefiner
  deriving DecidableEq, Repr

/-- A peer loss cause (R183). -/
inductive PeerLoss where
  | leave
  | lapse
  | rejoin
  deriving DecidableEq, Repr

/-- The notices (section 9.4, R186). -/
inductive Notice where
  | commandDone (tag : Half) (status : Status) (detail : Nat)
  | moduleState (module : Byte) (state : ModuleState)
  | referenceUnresolved (ref : Owner)
  | referenceRevoked (ref : Owner) (cause : RevocationCause)
  | referenceFaulted (ref : Owner) (cause : FaultCause) (site : Nat)
  | exportRefused (entry : Owner) (owner : Station)
  | peerGone (station : Station) (cause : PeerLoss)
  | busStall
  | stationIsolated
  | noticesDropped (count : Nat)
  deriving DecidableEq, Repr

/-- The location of a notice ring (R176). -/
structure Ring where
  base : Nat
  size : Nat
  deriving DecidableEq, Repr

/-- A notice taken and not yet written, with its slot (R177). -/
structure Reserved where
  slot : Nat
  notice : Notice
  deriving DecidableEq, Repr

/-- The state of the Notice Unit (R176). -/
structure NoticeUnit where
  ring : Option Ring
  producer : Nat
  consumer : Nat
  list : List Reserved
  drops : Nat
  interruptEnable : Bool
  writeFault : Bool
  consumerRefused : Bool
  deriving DecidableEq, Repr

/-- The content of a report record, fixed when it was taken, and how many of its words have been written (R173). -/
structure TakenRecord where
  words : List Word
  written : Nat
  deriving DecidableEq, Repr

/-- The runs of word transfers that other transfers and other events have come between (R182): what has been read of the
head's command block and, for a LOAD, of its descriptor, or of the next record of the commit pass; the report record
being written; the words written of the first reserved notice. -/
structure Runs where
  fetched : List Word
  record : Option TakenRecord
  noticeWords : Nat
  deriving DecidableEq, Repr

end Sys2Proof.Machine
end

