-- ==== Sys2Proof/Machine/State.lean ====
section
/-! DEFINITION. The state of the station, all of it plain data, its value after reset, and the reasons a step could
stop. -/

namespace Sys2Proof.Machine

/-- Local memory as cells in canonical form: addresses strictly rising, none holding what an unlisted address reads as
(see `Memory.wf` in Machine/Ops.lean). -/
abbrev Memory := List Host.Cell

/-- The state of the station and of the local memory it works in. -/
structure State where
  -- Station Control
  /-- Station state (R152). -/
  station : StationState
  /-- Station number (R151). -/
  number : Station
  /-- Configuration record (R153). -/
  config : Option ConfigRecord
  /-- Peer table, indexed by station number (R159). -/
  peers : List Peer
  /-- The RESET input is low (R149, R165). -/
  inReset : Bool
  -- Bus Interface
  /-- Transmit queue, head first (R137). -/
  txQueue : List TxEntry
  /-- Receive queue with its lapse markers, head first (R147). -/
  rxQueue : List RxItem
  /-- Outgoing frame (R136). -/
  outgoing : Option Outgoing
  /-- Held-frame record (R139). -/
  held : Option HeldRecord
  /-- Next-sequence value (R130). -/
  nextSequence : Byte
  /-- What the station does on the line (R135, R136, R139). -/
  line : Line
  /-- Since it began to listen, the station has seen that no reservation runs (R132). -/
  busSeen : Bool
  -- Directory
  /-- Export directory, oldest first (R38). -/
  directory : List ExportEntry
  /-- Answer list, head first (R48). -/
  answers : List Answer
  /-- Generation counter (R9). -/
  nextGeneration : Half
  -- Reference Unit (the site pool's records in use are those of the references, R60)
  /-- Reference table, oldest first (R59). -/
  refs : List Ref
  /-- The 16 seek slots (R68). -/
  slots : List (Option Slot)
  /-- Seek backlog, oldest first (R77). -/
  backlog : List Owner
  -- Patch Engine
  /-- Patch queue, head first (R108). -/
  patchQueue : List Owner
  /-- Current walk (R109). -/
  walk : Option Walk
  /-- Site transfer under way (R114, R125). -/
  transfer : Option SiteTransfer
  -- Command Engine
  /-- Command queue of block addresses, head first (R168). -/
  commandQueue : List Word
  /-- Last SUBMIT result (R167). -/
  lastSubmit : SubmitResult
  /-- Command in progress (R170). -/
  command : Option Command
  /-- Frames the Command Engine has still to place; the first is its request for room (R138, R25, R33). -/
  wanted : List TxEntry
  /-- Module table, oldest first (R13). -/
  modules : List ModuleRecord
  -- Notice Unit
  /-- All of the Notice Unit's state (R176). -/
  notices : NoticeUnit
  -- Memory agent
  /-- The claimant that the agent has granted; where several asked together while it was idle, each of them, for it may
  serve any of these next; empty where none asks (R182). -/
  granted : List Claimant
  /-- Runs of word transfers not yet over (R173, R177, R182). -/
  runs : Runs
  -- Local memory
  /-- Local memory (R6). -/
  mem : Memory
  -- The model's own
  /-- How many free values have been drawn (log 6). -/
  freeCount : Nat
  /-- The commands that are waiting, first in, first out. -/
  pending : List Instr
  deriving DecidableEq, Repr

/-- Reasons for a machine stop. The spec stops the station nowhere, so no meaning of this model answers one. -/
inductive Fault where
  /-- Raised by no meaning (safe: it would stop where the station goes on). It stands for an access of the controller
  beyond local memory, which the model treats as a transfer that is not acknowledged instead (log 27). -/
  | beyondLocalMemory
  deriving DecidableEq, Repr

/-- Reasons for which a command has no meaning. -/
inductive Refusal where
  /-- Raised by an arm of `exec` whose command has no meaning yet (safe: the model stops). No arm does. -/
  | notModelled (mnemonic : String)
  deriving DecidableEq, Repr

/-- A peer record after reset (R159). -/
def Peer.absent : Peer := { present := false, group := 0, lastSequence := 0 }

/-- The Notice Unit after reset (R176). -/
def NoticeUnit.reset : NoticeUnit :=
  { ring := none, producer := 0, consumer := 0, list := [], drops := 0, interruptEnable := false, writeFault := false,
    consumerRefused := false }

/-- No run of word transfers is under way. -/
def Runs.idle : Runs := { fetched := [], record := none, noticeWords := 0 }

/-- The machine right after reset (R9, R58, R86, R127, R149, R164, R166, R176). The spec gives no station number apart
from the straps and no content of local memory: DESIGN CHOICE, logs 4 and 5. -/
def State.reset : State :=
  { station := .off, number := 0, config := none, peers := List.replicate 16 Peer.absent, inReset := false
    txQueue := [], rxQueue := [], outgoing := none, held := none, nextSequence := 0, line := .quiet, busSeen := false
    directory := [], answers := [], nextGeneration := 1
    refs := [], slots := List.replicate 16 none, backlog := []
    patchQueue := [], walk := none, transfer := none
    commandQueue := [], lastSubmit := .none, command := none, wanted := [], modules := []
    notices := NoticeUnit.reset
    granted := []
    runs := Runs.idle
    mem := []
    freeCount := 0
    pending := [] }

end Sys2Proof.Machine
end

