-- ==== Sys2Proof/Machine/Ops.lean ====
section
/-! DEFINITION. Operations every block uses: local memory and transfers, keys and addresses, taking a notice,
the arbiter of transmit room, the end of a command. -/

namespace Sys2Proof.Machine

/-! ## Local memory -/

/-- Byte `k` of a word, 0 at the lowest address: local memory is big-endian (00, Local memory). -/
def byteAt (w : Word) (k : Nat) : Byte :=
  (w >>> (24 - 8 * k)).setWidth 8

/-- The word of four bytes, the lowest address first. -/
def wordOf (b0 b1 b2 b3 : Byte) : Word :=
  b0 ++ b1 ++ b2 ++ b3

/-- What a byte of local memory that nothing has written reads as. DESIGN CHOICE, unsafe (log 4). -/
def unlistedByte : Byte := 0

/-- The byte at an address. -/
def Memory.byte : Memory → Nat → Byte
  | [], _ => unlistedByte
  | (a, v) :: m, x => if a = x then v else Memory.byte m x

/-- Insertion of a byte in address order; a byte equal to an unlisted one is not listed. -/
def Memory.insertByte : Memory → Nat → Byte → Memory
  | [], x, v => if v = unlistedByte then [] else [(x, v)]
  | (a, b) :: m, x, v =>
    if x < a then (if v = unlistedByte then (a, b) :: m else (x, v) :: (a, b) :: m)
    else if x = a then (if v = unlistedByte then m else (x, v) :: m)
    else (a, b) :: Memory.insertByte m x v

/-- A store of one byte; there is no location above 0x0FFF_FFFF (R6). -/
def Memory.setByte (m : Memory) (x : Nat) (v : Byte) : Memory :=
  if x < Config.localBytes then m.insertByte x v else m

/-- The word at an address. -/
def Memory.word (m : Memory) (a : Nat) : Word :=
  wordOf (m.byte a) (m.byte (a + 1)) (m.byte (a + 2)) (m.byte (a + 3))

/-- A store of one word. -/
def Memory.setWord (m : Memory) (a : Nat) (w : Word) : Memory :=
  (((m.setByte a (byteAt w 0)).setByte (a + 1) (byteAt w 1)).setByte (a + 2) (byteAt w 2)).setByte (a + 3) (byteAt w 3)

/-- Stores of successive words. -/
def Memory.setWords (m : Memory) (a : Nat) : List Word → Memory
  | [] => m
  | w :: ws => Memory.setWords (m.setWord a w) (a + 4) ws

/-- Cells at addresses from `low` upward, strictly rising, within local memory, none reading as unlisted. -/
def Memory.risingFrom : Nat → Memory → Bool
  | _, [] => true
  | low, (a, v) :: m =>
    decide (low ≤ a) && decide (a < Config.localBytes) && decide (v ≠ unlistedByte) && Memory.risingFrom (a + 1) m

/-- The canonical form of local memory. -/
def Memory.wf (m : Memory) : Bool :=
  Memory.risingFrom 0 m

/-! ## Transfers (R182) -/

/-- Transfer number `k` of a step, at local address `a`, is acknowledged: the local bus does not end it with an error,
and the address exists (log 27). -/
def acks (env : Env) (k a : Nat) : Bool :=
  decide (env.failAt ≠ some k) && decide (a < Config.localBytes)

/-- Local memory after the stores of other bus masters (log 7). -/
def Memory.afterStores (m : Memory) (cells : List Host.Cell) : Memory :=
  cells.foldl (fun m c => m.setByte c.1 c.2) m

/-- The state in which a claimant makes its transfers: the stores of other bus masters have been made. -/
def State.forTransfers (s : State) (env : Env) : State :=
  { s with mem := s.mem.afterStores env.stores }

/-- The run of readings that the Command Engine is in is over. -/
def State.endFetch (s : State) : State :=
  { s with runs := { s.runs with fetched := [] } }

/-- A report record under way, or none. -/
def State.setRecord (s : State) (x : Option TakenRecord) : State :=
  { s with runs := { s.runs with record := x } }

/-- So many words of the first reserved notice have been written. -/
def State.setNoticeWords (s : State) (n : Nat) : State :=
  { s with runs := { s.runs with noticeWords := n } }

/-- The surroundings of a run of transfers of which `n` were made in earlier steps, its transfers counted from its first. -/
def resumed (env : Env) (n : Nat) : Env :=
  { env with failAt := env.failAt.map (· + n), upTo := none }

/-- The number of transfers after which this step leaves its run, unless one of them fails first (R182; log 8). -/
def pauseAt (env : Env) : Option Nat :=
  match env.upTo, env.failAt with
  | some p, some f => if f < p then none else some p
  | some p, none => some p
  | none, _ => none

/-- Of the words a step has still to write, those it writes. -/
def wordsNow (env : Env) (words : List Word) : List Word :=
  match env.upTo with
  | some n => words.take n
  | none => words

/-- The words read so far with `n` more read; `next` is the address of the word after them. -/
def fetchMore (mem : Memory) (next : List Word → Nat) : Nat → List Word → List Word
  | 0, ws => ws
  | n + 1, ws => fetchMore mem next n (ws ++ [mem.word (next ws)])

/-- The word at `a` after a write that was not acknowledged: a free value (R175; for a notice log 6). -/
def State.spoilWord (s : State) (a : Nat) : State :=
  { s with mem := s.mem.setWord a (Config.unknownWord s.freeCount), freeCount := s.freeCount + 1 }

/-- Word writes in ascending order, the first of them transfer number `k` of the step. The second component is the
number of the write that was not acknowledged, if one was; no later word is written. -/
def State.writeWords (env : Env) : Nat → Nat → List Word → State → State × Option Nat
  | _, _, [], s => (s, none)
  | k, a, w :: ws, s =>
    if acks env k a then State.writeWords env (k + 1) (a + 4) ws { s with mem := s.mem.setWord a w }
    else (s.spoilWord a, some k)

/-! ## Keys, addresses, records -/

/-- Two keys match (R4). -/
def Key.agrees (a b : Key) : Bool :=
  decide (a.scope = b.scope) && decide (a.name = b.name) && (decide (a.scope = .common) || decide (a.group = b.group))

/-- The group set by CONFIGURE; 0 until then (R3, R153). -/
def State.ownGroup (s : State) : BitVec 3 :=
  match s.config with
  | some c => c.group
  | none => 0

/-- The global address of a local address on a station (R7). -/
def globalAddress (n : Station) (a : Nat) : Word :=
  BitVec.ofNat 32 (n.val * 0x10000000 + a)

/-- The record of the module table with this id. -/
def State.module? (s : State) (id : Byte) : Option ModuleRecord :=
  s.modules.find? fun m => decide (m.id = id)

/-- A station listens in JOINING, ACTIVE and LEAVING, and in CONFIGURED while its STOP completes the last repeat of its
LEAVE (R142, R143, R158). Not while RESET is low (R149). -/
def State.listens (s : State) : Bool :=
  !s.inReset &&
  match s.station with
  | .joining => true
  | .active => true
  | .leaving => true
  | .configured => match s.command with
    | some (.stop _) => true
    | _ => false
  | .off => false
  | .isolated => false

/-- A station may begin frames, and applies what it has taken, in JOINING, ACTIVE and LEAVING (R132, R152, R158). -/
def State.onBus (s : State) : Bool :=
  !s.inReset && decide (s.station = .joining ∨ s.station = .active ∨ s.station = .leaving)

/-- Lapse markers in the receive queue of a station (R146). -/
def State.hasMarker (s : State) (n : Station) : Bool :=
  s.rxQueue.any fun x => decide (x = .lapse n)

/-- Frames in the receive queue (R143, test 5). -/
def State.rxFrames (s : State) : Nat :=
  (s.rxQueue.filter fun | .frame _ => true | .lapse _ => false).length

/-- Site records in use (R60). -/
def State.sitesInUse (s : State) : Nat :=
  (s.refs.map fun r => r.sites.length).sum

/-! ## Notices (R176 to R180) -/

/-- Notices written and not released, and notices reserved (R177). -/
def NoticeUnit.occupancy (n : NoticeUnit) : Nat :=
  match n.ring with
  | none => 0
  | some r => (n.producer + r.size - n.consumer) % r.size + n.list.length

/-- A notice has room (R177). -/
def NoticeUnit.hasRoom (n : NoticeUnit) : Bool :=
  match n.ring with
  | none => false
  | some r => decide (n.occupancy < r.size - 1)

/-- The slot for the next reserved notice, and the notice on the list (R177). -/
def NoticeUnit.reserve (n : NoticeUnit) (x : Notice) : NoticeUnit :=
  match n.ring with
  | none => n
  | some r => { n with list := n.list ++ [{ slot := (n.producer + n.list.length) % r.size, notice := x }] }

/-- The test of the pending-drop count (R178). -/
def NoticeUnit.testDrops (n : NoticeUnit) : NoticeUnit :=
  if n.drops ≠ 0 ∧ n.hasRoom then { n.reserve (.noticesDropped n.drops) with drops := 0 } else n

/-- The pending-drop count after `k` more drops (R178, R180). -/
def addDrops (drops k : Nat) : Nat :=
  min Config.dropLimit (drops + k)

/-- Taking a notice: the test of the count, then a slot or a drop (R177, R178). -/
def NoticeUnit.take (n : NoticeUnit) (x : Notice) : NoticeUnit :=
  let n := n.testDrops
  if n.hasRoom then n.reserve x else { n with drops := addDrops n.drops 1 }

/-- A block posts a notice. The notices of one event are posted one after another within its step (R176). -/
def State.post (s : State) (x : Notice) : State :=
  { s with notices := s.notices.take x }

/-- Notices posted in order. -/
def State.postAll (s : State) (xs : List Notice) : State :=
  xs.foldl State.post s

/-! ## Room on the transmit queue (R138) -/

/-- The waiting slot of lowest number that is in TO-SEND (R138). -/
def State.waitingSlot (s : State) : Option Nat :=
  s.slots.findIdx? fun
    | some x => x.awaitingRoom && decide (x.state = .toSend)
    | none => false

/-- Room is given to a slot: it stops awaiting room and its SEEK joins the tail (R69). -/
def State.grantSlot (s : State) (k : Nat) : State :=
  match s.slots[k]? with
  | some (some x) =>
    { s with
      txQueue := s.txQueue ++ [.seek k x.key]
      slots := s.slots.set k (some { x with awaitingRoom := false }) }
  | _ => s

/-- Room is given to the Command Engine: it places its frame and goes on (R138). -/
def State.grantCommand (s : State) : State :=
  match s.wanted with
  | [] => s
  | t :: ts => { s with txQueue := s.txQueue ++ [t], wanted := ts }

/-- Grants while a place is free and a request waits: slots first, lowest number first, then the Command Engine; `order`
settles requests made in one event with places free (R138, log 12). Each round fills a place, so 32 rounds are enough. -/
def State.grantRounds : Nat → List Bool → State → State
  | 0, _, s => s
  | n + 1, order, s =>
    if Config.transmitRoom ≤ s.txQueue.length then s
    else match s.waitingSlot with
      | some k =>
        match s.wanted, order with
        | _ :: _, true :: rest => State.grantRounds n rest s.grantCommand
        | _ :: _, false :: rest => State.grantRounds n rest (s.grantSlot k)
        | _, _ => State.grantRounds n order (s.grantSlot k)
      | none =>
        match s.wanted with
        | [] => s
        | _ :: _ => State.grantRounds n order s.grantCommand

/-- Every request for room is withdrawn (R85, R148). -/
def State.withdrawRequests (s : State) : State :=
  { s with slots := s.slots.map (Option.map fun x => { x with awaitingRoom := false }), wanted := [] }

/-- The arbiter at the end of an event: it grants what it can; in ISOLATED it withdraws every request (R85). -/
def State.arbitrate (s : State) (order : List Bool) : State :=
  if s.station = .isolated then s.withdrawRequests else s.grantRounds Config.transmitRoom order

/-! ## The end of a command (R168, R170) -/

/-- The command at the head ends: COMMAND-DONE is handed to the Notice Unit and the command leaves the queue. -/
def State.endCommand (s : State) (tag : Half) (status : Status) (detail : Nat) : State :=
  { s.post (.commandDone tag status detail) with commandQueue := s.commandQueue.tail, command := none }

end Sys2Proof.Machine
end

