-- ==== Sys2Proof/Machine/Operands.lean ====
section
/-! DEFINITION. The formats of chapter 10: frames as bits and their check, descriptors, command blocks, notice records,
report records. -/

namespace Sys2Proof.Machine

/-! ## Bits on the line (R188) -/

/-- The `w` low bits of `n`, most significant bit first. -/
def natBits : Nat → Nat → List Bool
  | 0, _ => []
  | w + 1, n => n.testBit w :: natBits w n

/-- The bits of bytes in sending order. -/
def byteBits (bs : List Byte) : List Bool :=
  bs.flatMap fun b => natBits 8 b.toNat

/-- `n` bytes read from bits. -/
def bitsBytes : Nat → List Bool → List Byte
  | 0, _ => []
  | n + 1, bits => BitVec.ofNat 8 (bitsNat (bits.take 8)) :: bitsBytes n (bits.drop 8)

/-- One step of the check register (R189). -/
def checkStep (r : Half) (b : Bool) : Half :=
  if b != r.getLsbD 15 then (r <<< 1) ^^^ 0x8005 else r <<< 1

/-- The check register after the bits, from its preset 0xFFFF (R189). -/
def checkOf (bits : List Bool) : Half :=
  bits.foldl checkStep 0xFFFF

/-! ## Frames (R129, R131, R188) -/

/-- The class of a frame kind (R129). -/
def Body.frameClass : Body → Nat
  | .clash .. => 0
  | .offer .. => 0
  | .join => 1
  | .leave => 1
  | .withdraw .. => 1
  | .announce .. => 2
  | .seek .. => 3

/-- The kind code of a frame (R188). -/
def Body.kindCode : Body → Nat
  | .clash .. => 1
  | .offer .. => 2
  | .join => 3
  | .leave => 4
  | .withdraw .. => 5
  | .announce .. => 6
  | .seek .. => 7

/-- The class that goes with a kind code; none where the code is no kind (R129, R188). -/
def classOfCode (code : Nat) : Option Nat :=
  if code = 1 ∨ code = 2 then some 0
  else if code = 3 ∨ code = 4 ∨ code = 5 then some 1
  else if code = 6 then some 2
  else if code = 7 then some 3
  else none

/-- The flags byte: bit 7 the scope, bit 0 the kind (R188). -/
def flagsByte (scope : Scope) (kind : Kind) : Byte :=
  (match scope with | .common => 0x00 | .group => 0x80) ||| (match kind with | .entry => 0x00 | .data => 0x01)

/-- The scope in a flags byte. -/
def scopeOfFlags (b : Byte) : Scope :=
  if b.getLsbD 7 then .group else .common

/-- The kind in a flags byte. -/
def kindOfFlags (b : Byte) : Kind :=
  if b.getLsbD 0 then .data else .entry

/-- A generation on the line. -/
def halfBytes (h : Half) : List Byte :=
  [(h >>> 8).setWidth 8, h.setWidth 8]

/-- A target on the line. -/
def wordBytes (w : Word) : List Byte :=
  [byteAt w 0, byteAt w 1, byteAt w 2, byteAt w 3]

/-- A name on the line: length byte and bytes. -/
def nameBytes (name : List Byte) : List Byte :=
  BitVec.ofNat 8 name.length :: name

/-- A refused pair on the line. -/
def pairBytes (p : Pair) : List Byte :=
  BitVec.ofNat 8 p.station.val :: halfBytes p.generation

/-- The body of a frame (R188). -/
def Body.bytes : Body → List Byte
  | .clash scope name owner generation target kind refused =>
    flagsByte scope kind :: nameBytes name ++ (BitVec.ofNat 8 owner.val :: halfBytes generation) ++ wordBytes target
      ++ (BitVec.ofNat 8 refused.length :: refused.flatMap pairBytes)
  | .offer scope name generation target kind =>
    flagsByte scope kind :: nameBytes name ++ halfBytes generation ++ wordBytes target
  | .join => []
  | .leave => []
  | .withdraw scope name generation => flagsByte scope .entry :: nameBytes name ++ halfBytes generation
  | .announce scope name generation target kind =>
    flagsByte scope kind :: nameBytes name ++ halfBytes generation ++ wordBytes target
  | .seek scope name => flagsByte scope .entry :: nameBytes name

/-- The arbitration key: class times 16 plus the sender (R129). -/
def Frame.arbitrationKey (f : Frame) : Nat :=
  f.body.frameClass * 16 + f.sender.val

/-- Header and body bits (R188). -/
def Frame.contentBits (f : Frame) : List Bool :=
  natBits 6 f.arbitrationKey ++ natBits 8 f.sequence.toNat ++ natBits 4 f.body.kindCode ++ natBits 3 f.group.toNat
    ++ natBits 8 f.body.bytes.length ++ byteBits f.body.bytes

/-- The frame as sent, with its check (R188, R189). -/
def Frame.bits (f : Frame) : List Bool :=
  f.contentBits ++ natBits 16 (checkOf f.contentBits).toNat

/-- A halfword of two bytes. -/
def halfOf (b0 b1 : Byte) : Half :=
  b0 ++ b1

/-- The refused pairs of a CLASH; the upper bits of a station byte are ignored (R188). -/
def readPairs : List Byte → List Pair
  | s :: g0 :: g1 :: rest => { station := Fin.ofNat 16 s.toNat, generation := halfOf g0 g1 } :: readPairs rest
  | _ => []

/-- The body of a kind from its bytes; none where the length is not the one R188 gives (R131). -/
def readBody (code : Nat) (bytes : List Byte) : Option Body :=
  if code = 3 then (if bytes.length = 0 then some .join else none)
  else if code = 4 then (if bytes.length = 0 then some .leave else none)
  else
    match bytes with
    | flags :: len :: rest =>
      let n := len.toNat
      let name := rest.take n
      let scope := scopeOfFlags flags
      let kind := kindOfFlags flags
      if n = 0 ∨ 24 < n then none
      else
        match code, rest.drop n with
        | 7, [] => if rest.length = n then some (.seek scope name) else none
        | 5, [g0, g1] => some (.withdraw scope name (halfOf g0 g1))
        | 2, [g0, g1, t0, t1, t2, t3] => some (.offer scope name (halfOf g0 g1) (wordOf t0 t1 t2 t3) kind)
        | 6, [g0, g1, t0, t1, t2, t3] => some (.announce scope name (halfOf g0 g1) (wordOf t0 t1 t2 t3) kind)
        | 1, o :: g0 :: g1 :: t0 :: t1 :: t2 :: t3 :: c :: pairs =>
          if 1 ≤ c.toNat ∧ c.toNat ≤ 15 ∧ pairs.length = 3 * c.toNat then
            some (.clash scope name (Fin.ofNat 16 o.toNat) (halfOf g0 g1) (wordOf t0 t1 t2 t3) kind (readPairs pairs))
          else none
        | _, _ => none
    | _ => none

/-- A CLASH's owner station is its sender (R131). -/
def Body.ownerAgrees (sender : Station) : Body → Bool
  | .clash _ _ owner _ _ _ _ => decide (owner = sender)
  | _ => true

/-- The sender station a frame's first six bits name (R129). -/
def readSender (bits : List Bool) : Station :=
  Fin.ofNat 16 (bitsNat (bits.take 6))

/-- The sequence, where it is whole (R139). -/
def readSequence (bits : List Bool) : Option Byte :=
  if 14 ≤ bits.length then some (BitVec.ofNat 8 (bitsNat ((bits.drop 6).take 8))) else none

/-- The good frame the bits of a whole frame spell; none where the frame is bad (R131). -/
def readFrame (bits : List Bool) : Option Frame :=
  let sender := readSender bits
  let code := bitsNat ((bits.drop 14).take 4)
  let body := bitsBytes (bitsNat ((bits.drop 21).take 8)) (bits.drop 29)
  if bits.length < 29 ∨ bits.length ≠ declaredLength bits then none
  else if checkOf bits ≠ 0 then none
  else if classOfCode code ≠ some (bitsNat (bits.take 2)) then none
  else
    match readBody code body with
    | some b =>
      if b.ownerAgrees sender then
        some { sender, sequence := BitVec.ofNat 8 (bitsNat ((bits.drop 6).take 8)),
               group := BitVec.ofNat 3 (bitsNat ((bits.drop 18).take 3)), body := b }
      else none
    | none => none

/-! ## Descriptors (R15, R16, R184) -/

/-- A descriptor, or a record of it, being read word by word: local memory, the descriptor address, the first word
read in this run of transfers, its transfer number, and the words the run read in earlier steps. -/
structure Reading where
  mem : Memory
  env : Env
  base : Nat
  firstWord : Nat
  firstTransfer : Nat
  fetched : List Word := []

/-- The fault at a field (R23). -/
def badDescriptor (offset : Nat) : Ending := { status := .badDescriptor, detail := offset }

/-- The number of the transfer that reads word `w`. -/
def Reading.transfer (r : Reading) (w : Nat) : Nat :=
  r.firstTransfer + (w - r.firstWord)

/-- The content of word `w`: as an earlier step read it, else as it stands in local memory. -/
def Reading.content (r : Reading) (w : Nat) : Word :=
  (r.fetched[r.transfer w]?).getD (r.mem.word (r.base + 4 * w))

/-- Reads word `w` of the descriptor; `field` is the offset of the first field that lies in it (R24, log 13). -/
def Reading.word (r : Reading) (w field : Nat) : Except Ending Word :=
  let a := r.base + 4 * w
  if 0x0FFFFFFF < a then .error (badDescriptor field)
  else if acks r.env (r.transfer w) a then .ok (r.content w)
  else .error { status := .readError, detail := 4 * w }

/-- A check of a field. -/
def requireField (ok : Bool) (offset : Nat) : Except Ending Unit :=
  if ok then .ok () else .error (badDescriptor offset)

/-- A name byte (R1). -/
def isNameByte (b : Byte) : Bool :=
  decide (0x21 ≤ b.toNat) && decide (b.toNat ≤ 0x7E)

/-- The name bytes among the four bytes of word `j` of a name field: those at indexes 1 to `len`. -/
def nameBytesIn (len j : Nat) (w : Word) : List (Nat × Byte) :=
  ((List.range 4).map fun k => (4 * j + k, byteAt w k)).filter fun p => decide (1 ≤ p.1) && decide (p.1 ≤ len)

/-- Reads the words `7 - n` to 6 of a name field whose word 0 has been read, checking each byte (R2). -/
def Reading.nameWords (r : Reading) (off len : Nat) : Nat → List Byte → Except Ending (List Byte)
  | 0, acc => .ok acc
  | n + 1, acc => do
    let j := 6 - n
    let w ← r.word (off / 4 + j) off
    let here := nameBytesIn len j w
    match here.find? fun p => !isNameByte p.2 with
    | some p => .error (badDescriptor (off + p.1))
    | none => r.nameWords off len n (acc ++ here.map (·.2))

/-- Reads a name field (R2, R183): the length, then the bytes from the first to the last. -/
def Reading.name (r : Reading) (off : Nat) : Except Ending (List Byte) := do
  let w ← r.word (off / 4) off
  let len := (byteAt w 0).toNat
  requireField (decide (1 ≤ len) && decide (len ≤ 24)) off
  let here := nameBytesIn len 0 w
  match here.find? fun p => !isNameByte p.2 with
  | some p => .error (badDescriptor (off + p.1))
  | none => r.nameWords off len 6 (here.map (·.2))

/-- Scope codes (R183). -/
def scopeOfCode (b : Byte) : Option Scope :=
  if b = 1 then some .common else if b = 2 then some .group else none

/-- Kind codes of an export (R183). -/
def kindOfCode (b : Byte) : Option Kind :=
  if b = 1 then some .entry else if b = 2 then some .data else none

/-- Kind codes of an import (R183). -/
def expectedOfCode (b : Byte) : Option ExpectedKind :=
  if b = 1 then some .entry else if b = 2 then some .data else if b = 3 then some .any else none

/-- A coded field, or its fault. -/
def requireCode {α : Type} (code : Option α) (offset : Nat) : Except Ending α :=
  match code with
  | some x => .ok x
  | none => .error (badDescriptor offset)

/-- A segment record (R6, R19). -/
def Reading.segment (r : Reading) (off : Nat) : Except Ending Segment := do
  let base ← r.word (off / 4) off
  let length ← r.word (off / 4 + 1) (off + 4)
  requireField (decide (1 ≤ length.toNat) && decide (length.toNat ≤ 16777216)
    && decide (base.toNat + length.toNat ≤ 0x10000000)) off
  .ok { base, length }

/-- Segment records from `off` (R19). -/
def Reading.segments (r : Reading) : Nat → Nat → Except Ending (List Segment)
  | _, 0 => .ok []
  | off, n + 1 => do
    let g ← r.segment off
    let gs ← r.segments (off + 8) n
    .ok (g :: gs)

/-- An export record as read (R15). -/
structure ExportRecord where
  scope : Scope
  name : List Byte
  kind : Kind
  segment : Segment
  offset : Word
  deriving DecidableEq, Repr

/-- An export record at `off`, checked in reading order (R20). -/
def Reading.exportRecord (r : Reading) (segments : List Segment) (off : Nat) : Except Ending ExportRecord := do
  let name ← r.name off
  let w ← r.word (off / 4 + 7) (off + 0x1C)
  let scope ← requireCode (scopeOfCode (byteAt w 0)) (off + 0x1C)
  let kind ← requireCode (kindOfCode (byteAt w 1)) (off + 0x1D)
  let segment ← requireCode (segments[(byteAt w 2).toNat]?) (off + 0x1E)
  let offset ← r.word (off / 4 + 8) (off + 0x20)
  requireField (decide (offset.toNat < segment.length.toNat)) (off + 0x20)
  .ok { scope, name, kind, segment, offset }

/-- Bytes of a site's location (R6). -/
def Form.size : Form → Nat
  | .a32 => 4
  | .hi16 => 2
  | .lo16 => 2
  | .d16 => 2
  | .fld .. => 4

/-- Form codes, FLD's fields still to be read (R183). -/
def formOfCode (b : Byte) : Option Form :=
  if b = 1 then some .a32 else if b = 2 then some .hi16 else if b = 3 then some .lo16
  else if b = 4 then some .d16 else if b = 5 then some (.fld 0 0 0) else none

/-- The FLD fields of a site record's third word, checked in order; for the other forms they are ignored (R16, R21). -/
def fieldsOfForm (form : Form) (w : Word) (off : Nat) : Except Ending Form :=
  match form with
  | .fld .. => do
    let p := (byteAt w 0).toNat
    let n := (byteAt w 1).toNat
    let sh := (byteAt w 2).toNat
    requireField (decide (p ≤ 31)) (off + 0x08)
    requireField (decide (1 ≤ n) && decide (n ≤ 32) && decide (p + n ≤ 32)) (off + 0x09)
    requireField (decide (sh ≤ 15)) (off + 0x0A)
    .ok (.fld p n sh)
  | _ => .ok form

/-- A site record at `off`, checked in reading order (R21). -/
def Reading.site (r : Reading) (segments : List Segment) (off : Nat) : Except Ending Site := do
  let w ← r.word (off / 4) off
  let form ← requireCode (formOfCode (byteAt w 0)) off
  let index := (byteAt w 1).toNat
  let segment ← requireCode (segments[index]?) (off + 0x01)
  let offset ← r.word (off / 4 + 1) (off + 0x04)
  requireField (decide (offset.toNat + form.size ≤ segment.length.toNat)) (off + 0x04)
  requireField (decide ((segment.base.toNat + offset.toNat) % form.size = 0)) (off + 0x04)
  let fields ← r.word (off / 4 + 2) (off + 0x08)
  let form ← fieldsOfForm form fields off
  let addend ← r.word (off / 4 + 3) (off + 0x0C)
  .ok { segment := index, offset, form, addend, address := segment.base.toNat + offset.toNat }

/-- Site records from `off`. -/
def Reading.sites (r : Reading) (segments : List Segment) : Nat → Nat → Except Ending (List Site)
  | _, 0 => .ok []
  | off, n + 1 => do
    let x ← r.site segments off
    let xs ← r.sites segments (off + 16) n
    .ok (x :: xs)

/-- An import record as read (R15). -/
structure ImportRecord where
  scope : Scope
  name : List Byte
  expected : ExpectedKind
  sites : List Site
  deriving DecidableEq, Repr

/-- An import record at `off` with its site records (R21). -/
def Reading.importRecord (r : Reading) (segments : List Segment) (off : Nat) : Except Ending ImportRecord := do
  let name ← r.name off
  let w ← r.word (off / 4 + 7) (off + 0x1C)
  let scope ← requireCode (scopeOfCode (byteAt w 0)) (off + 0x1C)
  let expected ← requireCode (expectedOfCode (byteAt w 1)) (off + 0x1D)
  let count := (byteAt w 2).toNat
  requireField (decide (1 ≤ count) && decide (count ≤ 64)) (off + 0x1E)
  let sites ← r.sites segments (off + 32) count
  .ok { scope, name, expected, sites }

/-! ## Command blocks (R169, R185) -/

/-- The command a code names (R185). -/
def commandOfCode (b : Byte) : Option CommandKind :=
  if b = 1 then some .configure else if b = 2 then some .start else if b = 3 then some .stop
  else if b = 4 then some .load else if b = 5 then some .unload else if b = 6 then some .reseek
  else if b = 7 then some .report else none

/-- Words of a block after its first (R185). -/
def CommandKind.moreWords : CommandKind → Nat
  | .configure => 4
  | .start => 0
  | .stop => 0
  | .load => 1
  | .unload => 1
  | .reseek => 1
  | .report => 2

/-- The states a command is taken in (R169). -/
def CommandKind.takenIn (k : CommandKind) (st : StationState) : Bool :=
  match k with
  | .configure => decide (st = .off)
  | .start => decide (st = .configured)
  | .stop => decide (st = .active)
  | .load => decide (st = .active)
  | .unload => decide (st = .active)
  | .reseek => decide (st = .active)
  | .report => true

/-- The tag of a block, bytes 2 and 3 of its first word (R185). -/
def tagOf (w : Word) : Half :=
  halfOf (byteAt w 2) (byteAt w 3)

/-- The content of word `k` of a block at `a`: as an earlier step of the run read it, else as it stands in local memory. -/
def blockContent (mem : Memory) (fetched : List Word) (a k : Nat) : Word :=
  (fetched[k]?).getD (mem.word (a + 4 * k))

/-- The words of a block at `a` from word `k` on: READ-ERROR at a word not acknowledged, BAD-COMMAND at a word beyond
local memory, which is not read (R169). -/
def blockWords (mem : Memory) (fetched : List Word) (env : Env) (a : Nat) : Nat → Nat → Except Ending (List Word)
  | _, 0 => .ok []
  | k, n + 1 =>
    if 0x0FFFFFFF < a + 4 * k then .error { status := .badCommand, detail := 0 }
    else if acks env k (a + 4 * k) then do
      let ws ← blockWords mem fetched env a (k + 1) n
      .ok (blockContent mem fetched a k :: ws)
    else .error { status := .readError, detail := 4 * k }

/-- Ring sizes (R153). -/
def ringSizes : List Nat := [16, 32, 64, 128, 256]

/-- The configuration in the words of a CONFIGURE block, or the offset of the first field that fails (R154, R185). -/
def readConfig (words : List Word) : Except Nat ConfigRecord :=
  let w1 := words.getD 0 0
  let stub := words.getD 1 0
  let base := words.getD 2 0
  let size := (halfOf (byteAt (words.getD 3 0) 0) (byteAt (words.getD 3 0) 1)).toNat
  let group := (byteAt w1 0).toNat
  let timeout := (byteAt w1 1).toNat
  let tries := (byteAt w1 2).toNat
  if 7 < group then .error 0x04
  else if timeout = 0 then .error 0x05
  else if tries = 0 ∨ 7 < tries then .error 0x06
  else if stub.toNat % 4 ≠ 0 then .error 0x08
  else if base.toNat % 16 ≠ 0 ∨ 0x0FFFFFFF < base.toNat then .error 0x0C
  else if size ∉ ringSizes then .error 0x10
  else if 0x10000000 < base.toNat + 16 * size then .error 0x0C
  else .ok { group := BitVec.ofNat 3 group, seekTimeout := timeout, seekTries := tries, stub, ringBase := base,
             ringSize := size }

/-! ## Codes the controller writes (R183, R185, R186) -/

/-- Station state codes. -/
def StationState.code : StationState → Nat
  | .off => 0
  | .configured => 1
  | .joining => 2
  | .active => 3
  | .leaving => 4
  | .isolated => 5

/-- Module state codes. -/
def ModuleState.code : ModuleState → Nat
  | .loading => 1
  | .linking => 2
  | .waiting => 3
  | .bound => 4
  | .faulted => 5
  | .unloading => 6

/-- Export state codes. -/
def ExportState.code : ExportState → Nat
  | .pending => 1
  | .live _ => 2
  | .withdrawing => 3
  | .refused _ => 4

/-- Reference phase codes. -/
def Phase.code : Phase → Nat
  | .queued => 1
  | .seeking _ => 2
  | .waiting => 3
  | .patching _ => 4
  | .bound _ => 5
  | .faulted _ => 6

/-- Seek slot state codes. -/
def SlotState.code : SlotState → Nat
  | .toSend => 1
  | .out => 2

/-- Scope codes. -/
def Scope.code : Scope → Nat
  | .common => 1
  | .group => 2

/-- Kind codes. -/
def Kind.code : Kind → Nat
  | .entry => 1
  | .data => 2

/-- Expected kind codes. -/
def ExpectedKind.code : ExpectedKind → Nat
  | .entry => 1
  | .data => 2
  | .any => 3

/-- Fault cause codes. -/
def FaultCause.code : FaultCause → Nat
  | .kind => 1
  | .fit => 2
  | .bus => 3

/-- Revocation cause codes. -/
def RevocationCause.code : RevocationCause → Nat
  | .withdrawn => 1
  | .peerGone => 2
  | .refusedDefiner => 3

/-- Peer loss cause codes. -/
def PeerLoss.code : PeerLoss → Nat
  | .leave => 1
  | .lapse => 2
  | .rejoin => 3

/-- Status codes (R185). -/
def Status.code : Status → Nat
  | .ok => 0
  | .refusedState => 1
  | .badCommand => 2
  | .badConfig => 3
  | .badDescriptor => 4
  | .noRoom => 5
  | .duplicateModule => 6
  | .duplicateExport => 7
  | .unknownModule => 8
  | .modulesPresent => 9
  | .readError => 10
  | .writeError => 11

/-- The selector a code names (R183). -/
def selectorOfCode (b : Byte) : Option Selector :=
  if b = 1 then some .station else if b = 2 then some .peers else if b = 3 then some .modules
  else if b = 4 then some .exports else if b = 5 then some .references else none

/-! ## Notice records (R186) -/

/-- Kind, first argument, second argument and word argument of a notice. -/
def Notice.fields : Notice → Nat × Nat × Nat × Nat
  | .commandDone tag status detail => (1, status.code, tag.toNat, detail)
  | .moduleState m st => (2, m.toNat, st.code, 0)
  | .referenceUnresolved r => (3, r.module.toNat, r.index, 0)
  | .referenceRevoked r cause => (4, r.module.toNat, r.index, cause.code)
  | .referenceFaulted r cause site => (5, r.module.toNat, r.index, cause.code * 256 + site)
  | .exportRefused e owner => (6, e.module.toNat, e.index, owner.val)
  | .peerGone n cause => (7, n.val, cause.code, 0)
  | .busStall => (8, 0, 0, 0)
  | .stationIsolated => (9, 0, 0, 0)
  | .noticesDropped count => (10, 0, 0, count)

/-- The four words of a notice's slot (R186). -/
def Notice.words (x : Notice) : List Word :=
  let (kind, first, second, word) := x.fields
  [BitVec.ofNat 32 (kind * 0x1000000 + first * 0x10000 + second), BitVec.ofNat 32 word, 0, 0]

/-! ## Report records (R56, R84, R174, R187) -/

/-- Record sizes (R187). -/
def Selector.recordSize : Selector → Nat
  | .station => 48
  | .peers => 16
  | .modules => 16
  | .exports => 48
  | .references => 64

/-- A number as one byte. -/
def byteOf (n : Nat) : List Byte := [BitVec.ofNat 8 n]

/-- A number as two bytes, the most significant first. -/
def halfField (n : Nat) : List Byte := halfBytes (BitVec.ofNat 16 n)

/-- The bytes of a record, zeros to its size (R187). -/
def padTo (size : Nat) (bs : List Byte) : List Byte :=
  bs ++ List.replicate (size - bs.length) 0

/-- Bytes as words, four at a time. -/
def bytesWords : List Byte → List Word
  | b0 :: b1 :: b2 :: b3 :: rest => wordOf b0 b1 b2 b3 :: bytesWords rest
  | _ => []

/-- A name field in local memory (R183). -/
def nameField (name : List Byte) : List Byte :=
  padTo 28 (nameBytes name)

/-- The STATION record (R174, R187). -/
def State.stationRecord (s : State) : List Byte :=
  byteOf s.number.val ++ byteOf s.station.code
    ++ (match s.config with
      | none => List.replicate 14 0
      | some c => byteOf 1 ++ byteOf c.group.toNat ++ byteOf c.seekTimeout ++ byteOf c.seekTries ++ halfField c.ringSize
          ++ wordBytes c.stub ++ wordBytes c.ringBase)
    ++ halfBytes s.nextGeneration ++ [s.nextSequence] ++ byteOf s.modules.length
    ++ halfField s.directory.length ++ halfField s.answers.length
    ++ halfField s.refs.length ++ halfField s.sitesInUse
    ++ byteOf (s.slots.filter Option.isSome).length ++ byteOf s.txQueue.length
    ++ byteOf ((s.slots.filter fun o => (o.map (·.awaitingRoom)).getD false).length + (if s.wanted = [] then 0 else 1))
    ++ byteOf s.rxFrames
    ++ byteOf (s.rxQueue.length - s.rxFrames) ++ byteOf s.notices.producer ++ byteOf s.notices.consumer ++ byteOf 0
    ++ halfField s.backlog.length ++ halfField s.patchQueue.length ++ halfField s.notices.drops

/-- A PEERS record (R174, R187). -/
def peerRecord (n : Nat) (p : Peer) : List Byte :=
  byteOf n ++ byteOf p.present.toNat ++ byteOf p.group.toNat ++ [p.lastSequence]

/-- A MODULES record (R174, R187). -/
def moduleRecordBytes (m : ModuleRecord) : List Byte :=
  [m.id] ++ byteOf m.state.code ++ byteOf m.segmentCount ++ byteOf 0 ++ wordBytes m.descriptor
    ++ halfField m.exportCount ++ halfField m.importCount ++ halfField m.siteCount

/-- The owed refused list of an entry (R38). -/
def ExportState.owed : ExportState → List Pair
  | .live owed => owed
  | .pending => []
  | .withdrawing => []
  | .refused _ => []

/-- The answer list member of an entry. -/
def State.answer? (s : State) (o : Owner) : Option Answer :=
  s.answers.find? fun a => decide (a.owner = o)

/-- Answer flags: bit 0 member, bit 1 owes OFFER, bit 2 owes CLASH (R187). -/
def State.answerFlags (s : State) (e : ExportEntry) : Nat :=
  match s.answer? e.owner with
  | none => 0
  | some a => 1 + 2 * a.owesOffer.toNat + (if e.state.owed = [] then 0 else 4)

/-- An EXPORTS record (R56, R187). -/
def State.exportRecord (s : State) (e : ExportEntry) : List Byte :=
  byteOf e.owner.index ++ byteOf e.key.scope.code ++ byteOf e.kind.code ++ byteOf e.state.code ++ nameField e.key.name
    ++ wordBytes e.target ++ halfBytes e.generation
    ++ (match e.state with
      | .refused p => halfBytes p.generation ++ byteOf p.station.val
      | _ => halfField 0 ++ byteOf 0xFF)
    ++ byteOf (s.answerFlags e) ++ byteOf e.state.owed.length

/-- The binding a phase holds (R62). -/
def Phase.binding? : Phase → Option Binding
  | .patching b => some b
  | .bound b => some b
  | .queued => none
  | .seeking _ => none
  | .waiting => none
  | .faulted _ => none

/-- The code of "sites reflect" with its definer and generation (R187). -/
def Reflect.fields : Reflect → Nat × Nat × Half
  | .none => (0, 0, 0)
  | .stub => (1, 0, 0)
  | .unknown => (2, 0, 0)
  | .binding b => (3, b.definer.val, b.generation)

/-- A REFERENCES record (R84, R187). -/
def State.referenceRecord (s : State) (r : Ref) : List Byte :=
  byteOf r.owner.index ++ byteOf r.key.scope.code ++ byteOf r.expected.code ++ byteOf r.phase.code
    ++ nameField r.key.name ++ byteOf r.sites.length
    ++ (match r.phase.binding? with
      | some b => byteOf 1 ++ byteOf b.definer.val ++ byteOf b.kind.code ++ halfBytes b.generation ++ halfField 0
          ++ wordBytes b.target
      | none => List.replicate 11 0)
    ++ byteOf r.reflect.fields.1 ++ byteOf r.reflect.fields.2.1 ++ halfBytes r.reflect.fields.2.2
    ++ (match r.phase with
      | .faulted c => byteOf c.code
      | _ => byteOf 0)
    ++ (match r.phase with
      | .seeking n =>
        match s.slots[n]? with
        | some (some x) => byteOf n ++ byteOf x.state.code ++ byteOf x.tries
        | _ => byteOf n ++ byteOf 0 ++ byteOf 0
      | _ => byteOf 0xFF ++ byteOf 0 ++ byteOf 0)
    ++ (match r.phase with
      | .queued => halfField ((s.backlog.idxOf r.owner) + 1)
      | _ => halfField 0)
    ++ byteOf (if r.owner ∈ s.patchQueue then 1 else 0)

/-- Record number `n` of a listing, as the tables stand; none where the selector has no such record (R173). -/
def State.reportRecord (s : State) (sel : Selector) (m : Byte) (n : Nat) : Option (List Word) :=
  let bytes : Option (List Byte) :=
    match sel with
    | .station => if n = 0 then some s.stationRecord else none
    | .peers => (s.peers[n]?).map (peerRecord n)
    | .modules => (s.modules[n]?).map moduleRecordBytes
    | .exports => ((s.directory.filter fun e => decide (e.owner.module = m))[n]?).map s.exportRecord
    | .references => ((s.refs.filter fun r => decide (r.owner.module = m))[n]?).map s.referenceRecord
  bytes.map fun bs => bytesWords (padTo sel.recordSize bs)

/-- The record that the REPORT is at: as its content was taken, else as the tables now stand (R173). -/
def State.recordAt (s : State) (sel : Selector) (m : Byte) (n : Nat) : Option TakenRecord :=
  match s.runs.record with
  | some x => some x
  | none => (s.reportRecord sel m n).map fun words => { words, written := 0 }

end Sys2Proof.Machine
end

