-- ==== Sys2Proof/Machine/Directory.lean ====
section
/-! DEFINITION. The Directory: export entries, the answer list, owners and intruders (chapter 3). -/

namespace Sys2Proof.Machine

/-- The entry of a key; a directory holds at most one (R39). -/
def State.entryOf (s : State) (k : Key) : Option ExportEntry :=
  s.directory.find? fun e => e.key.agrees k

/-- An entry's state set. -/
def State.setEntry (s : State) (o : Owner) (st : ExportState) : State :=
  { s with directory := s.directory.map fun e => if e.owner = o then { e with state := st } else e }

/-- A station that contends with an answer frame abandons it when the member leaves the list unsent (R49, R135). -/
def Line.abandon (l : Line) (gone : Owner → Bool) : Line :=
  match l with
  | .contending (.answer o) f => if gone o then .quiet else .contending (.answer o) f
  | .contending .queue f => .contending .queue f
  | .quiet => .quiet
  | .sending => .sending
  | .window w => .window w

/-- Members leave the answer list because their entries stop being LIVE (R49). -/
def State.leaveAnswers (s : State) (gone : Owner → Bool) : State :=
  { s with answers := s.answers.filter fun a => !gone a.owner, line := s.line.abandon gone }

/-- A LIVE entry comes to owe an OFFER (R47, R48). R47's last sentence has a SEEK change nothing in the answer list while
the member owes a CLASH, and R48's table has the member then owe both in its place: the model reads "the list" as its
members and their order, and the member owes both (DEDUCED, log 36). -/
def State.oweOffer (s : State) (o : Owner) : State :=
  match s.answer? o with
  | some _ => { s with answers := s.answers.map fun a => if a.owner = o then { a with owesOffer := true } else a }
  | none => { s with answers := s.answers ++ [{ owner := o, owesOffer := true }] }

/-- A LIVE entry whose owed refused list holds a pair is a member of the answer list (R48, R52). -/
def State.oweClash (s : State) (o : Owner) : State :=
  match s.answer? o with
  | some _ => s
  | none => { s with answers := s.answers ++ [{ owner := o, owesOffer := false }] }

/-- A claim is recorded: it replaces the pair of its station in place, or is appended (R52). -/
def recordPair (owed : List Pair) (p : Pair) : List Pair :=
  if owed.any fun q => decide (q.station = p.station) then
    owed.map fun q => if q.station = p.station then p else q
  else owed ++ [p]

/-- An entry becomes REFUSED and EXPORT-REFUSED is posted (R42, R43, R55). -/
def State.refuse (s : State) (o : Owner) (owner : Pair) : State :=
  ((s.setEntry o (.refused owner)).leaveAnswers fun x => decide (x = o)).post (.exportRefused o owner.station)

/-- The Directory's part of another station's OFFER, ANNOUNCE or CLASH for a key: it refuses a PENDING entry (R42) or a
LIVE one that the CLASH's refused list names (R43); otherwise a LIVE entry records the claim (R52). WITHDRAWING and
REFUSED entries do not change (R44, R45). -/
def State.meetClaim (s : State) (k : Key) (claim : Pair) (refused : List Pair) : State :=
  match s.entryOf k with
  | none => s
  | some e =>
    match e.state with
    | .pending => s.refuse e.owner claim
    | .live owed =>
      if { station := s.number, generation := e.generation } ∈ refused then s.refuse e.owner claim
      else (s.setEntry e.owner (.live (recordPair owed claim))).oweClash e.owner
    | .withdrawing => s
    | .refused _ => s

/-- Another station's SEEK: a LIVE entry comes to owe an OFFER (R47). -/
def State.meetSeek (s : State) (k : Key) : State :=
  match s.entryOf k with
  | none => s
  | some e =>
    match e.state with
    | .live _ => s.oweOffer e.owner
    | .pending => s
    | .withdrawing => s
    | .refused _ => s

/-- The own ANNOUNCE self-received: the PENDING entry of its key and generation becomes LIVE (R41). -/
def State.meetOwnAnnounce (s : State) (k : Key) (g : Half) : State :=
  match s.directory.find? fun e => e.key.agrees k && decide (e.generation = g) with
  | none => s
  | some e => if e.state = .pending then s.setEntry e.owner (.live []) else s

/-- Pairs leave the owed refused lists; a member that then owes nothing leaves the answer list (R53). -/
def State.dropPairs (s : State) (gone : Key → Pair → Bool) : State :=
  let directory := s.directory.map fun e =>
    match e.state with
    | .live owed => { e with state := .live (owed.filter fun p => !gone e.key p) }
    | .pending => e
    | .withdrawing => e
    | .refused _ => e
  { s with
    directory
    answers := s.answers.filter fun a =>
      a.owesOffer || directory.any fun e => decide (e.owner = a.owner) && decide (e.state.owed ≠ []) }

/-- What becomes of an entry when module `m` gives up its exports (R33, R45, R46). -/
def ExportEntry.withdrawn (e : ExportEntry) (m : Byte) : Option ExportEntry :=
  if e.owner.module = m then
    match e.state with
    | .refused _ => none
    | .pending => some { e with state := .withdrawing }
    | .live _ => some { e with state := .withdrawing }
    | .withdrawing => some e
  else some e

/-- UNLOAD, or a failed commit, acts on a module's entries: LIVE and PENDING become WITHDRAWING, REFUSED leave (R33,
R45, R46). -/
def State.withdrawEntries (s : State) (m : Byte) : State :=
  ({ s with directory := s.directory.filterMap fun e => e.withdrawn m } : State).leaveAnswers fun o => decide (o.module = m)

/-- The WITHDRAWs of a module's WITHDRAWING entries, in directory order, which is export index order (R33, log 26). -/
def State.withdrawFrames (s : State) (m : Byte) : List TxEntry :=
  (s.directory.filter fun e => decide (e.owner.module = m) && decide (e.state = .withdrawing)).map fun e =>
    .withdraw e.key e.generation

/-- The own WITHDRAW self-received: the WITHDRAWING entry of its key and generation leaves (R45). -/
def State.removeWithdrawn (s : State) (k : Key) (g : Half) : State :=
  { s with
    directory := s.directory.filter fun e =>
      !(e.key.agrees k && decide (e.generation = g) && decide (e.state = .withdrawing)) }

/-- The frame the head member of the answer list owes (R50). -/
def State.answerFrame (s : State) : Option (Owner × Frame) :=
  match s.answers with
  | [] => none
  | a :: _ =>
    match s.directory.find? fun e => decide (e.owner = a.owner) with
    | none => none
    | some e =>
      let body : Body :=
        match e.state.owed with
        | [] => .offer e.key.scope e.key.name e.generation e.target e.kind
        | p :: ps => .clash e.key.scope e.key.name s.number e.generation e.target e.kind (p :: ps)
      some (a.owner, { sender := s.number, sequence := s.nextSequence, group := s.ownGroup, body })

/-- The generation after this one (R9). -/
def nextGenerationAfter (g : Half) : Half :=
  if g = 65535 then 1 else g + 1

end Sys2Proof.Machine
end

