-- ==== Sys2Proof/Machine/References.lean ====
section
/-! DEFINITION. The Reference Unit: phases, seek entry, seek slots, the backlog, binding on taken frames, revocation and
rebinding (chapters 4 and 5), and the end of every event that changes a phase (R31, R63, R78). -/

namespace Sys2Proof.Machine

/-! ## References -/

/-- The kind check (R11). -/
def ExpectedKind.accepts (x : ExpectedKind) (k : Kind) : Bool :=
  match x, k with
  | .any, _ => true
  | .entry, .entry => true
  | .data, .data => true
  | .entry, .data => false
  | .data, .entry => false

/-- A phase in which a reference looks for a binding (R62). -/
def Phase.isSeek : Phase → Bool
  | .queued => true
  | .seeking _ => true
  | .waiting => true
  | .patching _ => false
  | .bound _ => false
  | .faulted _ => false

/-- The reference of an owner. -/
def State.ref? (s : State) (o : Owner) : Option Ref :=
  s.refs.find? fun r => decide (r.owner = o)

/-- A reference's phase set, with the optional fields the phase carries (R62). -/
def State.setPhase (s : State) (o : Owner) (p : Phase) : State :=
  { s with refs := s.refs.map fun r => if r.owner = o then { r with phase := p } else r }

/-- A reference's "sites reflect" set (R63). -/
def State.setReflect (s : State) (o : Owner) (x : Reflect) : State :=
  { s with refs := s.refs.map fun r => if r.owner = o then { r with reflect := x } else r }

/-- A reference without a binding is offered one: the kind check, then PATCHING, or FAULTED by KIND with its notice
(R11). -/
def State.offerBinding (s : State) (r : Ref) (b : Binding) : State :=
  if r.expected.accepts b.kind then s.setPhase r.owner (.patching b)
  else (s.setPhase r.owner (.faulted .kind)).post (.referenceFaulted r.owner .kind 0)

/-- A reference needs a walk (R63). -/
def Ref.needsWalk (r : Ref) : Bool :=
  match r.phase with
  | .patching b => decide (r.reflect ≠ .binding b)
  | .bound b => decide (r.reflect ≠ .binding b)
  | .faulted .bus => false
  | .faulted .kind => decide (r.reflect ≠ .stub)
  | .faulted .fit => decide (r.reflect ≠ .stub)
  | .queued => decide (r.reflect ≠ .stub)
  | .seeking _ => decide (r.reflect ≠ .stub)
  | .waiting => decide (r.reflect ≠ .stub)

/-- References left needing a walk join the patch queue at its tail, in table order (R63, R108). -/
def State.appendWalks (s : State) : State :=
  { s with
    patchQueue := s.patchQueue ++
      ((s.refs.filter fun r => r.needsWalk && decide (r.owner ∉ s.patchQueue)).map (·.owner)) }

/-! ## Seek slots (R68 to R70) -/

/-- The slot in use that holds a key. -/
def State.slotOf (s : State) (k : Key) : Option Nat :=
  s.slots.findIdx? fun
    | some x => x.key.agrees k
    | none => false

/-- The free slot of lowest number. -/
def State.freeSlot (s : State) : Option Nat :=
  s.slots.findIdx? fun
    | some _ => false
    | none => true

/-- The transmit queue holds a SEEK of this slot number carrying this key (R69). -/
def State.seekQueued (s : State) (n : Nat) (k : Key) : Bool :=
  s.txQueue.any fun
    | .seek m k' => decide (m = n) && k'.agrees k
    | .join => false
    | .leave => false
    | .announce .. => false
    | .withdraw .. => false

/-- A slot enters TO-SEND with a try count and obtains its SEEK (R69). -/
def State.enterToSend (s : State) (n : Nat) (k : Key) (tries : Nat) : State :=
  { s with
    slots := s.slots.set n
      (some { key := k, state := .toSend, tries, timer := false, awaitingRoom := !s.seekQueued n k }) }

/-- A slot in TO-SEND enters OUT and its timer starts; its request for room is withdrawn (R69, R71, R72). -/
def State.enterOut (s : State) (k : Key) : State :=
  match s.slotOf k with
  | none => s
  | some n =>
    match s.slots[n]? with
    | some (some x) =>
      match x.state with
      | .toSend => { s with slots := s.slots.set n (some { x with state := .out, timer := true, awaitingRoom := false }) }
      | .out => s
    | _ => s

/-- The slot that holds a key is freed (R68, R79). -/
def State.freeSlotOf (s : State) (k : Key) : State :=
  match s.slotOf k with
  | none => s
  | some n => { s with slots := s.slots.set n none }

/-- Slots from number `n` on, those without a SEEKING reference freed (R34, R68). -/
def keepUsedSlots (refs : List Ref) : Nat → List (Option Slot) → List (Option Slot)
  | _, [] => []
  | n, o :: rest =>
    (if refs.any fun r => decide (r.phase = .seeking n) then o else none) :: keepUsedSlots refs (n + 1) rest

/-- Slots that have lost their last SEEKING reference are freed (R34, R68, R102). -/
def State.freeEmptySlots (s : State) : State :=
  { s with slots := keepUsedSlots s.refs 0 s.slots }

/-- An event has freed a slot. -/
def someFreed (before after : List (Option Slot)) : Bool :=
  (before.zip after).any fun p => p.1.isSome && p.2.isNone

/-! ## Seek entry (R64 to R67) -/

/-- Steps 1 and 2: the binding of a LIVE own export of the key, else the binding of the oldest sibling with one. -/
def State.bindingAtHand (s : State) (k : Key) : Option Binding :=
  match s.directory.find? fun e => e.key.agrees k && decide (e.state.code = 2) with
  | some e => some { definer := s.number, generation := e.generation, target := e.target, kind := e.kind }
  | none =>
    match s.refs.find? fun r => r.key.agrees k && r.phase.binding?.isSome with
    | some r => r.phase.binding?
    | none => none

/-- Step 4: the reference takes a free slot, in TO-SEND with try count 1. -/
def State.takeSlot (s : State) (r : Ref) (n : Nat) : State :=
  (s.enterToSend n r.key 1).setPhase r.owner (.seeking n)

/-- Seek entry, steps 1 to 5, of a reference without a binding that is in no seek phase (R64). Inside the event the
reference's phase field holds WAITING until a step sets it. -/
def State.seekEntry (s : State) (r : Ref) : State :=
  match s.bindingAtHand r.key with
  | some b => s.offerBinding r b
  | none =>
    match s.slotOf r.key with
    | some n => s.setPhase r.owner (.seeking n)
    | none =>
      match s.freeSlot with
      | some n => s.takeSlot r n
      | none => { s.setPhase r.owner .queued with backlog := s.backlog ++ [r.owner] }

/-! ## The backlog (R77, R78) -/

/-- Every other QUEUED reference of a key joins the slot just taken for it (R78, step 4). -/
def State.joinQueued (s : State) (k : Key) (n : Nat) : State :=
  let joins := s.backlog.filter fun o => s.refs.any fun r => decide (r.owner = o) && r.key.agrees k
  { s with
    backlog := s.backlog.filter fun o => decide (o ∉ joins)
    refs := s.refs.map fun r => if r.owner ∈ joins then { r with phase := .seeking n } else r }

/-- The oldest QUEUED reference, out of the backlog, goes through steps 1 to 4 while a slot is free (R78). -/
def State.serveOne (s : State) (r : Ref) (free : Nat) : State :=
  match s.bindingAtHand r.key with
  | some b => s.offerBinding r b
  | none =>
    match s.slotOf r.key with
    | some n => s.setPhase r.owner (.seeking n)
    | none => (s.takeSlot r free).joinQueued r.key free

/-- Serving the backlog (R78); each round takes one reference out. -/
def State.serveRounds : Nat → State → State
  | 0, s => s
  | n + 1, s =>
    match s.freeSlot, s.backlog with
    | some free, o :: rest =>
      let t := { s with backlog := rest }
      match t.ref? o with
      | some r => State.serveRounds n (t.serveOne r free)
      | none => State.serveRounds n t
    | _, _ => s

/-- Serving the backlog until it is empty or no slot is free (R78). -/
def State.serve (s : State) : State :=
  s.serveRounds s.backlog.length

/-! ## Derived module state (R30, R31) -/

/-- The state the phases of a module's references dictate (R30). -/
def derivedState (phases : List Phase) : ModuleState :=
  if phases.any fun p => decide (p.code = 6) then .faulted
  else if phases.any fun p => decide (p.code = 1 ∨ p.code = 2 ∨ p.code = 4) then .linking
  else if phases.any fun p => decide (p.code = 3) then .waiting
  else .bound

/-- The phases of a module's references. -/
def State.phasesOf (s : State) (m : Byte) : List Phase :=
  (s.refs.filter fun r => decide (r.owner.module = m)).map (·.phase)

/-- A module record's state set. -/
def State.setModuleState (s : State) (m : Byte) (st : ModuleState) : State :=
  { s with modules := s.modules.map fun x => if x.id = m then { x with state := st } else x }

/-- LOADING and UNLOADING are set by commands, the other states derived (R14). -/
def ModuleState.isDerived : ModuleState → Bool
  | .loading => false
  | .unloading => false
  | .linking => true
  | .waiting => true
  | .bound => true
  | .faulted => true

/-- One module is brought into agreement with R30; a changed state posts MODULE-STATE (R31). -/
def State.settleModule (s : State) (m : ModuleRecord) : State :=
  let d := derivedState (s.phasesOf m.id)
  if m.state.isDerived && decide (d ≠ m.state) then (s.setModuleState m.id d).post (.moduleState m.id d) else s

/-- All modules, in module table order (R31). -/
def State.settleModules (s : State) : State :=
  s.modules.foldl State.settleModule s

/-- The end of an event on the reference table: the backlog is served if the event freed a slot (R78), walks are
appended (R63), modules settled (R31), room granted (R138). `before` is the state the event began in. -/
def State.endEvent (s before : State) (order : List Bool := []) : State :=
  let t := if someFreed before.slots s.slots then s.serve else s
  (t.appendWalks.settleModules).arbitrate order

/-! ## Taken frames (R79, R98, R99) -/

/-- A reference in a seek phase is bound, or faulted by KIND, by a frame (R79). -/
def State.bindFromFrame (s : State) (r : Ref) (b : Binding) : State :=
  ({ s with backlog := s.backlog.filter fun o => decide (o ≠ r.owner) } : State).offerBinding r b

/-- The Reference Unit's part of an OFFER or ANNOUNCE of a key (R79). -/
def State.bindKey (s : State) (k : Key) (b : Binding) : State :=
  ((s.refs.filter fun r => r.key.agrees k && r.phase.isSeek).foldl (fun t r => t.bindFromFrame r b) s).freeSlotOf k

/-- One reference of the key in the pass of a CLASH (R98, R99). -/
def State.clashRef (s : State) (r : Ref) (b : Binding) (refused : List Pair) : State :=
  if r.phase.isSeek then s.bindFromFrame r b
  else
    match r.phase.binding? with
    | some old =>
      if { station := old.definer, generation := old.generation } ∈ refused then
        (s.post (.referenceRevoked r.owner .refusedDefiner)).offerBinding r b
      else s
    | none => s

/-- The pass of a CLASH over the references of its key, in table order (R99). -/
def State.clashKey (s : State) (k : Key) (b : Binding) (refused : List Pair) : State :=
  ((s.refs.filter fun r => r.key.agrees k).foldl (fun t r => t.clashRef r b refused) s).freeSlotOf k

/-! ## Revocation (R87) -/

/-- A reference holds a binding that meets the criterion. -/
def Ref.meets (criterion : Ref → Binding → Bool) (r : Ref) : Bool :=
  match r.phase.binding? with
  | some b => criterion r b
  | none => false

/-- Stage 1 for one reference: it drops its binding and posts REFERENCE-REVOKED. -/
def State.dropBinding (cause : RevocationCause) (s : State) (r : Ref) : State :=
  (s.setPhase r.owner .waiting).post (.referenceRevoked r.owner cause)

/-- A revocation, stages 1 and 2; stage 3 is the end of its event (R87). -/
def State.revoke (s : State) (criterion : Ref → Binding → Bool) (cause : RevocationCause) : State :=
  let hit := s.refs.filter (Ref.meets criterion)
  hit.foldl State.seekEntry (hit.foldl (State.dropBinding cause) s)

/-! ## Removal (R34, R125) -/

/-- Every reference of a module is removed: its sites return to the pool, it leaves its slot, the backlog and the patch
queue; a walk of it stops. A site transfer of that walk that had begun stays under way, to complete whole (log 9). -/
def State.removeRefs (s : State) (m : Byte) (siteBegun : Bool) : State :=
  let walked := match s.walk with
    | some w => decide (w.ref.module = m)
    | none => false
  ({ s with
    refs := s.refs.filter fun r => decide (r.owner.module ≠ m)
    backlog := s.backlog.filter fun o => decide (o.module ≠ m)
    patchQueue := s.patchQueue.filter fun o => decide (o.module ≠ m)
    walk := if walked then none else s.walk
    transfer := if walked && !siteBegun then none else s.transfer } : State).freeEmptySlots

end Sys2Proof.Machine
end

