-- ==== Sys2Proof/Machine/Load.lean ====
section
/-! DEFINITION. The two passes of LOAD, the taking out of a module's entries, and the end of UNLOAD (chapter 2). -/

namespace Sys2Proof.Machine

/-- A resource that has no room (R18, R183). -/
def noRoom (resource : Nat) : Ending := { status := .noRoom, detail := resource }

/-- A test that ends the LOAD. -/
def require (ok : Bool) (e : Ending) : Except Ending Unit :=
  if ok then .ok () else .error e

/-- The key of a record, formed with the own group (R3). -/
def State.keyOf (s : State) (scope : Scope) (name : List Byte) : Key :=
  { scope, group := s.ownGroup, name }

/-- A module owns no entry of the directory and no reference (R35). -/
def State.ownsNothing (s : State) (m : Byte) : Bool :=
  !(s.directory.any fun e => decide (e.owner.module = m)) && !(s.refs.any fun r => decide (r.owner.module = m))

/-! ## The LOADING record of a first pass under way (R13, R17) -/

/-- The words kept of the head's reading are those of a LOAD: its tag, and the module id in its header once that word has been
read. -/
def Runs.load? (r : Runs) : Option (Half × Option Byte) :=
  match r.fetched with
  | w :: _ :: rest => if commandOfCode (byteAt w 0) = some .load then some (tagOf w, rest.head?.map (byteAt · 0)) else none
  | _ => none

/-- The LOAD at the head that is in its first pass, its block read and taken: its tag, and the module id of its LOADING record,
where that has been made (R17, R36). -/
def State.firstPassLoad (s : State) : Option (Half × Option Byte) :=
  if s.command = none then s.runs.load? else none

/-- The module id of the LOADING record that the first pass under way has made. -/
def State.loadingId (s : State) : Option Byte :=
  s.firstPassLoad.bind (·.2)

/-- The record is the LOADING record of the first pass under way; such a record owns nothing yet. -/
def State.isLoading (s : State) (m : ModuleRecord) : Bool :=
  decide (s.loadingId = some m.id) && decide (m.state = .loading) && s.ownsNothing m.id

/-- The module table but for the LOADING record of the first pass under way. -/
def State.otherModules (s : State) : List ModuleRecord :=
  s.modules.filter fun m => !s.isLoading m

/-- That record is taken out of the table. -/
def State.withoutLoading (s : State) : State :=
  { s with modules := s.otherModules }

/-- The state in which the Command Engine reads the head: the stores of other bus masters have been made, and the LOADING record of a first pass
under way is set aside, for the pass tests the table as it found it, and makes the record anew where the step leaves it. -/
def State.forReading (s : State) (env : Env) : State :=
  { s.forTransfers env with modules := s.otherModules }

/-! ## The first pass (R17 to R24) -/

/-- An export record checked with its key, against `earlier` keys of the descriptor and against the directory (R20, R25). -/
def State.checkedExport (s : State) (r : Reading) (segments : List Segment) (off : Nat) (earlier : List Key) :
    Except Ending ExportRecord := do
  let x ← r.exportRecord segments off
  let k := s.keyOf x.scope x.name
  require (!(earlier.any fun e => e.agrees k) && !(s.directory.any fun e => e.key.agrees k))
    { status := .duplicateExport, detail := off }
  .ok x

/-- The export records of the first pass (R20). -/
def State.checkExports (s : State) (r : Reading) (segments : List Segment) : Nat → Nat → List Key → Except Ending Unit
  | _, 0, _ => .ok ()
  | off, n + 1, earlier => do
    let x ← s.checkedExport r segments off earlier
    s.checkExports r segments (off + 36) n (earlier ++ [s.keyOf x.scope x.name])

/-- The import records of the first pass; answers the sum of their site counts (R21, R22). -/
def checkImports (r : Reading) (segments : List Segment) : Nat → Nat → Nat → Except Ending Nat
  | _, 0, sum => .ok sum
  | off, n + 1, sum => do
    let x ← r.importRecord segments off
    checkImports r segments (off + 32 + 16 * x.sites.length) n (sum + x.sites.length)

/-- The first pass over a descriptor: the LOADING record of a module that can be entered, or the first fault (R17 to
R24). -/
def State.firstPass (s : State) (r : Reading) (address : Word) : Except Ending ModuleRecord := do
  let w0 ← r.word 0 0x00
  let id := byteAt w0 0
  requireField (decide (id ≠ 0)) 0x00
  require (s.module? id).isNone { status := .duplicateModule, detail := id.toNat }
  require (decide (s.modules.length < Config.moduleRoom)) (noRoom 1)
  let segmentCount := (byteAt w0 1).toNat
  requireField (decide (1 ≤ segmentCount) && decide (segmentCount ≤ 4)) 0x01
  let exportCount := (halfOf (byteAt w0 2) (byteAt w0 3)).toNat
  requireField (decide (exportCount ≤ 128)) 0x02
  require (decide (exportCount ≤ Config.exportRoom - s.directory.length)) (noRoom 2)
  let w1 ← r.word 1 0x04
  let importCount := (halfOf (byteAt w1 0) (byteAt w1 1)).toNat
  requireField (decide (importCount ≤ 256)) 0x04
  require (decide (importCount ≤ Config.referenceRoom - s.refs.length)) (noRoom 3)
  let siteTotal := (halfOf (byteAt w1 2) (byteAt w1 3)).toNat
  requireField (decide (siteTotal ≤ 16384)) 0x06
  require (decide (siteTotal ≤ Config.siteRoom - s.sitesInUse)) (noRoom 4)
  let segments ← r.segments 8 segmentCount
  s.checkExports r segments (8 + 8 * segmentCount) exportCount []
  let sum ← checkImports r segments (8 + 8 * segmentCount + 36 * exportCount) importCount 0
  requireField (decide (sum = siteTotal)) 0x06
  .ok { id, descriptor := address, segmentCount, segments, exportCount, importCount, siteCount := siteTotal, state := .loading }

/-- The arguments of a LOAD, then its first pass (R17); the block took transfers 0 and 1. -/
def State.loadFirstPass (s : State) (env : Env) (words : List Word) : Except Ending ModuleRecord :=
  let a := words.getD 0 0
  if a.toNat % 4 ≠ 0 ∨ 0x0FFFFFFF < a.toNat then .error { status := .badCommand, detail := 0 }
  else
    s.firstPass { mem := s.mem, env := resumed env s.runs.fetched.length, base := a.toNat, firstWord := 0
                  firstTransfer := 2, fetched := s.runs.fetched } a

/-- The LOADING record of a first pass that has read these words of the descriptor at `address` and found no fault in them: the
id, the counts whose words have been read, the segments read whole (R17 step 4, R18, R19; log 15). -/
def loadingRecord (address : Word) (words : List Word) : ModuleRecord :=
  let w0 := words.getD 0 0
  let w1 := words.getD 1 0
  let segmentCount := (byteAt w0 1).toNat
  { id := byteAt w0 0, descriptor := address, segmentCount
    segments := (List.range (min segmentCount ((words.length - 2) / 2))).map fun i =>
      { base := words.getD (2 + 2 * i) 0, length := words.getD (3 + 2 * i) 0 }
    exportCount := (halfOf (byteAt w0 2) (byteAt w0 3)).toNat
    importCount := (halfOf (byteAt w1 0) (byteAt w1 1)).toNat
    siteCount := (halfOf (byteAt w1 2) (byteAt w1 3)).toNat
    state := .loading }

/-! ## The commit pass (R25 to R28) -/

/-- What the commit pass reads next. -/
inductive CommitItem where
  | exported (x : ExportRecord)
  | imported (x : ImportRecord)
  deriving DecidableEq, Repr

/-- The next record of the commit pass, read and checked again (R25, R26); none where no commit pass is at a record. A
running site sum above the held total is a fault at the site count field, after the record's own checks (log 14). -/
def State.readCommit (s : State) (env : Env) : Option (Except Ending CommitItem) :=
  match s.command with
  | some (.loadCommit _ m nextExport nextImport off sum) =>
    match s.module? m with
    | none => none
    | some rec =>
      let r : Reading :=
        { mem := s.mem, env := resumed env s.runs.fetched.length, base := rec.descriptor.toNat, firstWord := off / 4
          firstTransfer := 0, fetched := s.runs.fetched }
      if s.wanted ≠ [] then none
      else if nextExport < rec.exportCount then
        some do
          let x ← s.checkedExport r rec.segments off []
          .ok (.exported x)
      else if nextImport < rec.importCount then
        some do
          let x ← r.importRecord rec.segments off
          requireField (decide (sum + x.sites.length ≤ rec.siteCount)) (off + 0x1E)
          .ok (.imported x)
      else none
  | _ => none

/-- The address of the next word of the record of the commit pass, after the words of it that have been read. -/
def State.commitAddress (s : State) (words : List Word) : Nat :=
  match s.command with
  | some (.loadCommit _ m _ _ off _) =>
    match s.module? m with
    | some rec => rec.descriptor.toNat + off + 4 * words.length
    | none => 0
  | _ => 0

/-- The reading of the record meets READ-ERROR. -/
def State.commitReadFails (s : State) (env : Env) : Bool :=
  match s.readCommit env with
  | some (.error e) => decide (e.status = .readError)
  | _ => false

/-- The commit pass with part of its next record read, where the step leaves the record there: the transfer after that part
would be made (R182). -/
def State.commitPause (s : State) (env : Env) : Option State :=
  match pauseAt env with
  | some p =>
    if s.commitReadFails { env with failAt := some p } then
      some { s with runs := { s.runs with fetched := fetchMore s.mem s.commitAddress p s.runs.fetched } }
    else none
  | none => none

/-- The commit pass is past its last record (R28). -/
def State.commitAtEnd (s : State) : Bool :=
  match s.command with
  | some (.loadCommit _ m nextExport nextImport _ _) =>
    match s.module? m with
    | none => false
    | some rec =>
      decide (s.wanted = []) && decide (rec.exportCount ≤ nextExport) && decide (rec.importCount ≤ nextImport)
  | _ => false

/-- An export is entered (R25): a PENDING entry with a new generation; its ANNOUNCE is placed when room is given. -/
def State.enterExport (s : State) (x : ExportRecord) : State :=
  match s.command with
  | some (.loadCommit tag m nextExport nextImport off sum) =>
    let k := s.keyOf x.scope x.name
    let target := globalAddress s.number (x.segment.base.toNat + x.offset.toNat)
    { s with
      directory := s.directory ++ [{ key := k, owner := { module := m, index := nextExport }, target, kind := x.kind,
                                     generation := s.nextGeneration, state := .pending }]
      nextGeneration := nextGenerationAfter s.nextGeneration
      wanted := [.announce k s.nextGeneration target x.kind]
      command := some (.loadCommit tag m (nextExport + 1) nextImport (off + 36) sum) }
  | _ => s

/-- An import is entered (R26): a reference with its sites, passed to seek entry. -/
def State.enterImport (s : State) (x : ImportRecord) : State :=
  match s.command with
  | some (.loadCommit tag m nextExport nextImport off sum) =>
    let r : Ref := { key := s.keyOf x.scope x.name, owner := { module := m, index := nextImport },
                     expected := x.expected, sites := x.sites, phase := .waiting, reflect := .none }
    ({ s with
      refs := s.refs ++ [r]
      command := some (.loadCommit tag m nextExport (nextImport + 1) (off + 32 + 16 * x.sites.length)
        (sum + x.sites.length)) } : State).seekEntry r
  | _ => s

/-! ## Taking a module out (R29, R32 to R35) -/

/-- The exports of a module are given up, its references removed, its WITHDRAWs wanted (R33, R34). -/
def State.giveUp (s : State) (m : Byte) (siteBegun : Bool) : State :=
  let t := ((s.setModuleState m .unloading).withdrawEntries m).removeRefs m siteBegun
  { t with wanted := t.withdrawFrames m }

/-- A module record leaves the table. -/
def State.removeModule (s : State) (m : Byte) : State :=
  { s with modules := s.modules.filter fun x => decide (x.id ≠ m) }

/-- The test on which an UNLOAD, or a LOAD being taken out, completes (R29, R35, R92). -/
def State.finishRemoval (s : State) : State :=
  match s.command with
  | some (.unload tag m) => if s.ownsNothing m then (s.removeModule m).endCommand tag .ok m.toNat else s
  | some (.loadTakeOut tag m e) => if s.ownsNothing m then (s.removeModule m).endCommand tag e.status e.detail else s
  | _ => s

/-- A fault in the commit pass (R29). -/
def State.takeOut (s : State) (env : Env) (e : Ending) : State :=
  match s.command with
  | some (.loadCommit tag m _ _ _ _) =>
    (({ s.giveUp m env.siteBegun with command := some (.loadTakeOut tag m e) } : State).endEvent s env.order).finishRemoval
  | _ => s

end Sys2Proof.Machine
end

