-- ==== Sys2Proof/Machine/Agent.lean ====
section
/-! DEFINITION. The memory agent: which claimants have a transfer to make and so wait for its grant, which of them it grants,
and how far a claimant's run of transfers goes while others wait (R182). -/

namespace Sys2Proof.Machine

/-- The three claimants. -/
def claimants : List Claimant := [.commandEngine, .patchEngine, .noticeUnit]

/-- The Command Engine has a transfer to make: a word of the block at the head of its queue or of the descriptor of a LOAD's
first pass (R17, R168, R169), of the next record of a commit pass, unless a frame of it still awaits room (R25, R26), or of
a report record (R173). -/
def State.commandAsks (s : State) : Bool :=
  match s.command with
  | none => !s.commandQueue.isEmpty
  | some (.loadCommit _ m _ _ _ _) => (s.module? m).isSome && s.wanted.isEmpty && !s.commitAtEnd
  | some (.report _ sel m _ _ n) => (s.recordAt sel m n).isSome
  | some (.loadTakeOut _ _ _) => false
  | some (.unload _ _) => false
  | some (.start _) => false
  | some (.stop _) => false

/-- A claimant has a transfer to make, and so requests the agent and waits for its grant (R182): the Patch Engine its site
transfer (R114, R117), the Notice Unit the words of its first reserved notice (R177). -/
def State.asks (s : State) : Claimant → Bool
  | .commandEngine => s.commandAsks
  | .patchEngine => s.transfer.isSome
  | .noticeUnit => s.notices.ring.isSome && !s.notices.list.isEmpty

/-- The claimants in the order of the rotation, from the one after `c`. -/
def rotationAfter : Claimant → List Claimant
  | .commandEngine => [.patchEngine, .noticeUnit, .commandEngine]
  | .patchEngine => [.noticeUnit, .commandEngine, .patchEngine]
  | .noticeUnit => [.commandEngine, .patchEngine, .noticeUnit]

/-- The grant where a transfer of `c` has just ended: the first waiting claimant after it in the rotation. -/
def State.grantAfter (s : State) (c : Claimant) : List Claimant :=
  ((rotationAfter c).find? s.asks).toList

/-- The agent at the end of an event in which transfers of `c` ended. -/
def State.served (s : State) (c : Claimant) : State :=
  { s with granted := s.grantAfter c }

/-- The agent at the end of an event in which no transfer ended: a claimant it has granted keeps the grant while it asks; an
idle agent grants at once, and of requests made together any may come first. Where the event took away the one transfer
that was granted, the grant goes on from that claimant (log 8). -/
def State.settleAgent (s : State) : State :=
  { s with granted :=
    if s.granted.any s.asks then s.granted.filter s.asks
    else match s.granted with
      | [c] => s.grantAfter c
      | _ => claimants.filter s.asks }

/-- A claimant other than `c` waits. -/
def State.othersAsk (s : State) (c : Claimant) : Bool :=
  (rotationAfter c).any fun x => decide (x ≠ c) && s.asks x

/-- The surroundings of a step of `c`: while another claimant waits, the step makes one word transfer at the most, for the
agent then grants the other. -/
def State.runEnv (s : State) (c : Claimant) (env : Env) : Env :=
  if s.othersAsk c then { env with upTo := some (min 1 (env.upTo.getD 1)) } else env

/-- Of the words that `c` has still to write at a reset, those that the agent carried: none without its grant, one at the
most while another waits (log 10). -/
def State.carriedWords (s : State) (c : Claimant) (n : Nat) : Nat :=
  if c ∈ s.granted then (if s.othersAsk c then min 1 n else n) else 0

/-- The claimant may make its transfer: the agent has granted it. -/
def State.mayTransfer (s : State) (c : Claimant) : Bool :=
  !s.inReset && decide (c ∈ s.granted)

/-- Transfer `env.failAt` of the run of `c` is one that its step may make. -/
def State.reachesFailure (s : State) (c : Claimant) (env : Env) : Bool :=
  !s.othersAsk c || decide (env.failAt = some 0)

/-- The site transfer under way has begun: it has where the agent has granted the Patch Engine alone, and has not where it has
not granted it; where it may have granted another first, the event's operand says (R125; log 9). -/
def State.siteBegan (s : State) (operand : Bool) : Bool :=
  decide (.patchEngine ∈ s.granted) && (operand || decide (s.granted = [.patchEngine]))

/-- The Command Engine's command has ended while the agent carried a transfer for it: that transfer ends without an effect,
and the grant goes on from it (log 8). -/
def State.dropTransfer (s : State) : State :=
  if s.granted = [.commandEngine] then s.served .commandEngine else s.settleAgent

end Sys2Proof.Machine
end

