-- ==== Sys2Proof/Machine/Patch.lean ====
section
/-! DEFINITION. The Patch Engine: forms and their values, site transfers, walks and their faults (chapter 6). -/

namespace Sys2Proof.Machine

/-! ## Site values (R110 to R115) -/

/-- The global base of the segment that holds a site: its local address less its offset, in the own window (R110). -/
def Site.segmentBase (n : Station) (x : Site) : Word :=
  globalAddress n (x.address - x.offset.toNat)

/-- The value a site receives for a target, or none where it fails the form's fit test (R110 to R113). -/
def Site.encode (n : Station) (x : Site) (target : Word) : Option Word :=
  let v := target + x.addend
  match x.form with
  | .a32 => some v
  | .hi16 => some (v >>> 16)
  | .lo16 => some (v &&& 0xFFFF)
  | .d16 =>
    let d := v - x.segmentBase n
    if -32768 ≤ d.toInt ∧ d.toInt ≤ 32767 then some (d &&& 0xFFFF) else none
  | .fld _ width shift =>
    let f := v >>> shift
    if v.toNat % 2 ^ shift = 0 ∧ f.toNat < 2 ^ width then some f else none

/-- The trap stub address (R12, R115); a free value while no configuration record is held (log 22). -/
def State.stubAddress (s : State) : Word :=
  match s.config with
  | some c => c.stub
  | none => Config.unsetStub

/-- The stub encoding of a site: zero where the stub fails the fit test (R115). -/
def State.stubValue (s : State) (x : Site) : Word :=
  (x.encode s.number s.stubAddress).getD 0

/-- The compute pass for a binding: the values of the sites, or the index of the first that does not fit (R116). -/
def computeSites (n : Station) (target : Word) : Nat → List Site → Except Nat (List Word)
  | _, [] => .ok []
  | k, x :: xs =>
    match x.encode n target with
    | none => .error k
    | some v => do
      let vs ← computeSites n target (k + 1) xs
      .ok (v :: vs)

/-- The bits of the containing word a site replaces (R114). -/
def Site.newWord (x : Site) (old value : Word) : Word :=
  match x.form with
  | .a32 => value
  | .fld position width _ =>
    let mask : Word := BitVec.ofNat 32 ((2 ^ width - 1) * 2 ^ position)
    (old &&& ~~~mask) ||| ((value <<< position) &&& mask)
  | .hi16 => if x.address % 4 = 0 then (old &&& 0xFFFF) ||| (value <<< 16) else (old &&& 0xFFFF0000) ||| (value &&& 0xFFFF)
  | .lo16 => if x.address % 4 = 0 then (old &&& 0xFFFF) ||| (value <<< 16) else (old &&& 0xFFFF0000) ||| (value &&& 0xFFFF)
  | .d16 => if x.address % 4 = 0 then (old &&& 0xFFFF) ||| (value <<< 16) else (old &&& 0xFFFF0000) ||| (value &&& 0xFFFF)

/-- The containing word's address: the site's, rounded down to a multiple of 4 (R114). -/
def Site.wordAddress (x : Site) : Nat :=
  x.address - x.address % 4

/-- Local memory after a site transfer that completes (R114). -/
def State.siteWritten (s : State) (t : SiteTransfer) : State :=
  { s with mem := s.mem.setWord t.site.wordAddress (t.site.newWord (s.mem.word t.site.wordAddress) t.value) }

/-- Local memory after a site transfer whose write was not acknowledged: the site holds a free value, and the other bits of
its word, which belong to other sites or to none, are as they were (R122, R128; log 6). -/
def State.siteSpoilt (s : State) (t : SiteTransfer) : State :=
  { s.siteWritten { t with value := Config.unknownWord s.freeCount } with freeCount := s.freeCount + 1 }

/-- The locked transfer: a write for A32, a read then a write for the other forms. Answers whether it was acknowledged;
a read that fails leaves the word, a write that fails leaves an unknown value in the site (R114, R122). -/
def State.makeTransfer (s : State) (env : Env) (t : SiteTransfer) : State × Bool :=
  let a := t.site.wordAddress
  if t.site.form = .a32 then
    if acks env 0 a then (s.siteWritten t, true) else (s.siteSpoilt t, false)
  else if acks env 0 a then
    if acks env 1 a then (s.siteWritten t, true) else (s.siteSpoilt t, false)
  else (s, false)

/-! ## Walks (R109, R116 to R120) -/

/-- A reference's current value (R109). -/
def Ref.currentValue (r : Ref) : WalkValue :=
  match r.phase.binding? with
  | some b => .binding b
  | none => .stub

/-- A walk value as "sites reflect" (R119). -/
def WalkValue.asReflect : WalkValue → Reflect
  | .binding b => .binding b
  | .stub => .stub

/-- The walk is complete (R119): the reference leaves the queue, and enters BOUND if it holds a binding. -/
def State.completeWalk (s : State) (o : Owner) (v : WalkValue) : State :=
  let t := { s.setReflect o v.asReflect with patchQueue := s.patchQueue.erase o, walk := none }
  match v with
  | .binding b => t.setPhase o (.bound b)
  | .stub => t

/-- The write pass begins at site 1, whose transfer gets under way (R116, R117). -/
def State.beginWrites (s : State) (r : Ref) (v : WalkValue) (values : List Word) : State :=
  match r.sites, values with
  | x :: _, w :: _ =>
    { s with
      walk := some { ref := r.owner, value := v, pass := .write, next := 1, computed := values }
      transfer := some { site := x, value := w } }
  | _, _ => s.completeWalk r.owner v

/-- The stub walk of a reference (R115, R116). -/
def State.walkStub (s : State) (r : Ref) : State :=
  s.beginWrites r .stub (r.sites.map s.stubValue)

/-- The compute pass for a reference's current value, and what follows it: the write pass, or the FIT fault and the walk
of the stub encoding (R116, R121). -/
def State.computeWalk (s : State) (r : Ref) : State :=
  match r.phase.binding? with
  | none => s.walkStub r
  | some b =>
    match computeSites s.number b.target 1 r.sites with
    | .ok values => s.beginWrites r (.binding b) values
    | .error k =>
      ((s.setPhase r.owner (.faulted .fit)).post (.referenceFaulted r.owner .fit k)).walkStub r

/-- The write pass goes on to its next site (R117). -/
def State.nextSite (s : State) (w : Walk) (x : Site) : State :=
  { s with
    walk := some { w with next := w.next + 1 }
    transfer := some { site := x, value := w.computed.getD w.next 0 } }

/-- After a site of a walk has been written: the comparison before the next site, or at completion (R117 to R119). -/
def State.afterSite (s : State) (w : Walk) : State :=
  match s.ref? w.ref with
  | none => { s with walk := none, patchQueue := s.patchQueue.erase w.ref }
  | some r =>
    if r.currentValue ≠ w.value then s.computeWalk r
    else
      match r.sites[w.next]? with
      | some x => s.nextSite w x
      | none => s.completeWalk r.owner w.value

/-! ## BUS faults (R102, R122, R123) -/

/-- A BUS fault at site `k` of a reference (R122, R123): it leaves the patch queue and whatever phase it was in. -/
def State.busFault (s : State) (o : Owner) (k : Nat) : State :=
  let t := { s with
    walk := none
    patchQueue := s.patchQueue.erase o
    backlog := s.backlog.filter fun x => decide (x ≠ o) }
  (((t.setPhase o (.faulted .bus)).setReflect o .unknown).post (.referenceFaulted o .bus k)).freeEmptySlots

end Sys2Proof.Machine
end

