-- ==== Sys2Proof/Machine/Bus.lean ====
section
/-! DEFINITION. The Bus Interface and Station Control: beginning a frame, the head checks, arrival, isolation, the end
of STOP, the peer table, the resets (chapters 7 and 8). -/

namespace Sys2Proof.Machine

/-! ## Beginning a frame (R132 to R134) -/

/-- The body of a queued frame (R137). -/
def TxEntry.body : TxEntry → Body
  | .join => .join
  | .leave => .leave
  | .announce k g target kind => .announce k.scope k.name g target kind
  | .withdraw k g => .withdraw k.scope k.name g
  | .seek _ k => .seek k.scope k.name

/-- The check of the frame at the head (R134). -/
def State.passesHeadCheck (s : State) : TxEntry → Bool
  | .join => true
  | .leave => true
  | .withdraw .. => true
  | .announce k g _ _ =>
    s.directory.any fun e => e.key.agrees k && decide (e.generation = g) && decide (e.state = .pending)
  | .seek n k =>
    match s.slots[n]? with
    | some (some x) => x.key.agrees k && decide (x.state = .toSend)
    | _ => false

/-- Frames that fail their check are dropped from the head; each freed place is granted (R134, R138). -/
def State.dropHeads : Nat → State → State
  | 0, s => s
  | n + 1, s =>
    match s.txQueue with
    | [] => s
    | t :: ts =>
      if s.passesHeadCheck t then s else State.dropHeads n (({ s with txQueue := ts } : State).arbitrate [])

/-- Rounds enough to drop every frame on the queue and every frame that could be granted a place. -/
def State.headRounds (s : State) : Nat :=
  s.txQueue.length + s.wanted.length + s.slots.length + 1

/-- The bus is free for the station (R132): `idle` bit times of idle line, no reservation running, and that known. -/
def State.busFree (s : State) (idle : Nat) : Bool :=
  decide (s.line = .quiet) && s.held.isNone && decide (Config.freeIdle ≤ idle)
    && (s.busSeen || decide (Config.lapseIdle ≤ idle))

/-- The station may begin a frame, apart from having something to send (R132, conditions 1, 2, 3 and 5). -/
def State.mayBegin (s : State) (idle : Nat) : Bool :=
  s.onBus && s.outgoing.isNone && s.busFree idle && decide (s.rxQueue = [])

/-- The frame at the head of the transmit queue, with a header built now (R136). -/
def State.queuedFrame (s : State) (t : TxEntry) : Frame :=
  { sender := s.number, sequence := s.nextSequence, group := s.ownGroup, body := t.body }

/-- The station starts a frame, from the answer list or from the checked transmit queue (R132, R133). -/
def State.beginFrame (s : State) : State :=
  match s.answers with
  | _ :: _ =>
    match s.answerFrame with
    | some (o, f) => { s with line := .contending (.answer o) f, busSeen := true }
    | none => s
  | [] =>
    let t := s.dropHeads s.headRounds
    match t.txQueue with
    | [] => t
    | x :: _ => { t with line := .contending .queue (t.queuedFrame x), busSeen := true }

/-- The frame leaves its source as it wins contention (R136, R50). -/
def State.leaveSource (s : State) : Source → State
  | .queue => ({ s with txQueue := s.txQueue.tail } : State).arbitrate []
  | .answer o =>
    { s with
      answers := s.answers.filter fun a => decide (a.owner ≠ o)
      directory := s.directory.map fun e =>
        match e.state with
        | .live _ => if e.owner = o then { e with state := .live [] } else e
        | .pending => e
        | .withdrawing => e
        | .refused _ => e }

/-! ## Isolation (R36, R57, R85, R148, R162) -/

/-- A slot at isolation: its timer stops, its request is withdrawn (R85). -/
def Slot.isolated (x : Slot) : Slot := { x with timer := false, awaitingRoom := false }

/-- An entry at isolation: its owed refused list is cleared (R57). -/
def ExportEntry.isolated (e : ExportEntry) : ExportEntry :=
  match e.state with
  | .live _ => { e with state := .live [] }
  | .pending => e
  | .withdrawing => e
  | .refused _ => e

/-- What every block does at the isolation, before the command in progress is ended (R57, R85, R148; log 16). -/
def State.cutFromBus (s : State) : State :=
  { s with
    station := .isolated
    txQueue := [], rxQueue := [], outgoing := none, held := none, line := .quiet
    directory := s.directory.map ExportEntry.isolated
    answers := []
    slots := s.slots.map (Option.map Slot.isolated)
    wanted := [] }

/-- A LOAD or UNLOAD is abandoned: its module's references, exports and record go (R36). -/
def State.abandonModule (s : State) (tag : Half) (m : Byte) (siteBegun : Bool) : State :=
  let t := s.removeRefs m siteBegun
  let u := ({ t with directory := t.directory.filter fun e => decide (e.owner.module ≠ m) } : State).removeModule m
  ((u.endEvent s).endCommand tag .refusedState m.toNat).endFetch

/-- A duplicate of the station number is detected (R148, R162): the command in progress is ended, a LOAD in its first pass too
(R36). A command whose block has been read in part only is not yet taken as in progress: its block is read on, and it ends
as the reading or the state ISOLATED has it (DESIGN CHOICE, log 40). -/
def State.isolate (s : State) (siteBegun : Bool) : State :=
  let t := s.cutFromBus.post .stationIsolated
  let begun := s.siteBegan siteBegun
  match t.command with
  | some (.loadCommit tag m _ _ _ _) => (t.abandonModule tag m begun).dropTransfer
  | some (.loadTakeOut tag m _) => (t.abandonModule tag m begun).dropTransfer
  | some (.unload tag m) => (t.abandonModule tag m begun).dropTransfer
  | some (.start tag) => (t.endCommand tag .refusedState 0).dropTransfer
  | some (.stop tag) => (t.endCommand tag .refusedState 0).dropTransfer
  | some (.report ..) => t.settleAgent
  | none =>
    match t.firstPassLoad with
    | some (tag, id) => (t.withoutLoading.endCommand tag .refusedState ((id.map (·.toNat)).getD 0)).endFetch.dropTransfer
    | none => t.settleAgent

/-! ## Arrival and hold (R139, R143, R144) -/

/-- The hold window of a frame opens (R139). -/
def State.openWindow (s : State) (bits : List Bool) (arrival : Arrival) : State :=
  { s with
    line := .window { sender := readSender bits, sequence := readSequence bits, arrival,
                      own := decide (s.line = .sending) } }

/-- The frame is the repeat of a held frame this station took (R144). -/
def State.isTakenRepeat (s : State) (f : Frame) : Bool :=
  match s.held with
  | some h => h.took && decide (h.sender = f.sender) && decide (h.sequence = some f.sequence)
  | none => false

/-- A peer record changed. -/
def State.updatePeer (s : State) (n : Station) (f : Peer → Peer) : State :=
  { s with peers := s.peers.modify n.val f }

/-- The arrival tests on a whole frame, in order (R143). -/
def State.arrive (s : State) (bits : List Bool) (siteBegun : Bool) : State :=
  match readFrame bits with
  | none => s.openWindow bits .heldBad
  | some f =>
    if f.sender = s.number ∧ s.line ≠ .sending then s.isolate siteBegun
    else if s.isTakenRepeat f then s.openWindow bits .discarded
    else if s.hasMarker f.sender then s.openWindow bits .heldFull
    else if Config.receiveRoom ≤ s.rxFrames then s.openWindow bits .heldFull
    else
      (({ s with rxQueue := s.rxQueue ++ [.frame f] } : State).updatePeer f.sender fun p =>
        { p with lastSequence := f.sequence }).openWindow bits .taken

/-- A frame may arrive: the station listens, and is neither in contention nor in a hold window. -/
def State.canArrive (s : State) : Bool :=
  s.listens && decide (s.line = .quiet ∨ s.line = .sending)

/-- The end of STOP: the station stops listening, its queues and held-frame record are emptied, COMMAND-DONE is posted
(R137, R147, R158). -/
def State.completeStop (s : State) : State :=
  match s.command with
  | some (.stop tag) =>
    ({ s with txQueue := [], rxQueue := [], held := none, line := .quiet } : State).endCommand tag .ok 0
  | _ => s

/-- The held-frame record after a window that showed HOLD (R139). -/
def heldRecordAfter (old : Option HeldRecord) (w : Window) : HeldRecord :=
  let new : HeldRecord := { sender := w.sender, sequence := w.sequence, took := decide (w.arrival = .taken) }
  match old with
  | some h => if h.took ∧ (w.arrival = .discarded ∨ w.arrival = .heldBad) then h else new
  | none => new

/-- The sender's outgoing frame is held once more; BUS-STALL at the sixteenth hold (R139, R141). -/
def State.countHold (s : State) : State :=
  match s.outgoing with
  | none => s
  | some o =>
    let stall := decide (Config.stallCount ≤ o.holds + 1) && !o.stalled
    let t := { s with outgoing := some { o with holds := o.holds + 1, stalled := o.stalled || stall } }
    if stall then (t.post .busStall).settleAgent else t

/-- The frame of the window is held (R139). -/
def State.windowHeld (s : State) (w : Window) : State :=
  let t := { s with held := some (heldRecordAfter s.held w), line := .quiet }
  if w.own then t.countHold else t

/-- The frame of the window is carried (R139); the last carriage of the own LEAVE ends the STOP (R158). -/
def State.windowCarried (s : State) (w : Window) : State :=
  let t := { s with held := none, line := .quiet, busSeen := true }
  if w.own then
    let u := { t with outgoing := none }
    if u.station = .configured then u.completeStop.settleAgent else u
  else t

/-! ## Resets (R37, R58, R86, R127, R149, R164, R166, R180) -/

/-- Local memory at a reset: a site transfer in progress completes whole or does not take place; of a notice or report
record being written, the words before the reset stand (R127, R166, R175, R180; log 10). A transfer that the agent has not
granted has not taken place (R182). -/
def State.memAtReset (s : State) (cut : Cut) : Memory :=
  let m0 := match s.transfer with
    | some t => if cut.site && decide (.patchEngine ∈ s.granted) then (s.siteWritten t).mem else s.mem
    | none => s.mem
  let m1 := match s.notices.ring, s.notices.list with
    | some r, x :: _ =>
      m0.setWords (r.base + 16 * x.slot + 4 * s.runs.noticeWords)
        ((x.notice.words.drop s.runs.noticeWords).take (s.carriedWords .noticeUnit cut.noticeWords))
    | _, _ => m0
  match s.command with
  | some (.report _ sel m buffer _ n) =>
    match s.recordAt sel m n with
    | some x =>
      m1.setWords (buffer + n * sel.recordSize + 4 * x.written)
        ((x.words.drop x.written).take (s.carriedWords .commandEngine cut.reportWords))
    | none => m1
  | _ => m1

/-- Every block in its reset state, with this station number; local memory is kept (R164). -/
def State.resetWith (s : State) (n : Station) (cut : Cut) : State :=
  { State.reset with number := n, mem := s.memAtReset cut, freeCount := s.freeCount, pending := s.pending }

end Sys2Proof.Machine
end

