-- ==== Sys2Proof/Machine/Flags.lean ====
section
/-! DEFINITION. What the host reads: the registers of the window, their flags, and the INT output (R165, R166, R181). -/

namespace Sys2Proof.Machine

/-- PENDING: the producer index differs from the consumer index (R181). -/
def NoticeUnit.pendingFlag (n : NoticeUnit) : Bool :=
  decide (n.producer ≠ n.consumer)

/-- INT is asserted while PENDING holds and the interrupt enable is 1 (R181). -/
def State.interrupt (s : State) : Bool :=
  s.notices.pendingFlag && s.notices.interruptEnable

/-- The code of the last SUBMIT result in CQSTAT (R165). -/
def SubmitResult.code : SubmitResult → Nat
  | .none => 0
  | .accepted => 1
  | .refusedFull => 2
  | .refusedAddress => 3

/-- PSTAT (R165): station state, station number, group. -/
def State.pstat (s : State) : Word :=
  BitVec.ofNat 32 (s.station.code + s.number.val * 0x100 + s.ownGroup.toNat * 0x10000)

/-- CQSTAT (R165, R168). -/
def State.cqstat (s : State) : Word :=
  BitVec.ofNat 32 (s.commandQueue.length + s.lastSubmit.code * 0x100)

/-- ISTAT (R165, R181). -/
def NoticeUnit.istat (n : NoticeUnit) : Word :=
  BitVec.ofNat 32 (n.pendingFlag.toNat + 2 * (decide (n.drops ≠ 0)).toNat + 4 * n.writeFault.toNat
    + 8 * n.consumerRefused.toNat + n.drops * 0x10000)

/-- The register at an offset of the window (R165). -/
def State.register (s : State) (offset : Nat) : Word :=
  if offset = 0x00 then 0x04120001
  else if offset = 0x04 then BitVec.ofNat 32 s.notices.interruptEnable.toNat
  else if offset = 0x08 then s.pstat
  else if offset = 0x10 then s.cqstat
  else if offset = 0x14 then BitVec.ofNat 32 s.notices.producer
  else if offset = 0x18 then BitVec.ofNat 32 s.notices.consumer
  else if offset = 0x1C then s.notices.istat
  else 0

/-- A read of the window: the whole register, or the lanes of a byte or halfword; not acknowledged while RESET is low
(R165). The lanes that correspond to an offset are those of a word in local memory: the lowest offset is the most significant
byte (DESIGN CHOICE, log 41). -/
def State.readWindow (s : State) (offset : Nat) (width : Width) : Option Word :=
  if s.inReset then none
  else
    let w := s.register (offset - offset % 4)
    match width with
    | .word => some w
    | .half => some ((halfOf (byteAt w (offset % 4)) (byteAt w (offset % 4 + 1))).setWidth 32)
    | .byte => some ((byteAt w (offset % 4)).setWidth 32)

end Sys2Proof.Machine
end

