-- ==== Sys2Proof/Machine/LocalPort.lean ====
section
/-! DEFINITION. Meanings of the resets and of the writes to the register window (R149, R164 to R167, R179, R181). -/

namespace Sys2Proof.Machine

/-- The answer of every meaning of this model: a next state. -/
abbrev StepAnswer := Host.Outcome State Fault Refusal

/-- While RESET is low the window acknowledges no access (R165): a write has no effect. -/
def State.windowWrite (s : State) (f : State → State) : State :=
  if s.inReset then s else f s

/-- A whole-word write to PCTL (R166): bit 31 makes a port reset; otherwise bit 0 is the interrupt enable. -/
def State.writePctl (s : State) (value : Word) (cut : Cut) : State :=
  if value.getLsbD 31 then s.resetWith s.number cut
  else { s with notices := { s.notices with interruptEnable := value.getLsbD 0 } }

/-- A whole-word write to SUBMIT (R167). -/
def State.submit (s : State) (value : Word) : State :=
  if value.toNat % 4 ≠ 0 ∨ 0x0FFFFFFF < value.toNat then { s with lastSubmit := .refusedAddress }
  else if Config.commandRoom ≤ s.commandQueue.length then { s with lastSubmit := .refusedFull }
  else { s with commandQueue := s.commandQueue ++ [value], lastSubmit := .accepted }

/-- A whole-word write to NCONS is accepted (R179). -/
def NoticeUnit.accepts (n : NoticeUnit) (v : Nat) : Bool :=
  match n.ring with
  | none => false
  | some r =>
    decide (v < r.size)
      && decide ((v + r.size - n.consumer) % r.size ≤ (n.producer + r.size - n.consumer) % r.size)

/-- A whole-word write to NCONS (R179). -/
def NoticeUnit.release (n : NoticeUnit) (v : Nat) : NoticeUnit :=
  if n.accepts v then ({ n with consumer := v } : NoticeUnit).testDrops else { n with consumerRefused := true }

/-- A whole-word write to ISTAT (R181). -/
def NoticeUnit.clearFlags (n : NoticeUnit) (value : Word) : NoticeUnit :=
  { n with
    writeFault := n.writeFault && !value.getLsbD 2
    consumerRefused := n.consumerRefused && !value.getLsbD 3 }

/-- PIN_RESET (R151, R164): every block in its reset state, the station number from the straps. -/
def execPinReset (straps : BitVec 4) (cut : Cut) (s : State) : StepAnswer :=
  .next (s.resetWith straps.toFin cut)

/-- PORT_RESET (R166, R164): the station number is kept. -/
def execPortReset (value : Word) (cut : Cut) (s : State) : StepAnswer :=
  .next (s.windowWrite fun s => s.writePctl value cut)

/-- INTERRUPT_ENABLE_WRITE (R166). -/
def execInterruptEnableWrite (value : Word) (s : State) : StepAnswer :=
  .next (s.windowWrite fun s => s.writePctl value {})

/-- SUBMISSION (R167). -/
def execSubmission (value : Word) (s : State) : StepAnswer :=
  .next (s.windowWrite fun s => (s.submit value).settleAgent)

/-- NCONS_WRITE (R179). -/
def execNconsWrite (value : Word) (s : State) : StepAnswer :=
  .next (s.windowWrite fun s => State.settleAgent { s with notices := s.notices.release value.toNat })

/-- ISTAT_WRITE (R181). -/
def execIstatWrite (value : Word) (s : State) : StepAnswer :=
  .next (s.windowWrite fun s => { s with notices := s.notices.clearFlags value })

/-- IGNORED_REGISTER_WRITE (R165): acknowledged and ignored. -/
def execIgnoredRegisterWrite (_offset : Nat) (_width : Width) (_value : Word) (s : State) : StepAnswer :=
  .next s

/-- RESET_LOW (R149, R165): the window stops acknowledging, a frame being sent is cut off, a frame being received is
neither taken nor held, the station stops listening and pulling HOLD. Nothing else goes on until RESET returns high
(log 11). -/
def execResetLow (s : State) : StepAnswer :=
  .next { s with inReset := true, line := .quiet, outgoing := none }

end Sys2Proof.Machine
end

