-- ==== Sys2Proof/Machine/Commands.lean ====
section
/-! DEFINITION. Meanings of the commands at the head of the command queue (R154, R155, R157, R17, R32, R82, R169, R172). -/

namespace Sys2Proof.Machine

/-- The reading of the block at the head of the command queue (R169). -/
inductive HeadRead where
  /-- A read failed: the command, if its first word was read; the tag, 0 otherwise; how the command ends. -/
  | failed (first : Option (Option CommandKind)) (tag : Half) (ending : Ending)
  /-- The block was read: the command its code names, if one; the tag; the words after the first. -/
  | whole (kind : Option CommandKind) (tag : Half) (words : List Word)
  deriving DecidableEq, Repr

/-- Reads the block of the head of the command queue (R169, R185). -/
def State.readHead (s : State) (env : Env) : Option HeadRead :=
  match s.commandQueue with
  | [] => none
  | address :: _ =>
    let a := address.toNat
    let fetched := s.runs.fetched
    let env := resumed env fetched.length
    if acks env 0 a then
      let w := blockContent s.mem fetched a 0
      match commandOfCode (byteAt w 0) with
      | none => some (.whole none (tagOf w) [])
      | some k =>
        match blockWords s.mem fetched env a 1 k.moreWords with
        | .ok ws => some (.whole (some k) (tagOf w) ws)
        | .error e => some (.failed (some (some k)) (tagOf w) e)
    else some (.failed none 0 { status := .readError, detail := 0 })

/-- The Command Engine may begin a command or go on reading it: none is in progress, RESET is high, the memory agent
grants (R168, R182). -/
def State.mayExecute (s : State) : Bool :=
  s.mayTransfer .commandEngine && s.command.isNone

/-- A READ-ERROR, with the tag of its command. -/
def readErrorOf (tag : Half) (e : Ending) : Option (Half × Ending) :=
  if e.status = .readError then some (tag, e) else none

/-- The READ-ERROR that the first pass of the LOAD at the head meets, where the LOAD is taken (R24). -/
def State.firstPassReadError (s : State) (env : Env) : Option (Half × Ending) :=
  match s.readHead env with
  | some (.whole (some .load) tag words) =>
    if s.station = .active then
      match s.loadFirstPass env words with
      | .error e => readErrorOf tag e
      | .ok _ => none
    else none
  | _ => none

/-- The READ-ERROR that the reading of the head meets, in its block or in the first pass of a LOAD (R24, R169). -/
def State.headReadError (s : State) (env : Env) : Option (Half × Ending) :=
  match s.readHead env with
  | some (.failed _ tag e) => readErrorOf tag e
  | _ => s.firstPassReadError env

/-- The address of the next word of the head, after the words of it that have been read: of its block, then, for a LOAD, of
its descriptor. -/
def State.headAddress (s : State) (words : List Word) : Nat :=
  let a := (s.commandQueue.headD 0).toNat
  match words with
  | w :: d :: rest => if commandOfCode (byteAt w 0) = some .load then d.toNat + 4 * rest.length else a + 4 * words.length
  | _ => a + 4 * words.length

/-- The words of the head that have been read, where the step leaves the head there: the transfer after them would be made
(R169, R182). -/
def State.headPause (s : State) (env : Env) : Option (List Word) :=
  match pauseAt env with
  | some p =>
    if (s.headReadError { env with failAt := some p }).isSome then
      some (fetchMore s.mem s.headAddress p s.runs.fetched)
    else none
  | none => none

/-- The step leaves the head with these words of it read. A first pass that has read the module id has made its LOADING record
at the tail of the module table (R13, R17; log 15). -/
def State.leaveHead (s : State) (env : Env) (words : List Word) : State :=
  let t := { s with runs := { s.runs with fetched := words } }
  match words with
  | _ :: d :: w0 :: rest =>
    if (s.firstPassReadError { env with failAt := env.upTo }).isSome then
      { t with modules := s.modules ++ [loadingRecord d (w0 :: rest)] }
    else t
  | _ => t

/-- Execution of the command at the head as a command of this kind: the block is read, then `body` is carried out. The
step is that of another row, and changes nothing, where the block holds another code (log 23). Where the step leaves the
reading before its end, the words read so far are kept (log 15). -/
def State.runHead (s : State) (kind : Option CommandKind) (env : Env) (body : Half → List Word → State → State) : State :=
  if s.mayExecute then
    let env := s.runEnv .commandEngine env
    let t := s.forReading env
    match t.headPause env with
    | some words =>
      if (words.head?.map fun w => commandOfCode (byteAt w 0)) = some kind then
        (t.leaveHead env words).served .commandEngine
      else s
    | none =>
      match t.readHead env with
      | none => s
      | some (.failed first tag e) =>
        if first = none ∨ first = some kind then (t.endCommand tag e.status e.detail).endFetch.served .commandEngine else s
      | some (.whole k tag words) => if k = kind then (body tag words t).endFetch.served .commandEngine else s
  else s

/-- The state test, then the command (R169). -/
def State.runCommand (s : State) (kind : CommandKind) (env : Env) (body : Half → List Word → State → State) : State :=
  s.runHead (some kind) env fun tag words t =>
    if kind.takenIn t.station then body tag words t else t.endCommand tag .refusedState 0

/-- CONFIGURE in OFF (R154): the first field that fails, or the whole record set, the ring handed over and tested for
drops (R178), CONFIGURED entered. -/
def State.configure (s : State) (tag : Half) (words : List Word) : State :=
  match readConfig words with
  | .error off => s.endCommand tag .badConfig off
  | .ok c =>
    ({ s with
      config := some c
      station := .configured
      notices := ({ s.notices with ring := some { base := c.ringBase.toNat, size := c.ringSize }
                                   producer := 0, consumer := 0 } : NoticeUnit).testDrops } : State).endCommand tag .ok 0

/-- START in CONFIGURED (R155). -/
def State.startJoining (s : State) (tag : Half) : State :=
  ({ s with station := .joining, busSeen := false, command := some (.start tag), wanted := [.join] } : State).arbitrate []

/-- STOP in ACTIVE (R157). -/
def State.stopLeaving (s : State) (tag : Half) : State :=
  if s.modules ≠ [] then s.endCommand tag .modulesPresent s.modules.length
  else ({ s with station := .leaving, command := some (.stop tag), wanted := [.leave] } : State).arbitrate []

/-- LOAD in ACTIVE: the first pass (R17 to R23). -/
def State.beginLoad (s : State) (env : Env) (tag : Half) (words : List Word) : State :=
  match s.loadFirstPass env words with
  | .error e => s.endCommand tag e.status e.detail
  | .ok m =>
    { s with
      modules := s.modules ++ [m]
      command := some (.loadCommit tag m.id 0 0 (8 + 8 * m.segments.length) 0) }

/-- The module id argument of UNLOAD and RESEEK (R185). -/
def moduleArgument (words : List Word) : Byte :=
  byteAt (words.getD 0 0) 3

/-- UNLOAD in ACTIVE (R32 to R35). -/
def State.unloadModule (s : State) (env : Env) (tag : Half) (words : List Word) : State :=
  let m := moduleArgument words
  match s.module? m with
  | none => s.endCommand tag .unknownModule m.toNat
  | some _ =>
    (({ s.giveUp m env.siteBegun with command := some (.unload tag m) } : State).endEvent s env.order).finishRemoval

/-- A reference RESEEK sends to seek entry (R82). -/
def Ref.reseekable (r : Ref) : Bool :=
  match r.phase with
  | .waiting => true
  | .faulted _ => true
  | .queued => false
  | .seeking _ => false
  | .patching _ => false
  | .bound _ => false

/-- RESEEK clears a reference's fault cause and applies seek entry (R82). -/
def State.reseekRef (s : State) (r : Ref) : State :=
  (s.setPhase r.owner .waiting).seekEntry r

/-- RESEEK in ACTIVE (R82). -/
def State.reseekModules (s : State) (tag : Half) (words : List Word) : State :=
  let m := moduleArgument words
  if m ≠ 0 ∧ (s.module? m).isNone then s.endCommand tag .unknownModule m.toNat
  else
    let hit := s.refs.filter fun r => r.reseekable && (decide (m = 0) || decide (r.owner.module = m))
    ((hit.foldl State.reseekRef s).endEvent s).endCommand tag .ok hit.length

/-- The arguments of a REPORT checked in order, or how it ends (R172). -/
def State.readReport (s : State) (tag : Half) (words : List Word) : Except Ending Command := do
  let w := words.getD 0 0
  let bad : Ending := { status := .badCommand, detail := 0 }
  let m := byteAt w 1
  let capacity := (halfOf (byteAt w 2) (byteAt w 3)).toNat
  let buffer := (words.getD 1 0).toNat
  match selectorOfCode (byteAt w 0) with
  | none => .error bad
  | some sel =>
    require (decide (buffer % 16 = 0) && decide (buffer ≤ 0x0FFFFFFF)) bad
    require (decide (1 ≤ capacity) && decide (capacity ≤ 256)) bad
    require (decide (buffer + capacity * sel.recordSize ≤ 0x10000000)) bad
    require (decide (sel ≠ .exports ∧ sel ≠ .references) || (s.module? m).isSome)
      { status := .unknownModule, detail := m.toNat }
    .ok (.report tag sel m buffer capacity 0)

/-- REPORT (R172, R173): it ends at once where a check fails or its selector has no record. -/
def State.beginReport (s : State) (tag : Half) (words : List Word) : State :=
  match s.readReport tag words with
  | .error e => s.endCommand tag e.status e.detail
  | .ok c =>
    match c with
    | .report _ sel m _ _ _ =>
      if (s.reportRecord sel m 0).isNone then s.endCommand tag .ok 0 else { s with command := some c }
    | _ => s

/-- UNKNOWN_COMMAND_CODE (R169). -/
def execUnknownCommandCode (env : Env) (s : State) : StepAnswer :=
  .next (s.runHead none env fun tag _ t => t.endCommand tag .badCommand 0)

/-- CONFIGURE (R154, R169). -/
def execConfigure (env : Env) (s : State) : StepAnswer :=
  .next (s.runCommand .configure env fun tag words t => t.configure tag words)

/-- START (R155, R169). -/
def execStart (env : Env) (s : State) : StepAnswer :=
  .next (s.runCommand .start env fun tag _ t => t.startJoining tag)

/-- STOP (R157, R169). -/
def execStop (env : Env) (s : State) : StepAnswer :=
  .next (s.runCommand .stop env fun tag _ t => t.stopLeaving tag)

/-- LOAD (R17, R169). -/
def execLoad (env : Env) (s : State) : StepAnswer :=
  .next (s.runCommand .load env fun tag words t => t.beginLoad env tag words)

/-- UNLOAD (R32, R169). -/
def execUnload (env : Env) (s : State) : StepAnswer :=
  .next (s.runCommand .unload env fun tag words t => t.unloadModule env tag words)

/-- RESEEK (R82, R169). -/
def execReseek (env : Env) (s : State) : StepAnswer :=
  .next (s.runCommand .reseek env fun tag words t => t.reseekModules tag words)

/-- REPORT (R172, R169). -/
def execReport (env : Env) (s : State) : StepAnswer :=
  .next (s.runCommand .report env fun tag words t => t.beginReport tag words)

end Sys2Proof.Machine
end

