-- ==== Sys2Proof/Machine/Commit.lean ====
section
/-! DEFINITION. Meanings of the later steps of LOAD and REPORT (R25, R26, R28, R29, R173). -/

namespace Sys2Proof.Machine

/-- The commit pass reads its next record: `onRecord` enters a good one, a fault is taken out (R25, R26, R29). -/
def State.readRecord (s : State) (env : Env) (onRecord : CommitItem → State → State) (onFault : Ending → State → State) :
    State :=
  if s.mayTransfer .commandEngine then
    let t := s.forTransfers env
    match t.readCommit env with
    | none => s
    | some (.ok item) => onRecord item t.endFetch
    | some (.error e) => onFault e t.endFetch
  else s

/-- As `readRecord`; where the step leaves the record before its end, `onPause` is given the state with the words read so
far (R182; log 15). -/
def State.commitStep (s : State) (env : Env) (onPause : State → State) (onRecord : CommitItem → State → State)
    (onFault : Ending → State → State) : State :=
  match (s.forTransfers env).commitPause (s.runEnv .commandEngine env) with
  | some t => if s.mayTransfer .commandEngine then onPause t else s
  | none => s.readRecord env onRecord onFault

/-- The part of a record that has been read is left; the agent has served the Command Engine. -/
def State.leaveRecord (t : State) : State := t.served .commandEngine

/-- A record at fault is taken out with its module; the agent has served the Command Engine (R29). -/
def State.commitFault (t : State) (env : Env) (e : Ending) : State := (t.takeOut env e).served .commandEngine

/-- The next record of the commit pass is an export. -/
def State.exportDue (s : State) : Bool :=
  match s.command with
  | some (.loadCommit _ m nextExport _ _ _) =>
    match s.module? m with
    | some rec => decide (nextExport < rec.exportCount)
    | none => false
  | _ => false

/-- LOAD_COMMIT_EXPORT (R25): the record is entered, or found at fault and the module taken out (R29, log 15). -/
def execLoadCommitExport (env : Env) (s : State) : StepAnswer :=
  .next <|
    if s.exportDue then
      s.commitStep env State.leaveRecord
        (fun item t => match item with
          | .exported x => ((t.enterExport x).arbitrate []).served .commandEngine
          | .imported _ => s)
        (fun e t => t.commitFault env e)
    else s

/-- LOAD_COMMIT_IMPORT (R26): the record is entered, or found at fault and the module taken out (R29, log 15). -/
def execLoadCommitImport (env : Env) (s : State) : StepAnswer :=
  .next <|
    if s.exportDue then s
    else
      s.commitStep env State.leaveRecord
        (fun item t => match item with
          | .imported x => ((t.enterImport x).endEvent t).served .commandEngine
          | .exported _ => s)
        (fun e t => t.commitFault env e)

/-- LOAD_COMMIT_END (R28): the derived state, MODULE-STATE, COMMAND-DONE. -/
def execLoadCommitEnd (s : State) : StepAnswer :=
  .next <|
    if s.commitAtEnd && !s.inReset then
      match s.command with
      | some (.loadCommit tag m _ _ _ _) =>
        let d := derivedState (s.phasesOf m)
        (((s.setModuleState m d).post (.moduleState m d)).endCommand tag .ok m.toNat).settleAgent
      | _ => s
    else s

/-- LOAD_COMMIT_FAULT (R29): the next record of the commit pass is found at fault and the module taken out. -/
def execLoadCommitFault (env : Env) (s : State) : StepAnswer :=
  .next (s.commitStep env (fun _ => s) (fun _ _ => s) fun e t => t.commitFault env e)

/-- After a report record has been written: the end of the listing, or the next record (R173). -/
def State.afterRecord (s : State) (tag : Half) (sel : Selector) (m : Byte) (buffer capacity written : Nat) : State :=
  if (s.reportRecord sel m written).isNone then s.endCommand tag .ok written
  else if capacity ≤ written then s.endCommand tag .ok (written + 0x80000000)
  else { s with command := some (.report tag sel m buffer capacity written) }

/-- The next words of the record that the REPORT is at, up to its end or to where the step leaves it (R173, R175). -/
def State.writeRecord (s : State) (env : Env) : State :=
  match s.command with
  | some (.report tag sel m buffer capacity n) =>
    match s.recordAt sel m n with
    | none => s.endCommand tag .ok n
    | some x =>
      let left := x.words.drop x.written
      let place := n * sel.recordSize + 4 * x.written
      match State.writeWords env 0 (buffer + place) (wordsNow env left) s with
      | (t, some k) => (t.endCommand tag .writeError (place + 4 * k)).setRecord none
      | (t, none) =>
        if (wordsNow env left).length < left.length then
          t.setRecord (some { x with written := x.written + (wordsNow env left).length })
        else (t.setRecord none).afterRecord tag sel m buffer capacity (n + 1)
  | _ => s

/-- The content of the record that the REPORT is at is taken, and no word of it written yet (R173). -/
def State.takeRecord (s : State) : State :=
  match s.command with
  | some (.report _ sel m _ _ n) => s.setRecord (s.recordAt sel m n)
  | _ => s

/-- A REPORT is in progress. -/
def State.reporting (s : State) : Bool :=
  match s.command with
  | some (.report ..) => true
  | _ => false

/-- REPORT_RECORD_WRITE (R173, R175). A step that makes no transfer only takes the record's content (log 29), or ends a
listing that has no further record. -/
def execReportRecordWrite (env : Env) (s : State) : StepAnswer :=
  .next <|
    if s.inReset || !s.reporting then s
    else if env.upTo = some 0 then s.takeRecord
    else if !s.commandAsks then (s.writeRecord env).settleAgent
    else if s.mayTransfer .commandEngine then
      ((s.forTransfers env).writeRecord (s.runEnv .commandEngine env)).served .commandEngine
    else s

end Sys2Proof.Machine
end

