-- ==== Sys2Proof/Machine/Contention.lean ====
section
/-! DEFINITION. Meanings of the events on the line of the binding bus (R131 to R145). -/

namespace Sys2Proof.Machine

/-- FRAME_BEGIN (R132 to R134). -/
def execFrameBegin (idle : Nat) (s : State) : StepAnswer :=
  .next (if s.mayBegin idle then s.beginFrame.settleAgent else s)

/-- CONTENTION_LOST (R135): possible at a bit of the key that the station sends as 1. The answer is abandoned, its member
keeping its place; a queued frame stays at the head. -/
def execContentionLost (bit : Nat) (s : State) : StepAnswer :=
  .next <|
    match s.line with
    | .contending _ f =>
      if !s.inReset && decide (bit < 6) && f.arbitrationKey.testBit bit then { s with line := .quiet } else s
    | .quiet => s
    | .sending => s
    | .window _ => s

/-- CONTENTION_WON (R136, R130, R50). -/
def execContentionWon (s : State) : StepAnswer :=
  .next <|
    match s.line with
    | .contending source f =>
      if s.inReset then s
      else
        ({ s with
          line := .sending
          outgoing := some { frame := f, holds := 0, stalled := false }
          nextSequence := s.nextSequence + 1 } : State).leaveSource source |>.settleAgent
    | .quiet => s
    | .sending => s
    | .window _ => s

/-- SENDER_BIT_MISMATCH (R136): possible at a bit after the key that the station sends as 1. -/
def execSenderBitMismatch (pos : Nat) (s : State) : StepAnswer :=
  .next <|
    match s.outgoing with
    | some o =>
      if !s.inReset && decide (s.line = .sending) && decide (6 ≤ pos) && decide (o.frame.bits[pos]? = some true) then
        { s with line := .quiet, outgoing := none }
      else s
    | none => s

/-- FRAME_CUT_OFF (R131, R139): the frame is bad and held; fewer bits than a key are a fragment, of which nothing is
recorded. -/
def execFrameCutOff (bits : List Bool) (quiet : Nat) (s : State) : StepAnswer :=
  .next <|
    if s.canArrive && decide (Config.cutOffIdle ≤ quiet) && decide (6 ≤ bits.length)
        && !(decide (29 ≤ bits.length) && decide (declaredLength bits ≤ bits.length)) then
      s.openWindow bits .heldBad
    else s

/-- FRAME_ARRIVAL (R143, R144, R148). -/
def execFrameArrival (bits : List Bool) (siteBegun : Bool) (s : State) : StepAnswer :=
  .next (if s.canArrive && decide (6 ≤ bits.length) then s.arrive bits siteBegun else s)

/-- HOLD_WINDOW_END (R139, R141, R158): HOLD is shown when another station pulls it or this one does. The window is one this
station saw open: for a station that began to listen inside another frame's hold window, or while another station's frame
was on the line before its window, the end of that frame's window shows nothing, and the bus is known to be free later
(DESIGN CHOICE, log 37). -/
def execHoldWindowEnd (othersPull : Bool) (s : State) : StepAnswer :=
  .next <|
    match s.line with
    | .window w =>
      if s.inReset then s
      else if othersPull || decide (w.arrival = .heldBad ∨ w.arrival = .heldFull) then s.windowHeld w
      else s.windowCarried w
    | .quiet => s
    | .sending => s
    | .contending _ _ => s

/-- REPEAT (R140): the sender of a held frame sends it again, without contention. -/
def execRepeatFrame (idle : Nat) (s : State) : StepAnswer :=
  .next <|
    match s.outgoing with
    | some o =>
      if s.listens && decide (s.line = .quiet) && decide (1 ≤ o.holds) && decide (Config.freeIdle ≤ idle) then
        { s with line := .sending }
      else s
    | none => s

/-- The reservation of the held-frame record lapses (R145, R146, R148). -/
def State.lapseReservation (s : State) (siteBegun : Bool) : State :=
  let t := { s with held := none, busSeen := true }
  match s.held with
  | none => t
  | some h =>
    if h.sender = s.number then t.isolate siteBegun
    else if s.hasMarker h.sender then t
    else { t with rxQueue := s.rxQueue ++ [.lapse h.sender] }

/-- RESERVATION_LAPSE (R145). A station with no held-frame record only learns that no reservation runs (R132, log 18). A
station whose own frame awaits its repeat sends it, and detects no lapse (R96, R140, log 19). -/
def execReservationLapse (idle : Nat) (siteBegun : Bool) (s : State) : StepAnswer :=
  .next <|
    if s.listens && decide (s.line = .quiet) && s.outgoing.isNone && decide (Config.lapseIdle ≤ idle) then
      s.lapseReservation siteBegun
    else s

end Sys2Proof.Machine
end

