-- ==== Sys2Proof/Machine/Engines.lean ====
section
/-! DEFINITION. Meanings of the seek timers, the Patch Engine, the Notice Unit and the memory agent's timeout (R73 to
R75, R109, R117, R177, R180, R182). -/

namespace Sys2Proof.Machine

/-! ## Seek timers -/

/-- A slot's seeks are exhausted (R75): its references go WAITING, each with its notice, and the slot is freed. -/
def State.exhaust (s : State) (n : Nat) : State :=
  let hit := s.refs.filter fun r => decide (r.phase = .seeking n)
  let t := hit.foldl (fun t r => (t.setPhase r.owner .waiting).post (.referenceUnresolved r.owner)) s
  { t with slots := t.slots.set n none }

/-- A slot's timer runs out (R74, R75). -/
def State.expire (s : State) (n : Nat) (x : Slot) (c : ConfigRecord) : State :=
  if x.tries < c.seekTries then (s.enterToSend n x.key (x.tries + 1)).arbitrate []
  else (s.exhaust n).endEvent s

/-- SEEK_TIMER_EXPIRY (R73 to R75): the timer of the slot runs, and the seek timeout has passed. -/
def execSeekTimerExpiry (slot elapsed : Nat) (s : State) : StepAnswer :=
  .next <|
    match s.slots[slot]?, s.config with
    | some (some x), some c =>
      if !s.inReset && x.timer && decide (x.state = .out) && decide (c.seekTimeout ≤ elapsed) then
        (s.expire slot x c).settleAgent
      else s
    | _, _ => s

/-! ## Walks -/

/-- The walk of the reference at the head begins (R109, R116, R120). -/
def State.beginWalk (s : State) (r : Ref) : State :=
  if r.reflect = r.currentValue.asReflect then s.completeWalk r.owner r.currentValue else s.computeWalk r

/-- WALK_BEGIN (R109): no walk in progress, no site transfer of an earlier walk still under way, the queue not empty. -/
def execWalkBegin (s : State) : StepAnswer :=
  .next <|
    if s.inReset || s.walk.isSome || s.transfer.isSome then s
    else
      match s.patchQueue with
      | [] => s
      | o :: _ =>
        match s.ref? o with
        | none => s
        | some r => ((s.beginWalk r).endEvent s).settleAgent

/-- The site transfer under way ends (R114, R117, R122, R125): after a good one the walk goes on; after a bus error its
reference faults. Of a removed reference's transfer nothing is reported. -/
def State.endTransfer (s : State) (env : Env) (x : SiteTransfer) : State :=
  let (t, good) := s.makeTransfer env x
  let u := { t with transfer := none }
  match s.walk with
  | none => u
  | some w => (if good then u.afterSite w else u.busFault w.ref w.next).endEvent s

/-- SITE_WRITE_DONE (R117 to R119, R122). -/
def execSiteWriteDone (env : Env) (s : State) : StepAnswer :=
  .next <|
    match s.transfer with
    | some x =>
      if s.mayTransfer .patchEngine then ((s.forTransfers env).endTransfer env x).served .patchEngine else s
    | none => s

/-! ## Notices -/

/-- The drops of a failed notice write (R180): one for each notice; for a NOTICES-DROPPED its own count and nothing for
itself, at the head, where its own write failed, and also behind, where it is dropped with the notice before it (log 39). -/
def failedDrops : List Reserved → Nat
  | [] => 0
  | { slot := _, notice := .noticesDropped count } :: rest => count + failedDrops rest
  | _ :: rest => 1 + failedDrops rest

/-- The last word of the first reserved notice is written (R177). -/
def NoticeUnit.published (n : NoticeUnit) (r : Ring) : NoticeUnit :=
  { n with producer := (n.producer + 1) % r.size, list := n.list.tail }

/-- A notice write fails (R180): that notice and those behind it are dropped. -/
def NoticeUnit.writeFailed (n : NoticeUnit) : NoticeUnit :=
  { n with drops := addDrops n.drops (failedDrops n.list), list := [], writeFault := true }

/-- The words of the first reserved notice that have not been written into its slot. -/
def State.noticeLeft (s : State) (x : Reserved) : List Word :=
  x.notice.words.drop s.runs.noticeWords

/-- Where they are written. -/
def State.noticePlace (s : State) (r : Ring) (x : Reserved) : Nat :=
  r.base + 16 * x.slot + 4 * s.runs.noticeWords

/-- The next words of the first reserved notice are written into its slot, up to its last or to where the step leaves it
(R177, R180, R182). -/
def State.writeNotice (s : State) (env : Env) (r : Ring) (x : Reserved) : State :=
  let now := wordsNow env (s.noticeLeft x)
  match State.writeWords env 0 (s.noticePlace r x) now s with
  | (t, some _) => { t.setNoticeWords 0 with notices := t.notices.writeFailed }
  | (t, none) =>
    if now.length < (s.noticeLeft x).length then t.setNoticeWords (s.runs.noticeWords + now.length)
    else { t.setNoticeWords 0 with notices := t.notices.published r }

/-- NOTICE_WRITE_DONE (R177, R180). -/
def execNoticeWriteDone (env : Env) (s : State) : StepAnswer :=
  .next <|
    match s.notices.ring, s.notices.list with
    | some r, x :: _ =>
      if s.mayTransfer .noticeUnit then
        ((s.forTransfers env).writeNotice (s.runEnv .noticeUnit env) r x).served .noticeUnit
      else s
    | _, _ => s

/-! ## The memory agent's timeout (R182) -/

/-- The command at the head fails at the transfer that is not acknowledged: in its block, or in the descriptor of its
LOAD (R24, R169). Nothing happens where that transfer is not made. -/
def State.timeoutAtHead (s : State) (env : Env) : State :=
  let t := s.forReading env
  match t.headReadError env with
  | some (tag, e) => (t.endCommand tag e.status e.detail).endFetch.served .commandEngine
  | none => s

/-- A record write of the REPORT in progress fails (R175). -/
def State.timeoutInReport (s : State) (env : Env) : State :=
  let t := s.forTransfers env
  match t.command with
  | some (.report _ sel m buffer _ n) =>
    match t.recordAt sel m n with
    | some x =>
      if (State.writeWords env 0 (buffer + (n * sel.recordSize + 4 * x.written)) (x.words.drop x.written) t).2.isSome then
        (t.writeRecord env).served .commandEngine
      else s
    | none => s
  | _ => s

/-- The Command Engine's transfer is not acknowledged (R24, R29, R169, R175). -/
def State.commandTimeout (s : State) (env : Env) : State :=
  if !s.mayTransfer .commandEngine || !s.reachesFailure .commandEngine env then s
  else if s.command.isNone then s.timeoutAtHead env
  else if s.reporting then s.timeoutInReport env
  else s.readRecord env (fun _ _ => s) fun e t => if e.status = .readError then t.commitFault env e else s

/-- The site transfer under way is not acknowledged (R122). -/
def State.patchTimeout (s : State) (env : Env) : State :=
  match s.transfer with
  | some x =>
    let t := s.forTransfers env
    if s.mayTransfer .patchEngine && !(t.makeTransfer env x).2 then (t.endTransfer env x).served .patchEngine else s
  | none => s

/-- A word of the notice being written is not acknowledged (R180). -/
def State.noticeTimeout (s : State) (env : Env) : State :=
  match s.notices.ring, s.notices.list with
  | some r, x :: _ =>
    let t := s.forTransfers env
    if s.mayTransfer .noticeUnit && s.reachesFailure .noticeUnit env
        && (State.writeWords env 0 (t.noticePlace r x) (t.noticeLeft x) t).2.isSome then
      (t.writeNotice env r x).served .noticeUnit
    else s
  | _, _ => s

/-- A step that does not leave its run before the run's end. -/
def toTheEnd (env : Env) : Env := { env with upTo := none }

/-- MEMORY_ACK_TIMEOUT (R182): the failure reaches the claimant, and its block applies its rule. -/
def execMemoryAckTimeout (claimant : Claimant) (env : Env) (s : State) : StepAnswer :=
  .next <|
    match claimant with
    | .commandEngine => s.commandTimeout (toTheEnd env)
    | .patchEngine => s.patchTimeout (toTheEnd env)
    | .noticeUnit => s.noticeTimeout (toTheEnd env)

end Sys2Proof.Machine
end

