-- ==== Sys2Proof/Machine/Receive.lean ====
section
/-! DEFINITION. Meanings of receive processing: the head of the receive queue applied whole (R147; chapters 3, 4, 5, 8). -/

namespace Sys2Proof.Machine

/-- Receive processing applies the frame at the head where it is one of this row's: `f` is applied to the state without
it. Items are applied in JOINING, ACTIVE and LEAVING (R147, R158). -/
def State.takeFrame (s : State) (mine : Frame → Bool) (f : Frame → State → State) : State :=
  match s.rxQueue with
  | .frame x :: rest => if s.onBus && mine x then (f x { s with rxQueue := rest }).settleAgent else s
  | .lapse _ :: _ => s
  | [] => s

/-- The key of a frame: scope and name of its body, group of its header (R5). -/
def Frame.key (f : Frame) (scope : Scope) (name : List Byte) : Key :=
  { scope, group := f.group, name }

/-- The frame is the station's own, self-received. -/
def State.isOwn (s : State) (f : Frame) : Bool :=
  decide (f.sender = s.number)

/-- Presence and group of the sender of a frame other than LEAVE (R160); for an own frame the own group (R161). -/
def State.hear (s : State) (f : Frame) : State :=
  s.updatePeer f.sender fun p => { p with present := true, group := if s.isOwn f then s.ownGroup else f.group }

/-- A station is marked present. -/
def State.isPresent (s : State) (n : Station) : Bool :=
  match s.peers[n.val]? with
  | some p => p.present
  | none => false

/-- A present station is lost (R93, R94, R96): PEER-GONE, the revocation of every binding to it, and its pairs dropped. -/
def State.losePeer (s : State) (n : Station) (cause : PeerLoss) : State :=
  ((s.post (.peerGone n cause)).revoke (fun _ b => decide (b.definer = n)) .peerGone).dropPairs
    fun _ p => decide (p.station = n)

/-- A station is marked absent, its group and last sequence kept (R159, R160, R161). -/
def State.markAbsent (s : State) (n : Station) : State :=
  s.updatePeer n fun p => { p with present := false }

/-- LEAVE or lapse of another station (R93, R96). -/
def State.departs (s : State) (n : Station) (cause : PeerLoss) : State :=
  if s.isPresent n then ((s.markAbsent n).losePeer n cause).endEvent s else s

/-- LAPSE (R96, R146). -/
def execLapse (s : State) : StepAnswer :=
  .next <|
    match s.rxQueue with
    | .lapse n :: rest => if s.onBus then (({ s with rxQueue := rest } : State).departs n .lapse).settleAgent else s
    | .frame _ :: _ => s
    | [] => s

/-- The scope and name of a SEEK. -/
def Body.seekName : Body → Option (Scope × List Byte)
  | .seek scope name => some (scope, name)
  | _ => none

/-- SEEK_TAKEN (R47, R72). -/
def execSeekTaken (s : State) : StepAnswer :=
  .next <| s.takeFrame (fun f => !s.isOwn f && f.body.seekName.isSome) fun f t =>
    match f.body.seekName with
    | some (scope, name) => (((t.hear f).meetSeek (f.key scope name)).enterOut (f.key scope name)).arbitrate []
    | none => s

/-- OWN_SEEK_TAKEN (R71). -/
def execOwnSeekTaken (s : State) : StepAnswer :=
  .next <| s.takeFrame (fun f => s.isOwn f && f.body.seekName.isSome) fun f t =>
    match f.body.seekName with
    | some (scope, name) => ((t.hear f).enterOut (f.key scope name)).arbitrate []
    | none => s

/-- The scope, name and owner data of an OFFER. -/
def Frame.offerData (f : Frame) : Option (Key × Binding) :=
  match f.body with
  | .offer scope name g target kind => some (f.key scope name, { definer := f.sender, generation := g, target, kind })
  | _ => none

/-- The scope, name and owner data of an ANNOUNCE. -/
def Frame.announceData (f : Frame) : Option (Key × Binding) :=
  match f.body with
  | .announce scope name g target kind => some (f.key scope name, { definer := f.sender, generation := g, target, kind })
  | _ => none

/-- The key, owner data and refused list of a CLASH. -/
def Frame.clashData (f : Frame) : Option (Key × Binding × List Pair) :=
  match f.body with
  | .clash scope name owner g target kind refused =>
    some (f.key scope name, { definer := owner, generation := g, target, kind }, refused)
  | _ => none

/-- The key and generation of a WITHDRAW. -/
def Frame.withdrawData (f : Frame) : Option (Key × Half) :=
  match f.body with
  | .withdraw scope name g => some (f.key scope name, g)
  | _ => none

/-- The pair a binding names. -/
def Binding.pair (b : Binding) : Pair := { station := b.definer, generation := b.generation }

/-- OFFER_TAKEN (R42, R51, R52, R79). -/
def execOfferTaken (s : State) : StepAnswer :=
  .next <| s.takeFrame (fun f => f.offerData.isSome) fun f t =>
    match f.offerData with
    | some (k, b) =>
      let u := t.hear f
      ((if s.isOwn f then u else u.meetClaim k b.pair []).bindKey k b).endEvent s
    | none => s

/-- ANNOUNCE_TAKEN (R42, R52, R79). -/
def execAnnounceTaken (s : State) : StepAnswer :=
  .next <| s.takeFrame (fun f => !s.isOwn f && f.announceData.isSome) fun f t =>
    match f.announceData with
    | some (k, b) => (((t.hear f).meetClaim k b.pair []).bindKey k b).endEvent s
    | none => s

/-- OWN_ANNOUNCE_TAKEN (R41, R79, R81). -/
def execOwnAnnounceTaken (s : State) : StepAnswer :=
  .next <| s.takeFrame (fun f => s.isOwn f && f.announceData.isSome) fun f t =>
    match f.announceData with
    | some (k, b) => (((t.hear f).meetOwnAnnounce k b.generation).bindKey k b).endEvent s
    | none => s

/-- CLASH_TAKEN (R42, R43, R51, R52, R98, R99). -/
def execClashTaken (s : State) : StepAnswer :=
  .next <| s.takeFrame (fun f => f.clashData.isSome) fun f t =>
    match f.clashData with
    | some (k, b, refused) =>
      let u := t.hear f
      ((if s.isOwn f then u else u.meetClaim k b.pair refused).clashKey k b refused).endEvent s
    | none => s

/-- The revocation of a WITHDRAW (R90, R91): bindings of the key to this definer and generation. -/
def State.revokeWithdrawn (s : State) (k : Key) (p : Pair) : State :=
  s.revoke (fun r b => r.key.agrees k && decide (b.pair = p)) .withdrawn

/-- WITHDRAW_TAKEN (R53, R90). -/
def execWithdrawTaken (s : State) : StepAnswer :=
  .next <| s.takeFrame (fun f => !s.isOwn f && f.withdrawData.isSome) fun f t =>
    match f.withdrawData with
    | some (k, g) =>
      let p : Pair := { station := f.sender, generation := g }
      (((t.hear f).revokeWithdrawn k p).dropPairs fun k' q => k'.agrees k && decide (q = p)).endEvent s
    | none => s

/-- OWN_WITHDRAW_TAKEN (R45, R91, R92, R35). -/
def execOwnWithdrawTaken (s : State) : StepAnswer :=
  .next <| s.takeFrame (fun f => s.isOwn f && f.withdrawData.isSome) fun f t =>
    match f.withdrawData with
    | some (k, g) =>
      ((((t.hear f).removeWithdrawn k g).revokeWithdrawn k { station := s.number, generation := g }).endEvent
        s).finishRemoval
    | none => s

/-- LEAVE_TAKEN (R93, R160). -/
def execLeaveTaken (s : State) : StepAnswer :=
  .next <| s.takeFrame (fun f => !s.isOwn f && decide (f.body = .leave)) fun f t => t.departs f.sender .leave

/-- The own LEAVE self-received in LEAVING (R158): CONFIGURED, the peer table empty; the STOP completes at once if no outgoing
frame remains. That is so where the LEAVE has been carried; the model takes it so, too, where the frame was held and then
lost to a bit mismatch on its repeat (R136), a case R158 does not speak of (DESIGN CHOICE, log 38). -/
def State.ownLeave (s : State) : State :=
  if s.station = .leaving then
    let t := { s with peers := List.replicate 16 Peer.absent, station := .configured }
    if s.outgoing.isNone then t.completeStop else t
  else s

/-- OWN_LEAVE_TAKEN (R158, R142). -/
def execOwnLeaveTaken (s : State) : StepAnswer :=
  .next <| s.takeFrame (fun f => s.isOwn f && decide (f.body = .leave)) fun _ t => t.ownLeave

/-- JOIN_TAKEN (R94, R160). -/
def execJoinTaken (s : State) : StepAnswer :=
  .next <| s.takeFrame (fun f => !s.isOwn f && decide (f.body = .join)) fun f t =>
    if t.isPresent f.sender then ((t.hear f).losePeer f.sender .rejoin).endEvent s else t.hear f

/-- The own JOIN self-received (R156): ACTIVE, and the START completes. -/
def State.ownJoin (s : State) : State :=
  if s.station = .joining then
    let t := { s with station := .active }
    match s.command with
    | some (.start tag) => t.endCommand tag .ok s.number.val
    | _ => t
  else s

/-- OWN_JOIN_TAKEN (R156). -/
def execOwnJoinTaken (s : State) : StepAnswer :=
  .next <| s.takeFrame (fun f => s.isOwn f && decide (f.body = .join)) fun f t => (t.hear f).ownJoin

end Sys2Proof.Machine
end

