-- ==== Sys2Proof/Machine/Dispatch.lean ====
section
/-! DEFINITION. `exec`: one arm for each row of the table, each one call of the meaning of its row. -/

namespace Sys2Proof.Machine

/-- The effect of a command on everything but the queue of waiting commands. -/
def exec (i : Instr) (s : State) : Host.Outcome State Fault Refusal :=
  match i with
  | .pinReset straps cut => Sys2Proof.Machine.execPinReset straps cut s
  | .portReset value cut => Sys2Proof.Machine.execPortReset value cut s
  | .interruptEnableWrite value => Sys2Proof.Machine.execInterruptEnableWrite value s
  | .submission value => Sys2Proof.Machine.execSubmission value s
  | .nconsWrite value => Sys2Proof.Machine.execNconsWrite value s
  | .istatWrite value => Sys2Proof.Machine.execIstatWrite value s
  | .ignoredRegisterWrite offset width value => Sys2Proof.Machine.execIgnoredRegisterWrite offset width value s
  | .unknownCommandCode env => Sys2Proof.Machine.execUnknownCommandCode env s
  | .configure env => Sys2Proof.Machine.execConfigure env s
  | .start env => Sys2Proof.Machine.execStart env s
  | .stop env => Sys2Proof.Machine.execStop env s
  | .load env => Sys2Proof.Machine.execLoad env s
  | .loadCommitExport env => Sys2Proof.Machine.execLoadCommitExport env s
  | .loadCommitImport env => Sys2Proof.Machine.execLoadCommitImport env s
  | .loadCommitEnd => Sys2Proof.Machine.execLoadCommitEnd s
  | .loadCommitFault env => Sys2Proof.Machine.execLoadCommitFault env s
  | .unload env => Sys2Proof.Machine.execUnload env s
  | .reseek env => Sys2Proof.Machine.execReseek env s
  | .report env => Sys2Proof.Machine.execReport env s
  | .reportRecordWrite env => Sys2Proof.Machine.execReportRecordWrite env s
  | .frameBegin idle => Sys2Proof.Machine.execFrameBegin idle s
  | .contentionLost bit => Sys2Proof.Machine.execContentionLost bit s
  | .contentionWon => Sys2Proof.Machine.execContentionWon s
  | .senderBitMismatch pos => Sys2Proof.Machine.execSenderBitMismatch pos s
  | .frameCutOff bits quiet => Sys2Proof.Machine.execFrameCutOff bits quiet s
  | .frameArrival bits siteBegun => Sys2Proof.Machine.execFrameArrival bits siteBegun s
  | .holdWindowEnd othersPull => Sys2Proof.Machine.execHoldWindowEnd othersPull s
  | .repeatFrame idle => Sys2Proof.Machine.execRepeatFrame idle s
  | .reservationLapse idle siteBegun => Sys2Proof.Machine.execReservationLapse idle siteBegun s
  | .lapse => Sys2Proof.Machine.execLapse s
  | .seekTaken => Sys2Proof.Machine.execSeekTaken s
  | .ownSeekTaken => Sys2Proof.Machine.execOwnSeekTaken s
  | .offerTaken => Sys2Proof.Machine.execOfferTaken s
  | .announceTaken => Sys2Proof.Machine.execAnnounceTaken s
  | .ownAnnounceTaken => Sys2Proof.Machine.execOwnAnnounceTaken s
  | .clashTaken => Sys2Proof.Machine.execClashTaken s
  | .withdrawTaken => Sys2Proof.Machine.execWithdrawTaken s
  | .ownWithdrawTaken => Sys2Proof.Machine.execOwnWithdrawTaken s
  | .leaveTaken => Sys2Proof.Machine.execLeaveTaken s
  | .ownLeaveTaken => Sys2Proof.Machine.execOwnLeaveTaken s
  | .joinTaken => Sys2Proof.Machine.execJoinTaken s
  | .ownJoinTaken => Sys2Proof.Machine.execOwnJoinTaken s
  | .seekTimerExpiry slot elapsed => Sys2Proof.Machine.execSeekTimerExpiry slot elapsed s
  | .walkBegin => Sys2Proof.Machine.execWalkBegin s
  | .siteWriteDone env => Sys2Proof.Machine.execSiteWriteDone env s
  | .memoryAckTimeout claimant env => Sys2Proof.Machine.execMemoryAckTimeout claimant env s
  | .noticeWriteDone env => Sys2Proof.Machine.execNoticeWriteDone env s
  | .resetLow => Sys2Proof.Machine.execResetLow s

end Sys2Proof.Machine
end

