-- ==== Sys2Proof/Safety.lean ====
section
/-! DEFINITION. The laws the spec states of a station's tables, as predicates of a state; a law that holds only together
with another is stated together with it. Then the conditions and outcomes the statements of
Certificates/Slice0/Obligations.lean share. -/

namespace Sys2Proof

/-- The rows whose step makes local bus transfers, and the resets, which may end one (R114, R127, R166). -/
def Instr.mayChangeMemory : Instr → Bool
  | .pinReset .. => true
  | .portReset .. => true
  | .interruptEnableWrite value => value.getLsbD 31
  | .unknownCommandCode _ => true
  | .configure _ => true
  | .start _ => true
  | .stop _ => true
  | .load _ => true
  | .loadCommitExport _ => true
  | .loadCommitImport _ => true
  | .loadCommitFault _ => true
  | .unload _ => true
  | .reseek _ => true
  | .report _ => true
  | .reportRecordWrite _ => true
  | .siteWriteDone _ => true
  | .memoryAckTimeout .. => true
  | .noticeWriteDone _ => true
  | _ => false

/-- The rows that are resets (R164, R166). -/
def Instr.isReset : Instr → Bool
  | .pinReset .. => true
  | .portReset value _ => value.getLsbD 31
  | .interruptEnableWrite value => value.getLsbD 31
  | _ => false

/-- A row that makes word transfers, its run left after one of them (R182). -/
def Instr.leftAfterOne : Instr → Instr
  | .unknownCommandCode env => .unknownCommandCode { env with upTo := some 1 }
  | .configure env => .configure { env with upTo := some 1 }
  | .start env => .start { env with upTo := some 1 }
  | .stop env => .stop { env with upTo := some 1 }
  | .load env => .load { env with upTo := some 1 }
  | .loadCommitExport env => .loadCommitExport { env with upTo := some 1 }
  | .loadCommitImport env => .loadCommitImport { env with upTo := some 1 }
  | .loadCommitFault env => .loadCommitFault { env with upTo := some 1 }
  | .unload env => .unload { env with upTo := some 1 }
  | .reseek env => .reseek { env with upTo := some 1 }
  | .report env => .report { env with upTo := some 1 }
  | .reportRecordWrite env => .reportRecordWrite { env with upTo := some 1 }
  | .noticeWriteDone env => .noticeWriteDone { env with upTo := some 1 }
  | c => c

end Sys2Proof

namespace Sys2Proof.Machine

/-! ## Laws -/

/-- Local memory is in its canonical form (the model's own). -/
def State.MemoryCanonical (s : State) : Prop :=
  s.mem.wf = true

/-- No request for room waits (R138). -/
def State.NoneWaiting (s : State) : Prop :=
  s.wanted = [] ∧ ∀ x, some x ∈ s.slots → x.awaitingRoom = true → x.state ≠ .toSend

/-- While a request for room waits, no place of the transmit queue is free (R138). -/
def State.RoomGranted (s : State) : Prop :=
  s.NoneWaiting ∨ 32 ≤ s.txQueue.length

/-- The fixed stores stay within their room (R13, R68, R137, R143, R159, R168, R176), and a place of the transmit queue that
a request waits for is never left free (R138); in CONFIGURED the station has no use of the queue (R137, R158). -/
structure State.WithinRoom (s : State) : Prop where
  transmit : s.txQueue.length ≤ 32
  receive : s.rxFrames ≤ 32
  commands : s.commandQueue.length ≤ 8
  modules : s.modules.length ≤ 32
  slots : s.slots.length = 16
  peers : s.peers.length = 16
  drops : s.notices.drops ≤ 65535
  granted : s.station ≠ .configured → s.RoomGranted

/-- The law of the memory agent's grant (R182): it is given to a claimant that has a transfer to make, and to one whenever one
has. -/
structure State.AgentLaw (s : State) : Prop where
  asking : ∀ c ∈ s.granted, s.asks c = true
  once : s.granted.Nodup
  busy : ∀ c, s.asks c = true → s.granted ≠ []

/-- The law of the notice ring (R177): no more than size less one notices, each reserved slot in its order from the
producer index; without a ring no notice on the list and both indices 0, and no ring in OFF (R154, R166, R176). -/
structure State.RingLaw (s : State) : Prop where
  sizes : ∀ r, s.notices.ring = some r →
    r.size ∈ ringSizes ∧ s.notices.producer < r.size ∧ s.notices.consumer < r.size ∧ s.notices.occupancy ≤ r.size - 1
  slots : ∀ r, s.notices.ring = some r → ∀ (i : Nat) (x : Reserved), s.notices.list[i]? = some x →
    x.slot = (s.notices.producer + i) % r.size
  unset : s.notices.ring = none → s.notices.list = [] ∧ s.notices.producer = 0 ∧ s.notices.consumer = 0
  off : s.station = .off → s.notices.ring = none

/-- No two seek slots hold the same key (R68). -/
def State.SlotKeysDistinct (s : State) : Prop :=
  ∀ (i j : Nat) (x y : Slot), s.slots[i]? = some (some x) → s.slots[j]? = some (some y) → x.key.agrees y.key = true → i = j

/-- At the end of every event the backlog is empty or no slot is free (R77). -/
def State.BacklogServed (s : State) : Prop :=
  s.backlog = [] ∨ ∀ o ∈ s.slots, o.isSome = true

/-- No two entries of the export directory have the same key (R39). -/
def State.DirectoryKeysDistinct (s : State) : Prop :=
  s.directory.Pairwise fun a b => a.key.agrees b.key = false

/-- An entry is LIVE. -/
def ExportEntry.isLive (e : ExportEntry) : Bool :=
  decide (e.state.code = 2)

/-- The answer list holds no export twice, and every member is a LIVE entry (R48). -/
structure State.AnswersLive (s : State) : Prop where
  once : (s.answers.map (·.owner)).Nodup
  live : ∀ a ∈ s.answers, ∃ e ∈ s.directory, e.owner = a.owner ∧ e.isLive = true

/-- The module state that these phases dictate, by the table of R30. -/
structure Dictates (phases : List Phase) (st : ModuleState) : Prop where
  faulted : (∃ p ∈ phases, p.code = 6) → st = .faulted
  linking : (∀ p ∈ phases, p.code ≠ 6) → (∃ p ∈ phases, p.code = 1 ∨ p.code = 2 ∨ p.code = 4) → st = .linking
  waiting : (∀ p ∈ phases, p.code = 3 ∨ p.code = 5) → (∃ p ∈ phases, p.code = 3) → st = .waiting
  bound : (∀ p ∈ phases, p.code = 5) → st = .bound

/-- The law of derived module state (R30). -/
structure State.ModuleStatesDerived (s : State) : Prop where
  agree : ∀ m ∈ s.modules, m.state ≠ .loading → m.state ≠ .unloading → Dictates (s.phasesOf m.id) m.state

/-- Every owner names one export entry and one reference at most, each of a module of the table, and the commit pass in
progress has entered no record from its next index on (R15, R25, R26, R35). -/
structure State.OwnersDistinct (s : State) : Prop where
  exportOwners : (s.directory.map (·.owner)).Nodup
  refOwners : (s.refs.map (·.owner)).Nodup
  exportModules : ∀ e ∈ s.directory, ∃ m ∈ s.modules, m.id = e.owner.module
  refModules : ∀ r ∈ s.refs, ∃ m ∈ s.modules, m.id = r.owner.module
  commit : ∀ tag m nextExport nextImport offset sum, s.command = some (.loadCommit tag m nextExport nextImport offset sum) →
    (∃ x ∈ s.modules, x.id = m) ∧ (∀ e ∈ s.directory, e.owner.module = m → e.owner.index < nextExport) ∧
    (∀ r ∈ s.refs, r.owner.module = m → r.owner.index < nextImport)

/-- The law of seek slots (R68) and the law of the backlog (R77): slots with distinct keys, each slot in use with a SEEKING
reference of its key and each SEEKING reference with a slot of its key, the backlog exactly the QUEUED references and
served at the end of every event; with the distinct owners that keep them. -/
structure State.SeekLaw (s : State) : Prop where
  owners : s.OwnersDistinct
  keys : s.SlotKeysDistinct
  used : ∀ (n : Nat) (x : Slot), s.slots[n]? = some (some x) → ∃ r ∈ s.refs, r.phase = .seeking n ∧ r.key.agrees x.key = true
  seeking : ∀ r ∈ s.refs, ∀ n, r.phase = .seeking n → ∃ x, s.slots[n]? = some (some x) ∧ x.key.agrees r.key = true
  once : s.backlog.Nodup
  queued : ∀ o, o ∈ s.backlog ↔ ∃ r ∈ s.refs, r.owner = o ∧ r.phase = .queued
  served : s.BacklogServed

/-- What the commit pass in progress has still to enter: export entries, references, site records (R27). -/
def State.due (s : State) : Nat × Nat × Nat :=
  match s.command with
  | some (.loadCommit _ m nextExport nextImport _ sum) =>
    match s.module? m with
    | some rec => (rec.exportCount - nextExport, rec.importCount - nextImport, rec.siteCount - sum)
    | none => (0, 0, 0)
  | _ => (0, 0, 0)

/-- The export directory, the reference table and the site pool stay within their room, whatever the commit pass in
progress has still to enter (R27, R38, R59, R60). -/
structure State.StoresWithinRoom (s : State) : Prop where
  exports : s.directory.length + s.due.1 ≤ 512
  references : s.refs.length + s.due.2.1 ≤ 1024
  sites : s.sitesInUse + s.due.2.2 ≤ 4096

/-- A name satisfies the syntax of R1. -/
def validName (name : List Byte) : Bool :=
  decide (1 ≤ name.length ∧ name.length ≤ 24) && name.all isNameByte

/-- The name of a queued frame. -/
def TxEntry.name? : TxEntry → Option (List Byte)
  | .join => none
  | .leave => none
  | .announce k _ _ _ => some k.name
  | .withdraw k _ => some k.name
  | .seek _ k => some k.name

/-- Every name the station holds satisfies R1 (R2), and every owed refused list has at most one pair for each other
station (R38); with what keeps that: a CLASH in the receive queue names its sender as owner (R131). -/
structure State.NamesValid (s : State) : Prop where
  entries : ∀ e ∈ s.directory, validName e.key.name = true
  refs : ∀ r ∈ s.refs, validName r.key.name = true
  slots : ∀ x, some x ∈ s.slots → validName x.key.name = true
  queued : ∀ t ∈ s.txQueue ++ s.wanted, ∀ n, t.name? = some n → validName n = true
  owed : ∀ e ∈ s.directory, (e.state.owed.map (·.station)).Nodup ∧ s.number ∉ e.state.owed.map (·.station)
  owners : ∀ f, RxItem.frame f ∈ s.rxQueue → f.body.ownerAgrees f.sender = true

/-- The law of bound references (R63): BOUND only with sites that reflect the binding and off the patch queue; with the
patch queue's part of the law against duplicates (R108). -/
structure State.BoundLaw (s : State) : Prop where
  owners : s.OwnersDistinct
  queueOnce : s.patchQueue.Nodup
  bound : ∀ r ∈ s.refs, ∀ b, r.phase = .bound b → r.reflect = .binding b ∧ r.owner ∉ s.patchQueue

/-- The law of definers (R61): a binding names the own station or a station marked present. With what keeps it: a CLASH
in the receive queue names its sender as owner (R131), no lapse marker is the own station's (R145), every reference
belongs to a module of the table (R35), and the module table is empty outside ACTIVE and ISOLATED (R17, R157). -/
structure State.DefinersPresent (s : State) : Prop where
  definers : ∀ r ∈ s.refs, ∀ b, r.phase.binding? = some b → b.definer = s.number ∨ s.isPresent b.definer = true
  owners : ∀ f, RxItem.frame f ∈ s.rxQueue → f.body.ownerAgrees f.sender = true
  markers : RxItem.lapse s.number ∉ s.rxQueue
  modules : ∀ r ∈ s.refs, ∃ m ∈ s.modules, m.id = r.owner.module
  joined : s.station ≠ .active → s.station ≠ .isolated → s.modules = []
  table : s.peers.length = 16

/-! ## What an event leaves unchanged -/

/-- Two module tables hold the same records, apart from their states (R13, R31). -/
def sameModules (a b : List ModuleRecord) : Prop :=
  a.map (fun m => { m with state := .loading }) = b.map fun m => { m with state := .loading }

/-- Frames have only joined the transmit queue, at its tail: those queued keep their places, and of the frames the Command
Engine has still to place the first ones have been placed, in their order (R137, R138); an isolated station places none, and
withdraws its requests (R85). -/
def State.QueueKept (s t : State) : Prop :=
  ∃ joined : List TxEntry, t.txQueue = s.txQueue ++ joined ∧
    (s.station ≠ .isolated → ∃ placed : List TxEntry, s.wanted = placed ++ t.wanted ∧ placed.Sublist joined)

/-- Only the references, slots, backlog, patch queue, notices, the states of the modules and the memory agent's grant may
differ, and frames may have joined the transmit queue. -/
structure ReferenceFrame (s t : State) : Prop where
  station : t.station = s.station
  number : t.number = s.number
  config : t.config = s.config
  peers : t.peers = s.peers
  inReset : t.inReset = s.inReset
  rxQueue : t.rxQueue = s.rxQueue
  outgoing : t.outgoing = s.outgoing
  held : t.held = s.held
  nextSequence : t.nextSequence = s.nextSequence
  line : t.line = s.line
  busSeen : t.busSeen = s.busSeen
  directory : t.directory = s.directory
  answers : t.answers = s.answers
  nextGeneration : t.nextGeneration = s.nextGeneration
  walk : t.walk = s.walk
  transfer : t.transfer = s.transfer
  commandQueue : t.commandQueue = s.commandQueue
  lastSubmit : t.lastSubmit = s.lastSubmit
  command : t.command = s.command
  runs : t.runs = s.runs
  mem : t.mem = s.mem
  freeCount : t.freeCount = s.freeCount
  pending : t.pending = s.pending
  queue : s.QueueKept t
  modules : sameModules t.modules s.modules

/-- As `ReferenceFrame`, but the directory, answers, peers, line and walk may differ too. -/
structure TableFrame (s t : State) : Prop where
  station : t.station = s.station
  number : t.number = s.number
  config : t.config = s.config
  inReset : t.inReset = s.inReset
  rxQueue : t.rxQueue = s.rxQueue
  outgoing : t.outgoing = s.outgoing
  held : t.held = s.held
  nextSequence : t.nextSequence = s.nextSequence
  busSeen : t.busSeen = s.busSeen
  nextGeneration : t.nextGeneration = s.nextGeneration
  commandQueue : t.commandQueue = s.commandQueue
  lastSubmit : t.lastSubmit = s.lastSubmit
  command : t.command = s.command
  runs : t.runs = s.runs
  mem : t.mem = s.mem
  freeCount : t.freeCount = s.freeCount
  pending : t.pending = s.pending
  queue : s.QueueKept t
  modules : sameModules t.modules s.modules

/-! ## Conditions and outcomes -/

/-- The row of opcode_table.json that carries out a command. -/
def CommandKind.row (k : CommandKind) (env : Env) : Instr :=
  match k with
  | .configure => .configure env
  | .start => .start env
  | .stop => .stop env
  | .load => .load env
  | .unload => .unload env
  | .reseek => .reseek env
  | .report => .report env

/-- The runs of transfers once the Command Engine's reading is over. -/
def State.runsRead (s : State) : Runs := { s.runs with fetched := [] }

/-- Word `i` of the command block at `a`, as the Command Engine reads it: in an earlier step of the run, or in this one. -/
def State.blockWord (s : State) (env : Env) (a : Word) (i : Nat) : Word :=
  (s.runs.fetched[i]?).getD ((s.mem.afterStores env.stores).word (a.toNat + 4 * i))

/-- Word `i` of the descriptor at `d`, as the first pass of a LOAD reads it, after the two words of the block. -/
def State.descriptorWord (s : State) (env : Env) (d : Word) (i : Nat) : Word :=
  (s.runs.fetched[2 + i]?).getD ((s.mem.afterStores env.stores).word (d.toNat + 4 * i))

/-- Transfer `i` of the run that reads the head, at address `a`, is acknowledged. -/
def State.readAcks (s : State) (env : Env) (i a : Nat) : Bool :=
  acks (resumed env s.runs.fetched.length) i a

/-- The Command Engine executes the block at `a`, the head of its queue (R168), the agent has granted it (R182), and the first
word of the block is read (R169). -/
structure State.Executes (s : State) (env : Env) (a : Word) : Prop where
  awake : s.inReset = false
  idle : s.command = none
  head : s.commandQueue.head? = some a
  granted : .commandEngine ∈ s.granted
  read : s.readAcks env 0 a.toNat = true

/-- The block executed holds the code of `k`, and its words are all read (R169). -/
structure State.Block (s : State) (env : Env) (a : Word) (k : CommandKind) : Prop where
  executes : s.Executes env a
  code : commandOfCode (byteAt (s.blockWord env a 0) 0) = some k
  read : ∀ i, 1 ≤ i → i ≤ k.moreWords → s.readAcks env i (a.toNat + 4 * i) = true

/-- The step does not leave the reading of the head before its end: neither by its operand, nor because another claimant waits
while the reading has more than one word to go (R169, R182). -/
def State.ReadsOn (s : State) (env : Env) : Prop :=
  (s.forReading env).headPause (s.runEnv .commandEngine env) = none

/-- The block executed holds the code of `k`, its words are all read, and the step does not leave the reading before its end. -/
structure State.Holds (s : State) (env : Env) (a : Word) (k : CommandKind) : Prop where
  block : s.Block env a k
  whole : s.ReadsOn env

/-- The Command Engine goes on with the next record of the commit pass: the agent has granted it, and the step does not leave
the record before its end (R25, R26, R182). -/
structure State.ReadsRecord (s : State) (env : Env) : Prop where
  awake : s.inReset = false
  granted : .commandEngine ∈ s.granted
  whole : (s.forTransfers env).commitPause (s.runEnv .commandEngine env) = none

/-- The words of the block after its first. -/
def State.arguments (s : State) (env : Env) (a : Word) (k : CommandKind) : List Word :=
  (List.range k.moreWords).map fun i => s.blockWord env a (i + 1)

/-- The tag of the block. -/
def State.tagAt (s : State) (env : Env) (a : Word) : Half :=
  tagOf (s.blockWord env a 0)

/-- The step makes `p` transfers of its run, none of which fails, and leaves the run there, if it is not over: by its operand, or
after one transfer where another claimant waits (R182). -/
def State.leavesAfter (s : State) (c : Claimant) (env : Env) (p : Nat) : Prop :=
  (s.runEnv c env).upTo = some p ∧ ∀ f, env.failAt = some f → p ≤ f

/-- The state in which the Command Engine has left its reading with these words read, and nothing else but the transfers of
the step has happened (R182; log 15). -/
def State.leftReading (s : State) (env : Env) (words : List Word) : State :=
  ({ s with
    mem := s.mem.afterStores env.stores
    runs := { s.runs with fetched := words } } : State).served .commandEngine

/-- The step makes `p` transfers of the reading of the commit pass's next record, and the record is not read whole by then:
the transfer after them is made (R182). -/
structure State.LeavesRecord (s : State) (env : Env) (p : Nat) : Prop where
  awake : s.inReset = false
  granted : .commandEngine ∈ s.granted
  leaves : s.leavesAfter .commandEngine env p
  more : ∃ e, (s.forTransfers env).readCommit { env with failAt := some p } = some (.error e) ∧
    e.status = .readError

/-- The state in which a command has ended with this status and detail, and nothing else but the transfers of the step
has happened: COMMAND-DONE taken, the head off the queue, the LOADING record of a first pass that ends taken out (R23, R168,
R170). -/
def State.ended (s : State) (env : Env) (tag : Half) (status : Status) (detail : Nat) : State :=
  ({ s with
    mem := s.mem.afterStores env.stores
    runs := s.runsRead
    modules := s.otherModules
    notices := s.notices.take (.commandDone tag status detail)
    commandQueue := s.commandQueue.tail
    command := none } : State).served .commandEngine

/-- Receive processing is to apply the frame `f`, the head of the receive queue (R147). -/
structure State.Takes (s : State) (f : Frame) (rest : List RxItem) : Prop where
  head : s.rxQueue = .frame f :: rest
  onBus : s.onBus = true

/-- Byte `i` of the descriptor being read. -/
def Reading.byte (r : Reading) (i : Nat) : Byte := byteAt (r.content (i / 4)) (i % 4)

/-- The name field at `off` holds this name, and the name satisfies R1 (R2, R183). -/
structure Reading.NameAt (r : Reading) (off : Nat) (name : List Byte) : Prop where
  length : (r.byte off).toNat = name.length
  bytes : ∀ (i : Nat) (b : Byte), name[i]? = some b → r.byte (off + 1 + i) = b
  valid : validName name = true

/-- The site record at `off` is good and describes this site (R16, R21, R60, R184). -/
structure Reading.SiteAt (r : Reading) (segments : List Segment) (off : Nat) (x : Site) : Prop where
  form : match x.form with
    | .a32 => r.byte off = 1
    | .hi16 => r.byte off = 2
    | .lo16 => r.byte off = 3
    | .d16 => r.byte off = 4
    | .fld p w sh => r.byte off = 5 ∧ (r.byte (off + 8)).toNat = p ∧ (r.byte (off + 9)).toNat = w ∧
        (r.byte (off + 10)).toNat = sh ∧ 1 ≤ w ∧ p + w ≤ 32 ∧ sh ≤ 15
  index : (r.byte (off + 1)).toNat = x.segment
  offset : x.offset = r.content (off / 4 + 1)
  addend : x.addend = r.content (off / 4 + 3)
  place : ∃ g, segments[x.segment]? = some g ∧ x.offset.toNat + x.form.size ≤ g.length.toNat ∧
    x.address = g.base.toNat + x.offset.toNat ∧ x.address % x.form.size = 0

/-! ### The checks of a descriptor, in reading order (R17 to R24) -/

/-- Checks in the order they are made, each with the ending of a pass that fails it (R23). -/
abbrev Checks := List (Bool × Ending)

/-- The ending of the first check that fails: a pass ends at the first fault it finds (R23). -/
def firstFault (cs : Checks) : Option Ending :=
  (cs.find? fun c => !c.1).map (·.2)

/-- Word `w` of a descriptor is read (R24): a word beyond local memory is a fault at `field`, the first field that lies in it,
and a read that is not acknowledged gives the offset of the word. -/
def Reading.wordChecks (r : Reading) (w field : Nat) : Checks :=
  [(decide (r.base + 4 * w ≤ 0x0FFFFFFF), { status := .badDescriptor, detail := field }),
   (acks r.env (r.transfer w) (r.base + 4 * w), { status := .readError, detail := 4 * w })]

/-- A check of a field, at its offset. -/
def fieldCheck (ok : Bool) (offset : Nat) : Bool × Ending :=
  (ok, { status := .badDescriptor, detail := offset })

/-- A name field (R1, R2): the length at the field, each name byte at itself; a word of it beyond local memory at the field
(log 13). -/
def Reading.nameChecks (r : Reading) (off : Nat) : Checks :=
  (List.range 7).flatMap fun j =>
    r.wordChecks (off / 4 + j) off
      ++ (if j = 0 then [fieldCheck (decide (1 ≤ (r.byte off).toNat ∧ (r.byte off).toNat ≤ 24)) off] else [])
      ++ (List.range 4).map fun k =>
        let i := 4 * j + k
        fieldCheck (decide (1 ≤ i ∧ i ≤ (r.byte off).toNat → 0x21 ≤ (r.byte (off + i)).toNat ∧ (r.byte (off + i)).toNat ≤ 0x7E))
          (off + i)

/-- A segment record (R6, R19): either test at the record. -/
def Reading.segmentChecks (r : Reading) (off : Nat) : Checks :=
  let length := (r.content (off / 4 + 1)).toNat
  r.wordChecks (off / 4) off ++ r.wordChecks (off / 4 + 1) (off + 4)
    ++ [fieldCheck (decide (1 ≤ length ∧ length ≤ 16777216)) off,
        fieldCheck (decide ((r.content (off / 4)).toNat + length ≤ 0x10000000)) off]

/-- The fields of an export record (R20). -/
def Reading.exportChecks (r : Reading) (segments : List Segment) (off : Nat) : Checks :=
  let segment := segments[(r.byte (off + 0x1E)).toNat]?
  r.nameChecks off ++ r.wordChecks (off / 4 + 7) (off + 0x1C)
    ++ [fieldCheck (decide (r.byte (off + 0x1C) = 1 ∨ r.byte (off + 0x1C) = 2)) (off + 0x1C),
        fieldCheck (decide (r.byte (off + 0x1D) = 1 ∨ r.byte (off + 0x1D) = 2)) (off + 0x1D),
        fieldCheck segment.isSome (off + 0x1E)]
    ++ r.wordChecks (off / 4 + 8) (off + 0x20)
    ++ [fieldCheck (segment.all fun g => decide ((r.content (off / 4 + 8)).toNat < g.length.toNat)) (off + 0x20)]

/-- The key of the export record at `off` (R3, R20). -/
def State.exportKey (s : State) (r : Reading) (off : Nat) : Key :=
  { scope := if r.byte (off + 0x1C) = 2 then .group else .common
    group := s.ownGroup
    name := (List.range (r.byte off).toNat).map fun i => r.byte (off + 1 + i) }

/-- A site record (R21): the two tests of the offset in their order, and the three fields of FLD alone. -/
def Reading.siteChecks (r : Reading) (segments : List Segment) (off : Nat) : Checks :=
  let form := (r.byte off).toNat
  let size := if form = 1 ∨ form = 5 then 4 else 2
  let offset := (r.content (off / 4 + 1)).toNat
  let segment := segments[(r.byte (off + 0x01)).toNat]?
  let position := (r.byte (off + 0x08)).toNat
  let width := (r.byte (off + 0x09)).toNat
  r.wordChecks (off / 4) off
    ++ [fieldCheck (decide (1 ≤ form ∧ form ≤ 5)) off, fieldCheck segment.isSome (off + 0x01)]
    ++ r.wordChecks (off / 4 + 1) (off + 0x04)
    ++ [fieldCheck (segment.all fun g => decide (offset + size ≤ g.length.toNat)) (off + 0x04),
        fieldCheck (segment.all fun g => decide ((g.base.toNat + offset) % size = 0)) (off + 0x04)]
    ++ r.wordChecks (off / 4 + 2) (off + 0x08)
    ++ [fieldCheck (decide (form = 5 → position ≤ 31)) (off + 0x08),
        fieldCheck (decide (form = 5 → 1 ≤ width ∧ width ≤ 32 ∧ position + width ≤ 32)) (off + 0x09),
        fieldCheck (decide (form = 5 → (r.byte (off + 0x0A)).toNat ≤ 15)) (off + 0x0A)]
    ++ r.wordChecks (off / 4 + 3) (off + 0x0C)

/-- The site count of the import record at `off`. -/
def Reading.siteCount (r : Reading) (off : Nat) : Nat := (r.byte (off + 0x1E)).toNat

/-- An import record with its site records (R21). -/
def Reading.importChecks (r : Reading) (segments : List Segment) (off : Nat) : Checks :=
  r.nameChecks off ++ r.wordChecks (off / 4 + 7) (off + 0x1C)
    ++ [fieldCheck (decide (r.byte (off + 0x1C) = 1 ∨ r.byte (off + 0x1C) = 2)) (off + 0x1C),
        fieldCheck (decide (1 ≤ (r.byte (off + 0x1D)).toNat ∧ (r.byte (off + 0x1D)).toNat ≤ 3)) (off + 0x1D),
        fieldCheck (decide (1 ≤ r.siteCount off ∧ r.siteCount off ≤ 64)) (off + 0x1E)]
    ++ (List.range (r.siteCount off)).flatMap fun i => r.siteChecks segments (off + 32 + 16 * i)

/-- The offsets of `n` import records, each after the sites of the one before (R15). -/
def Reading.importOffsets (r : Reading) : Nat → Nat → List Nat
  | _, 0 => []
  | off, n + 1 => off :: r.importOffsets (off + 32 + 16 * r.siteCount off) n

/-- The header (R17, R18): each count at its field, each resource at the field of its count. -/
def State.headerChecks (s : State) (r : Reading) : Checks :=
  let id := r.byte 0x00
  let segments := (r.byte 0x01).toNat
  let exports := (halfOf (r.byte 0x02) (r.byte 0x03)).toNat
  let imports := (halfOf (r.byte 0x04) (r.byte 0x05)).toNat
  let sites := (halfOf (r.byte 0x06) (r.byte 0x07)).toNat
  r.wordChecks 0 0x00
    ++ [fieldCheck (decide (id ≠ 0)) 0x00,
        (decide (∀ m ∈ s.otherModules, m.id ≠ id), { status := .duplicateModule, detail := id.toNat }),
        (decide (s.otherModules.length < 32), { status := .noRoom, detail := 1 }),
        fieldCheck (decide (1 ≤ segments ∧ segments ≤ 4)) 0x01,
        fieldCheck (decide (exports ≤ 128)) 0x02,
        (decide (exports ≤ 512 - s.directory.length), { status := .noRoom, detail := 2 })]
    ++ r.wordChecks 1 0x04
    ++ [fieldCheck (decide (imports ≤ 256)) 0x04,
        (decide (imports ≤ 1024 - s.refs.length), { status := .noRoom, detail := 3 }),
        fieldCheck (decide (sites ≤ 16384)) 0x06,
        (decide (sites ≤ 4096 - s.sitesInUse), { status := .noRoom, detail := 4 })]

/-- The key of the export record at `off` is free (R20): no entry of the directory has it, and none of the records of this
descriptor at `earlier`. -/
def State.keyCheck (s : State) (r : Reading) (earlier : List Nat) (off : Nat) : Bool × Ending :=
  let k := s.exportKey r off
  (decide ((∀ o ∈ earlier, (s.exportKey r o).agrees k = false) ∧ ∀ e ∈ s.directory, e.key.agrees k = false),
   { status := .duplicateExport, detail := off })

/-- The whole first pass over a descriptor, in reading order (R17 to R22): header, segments, exports, imports, and the site
total, which is at fault at its field in the header. -/
def State.firstPassChecks (s : State) (r : Reading) : Checks :=
  let count := (r.byte 0x01).toNat
  let segments := (List.range count).map fun i => { base := r.content (2 + 2 * i), length := r.content (3 + 2 * i) : Segment }
  let exportAt := fun i => 8 + 8 * count + 36 * i
  let exports := (halfOf (r.byte 0x02) (r.byte 0x03)).toNat
  let imports := r.importOffsets (exportAt exports) (halfOf (r.byte 0x04) (r.byte 0x05)).toNat
  s.headerChecks r
    ++ ((List.range count).flatMap fun i => r.segmentChecks (8 + 8 * i))
    ++ ((List.range exports).flatMap fun i =>
        r.exportChecks segments (exportAt i) ++ [s.keyCheck r ((List.range i).map exportAt) (exportAt i)])
    ++ (imports.flatMap fun off => r.importChecks segments off)
    ++ [fieldCheck (decide ((imports.map r.siteCount).sum = (halfOf (r.byte 0x06) (r.byte 0x07)).toNat)) 0x06]

/-- The descriptor at `d`, as the first pass of the LOAD at the head reads it, after the two words of its block. -/
def State.descriptorReading (s : State) (env : Env) (d : Word) : Reading :=
  { mem := s.mem.afterStores env.stores, env := resumed env s.runs.fetched.length, base := d.toNat, firstWord := 0
    firstTransfer := 2, fetched := s.runs.fetched }

/-- The next record of the commit pass, at `off` of the descriptor of its module. -/
def State.recordReading (s : State) (env : Env) (rec : ModuleRecord) (off : Nat) : Reading :=
  { mem := s.mem.afterStores env.stores, env := resumed env s.runs.fetched.length, base := rec.descriptor.toNat
    firstWord := off / 4, firstTransfer := 0, fetched := s.runs.fetched }

/-- The frame that carries owner data for a key, and the row that applies it: an OFFER, an ANNOUNCE or a CLASH of any
sender (R79, R99). -/
inductive OwnerData (s : State) (f : Frame) : Instr → Key → Binding → List Pair → Prop where
  | offer (k : Key) (b : Binding) (h : f.offerData = some (k, b)) : OwnerData s f .offerTaken k b []
  | announce (k : Key) (b : Binding) (h : f.announceData = some (k, b)) (other : f.sender ≠ s.number) :
      OwnerData s f .announceTaken k b []
  | ownAnnounce (k : Key) (b : Binding) (h : f.announceData = some (k, b)) (own : f.sender = s.number) :
      OwnerData s f .ownAnnounceTaken k b []
  | clash (k : Key) (b : Binding) (refused : List Pair) (h : f.clashData = some (k, b, refused)) :
      OwnerData s f .clashTaken k b refused

/-- The event by which another station goes: its LEAVE, its JOIN while it is present, or a lapse marker of it at the
head of the receive queue (R93, R94, R96), with the row that applies it. -/
inductive Departure (s : State) (n : Station) (rest : List RxItem) : Instr → PeerLoss → Prop where
  | leave (f : Frame) (h : s.rxQueue = .frame f :: rest) (sender : f.sender = n) (body : f.body = .leave) :
      Departure s n rest .leaveTaken .leave
  | join (f : Frame) (h : s.rxQueue = .frame f :: rest) (sender : f.sender = n) (body : f.body = .join) :
      Departure s n rest .joinTaken .rejoin
  | lapse (h : s.rxQueue = .lapse n :: rest) : Departure s n rest .lapse .lapse

/-- The slot apart from its request for room. -/
def Slot.unasked (x : Slot) : Slot := { x with awaitingRoom := false }

/-- The seek slots apart from their requests for room. -/
def State.slotsUnasked (s : State) : List (Option Slot) :=
  s.slots.map (Option.map Slot.unasked)

/-- What a kind check makes of a reference that is offered a binding (R11). -/
def Ref.offered (r : Ref) (b : Binding) : Ref :=
  { r with phase := if r.expected.accepts b.kind then .patching b else .faulted .kind }

/-- A reference needs a walk, by the two cases of R63. -/
def Ref.owesWalk (r : Ref) : Bool :=
  match r.phase.binding? with
  | some b => decide (r.reflect ≠ .binding b)
  | none => decide (r.phase ≠ .faulted .bus) && decide (r.reflect ≠ .stub)

/-- The members `old` of the patch queue keep their places, and the references that need a walk and are not among them have
joined its tail, in reference table order (R63, R108). -/
def State.WalksJoined (t : State) (old : List Owner) : Prop :=
  t.patchQueue = old ++ (t.refs.filter fun r => r.owesWalk && decide (r.owner ∉ old)).map (·.owner)

/-! ### Room for SEEKs (R69, R138) -/

/-- The transmit queue holds a SEEK of this slot number carrying this key (R69). -/
def State.HoldsSeek (s : State) (n : Nat) (k : Key) : Prop :=
  ∃ q, TxEntry.seek n q ∈ s.txQueue ∧ q.agrees k = true

/-- The slot `y`, number `n`, which the event from `s` to `t` has put in TO-SEND, has obtained its SEEK (R69): one that the
transmit queue held already serves it; otherwise one has joined the queue, or the slot awaits room, no place being free. In
ISOLATED its request has been withdrawn at once (R85). -/
structure State.SeekObtained (s t : State) (n : Nat) (y : Slot) : Prop where
  isolated : t.station = .isolated → y.awaitingRoom = false
  held : s.HoldsSeek n y.key → y.awaitingRoom = false
  asks : t.station ≠ .isolated → ¬ s.HoldsSeek n y.key →
    if y.awaitingRoom then 32 ≤ t.txQueue.length else TxEntry.seek n y.key ∈ t.txQueue.drop s.txQueue.length

/-- A grant of the arbiter (R138): to a slot, for a SEEK of its key, or to the Command Engine, for its next frame. -/
inductive Grant where
  | seek (n : Nat) (k : Key)
  | command (x : TxEntry)
  deriving DecidableEq, Repr

/-- The frame that joins the transmit queue by a grant. -/
def Grant.frame : Grant → TxEntry
  | .seek n k => .seek n k
  | .command x => x

/-- The slot of a grant. -/
def Grant.slot? : Grant → Option Nat
  | .seek n _ => some n
  | .command _ => none

/-- The Command Engine's frame of a grant. -/
def Grant.command? : Grant → Option TxEntry
  | .seek _ _ => none
  | .command x => some x

/-- In the event from `s` to `t`, in which the Command Engine has the frames `wanted` to place, the arbiter has made the grants
`gs`, and no other frame has joined the transmit queue (R69, R138): the Command Engine's frames in their order, slots in
ascending number. A slot granted is in TO-SEND, and had asked before, or had no SEEK of its key on the queue; a slot that
asks no more has its SEEK on the queue. An isolated station grants none and withdraws its requests (R85). -/
structure State.Grants (s t : State) (wanted : List TxEntry) (gs : List Grant) : Prop where
  queue : t.txQueue = s.txQueue ++ gs.map Grant.frame
  isolated : t.station = .isolated → gs = [] ∧ t.wanted = []
  command : t.station ≠ .isolated → wanted = gs.filterMap Grant.command? ++ t.wanted
  ascending : (gs.filterMap Grant.slot?).Pairwise (· < ·)
  seeks : ∀ n k, Grant.seek n k ∈ gs →
    (∃ y, t.slots[n]? = some (some y) ∧ y.key = k ∧ y.state = .toSend ∧ y.awaitingRoom = false) ∧
    ((∃ x, s.slots[n]? = some (some x) ∧ x.key = k ∧ x.awaitingRoom = true) ∨ ¬ s.HoldsSeek n k)
  kept : t.station ≠ .isolated → ∀ (n : Nat) (x y : Slot), s.slots[n]? = some (some x) → x.awaitingRoom = true →
    t.slots[n]? = some (some y) → y.unasked = x.unasked → y.awaitingRoom = true ∨ t.HoldsSeek n x.key

/-- The grants of the event are those of R138. -/
def State.Granted (s t : State) (wanted : List TxEntry) : Prop :=
  ∃ gs, s.Grants t wanted gs

/-- No slot is taken, freed or changed, apart from requests for room, and the backlog is as it was. -/
structure State.SeeksKept (s t : State) : Prop where
  slots : t.slotsUnasked = s.slotsUnasked
  backlog : t.backlog = s.backlog

/-! ### Serving the backlog (R78) -/

/-- What the serving of the backlog reads and changes: the references, the slots apart from their requests for room, and the
backlog. -/
structure SeekTables where
  refs : List Ref
  slots : List (Option Slot)
  backlog : List Owner
  deriving DecidableEq, Repr

/-- These tables of a state. -/
def State.seekTables (s : State) : SeekTables := { refs := s.refs, slots := s.slotsUnasked, backlog := s.backlog }

/-- Steps 1 and 2 of seek entry find this binding for a key (R65, R66): that of the LIVE own export of the key; else that of
the oldest of these references which is of the key and holds one. -/
def State.Finds (t : State) (refs : List Ref) (k : Key) (b : Binding) : Prop :=
  let live := fun e : ExportEntry => e.key.agrees k && e.isLive
  (∃ e, t.directory.find? live = some e ∧
    b = { definer := t.number, generation := e.generation, target := e.target, kind := e.kind }) ∨
  ((∀ e ∈ t.directory, live e = false) ∧
    ∃ q, refs.find? (fun q => q.key.agrees k && q.phase.binding?.isSome) = some q ∧ q.phase.binding? = some b)

/-- Serving takes the tables `x` to `y` (R78), with the own exports of `t`. While a slot is free and the backlog is not empty, the
oldest QUEUED reference `r` leaves the backlog and takes the first of steps 1 to 4 of seek entry that applies: a binding, or the KIND
fault, at steps 1 and 2; the slot of its key at step 3; at step 4 the free slot of lowest number, in TO-SEND with try count
1, in which every other QUEUED reference of the key joins it. -/
inductive State.Serving (t : State) : SeekTables → SeekTables → Prop where
  | done (x : SeekTables) (h : x.backlog = [] ∨ none ∉ x.slots) : State.Serving t x x
  | answered (x y : SeekTables) (r : Ref) (rest : List Owner) (b : Binding) (free : none ∈ x.slots) (row : r ∈ x.refs)
      (oldest : x.backlog = r.owner :: rest) (found : t.Finds x.refs r.key b)
      (next : State.Serving t
        { x with backlog := rest, refs := x.refs.map fun q => if q.owner = r.owner then r.offered b else q } y) :
      State.Serving t x y
  | joins (x y : SeekTables) (r : Ref) (rest : List Owner) (n : Nat) (z : Slot) (free : none ∈ x.slots) (row : r ∈ x.refs)
      (oldest : x.backlog = r.owner :: rest) (found : ∀ b, ¬ t.Finds x.refs r.key b)
      (slot : x.slots[n]? = some (some z)) (key : z.key.agrees r.key = true)
      (next : State.Serving t
        { x with backlog := rest
                 refs := x.refs.map fun q => if q.owner = r.owner then { r with phase := .seeking n } else q } y) :
      State.Serving t x y
  | takes (x y : SeekTables) (r : Ref) (rest : List Owner) (n : Nat) (row : r ∈ x.refs)
      (oldest : x.backlog = r.owner :: rest) (found : ∀ b, ¬ t.Finds x.refs r.key b)
      (noSlot : ∀ z, some z ∈ x.slots → z.key.agrees r.key = false)
      (free : x.slots[n]? = some none) (lowest : ∀ m, m < n → x.slots[m]? ≠ some none)
      (next : State.Serving t
        { slots := x.slots.set n (some { key := r.key, state := .toSend, tries := 1, timer := false, awaitingRoom := false })
          refs := x.refs.map fun q => if q.phase = .queued ∧ q.key.agrees r.key = true then { q with phase := .seeking n } else q
          backlog := rest.filter fun o => !(x.refs.any fun q => decide (q.owner = o) && q.key.agrees r.key) } y) :
      State.Serving t x y

/-- From the tables `x`, as the other effects of the event leave them, the backlog has been served, and every slot that was
taken in it has obtained its SEEK (R69, R78). -/
structure State.ServedFrom (s t : State) (x : SeekTables) : Prop where
  serving : t.Serving x t.seekTables
  seeks : ∀ (n : Nat) (y : Slot), x.slots[n]? = some none → t.slots[n]? = some (some y) → s.SeekObtained t n y

/-- The slots through which one of these references seeks; the others are freed (R34, R68, R102). -/
def State.slotsOf (s : State) (keeps : Ref → Bool) : List (Option Slot) :=
  s.slotsUnasked.mapIdx fun n o => if s.refs.any fun r => keeps r && decide (r.phase = .seeking n) then o else none

/-- The reference `r`, without a binding, has gone through seek entry with the other references `hit` of its event, one
after another in table order, and left it with the phase `p` (R64 to R67): the binding of a LIVE own export of its key;
else that of the oldest reference of its key that holds one and is not of the event; else the slot of its key; else a free
slot, in TO-SEND with try count 1, which has obtained its SEEK (R69); else, no slot being free, a place in the backlog. -/
def State.EntryPhase (s t : State) (hit : Ref → Bool) (r : Ref) (p : Phase) : Prop :=
  let binds := fun b : Binding => p = if r.expected.accepts b.kind then .patching b else .faulted .kind
  let live := fun e : ExportEntry => e.key.agrees r.key && e.isLive
  let bound := fun q : Ref => !hit q && q.key.agrees r.key && q.phase.binding?.isSome
  (∀ e, s.directory.find? live = some e →
    binds { definer := s.number, generation := e.generation, target := e.target, kind := e.kind }) ∧
  ((∀ e ∈ s.directory, live e = false) →
    (∀ q b, s.refs.find? bound = some q → q.phase.binding? = some b → binds b) ∧
    ((∀ q ∈ s.refs, bound q = false) →
      (∀ n, s.slotOf r.key = some n → p = .seeking n) ∧
      (s.slotOf r.key = none →
        (∃ n x, p = .seeking n ∧ s.slots[n]? = some none ∧ t.slots[n]? = some (some x) ∧ x.key.agrees r.key = true ∧
          x.state = .toSend ∧ x.tries = 1 ∧ x.timer = false ∧ s.SeekObtained t n x) ∨
        (p = .queued ∧ r.owner ∈ t.backlog ∧ ∀ o ∈ t.slots, o.isSome = true))))

/-- The references `hit`, none of which holds a binding once the event has begun, have gone through seek entry, in table
order, and no other reference has changed (R64 to R67): the slots in use stay, free ones are taken from the lowest number
up and by these references alone, the backlog grows at its tail, and every reference that needs a walk is on the patch queue,
the new ones behind the old, in table order (R63). The only frames that have joined the transmit queue are those of R138. -/
structure State.SeekEntries (s t : State) (hit : Ref → Bool) : Prop where
  owners : t.refs.map (·.owner) = s.refs.map (·.owner)
  others : ∀ r ∈ s.refs, hit r = false → r ∈ t.refs
  phases : ∀ r ∈ s.refs, hit r = true → ∃ p, { r with phase := p } ∈ t.refs ∧ s.EntryPhase t hit r p
  used : ∀ (n : Nat) (x : Slot), s.slots[n]? = some (some x) →
    ∃ y : Slot, t.slots[n]? = some (some y) ∧ y.unasked = x.unasked
  lowest : ∀ (m n : Nat) (x : Slot), m < n → s.slots[m]? = some none → s.slots[n]? = some none → t.slots[n]? = some (some x) →
    t.slots[m]? ≠ some none
  taken : ∀ (n : Nat) (x : Slot), s.slots[n]? = some none → t.slots[n]? = some (some x) →
    ∃ r ∈ s.refs, hit r = true ∧ { r with phase := .seeking n } ∈ t.refs
  backlog : ∃ queued : List Owner, queued.Sublist ((s.refs.filter hit).map (·.owner)) ∧
    t.backlog = s.backlog ++ queued ∧ ∀ o ∈ queued, ∃ r ∈ t.refs, r.owner = o ∧ r.phase = .queued
  walks : t.WalksJoined s.patchQueue
  granted : s.Granted t s.wanted

/-- The notices an event may post after its first ones: KIND faults, rebindings, MODULE-STATE (R31, R81, R89, R99). -/
def Notice.isFollowUp : Notice → Bool
  | .moduleState .. => true
  | .referenceFaulted _ .kind 0 => true
  | .referenceRevoked _ .refusedDefiner => true
  | _ => false

/-- The event posts `first`, then follow-up notices, then `last` (R31, R81, R89, R92, R170, R176). -/
def State.Posts (s t : State) (first last : List Notice) : Prop :=
  ∃ between : List Notice, (∀ x ∈ between, x.isFollowUp = true) ∧
    t.notices = (first ++ between ++ last).foldl NoticeUnit.take s.notices

/-- REFERENCE-FAULTED with cause KIND, no site being at fault (R11). -/
def kindFault (o : Owner) : Notice := .referenceFaulted o .kind 0

/-- The reference of this owner is FAULTED with cause KIND. -/
def State.kindFaulted (t : State) (o : Owner) : Bool :=
  t.refs.any fun q => decide (q.owner = o) && decide (q.phase = .faulted .kind)

/-- The KIND faults of the references `hit` that an event has sent to seek entry, in table order (R11, R64, R89). -/
def State.entryFaults (s t : State) (hit : Ref → Bool) : List Notice :=
  ((s.refs.filter hit).filter fun r => t.kindFaulted r.owner).map fun r => kindFault r.owner

/-- The KIND faults of the serving of the backlog at the end of an event, in the order in which it is served; those of `met`
the event itself has taken out of the backlog (R11, R78). -/
def State.servedFaults (s t : State) (met : Ref → Bool) : List Notice :=
  (s.backlog.filter fun o =>
    (s.refs.any fun r => decide (r.owner = o) && decide (r.phase = .queued) && !met r) && t.kindFaulted o).map kindFault

/-- The MODULE-STATE notices of an event, in table order: one for each module whose derived state it has changed, neither
LOADING nor UNLOADING, nor the module `out` that the event takes out (R31, R35). -/
def State.newStates (s t : State) (out : Option Byte) : List Notice :=
  s.modules.filterMap fun m =>
    let now := derivedState (t.phasesOf m.id)
    if m.state = .loading ∨ m.state = .unloading ∨ out = some m.id ∨ now = m.state then none
    else some (.moduleState m.id now)

/-- The event posts exactly `first`, then the MODULE-STATE notices, then `last` (R31, R81, R89, R92, R99, R170, R176). -/
def State.PostsInTurn (s t : State) (first last : List Notice) (out : Option Byte := none) : Prop :=
  t.notices = (first ++ s.newStates t out ++ last).foldl NoticeUnit.take s.notices

/-- The EXPORT-REFUSED that another station's claim causes, if any: of a PENDING entry of its key, or of a LIVE one that the
refused list names (R42, R43, R55). -/
def State.refusals (s : State) (f : Frame) (k : Key) (b : Binding) (refused : List Pair) : List Notice :=
  match s.directory.find? fun e => e.key.agrees k with
  | some e =>
    if f.sender ≠ s.number ∧ (e.state = .pending ∨
        (e.isLive = true ∧ ({ station := s.number, generation := e.generation } : Pair) ∈ refused)) then
      [.exportRefused e.owner b.definer]
    else []
  | none => []

/-- The reference is bound to one of these pairs (R98, R99). -/
def Ref.boundToOne (r : Ref) (refused : List Pair) : Bool :=
  r.phase.binding?.any fun old => decide (({ station := old.definer, generation := old.generation } : Pair) ∈ refused)

/-- The notices of the pass of owner data over one reference of its key (R11, R79, R98, R99): where it is rebound,
REFERENCE-REVOKED, and where it is offered a binding of another kind, the KIND fault after that. -/
def Ref.passNotices (r : Ref) (b : Binding) (refused : List Pair) : List Notice :=
  (if r.boundToOne refused then [.referenceRevoked r.owner .refusedDefiner] else [])
    ++ if (r.phase.isSeek || r.boundToOne refused) && !r.expected.accepts b.kind then [kindFault r.owner] else []

/-- Slot `k` is the waiting slot of lowest number that is in TO-SEND (R138). -/
def State.FirstWaiting (s : State) (k : Nat) (x : Slot) : Prop :=
  s.slots[k]? = some (some x) ∧ x.awaitingRoom = true ∧ x.state = .toSend ∧
  ∀ j, j < k → ∀ y, s.slots[j]? = some (some y) → y.awaitingRoom = true → y.state ≠ .toSend

/-- The members `gone` have left the answer list (R49, R135): the frame of such a member, in contention, is abandoned; the line is
otherwise as it was. -/
structure State.AnswersLeft (s t : State) (gone : Owner → Prop) : Prop where
  stopped : ∀ o f, s.line = .contending (.answer o) f → gone o → t.line = .quiet
  other : (∀ o f, s.line = .contending (.answer o) f → ¬ gone o) → t.line = s.line

/-- The references of module `m` have been removed (R34, R78, R125): a slot that another module's reference seeks through
stays, a slot left empty is freed and the backlog served; a walk of the module stops, and its site transfer goes on to its
end only where it had begun. Other references stay, in their order, those in the backlog unless the serving of it moves them,
and so do their places in the backlog and on the patch queue. The tables are then those that R78's serving leaves, the oldest member
first, each by the first step that applies (`tables`). -/
structure State.RefsRemoved (s t : State) (m : Byte) (begun : Bool) : Prop where
  owners : t.refs.map (·.owner) = (s.refs.filter fun r => decide (r.owner.module ≠ m)).map (·.owner)
  others : ∀ r ∈ s.refs, r.owner.module ≠ m → r.owner ∉ s.backlog → r ∈ t.refs
  backlog : t.backlog.Sublist (s.backlog.filter fun o => decide (o.module ≠ m))
  queue : (∀ o ∈ t.patchQueue, o.module ≠ m) ∧ t.WalksJoined (s.patchQueue.filter fun o => decide (o.module ≠ m))
  shared : s.SeekLaw → ∀ (n : Nat) (x : Slot), s.slots[n]? = some (some x) →
    (∃ r ∈ s.refs, r.owner.module ≠ m ∧ r.phase = .seeking n) →
    ∃ y : Slot, t.slots[n]? = some (some y) ∧ y.key = x.key ∧ y.state = x.state ∧ y.tries = x.tries ∧
      (t.station = s.station → y.timer = x.timer)
  emptied : s.SeekLaw → ∀ n, (∀ r ∈ s.refs, r.phase = .seeking n → r.owner.module = m) →
    (∀ o ∈ s.backlog, o.module = m) → ∀ x, t.slots[n]? ≠ some (some x)
  served : s.SeekLaw → t.BacklogServed
  tables : s.SeekLaw → s.ServedFrom t
    { refs := s.refs.filter fun r => decide (r.owner.module ≠ m)
      slots := (s.slotsOf fun r => decide (r.owner.module ≠ m)).map
        (Option.map fun x => if t.station = s.station then x else { x with timer := false })
      backlog := s.backlog.filter fun o => decide (o.module ≠ m) }
  walked : (∃ w, s.walk = some w ∧ w.ref.module = m) → t.walk = none ∧ t.transfer = if begun then s.transfer else none
  unwalked : (∀ w, s.walk = some w → w.ref.module ≠ m) → t.walk = s.walk ∧ t.transfer = s.transfer

/-- The module `m` has been given up (R29, R33, R34): its LIVE and PENDING entries are WITHDRAWING and its REFUSED ones gone,
its WITHDRAWs are queued or wanted in directory order (log 26's reading of export index order), granted as R138 has it, its
references, answers and places in the patch queue are gone, and a frame in contention for such an answer is abandoned (R49).
-/
structure State.GivenUp (s t : State) (m : Byte) (begun : Bool) : Prop where
  directory : t.directory = s.directory.filterMap fun e =>
    if e.owner.module = m then
      (if e.state.code = 4 then none else some { e with state := .withdrawing })
    else some e
  frames : ((t.directory.filter fun e => decide (e.owner.module = m)).map fun e => TxEntry.withdraw e.key e.generation).Sublist
    (t.txQueue ++ t.wanted)
  answers : t.answers = s.answers.filter fun a => decide (a.owner.module ≠ m)
  line : s.AnswersLeft t fun o => o.module = m
  granted : s.Granted t ((t.directory.filter fun e => decide (e.owner.module = m)).map fun e => .withdraw e.key e.generation)
  walk : ∀ w, t.walk = some w → w.ref.module ≠ m
  removed : s.RefsRemoved t m begun
  peers : t.peers = s.peers

/-- After the taking out of module `m`: where it owns no entry its record is gone and its command has ended with this
status and detail, otherwise its record is UNLOADING and `waiting` is the command in progress (R29, R35); the other records
stay, apart from their states. -/
structure State.Removed (s t : State) (env : Env) (m : Byte) (waiting : Command) (tag : Half) (status : Status)
    (detail : Nat) : Prop where
  done : (∀ e ∈ t.directory, e.owner.module ≠ m) →
    TableFrame { s with mem := s.mem.afterStores env.stores, runs := s.runsRead,
                        commandQueue := s.commandQueue.tail, command := none, wanted := []
                        modules := s.modules.filter fun x => decide (x.id ≠ m) } t ∧
    (∀ x ∈ t.modules, x.id ≠ m) ∧ s.Posts t [] [.commandDone tag status detail] ∧
    (s.SeekLaw → s.PostsInTurn t (s.servedFaults t fun _ => false) [.commandDone tag status detail] (some m))
  waits : (∃ e ∈ t.directory, e.owner.module = m) →
    TableFrame { s with mem := s.mem.afterStores env.stores, runs := s.runsRead, command := some waiting
                        wanted := (t.directory.filter fun e => decide (e.owner.module = m)).map fun e =>
                          .withdraw e.key e.generation } t ∧
    (∃ x ∈ t.modules, x.id = m ∧ x.state = .unloading) ∧ s.Posts t [] [] ∧
    (s.SeekLaw → s.PostsInTurn t (s.servedFaults t fun _ => false) [] (some m))

/-- The module whose LOAD or UNLOAD is in progress. -/
def Command.moduleOf : Command → Option Byte
  | .loadCommit _ m _ _ _ _ => some m
  | .loadTakeOut _ m _ => some m
  | .unload _ m => some m
  | .start _ => none
  | .stop _ => none
  | .report .. => none

/-- The tag of the command in progress, for the commands that wait for an event of another block (R170). -/
def Command.tag : Command → Half
  | .loadCommit tag _ _ _ _ _ => tag
  | .loadTakeOut tag _ _ => tag
  | .unload tag _ => tag
  | .start tag => tag
  | .stop tag => tag
  | .report tag _ _ _ _ _ => tag

/-- What the isolation leaves (R36, R57, R85, R126, R148, R162): nothing on the bus side, no timer and no request, no answer
and no owed pair; number, configuration, peers, counters and local memory kept; the command in progress ended, a LOAD in its
first pass too, a REPORT apart; the tables kept but for the module of an abandoned command, whose record, entries and
references are gone. Every slot keeps its key, state and try count, and the walk and its site transfer go on (`others`), but
for what an abandoned command's removal frees, serves and stops (`abandoned`). That a command whose block is read in part
only goes on, too, is the model's choice (log 40). -/
structure State.Isolated (s t : State) (begun : Bool) : Prop where
  station : t.station = .isolated
  queues : t.txQueue = [] ∧ t.rxQueue = [] ∧ t.wanted = [] ∧ t.answers = []
  frames : t.outgoing = none ∧ t.held = none ∧ t.line = .quiet
  slots : ∀ x, some x ∈ t.slots → x.timer = false ∧ x.awaitingRoom = false
  owed : ∀ e ∈ t.directory, e.state.owed = []
  kept : t.number = s.number ∧ t.config = s.config ∧ t.peers = s.peers ∧ t.nextSequence = s.nextSequence ∧
    t.nextGeneration = s.nextGeneration ∧ t.mem = s.mem ∧ t.inReset = s.inReset ∧ t.lastSubmit = s.lastSubmit ∧
    t.freeCount = s.freeCount
  goesOn : ((s.command = none ∧ s.firstPassLoad = none) ∨ s.reporting = true) →
    t.command = s.command ∧ t.commandQueue = s.commandQueue ∧ t.runs = s.runs ∧ t.notices = s.notices.take .stationIsolated
  ends : ∀ c, s.command = some c → s.reporting = false →
    t.command = none ∧ t.commandQueue = s.commandQueue.tail ∧
    s.Posts t [.stationIsolated] [.commandDone c.tag .refusedState ((c.moduleOf.map (·.toNat)).getD 0)] ∧
    (c.moduleOf = none →
      t.runs = s.runs ∧ t.notices = (s.notices.take .stationIsolated).take (.commandDone c.tag .refusedState 0))
  firstPass : ∀ tag id, s.firstPassLoad = some (tag, id) →
    t.command = none ∧ t.commandQueue = s.commandQueue.tail ∧ t.runs = s.runsRead ∧ t.modules = s.otherModules ∧
    t.notices = (s.notices.take .stationIsolated).take (.commandDone tag .refusedState ((id.map (·.toNat)).getD 0))
  abandoned : ∀ c m, s.command = some c → c.moduleOf = some m →
    sameModules t.modules (s.modules.filter fun x => decide (x.id ≠ m)) ∧
    t.directory = ((s.directory.filter fun e => decide (e.owner.module ≠ m)).map fun e =>
      if e.isLive then { e with state := .live [] } else e) ∧
    s.RefsRemoved t m begun ∧ t.runs = s.runsRead ∧
    (s.SeekLaw → s.PostsInTurn t (.stationIsolated :: s.servedFaults t fun _ => false)
      [.commandDone c.tag .refusedState m.toNat] (some m))
  others : (∀ c, s.command = some c → c.moduleOf = none) →
    t.refs = s.refs ∧ (s.firstPassLoad = none → t.modules = s.modules) ∧ t.backlog = s.backlog ∧ t.patchQueue = s.patchQueue ∧
    t.slots = s.slots.map (Option.map fun x => { x with timer := false, awaitingRoom := false }) ∧
    t.walk = s.walk ∧ t.transfer = s.transfer ∧
    t.directory = s.directory.map fun e => if e.isLive then { e with state := .live [] } else e

/-- Every reference of the walk `w` after its completion with value `v` (R119). -/
def Ref.completed (r : Ref) (v : WalkValue) : Ref :=
  { r with
    reflect := v.asReflect
    phase := match v with
      | .binding b => .bound b
      | .stub => r.phase }

/-- The reference faulted by a bus error (R123). -/
def Ref.busFaulted (r : Ref) : Ref := { r with phase := .faulted .bus, reflect := .unknown }

/-- The write pass of a reference has begun: the walk at its first site with these values (R116, R117). -/
def State.Writing (t : State) (o : Owner) (v : WalkValue) (sites : List Site) (values : List Word) : Prop :=
  t.walk = some { ref := o, value := v, pass := .write, next := 1, computed := values } ∧
  t.transfer = (sites.zip values).head?.map fun p => { site := p.1, value := p.2 }

/-- The position of a bit of the containing word that a site replaces, and the bit of the value it receives (R114). -/
def Site.valueBit (x : Site) (i : Nat) : Option Nat :=
  match x.form with
  | .a32 => some i
  | .fld p w _ => if p ≤ i ∧ i < p + w then some (i - p) else none
  | .hi16 => if x.address % 4 = 0 then (if 16 ≤ i then some (i - 16) else none) else (if i < 16 then some i else none)
  | .lo16 => if x.address % 4 = 0 then (if 16 ≤ i then some (i - 16) else none) else (if i < 16 then some i else none)
  | .d16 => if x.address % 4 = 0 then (if 16 ≤ i then some (i - 16) else none) else (if i < 16 then some i else none)

/-- The bits a site replaces in its containing word, and the word after the transfer (R114). -/
def Site.Replaces (x : Site) (old value new : Word) : Prop :=
  ∀ i, i < 32 → new.getLsbD i = match x.valueBit i with
    | some j => value.getLsbD j
    | none => old.getLsbD i

/-- A frame the formats can carry: a name of 1 to 24 bytes, a CLASH of its sender with 1 to 15 pairs (R129). -/
def Frame.carriable (f : Frame) : Bool :=
  match f.body with
  | .clash _ name owner _ _ _ refused =>
    decide (1 ≤ name.length ∧ name.length ≤ 24 ∧ owner = f.sender ∧ 1 ≤ refused.length ∧ refused.length ≤ 15)
  | .offer _ name .. => decide (1 ≤ name.length ∧ name.length ≤ 24)
  | .announce _ name .. => decide (1 ≤ name.length ∧ name.length ≤ 24)
  | .withdraw _ name _ => decide (1 ≤ name.length ∧ name.length ≤ 24)
  | .seek _ name => decide (1 ≤ name.length ∧ name.length ≤ 24)
  | .join => true
  | .leave => true

/-- The changes of the station state that R152 lists, by event: the command, and the states before and after. -/
inductive StationChange (s : State) : Instr → StationState → Prop where
  | configured (env : Env) (h : s.station = .off) : StationChange s (.configure env) .configured
  | joining (env : Env) (h : s.station = .configured) : StationChange s (.start env) .joining
  | joined (h : s.station = .joining) : StationChange s .ownJoinTaken .active
  | leaving (env : Env) (h : s.station = .active) (empty : s.modules = []) : StationChange s (.stop env) .leaving
  | left (h : s.station = .leaving) : StationChange s .ownLeaveTaken .configured
  | duplicateSeen (bits : List Bool) (begun : Bool) (h : s.listens = true) :
      StationChange s (.frameArrival bits begun) .isolated
  | duplicateLapsed (idle : Nat) (begun : Bool) (h : s.listens = true) :
      StationChange s (.reservationLapse idle begun) .isolated
  | reset (c : Instr) (h : c.isReset = true) : StationChange s c .off

/-! ## Layouts in local memory (R183, R186, R187) -/

/-- The byte at an offset of a record of words, the first byte of a word its most significant. -/
def recordByte (words : List Word) (offset : Nat) : Byte :=
  (words.getD (offset / 4) 0).extractLsb' (24 - 8 * (offset % 4)) 8

/-- The halfword at an even offset of a record. -/
def recordHalf (words : List Word) (offset : Nat) : Half :=
  recordByte words offset ++ recordByte words (offset + 1)

/-- The word at an offset of a record that is a multiple of 4. -/
def recordWord (words : List Word) (offset : Nat) : Word :=
  words.getD (offset / 4) 0

/-- The name field at an offset of a record (R183): the length, the name bytes, zeros. -/
def RecordName (words : List Word) (offset : Nat) (name : List Byte) : Prop :=
  recordByte words offset = BitVec.ofNat 8 name.length ∧
  ∀ i, i < 27 → recordByte words (offset + 1 + i) = name.getD i 0

/-- The bytes of a record from one offset up to another are 0. -/
def RecordZero (words : List Word) (low high : Nat) : Prop :=
  ∀ i, low ≤ i → i < high → recordByte words i = 0

/-- The STATION record (R174, R187). -/
structure State.StationLayout (s : State) (words : List Word) : Prop where
  size : words.length = 12
  number : recordByte words 0x00 = BitVec.ofNat 8 s.number.val
  state : recordByte words 0x01 = BitVec.ofNat 8 s.station.code
  unset : s.config = none → RecordZero words 0x02 0x10
  config : ∀ c, s.config = some c →
    recordByte words 0x02 = 1 ∧ recordByte words 0x03 = BitVec.ofNat 8 c.group.toNat ∧
    recordByte words 0x04 = BitVec.ofNat 8 c.seekTimeout ∧ recordByte words 0x05 = BitVec.ofNat 8 c.seekTries ∧
    recordHalf words 0x06 = BitVec.ofNat 16 c.ringSize ∧ recordWord words 0x08 = c.stub ∧ recordWord words 0x0C = c.ringBase
  generation : recordHalf words 0x10 = s.nextGeneration
  sequence : recordByte words 0x12 = s.nextSequence
  modules : recordByte words 0x13 = BitVec.ofNat 8 s.modules.length
  exports : recordHalf words 0x14 = BitVec.ofNat 16 s.directory.length
  answers : recordHalf words 0x16 = BitVec.ofNat 16 s.answers.length
  references : recordHalf words 0x18 = BitVec.ofNat 16 s.refs.length
  sites : recordHalf words 0x1A = BitVec.ofNat 16 (s.refs.map fun r => r.sites.length).sum
  slots : recordByte words 0x1C = BitVec.ofNat 8 (s.slots.countP Option.isSome)
  transmit : recordByte words 0x1D = BitVec.ofNat 8 s.txQueue.length
  requests : recordByte words 0x1E = BitVec.ofNat 8
    (s.slots.countP (fun o => (o.map (·.awaitingRoom)).getD false) + if s.wanted = [] then 0 else 1)
  frames : recordByte words 0x1F = BitVec.ofNat 8 s.rxFrames
  markers : recordByte words 0x20 = BitVec.ofNat 8 (s.rxQueue.length - s.rxFrames)
  indices : recordByte words 0x21 = BitVec.ofNat 8 s.notices.producer ∧
    recordByte words 0x22 = BitVec.ofNat 8 s.notices.consumer
  backlog : recordHalf words 0x24 = BitVec.ofNat 16 s.backlog.length
  patches : recordHalf words 0x26 = BitVec.ofNat 16 s.patchQueue.length
  drops : recordHalf words 0x28 = BitVec.ofNat 16 s.notices.drops
  zero : RecordZero words 0x23 0x24 ∧ RecordZero words 0x2A 0x30

/-- The PEERS record of station number `n` (R174, R187). -/
structure Peer.Layout (p : Peer) (n : Nat) (words : List Word) : Prop where
  size : words.length = 4
  number : recordByte words 0x00 = BitVec.ofNat 8 n
  present : recordByte words 0x01 = if p.present then 1 else 0
  group : recordByte words 0x02 = BitVec.ofNat 8 p.group.toNat
  sequence : recordByte words 0x03 = p.lastSequence
  zero : RecordZero words 0x04 0x10

/-- The MODULES record (R174, R187). -/
structure ModuleRecord.Layout (m : ModuleRecord) (words : List Word) : Prop where
  size : words.length = 4
  id : recordByte words 0x00 = m.id
  state : recordByte words 0x01 = BitVec.ofNat 8 m.state.code
  segments : recordByte words 0x02 = BitVec.ofNat 8 m.segmentCount
  descriptor : recordWord words 0x04 = m.descriptor
  exports : recordHalf words 0x08 = BitVec.ofNat 16 m.exportCount
  imports : recordHalf words 0x0A = BitVec.ofNat 16 m.importCount
  sites : recordHalf words 0x0C = BitVec.ofNat 16 m.siteCount
  zero : RecordZero words 0x03 0x04 ∧ RecordZero words 0x0E 0x10

/-- The EXPORTS record (R56, R187). -/
structure State.ExportLayout (s : State) (e : ExportEntry) (words : List Word) : Prop where
  size : words.length = 12
  index : recordByte words 0x00 = BitVec.ofNat 8 e.owner.index
  scope : recordByte words 0x01 = BitVec.ofNat 8 e.key.scope.code
  kind : recordByte words 0x02 = BitVec.ofNat 8 e.kind.code
  state : recordByte words 0x03 = BitVec.ofNat 8 e.state.code
  name : RecordName words 0x04 e.key.name
  target : recordWord words 0x20 = e.target
  generation : recordHalf words 0x24 = e.generation
  refused : ∀ p, e.state = .refused p →
    recordHalf words 0x26 = p.generation ∧ recordByte words 0x28 = BitVec.ofNat 8 p.station.val
  other : e.state.code ≠ 4 → recordHalf words 0x26 = 0 ∧ recordByte words 0x28 = 0xFF
  member : ∀ a, s.answers.find? (fun a => decide (a.owner = e.owner)) = some a →
    (recordByte words 0x29).getLsbD 0 = true ∧ (recordByte words 0x29).getLsbD 1 = a.owesOffer ∧
    (recordByte words 0x29).getLsbD 2 = decide (e.state.owed ≠ []) ∧
    (recordByte words 0x29).toNat < 8
  absent : (∀ a ∈ s.answers, a.owner ≠ e.owner) → recordByte words 0x29 = 0
  pairs : recordByte words 0x2A = BitVec.ofNat 8 e.state.owed.length
  zero : RecordZero words 0x2B 0x30

/-- The REFERENCES record (R84, R187). -/
structure State.ReferenceLayout (s : State) (r : Ref) (words : List Word) : Prop where
  size : words.length = 16
  index : recordByte words 0x00 = BitVec.ofNat 8 r.owner.index
  scope : recordByte words 0x01 = BitVec.ofNat 8 r.key.scope.code
  expected : recordByte words 0x02 = BitVec.ofNat 8 r.expected.code
  phase : recordByte words 0x03 = BitVec.ofNat 8 r.phase.code
  name : RecordName words 0x04 r.key.name
  sites : recordByte words 0x20 = BitVec.ofNat 8 r.sites.length
  binding : ∀ b, r.phase.binding? = some b →
    recordByte words 0x21 = 1 ∧ recordByte words 0x22 = BitVec.ofNat 8 b.definer.val ∧
    recordByte words 0x23 = BitVec.ofNat 8 b.kind.code ∧ recordHalf words 0x24 = b.generation ∧
    recordWord words 0x28 = b.target
  unbound : r.phase.binding? = none → RecordZero words 0x21 0x2C
  reflect : match r.reflect with
    | .none => RecordZero words 0x2C 0x30
    | .stub => recordByte words 0x2C = 1 ∧ RecordZero words 0x2D 0x30
    | .unknown => recordByte words 0x2C = 2 ∧ RecordZero words 0x2D 0x30
    | .binding b => recordByte words 0x2C = 3 ∧ recordByte words 0x2D = BitVec.ofNat 8 b.definer.val ∧
        recordHalf words 0x2E = b.generation
  fault : recordByte words 0x30 = match r.phase with
    | .faulted c => BitVec.ofNat 8 c.code
    | _ => 0
  seeking : ∀ n x, r.phase = .seeking n → s.slots[n]? = some (some x) →
    recordByte words 0x31 = BitVec.ofNat 8 n ∧ recordByte words 0x32 = BitVec.ofNat 8 x.state.code ∧
    recordByte words 0x33 = BitVec.ofNat 8 x.tries
  still : r.phase.code ≠ 2 → recordByte words 0x31 = 0xFF ∧ RecordZero words 0x32 0x34
  place : recordHalf words 0x34 = if r.phase = .queued then BitVec.ofNat 16 (s.backlog.idxOf r.owner + 1) else 0
  walked : recordByte words 0x36 = if r.owner ∈ s.patchQueue then 1 else 0
  zero : RecordZero words 0x26 0x28 ∧ RecordZero words 0x37 0x40

/-- Record `n` of the listing of a selector, as the tables stand, holds these words (R173, R187); every name held has 1 to
24 bytes (R2). -/
def State.RecordLayout (s : State) (sel : Selector) (m : Byte) (n : Nat) (words : List Word) : Prop :=
  match sel with
  | .station => n = 0 ∧ s.StationLayout words
  | .peers => ∃ p, s.peers[n]? = some p ∧ p.Layout n words
  | .modules => ∃ x, s.modules[n]? = some x ∧ x.Layout words
  | .exports => ∃ e, (s.directory.filter fun e => decide (e.owner.module = m))[n]? = some e ∧
    (e.key.name.length ≤ 24 → s.ExportLayout e words)
  | .references => ∃ r, (s.refs.filter fun r => decide (r.owner.module = m))[n]? = some r ∧
    (r.key.name.length ≤ 24 → s.ReferenceLayout r words)

/-- The codes that stand in local memory, in the window and in frames (R129, R165, R183, R185, R187, R188): each list in the
order of its codes from the first one up, or each code that is read with what it stands for. -/
structure CodesAsListed : Prop where
  status : [Status.ok, .refusedState, .badCommand, .badConfig, .badDescriptor, .noRoom, .duplicateModule, .duplicateExport,
    .unknownModule, .modulesPresent, .readError, .writeError].map Status.code = [0, 1, 2, 3, 4, 5, 6, 7, 8, 9, 10, 11]
  station : [StationState.off, .configured, .joining, .active, .leaving, .isolated].map StationState.code = [0, 1, 2, 3, 4, 5]
  module : [ModuleState.loading, .linking, .waiting, .bound, .faulted, .unloading].map ModuleState.code = [1, 2, 3, 4, 5, 6]
  revocation : [RevocationCause.withdrawn, .peerGone, .refusedDefiner].map RevocationCause.code = [1, 2, 3]
  loss : [PeerLoss.leave, .lapse, .rejoin].map PeerLoss.code = [1, 2, 3]
  fault : [FaultCause.kind, .fit, .bus].map FaultCause.code = [1, 2, 3]
  scope : [Scope.common, .group].map Scope.code = [1, 2]
  kind : [Kind.entry, .data].map Kind.code = [1, 2] ∧ [ExpectedKind.entry, .data, .any].map ExpectedKind.code = [1, 2, 3]
  slot : [SlotState.toSend, .out].map SlotState.code = [1, 2]
  exportState : ∀ owed p, [ExportState.pending, .live owed, .withdrawing, .refused p].map ExportState.code = [1, 2, 3, 4]
  submit : [SubmitResult.none, .accepted, .refusedFull, .refusedAddress].map SubmitResult.code = [0, 1, 2, 3]
  commands : ∀ (b : Byte) (k : CommandKind), commandOfCode b = some k ↔ (b.toNat, k) ∈
    [(1, CommandKind.configure), (2, .start), (3, .stop), (4, .load), (5, .unload), (6, .reseek), (7, .report)]
  words : [CommandKind.configure, .start, .stop, .load, .unload, .reseek, .report].map (fun k => 1 + k.moreWords) =
    [5, 1, 1, 2, 2, 2, 3]
  selectors : ∀ (b : Byte) (x : Selector), selectorOfCode b = some x ↔ (b.toNat, x) ∈
    [(1, Selector.station), (2, .peers), (3, .modules), (4, .exports), (5, .references)]
  records : [Selector.station, .peers, .modules, .exports, .references].map Selector.recordSize = [48, 16, 16, 48, 64]
  scopes : ∀ (b : Byte) (x : Scope), scopeOfCode b = some x ↔ (b.toNat, x) ∈ [(1, Scope.common), (2, .group)]
  kinds : ∀ (b : Byte) (x : Kind), kindOfCode b = some x ↔ (b.toNat, x) ∈ [(1, Kind.entry), (2, .data)]
  expected : ∀ (b : Byte) (x : ExpectedKind), expectedOfCode b = some x ↔
    (b.toNat, x) ∈ [(1, ExpectedKind.entry), (2, .data), (3, .any)]
  classes : ∀ kind c : Nat, classOfCode kind = some c ↔
    (kind, c) ∈ [(1, 0), (2, 0), (3, 1), (4, 1), (5, 1), (6, 2), (7, 3)]
  frames : ∀ (sc : Scope) (name : List Byte) (n : Station) (g : Half) (w : Word) (k : Kind) (ps : List Pair),
    [Body.clash sc name n g w k ps, .offer sc name g w k, .join, .leave, .withdraw sc name g, .announce sc name g w k,
      .seek sc name].map (fun b => (b.kindCode, b.frameClass)) = [(1, 0), (2, 0), (3, 1), (4, 1), (5, 1), (6, 2), (7, 3)]
  phase : ∀ n b c, [Phase.queued, .seeking n, .waiting, .patching b, .bound b, .faulted c].map Phase.code = [1, 2, 3, 4, 5, 6]

/-- A notice's slot (R186): the kind, the first argument, the second argument, the word argument, and zeros. -/
def slotWords (kind first : Byte) (second : Half) (word : Word) : List Word :=
  [kind ++ first ++ second, word, 0, 0]

/-- The layout of each kind of notice (R186). -/
def Notice.layout : Notice → List Word
  | .commandDone tag status detail => slotWords 1 (BitVec.ofNat 8 status.code) tag (BitVec.ofNat 32 detail)
  | .moduleState m st => slotWords 2 m (BitVec.ofNat 16 st.code) 0
  | .referenceUnresolved r => slotWords 3 r.module (BitVec.ofNat 16 r.index) 0
  | .referenceRevoked r cause => slotWords 4 r.module (BitVec.ofNat 16 r.index) (BitVec.ofNat 32 cause.code)
  | .referenceFaulted r cause site =>
    slotWords 5 r.module (BitVec.ofNat 16 r.index) (BitVec.ofNat 32 (256 * cause.code + site))
  | .exportRefused e owner => slotWords 6 e.module (BitVec.ofNat 16 e.index) (BitVec.ofNat 32 owner.val)
  | .peerGone n cause => slotWords 7 (BitVec.ofNat 8 n.val) (BitVec.ofNat 16 cause.code) 0
  | .busStall => slotWords 8 0 0 0
  | .stationIsolated => slotWords 9 0 0 0
  | .noticesDropped count => slotWords 10 0 0 (BitVec.ofNat 32 count)

/-- The indices a notice carries fit its second argument. -/
def Notice.indexFits : Notice → Bool
  | .referenceUnresolved r => decide (r.index < 65536)
  | .referenceRevoked r _ => decide (r.index < 65536)
  | .referenceFaulted r _ _ => decide (r.index < 65536)
  | .exportRefused e _ => decide (e.index < 65536)
  | _ => true

/-- The claimant whose transfers a row makes, with the surroundings of its step (R182). -/
def claimOf : Instr → Option (Claimant × Env)
  | .unknownCommandCode env => some (.commandEngine, env)
  | .configure env => some (.commandEngine, env)
  | .start env => some (.commandEngine, env)
  | .stop env => some (.commandEngine, env)
  | .load env => some (.commandEngine, env)
  | .loadCommitExport env => some (.commandEngine, env)
  | .loadCommitImport env => some (.commandEngine, env)
  | .loadCommitFault env => some (.commandEngine, env)
  | .unload env => some (.commandEngine, env)
  | .reseek env => some (.commandEngine, env)
  | .report env => some (.commandEngine, env)
  | .reportRecordWrite env => some (.commandEngine, env)
  | .siteWriteDone env => some (.patchEngine, env)
  | .noticeWriteDone env => some (.noticeUnit, env)
  | .memoryAckTimeout c env => some (c, env)
  | _ => none

end Sys2Proof.Machine
end

