-- ==== Sys2Proof/Certificates/Slice0/Obligations.lean ====
section
/-! DEFINITION. The statements for the provers, one `def Obligations.<Name> : Prop` each, listed in OBLIGATIONS.json. Every
`env` is quantified: the stores of other bus masters and the transfer that fails are the surroundings' (logs 7, 10). 
In what a row answers, `State.served` and `State.settleAgent` are the memory agent's grant at the end of the event, after
transfers and without any: what they grant is `MemoryUnchangedWithoutTransfers` (R182; log 8). -/

open Sys2Proof Sys2Proof.Machine

/-! ## The machine -/

/-- A step carries out the command at the front of the queue on the state with the queue's rest. On an empty queue the
block idles: the model's choice (log 2). -/
def Obligations.StepRunsTheFrontCommand : Prop :=
  (∀ (c : Instr) (rest : List Instr) (s : State), s.pending = c :: rest → step s = exec c { s with pending := rest }) ∧
  ∀ s : State, s.pending = [] → step s = .next s

/-- No command stops the machine: each answers a next state, and leaves the queue of waiting commands alone. The queue is
the model's own field (log 25); that a command whose event cannot occur answers the state unchanged is the model's choice
(log 1), and so is that a transfer beyond local memory is one that is not acknowledged (log 27). -/
def Obligations.EveryCommandAnswersNext : Prop :=
  ∀ (c : Instr) (s : State), ∃ t, exec c s = .next t ∧ t.pending = s.pending

/-- The station number changes by pin reset alone (R151); the configuration record by CONFIGURE in OFF, and by the resets,
which clear it (R153). -/
def Obligations.NumberAndConfigurationKept : Prop :=
  ∀ (c : Instr) (s t : State), exec c s = .next t →
    (t.number = s.number ∨ ∃ straps cut, c = .pinReset straps cut ∧ t.number = straps.toFin) ∧
    (t.config = s.config ∨ (s.station = .off ∧ ∃ env, c = .configure env) ∨ (c.isReset = true ∧ t.config = none))

/-- The station state changes on the events of R152, and on no event in a state not shown for it. -/
def Obligations.StationStateTransitions : Prop :=
  ∀ (c : Instr) (s t : State), exec c s = .next t → t.station = s.station ∨ StationChange s c t.station

/-- The next-sequence value (R130): 0 after a reset, carried by every frame begun, advanced by 1 modulo 256 when a frame
wins contention, and by nothing else. -/
def Obligations.SequenceNumbers : Prop :=
  (∀ (straps : BitVec 4) (cut : Cut) (s t : State), exec (.pinReset straps cut) s = .next t → t.nextSequence = 0) ∧
  (∀ (value : Word) (cut : Cut) (s t : State), s.inReset = false → value.getLsbD 31 = true →
    exec (.portReset value cut) s = .next t → t.nextSequence = 0) ∧
  (∀ (idle : Nat) (s t : State) (source : Source) (f : Frame), exec (.frameBegin idle) s = .next t → t ≠ s →
    t.line = .contending source f → f.sequence = s.nextSequence ∧ f.sender = s.number ∧ f.group = s.ownGroup) ∧
  (∀ (s : State) (source : Source) (f : Frame), s.inReset = false → s.line = .contending source f →
    ∃ t o, exec .contentionWon s = .next t ∧ t.nextSequence = s.nextSequence + 1 ∧ t.outgoing = some o ∧ o.frame = f) ∧
  (∀ (c : Instr) (s t : State), c.isReset = false → c ≠ .contentionWon → exec c s = .next t →
    t.nextSequence = s.nextSequence) ∧
  ∀ (idle : Nat) (s t : State), exec (.repeatFrame idle) s = .next t → t.outgoing = s.outgoing

/-- Local memory is changed only by rows whose step makes transfers, and by the resets (R114, R127, R128, R182). A claimant
with a transfer to make waits for the memory agent's grant: the Command Engine with a command to read, a commit record to read
or a report record to write, the Patch Engine with a site transfer, the Notice Unit with a reserved notice. When transfers of
a claimant end, the first that waits after it in the rotation Command Engine, Patch Engine, Notice Unit is granted; a grant
stands until it is used, and an idle agent grants what is asked next, requests made together in either order. A step whose
claimant is not granted does nothing; one that is granted makes one word transfer at the most while another claimant waits
(R182). What an isolation does to a transfer of the command it ends is log 8's reading. A step that only takes a report record's
content makes no transfer (log 29). -/
def Obligations.MemoryUnchangedWithoutTransfers : Prop :=
  (∀ (c : Instr) (s t : State), c.mayChangeMemory = false → exec c s = .next t →
    t.mem = s.mem ∧ t.freeCount = s.freeCount) ∧
  (∀ s : State,
    (s.asks .patchEngine = true ↔ s.transfer ≠ none) ∧
    (s.asks .noticeUnit = true ↔ s.notices.ring ≠ none ∧ s.notices.list ≠ []) ∧
    (s.command = none → (s.asks .commandEngine = true ↔ s.commandQueue ≠ [])) ∧
    (∀ tag m i j off sum, s.command = some (.loadCommit tag m i j off sum) →
      (s.asks .commandEngine = true ↔
        s.wanted = [] ∧ ∃ rec, s.module? m = some rec ∧ (i < rec.exportCount ∨ j < rec.importCount))) ∧
    (∀ tag sel m buffer capacity n, s.command = some (.report tag sel m buffer capacity n) →
      (s.asks .commandEngine = true ↔ s.runs.record ≠ none ∨ s.reportRecord sel m n ≠ none)) ∧
    (∀ c, s.command = some c → (c.moduleOf = none → s.reporting = false → s.asks .commandEngine = false) ∧
      (∀ tag m e, c = .unload tag m ∨ c = .loadTakeOut tag m e → s.asks .commandEngine = false))) ∧
  (∀ s : State,
    let first := fun a b c : Claimant =>
      if s.asks a then [a] else if s.asks b then [b] else if s.asks c then [c] else []
    s.grantAfter .commandEngine = first .patchEngine .noticeUnit .commandEngine ∧
    s.grantAfter .patchEngine = first .noticeUnit .commandEngine .patchEngine ∧
    s.grantAfter .noticeUnit = first .commandEngine .patchEngine .noticeUnit) ∧
  (∀ (c : Instr) (s : State) (claimant : Claimant) (env : Env), claimOf c = some (claimant, env) → env.upTo ≠ some 0 →
    s.asks claimant = true →
    (claimant ∉ s.granted → exec c s = .next s) ∧
    (claimant ≠ .patchEngine → (∃ x, x ≠ claimant ∧ s.asks x = true) →
      exec c s = exec c.leftAfterOne s ∧
      (c = .memoryAckTimeout claimant env → env.failAt ≠ some 0 → exec c s = .next s)) ∧
    ∀ t, exec c s = .next t → t = s ∨ t.granted = t.grantAfter claimant) ∧
  (∀ (c : Instr) (s t : State), s.AgentLaw → claimOf c = none → c.isReset = false →
    t.station = s.station ∨ t.station ≠ .isolated → exec c s = .next t →
    (s.granted = [] → t.granted = claimants.filter t.asks) ∧
    ((∃ x ∈ s.granted, t.asks x = true) → t.granted = s.granted.filter t.asks)) ∧
  (∀ s : State, s.AgentLaw → s.settleAgent = s) ∧
  ∀ s t : State, s.AgentLaw → step s = .next t → t.AgentLaw

/-! ## Laws -/

/-- Every law holds in the state after reset. -/
def Obligations.LawsHoldAtReset : Prop :=
  State.reset.MemoryCanonical ∧ State.reset.WithinRoom ∧ State.reset.RingLaw ∧ State.reset.SeekLaw ∧
  State.reset.DirectoryKeysDistinct ∧ State.reset.AnswersLive ∧ State.reset.ModuleStatesDerived ∧
  State.reset.OwnersDistinct ∧ State.reset.BoundLaw ∧ State.reset.DefinersPresent ∧ State.reset.StoresWithinRoom ∧
  State.reset.NamesValid ∧ State.reset.AgentLaw

/-- Pin reset and port reset put every block in its reset state; the station number is the straps', or kept (R9, R37, R58,
R86, R127, R149, R164, R166, R176). Local memory is changed only by what is in progress: a site transfer completes whole or
does not take place, and of the words still to be written of the first reserved notice, or of the report record under way,
the first so many stand, of a claimant that the agent has granted alone, and one at the most while another waits (R127, R166,
R175, R180, R182; how many is log 10's operand). The agent is idle. Nothing is said here of the model's own fields: the queue of
waiting commands, the free values drawn (logs 6, 10). -/
def Obligations.ResetsClearEveryBlock : Prop :=
  ∀ (c : Instr) (n : Station) (cut : Cut) (s : State),
    ((∃ straps : BitVec 4, c = .pinReset straps cut ∧ n = straps.toFin) ∨
     (∃ value : Word, c = .portReset value cut ∧ value.getLsbD 31 = true ∧ s.inReset = false ∧ n = s.number)) →
    ∃ t, exec c s = .next t ∧ t.number = n ∧ t.station = .off ∧ t.config = none ∧
      t.peers = List.replicate 16 { present := false, group := 0, lastSequence := 0 } ∧ t.inReset = false ∧
      t.txQueue = [] ∧ t.rxQueue = [] ∧ t.outgoing = none ∧ t.held = none ∧ t.nextSequence = 0 ∧ t.line = .quiet ∧
      t.directory = [] ∧ t.answers = [] ∧ t.nextGeneration = 1 ∧
      t.refs = [] ∧ t.slots = List.replicate 16 none ∧ t.backlog = [] ∧
      t.patchQueue = [] ∧ t.walk = none ∧ t.transfer = none ∧
      t.commandQueue = [] ∧ t.lastSubmit = .none ∧ t.command = none ∧ t.wanted = [] ∧ t.modules = [] ∧
      t.notices = { ring := none, producer := 0, consumer := 0, list := [], drops := 0, interruptEnable := false,
                    writeFault := false, consumerRefused := false } ∧
      t.runs = { fetched := [], record := none, noticeWords := 0 } ∧ t.granted = [] ∧
      (s.transfer = none → s.notices.list = [] → s.reporting = false → t.mem = s.mem) ∧
      (∀ x, s.transfer = some x → s.notices.list = [] → s.reporting = false → t.mem = s.mem ∨ t.mem = (s.siteWritten x).mem) ∧
      ∃ site notice : Memory,
        (site = s.mem ∨ ∃ x, s.transfer = some x ∧ .patchEngine ∈ s.granted ∧
          site = s.mem.setWord x.site.wordAddress (x.site.newWord (s.mem.word x.site.wordAddress) x.value)) ∧
        (notice = site ∨ ∃ r x behind k, s.notices.ring = some r ∧ s.notices.list = x :: behind ∧
          .noticeUnit ∈ s.granted ∧ (s.othersAsk .noticeUnit = true → k ≤ 1) ∧
          notice = site.setWords (r.base + 16 * x.slot + 4 * s.runs.noticeWords)
            ((x.notice.words.drop s.runs.noticeWords).take k)) ∧
        (t.mem = notice ∨ ∃ tag sel m buffer capacity n x k, s.command = some (.report tag sel m buffer capacity n) ∧
          s.recordAt sel m n = some x ∧ .commandEngine ∈ s.granted ∧ (s.othersAsk .commandEngine = true → k ≤ 1) ∧
          t.mem = notice.setWords (buffer + n * sel.recordSize + 4 * x.written) ((x.words.drop x.written).take k))

/-- Local memory keeps its canonical form (the model's own invariant, log 4). -/
def Obligations.MemoryCanonicalKept : Prop :=
  ∀ s t : State, s.MemoryCanonical → step s = .next t → t.MemoryCanonical

/-- The fixed stores stay within their room (R13, R68, R137, R143, R159, R168, R178), and while a request for room waits no
place of the transmit queue is free (R138). -/
def Obligations.WithinRoomKept : Prop :=
  ∀ s t : State, s.WithinRoom → step s = .next t → t.WithinRoom

/-- The law of the notice ring is kept (R177). -/
def Obligations.RingLawKept : Prop :=
  ∀ s t : State, s.RingLaw → step s = .next t → t.RingLaw

/-- The laws of seek slots and of the backlog are kept (R68, R77). -/
def Obligations.SeekLawKept : Prop :=
  ∀ s t : State, s.SeekLaw → step s = .next t → t.SeekLaw

/-- No directory comes to hold two entries of one key (R39). -/
def Obligations.DirectoryKeysDistinctKept : Prop :=
  ∀ s t : State, s.DirectoryKeysDistinct → step s = .next t → t.DirectoryKeysDistinct

/-- The answer list keeps each export at most once, and LIVE members only (R48, R49). -/
def Obligations.AnswersLiveKept : Prop :=
  ∀ s t : State, s.AnswersLive → step s = .next t → t.AnswersLive

/-- The law of derived module state is kept (R30). -/
def Obligations.ModuleStatesDerivedKept : Prop :=
  ∀ s t : State, s.ModuleStatesDerived → step s = .next t → t.ModuleStatesDerived

/-- The law of bound references, and the patch queue's part of the law against duplicates, are kept (R63, R108). -/
def Obligations.BoundLawKept : Prop :=
  ∀ s t : State, s.BoundLaw → step s = .next t → t.BoundLaw

/-- The law of definers is kept (R61). -/
def Obligations.DefinersPresentKept : Prop :=
  ∀ s t : State, s.DefinersPresent → step s = .next t → t.DefinersPresent

/-- The commit pass has room for every entry it makes: directory, reference table and site pool stay within their room
(R27, R38, R59, R60). -/
def Obligations.StoresWithinRoomKept : Prop :=
  ∀ s t : State, s.StoresWithinRoom → step s = .next t → t.StoresWithinRoom

/-- Every name held stays valid and every owed refused list well-formed (R1, R2, R38), so that every frame the station
begins is one the formats can carry (R129). -/
def Obligations.NamesValidKept : Prop :=
  (∀ s t : State, s.NamesValid → step s = .next t → t.NamesValid) ∧
  ∀ (s t : State) (idle : Nat) (source : Source) (f : Frame), s.NamesValid → exec (.frameBegin idle) s = .next t → t ≠ s →
    t.line = .contending source f → f.carriable = true

/-! ## The local port -/

/-- The writes of the register window that set or clear a bit or do nothing, and RESET going low (R165, R166, R181, R149).
While RESET is low no write has an effect (R165). That the state outside the bus stands until RESET returns high is the
model's reading (log 11). -/
def Obligations.RegisterWrites : Prop :=
  (∀ (value : Word) (s : State), s.inReset = false → value.getLsbD 31 = false →
    exec (.interruptEnableWrite value) s =
      .next { s with notices := { s.notices with interruptEnable := value.getLsbD 0 } }) ∧
  (∀ (value : Word) (s : State), s.inReset = false →
    exec (.istatWrite value) s = .next { s with notices := { s.notices with
      writeFault := if value.getLsbD 2 then false else s.notices.writeFault
      consumerRefused := if value.getLsbD 3 then false else s.notices.consumerRefused } }) ∧
  (∀ (offset : Nat) (width : Width) (value : Word) (s : State),
    exec (.ignoredRegisterWrite offset width value) s = .next s) ∧
  (∀ s : State, exec .resetLow s = .next { s with inReset := true, line := .quiet, outgoing := none }) ∧
  ∀ (s : State) (value : Word) (cut : Cut) (c : Instr), s.inReset = true →
    c ∈ [Instr.interruptEnableWrite value, .istatWrite value, .submission value, .nconsWrite value, .portReset value cut] →
    exec c s = .next s

/-- A submission is refused for its address, refused because the queue is full, or accepted, in this order; CQSTAT keeps
its result until the next submission or a reset (R167). The memory agent's grant is then settled, as
MemoryUnchangedWithoutTransfers says: the model's reading of R182 (log 8, DEDUCED). -/
def Obligations.SubmissionOutcomes : Prop :=
  (∀ (value : Word) (s : State), s.inReset = false →
    ((value.toNat % 4 ≠ 0 ∨ 0x0FFFFFFF < value.toNat) →
      exec (.submission value) s = .next (State.settleAgent { s with lastSubmit := .refusedAddress })) ∧
    (value.toNat % 4 = 0 → value.toNat ≤ 0x0FFFFFFF → 8 ≤ s.commandQueue.length →
      exec (.submission value) s = .next (State.settleAgent { s with lastSubmit := .refusedFull })) ∧
    (value.toNat % 4 = 0 → value.toNat ≤ 0x0FFFFFFF → s.commandQueue.length < 8 →
      exec (.submission value) s =
        .next (State.settleAgent { s with commandQueue := s.commandQueue ++ [value], lastSubmit := .accepted }))) ∧
  ∀ (c : Instr) (s t : State), c.isReset = false → (∀ value, c ≠ .submission value) → exec c s = .next t →
    t.lastSubmit = s.lastSubmit

/-- A write to NCONS is accepted when a ring is configured, the value is less than its size and lies from the consumer
index forward to the producer index; then the slots are free and the test of the drop count is made. Otherwise it is
ignored and CONSUMER-REFUSED set (R179). The memory agent's grant is then settled, as MemoryUnchangedWithoutTransfers says:
the model's reading of R182 (log 8, DEDUCED). -/
def Obligations.ConsumerWrite : Prop :=
  ∀ (value : Word) (s : State), s.inReset = false →
    (∀ r, s.notices.ring = some r → s.RingLaw →
      ((∃ i, i ≤ (s.notices.producer + r.size - s.notices.consumer) % r.size ∧
          value.toNat = (s.notices.consumer + i) % r.size) →
        exec (.nconsWrite value) s =
          .next (State.settleAgent { s with
            notices := ({ s.notices with consumer := value.toNat } : NoticeUnit).testDrops })) ∧
      ((∀ i, i ≤ (s.notices.producer + r.size - s.notices.consumer) % r.size →
          value.toNat ≠ (s.notices.consumer + i) % r.size) →
        exec (.nconsWrite value) s = .next (State.settleAgent { s with notices := { s.notices with consumerRefused := true } }))) ∧
    (s.notices.ring = none →
      exec (.nconsWrite value) s = .next (State.settleAgent { s with notices := { s.notices with consumerRefused := true } }))

/-- Taking a notice (R177, R178): first the drop count, if there is room for NOTICES-DROPPED; then the notice, if there is
room for it, otherwise a drop. `free` is the room left: size less one less the occupancy. -/
def Obligations.NoticesTakenOrCounted : Prop :=
  (∀ (n : NoticeUnit) (x : Notice) (r : Ring) (free : Nat), n.ring = some r → n.occupancy + free + 1 = r.size →
    (n.drops = 0 → 1 ≤ free →
      n.take x = { n with list := n.list ++ [{ slot := (n.producer + n.list.length) % r.size, notice := x }] }) ∧
    (n.drops ≠ 0 → 2 ≤ free →
      n.take x = { n with
        drops := 0
        list := n.list ++ [{ slot := (n.producer + n.list.length) % r.size, notice := .noticesDropped n.drops },
                           { slot := (n.producer + (n.list.length + 1)) % r.size, notice := x }] }) ∧
    (n.drops ≠ 0 → free = 1 →
      n.take x = { n with
        drops := 1
        list := n.list ++ [{ slot := (n.producer + n.list.length) % r.size, notice := .noticesDropped n.drops }] }) ∧
    (free = 0 → n.take x = { n with drops := min 65535 (n.drops + 1) }) ∧
    (n.drops ≠ 0 → 1 ≤ free →
      n.testDrops = { n with
        drops := 0
        list := n.list ++ [{ slot := (n.producer + n.list.length) % r.size, notice := .noticesDropped n.drops }] }) ∧
    ((n.drops = 0 ∨ free = 0) → n.testDrops = n)) ∧
  ∀ (n : NoticeUnit) (x : Notice), n.ring = none →
    n.take x = { n with drops := min 65535 (n.drops + 1) } ∧ n.testDrops = n

/-- The registers of the window and their fields, with every bit not named reading 0 and both indices 0 until a ring is
configured, the lanes of narrower reads, and INT (R165, R166, R181; log 32). Which lanes correspond to an
offset is the model's choice (log 41). -/
def Obligations.RegisterReads : Prop :=
  (∀ s : State, s.inReset = false → s.WithinRoom → s.RingLaw →
    s.readWindow 0x00 .word = some 0x04120001 ∧
    s.readWindow 0x04 .word = some (if s.notices.interruptEnable then 1 else 0) ∧
    (∃ w, s.readWindow 0x08 .word = some w ∧ (w.extractLsb' 0 3).toNat = s.station.code ∧
      (w.extractLsb' 8 4).toNat = s.number.val ∧ w.extractLsb' 16 3 = s.ownGroup ∧
      w.extractLsb' 3 5 = 0 ∧ w.extractLsb' 12 4 = 0 ∧ w.extractLsb' 19 13 = 0) ∧
    s.readWindow 0x0C .word = some 0 ∧
    (∃ w, s.readWindow 0x10 .word = some w ∧ (w.extractLsb' 0 4).toNat = s.commandQueue.length ∧
      (w.extractLsb' 8 2).toNat = s.lastSubmit.code ∧ w.extractLsb' 4 4 = 0 ∧ w.extractLsb' 10 22 = 0) ∧
    (∃ w, s.readWindow 0x14 .word = some w ∧ w.toNat = s.notices.producer ∧ w.extractLsb' 8 24 = 0) ∧
    (∃ w, s.readWindow 0x18 .word = some w ∧ w.toNat = s.notices.consumer ∧ w.extractLsb' 8 24 = 0) ∧
    (s.notices.ring = none → s.readWindow 0x14 .word = some 0 ∧ s.readWindow 0x18 .word = some 0) ∧
    (∃ w, s.readWindow 0x1C .word = some w ∧ w.getLsbD 0 = decide (s.notices.producer ≠ s.notices.consumer) ∧
      w.getLsbD 1 = decide (s.notices.drops ≠ 0) ∧ w.getLsbD 2 = s.notices.writeFault ∧
      w.getLsbD 3 = s.notices.consumerRefused ∧ w.extractLsb' 4 12 = 0 ∧ (w.extractLsb' 16 16).toNat = s.notices.drops)) ∧
  (∀ (s : State) (j i : Nat) (w : Word), i < 4 → s.readWindow (4 * j) .word = some w →
    s.readWindow (4 * j + i) .byte = some ((byteAt w i).setWidth 32) ∧
    (i % 2 = 0 → s.readWindow (4 * j + i) .half = some ((halfOf (byteAt w i) (byteAt w (i + 1))).setWidth 32))) ∧
  (∀ (s : State) (offset : Nat) (width : Width), s.inReset = true → s.readWindow offset width = none) ∧
  ∀ s : State, s.interrupt = true ↔ s.notices.producer ≠ s.notices.consumer ∧ s.notices.interruptEnable = true

/-! ## Commands of the command queue -/

/-- How the reading of a block, an unknown code, or the station state ends a command (R169), and what a step leaves that
leaves the reading between two words, for other claimants and other events (R182; log 8): the words read so far. The first
clauses are the table of the states each command is taken in. Which row carries a block whose first word is not read is
log 23's choice. -/
def Obligations.BlocksThatEndACommand : Prop :=
  (∀ st : StationState,
    (CommandKind.configure.takenIn st = true ↔ st = .off) ∧ (CommandKind.start.takenIn st = true ↔ st = .configured) ∧
    (CommandKind.stop.takenIn st = true ↔ st = .active) ∧ (CommandKind.load.takenIn st = true ↔ st = .active) ∧
    (CommandKind.unload.takenIn st = true ↔ st = .active) ∧ (CommandKind.reseek.takenIn st = true ↔ st = .active) ∧
    CommandKind.report.takenIn st = true) ∧
  ∀ (s : State) (env : Env) (a : Word),
    (s.Executes env a → s.ReadsOn env → commandOfCode (byteAt (s.blockWord env a 0) 0) = none →
      exec (.unknownCommandCode env) s = .next (s.ended env (s.tagAt env a) .badCommand 0)) ∧
    (∀ k, s.Holds env a k → k.takenIn s.station = false →
      exec (k.row env) s = .next (s.ended env (s.tagAt env a) .refusedState 0)) ∧
    (∀ k i, s.Executes env a → s.ReadsOn env → commandOfCode (byteAt (s.blockWord env a 0) 0) = some k → 1 ≤ i →
      i ≤ k.moreWords →
      (∀ j, 1 ≤ j → j < i → s.readAcks env j (a.toNat + 4 * j) = true) →
      (0x0FFFFFFF < a.toNat + 4 * i →
        exec (k.row env) s = .next (s.ended env (s.tagAt env a) .badCommand 0)) ∧
      (a.toNat + 4 * i ≤ 0x0FFFFFFF → s.readAcks env i (a.toNat + 4 * i) = false →
        exec (k.row env) s = .next (s.ended env (s.tagAt env a) .readError (4 * i)))) ∧
    (s.inReset = false → s.command = none → s.commandQueue.head? = some a → a.toNat ≤ 0x0FFFFFFF →
      .commandEngine ∈ s.granted → s.runs.fetched = [] → env.upTo ≠ some 0 →
      env.failAt = some 0 →
      exec (.unknownCommandCode env) s = .next (s.ended env 0 .readError 0) ∧
      ∀ k : CommandKind, exec (k.row env) s = .next (s.ended env 0 .readError 0)) ∧
    (∀ k p, s.Executes env a → commandOfCode (byteAt (s.blockWord env a 0) 0) = some k →
      s.leavesAfter .commandEngine env p →
      1 ≤ s.runs.fetched.length + p → s.runs.fetched.length + p ≤ k.moreWords →
      a.toNat + 4 * (s.runs.fetched.length + p) ≤ 0x0FFFFFFF →
      exec (k.row env) s =
        .next (s.leftReading env ((List.range (s.runs.fetched.length + p)).map (s.blockWord env a)))) ∧
    ∀ k : CommandKind, s.ReadsOn env →
      exec (k.row env) s = exec (k.row (toTheEnd env)) s

/-- CONFIGURE in OFF (R154): the first field that fails ends it with BAD-CONFIG at the field's offset; otherwise the record
is set whole, the ring handed over and tested for drops, and the station is CONFIGURED. -/
def Obligations.ConfigureOutcomes : Prop :=
  ∀ (s : State) (env : Env) (a : Word), s.Holds env a .configure → s.station = .off →
    let fields := s.blockWord env a 1
    let group := (byteAt fields 0).toNat
    let timeout := (byteAt fields 1).toNat
    let tries := (byteAt fields 2).toNat
    let stub := s.blockWord env a 2
    let base := s.blockWord env a 3
    let size := (halfOf (byteAt (s.blockWord env a 4) 0) (byteAt (s.blockWord env a 4) 1)).toNat
    let bad := fun offset : Nat => exec (.configure env) s = .next (s.ended env (s.tagAt env a) .badConfig offset)
    (7 < group → bad 0x04) ∧
    (group ≤ 7 → (timeout = 0 → bad 0x05) ∧
    (1 ≤ timeout → (tries = 0 ∨ 7 < tries → bad 0x06) ∧
    (1 ≤ tries → tries ≤ 7 → (stub.toNat % 4 ≠ 0 → bad 0x08) ∧
    (stub.toNat % 4 = 0 → (base.toNat % 16 ≠ 0 ∨ 0x0FFFFFFF < base.toNat → bad 0x0C) ∧
    (base.toNat % 16 = 0 → base.toNat ≤ 0x0FFFFFFF → (size ∉ [16, 32, 64, 128, 256] → bad 0x10) ∧
    (size ∈ [16, 32, 64, 128, 256] → (0x10000000 < base.toNat + 16 * size → bad 0x0C) ∧
    (base.toNat + 16 * size ≤ 0x10000000 →
      exec (.configure env) s = .next (State.served { s with
        mem := s.mem.afterStores env.stores
        runs := s.runsRead
        config := some { group := BitVec.ofNat 3 group, seekTimeout := timeout, seekTries := tries, stub, ringBase := base,
                         ringSize := size }
        station := .configured
        notices := ({ s.notices with ring := some { base := base.toNat, size }, producer := 0, consumer := 0 } :
          NoticeUnit).testDrops.take (.commandDone (s.tagAt env a) .ok 0)
        commandQueue := s.commandQueue.tail
        command := none } .commandEngine))))))))

/-- START in CONFIGURED, with the transmit queue and the slots empty as R155 says they are: JOINING, the JOIN placed, the
START in progress. STOP in ACTIVE (R157): MODULES-PRESENT, or LEAVING with the LEAVE placed, or wanting a place while the
transmit queue is full; the slots are empty where the module table is. -/
def Obligations.StartAndStop : Prop :=
  (∀ (s : State) (env : Env) (a : Word), s.Holds env a .start → s.station = .configured → s.txQueue = [] →
    (∀ x ∈ s.slots, x = none) →
    exec (.start env) s = .next (State.served { s with
      mem := s.mem.afterStores env.stores, runs := s.runsRead
      station := .joining, busSeen := false, command := some (.start (s.tagAt env a)), txQueue := [.join], wanted := [] }
      .commandEngine)) ∧
  ∀ (s : State) (env : Env) (a : Word), s.Holds env a .stop → s.station = .active →
    (s.modules ≠ [] →
      exec (.stop env) s = .next (s.ended env (s.tagAt env a) .modulesPresent s.modules.length)) ∧
    (s.modules = [] → (∀ x ∈ s.slots, x = none) → s.txQueue.length < 32 →
      exec (.stop env) s = .next (State.served { s with
        mem := s.mem.afterStores env.stores, runs := s.runsRead
        station := .leaving, command := some (.stop (s.tagAt env a)), txQueue := s.txQueue ++ [.leave], wanted := [] }
        .commandEngine)) ∧
    (s.modules = [] → 32 ≤ s.txQueue.length →
      exec (.stop env) s = .next (State.served { s with
        mem := s.mem.afterStores env.stores, runs := s.runsRead
        station := .leaving, command := some (.stop (s.tagAt env a)), wanted := [.leave] } .commandEngine))

/-- The first pass of a LOAD: the descriptor address, then the header field by field, each fault at its field and each
resource tested at its own field (R17, R18, R23, R24); a descriptor that passes makes the LOADING record, with the segments
as the descriptor holds them (R17, R19). The whole pass, from the header over every segment, export and import record to the
site total, ends at the first check that fails in reading order, with its status and detail, and passes where none fails
(R17 to R24); that a word of a name field beyond local memory is a fault at the name field is log 13's reading. A step that
leaves the first pass between two words keeps the words read, and once
the module id is read the table holds, at its tail, the LOADING record with what has been read of it (R13, R17 to R19, R182;
logs 8, 15). The table that a pass taken up again tests is the one without that record. -/
def Obligations.LoadFirstPass : Prop :=
  (∀ (s : State) (env : Env) (a : Word), s.Holds env a .load → s.station = .active →
    let d := s.blockWord env a 1
    let ends := fun (status : Status) (detail : Nat) =>
      exec (.load env) s = .next (s.ended env (s.tagAt env a) status detail)
    let w0 := s.descriptorWord env d 0
    let w1 := s.descriptorWord env d 1
    let id := byteAt w0 0
    let segments := (byteAt w0 1).toNat
    let exports := (halfOf (byteAt w0 2) (byteAt w0 3)).toNat
    let imports := (halfOf (byteAt w1 0) (byteAt w1 1)).toNat
    let sites := (halfOf (byteAt w1 2) (byteAt w1 3)).toNat
    (d.toNat % 4 ≠ 0 ∨ 0x0FFFFFFF < d.toNat → ends .badCommand 0) ∧
    (d.toNat % 4 = 0 → d.toNat ≤ 0x0FFFFFFF → (s.readAcks env 2 d.toNat = false → ends .readError 0) ∧
    (s.readAcks env 2 d.toNat = true → (id = 0 → ends .badDescriptor 0x00) ∧
    (id ≠ 0 → ((∃ x ∈ s.otherModules, x.id = id) → ends .duplicateModule id.toNat) ∧
    ((∀ x ∈ s.otherModules, x.id ≠ id) → (32 ≤ s.otherModules.length → ends .noRoom 1) ∧
    (s.otherModules.length < 32 → (segments = 0 ∨ 4 < segments → ends .badDescriptor 0x01) ∧
    (1 ≤ segments → segments ≤ 4 → (128 < exports → ends .badDescriptor 0x02) ∧
    (exports ≤ 128 → (512 - s.directory.length < exports → ends .noRoom 2) ∧
    (exports ≤ 512 - s.directory.length → (0x0FFFFFFF < d.toNat + 4 → ends .badDescriptor 0x04) ∧
    (d.toNat + 4 ≤ 0x0FFFFFFF → (s.readAcks env 3 (d.toNat + 4) = false → ends .readError 4) ∧
    (s.readAcks env 3 (d.toNat + 4) = true → (256 < imports → ends .badDescriptor 0x04) ∧
    (imports ≤ 256 → (1024 - s.refs.length < imports → ends .noRoom 3) ∧
    (imports ≤ 1024 - s.refs.length → (16384 < sites → ends .badDescriptor 0x06) ∧
    (sites ≤ 16384 → 4096 - s.sitesInUse < sites → ends .noRoom 4))))))))))))) ∧
    (d.toNat % 4 = 0 → d.toNat ≤ 0x0FFFFFFF →
      (∀ e, firstFault (s.firstPassChecks (s.descriptorReading env d)) = some e → ends e.status e.detail) ∧
      (firstFault (s.firstPassChecks (s.descriptorReading env d)) = none →
        ∃ m, (s.forReading env).loadFirstPass env [d] = .ok m)) ∧
    (∀ e, (s.forReading env).loadFirstPass env [d] = .error e → ends e.status e.detail) ∧
    ∀ m, (s.forReading env).loadFirstPass env [d] = .ok m →
      m.id = id ∧ m.descriptor = d ∧ m.segmentCount = segments ∧ m.segments.length = segments ∧
      m.exportCount = exports ∧ m.importCount = imports ∧ m.siteCount = sites ∧ m.state = .loading ∧
      (∀ (i : Nat) (g : Segment), m.segments[i]? = some g →
        g.base = s.descriptorWord env d (2 + 2 * i) ∧ g.length = s.descriptorWord env d (3 + 2 * i)) ∧
      (∀ g ∈ m.segments, 1 ≤ g.length.toNat ∧ g.length.toNat ≤ 16777216 ∧ g.base.toNat + g.length.toNat ≤ 0x10000000) ∧
      exec (.load env) s = .next (State.served { s with
        mem := s.mem.afterStores env.stores, runs := s.runsRead
        modules := s.otherModules ++ [m]
        command := some (.loadCommit (s.tagAt env a) m.id 0 0 (8 + 8 * segments) 0) } .commandEngine)) ∧
  ∀ (s : State) (env : Env) (a : Word) (p : Nat), s.Block env a .load → s.station = .active →
    s.leavesAfter .commandEngine env p → 2 ≤ s.runs.fetched.length + p →
    let d := s.blockWord env a 1
    let n := s.runs.fetched.length + p - 2
    let words := (List.range n).map (s.descriptorWord env d)
    let left := s.leftReading env ([s.blockWord env a 0, d] ++ words)
    let w0 := s.descriptorWord env d 0
    let w1 := s.descriptorWord env d 1
    (∃ e, (s.forReading env).loadFirstPass { env with failAt := some p } [d] = .error e ∧ e.status = .readError) →
    (n = 0 → exec (.load env) s = .next left) ∧
    (1 ≤ n → byteAt w0 0 ≠ 0 ∧ (∀ x ∈ s.otherModules, x.id ≠ byteAt w0 0) ∧ s.otherModules.length < 32 ∧
      ∃ m, exec (.load env) s = .next (State.served { left with modules := s.otherModules ++ [m] } .commandEngine) ∧
        m.id = byteAt w0 0 ∧ m.descriptor = d ∧ m.state = .loading ∧ m.segmentCount = (byteAt w0 1).toNat ∧
        m.exportCount = (halfOf (byteAt w0 2) (byteAt w0 3)).toNat ∧
        (2 ≤ n → m.importCount = (halfOf (byteAt w1 0) (byteAt w1 1)).toNat ∧
          m.siteCount = (halfOf (byteAt w1 2) (byteAt w1 3)).toNat) ∧
        m.segments.length = min m.segmentCount ((n - 2) / 2) ∧
        ∀ (i : Nat) (g : Segment), m.segments[i]? = some g →
          g.base = s.descriptorWord env d (2 + 2 * i) ∧ g.length = s.descriptorWord env d (3 + 2 * i))

/-- UNLOAD in ACTIVE (R32 to R35): UNKNOWN-MODULE, or the module given up; it completes at once, with COMMAND-DONE OK and
the module id, if the module then owns no entry of the directory. A seek slot that the removal empties is freed and the
backlog served (R78); a walk of the module stops, its site transfer completing only where it had begun (R125; log 9's
operand). A frame in contention for an answer of the module is abandoned (R49, R135). The order of the WITHDRAWs is log 26's
reading. The tables after the serving are those of R78 (State.RefsRemoved, State.ServedFrom). -/
def Obligations.UnloadOutcomes : Prop :=
  ∀ (s : State) (env : Env) (a : Word), s.Holds env a .unload → s.station = .active →
    let m := byteAt (s.blockWord env a 1) 3
    ((∀ x ∈ s.modules, x.id ≠ m) →
      exec (.unload env) s = .next (s.ended env (s.tagAt env a) .unknownModule m.toNat)) ∧
    ((∃ x ∈ s.modules, x.id = m) →
      ∃ t, exec (.unload env) s = .next t ∧ s.GivenUp t m env.siteBegun ∧
        s.Removed t env m (.unload (s.tagAt env a) m) (s.tagAt env a) .ok m.toNat)

/-- RESEEK in ACTIVE (R82, R83): UNKNOWN-MODULE, or every WAITING or FAULTED reference of the modules concerned goes through
seek entry, R64 to R67, in table order, and gets its phase by the first step that applies; a slot it takes obtains its SEEK
(R69), those that need a walk join the patch queue in table order (R63); the others stay as they are, and COMMAND-DONE gives the
number sent there. -/
def Obligations.ReseekOutcomes : Prop :=
  ∀ (s : State) (env : Env) (a : Word), s.Holds env a .reseek → s.station = .active →
    let m := byteAt (s.blockWord env a 1) 3
    let hit := fun r : Ref =>
      (decide (r.phase.code = 3) || decide (r.phase.code = 6)) && (decide (m = 0) || decide (r.owner.module = m))
    (m ≠ 0 → (∀ x ∈ s.modules, x.id ≠ m) →
      exec (.reseek env) s = .next (s.ended env (s.tagAt env a) .unknownModule m.toNat)) ∧
    ((m = 0 ∨ ∃ x ∈ s.modules, x.id = m) → s.SeekLaw →
      ∃ t, exec (.reseek env) s = .next t ∧
        ReferenceFrame { s with mem := s.mem.afterStores env.stores,
                                runs := s.runsRead, commandQueue := s.commandQueue.tail, command := none } t ∧
        s.SeekEntries t hit ∧
        s.PostsInTurn t (s.entryFaults t hit) [.commandDone (s.tagAt env a) .ok (s.refs.countP hit)])

/-- REPORT (R172, R173): the arguments tested in order, the first that fails ending it; then the listing begins, or ends
at once where its selector has no record. -/
def Obligations.ReportOutcomes : Prop :=
  ∀ (s : State) (env : Env) (a : Word), s.Holds env a .report →
    let w := s.blockWord env a 1
    let m := byteAt w 1
    let capacity := (halfOf (byteAt w 2) (byteAt w 3)).toNat
    let buffer := (s.blockWord env a 2).toNat
    let ends := fun (status : Status) (detail : Nat) =>
      exec (.report env) s = .next (s.ended env (s.tagAt env a) status detail)
    (selectorOfCode (byteAt w 0) = none → ends .badCommand 0) ∧
    ∀ sel, selectorOfCode (byteAt w 0) = some sel →
      (buffer % 16 ≠ 0 ∨ 0x0FFFFFFF < buffer → ends .badCommand 0) ∧
      (buffer % 16 = 0 → buffer ≤ 0x0FFFFFFF → (capacity = 0 ∨ 256 < capacity → ends .badCommand 0) ∧
      (1 ≤ capacity → capacity ≤ 256 →
        (0x10000000 < buffer + capacity * sel.recordSize → ends .badCommand 0) ∧
        (buffer + capacity * sel.recordSize ≤ 0x10000000 →
          ((sel = .exports ∨ sel = .references) → (∀ x ∈ s.modules, x.id ≠ m) → ends .unknownModule m.toNat) ∧
          ((sel = .station ∨ sel = .peers ∨ sel = .modules ∨ ∃ x ∈ s.modules, x.id = m) →
            (s.reportRecord sel m 0 = none → ends .ok 0) ∧
            (∀ words, s.reportRecord sel m 0 = some words →
              exec (.report env) s = .next (State.served { s with
                mem := s.mem.afterStores env.stores, runs := s.runsRead
                command := some (.report (s.tagAt env a) sel m buffer capacity 0) } .commandEngine))))))

/-! ## The later steps of LOAD and REPORT -/

/-- The records of a descriptor as R184 lays them out and R19 to R21 require them: with every read acknowledged, a segment,
export, site or import record is read exactly where the bytes at its offset hold it. Where one is not read, it ends with the
first check that fails, in reading order: the fault at its field, or the read that is not acknowledged (R19 to R24). The
commit pass reads its next record so again, with the key tested against the directory and the running sum against the site
total (R25, R26, R29). That a word of a name field beyond local memory is a fault at the name field is log 13's reading, and that
the sum is tested after the record's own checks is log 14's. -/
def Obligations.DescriptorRecords : Prop :=
  (∀ (r : Reading) (segments : List Segment) (off : Nat), r.env.failAt = none → off % 4 = 0 →
    (∀ g : Segment, r.base + off + 8 ≤ 0x10000000 →
      (r.segment off = .ok g ↔
        g.base = r.content (off / 4) ∧ g.length = r.content (off / 4 + 1) ∧ 1 ≤ g.length.toNat ∧
        g.length.toNat ≤ 16777216 ∧ g.base.toNat + g.length.toNat ≤ 0x10000000)) ∧
    (∀ x : ExportRecord, r.base + off + 36 ≤ 0x10000000 →
      (r.exportRecord segments off = .ok x ↔
        r.NameAt off x.name ∧ scopeOfCode (r.byte (off + 0x1C)) = some x.scope ∧
        kindOfCode (r.byte (off + 0x1D)) = some x.kind ∧ segments[(r.byte (off + 0x1E)).toNat]? = some x.segment ∧
        x.offset = r.content (off / 4 + 8) ∧ x.offset.toNat < x.segment.length.toNat)) ∧
    (∀ x : Site, r.base + off + 16 ≤ 0x10000000 → (r.site segments off = .ok x ↔ r.SiteAt segments off x)) ∧
    (∀ x : ImportRecord, r.base + off + 32 + 16 * x.sites.length ≤ 0x10000000 →
      (r.importRecord segments off = .ok x ↔
        r.NameAt off x.name ∧ scopeOfCode (r.byte (off + 0x1C)) = some x.scope ∧
        expectedOfCode (r.byte (off + 0x1D)) = some x.expected ∧ (r.byte (off + 0x1E)).toNat = x.sites.length ∧
        1 ≤ x.sites.length ∧ x.sites.length ≤ 64 ∧
        ∀ (i : Nat) (y : Site), x.sites[i]? = some y → r.SiteAt segments (off + 32 + 16 * i) y))) ∧
  (∀ (r : Reading) (segments : List Segment) (off : Nat) (e : Ending), off % 4 = 0 →
    (r.segment off = .error e ↔ firstFault (r.segmentChecks off) = some e) ∧
    (r.exportRecord segments off = .error e ↔ firstFault (r.exportChecks segments off) = some e) ∧
    (r.site segments off = .error e ↔ firstFault (r.siteChecks segments off) = some e) ∧
    (r.importRecord segments off = .error e ↔ firstFault (r.importChecks segments off) = some e)) ∧
  ∀ (s : State) (env : Env) (tag : Half) (m : Byte) (i j off sum : Nat) (rec : ModuleRecord) (e : Ending), off % 4 = 0 →
    s.command = some (.loadCommit tag m i j off sum) → s.module? m = some rec → s.wanted = [] →
    let r := s.recordReading env rec off
    let fails := (s.forTransfers env).readCommit env = some (.error e)
    (i < rec.exportCount →
      (fails ↔ firstFault (r.exportChecks rec.segments off ++ [s.keyCheck r [] off]) = some e)) ∧
    (rec.exportCount ≤ i → j < rec.importCount →
      (fails ↔ firstFault (r.importChecks rec.segments off ++
        [fieldCheck (decide (sum + r.siteCount off ≤ rec.siteCount)) (off + 0x1E)]) = some e))

/-- LOAD_COMMIT_EXPORT on a good record (R25, R8, R9): the PENDING entry with its key, target and generation, the
generation counter advanced, the ANNOUNCE placed, or wanting a place while the transmit queue is full. A step that leaves
the record between two words keeps the words read (R182; logs 8, 15). -/
def Obligations.CommitExport : Prop :=
  (∀ (s : State) (env : Env) (tag : Half) (m : Byte) (i j off sum : Nat) (rec : ModuleRecord) (x : ExportRecord),
    s.ReadsRecord env → s.station ≠ .isolated →
    s.command = some (.loadCommit tag m i j off sum) → s.module? m = some rec → i < rec.exportCount → s.wanted = [] →
    (s.forTransfers env).readCommit env = some (.ok (.exported x)) →
    let key : Key := { scope := x.scope, group := s.ownGroup, name := x.name }
    let target := BitVec.ofNat 32 (s.number.val * 0x10000000 + (x.segment.base.toNat + x.offset.toNat))
    let entered : State := { s with
      mem := s.mem.afterStores env.stores, runs := s.runsRead
      directory := s.directory ++ [{ key, owner := { module := m, index := i }, target, kind := x.kind,
                                     generation := s.nextGeneration, state := .pending }]
      nextGeneration := if s.nextGeneration = 65535 then 1 else s.nextGeneration + 1
      command := some (.loadCommit tag m (i + 1) j (off + 36) sum) }
    (s.txQueue.length < 32 → s.NoneWaiting →
      exec (.loadCommitExport env) s =
        .next (State.served { entered with txQueue := s.txQueue ++ [.announce key s.nextGeneration target x.kind] }
          .commandEngine)) ∧
    (32 ≤ s.txQueue.length →
      exec (.loadCommitExport env) s =
        .next (State.served { entered with wanted := [.announce key s.nextGeneration target x.kind] } .commandEngine))) ∧
  ∀ (s : State) (env : Env) (tag : Half) (m : Byte) (i j off sum p : Nat) (rec : ModuleRecord),
    s.command = some (.loadCommit tag m i j off sum) → s.module? m = some rec → i < rec.exportCount →
    s.LeavesRecord env p →
    exec (.loadCommitExport env) s = .next
      (s.leftReading env (s.runs.fetched ++ (List.range p).map fun q =>
        (s.mem.afterStores env.stores).word (rec.descriptor.toNat + off + 4 * (s.runs.fetched.length + q))))

/-- LOAD_COMMIT_IMPORT on a good record (R26, R64 to R67): the reference with its sites and no binding is passed to seek
entry, which gives its phase by the first step that applies, and joins the tail of the patch queue, whose members keep their
places (R63, R108). It changes no slot but the free one it takes, which obtains its SEEK (R69), and the backlog only by joining its
tail. A step that leaves the record between two words keeps the words read (R182; logs 8, 15). -/
def Obligations.CommitImport : Prop :=
  (∀ (s : State) (env : Env) (tag : Half) (m : Byte) (i j off sum : Nat) (rec : ModuleRecord) (x : ImportRecord),
    s.ReadsRecord env →
    s.command = some (.loadCommit tag m i j off sum) → s.module? m = some rec → rec.exportCount ≤ i →
    (s.forTransfers env).readCommit env = some (.ok (.imported x)) →
    (∀ r ∈ s.refs, r.owner ≠ { module := m, index := j }) →
    let key : Key := { scope := x.scope, group := s.ownGroup, name := x.name }
    let owner : Owner := { module := m, index := j }
    let binds := fun (p : Phase) (b : Binding) =>
      p = if x.expected.accepts b.kind then .patching b else .faulted .kind
    ∃ t p, exec (.loadCommitImport env) s = .next t ∧
      ReferenceFrame { s with
        mem := s.mem.afterStores env.stores, runs := s.runsRead
        command := some (.loadCommit tag m i (j + 1) (off + 32 + 16 * x.sites.length) (sum + x.sites.length)) } t ∧
      t.refs = s.refs ++ [{ key, owner, expected := x.expected, sites := x.sites, phase := p, reflect := .none }] ∧
      owner ∈ t.patchQueue ∧ t.WalksJoined s.patchQueue ∧
      (owner ∉ s.patchQueue → (∀ r ∈ s.refs, r.owesWalk = true → r.owner ∈ s.patchQueue) →
        t.patchQueue = s.patchQueue ++ [owner]) ∧
      s.Granted t s.wanted ∧ s.PostsInTurn t (if p = .faulted .kind then [kindFault owner] else []) [] ∧
      (∀ e, s.directory.find? (fun e => e.key.agrees key && e.isLive) = some e →
        binds p { definer := s.number, generation := e.generation, target := e.target, kind := e.kind } ∧ s.SeeksKept t) ∧
      ((∀ e ∈ s.directory, e.key.agrees key = true → e.isLive = false) →
        (∀ q b, s.refs.find? (fun q => q.key.agrees key && q.phase.binding?.isSome) = some q →
          q.phase.binding? = some b → binds p b ∧ s.SeeksKept t) ∧
        ((∀ q ∈ s.refs, q.key.agrees key = true → q.phase.binding? = none) →
          (∀ n, s.slotOf key = some n → p = .seeking n ∧ s.SeeksKept t) ∧
          (s.slotOf key = none →
            (∀ n, s.freeSlot = some n → p = .seeking n ∧ t.backlog = s.backlog ∧ ∃ y : Slot,
              t.slots[n]? = some (some y) ∧ y.key = key ∧ y.state = .toSend ∧ y.tries = 1 ∧ y.timer = false ∧
              t.slotsUnasked = s.slotsUnasked.set n (some y.unasked) ∧ s.SeekObtained t n y) ∧
            (s.freeSlot = none → p = .queued ∧ t.slotsUnasked = s.slotsUnasked ∧ t.backlog = s.backlog ++ [owner]))))) ∧
  ∀ (s : State) (env : Env) (tag : Half) (m : Byte) (i j off sum p : Nat) (rec : ModuleRecord),
    s.command = some (.loadCommit tag m i j off sum) → s.module? m = some rec → rec.exportCount ≤ i →
    s.LeavesRecord env p →
    exec (.loadCommitImport env) s = .next
      (s.leftReading env (s.runs.fetched ++ (List.range p).map fun q =>
        (s.mem.afterStores env.stores).word (rec.descriptor.toNat + off + 4 * (s.runs.fetched.length + q))))

/-- LOAD_COMMIT_END (R28): the derived state, MODULE-STATE, COMMAND-DONE with the module id. The derived state is that of
R30's table. The memory agent's grant is then settled, as MemoryUnchangedWithoutTransfers says: the model's reading of R182
(log 8, DEDUCED). -/
def Obligations.CommitEnd : Prop :=
  (∀ phases : List Phase, Dictates phases (derivedState phases)) ∧
  ∀ (s : State) (tag : Half) (m : Byte) (i j off sum : Nat) (rec : ModuleRecord),
    s.inReset = false → s.command = some (.loadCommit tag m i j off sum) → s.module? m = some rec → s.wanted = [] →
    rec.exportCount ≤ i → rec.importCount ≤ j →
    exec .loadCommitEnd s = .next (State.settleAgent { s with
      modules := s.modules.map fun x => if x.id = m then { x with state := derivedState (s.phasesOf m) } else x
      notices := (s.notices.take (.moduleState m (derivedState (s.phasesOf m)))).take (.commandDone tag .ok m.toNat)
      commandQueue := s.commandQueue.tail
      command := none })

/-- A commit pass that finds its next record at fault (R29): the module is given up, and the LOAD ends with the status of
the fault once the module owns no entry. That the row of the record itself then does the same as LOAD_COMMIT_FAULT is the
model's choice (log 15). A seek slot that the removal empties is freed and the backlog served, and a walk of the module
stops, its site transfer completing only where it had begun (R34, R125; log 9's operand). A frame in contention for an
answer of the module is abandoned (R49, R135). The order of the WITHDRAWs is log 26's reading. The tables after the serving are
those of R78 (State.RefsRemoved, State.ServedFrom). -/
def Obligations.CommitFault : Prop :=
  ∀ (s : State) (env : Env) (tag : Half) (m : Byte) (i j off sum : Nat) (rec : ModuleRecord) (e : Ending),
    s.ReadsRecord env → s.station ≠ .isolated →
    s.command = some (.loadCommit tag m i j off sum) → s.module? m = some rec →
    (s.forTransfers env).readCommit env = some (.error e) →
    (∃ t, exec (.loadCommitFault env) s = .next t ∧ s.GivenUp t m env.siteBegun ∧
      s.Removed t env m (.loadTakeOut tag m e) tag e.status e.detail) ∧
    (i < rec.exportCount → exec (.loadCommitExport env) s = exec (.loadCommitFault env) s) ∧
    (rec.exportCount ≤ i → exec (.loadCommitImport env) s = exec (.loadCommitFault env) s)

/-- REPORT_RECORD_WRITE (R173, R175, R187). The content of the record, fixed when it is taken, has the layout of R187; the
words of it still to be written are written at its place, up to the record's end or to where the step leaves it (R182;
logs 8, 29). At its end follows the end of the listing, the listing cut short at the capacity, or the next record; a word
not acknowledged ends the REPORT with WRITE-ERROR and holds an unknown value (the free value of log 6). A listing whose next
record is gone when it is reached ends with the records written. The codes in records, command blocks, the window and frames
are those the manual lists (R129, R165, R183, R185, R187, R188). -/
def Obligations.ReportRecordWrite : Prop :=
  (∀ (s : State) (sel : Selector) (m : Byte) (n : Nat) (words : List Word), s.reportRecord sel m n = some words →
    s.RecordLayout sel m n words) ∧
  CodesAsListed ∧
  (∀ (s : State) (env : Env) (tag : Half) (sel : Selector) (m : Byte) (buffer capacity n : Nat), s.inReset = false →
    s.command = some (.report tag sel m buffer capacity n) → s.runs.record = none → s.reportRecord sel m n = none →
    env.upTo ≠ some 0 →
    exec (.reportRecordWrite env) s = .next (State.settleAgent { s with
      notices := s.notices.take (.commandDone tag .ok n), commandQueue := s.commandQueue.tail, command := none })) ∧
  ∀ (s : State) (env : Env) (tag : Half) (sel : Selector) (m : Byte) (buffer capacity n : Nat) (x : TakenRecord),
    s.inReset = false → s.command = some (.report tag sel m buffer capacity n) →
    (s.runs.record = some x ∨ (s.runs.record = none ∧ x.written = 0 ∧ s.reportRecord sel m n = some x.words)) →
    (env.upTo = some 0 → exec (.reportRecordWrite env) s = .next { s with runs := { s.runs with record := some x } }) ∧
    (env.upTo ≠ some 0 → .commandEngine ∈ s.granted →
      let left := x.words.drop x.written
      let now := match (s.runEnv .commandEngine env).upTo with
        | some p => left.take p
        | none => left
      let place := n * sel.recordSize + 4 * x.written
      let mem := s.mem.afterStores env.stores
      let rest : Runs := { s.runs with record := none }
      let ended := fun (mem : Memory) (drawn : Nat) (status : Status) (detail : Nat) => ({ s with
        mem, freeCount := s.freeCount + drawn, runs := rest
        notices := s.notices.take (.commandDone tag status detail)
        commandQueue := s.commandQueue.tail, command := none } : State).served .commandEngine
      ((∀ i, i < now.length → acks env i (buffer + place + 4 * i) = true) →
        (now.length < left.length →
          exec (.reportRecordWrite env) s = .next (State.served { s with
            mem := mem.setWords (buffer + place) now
            runs := { s.runs with record := some { x with written := x.written + now.length } } } .commandEngine)) ∧
        (now.length = left.length →
          (s.reportRecord sel m (n + 1) = none →
            exec (.reportRecordWrite env) s = .next (ended (mem.setWords (buffer + place) now) 0 .ok (n + 1))) ∧
          (s.reportRecord sel m (n + 1) ≠ none → capacity ≤ n + 1 →
            exec (.reportRecordWrite env) s =
              .next (ended (mem.setWords (buffer + place) now) 0 .ok (n + 1 + 0x80000000))) ∧
          (s.reportRecord sel m (n + 1) ≠ none → n + 1 < capacity →
            exec (.reportRecordWrite env) s = .next (State.served { s with
              mem := mem.setWords (buffer + place) now, runs := rest
              command := some (.report tag sel m buffer capacity (n + 1)) } .commandEngine)))) ∧
      ∀ k, k < now.length → (∀ i, i < k → acks env i (buffer + place + 4 * i) = true) →
        acks env k (buffer + place + 4 * k) = false →
        exec (.reportRecordWrite env) s = .next (ended
          ((mem.setWords (buffer + place) (now.take k)).setWord (buffer + place + 4 * k) (Config.unknownWord s.freeCount))
          1 .writeError (place + 4 * k)))

/-! ## The line of the binding bus -/

/-- FRAME_BEGIN (R50, R132, R133, R134). The station begins a frame only on the bus, with no outgoing frame, the bus free,
and its receive queue empty: otherwise nothing happens. It takes the head member of the answer list, whose entry gives the
OFFER or the CLASH; only with the answer list empty the head of the transmit queue, which must pass its check, and is
dropped where it does not, its place going to the waiting slot of lowest number, else to the Command Engine's request, else
to none (R138). With nothing to send, nothing happens. -/
def Obligations.FrameBegin : Prop :=
  ∀ (s : State) (idle : Nat),
    let free := s.line = .quiet ∧ s.held = none ∧ 12 ≤ idle ∧ (s.busSeen = true ∨ 48 ≤ idle)
    (s.onBus = false ∨ s.outgoing ≠ none ∨ ¬ free ∨ s.rxQueue ≠ [] → exec (.frameBegin idle) s = .next s) ∧
    (s.onBus = true → s.outgoing = none → free → s.rxQueue = [] →
      (∀ (a : Answer) (as : List Answer) (e : ExportEntry), s.answers = a :: as → e ∈ s.directory → e.owner = a.owner →
        (s.directory.map (·.owner)).Nodup →
        (e.state.owed = [] →
          exec (.frameBegin idle) s = .next (State.settleAgent { s with
            busSeen := true
            line := .contending (.answer a.owner)
              { sender := s.number, sequence := s.nextSequence, group := s.ownGroup
                body := .offer e.key.scope e.key.name e.generation e.target e.kind } })) ∧
        (e.state.owed ≠ [] →
          exec (.frameBegin idle) s = .next (State.settleAgent { s with
            busSeen := true
            line := .contending (.answer a.owner)
              { sender := s.number, sequence := s.nextSequence, group := s.ownGroup
                body := .clash e.key.scope e.key.name s.number e.generation e.target e.kind e.state.owed } }))) ∧
      (s.answers = [] → s.txQueue = [] → exec (.frameBegin idle) s = .next s.settleAgent) ∧
      ∀ (x : TxEntry) (xs : List TxEntry), s.answers = [] → s.txQueue = x :: xs →
        let passes := match x with
          | .join => True
          | .leave => True
          | .withdraw _ _ => True
          | .announce k g _ _ => ∃ e ∈ s.directory, e.key.agrees k = true ∧ e.generation = g ∧ e.state = .pending
          | .seek n k => ∃ y, s.slots[n]? = some (some y) ∧ y.key.agrees k = true ∧ y.state = .toSend
        (passes → exec (.frameBegin idle) s = .next (State.settleAgent { s with
          busSeen := true
          line := .contending .queue
            { sender := s.number, sequence := s.nextSequence, group := s.ownGroup, body := x.body } })) ∧
        (¬ passes →
          let dropped := fun t : State => exec (.frameBegin idle) s = exec (.frameBegin idle) t
          (s.NoneWaiting → dropped { s with txQueue := xs }) ∧
          (xs.length = 31 → ∀ k y, s.FirstWaiting k y → dropped { s with
            txQueue := xs ++ [.seek k y.key], slots := s.slots.set k (some { y with awaitingRoom := false }) }) ∧
          (xs.length = 31 → (∀ y, some y ∈ s.slots → y.awaitingRoom = true → y.state ≠ .toSend) →
            ∀ c cs, s.wanted = c :: cs → dropped { s with txQueue := xs ++ [c], wanted := cs })))

/-- The events that end or renew the station's own sending. A contender that sends a 1 bit of its key and reads a 0 stops,
its frame staying where it was (R135). A sender that reads a 0 for a 1 after its key loses its outgoing frame (R136). The
sender of a held frame repeats it after 12 bit times of idle line, with the content it has (R140). -/
def Obligations.SendingStopsAndRepeats : Prop :=
  (∀ (s : State) (source : Source) (f : Frame) (bit : Nat), s.inReset = false → s.line = .contending source f → bit < 6 →
    (f.body.frameClass * 16 + f.sender.val).testBit bit = true →
    exec (.contentionLost bit) s = .next { s with line := .quiet }) ∧
  (∀ (s : State) (o : Outgoing) (pos : Nat), s.inReset = false → s.line = .sending → s.outgoing = some o → 6 ≤ pos →
    o.frame.bits[pos]? = some true →
    exec (.senderBitMismatch pos) s = .next { s with line := .quiet, outgoing := none }) ∧
  ∀ (s : State) (o : Outgoing) (idle : Nat), s.listens = true → s.line = .quiet → s.outgoing = some o → 1 ≤ o.holds →
    12 ≤ idle → exec (.repeatFrame idle) s = .next { s with line := .sending }

/-- CONTENTION_WON (R130, R136, R138, R50): the frame becomes the outgoing frame with hold count 0 and the sequence
advances. A queued frame leaves the queue, and its place goes to the waiting slot of lowest number, else to the Command
Engine's request, else stays free; an answer's member leaves the list and its entry's owed refused list is cleared. -/
def Obligations.ContentionWon : Prop :=
  ∀ (s : State) (source : Source) (f : Frame), s.inReset = false → s.line = .contending source f →
    let won : State := { s with
      line := .sending, outgoing := some { frame := f, holds := 0, stalled := false }, nextSequence := s.nextSequence + 1 }
    (∀ o, source = .answer o →
      exec .contentionWon s = .next (State.settleAgent { won with
        answers := s.answers.filter fun a => decide (a.owner ≠ o)
        directory := s.directory.map fun e => if e.owner = o ∧ e.isLive = true then { e with state := .live [] } else e })) ∧
    ∀ (x : TxEntry) (xs : List TxEntry), source = .queue → s.txQueue = x :: xs → s.station ≠ .isolated →
      (s.NoneWaiting → exec .contentionWon s = .next (State.settleAgent { won with txQueue := xs })) ∧
      (xs.length = 31 → ∀ k y, s.FirstWaiting k y →
        exec .contentionWon s = .next (State.settleAgent { won with
          txQueue := xs ++ [.seek k y.key], slots := s.slots.set k (some { y with awaitingRoom := false }) })) ∧
      (xs.length = 31 → (∀ y, some y ∈ s.slots → y.awaitingRoom = true → y.state ≠ .toSend) →
        ∀ c cs, s.wanted = c :: cs → exec .contentionWon s =
          .next (State.settleAgent { won with txQueue := xs ++ [c], wanted := cs }))

/-- The arrival tests on a frame whose hold window begins, and the frame cut off (R131, R139, R143, R144): a bad frame is
held; the repeat of a held frame this station took is discarded; a frame is held for a lapse marker of its sender or a full
receive queue; otherwise it is taken, and its sender's last sequence set. Test 2 is `DuplicateNumberIsolates`. Fewer bits
than a key are a fragment, of which nothing is recorded (log 20). -/
def Obligations.ArrivalTests : Prop :=
  (∀ (s : State) (bits : List Bool) (begun : Bool), s.listens = true → (s.line = .quiet ∨ s.line = .sending) →
    6 ≤ bits.length →
    let window := fun (n : Station) (q : Option Byte) (x : Arrival) =>
      Line.window { sender := n, sequence := q, arrival := x, own := decide (s.line = .sending) }
    (readFrame bits = none →
      exec (.frameArrival bits begun) s =
        .next { s with line := window (readSender bits) (readSequence bits) .heldBad }) ∧
    (∀ quiet, 2 ≤ quiet → (bits.length < 29 ∨ bits.length < declaredLength bits) →
      exec (.frameCutOff bits quiet) s =
        .next { s with line := window (readSender bits) (readSequence bits) .heldBad }) ∧
    ∀ f, readFrame bits = some f → (f.sender ≠ s.number ∨ s.line = .sending) →
      let again := ∃ h, s.held = some h ∧ h.took = true ∧ h.sender = f.sender ∧ h.sequence = some f.sequence
      let answers := fun x : Arrival =>
        exec (.frameArrival bits begun) s = .next { s with line := window f.sender (some f.sequence) x }
      (again → answers .discarded) ∧
      (¬ again → (RxItem.lapse f.sender ∈ s.rxQueue ∨ 32 ≤ s.rxFrames) → answers .heldFull) ∧
      (¬ again → RxItem.lapse f.sender ∉ s.rxQueue → s.rxFrames < 32 →
        exec (.frameArrival bits begun) s = .next { s with
          line := window f.sender (some f.sequence) .taken
          rxQueue := s.rxQueue ++ [.frame f]
          peers := s.peers.modify f.sender.val fun p => { p with lastSequence := f.sequence } })) ∧
  ∀ (s : State) (bits : List Bool) (begun : Bool) (quiet : Nat), (s.listens = false ∨ bits.length < 6) →
    exec (.frameArrival bits begun) s = .next s ∧ exec (.frameCutOff bits quiet) s = .next s

/-- A duplicate of the station number isolates the station: a good frame of the own number that it did not send to its end,
or the lapse of a reservation of the own number (R145, R148, R162, R36, R57, R85). The module of an abandoned LOAD or UNLOAD
goes with all it owns, the backlog being served where that frees a slot (R78), and the other modules keep what they hold
(R36, R163). Every slot keeps its key, state and try count (R85), and the walk and its site transfer go on (R126). Where the
reservation has lapsed, the station has seen that none runs (R132; log 31's bit, DEDUCED); a frame of the own number leaves
what it has seen. That the outgoing frame is cleared is the model's reading (log 16), and that a command whose block has been
read in part only stays on the queue, with STATION-ISOLATED alone posted, is the model's choice (log 40; the clause goesOn of
State.Isolated). -/
def Obligations.DuplicateNumberIsolates : Prop :=
  (∀ (s : State) (bits : List Bool) (begun : Bool) (f : Frame), s.listens = true → s.line = .quiet → 6 ≤ bits.length →
    readFrame bits = some f → f.sender = s.number →
    ∃ t, exec (.frameArrival bits begun) s = .next t ∧ s.Isolated t (s.siteBegan begun) ∧ t.busSeen = s.busSeen) ∧
  ∀ (s : State) (idle : Nat) (begun : Bool) (h : HeldRecord), s.listens = true → s.line = .quiet → s.outgoing = none →
    48 ≤ idle → s.held = some h → h.sender = s.number →
    ∃ t, exec (.reservationLapse idle begun) s = .next t ∧ s.Isolated t (s.siteBegan begun) ∧ t.busSeen = true

/-- HOLD_WINDOW_END (R139, R141, R158). Not held: the held-frame record is cleared, the sender's outgoing frame is carried
and cleared, and the last carriage of the own LEAVE ends the STOP. Held: the record is made, but kept where it says this
station took the frame and the repeat is discarded or bad; the sender counts the hold, and posts BUS-STALL once, when the
count reaches 16. -/
def Obligations.HoldWindowEnd : Prop :=
  ∀ (s : State) (w : Window) (othersPull : Bool), s.inReset = false → s.line = .window w →
    let held := othersPull = true ∨ w.arrival = .heldBad ∨ w.arrival = .heldFull
    let carried : State := { s with held := none, line := .quiet, busSeen := true }
    (¬ held → w.own = false → exec (.holdWindowEnd othersPull) s = .next carried) ∧
    (¬ held → w.own = true → s.station ≠ .configured →
      exec (.holdWindowEnd othersPull) s = .next { carried with outgoing := none }) ∧
    (∀ tag, ¬ held → w.own = true → s.station = .configured → s.command = some (.stop tag) →
      exec (.holdWindowEnd othersPull) s = .next (State.settleAgent { carried with
        outgoing := none, txQueue := [], rxQueue := []
        notices := s.notices.take (.commandDone tag .ok 0), commandQueue := s.commandQueue.tail, command := none })) ∧
    (held →
      ∃ record : HeldRecord,
        ((∃ h, s.held = some h ∧ h.took = true ∧ (w.arrival = .discarded ∨ w.arrival = .heldBad)) → s.held = some record) ∧
        ((¬ ∃ h, s.held = some h ∧ h.took = true ∧ (w.arrival = .discarded ∨ w.arrival = .heldBad)) →
          record = { sender := w.sender, sequence := w.sequence, took := decide (w.arrival = .taken) }) ∧
        (w.own = false ∨ s.outgoing = none →
          exec (.holdWindowEnd othersPull) s = .next { s with held := some record, line := .quiet }) ∧
        ∀ o, w.own = true → s.outgoing = some o →
          ((o.holds + 1 < 16 ∨ o.stalled = true) →
            exec (.holdWindowEnd othersPull) s = .next { s with
              held := some record, line := .quiet, outgoing := some { o with holds := o.holds + 1 } }) ∧
          (16 ≤ o.holds + 1 → o.stalled = false →
            exec (.holdWindowEnd othersPull) s = .next (State.settleAgent { s with
              held := some record, line := .quiet, outgoing := some { o with holds := o.holds + 1, stalled := true }
              notices := s.notices.take .busStall })))

/-- RESERVATION_LAPSE (R132, R145, R146): after 48 bit times of idle line the held-frame record is cleared and a lapse
marker of its sender, another station, joins the receive queue unless one is there. The own number is
`DuplicateNumberIsolates`. A station without a record only learns that no reservation runs (log 18). -/
def Obligations.ReservationLapse : Prop :=
  ∀ (s : State) (idle : Nat) (begun : Bool), s.listens = true → s.line = .quiet → s.outgoing = none → 48 ≤ idle →
    (s.held = none → exec (.reservationLapse idle begun) s = .next { s with busSeen := true }) ∧
    ∀ h, s.held = some h → h.sender ≠ s.number →
      (RxItem.lapse h.sender ∈ s.rxQueue →
        exec (.reservationLapse idle begun) s = .next { s with held := none, busSeen := true }) ∧
      (RxItem.lapse h.sender ∉ s.rxQueue →
        exec (.reservationLapse idle begun) s =
          .next { s with held := none, busSeen := true, rxQueue := s.rxQueue ++ [.lapse h.sender] })

/-! ## Receive processing -/

/-- SEEK_TAKEN, another station's SEEK (R47, R48, R72, R160): a LIVE entry of its key comes to owe an OFFER, a slot of its
key in TO-SEND enters OUT with its timer running and its request withdrawn, and the sender is marked present. That a
member which owes only a CLASH comes to owe the OFFER too is the model's reading of R47 by R48's table (log 36). -/
def Obligations.SeekTaken : Prop :=
  ∀ (s : State) (f : Frame) (rest : List RxItem) (scope : Scope) (name : List Byte),
    s.Takes f rest → f.sender ≠ s.number → f.body = .seek scope name →
    let key : Key := { scope, group := f.group, name }
    let heard := s.peers.modify f.sender.val fun p => { p with present := true, group := f.group }
    ∃ t, exec .seekTaken s = .next t ∧
      ReferenceFrame { s with rxQueue := rest, peers := heard, answers := t.answers } t ∧
      t.refs = s.refs ∧ t.backlog = s.backlog ∧ t.patchQueue = s.patchQueue ∧ t.modules = s.modules ∧
      t.notices = s.notices ∧
      ((∀ e ∈ s.directory, e.key.agrees key = true → e.isLive = false) → t.answers = s.answers) ∧
      (s.DirectoryKeysDistinct → ∀ e ∈ s.directory, e.key.agrees key = true → e.isLive = true →
        ((∀ a ∈ s.answers, a.owner ≠ e.owner) → t.answers = s.answers ++ [{ owner := e.owner, owesOffer := true }]) ∧
        ((∃ a ∈ s.answers, a.owner = e.owner) →
          t.answers = s.answers.map fun a => if a.owner = e.owner then { a with owesOffer := true } else a)) ∧
      ((∀ x, some x ∈ s.slots → x.key.agrees key = true → x.state = .out) → t.slotsUnasked = s.slotsUnasked) ∧
      (s.SlotKeysDistinct → ∀ n x, s.slots[n]? = some (some x) → x.key.agrees key = true → x.state = .toSend →
        t.slotsUnasked = (s.slots.set n (some { x with state := .out, timer := true })).map (Option.map Slot.unasked) ∧
        t.slots[n]? = some (some { x with state := .out, timer := true, awaitingRoom := false }))

/-- OWN_SEEK_TAKEN (R71, R47): the slot of the frame's key in TO-SEND enters OUT and its timer starts; in OUT, or with no
slot of the key, the self-reception changes no slot; the Directory owes nothing. -/
def Obligations.OwnSeekTaken : Prop :=
  ∀ (s : State) (f : Frame) (rest : List RxItem) (scope : Scope) (name : List Byte),
    s.Takes f rest → f.sender = s.number → f.body = .seek scope name →
    let key : Key := { scope, group := f.group, name }
    let heard := s.peers.modify f.sender.val fun p => { p with present := true, group := s.ownGroup }
    ∃ t, exec .ownSeekTaken s = .next t ∧ ReferenceFrame { s with rxQueue := rest, peers := heard } t ∧
      t.refs = s.refs ∧ t.backlog = s.backlog ∧ t.patchQueue = s.patchQueue ∧ t.modules = s.modules ∧
      t.notices = s.notices ∧
      (s.SlotKeysDistinct → ∀ n x, s.slots[n]? = some (some x) → x.key.agrees key = true → x.state = .toSend →
        t.slotsUnasked = (s.slots.set n (some { x with state := .out, timer := true })).map (Option.map Slot.unasked)) ∧
      ((∀ x, some x ∈ s.slots → x.key.agrees key = true → x.state = .out) → t.slotsUnasked = s.slotsUnasked)

/-- A taken OFFER, ANNOUNCE or CLASH, the own ones too (R11, R79, R80, R81, R98, R99): every reference of its key in a seek
phase is offered the owner's binding; a reference bound to a pair the CLASH refuses is offered it too; every other
reference that is not QUEUED stays as it is; the slot of the key is freed; slots of other keys stay. The notices are
those of the event and no others, in this order: EXPORT-REFUSED; reference after reference in table order,
REFERENCE-REVOKED where it is rebound and then REFERENCE-FAULTED where the kinds disagree; those of the serving of the
backlog; MODULE-STATE of each module whose derived state has changed, in table order (R31, R78, R81, R99). The backlog is then
served from the tables so left, the oldest member first, each by the first of steps 1 to 4 that applies (R78); a slot so taken
obtains its SEEK (R69). References that need a walk join the patch queue in table order (R63). A frame in contention
for the answer of an entry that is refused is abandoned; the line is otherwise as it was (R49, R135). -/
def Obligations.OwnerDataBinds : Prop :=
  ∀ (s : State) (f : Frame) (rest : List RxItem) (c : Instr) (key : Key) (b : Binding) (refused : List Pair),
    s.Takes f rest → OwnerData s f c key b refused → s.SeekLaw →
    let moves := fun r : Ref => r.key.agrees key && (r.phase.isSeek || r.boundToOne refused)
    ∃ t, exec c s = .next t ∧ TableFrame { s with rxQueue := rest } t ∧ t.walk = s.walk ∧ t.transfer = s.transfer ∧
      (s.AnswersLeft t fun o => .exportRefused o b.definer ∈ s.refusals f key b refused) ∧
      t.peers = s.peers.modify f.sender.val (fun p =>
        { p with present := true, group := if f.sender = s.number then s.ownGroup else f.group }) ∧
      t.refs.map (·.owner) = s.refs.map (·.owner) ∧
      (∀ r ∈ s.refs, moves r = true → r.offered b ∈ t.refs) ∧
      (∀ r ∈ s.refs, r.phase ≠ .queued → moves r = false → r ∈ t.refs) ∧
      (∀ x : Slot, some x ∈ t.slots → x.key.agrees key = false) ∧
      (∀ (n : Nat) (x : Slot), s.slots[n]? = some (some x) → x.key.agrees key = false →
        ∃ y : Slot, t.slots[n]? = some (some y) ∧ y.unasked = x.unasked) ∧
      t.WalksJoined s.patchQueue ∧ s.Granted t s.wanted ∧
      s.ServedFrom t
        { refs := s.refs.map fun r => if moves r then r.offered b else r
          slots := s.slotsUnasked.map fun o => o.filter fun x => !x.key.agrees key
          backlog := s.backlog.filter fun o => !(s.refs.any fun r => decide (r.owner = o) && r.key.agrees key) } ∧
      s.PostsInTurn t
        (s.refusals f key b refused ++ ((s.refs.filter fun r => r.key.agrees key).flatMap fun r => r.passNotices b refused)
          ++ s.servedFaults t fun r => r.key.agrees key) []

/-- The Directory's part of another station's OFFER, ANNOUNCE or CLASH (R42 to R45, R48, R49, R52, R55): it refuses a
PENDING entry of its key, and a LIVE one that its refused list names, and posts EXPORT-REFUSED first; otherwise a LIVE
entry records the claim, in place of an earlier one of that station, and owes a CLASH; WITHDRAWING and REFUSED entries
stay. An own OFFER or CLASH changes no entry (R51). A frame in contention for the answer of a refused entry is abandoned, and
no other (R49, R135). -/
def Obligations.ClaimsRefuseOrAreRecorded : Prop :=
  ∀ (s : State) (f : Frame) (rest : List RxItem) (c : Instr) (key : Key) (b : Binding) (refused : List Pair),
    s.Takes f rest → OwnerData s f c key b refused → s.DirectoryKeysDistinct →
    let claim : Pair := { station := b.definer, generation := b.generation }
    let set := fun (e : ExportEntry) (st : ExportState) =>
      s.directory.map fun x => if x.owner = e.owner then { x with state := st } else x
    ∃ t, exec c s = .next t ∧
      (f.sender = s.number → c ≠ .ownAnnounceTaken → t.directory = s.directory ∧ t.answers = s.answers ∧ t.line = s.line ∧ s.Posts t [] []) ∧
      (f.sender ≠ s.number →
        ((∀ e ∈ s.directory, e.key.agrees key = false) →
          t.directory = s.directory ∧ t.answers = s.answers ∧ t.line = s.line ∧ s.Posts t [] []) ∧
        ∀ e ∈ s.directory, e.key.agrees key = true →
          (e.state = .pending ∨ (∃ owed, e.state = .live owed ∧
              ({ station := s.number, generation := e.generation } : Pair) ∈ refused) →
            t.directory = set e (.refused claim) ∧ t.answers = (s.answers.filter fun a => decide (a.owner ≠ e.owner)) ∧
            (s.AnswersLeft t fun o => o = e.owner) ∧ s.Posts t [.exportRefused e.owner b.definer] []) ∧
          (∀ owed, e.state = .live owed → ({ station := s.number, generation := e.generation } : Pair) ∉ refused →
            ((∀ p ∈ owed, p.station ≠ b.definer) → t.directory = set e (.live (owed ++ [claim]))) ∧
            ((∃ p ∈ owed, p.station = b.definer) →
              t.directory = set e (.live (owed.map fun p => if p.station = b.definer then claim else p))) ∧
            ((∃ a ∈ s.answers, a.owner = e.owner) → t.answers = s.answers) ∧
            ((∀ a ∈ s.answers, a.owner ≠ e.owner) → t.answers = s.answers ++ [{ owner := e.owner, owesOffer := false }]) ∧
            t.line = s.line ∧ s.Posts t [] []) ∧
          (e.state = .withdrawing ∨ (∃ p, e.state = .refused p) →
            t.directory = s.directory ∧ t.answers = s.answers ∧ t.line = s.line ∧ s.Posts t [] []))

/-- OWN_ANNOUNCE_TAKEN in the Directory (R41): the entry of its key and generation becomes LIVE where it is PENDING, with an
empty owed refused list; otherwise the directory does not change. The answer list does not change. -/
def Obligations.OwnAnnounceMakesLive : Prop :=
  ∀ (s : State) (f : Frame) (rest : List RxItem) (key : Key) (b : Binding),
    s.Takes f rest → OwnerData s f .ownAnnounceTaken key b [] → s.DirectoryKeysDistinct →
    ∃ t, exec .ownAnnounceTaken s = .next t ∧ t.answers = s.answers ∧ t.line = s.line ∧ s.Posts t [] [] ∧
      (∀ e ∈ s.directory, e.key.agrees key = true → e.generation = b.generation → e.state = .pending →
        t.directory = s.directory.map fun x => if x.owner = e.owner then { x with state := .live [] } else x) ∧
      ((∀ e ∈ s.directory, e.key.agrees key = true → e.generation = b.generation → e.state ≠ .pending) →
        t.directory = s.directory)

/-- WITHDRAW_TAKEN and OWN_WITHDRAW_TAKEN (R45, R53, R87 to R92, R35): every binding of the key to the sender with that
generation is dropped, with its notice, and its reference goes through seek entry, R64 to R67, and joins the patch queue, in
table order, where it needs a walk (R63); no other reference changes, and the walk, its site transfer and the line stay (R87,
R104). A reference so revoked is not bound to that pair again; for an own WITHDRAW this is said where no LIVE entry of the
key has the generation it names, since the entry it names is WITHDRAWING and holds the key alone (R9, R33, R39, R45). Another
station's pair leaves the owed refused lists, and of the answer list the members that then owe nothing. The own WITHDRAWING
entry leaves the directory, and an UNLOAD, or a failed LOAD, whose module then owns nothing ends with COMMAND-DONE, after the
event's other notices; any other command in progress stays. -/
def Obligations.WithdrawalsRevoke : Prop :=
  ∀ (s : State) (f : Frame) (rest : List RxItem) (scope : Scope) (name : List Byte) (g : Half),
    s.Takes f rest → f.body = .withdraw scope name g → (s.refs.map (·.owner)).Nodup →
    let key : Key := { scope, group := f.group, name }
    let pair : Pair := { station := f.sender, generation := g }
    let hit := fun r : Ref => r.key.agrees key && decide ((r.phase.binding?.map Binding.pair) = some pair)
    let withdrawn := f.sender = s.number → ∀ e ∈ s.directory, e.isLive = true → e.key.agrees key = true → e.generation ≠ g
    let revoked := fun t : State =>
      s.SeekEntries t hit ∧ t.walk = s.walk ∧ t.transfer = s.transfer ∧ t.line = s.line ∧
      ∀ r ∈ s.refs, hit r = true → ∃ p, { r with phase := p } ∈ t.refs ∧ p.code ≠ 3 ∧ p.code ≠ 5 ∧
        (withdrawn → ∀ b, p.binding? = some b → b.pair ≠ pair)
    let heard := s.peers.modify f.sender.val fun p =>
      { p with present := true, group := if f.sender = s.number then s.ownGroup else f.group }
    let notices := fun t : State =>
      ((s.refs.filter hit).map fun r => Notice.referenceRevoked r.owner .withdrawn) ++ s.entryFaults t hit
    (f.sender ≠ s.number →
      ∃ t, exec .withdrawTaken s = .next t ∧ TableFrame { s with rxQueue := rest } t ∧ t.peers = heard ∧ revoked t ∧
        s.PostsInTurn t (notices t) [] ∧
        t.directory = s.directory.map (fun e => match e.state with
          | .live owed => if e.key.agrees key then { e with state := .live (owed.filter fun p => decide (p ≠ pair)) } else e
          | _ => e) ∧
        t.answers = s.answers.filter fun a =>
          a.owesOffer || t.directory.any fun e => decide (e.owner = a.owner) && decide (e.state.owed ≠ [])) ∧
    (f.sender = s.number →
      ∃ t, exec .ownWithdrawTaken s = .next t ∧ t.peers = heard ∧ revoked t ∧ t.answers = s.answers ∧
        t.directory = (s.directory.filter fun e =>
          !(e.key.agrees key && decide (e.generation = g) && decide (e.state = .withdrawing))) ∧
        let waits := fun (tag : Half) (m : Byte) (status : Status) (detail : Nat) =>
          (s.command = some (.unload tag m) ∧ status = .ok ∧ detail = m.toNat) ∨
            s.command = some (.loadTakeOut tag m { status, detail })
        let empty := fun m : Byte => (∀ x ∈ t.directory, x.owner.module ≠ m) ∧ ∀ r ∈ s.refs, r.owner.module ≠ m
        (∀ tag m status detail, waits tag m status detail → empty m →
          TableFrame { s with rxQueue := rest, command := none, commandQueue := s.commandQueue.tail
                              modules := s.modules.filter fun x => decide (x.id ≠ m) } t ∧
          s.PostsInTurn t (notices t) [.commandDone tag status detail]) ∧
        ((∀ tag m status detail, waits tag m status detail → ¬ empty m) →
          TableFrame { s with rxQueue := rest } t ∧ s.PostsInTurn t (notices t) []))

/-- The departure of another station by LEAVE, by JOIN while present, or by lapse (R53, R87 to R89, R93 to R96, R160, R161):
where it was marked present, PEER-GONE is posted, every binding to it is dropped and its reference goes through seek entry,
R64 to R67, onto the patch queue, in table order, where it needs a walk (R63), its pairs leave the owed refused lists, and of
the answer list the members that then owe nothing; it becomes absent, or for a JOIN stays present. The walk, its site
transfer and the line stay (R87, R104). Where it was not marked present, nothing is revoked; a JOIN marks it present. -/
def Obligations.DeparturesRevoke : Prop :=
  ∀ (s : State) (n : Station) (rest : List RxItem) (c : Instr) (cause : PeerLoss),
    s.onBus = true → Departure s n rest c cause → n ≠ s.number →
    let peers := fun joined : BitVec 3 => s.peers.modify n.val fun p =>
      if cause = .rejoin then { p with present := true, group := joined } else { p with present := false }
    let joined := match s.rxQueue with
      | .frame f :: _ => f.group
      | _ => 0
    let hit := fun r : Ref => decide ((r.phase.binding?.map (·.definer)) = some n)
    (s.isPresent n = false → cause ≠ .rejoin → exec c s = .next (State.settleAgent { s with rxQueue := rest })) ∧
    (s.isPresent n = false → cause = .rejoin → exec c s = .next (State.settleAgent { s with rxQueue := rest, peers := peers joined })) ∧
    (s.isPresent n = true → (s.refs.map (·.owner)).Nodup →
      ∃ t, exec c s = .next t ∧ TableFrame { s with rxQueue := rest } t ∧ t.peers = peers joined ∧
        t.walk = s.walk ∧ t.transfer = s.transfer ∧ t.line = s.line ∧ s.SeekEntries t hit ∧
        (∀ r ∈ s.refs, hit r = true → ∃ p, { r with phase := p } ∈ t.refs ∧ p.code ≠ 3 ∧ p.code ≠ 5 ∧
          ∀ b, p.binding? = some b → b.definer ≠ n) ∧
        s.PostsInTurn t (.peerGone n cause :: (((s.refs.filter hit).map fun r => .referenceRevoked r.owner .peerGone)
          ++ s.entryFaults t hit)) [] ∧
        t.directory = s.directory.map (fun e => match e.state with
          | .live owed => { e with state := .live (owed.filter fun p => decide (p.station ≠ n)) }
          | _ => e) ∧
        t.answers = s.answers.filter fun a =>
          a.owesOffer || t.directory.any fun e => decide (e.owner = a.owner) && decide (e.state.owed ≠ []))

/-- The own JOIN self-received in JOINING makes the station ACTIVE and completes the START (R156, R161); the own LEAVE
self-received in LEAVING makes it CONFIGURED, empties the peer table, and completes the STOP at once where the LEAVE has
been carried (R142, R158); that a LEAVE lost to a bit mismatch on its repeat completes it too is the model's choice (log
38). -/
def Obligations.OwnJoinAndOwnLeave : Prop :=
  (∀ (s : State) (f : Frame) (rest : List RxItem) (tag : Half), s.Takes f rest → f.sender = s.number → f.body = .join →
    s.station = .joining → s.command = some (.start tag) →
    exec .ownJoinTaken s = .next (State.settleAgent { s with
      rxQueue := rest, station := .active
      peers := s.peers.modify s.number.val fun p => { p with present := true, group := s.ownGroup }
      notices := s.notices.take (.commandDone tag .ok s.number.val)
      commandQueue := s.commandQueue.tail, command := none })) ∧
  ∀ (s : State) (f : Frame) (rest : List RxItem) (tag : Half), s.Takes f rest → f.sender = s.number → f.body = .leave →
    s.station = .leaving → s.command = some (.stop tag) →
    let absent : List Peer := List.replicate 16 { present := false, group := 0, lastSequence := 0 }
    (s.outgoing ≠ none →
      exec .ownLeaveTaken s =
        .next (State.settleAgent { s with rxQueue := rest, station := .configured, peers := absent })) ∧
    (s.outgoing = none →
      exec .ownLeaveTaken s = .next (State.settleAgent { s with
        station := .configured, peers := absent, txQueue := [], rxQueue := [], held := none, line := .quiet
        notices := s.notices.take (.commandDone tag .ok 0), commandQueue := s.commandQueue.tail, command := none }))

/-! ## Timers, the Patch Engine, the Notice Unit, the memory agent -/

/-- SEEK_TIMER_EXPIRY (R69, R73 to R75, R78). With tries left, the slot enters TO-SEND with one try more and obtains its
SEEK: one still queued serves it, else one is placed, or awaits room while the queue is full, behind whatever else waits;
a place free while a request waits does not occur (R138; WithinRoomKept). With none left, its
references go WAITING, each with its notice, and the slot is freed; the backlog is then served from the tables so left, the
oldest member first, each by the first of steps 1 to 4 that applies, and a slot so taken obtains its SEEK (R69, R78). The
slot stays free where no reference is QUEUED. References that need a walk join the patch queue in table order (R63). -/
def Obligations.TimerExpiry : Prop :=
  ∀ (s : State) (n elapsed : Nat) (x : Slot) (c : ConfigRecord), s.inReset = false → s.slots[n]? = some (some x) →
    s.config = some c → x.timer = true → x.state = .out → c.seekTimeout ≤ elapsed →
    let retry := fun asks : Bool =>
      s.slots.set n (some { key := x.key, state := .toSend, tries := x.tries + 1, timer := false, awaitingRoom := asks })
    let queued := ∃ k, TxEntry.seek n k ∈ s.txQueue ∧ k.agrees x.key = true
    (x.tries < c.seekTries → s.station ≠ .isolated → s.RoomGranted →
      (queued → exec (.seekTimerExpiry n elapsed) s = .next (State.settleAgent { s with slots := retry false })) ∧
      (¬ queued → s.txQueue.length < 32 →
        exec (.seekTimerExpiry n elapsed) s =
          .next (State.settleAgent { s with slots := retry false, txQueue := s.txQueue ++ [.seek n x.key] })) ∧
      (¬ queued → 32 ≤ s.txQueue.length →
        exec (.seekTimerExpiry n elapsed) s = .next (State.settleAgent { s with slots := retry true }))) ∧
    (c.seekTries ≤ x.tries → s.SeekLaw →
      ∃ t, exec (.seekTimerExpiry n elapsed) s = .next t ∧ ReferenceFrame s t ∧
        t.refs.map (·.owner) = s.refs.map (·.owner) ∧
        (∀ r ∈ s.refs, r.phase = .seeking n → { r with phase := .waiting } ∈ t.refs) ∧
        (∀ r ∈ s.refs, r.phase ≠ .seeking n → r.phase ≠ .queued → r ∈ t.refs) ∧
        (s.backlog = [] → t.slots[n]? = some none) ∧
        (∀ (i : Nat) (y : Slot), i ≠ n → s.slots[i]? = some (some y) →
          ∃ z : Slot, t.slots[i]? = some (some z) ∧ z.unasked = y.unasked) ∧
        s.ServedFrom t
          { refs := s.refs.map fun r => if r.phase = .seeking n then { r with phase := .waiting } else r
            slots := s.slotsUnasked.set n none
            backlog := s.backlog } ∧
        t.WalksJoined s.patchQueue ∧ s.Granted t s.wanted ∧
        s.PostsInTurn t (((s.refs.filter fun r => decide (r.phase = .seeking n)).map fun r => .referenceUnresolved r.owner)
          ++ s.servedFaults t fun _ => false) [])

/-- WALK_BEGIN (R109, R115, R116, R119 to R121): the head reference's walk. Where its sites already reflect its value it
completes without a write; otherwise the compute pass finds every value and the write pass begins at site 1, for the binding
where each site fits it, for the stub encoding where there is none; at the first site that does not fit, the reference
drops the binding and is FAULTED with cause FIT, and the walk goes on with the stub encoding. No slot is taken or freed, apart
from requests granted, and the backlog stays; a reference that needs a walk and is not on the patch queue joins it (R63). -/
def Obligations.WalkBegin : Prop :=
  ∀ (s : State) (r : Ref) (queue : List Owner), s.inReset = false → s.walk = none → s.transfer = none →
    s.patchQueue = r.owner :: queue → r ∈ s.refs → (s.refs.map (·.owner)).Nodup →
    let stub := r.sites.map s.stubValue
    let becomes := fun (t : State) (q : Ref) => t.refs = s.refs.map fun x => if x.owner = r.owner then q else x
    let seeks := fun t : State => s.SeeksKept t ∧ s.Granted t s.wanted
    let begun := fun t : State => ReferenceFrame { s with walk := t.walk, transfer := t.transfer } t ∧ seeks t ∧
      t.WalksJoined s.patchQueue
    (r.reflect = r.currentValue.asReflect →
      ∃ t, exec .walkBegin s = .next t ∧ ReferenceFrame s t ∧ seeks t ∧ becomes t (r.completed r.currentValue) ∧
        t.WalksJoined queue ∧ s.PostsInTurn t [] []) ∧
    (r.reflect ≠ r.currentValue.asReflect → r.sites ≠ [] →
      (r.phase.binding? = none →
        ∃ t, exec .walkBegin s = .next t ∧ begun t ∧ t.refs = s.refs ∧ t.Writing r.owner .stub r.sites stub ∧
          s.PostsInTurn t [] []) ∧
      (∀ b values, r.phase.binding? = some b →
        List.Forall₂ (fun x v => Site.encode s.number x b.target = some v) r.sites values →
        ∃ t, exec .walkBegin s = .next t ∧ begun t ∧ t.refs = s.refs ∧ t.Writing r.owner (.binding b) r.sites values ∧
          s.PostsInTurn t [] []) ∧
      (∀ b before x after, r.phase.binding? = some b → r.sites = before ++ x :: after →
        (∀ y ∈ before, (Site.encode s.number y b.target).isSome = true) → Site.encode s.number x b.target = none →
        ∃ t, exec .walkBegin s = .next t ∧ begun t ∧ becomes t { r with phase := .faulted .fit } ∧
          t.Writing r.owner .stub r.sites stub ∧
          s.PostsInTurn t [.referenceFaulted r.owner .fit (before.length + 1)] []))

/-- SITE_WRITE_DONE (R114, R117 to R119, R122, R123, R125): the locked transfer ends. Of a removed reference's transfer
nothing more follows. Otherwise the engine compares the current value: equal, it goes on to the next site, or completes
after the last; different, it restarts at site 1 with the current value, a binding that fits or the stub. Meanwhile the
reference keeps its place on the patch queue, no slot is taken or freed, apart from requests granted, and the backlog stays. A
bus error faults the reference with cause BUS and stops the walk; the reference leaves its seek phase, its slot is freed where no
other reference seeks through it, and the backlog is served from the tables so left, the oldest member first, each by the
first of steps 1 to 4 that applies, a slot so taken obtaining its SEEK (R69, R78, R102). After a failed write the site holds a free
value (log 6), and the other bits of its word are as they were (R122, R128). -/
def Obligations.SiteWriteDone : Prop :=
  ∀ (s : State) (env : Env) (x : SiteTransfer), s.inReset = false → s.transfer = some x →
    .patchEngine ∈ s.granted → x.site.wordAddress < 0x10000000 →
    let mem := s.mem.afterStores env.stores
    let written := mem.setWord x.site.wordAddress (x.site.newWord (mem.word x.site.wordAddress) x.value)
    let becomes := fun (t : State) (r q : Ref) => t.refs = s.refs.map fun y => if y.owner = r.owner then q else y
    let goesOn := fun t : State => ReferenceFrame
      { s with mem := written, walk := t.walk, transfer := t.transfer } t ∧ s.SeeksKept t ∧ s.Granted t s.wanted
    let keepsPlace := fun t : State => t.WalksJoined s.patchQueue
    let fails := env.failAt = some 0 ∨ (env.failAt = some 1 ∧ x.site.form ≠ .a32)
    (¬ fails →
      (s.walk = none →
        exec (.siteWriteDone env) s =
          .next (State.served { s with mem := written, transfer := none } .patchEngine)) ∧
      ∀ (w : Walk) (r : Ref), s.walk = some w → r ∈ s.refs → r.owner = w.ref → (s.refs.map (·.owner)).Nodup →
        (r.currentValue = w.value →
          (∀ y, r.sites[w.next]? = some y →
            ∃ t, exec (.siteWriteDone env) s = .next t ∧ goesOn t ∧ keepsPlace t ∧ t.refs = s.refs ∧
              t.walk = some { w with next := w.next + 1 } ∧
              t.transfer = some { site := y, value := w.computed.getD w.next 0 } ∧ s.PostsInTurn t [] []) ∧
          (r.sites[w.next]? = none →
            ∃ t, exec (.siteWriteDone env) s = .next t ∧ goesOn t ∧ becomes t r (r.completed w.value) ∧ t.walk = none ∧
              t.transfer = none ∧ t.WalksJoined (s.patchQueue.erase w.ref) ∧ s.PostsInTurn t [] [])) ∧
        (r.currentValue ≠ w.value → r.sites ≠ [] →
          (r.phase.binding? = none →
            ∃ t, exec (.siteWriteDone env) s = .next t ∧ goesOn t ∧ keepsPlace t ∧ t.refs = s.refs ∧
              t.Writing r.owner .stub r.sites (r.sites.map s.stubValue) ∧ s.PostsInTurn t [] []) ∧
          (∀ b values, r.phase.binding? = some b →
            List.Forall₂ (fun x v => Site.encode s.number x b.target = some v) r.sites values →
            ∃ t, exec (.siteWriteDone env) s = .next t ∧ goesOn t ∧ keepsPlace t ∧ t.refs = s.refs ∧
              t.Writing r.owner (.binding b) r.sites values ∧ s.PostsInTurn t [] []) ∧
          ∀ b before y after, r.phase.binding? = some b → r.sites = before ++ y :: after →
            (∀ z ∈ before, (Site.encode s.number z b.target).isSome = true) → Site.encode s.number y b.target = none →
            ∃ t, exec (.siteWriteDone env) s = .next t ∧ goesOn t ∧ keepsPlace t ∧ becomes t r { r with phase := .faulted .fit } ∧
              t.Writing r.owner .stub r.sites (r.sites.map s.stubValue) ∧
              s.PostsInTurn t [.referenceFaulted r.owner .fit (before.length + 1)] [])) ∧
    (fails →
      let unknown := x.site.form = .a32 ∨ env.failAt = some 1
      let spoilt := if unknown then mem.setWord x.site.wordAddress
          (x.site.newWord (mem.word x.site.wordAddress) (Config.unknownWord s.freeCount))
        else mem
      let drawn := if unknown then s.freeCount + 1 else s.freeCount
      (s.walk = none →
        exec (.siteWriteDone env) s =
          .next (State.served { s with mem := spoilt, freeCount := drawn, transfer := none } .patchEngine)) ∧
      ∀ (w : Walk) (r : Ref), s.walk = some w → r ∈ s.refs → r.owner = w.ref → s.SeekLaw →
        ∃ t, exec (.siteWriteDone env) s = .next t ∧
          ReferenceFrame { s with mem := spoilt, freeCount := drawn, walk := none, transfer := none } t ∧
          r.busFaulted ∈ t.refs ∧ (∀ q ∈ s.refs, q.owner ≠ r.owner → q.phase ≠ .queued → q ∈ t.refs) ∧
          r.owner ∉ t.backlog ∧ t.WalksJoined (s.patchQueue.erase w.ref) ∧ s.Granted t s.wanted ∧
          t.BacklogServed ∧ s.ServedFrom t
            { refs := s.refs.map fun q => if q.owner = r.owner then r.busFaulted else q
              slots := s.slotsOf fun q => decide (q.owner ≠ r.owner)
              backlog := s.backlog.filter fun o => decide (o ≠ r.owner) } ∧
          (∀ (n : Nat) (y : Slot), s.slots[n]? = some (some y) →
            ((∃ q ∈ s.refs, q.owner ≠ r.owner ∧ q.phase = .seeking n) →
              ∃ z : Slot, t.slots[n]? = some (some z) ∧ z.unasked = y.unasked) ∧
            ((∀ q ∈ s.refs, q.phase = .seeking n → q.owner = r.owner) → s.backlog = [] → t.slots[n]? = some none)) ∧
          s.PostsInTurn t (.referenceFaulted r.owner .bus w.next :: s.servedFaults t fun _ => false) [])

/-- MEMORY_ACK_TIMEOUT (R182): the failure reaches the claimant and its block applies its rule. A command whose block is
being read ends with READ-ERROR (R169), a LOAD so at its descriptor (R24, R29); a site's transfer is a BUS fault (R122), a
report record's a WRITE-ERROR (R175), a notice's a dropped notice (R180): what the row of that transfer does when it
fails. While another claimant waits the transfer is the first of its step, the only one it makes. -/
def Obligations.AcknowledgeTimeout : Prop :=
  ∀ (s : State) (env : Env), s.inReset = false →
    (∀ a k i, s.Executes env a → s.reachesFailure .commandEngine env = true → commandOfCode (byteAt (s.blockWord env a 0) 0) = some k → 1 ≤ i →
      i ≤ k.moreWords → a.toNat + 4 * i ≤ 0x0FFFFFFF → (∀ j, 1 ≤ j → j < i → s.readAcks env j (a.toNat + 4 * j) = true) →
      s.readAcks env i (a.toNat + 4 * i) = false →
      exec (.memoryAckTimeout .commandEngine env) s = .next (s.ended env (s.tagAt env a) .readError (4 * i))) ∧
    (∀ a, s.command = none → s.commandQueue.head? = some a → .commandEngine ∈ s.granted →
      s.runs.fetched = [] → env.failAt = some 0 →
      exec (.memoryAckTimeout .commandEngine env) s = .next (s.ended env 0 .readError 0)) ∧
    (∀ a e, s.Block env a .load → s.reachesFailure .commandEngine env = true → s.station = .active →
      (s.forReading env).loadFirstPass env [s.blockWord env a 1] = .error e → e.status = .readError →
      exec (.memoryAckTimeout .commandEngine env) s = .next (s.ended env (s.tagAt env a) .readError e.detail)) ∧
    (∀ tag m i j off sum e, s.command = some (.loadCommit tag m i j off sum) →
      s.reachesFailure .commandEngine env = true →
      (s.forTransfers env).readCommit env = some (.error e) → e.status = .readError →
      exec (.memoryAckTimeout .commandEngine env) s = exec (.loadCommitFault (toTheEnd env)) s) ∧
    (∀ tag sel m buffer capacity n x k, s.command = some (.report tag sel m buffer capacity n) →
      s.recordAt sel m n = some x → x.written + k < x.words.length → env.failAt = some k →
      s.reachesFailure .commandEngine env = true →
      buffer + n * sel.recordSize + 4 * x.words.length ≤ 0x10000000 →
      exec (.memoryAckTimeout .commandEngine env) s = exec (.reportRecordWrite (toTheEnd env)) s) ∧
    (∀ x, s.transfer = some x → (env.failAt = some 0 ∨ (env.failAt = some 1 ∧ x.site.form ≠ .a32)) →
      exec (.memoryAckTimeout .patchEngine env) s = exec (.siteWriteDone env) s) ∧
    ∀ k, s.runs.noticeWords + k < 4 → env.failAt = some k → s.reachesFailure .noticeUnit env = true → s.RingLaw →
      (∀ r, s.notices.ring = some r → r.base + 16 * r.size ≤ 0x10000000) →
      exec (.memoryAckTimeout .noticeUnit env) s = exec (.noticeWriteDone (toTheEnd env)) s

/-- NOTICE_WRITE_DONE (R177, R180, R186): the four words of the first reserved notice, as R186 lays them out, are written
into its slot, those not yet written up to the last or to where the step leaves it (R182; log 8); after the last the
producer index advances past it. A word not acknowledged drops that notice and those behind it, counts them, and sets
WRITE-FAULT, the producer index staying; that the word then holds a free value is the model's choice (log 6), and so is
the count of a NOTICES-DROPPED behind the failed notice (log 39). The codes are those the manual lists (R183). -/
def Obligations.NoticeWriteDone : Prop :=
  (∀ x : Notice, x.indexFits = true → x.words = x.layout) ∧ CodesAsListed ∧
  ∀ (s : State) (env : Env) (r : Ring) (x : Reserved) (behind : List Reserved),
    s.inReset = false → .noticeUnit ∈ s.granted →
    s.notices.ring = some r → s.notices.list = x :: behind → r.base + 16 * x.slot + 16 ≤ 0x10000000 →
    let left := x.notice.words.drop s.runs.noticeWords
    let now := match (s.runEnv .noticeUnit env).upTo with
      | some p => left.take p
      | none => left
    let place := r.base + 16 * x.slot + 4 * s.runs.noticeWords
    let mem := s.mem.afterStores env.stores
    let rest : Runs := { s.runs with noticeWords := 0 }
    let lost := ((x :: behind).map fun y => match y.notice with
      | .noticesDropped count => count
      | _ => 1).sum
    ((∀ k, env.failAt = some k → now.length ≤ k) →
      (now.length < left.length →
        exec (.noticeWriteDone env) s = .next (State.served { s with
          mem := mem.setWords place now
          runs := { s.runs with noticeWords := s.runs.noticeWords + now.length } } .noticeUnit)) ∧
      (now.length = left.length →
        exec (.noticeWriteDone env) s = .next (State.served { s with
          mem := mem.setWords place now, runs := rest
          notices := { s.notices with producer := (s.notices.producer + 1) % r.size, list := behind } } .noticeUnit))) ∧
    ∀ k, k < now.length → env.failAt = some k →
      exec (.noticeWriteDone env) s = .next (State.served { s with
        mem := (mem.setWords place (now.take k)).setWord (place + 4 * k) (Config.unknownWord s.freeCount)
        freeCount := s.freeCount + 1, runs := rest
        notices := { s.notices with drops := min 65535 (s.notices.drops + lost), list := [], writeFault := true } } .noticeUnit)

/-! ## Formats -/

/-- What a station sends another reads (R129, R131, R188, R189): a carriable frame's bits have its length and pass the
check, and are read as that frame; bits whose check fails, of another length than they declare, of no kind, or of another
class than their kind's, are a bad frame (more bits than declared: log 17). Bits that pass those tests are a bad frame
exactly where their body length is not the one that kind, name length (1 to 24) and, for a CLASH, refused list count (1 to
15) give, or they are a CLASH whose owner is not its sender. -/
def Obligations.FramesReadAsSent : Prop :=
  (∀ f : Frame, f.carriable = true →
    f.bits.length = 29 + 8 * f.body.bytes.length + 16 ∧ checkOf f.bits = 0 ∧ readFrame f.bits = some f) ∧
  (∀ bits : List Bool,
    (checkOf bits ≠ 0 ∨ bits.length ≠ 29 + 8 * bitsNat ((bits.drop 21).take 8) + 16 ∨
      (∀ c, classOfCode (bitsNat ((bits.drop 14).take 4)) = some c → bitsNat (bits.take 2) ≠ c)) →
    readFrame bits = none) ∧
  ∀ bits : List Bool,
    let kind := bitsNat ((bits.drop 14).take 4)
    let length := bitsNat ((bits.drop 21).take 8)
    let byte := fun j : Nat => bitsNat ((bits.drop (29 + 8 * j)).take 8)
    let n := byte 1
    let count := byte (9 + n)
    let given := ((kind = 3 ∨ kind = 4) ∧ length = 0) ∨
      (1 ≤ n ∧ n ≤ 24 ∧
        ((kind = 7 ∧ length = 2 + n) ∨ (kind = 5 ∧ length = 4 + n) ∨ ((kind = 2 ∨ kind = 6) ∧ length = 8 + n) ∨
          (kind = 1 ∧ length = 10 + n + 3 * count ∧ 1 ≤ count ∧ count ≤ 15 ∧
            byte (2 + n) % 16 = bitsNat (bits.take 6) % 16)))
    checkOf bits = 0 → bits.length = 29 + 8 * length + 16 → classOfCode kind = some (bitsNat (bits.take 2)) →
    (readFrame bits = none ↔ ¬ given)

/-- The value a site receives (R111, R112, R113), and the bits of its word it replaces (R114): A32 receives V; HI16 its
upper and LO16 its lower 16 bits; D16 the displacement from its segment's global base where that lies from -32768 to
32767; FLD the shifted value where no bit is lost and it fits the field. -/
def Obligations.SiteEncodings : Prop :=
  ∀ (n : Station) (x : Site) (target old : Word),
    let v := target + x.addend
    let g := BitVec.ofNat 32 (n.val * 0x10000000 + (x.address - x.offset.toNat))
    (x.form = .a32 → x.encode n target = some v ∧ x.Replaces old v (x.newWord old v)) ∧
    (x.form = .hi16 → ∃ h, x.encode n target = some h ∧ h.toNat = v.toNat / 65536 ∧ x.Replaces old h (x.newWord old h)) ∧
    (x.form = .lo16 → ∃ h, x.encode n target = some h ∧ h.toNat = v.toNat % 65536 ∧ x.Replaces old h (x.newWord old h)) ∧
    (x.form = .d16 →
      (-32768 ≤ (v - g).toInt → (v - g).toInt ≤ 32767 →
        ∃ h, x.encode n target = some h ∧ h.toNat = (v - g).toNat % 65536 ∧ x.Replaces old h (x.newWord old h)) ∧
      ((v - g).toInt < -32768 ∨ 32767 < (v - g).toInt → x.encode n target = none)) ∧
    ∀ p w sh, x.form = .fld p w sh → p + w ≤ 32 →
      (v.toNat % 2 ^ sh = 0 → v.toNat / 2 ^ sh < 2 ^ w →
        ∃ h, x.encode n target = some h ∧ h.toNat = v.toNat / 2 ^ sh ∧ x.Replaces old h (x.newWord old h)) ∧
      (v.toNat % 2 ^ sh ≠ 0 ∨ 2 ^ w ≤ v.toNat / 2 ^ sh → x.encode n target = none)

/-- The stub encoding (R115): the site's value for the trap stub address, or a zero value where that fails the fit test. -/
def Obligations.StubEncodings : Prop :=
  ∀ (s : State) (c : ConfigRecord) (x : Site) (old : Word), s.config = some c →
    (∀ v, x.encode s.number c.stub = some v → s.stubValue x = v) ∧
    (x.encode s.number c.stub = none → s.stubValue x = 0) ∧
    ((∀ p w sh, x.form = .fld p w sh → p + w ≤ 32) → x.Replaces old (s.stubValue x) (x.newWord old (s.stubValue x)))
end

