-- ==== Sys2Proof/Laws/State.lean ====
section
/-! SUPPORT. What each named update of the state leaves in each field: one theorem for each update, whose conjuncts `simp`
uses one by one, so that no proof unfolds a record update. -/

namespace Sys2Proof.Machine

@[simp] theorem post_fields (s : State) (x : Notice) :
    (s.post x).station = s.station ∧ (s.post x).number = s.number ∧ (s.post x).config = s.config ∧
    (s.post x).peers = s.peers ∧ (s.post x).inReset = s.inReset ∧ (s.post x).txQueue = s.txQueue ∧
    (s.post x).rxQueue = s.rxQueue ∧ (s.post x).outgoing = s.outgoing ∧ (s.post x).held = s.held ∧
    (s.post x).nextSequence = s.nextSequence ∧ (s.post x).line = s.line ∧ (s.post x).busSeen = s.busSeen ∧
    (s.post x).directory = s.directory ∧ (s.post x).answers = s.answers ∧
    (s.post x).nextGeneration = s.nextGeneration ∧ (s.post x).refs = s.refs ∧ (s.post x).slots = s.slots ∧
    (s.post x).backlog = s.backlog ∧ (s.post x).patchQueue = s.patchQueue ∧ (s.post x).walk = s.walk ∧
    (s.post x).transfer = s.transfer ∧ (s.post x).commandQueue = s.commandQueue ∧
    (s.post x).lastSubmit = s.lastSubmit ∧ (s.post x).command = s.command ∧ (s.post x).wanted = s.wanted ∧
    (s.post x).modules = s.modules ∧ (s.post x).notices = s.notices.take x ∧ (s.post x).granted = s.granted ∧
    (s.post x).runs = s.runs ∧ (s.post x).mem = s.mem ∧ (s.post x).freeCount = s.freeCount ∧
    (s.post x).pending = s.pending :=
  ⟨rfl, rfl, rfl, rfl, rfl, rfl, rfl, rfl, rfl, rfl, rfl, rfl, rfl, rfl, rfl, rfl, rfl, rfl, rfl, rfl, rfl, rfl,
    rfl, rfl, rfl, rfl, rfl, rfl, rfl, rfl, rfl, rfl⟩

@[simp] theorem setPhase_fields (s : State) (o : Owner) (p : Phase) :
    (s.setPhase o p).station = s.station ∧ (s.setPhase o p).number = s.number ∧ (s.setPhase o p).config = s.config ∧
    (s.setPhase o p).peers = s.peers ∧ (s.setPhase o p).inReset = s.inReset ∧ (s.setPhase o p).txQueue = s.txQueue ∧
    (s.setPhase o p).rxQueue = s.rxQueue ∧ (s.setPhase o p).outgoing = s.outgoing ∧ (s.setPhase o p).held = s.held ∧
    (s.setPhase o p).nextSequence = s.nextSequence ∧ (s.setPhase o p).line = s.line ∧
    (s.setPhase o p).busSeen = s.busSeen ∧ (s.setPhase o p).directory = s.directory ∧
    (s.setPhase o p).answers = s.answers ∧ (s.setPhase o p).nextGeneration = s.nextGeneration ∧
    (s.setPhase o p).refs = (s.refs.map fun r => if r.owner = o then { r with phase := p } else r) ∧
    (s.setPhase o p).slots = s.slots ∧ (s.setPhase o p).backlog = s.backlog ∧
    (s.setPhase o p).patchQueue = s.patchQueue ∧ (s.setPhase o p).walk = s.walk ∧
    (s.setPhase o p).transfer = s.transfer ∧ (s.setPhase o p).commandQueue = s.commandQueue ∧
    (s.setPhase o p).lastSubmit = s.lastSubmit ∧ (s.setPhase o p).command = s.command ∧
    (s.setPhase o p).wanted = s.wanted ∧ (s.setPhase o p).modules = s.modules ∧
    (s.setPhase o p).notices = s.notices ∧ (s.setPhase o p).granted = s.granted ∧
    (s.setPhase o p).runs = s.runs ∧ (s.setPhase o p).mem = s.mem ∧ (s.setPhase o p).freeCount = s.freeCount ∧
    (s.setPhase o p).pending = s.pending :=
  ⟨rfl, rfl, rfl, rfl, rfl, rfl, rfl, rfl, rfl, rfl, rfl, rfl, rfl, rfl, rfl, rfl, rfl, rfl, rfl, rfl, rfl, rfl,
    rfl, rfl, rfl, rfl, rfl, rfl, rfl, rfl, rfl, rfl⟩

@[simp] theorem setReflect_fields (s : State) (o : Owner) (x : Reflect) :
    (s.setReflect o x).station = s.station ∧ (s.setReflect o x).number = s.number ∧
    (s.setReflect o x).config = s.config ∧ (s.setReflect o x).peers = s.peers ∧
    (s.setReflect o x).inReset = s.inReset ∧ (s.setReflect o x).txQueue = s.txQueue ∧
    (s.setReflect o x).rxQueue = s.rxQueue ∧ (s.setReflect o x).outgoing = s.outgoing ∧
    (s.setReflect o x).held = s.held ∧ (s.setReflect o x).nextSequence = s.nextSequence ∧
    (s.setReflect o x).line = s.line ∧ (s.setReflect o x).busSeen = s.busSeen ∧
    (s.setReflect o x).directory = s.directory ∧ (s.setReflect o x).answers = s.answers ∧
    (s.setReflect o x).nextGeneration = s.nextGeneration ∧
    (s.setReflect o x).refs = (s.refs.map fun r => if r.owner = o then { r with reflect := x } else r) ∧
    (s.setReflect o x).slots = s.slots ∧ (s.setReflect o x).backlog = s.backlog ∧
    (s.setReflect o x).patchQueue = s.patchQueue ∧ (s.setReflect o x).walk = s.walk ∧
    (s.setReflect o x).transfer = s.transfer ∧ (s.setReflect o x).commandQueue = s.commandQueue ∧
    (s.setReflect o x).lastSubmit = s.lastSubmit ∧ (s.setReflect o x).command = s.command ∧
    (s.setReflect o x).wanted = s.wanted ∧ (s.setReflect o x).modules = s.modules ∧
    (s.setReflect o x).notices = s.notices ∧ (s.setReflect o x).granted = s.granted ∧
    (s.setReflect o x).runs = s.runs ∧ (s.setReflect o x).mem = s.mem ∧ (s.setReflect o x).freeCount = s.freeCount ∧
    (s.setReflect o x).pending = s.pending :=
  ⟨rfl, rfl, rfl, rfl, rfl, rfl, rfl, rfl, rfl, rfl, rfl, rfl, rfl, rfl, rfl, rfl, rfl, rfl, rfl, rfl, rfl, rfl,
    rfl, rfl, rfl, rfl, rfl, rfl, rfl, rfl, rfl, rfl⟩

@[simp] theorem setEntry_fields (s : State) (o : Owner) (st : ExportState) :
    (s.setEntry o st).station = s.station ∧ (s.setEntry o st).number = s.number ∧
    (s.setEntry o st).config = s.config ∧ (s.setEntry o st).peers = s.peers ∧ (s.setEntry o st).inReset = s.inReset ∧
    (s.setEntry o st).txQueue = s.txQueue ∧ (s.setEntry o st).rxQueue = s.rxQueue ∧
    (s.setEntry o st).outgoing = s.outgoing ∧ (s.setEntry o st).held = s.held ∧
    (s.setEntry o st).nextSequence = s.nextSequence ∧ (s.setEntry o st).line = s.line ∧
    (s.setEntry o st).busSeen = s.busSeen ∧
    (s.setEntry o st).directory = (s.directory.map fun e => if e.owner = o then { e with state := st } else e) ∧
    (s.setEntry o st).answers = s.answers ∧ (s.setEntry o st).nextGeneration = s.nextGeneration ∧
    (s.setEntry o st).refs = s.refs ∧ (s.setEntry o st).slots = s.slots ∧ (s.setEntry o st).backlog = s.backlog ∧
    (s.setEntry o st).patchQueue = s.patchQueue ∧ (s.setEntry o st).walk = s.walk ∧
    (s.setEntry o st).transfer = s.transfer ∧ (s.setEntry o st).commandQueue = s.commandQueue ∧
    (s.setEntry o st).lastSubmit = s.lastSubmit ∧ (s.setEntry o st).command = s.command ∧
    (s.setEntry o st).wanted = s.wanted ∧ (s.setEntry o st).modules = s.modules ∧
    (s.setEntry o st).notices = s.notices ∧ (s.setEntry o st).granted = s.granted ∧
    (s.setEntry o st).runs = s.runs ∧ (s.setEntry o st).mem = s.mem ∧ (s.setEntry o st).freeCount = s.freeCount ∧
    (s.setEntry o st).pending = s.pending :=
  ⟨rfl, rfl, rfl, rfl, rfl, rfl, rfl, rfl, rfl, rfl, rfl, rfl, rfl, rfl, rfl, rfl, rfl, rfl, rfl, rfl, rfl, rfl,
    rfl, rfl, rfl, rfl, rfl, rfl, rfl, rfl, rfl, rfl⟩

@[simp] theorem leaveAnswers_fields (s : State) (g : Owner → Bool) :
    (s.leaveAnswers g).station = s.station ∧ (s.leaveAnswers g).number = s.number ∧
    (s.leaveAnswers g).config = s.config ∧ (s.leaveAnswers g).peers = s.peers ∧
    (s.leaveAnswers g).inReset = s.inReset ∧ (s.leaveAnswers g).txQueue = s.txQueue ∧
    (s.leaveAnswers g).rxQueue = s.rxQueue ∧ (s.leaveAnswers g).outgoing = s.outgoing ∧
    (s.leaveAnswers g).held = s.held ∧ (s.leaveAnswers g).nextSequence = s.nextSequence ∧
    (s.leaveAnswers g).line = s.line.abandon g ∧ (s.leaveAnswers g).busSeen = s.busSeen ∧
    (s.leaveAnswers g).directory = s.directory ∧
    (s.leaveAnswers g).answers = (s.answers.filter fun a => !g a.owner) ∧
    (s.leaveAnswers g).nextGeneration = s.nextGeneration ∧ (s.leaveAnswers g).refs = s.refs ∧
    (s.leaveAnswers g).slots = s.slots ∧ (s.leaveAnswers g).backlog = s.backlog ∧
    (s.leaveAnswers g).patchQueue = s.patchQueue ∧ (s.leaveAnswers g).walk = s.walk ∧
    (s.leaveAnswers g).transfer = s.transfer ∧ (s.leaveAnswers g).commandQueue = s.commandQueue ∧
    (s.leaveAnswers g).lastSubmit = s.lastSubmit ∧ (s.leaveAnswers g).command = s.command ∧
    (s.leaveAnswers g).wanted = s.wanted ∧ (s.leaveAnswers g).modules = s.modules ∧
    (s.leaveAnswers g).notices = s.notices ∧ (s.leaveAnswers g).granted = s.granted ∧
    (s.leaveAnswers g).runs = s.runs ∧ (s.leaveAnswers g).mem = s.mem ∧ (s.leaveAnswers g).freeCount = s.freeCount ∧
    (s.leaveAnswers g).pending = s.pending :=
  ⟨rfl, rfl, rfl, rfl, rfl, rfl, rfl, rfl, rfl, rfl, rfl, rfl, rfl, rfl, rfl, rfl, rfl, rfl, rfl, rfl, rfl, rfl,
    rfl, rfl, rfl, rfl, rfl, rfl, rfl, rfl, rfl, rfl⟩

@[simp] theorem removeWithdrawn_fields (s : State) (k : Key) (g : Half) :
    (s.removeWithdrawn k g).station = s.station ∧ (s.removeWithdrawn k g).number = s.number ∧
    (s.removeWithdrawn k g).config = s.config ∧ (s.removeWithdrawn k g).peers = s.peers ∧
    (s.removeWithdrawn k g).inReset = s.inReset ∧ (s.removeWithdrawn k g).txQueue = s.txQueue ∧
    (s.removeWithdrawn k g).rxQueue = s.rxQueue ∧ (s.removeWithdrawn k g).outgoing = s.outgoing ∧
    (s.removeWithdrawn k g).held = s.held ∧ (s.removeWithdrawn k g).nextSequence = s.nextSequence ∧
    (s.removeWithdrawn k g).line = s.line ∧ (s.removeWithdrawn k g).busSeen = s.busSeen ∧
    (s.removeWithdrawn k g).answers = s.answers ∧ (s.removeWithdrawn k g).nextGeneration = s.nextGeneration ∧
    (s.removeWithdrawn k g).refs = s.refs ∧ (s.removeWithdrawn k g).slots = s.slots ∧
    (s.removeWithdrawn k g).backlog = s.backlog ∧ (s.removeWithdrawn k g).patchQueue = s.patchQueue ∧
    (s.removeWithdrawn k g).walk = s.walk ∧ (s.removeWithdrawn k g).transfer = s.transfer ∧
    (s.removeWithdrawn k g).commandQueue = s.commandQueue ∧ (s.removeWithdrawn k g).lastSubmit = s.lastSubmit ∧
    (s.removeWithdrawn k g).command = s.command ∧ (s.removeWithdrawn k g).wanted = s.wanted ∧
    (s.removeWithdrawn k g).modules = s.modules ∧ (s.removeWithdrawn k g).notices = s.notices ∧
    (s.removeWithdrawn k g).granted = s.granted ∧ (s.removeWithdrawn k g).runs = s.runs ∧
    (s.removeWithdrawn k g).mem = s.mem ∧ (s.removeWithdrawn k g).freeCount = s.freeCount ∧
    (s.removeWithdrawn k g).pending = s.pending :=
  ⟨rfl, rfl, rfl, rfl, rfl, rfl, rfl, rfl, rfl, rfl, rfl, rfl, rfl, rfl, rfl, rfl, rfl, rfl, rfl, rfl, rfl, rfl,
    rfl, rfl, rfl, rfl, rfl, rfl, rfl, rfl, rfl⟩

@[simp] theorem dropPairs_fields (s : State) (g : Key → Pair → Bool) :
    (s.dropPairs g).station = s.station ∧ (s.dropPairs g).number = s.number ∧ (s.dropPairs g).config = s.config ∧
    (s.dropPairs g).peers = s.peers ∧ (s.dropPairs g).inReset = s.inReset ∧ (s.dropPairs g).txQueue = s.txQueue ∧
    (s.dropPairs g).rxQueue = s.rxQueue ∧ (s.dropPairs g).outgoing = s.outgoing ∧ (s.dropPairs g).held = s.held ∧
    (s.dropPairs g).nextSequence = s.nextSequence ∧ (s.dropPairs g).line = s.line ∧
    (s.dropPairs g).busSeen = s.busSeen ∧ (s.dropPairs g).nextGeneration = s.nextGeneration ∧
    (s.dropPairs g).refs = s.refs ∧ (s.dropPairs g).slots = s.slots ∧ (s.dropPairs g).backlog = s.backlog ∧
    (s.dropPairs g).patchQueue = s.patchQueue ∧ (s.dropPairs g).walk = s.walk ∧
    (s.dropPairs g).transfer = s.transfer ∧ (s.dropPairs g).commandQueue = s.commandQueue ∧
    (s.dropPairs g).lastSubmit = s.lastSubmit ∧ (s.dropPairs g).command = s.command ∧
    (s.dropPairs g).wanted = s.wanted ∧ (s.dropPairs g).modules = s.modules ∧ (s.dropPairs g).notices = s.notices ∧
    (s.dropPairs g).granted = s.granted ∧ (s.dropPairs g).runs = s.runs ∧ (s.dropPairs g).mem = s.mem ∧
    (s.dropPairs g).freeCount = s.freeCount ∧ (s.dropPairs g).pending = s.pending :=
  ⟨rfl, rfl, rfl, rfl, rfl, rfl, rfl, rfl, rfl, rfl, rfl, rfl, rfl, rfl, rfl, rfl, rfl, rfl, rfl, rfl, rfl, rfl,
    rfl, rfl, rfl, rfl, rfl, rfl, rfl, rfl⟩

@[simp] theorem setModuleState_fields (s : State) (m : Byte) (st : ModuleState) :
    (s.setModuleState m st).station = s.station ∧ (s.setModuleState m st).number = s.number ∧
    (s.setModuleState m st).config = s.config ∧ (s.setModuleState m st).peers = s.peers ∧
    (s.setModuleState m st).inReset = s.inReset ∧ (s.setModuleState m st).txQueue = s.txQueue ∧
    (s.setModuleState m st).rxQueue = s.rxQueue ∧ (s.setModuleState m st).outgoing = s.outgoing ∧
    (s.setModuleState m st).held = s.held ∧ (s.setModuleState m st).nextSequence = s.nextSequence ∧
    (s.setModuleState m st).line = s.line ∧ (s.setModuleState m st).busSeen = s.busSeen ∧
    (s.setModuleState m st).directory = s.directory ∧ (s.setModuleState m st).answers = s.answers ∧
    (s.setModuleState m st).nextGeneration = s.nextGeneration ∧ (s.setModuleState m st).refs = s.refs ∧
    (s.setModuleState m st).slots = s.slots ∧ (s.setModuleState m st).backlog = s.backlog ∧
    (s.setModuleState m st).patchQueue = s.patchQueue ∧ (s.setModuleState m st).walk = s.walk ∧
    (s.setModuleState m st).transfer = s.transfer ∧ (s.setModuleState m st).commandQueue = s.commandQueue ∧
    (s.setModuleState m st).lastSubmit = s.lastSubmit ∧ (s.setModuleState m st).command = s.command ∧
    (s.setModuleState m st).wanted = s.wanted ∧
    (s.setModuleState m st).modules = (s.modules.map fun x => if x.id = m then { x with state := st } else x) ∧
    (s.setModuleState m st).notices = s.notices ∧ (s.setModuleState m st).granted = s.granted ∧
    (s.setModuleState m st).runs = s.runs ∧ (s.setModuleState m st).mem = s.mem ∧
    (s.setModuleState m st).freeCount = s.freeCount ∧ (s.setModuleState m st).pending = s.pending :=
  ⟨rfl, rfl, rfl, rfl, rfl, rfl, rfl, rfl, rfl, rfl, rfl, rfl, rfl, rfl, rfl, rfl, rfl, rfl, rfl, rfl, rfl, rfl,
    rfl, rfl, rfl, rfl, rfl, rfl, rfl, rfl, rfl, rfl⟩

@[simp] theorem removeModule_fields (s : State) (m : Byte) :
    (s.removeModule m).station = s.station ∧ (s.removeModule m).number = s.number ∧
    (s.removeModule m).config = s.config ∧ (s.removeModule m).peers = s.peers ∧
    (s.removeModule m).inReset = s.inReset ∧ (s.removeModule m).txQueue = s.txQueue ∧
    (s.removeModule m).rxQueue = s.rxQueue ∧ (s.removeModule m).outgoing = s.outgoing ∧
    (s.removeModule m).held = s.held ∧ (s.removeModule m).nextSequence = s.nextSequence ∧
    (s.removeModule m).line = s.line ∧ (s.removeModule m).busSeen = s.busSeen ∧
    (s.removeModule m).directory = s.directory ∧ (s.removeModule m).answers = s.answers ∧
    (s.removeModule m).nextGeneration = s.nextGeneration ∧ (s.removeModule m).refs = s.refs ∧
    (s.removeModule m).slots = s.slots ∧ (s.removeModule m).backlog = s.backlog ∧
    (s.removeModule m).patchQueue = s.patchQueue ∧ (s.removeModule m).walk = s.walk ∧
    (s.removeModule m).transfer = s.transfer ∧ (s.removeModule m).commandQueue = s.commandQueue ∧
    (s.removeModule m).lastSubmit = s.lastSubmit ∧ (s.removeModule m).command = s.command ∧
    (s.removeModule m).wanted = s.wanted ∧
    (s.removeModule m).modules = (s.modules.filter fun x => decide (x.id ≠ m)) ∧
    (s.removeModule m).notices = s.notices ∧ (s.removeModule m).granted = s.granted ∧
    (s.removeModule m).runs = s.runs ∧ (s.removeModule m).mem = s.mem ∧ (s.removeModule m).freeCount = s.freeCount ∧
    (s.removeModule m).pending = s.pending :=
  ⟨rfl, rfl, rfl, rfl, rfl, rfl, rfl, rfl, rfl, rfl, rfl, rfl, rfl, rfl, rfl, rfl, rfl, rfl, rfl, rfl, rfl, rfl,
    rfl, rfl, rfl, rfl, rfl, rfl, rfl, rfl, rfl, rfl⟩

@[simp] theorem forTransfers_fields (s : State) (env : Env) :
    (s.forTransfers env).station = s.station ∧ (s.forTransfers env).number = s.number ∧
    (s.forTransfers env).config = s.config ∧ (s.forTransfers env).peers = s.peers ∧
    (s.forTransfers env).inReset = s.inReset ∧ (s.forTransfers env).txQueue = s.txQueue ∧
    (s.forTransfers env).rxQueue = s.rxQueue ∧ (s.forTransfers env).outgoing = s.outgoing ∧
    (s.forTransfers env).held = s.held ∧ (s.forTransfers env).nextSequence = s.nextSequence ∧
    (s.forTransfers env).line = s.line ∧ (s.forTransfers env).busSeen = s.busSeen ∧
    (s.forTransfers env).directory = s.directory ∧ (s.forTransfers env).answers = s.answers ∧
    (s.forTransfers env).nextGeneration = s.nextGeneration ∧ (s.forTransfers env).refs = s.refs ∧
    (s.forTransfers env).slots = s.slots ∧ (s.forTransfers env).backlog = s.backlog ∧
    (s.forTransfers env).patchQueue = s.patchQueue ∧ (s.forTransfers env).walk = s.walk ∧
    (s.forTransfers env).transfer = s.transfer ∧ (s.forTransfers env).commandQueue = s.commandQueue ∧
    (s.forTransfers env).lastSubmit = s.lastSubmit ∧ (s.forTransfers env).command = s.command ∧
    (s.forTransfers env).wanted = s.wanted ∧ (s.forTransfers env).modules = s.modules ∧
    (s.forTransfers env).notices = s.notices ∧ (s.forTransfers env).granted = s.granted ∧
    (s.forTransfers env).runs = s.runs ∧ (s.forTransfers env).mem = s.mem.afterStores env.stores ∧
    (s.forTransfers env).freeCount = s.freeCount ∧ (s.forTransfers env).pending = s.pending :=
  ⟨rfl, rfl, rfl, rfl, rfl, rfl, rfl, rfl, rfl, rfl, rfl, rfl, rfl, rfl, rfl, rfl, rfl, rfl, rfl, rfl, rfl, rfl,
    rfl, rfl, rfl, rfl, rfl, rfl, rfl, rfl, rfl, rfl⟩

@[simp] theorem spoilWord_fields (s : State) (a : Nat) :
    (s.spoilWord a).station = s.station ∧ (s.spoilWord a).number = s.number ∧ (s.spoilWord a).config = s.config ∧
    (s.spoilWord a).peers = s.peers ∧ (s.spoilWord a).inReset = s.inReset ∧ (s.spoilWord a).txQueue = s.txQueue ∧
    (s.spoilWord a).rxQueue = s.rxQueue ∧ (s.spoilWord a).outgoing = s.outgoing ∧ (s.spoilWord a).held = s.held ∧
    (s.spoilWord a).nextSequence = s.nextSequence ∧ (s.spoilWord a).line = s.line ∧
    (s.spoilWord a).busSeen = s.busSeen ∧ (s.spoilWord a).directory = s.directory ∧
    (s.spoilWord a).answers = s.answers ∧ (s.spoilWord a).nextGeneration = s.nextGeneration ∧
    (s.spoilWord a).refs = s.refs ∧ (s.spoilWord a).slots = s.slots ∧ (s.spoilWord a).backlog = s.backlog ∧
    (s.spoilWord a).patchQueue = s.patchQueue ∧ (s.spoilWord a).walk = s.walk ∧
    (s.spoilWord a).transfer = s.transfer ∧ (s.spoilWord a).commandQueue = s.commandQueue ∧
    (s.spoilWord a).lastSubmit = s.lastSubmit ∧ (s.spoilWord a).command = s.command ∧
    (s.spoilWord a).wanted = s.wanted ∧ (s.spoilWord a).modules = s.modules ∧ (s.spoilWord a).notices = s.notices ∧
    (s.spoilWord a).granted = s.granted ∧ (s.spoilWord a).runs = s.runs ∧
    (s.spoilWord a).mem = s.mem.setWord a (Config.unknownWord s.freeCount) ∧
    (s.spoilWord a).freeCount = s.freeCount + 1 ∧ (s.spoilWord a).pending = s.pending :=
  ⟨rfl, rfl, rfl, rfl, rfl, rfl, rfl, rfl, rfl, rfl, rfl, rfl, rfl, rfl, rfl, rfl, rfl, rfl, rfl, rfl, rfl, rfl,
    rfl, rfl, rfl, rfl, rfl, rfl, rfl, rfl, rfl, rfl⟩

@[simp] theorem endCommand_fields (s : State) (tag : Half) (st : Status) (d : Nat) :
    (s.endCommand tag st d).station = s.station ∧ (s.endCommand tag st d).number = s.number ∧
    (s.endCommand tag st d).config = s.config ∧ (s.endCommand tag st d).peers = s.peers ∧
    (s.endCommand tag st d).inReset = s.inReset ∧ (s.endCommand tag st d).txQueue = s.txQueue ∧
    (s.endCommand tag st d).rxQueue = s.rxQueue ∧ (s.endCommand tag st d).outgoing = s.outgoing ∧
    (s.endCommand tag st d).held = s.held ∧ (s.endCommand tag st d).nextSequence = s.nextSequence ∧
    (s.endCommand tag st d).line = s.line ∧ (s.endCommand tag st d).busSeen = s.busSeen ∧
    (s.endCommand tag st d).directory = s.directory ∧ (s.endCommand tag st d).answers = s.answers ∧
    (s.endCommand tag st d).nextGeneration = s.nextGeneration ∧ (s.endCommand tag st d).refs = s.refs ∧
    (s.endCommand tag st d).slots = s.slots ∧ (s.endCommand tag st d).backlog = s.backlog ∧
    (s.endCommand tag st d).patchQueue = s.patchQueue ∧ (s.endCommand tag st d).walk = s.walk ∧
    (s.endCommand tag st d).transfer = s.transfer ∧ (s.endCommand tag st d).commandQueue = s.commandQueue.tail ∧
    (s.endCommand tag st d).lastSubmit = s.lastSubmit ∧ (s.endCommand tag st d).command = none ∧
    (s.endCommand tag st d).wanted = s.wanted ∧ (s.endCommand tag st d).modules = s.modules ∧
    (s.endCommand tag st d).notices = s.notices.take (.commandDone tag st d) ∧
    (s.endCommand tag st d).granted = s.granted ∧ (s.endCommand tag st d).runs = s.runs ∧
    (s.endCommand tag st d).mem = s.mem ∧ (s.endCommand tag st d).freeCount = s.freeCount ∧
    (s.endCommand tag st d).pending = s.pending :=
  ⟨rfl, rfl, rfl, rfl, rfl, rfl, rfl, rfl, rfl, rfl, rfl, rfl, rfl, rfl, rfl, rfl, rfl, rfl, rfl, rfl, rfl, rfl,
    rfl, rfl, rfl, rfl, rfl, rfl, rfl, rfl, rfl, rfl⟩

@[simp] theorem updatePeer_fields (s : State) (n : Station) (f : Peer → Peer) :
    (s.updatePeer n f).station = s.station ∧ (s.updatePeer n f).number = s.number ∧
    (s.updatePeer n f).config = s.config ∧ (s.updatePeer n f).peers = s.peers.modify n.val f ∧
    (s.updatePeer n f).inReset = s.inReset ∧ (s.updatePeer n f).txQueue = s.txQueue ∧
    (s.updatePeer n f).rxQueue = s.rxQueue ∧ (s.updatePeer n f).outgoing = s.outgoing ∧
    (s.updatePeer n f).held = s.held ∧ (s.updatePeer n f).nextSequence = s.nextSequence ∧
    (s.updatePeer n f).line = s.line ∧ (s.updatePeer n f).busSeen = s.busSeen ∧
    (s.updatePeer n f).directory = s.directory ∧ (s.updatePeer n f).answers = s.answers ∧
    (s.updatePeer n f).nextGeneration = s.nextGeneration ∧ (s.updatePeer n f).refs = s.refs ∧
    (s.updatePeer n f).slots = s.slots ∧ (s.updatePeer n f).backlog = s.backlog ∧
    (s.updatePeer n f).patchQueue = s.patchQueue ∧ (s.updatePeer n f).walk = s.walk ∧
    (s.updatePeer n f).transfer = s.transfer ∧ (s.updatePeer n f).commandQueue = s.commandQueue ∧
    (s.updatePeer n f).lastSubmit = s.lastSubmit ∧ (s.updatePeer n f).command = s.command ∧
    (s.updatePeer n f).wanted = s.wanted ∧ (s.updatePeer n f).modules = s.modules ∧
    (s.updatePeer n f).notices = s.notices ∧ (s.updatePeer n f).granted = s.granted ∧
    (s.updatePeer n f).runs = s.runs ∧ (s.updatePeer n f).mem = s.mem ∧ (s.updatePeer n f).freeCount = s.freeCount ∧
    (s.updatePeer n f).pending = s.pending :=
  ⟨rfl, rfl, rfl, rfl, rfl, rfl, rfl, rfl, rfl, rfl, rfl, rfl, rfl, rfl, rfl, rfl, rfl, rfl, rfl, rfl, rfl, rfl,
    rfl, rfl, rfl, rfl, rfl, rfl, rfl, rfl, rfl, rfl⟩

@[simp] theorem openWindow_fields (s : State) (bits : List Bool) (a : Arrival) :
    (s.openWindow bits a).station = s.station ∧ (s.openWindow bits a).number = s.number ∧
    (s.openWindow bits a).config = s.config ∧ (s.openWindow bits a).peers = s.peers ∧
    (s.openWindow bits a).inReset = s.inReset ∧ (s.openWindow bits a).txQueue = s.txQueue ∧
    (s.openWindow bits a).rxQueue = s.rxQueue ∧ (s.openWindow bits a).outgoing = s.outgoing ∧
    (s.openWindow bits a).held = s.held ∧ (s.openWindow bits a).nextSequence = s.nextSequence ∧
    (s.openWindow bits a).busSeen = s.busSeen ∧ (s.openWindow bits a).directory = s.directory ∧
    (s.openWindow bits a).answers = s.answers ∧ (s.openWindow bits a).nextGeneration = s.nextGeneration ∧
    (s.openWindow bits a).refs = s.refs ∧ (s.openWindow bits a).slots = s.slots ∧
    (s.openWindow bits a).backlog = s.backlog ∧ (s.openWindow bits a).patchQueue = s.patchQueue ∧
    (s.openWindow bits a).walk = s.walk ∧ (s.openWindow bits a).transfer = s.transfer ∧
    (s.openWindow bits a).commandQueue = s.commandQueue ∧ (s.openWindow bits a).lastSubmit = s.lastSubmit ∧
    (s.openWindow bits a).command = s.command ∧ (s.openWindow bits a).wanted = s.wanted ∧
    (s.openWindow bits a).modules = s.modules ∧ (s.openWindow bits a).notices = s.notices ∧
    (s.openWindow bits a).granted = s.granted ∧ (s.openWindow bits a).runs = s.runs ∧
    (s.openWindow bits a).mem = s.mem ∧ (s.openWindow bits a).freeCount = s.freeCount ∧
    (s.openWindow bits a).pending = s.pending :=
  ⟨rfl, rfl, rfl, rfl, rfl, rfl, rfl, rfl, rfl, rfl, rfl, rfl, rfl, rfl, rfl, rfl, rfl, rfl, rfl, rfl, rfl, rfl,
    rfl, rfl, rfl, rfl, rfl, rfl, rfl, rfl, rfl⟩

@[simp] theorem siteWritten_fields (s : State) (t : SiteTransfer) :
    (s.siteWritten t).station = s.station ∧ (s.siteWritten t).number = s.number ∧
    (s.siteWritten t).config = s.config ∧ (s.siteWritten t).peers = s.peers ∧ (s.siteWritten t).inReset = s.inReset ∧
    (s.siteWritten t).txQueue = s.txQueue ∧ (s.siteWritten t).rxQueue = s.rxQueue ∧
    (s.siteWritten t).outgoing = s.outgoing ∧ (s.siteWritten t).held = s.held ∧
    (s.siteWritten t).nextSequence = s.nextSequence ∧ (s.siteWritten t).line = s.line ∧
    (s.siteWritten t).busSeen = s.busSeen ∧ (s.siteWritten t).directory = s.directory ∧
    (s.siteWritten t).answers = s.answers ∧ (s.siteWritten t).nextGeneration = s.nextGeneration ∧
    (s.siteWritten t).refs = s.refs ∧ (s.siteWritten t).slots = s.slots ∧ (s.siteWritten t).backlog = s.backlog ∧
    (s.siteWritten t).patchQueue = s.patchQueue ∧ (s.siteWritten t).walk = s.walk ∧
    (s.siteWritten t).transfer = s.transfer ∧ (s.siteWritten t).commandQueue = s.commandQueue ∧
    (s.siteWritten t).lastSubmit = s.lastSubmit ∧ (s.siteWritten t).command = s.command ∧
    (s.siteWritten t).wanted = s.wanted ∧ (s.siteWritten t).modules = s.modules ∧
    (s.siteWritten t).notices = s.notices ∧ (s.siteWritten t).granted = s.granted ∧
    (s.siteWritten t).runs = s.runs ∧ (s.siteWritten t).freeCount = s.freeCount ∧
    (s.siteWritten t).pending = s.pending :=
  ⟨rfl, rfl, rfl, rfl, rfl, rfl, rfl, rfl, rfl, rfl, rfl, rfl, rfl, rfl, rfl, rfl, rfl, rfl, rfl, rfl, rfl, rfl,
    rfl, rfl, rfl, rfl, rfl, rfl, rfl, rfl, rfl⟩

@[simp] theorem enterToSend_fields (s : State) (n : Nat) (k : Key) (tries : Nat) :
    (s.enterToSend n k tries).station = s.station ∧ (s.enterToSend n k tries).number = s.number ∧
    (s.enterToSend n k tries).config = s.config ∧ (s.enterToSend n k tries).peers = s.peers ∧
    (s.enterToSend n k tries).inReset = s.inReset ∧ (s.enterToSend n k tries).txQueue = s.txQueue ∧
    (s.enterToSend n k tries).rxQueue = s.rxQueue ∧ (s.enterToSend n k tries).outgoing = s.outgoing ∧
    (s.enterToSend n k tries).held = s.held ∧ (s.enterToSend n k tries).nextSequence = s.nextSequence ∧
    (s.enterToSend n k tries).line = s.line ∧ (s.enterToSend n k tries).busSeen = s.busSeen ∧
    (s.enterToSend n k tries).directory = s.directory ∧ (s.enterToSend n k tries).answers = s.answers ∧
    (s.enterToSend n k tries).nextGeneration = s.nextGeneration ∧ (s.enterToSend n k tries).refs = s.refs ∧
    (s.enterToSend n k tries).backlog = s.backlog ∧ (s.enterToSend n k tries).patchQueue = s.patchQueue ∧
    (s.enterToSend n k tries).walk = s.walk ∧ (s.enterToSend n k tries).transfer = s.transfer ∧
    (s.enterToSend n k tries).commandQueue = s.commandQueue ∧ (s.enterToSend n k tries).lastSubmit = s.lastSubmit ∧
    (s.enterToSend n k tries).command = s.command ∧ (s.enterToSend n k tries).wanted = s.wanted ∧
    (s.enterToSend n k tries).modules = s.modules ∧ (s.enterToSend n k tries).notices = s.notices ∧
    (s.enterToSend n k tries).granted = s.granted ∧ (s.enterToSend n k tries).runs = s.runs ∧
    (s.enterToSend n k tries).mem = s.mem ∧ (s.enterToSend n k tries).freeCount = s.freeCount ∧
    (s.enterToSend n k tries).pending = s.pending :=
  ⟨rfl, rfl, rfl, rfl, rfl, rfl, rfl, rfl, rfl, rfl, rfl, rfl, rfl, rfl, rfl, rfl, rfl, rfl, rfl, rfl, rfl, rfl,
    rfl, rfl, rfl, rfl, rfl, rfl, rfl, rfl, rfl⟩

@[simp] theorem takeSlot_fields (s : State) (r : Ref) (n : Nat) :
    (s.takeSlot r n).station = s.station ∧ (s.takeSlot r n).number = s.number ∧ (s.takeSlot r n).config = s.config ∧
    (s.takeSlot r n).peers = s.peers ∧ (s.takeSlot r n).inReset = s.inReset ∧ (s.takeSlot r n).txQueue = s.txQueue ∧
    (s.takeSlot r n).rxQueue = s.rxQueue ∧ (s.takeSlot r n).outgoing = s.outgoing ∧ (s.takeSlot r n).held = s.held ∧
    (s.takeSlot r n).nextSequence = s.nextSequence ∧ (s.takeSlot r n).line = s.line ∧
    (s.takeSlot r n).busSeen = s.busSeen ∧ (s.takeSlot r n).directory = s.directory ∧
    (s.takeSlot r n).answers = s.answers ∧ (s.takeSlot r n).nextGeneration = s.nextGeneration ∧
    (s.takeSlot r n).backlog = s.backlog ∧ (s.takeSlot r n).patchQueue = s.patchQueue ∧
    (s.takeSlot r n).walk = s.walk ∧ (s.takeSlot r n).transfer = s.transfer ∧
    (s.takeSlot r n).commandQueue = s.commandQueue ∧ (s.takeSlot r n).lastSubmit = s.lastSubmit ∧
    (s.takeSlot r n).command = s.command ∧ (s.takeSlot r n).wanted = s.wanted ∧
    (s.takeSlot r n).modules = s.modules ∧ (s.takeSlot r n).notices = s.notices ∧
    (s.takeSlot r n).granted = s.granted ∧ (s.takeSlot r n).runs = s.runs ∧ (s.takeSlot r n).mem = s.mem ∧
    (s.takeSlot r n).freeCount = s.freeCount ∧ (s.takeSlot r n).pending = s.pending :=
  ⟨rfl, rfl, rfl, rfl, rfl, rfl, rfl, rfl, rfl, rfl, rfl, rfl, rfl, rfl, rfl, rfl, rfl, rfl, rfl, rfl, rfl, rfl,
    rfl, rfl, rfl, rfl, rfl, rfl, rfl, rfl⟩

@[simp] theorem joinQueued_fields (s : State) (k : Key) (n : Nat) :
    (s.joinQueued k n).station = s.station ∧ (s.joinQueued k n).number = s.number ∧
    (s.joinQueued k n).config = s.config ∧ (s.joinQueued k n).peers = s.peers ∧
    (s.joinQueued k n).inReset = s.inReset ∧ (s.joinQueued k n).txQueue = s.txQueue ∧
    (s.joinQueued k n).rxQueue = s.rxQueue ∧ (s.joinQueued k n).outgoing = s.outgoing ∧
    (s.joinQueued k n).held = s.held ∧ (s.joinQueued k n).nextSequence = s.nextSequence ∧
    (s.joinQueued k n).line = s.line ∧ (s.joinQueued k n).busSeen = s.busSeen ∧
    (s.joinQueued k n).directory = s.directory ∧ (s.joinQueued k n).answers = s.answers ∧
    (s.joinQueued k n).nextGeneration = s.nextGeneration ∧ (s.joinQueued k n).slots = s.slots ∧
    (s.joinQueued k n).patchQueue = s.patchQueue ∧ (s.joinQueued k n).walk = s.walk ∧
    (s.joinQueued k n).transfer = s.transfer ∧ (s.joinQueued k n).commandQueue = s.commandQueue ∧
    (s.joinQueued k n).lastSubmit = s.lastSubmit ∧ (s.joinQueued k n).command = s.command ∧
    (s.joinQueued k n).wanted = s.wanted ∧ (s.joinQueued k n).modules = s.modules ∧
    (s.joinQueued k n).notices = s.notices ∧ (s.joinQueued k n).granted = s.granted ∧
    (s.joinQueued k n).runs = s.runs ∧ (s.joinQueued k n).mem = s.mem ∧ (s.joinQueued k n).freeCount = s.freeCount ∧
    (s.joinQueued k n).pending = s.pending :=
  ⟨rfl, rfl, rfl, rfl, rfl, rfl, rfl, rfl, rfl, rfl, rfl, rfl, rfl, rfl, rfl, rfl, rfl, rfl, rfl, rfl, rfl, rfl,
    rfl, rfl, rfl, rfl, rfl, rfl, rfl, rfl⟩

@[simp] theorem freeEmptySlots_fields (s : State) :
    (s.freeEmptySlots).station = s.station ∧ (s.freeEmptySlots).number = s.number ∧
    (s.freeEmptySlots).config = s.config ∧ (s.freeEmptySlots).peers = s.peers ∧
    (s.freeEmptySlots).inReset = s.inReset ∧ (s.freeEmptySlots).txQueue = s.txQueue ∧
    (s.freeEmptySlots).rxQueue = s.rxQueue ∧ (s.freeEmptySlots).outgoing = s.outgoing ∧
    (s.freeEmptySlots).held = s.held ∧ (s.freeEmptySlots).nextSequence = s.nextSequence ∧
    (s.freeEmptySlots).line = s.line ∧ (s.freeEmptySlots).busSeen = s.busSeen ∧
    (s.freeEmptySlots).directory = s.directory ∧ (s.freeEmptySlots).answers = s.answers ∧
    (s.freeEmptySlots).nextGeneration = s.nextGeneration ∧ (s.freeEmptySlots).refs = s.refs ∧
    (s.freeEmptySlots).slots = keepUsedSlots s.refs 0 s.slots ∧ (s.freeEmptySlots).backlog = s.backlog ∧
    (s.freeEmptySlots).patchQueue = s.patchQueue ∧ (s.freeEmptySlots).walk = s.walk ∧
    (s.freeEmptySlots).transfer = s.transfer ∧ (s.freeEmptySlots).commandQueue = s.commandQueue ∧
    (s.freeEmptySlots).lastSubmit = s.lastSubmit ∧ (s.freeEmptySlots).command = s.command ∧
    (s.freeEmptySlots).wanted = s.wanted ∧ (s.freeEmptySlots).modules = s.modules ∧
    (s.freeEmptySlots).notices = s.notices ∧ (s.freeEmptySlots).granted = s.granted ∧
    (s.freeEmptySlots).runs = s.runs ∧ (s.freeEmptySlots).mem = s.mem ∧ (s.freeEmptySlots).freeCount = s.freeCount ∧
    (s.freeEmptySlots).pending = s.pending :=
  ⟨rfl, rfl, rfl, rfl, rfl, rfl, rfl, rfl, rfl, rfl, rfl, rfl, rfl, rfl, rfl, rfl, rfl, rfl, rfl, rfl, rfl, rfl,
    rfl, rfl, rfl, rfl, rfl, rfl, rfl, rfl, rfl, rfl⟩

@[simp] theorem appendWalks_fields (s : State) :
    (s.appendWalks).station = s.station ∧ (s.appendWalks).number = s.number ∧ (s.appendWalks).config = s.config ∧
    (s.appendWalks).peers = s.peers ∧ (s.appendWalks).inReset = s.inReset ∧ (s.appendWalks).txQueue = s.txQueue ∧
    (s.appendWalks).rxQueue = s.rxQueue ∧ (s.appendWalks).outgoing = s.outgoing ∧ (s.appendWalks).held = s.held ∧
    (s.appendWalks).nextSequence = s.nextSequence ∧ (s.appendWalks).line = s.line ∧
    (s.appendWalks).busSeen = s.busSeen ∧ (s.appendWalks).directory = s.directory ∧
    (s.appendWalks).answers = s.answers ∧ (s.appendWalks).nextGeneration = s.nextGeneration ∧
    (s.appendWalks).refs = s.refs ∧ (s.appendWalks).slots = s.slots ∧ (s.appendWalks).backlog = s.backlog ∧
    (s.appendWalks).walk = s.walk ∧ (s.appendWalks).transfer = s.transfer ∧
    (s.appendWalks).commandQueue = s.commandQueue ∧ (s.appendWalks).lastSubmit = s.lastSubmit ∧
    (s.appendWalks).command = s.command ∧ (s.appendWalks).wanted = s.wanted ∧ (s.appendWalks).modules = s.modules ∧
    (s.appendWalks).notices = s.notices ∧ (s.appendWalks).granted = s.granted ∧ (s.appendWalks).runs = s.runs ∧
    (s.appendWalks).mem = s.mem ∧ (s.appendWalks).freeCount = s.freeCount ∧ (s.appendWalks).pending = s.pending :=
  ⟨rfl, rfl, rfl, rfl, rfl, rfl, rfl, rfl, rfl, rfl, rfl, rfl, rfl, rfl, rfl, rfl, rfl, rfl, rfl, rfl, rfl, rfl,
    rfl, rfl, rfl, rfl, rfl, rfl, rfl, rfl, rfl⟩

@[simp] theorem withdrawRequests_fields (s : State) :
    (s.withdrawRequests).station = s.station ∧ (s.withdrawRequests).number = s.number ∧
    (s.withdrawRequests).config = s.config ∧ (s.withdrawRequests).peers = s.peers ∧
    (s.withdrawRequests).inReset = s.inReset ∧ (s.withdrawRequests).txQueue = s.txQueue ∧
    (s.withdrawRequests).rxQueue = s.rxQueue ∧ (s.withdrawRequests).outgoing = s.outgoing ∧
    (s.withdrawRequests).held = s.held ∧ (s.withdrawRequests).nextSequence = s.nextSequence ∧
    (s.withdrawRequests).line = s.line ∧ (s.withdrawRequests).busSeen = s.busSeen ∧
    (s.withdrawRequests).directory = s.directory ∧ (s.withdrawRequests).answers = s.answers ∧
    (s.withdrawRequests).nextGeneration = s.nextGeneration ∧ (s.withdrawRequests).refs = s.refs ∧
    (s.withdrawRequests).backlog = s.backlog ∧ (s.withdrawRequests).patchQueue = s.patchQueue ∧
    (s.withdrawRequests).walk = s.walk ∧ (s.withdrawRequests).transfer = s.transfer ∧
    (s.withdrawRequests).commandQueue = s.commandQueue ∧ (s.withdrawRequests).lastSubmit = s.lastSubmit ∧
    (s.withdrawRequests).command = s.command ∧ (s.withdrawRequests).wanted = [] ∧
    (s.withdrawRequests).modules = s.modules ∧ (s.withdrawRequests).notices = s.notices ∧
    (s.withdrawRequests).granted = s.granted ∧ (s.withdrawRequests).runs = s.runs ∧
    (s.withdrawRequests).mem = s.mem ∧ (s.withdrawRequests).freeCount = s.freeCount ∧
    (s.withdrawRequests).pending = s.pending :=
  ⟨rfl, rfl, rfl, rfl, rfl, rfl, rfl, rfl, rfl, rfl, rfl, rfl, rfl, rfl, rfl, rfl, rfl, rfl, rfl, rfl, rfl, rfl,
    rfl, rfl, rfl, rfl, rfl, rfl, rfl, rfl, rfl⟩

@[simp] theorem cutFromBus_fields (s : State) :
    (s.cutFromBus).station = .isolated ∧ (s.cutFromBus).number = s.number ∧ (s.cutFromBus).config = s.config ∧
    (s.cutFromBus).peers = s.peers ∧ (s.cutFromBus).inReset = s.inReset ∧ (s.cutFromBus).txQueue = [] ∧
    (s.cutFromBus).rxQueue = [] ∧ (s.cutFromBus).outgoing = none ∧ (s.cutFromBus).held = none ∧
    (s.cutFromBus).nextSequence = s.nextSequence ∧ (s.cutFromBus).line = .quiet ∧
    (s.cutFromBus).busSeen = s.busSeen ∧ (s.cutFromBus).directory = s.directory.map ExportEntry.isolated ∧
    (s.cutFromBus).answers = [] ∧ (s.cutFromBus).nextGeneration = s.nextGeneration ∧ (s.cutFromBus).refs = s.refs ∧
    (s.cutFromBus).slots = s.slots.map (Option.map Slot.isolated) ∧ (s.cutFromBus).backlog = s.backlog ∧
    (s.cutFromBus).patchQueue = s.patchQueue ∧ (s.cutFromBus).walk = s.walk ∧ (s.cutFromBus).transfer = s.transfer ∧
    (s.cutFromBus).commandQueue = s.commandQueue ∧ (s.cutFromBus).lastSubmit = s.lastSubmit ∧
    (s.cutFromBus).command = s.command ∧ (s.cutFromBus).wanted = [] ∧ (s.cutFromBus).modules = s.modules ∧
    (s.cutFromBus).notices = s.notices ∧ (s.cutFromBus).granted = s.granted ∧ (s.cutFromBus).runs = s.runs ∧
    (s.cutFromBus).mem = s.mem ∧ (s.cutFromBus).freeCount = s.freeCount ∧ (s.cutFromBus).pending = s.pending :=
  ⟨rfl, rfl, rfl, rfl, rfl, rfl, rfl, rfl, rfl, rfl, rfl, rfl, rfl, rfl, rfl, rfl, rfl, rfl, rfl, rfl, rfl, rfl,
    rfl, rfl, rfl, rfl, rfl, rfl, rfl, rfl, rfl, rfl⟩

@[simp] theorem withdrawEntries_fields (s : State) (m : Byte) :
    (s.withdrawEntries m).station = s.station ∧ (s.withdrawEntries m).number = s.number ∧
    (s.withdrawEntries m).config = s.config ∧ (s.withdrawEntries m).peers = s.peers ∧
    (s.withdrawEntries m).inReset = s.inReset ∧ (s.withdrawEntries m).txQueue = s.txQueue ∧
    (s.withdrawEntries m).rxQueue = s.rxQueue ∧ (s.withdrawEntries m).outgoing = s.outgoing ∧
    (s.withdrawEntries m).held = s.held ∧ (s.withdrawEntries m).nextSequence = s.nextSequence ∧
    (s.withdrawEntries m).busSeen = s.busSeen ∧
    (s.withdrawEntries m).directory = (s.directory.filterMap fun e => e.withdrawn m) ∧
    (s.withdrawEntries m).nextGeneration = s.nextGeneration ∧ (s.withdrawEntries m).refs = s.refs ∧
    (s.withdrawEntries m).slots = s.slots ∧ (s.withdrawEntries m).backlog = s.backlog ∧
    (s.withdrawEntries m).patchQueue = s.patchQueue ∧ (s.withdrawEntries m).walk = s.walk ∧
    (s.withdrawEntries m).transfer = s.transfer ∧ (s.withdrawEntries m).commandQueue = s.commandQueue ∧
    (s.withdrawEntries m).lastSubmit = s.lastSubmit ∧ (s.withdrawEntries m).command = s.command ∧
    (s.withdrawEntries m).wanted = s.wanted ∧ (s.withdrawEntries m).modules = s.modules ∧
    (s.withdrawEntries m).notices = s.notices ∧ (s.withdrawEntries m).granted = s.granted ∧
    (s.withdrawEntries m).runs = s.runs ∧ (s.withdrawEntries m).mem = s.mem ∧
    (s.withdrawEntries m).freeCount = s.freeCount ∧ (s.withdrawEntries m).pending = s.pending :=
  ⟨rfl, rfl, rfl, rfl, rfl, rfl, rfl, rfl, rfl, rfl, rfl, rfl, rfl, rfl, rfl, rfl, rfl, rfl, rfl, rfl, rfl, rfl,
    rfl, rfl, rfl, rfl, rfl, rfl, rfl, rfl⟩

@[simp] theorem dropBinding_fields (c : RevocationCause) (s : State) (r : Ref) :
    (s.dropBinding c r).station = s.station ∧ (s.dropBinding c r).number = s.number ∧
    (s.dropBinding c r).config = s.config ∧ (s.dropBinding c r).peers = s.peers ∧
    (s.dropBinding c r).inReset = s.inReset ∧ (s.dropBinding c r).txQueue = s.txQueue ∧
    (s.dropBinding c r).rxQueue = s.rxQueue ∧ (s.dropBinding c r).outgoing = s.outgoing ∧
    (s.dropBinding c r).held = s.held ∧ (s.dropBinding c r).nextSequence = s.nextSequence ∧
    (s.dropBinding c r).line = s.line ∧ (s.dropBinding c r).busSeen = s.busSeen ∧
    (s.dropBinding c r).directory = s.directory ∧ (s.dropBinding c r).answers = s.answers ∧
    (s.dropBinding c r).nextGeneration = s.nextGeneration ∧ (s.dropBinding c r).slots = s.slots ∧
    (s.dropBinding c r).backlog = s.backlog ∧ (s.dropBinding c r).patchQueue = s.patchQueue ∧
    (s.dropBinding c r).walk = s.walk ∧ (s.dropBinding c r).transfer = s.transfer ∧
    (s.dropBinding c r).commandQueue = s.commandQueue ∧ (s.dropBinding c r).lastSubmit = s.lastSubmit ∧
    (s.dropBinding c r).command = s.command ∧ (s.dropBinding c r).wanted = s.wanted ∧
    (s.dropBinding c r).modules = s.modules ∧
    (s.dropBinding c r).notices = s.notices.take (.referenceRevoked r.owner c) ∧
    (s.dropBinding c r).granted = s.granted ∧ (s.dropBinding c r).runs = s.runs ∧
    (s.dropBinding c r).mem = s.mem ∧ (s.dropBinding c r).freeCount = s.freeCount ∧
    (s.dropBinding c r).pending = s.pending :=
  ⟨rfl, rfl, rfl, rfl, rfl, rfl, rfl, rfl, rfl, rfl, rfl, rfl, rfl, rfl, rfl, rfl, rfl, rfl, rfl, rfl, rfl, rfl,
    rfl, rfl, rfl, rfl, rfl, rfl, rfl, rfl, rfl⟩

@[simp] theorem removeRefs_fields (s : State) (m : Byte) (b : Bool) :
    (s.removeRefs m b).station = s.station ∧ (s.removeRefs m b).number = s.number ∧
    (s.removeRefs m b).config = s.config ∧ (s.removeRefs m b).peers = s.peers ∧
    (s.removeRefs m b).inReset = s.inReset ∧ (s.removeRefs m b).txQueue = s.txQueue ∧
    (s.removeRefs m b).rxQueue = s.rxQueue ∧ (s.removeRefs m b).outgoing = s.outgoing ∧
    (s.removeRefs m b).held = s.held ∧ (s.removeRefs m b).nextSequence = s.nextSequence ∧
    (s.removeRefs m b).line = s.line ∧ (s.removeRefs m b).busSeen = s.busSeen ∧
    (s.removeRefs m b).directory = s.directory ∧ (s.removeRefs m b).answers = s.answers ∧
    (s.removeRefs m b).nextGeneration = s.nextGeneration ∧
    (s.removeRefs m b).refs = (s.refs.filter fun r => decide (r.owner.module ≠ m)) ∧
    (s.removeRefs m b).backlog = (s.backlog.filter fun o => decide (o.module ≠ m)) ∧
    (s.removeRefs m b).patchQueue = (s.patchQueue.filter fun o => decide (o.module ≠ m)) ∧
    (s.removeRefs m b).commandQueue = s.commandQueue ∧ (s.removeRefs m b).lastSubmit = s.lastSubmit ∧
    (s.removeRefs m b).command = s.command ∧ (s.removeRefs m b).wanted = s.wanted ∧
    (s.removeRefs m b).modules = s.modules ∧ (s.removeRefs m b).notices = s.notices ∧
    (s.removeRefs m b).granted = s.granted ∧ (s.removeRefs m b).runs = s.runs ∧
    (s.removeRefs m b).mem = s.mem ∧ (s.removeRefs m b).freeCount = s.freeCount ∧
    (s.removeRefs m b).pending = s.pending :=
  ⟨rfl, rfl, rfl, rfl, rfl, rfl, rfl, rfl, rfl, rfl, rfl, rfl, rfl, rfl, rfl, rfl, rfl, rfl, rfl, rfl, rfl, rfl,
    rfl, rfl, rfl, rfl, rfl, rfl, rfl⟩

@[simp] theorem endFetch_fields (s : State) :
    (s.endFetch).station = s.station ∧ (s.endFetch).number = s.number ∧ (s.endFetch).config = s.config ∧
    (s.endFetch).peers = s.peers ∧ (s.endFetch).inReset = s.inReset ∧ (s.endFetch).txQueue = s.txQueue ∧
    (s.endFetch).rxQueue = s.rxQueue ∧ (s.endFetch).outgoing = s.outgoing ∧ (s.endFetch).held = s.held ∧
    (s.endFetch).nextSequence = s.nextSequence ∧ (s.endFetch).line = s.line ∧ (s.endFetch).busSeen = s.busSeen ∧
    (s.endFetch).directory = s.directory ∧ (s.endFetch).answers = s.answers ∧
    (s.endFetch).nextGeneration = s.nextGeneration ∧ (s.endFetch).refs = s.refs ∧ (s.endFetch).slots = s.slots ∧
    (s.endFetch).backlog = s.backlog ∧ (s.endFetch).patchQueue = s.patchQueue ∧ (s.endFetch).walk = s.walk ∧
    (s.endFetch).transfer = s.transfer ∧ (s.endFetch).commandQueue = s.commandQueue ∧
    (s.endFetch).lastSubmit = s.lastSubmit ∧ (s.endFetch).command = s.command ∧ (s.endFetch).wanted = s.wanted ∧
    (s.endFetch).modules = s.modules ∧ (s.endFetch).notices = s.notices ∧ (s.endFetch).granted = s.granted ∧
    (s.endFetch).runs = { s.runs with fetched := [] } ∧ (s.endFetch).mem = s.mem ∧
    (s.endFetch).freeCount = s.freeCount ∧ (s.endFetch).pending = s.pending :=
  ⟨rfl, rfl, rfl, rfl, rfl, rfl, rfl, rfl, rfl, rfl, rfl, rfl, rfl, rfl, rfl, rfl, rfl, rfl, rfl, rfl, rfl, rfl,
    rfl, rfl, rfl, rfl, rfl, rfl, rfl, rfl, rfl, rfl⟩

@[simp] theorem setRecord_fields (s : State) (x : Option TakenRecord) :
    (s.setRecord x).station = s.station ∧ (s.setRecord x).number = s.number ∧ (s.setRecord x).config = s.config ∧
    (s.setRecord x).peers = s.peers ∧ (s.setRecord x).inReset = s.inReset ∧ (s.setRecord x).txQueue = s.txQueue ∧
    (s.setRecord x).rxQueue = s.rxQueue ∧ (s.setRecord x).outgoing = s.outgoing ∧ (s.setRecord x).held = s.held ∧
    (s.setRecord x).nextSequence = s.nextSequence ∧ (s.setRecord x).line = s.line ∧
    (s.setRecord x).busSeen = s.busSeen ∧ (s.setRecord x).directory = s.directory ∧
    (s.setRecord x).answers = s.answers ∧ (s.setRecord x).nextGeneration = s.nextGeneration ∧
    (s.setRecord x).refs = s.refs ∧ (s.setRecord x).slots = s.slots ∧ (s.setRecord x).backlog = s.backlog ∧
    (s.setRecord x).patchQueue = s.patchQueue ∧ (s.setRecord x).walk = s.walk ∧
    (s.setRecord x).transfer = s.transfer ∧ (s.setRecord x).commandQueue = s.commandQueue ∧
    (s.setRecord x).lastSubmit = s.lastSubmit ∧ (s.setRecord x).command = s.command ∧
    (s.setRecord x).wanted = s.wanted ∧ (s.setRecord x).modules = s.modules ∧ (s.setRecord x).notices = s.notices ∧
    (s.setRecord x).granted = s.granted ∧ (s.setRecord x).runs = { s.runs with record := x } ∧
    (s.setRecord x).mem = s.mem ∧ (s.setRecord x).freeCount = s.freeCount ∧ (s.setRecord x).pending = s.pending :=
  ⟨rfl, rfl, rfl, rfl, rfl, rfl, rfl, rfl, rfl, rfl, rfl, rfl, rfl, rfl, rfl, rfl, rfl, rfl, rfl, rfl, rfl, rfl,
    rfl, rfl, rfl, rfl, rfl, rfl, rfl, rfl, rfl, rfl⟩

@[simp] theorem setNoticeWords_fields (s : State) (n : Nat) :
    (s.setNoticeWords n).station = s.station ∧ (s.setNoticeWords n).number = s.number ∧
    (s.setNoticeWords n).config = s.config ∧ (s.setNoticeWords n).peers = s.peers ∧
    (s.setNoticeWords n).inReset = s.inReset ∧ (s.setNoticeWords n).txQueue = s.txQueue ∧
    (s.setNoticeWords n).rxQueue = s.rxQueue ∧ (s.setNoticeWords n).outgoing = s.outgoing ∧
    (s.setNoticeWords n).held = s.held ∧ (s.setNoticeWords n).nextSequence = s.nextSequence ∧
    (s.setNoticeWords n).line = s.line ∧ (s.setNoticeWords n).busSeen = s.busSeen ∧
    (s.setNoticeWords n).directory = s.directory ∧ (s.setNoticeWords n).answers = s.answers ∧
    (s.setNoticeWords n).nextGeneration = s.nextGeneration ∧ (s.setNoticeWords n).refs = s.refs ∧
    (s.setNoticeWords n).slots = s.slots ∧ (s.setNoticeWords n).backlog = s.backlog ∧
    (s.setNoticeWords n).patchQueue = s.patchQueue ∧ (s.setNoticeWords n).walk = s.walk ∧
    (s.setNoticeWords n).transfer = s.transfer ∧ (s.setNoticeWords n).commandQueue = s.commandQueue ∧
    (s.setNoticeWords n).lastSubmit = s.lastSubmit ∧ (s.setNoticeWords n).command = s.command ∧
    (s.setNoticeWords n).wanted = s.wanted ∧ (s.setNoticeWords n).modules = s.modules ∧
    (s.setNoticeWords n).notices = s.notices ∧ (s.setNoticeWords n).granted = s.granted ∧
    (s.setNoticeWords n).runs = { s.runs with noticeWords := n } ∧ (s.setNoticeWords n).mem = s.mem ∧
    (s.setNoticeWords n).freeCount = s.freeCount ∧ (s.setNoticeWords n).pending = s.pending :=
  ⟨rfl, rfl, rfl, rfl, rfl, rfl, rfl, rfl, rfl, rfl, rfl, rfl, rfl, rfl, rfl, rfl, rfl, rfl, rfl, rfl, rfl, rfl,
    rfl, rfl, rfl, rfl, rfl, rfl, rfl, rfl, rfl, rfl⟩

@[simp] theorem siteSpoilt_fields (s : State) (t : SiteTransfer) :
    (s.siteSpoilt t).station = s.station ∧ (s.siteSpoilt t).number = s.number ∧ (s.siteSpoilt t).config = s.config ∧
    (s.siteSpoilt t).peers = s.peers ∧ (s.siteSpoilt t).inReset = s.inReset ∧ (s.siteSpoilt t).txQueue = s.txQueue ∧
    (s.siteSpoilt t).rxQueue = s.rxQueue ∧ (s.siteSpoilt t).outgoing = s.outgoing ∧ (s.siteSpoilt t).held = s.held ∧
    (s.siteSpoilt t).nextSequence = s.nextSequence ∧ (s.siteSpoilt t).line = s.line ∧
    (s.siteSpoilt t).busSeen = s.busSeen ∧ (s.siteSpoilt t).directory = s.directory ∧
    (s.siteSpoilt t).answers = s.answers ∧ (s.siteSpoilt t).nextGeneration = s.nextGeneration ∧
    (s.siteSpoilt t).refs = s.refs ∧ (s.siteSpoilt t).slots = s.slots ∧ (s.siteSpoilt t).backlog = s.backlog ∧
    (s.siteSpoilt t).patchQueue = s.patchQueue ∧ (s.siteSpoilt t).walk = s.walk ∧
    (s.siteSpoilt t).transfer = s.transfer ∧ (s.siteSpoilt t).commandQueue = s.commandQueue ∧
    (s.siteSpoilt t).lastSubmit = s.lastSubmit ∧ (s.siteSpoilt t).command = s.command ∧
    (s.siteSpoilt t).wanted = s.wanted ∧ (s.siteSpoilt t).modules = s.modules ∧
    (s.siteSpoilt t).notices = s.notices ∧ (s.siteSpoilt t).granted = s.granted ∧
    (s.siteSpoilt t).runs = s.runs ∧ (s.siteSpoilt t).freeCount = s.freeCount + 1 ∧
    (s.siteSpoilt t).pending = s.pending :=
  ⟨rfl, rfl, rfl, rfl, rfl, rfl, rfl, rfl, rfl, rfl, rfl, rfl, rfl, rfl, rfl, rfl, rfl, rfl, rfl, rfl, rfl, rfl,
    rfl, rfl, rfl, rfl, rfl, rfl, rfl, rfl, rfl⟩

@[simp] theorem withoutLoading_fields (s : State) :
    (s.withoutLoading).station = s.station ∧ (s.withoutLoading).number = s.number ∧
    (s.withoutLoading).config = s.config ∧ (s.withoutLoading).peers = s.peers ∧
    (s.withoutLoading).inReset = s.inReset ∧ (s.withoutLoading).txQueue = s.txQueue ∧
    (s.withoutLoading).rxQueue = s.rxQueue ∧ (s.withoutLoading).outgoing = s.outgoing ∧
    (s.withoutLoading).held = s.held ∧ (s.withoutLoading).nextSequence = s.nextSequence ∧
    (s.withoutLoading).line = s.line ∧ (s.withoutLoading).busSeen = s.busSeen ∧
    (s.withoutLoading).directory = s.directory ∧ (s.withoutLoading).answers = s.answers ∧
    (s.withoutLoading).nextGeneration = s.nextGeneration ∧ (s.withoutLoading).refs = s.refs ∧
    (s.withoutLoading).slots = s.slots ∧ (s.withoutLoading).backlog = s.backlog ∧
    (s.withoutLoading).patchQueue = s.patchQueue ∧ (s.withoutLoading).walk = s.walk ∧
    (s.withoutLoading).transfer = s.transfer ∧ (s.withoutLoading).commandQueue = s.commandQueue ∧
    (s.withoutLoading).lastSubmit = s.lastSubmit ∧ (s.withoutLoading).command = s.command ∧
    (s.withoutLoading).wanted = s.wanted ∧ (s.withoutLoading).modules = s.otherModules ∧
    (s.withoutLoading).notices = s.notices ∧ (s.withoutLoading).granted = s.granted ∧
    (s.withoutLoading).runs = s.runs ∧ (s.withoutLoading).mem = s.mem ∧ (s.withoutLoading).freeCount = s.freeCount ∧
    (s.withoutLoading).pending = s.pending :=
  ⟨rfl, rfl, rfl, rfl, rfl, rfl, rfl, rfl, rfl, rfl, rfl, rfl, rfl, rfl, rfl, rfl, rfl, rfl, rfl, rfl, rfl, rfl,
    rfl, rfl, rfl, rfl, rfl, rfl, rfl, rfl, rfl, rfl⟩

@[simp] theorem forReading_fields (s : State) (env : Env) :
    (s.forReading env).station = s.station ∧ (s.forReading env).number = s.number ∧
    (s.forReading env).config = s.config ∧ (s.forReading env).peers = s.peers ∧
    (s.forReading env).inReset = s.inReset ∧ (s.forReading env).txQueue = s.txQueue ∧
    (s.forReading env).rxQueue = s.rxQueue ∧ (s.forReading env).outgoing = s.outgoing ∧
    (s.forReading env).held = s.held ∧ (s.forReading env).nextSequence = s.nextSequence ∧
    (s.forReading env).line = s.line ∧ (s.forReading env).busSeen = s.busSeen ∧
    (s.forReading env).directory = s.directory ∧ (s.forReading env).answers = s.answers ∧
    (s.forReading env).nextGeneration = s.nextGeneration ∧ (s.forReading env).refs = s.refs ∧
    (s.forReading env).slots = s.slots ∧ (s.forReading env).backlog = s.backlog ∧
    (s.forReading env).patchQueue = s.patchQueue ∧ (s.forReading env).walk = s.walk ∧
    (s.forReading env).transfer = s.transfer ∧ (s.forReading env).commandQueue = s.commandQueue ∧
    (s.forReading env).lastSubmit = s.lastSubmit ∧ (s.forReading env).command = s.command ∧
    (s.forReading env).wanted = s.wanted ∧ (s.forReading env).modules = s.otherModules ∧
    (s.forReading env).notices = s.notices ∧ (s.forReading env).granted = s.granted ∧
    (s.forReading env).runs = s.runs ∧ (s.forReading env).mem = s.mem.afterStores env.stores ∧
    (s.forReading env).freeCount = s.freeCount ∧ (s.forReading env).pending = s.pending :=
  ⟨rfl, rfl, rfl, rfl, rfl, rfl, rfl, rfl, rfl, rfl, rfl, rfl, rfl, rfl, rfl, rfl, rfl, rfl, rfl, rfl, rfl, rfl,
    rfl, rfl, rfl, rfl, rfl, rfl, rfl, rfl, rfl, rfl⟩

@[simp] theorem served_fields (s : State) (c : Claimant) :
    (s.served c).station = s.station ∧ (s.served c).number = s.number ∧
    (s.served c).config = s.config ∧ (s.served c).peers = s.peers ∧
    (s.served c).inReset = s.inReset ∧ (s.served c).txQueue = s.txQueue ∧
    (s.served c).rxQueue = s.rxQueue ∧ (s.served c).outgoing = s.outgoing ∧
    (s.served c).held = s.held ∧ (s.served c).nextSequence = s.nextSequence ∧
    (s.served c).line = s.line ∧ (s.served c).busSeen = s.busSeen ∧
    (s.served c).directory = s.directory ∧ (s.served c).answers = s.answers ∧
    (s.served c).nextGeneration = s.nextGeneration ∧ (s.served c).refs = s.refs ∧
    (s.served c).slots = s.slots ∧ (s.served c).backlog = s.backlog ∧
    (s.served c).patchQueue = s.patchQueue ∧ (s.served c).walk = s.walk ∧
    (s.served c).transfer = s.transfer ∧ (s.served c).commandQueue = s.commandQueue ∧
    (s.served c).lastSubmit = s.lastSubmit ∧ (s.served c).command = s.command ∧
    (s.served c).wanted = s.wanted ∧ (s.served c).modules = s.modules ∧
    (s.served c).notices = s.notices ∧ (s.served c).granted = s.grantAfter c ∧
    (s.served c).runs = s.runs ∧ (s.served c).mem = s.mem ∧ (s.served c).freeCount = s.freeCount ∧
    (s.served c).pending = s.pending :=
  ⟨rfl, rfl, rfl, rfl, rfl, rfl, rfl, rfl, rfl, rfl, rfl, rfl, rfl, rfl, rfl, rfl, rfl, rfl, rfl, rfl, rfl, rfl,
    rfl, rfl, rfl, rfl, rfl, rfl, rfl, rfl, rfl, rfl⟩

@[simp] theorem settleAgent_fields (s : State) :
    s.settleAgent.station = s.station ∧ s.settleAgent.number = s.number ∧
    s.settleAgent.config = s.config ∧ s.settleAgent.peers = s.peers ∧
    s.settleAgent.inReset = s.inReset ∧ s.settleAgent.txQueue = s.txQueue ∧
    s.settleAgent.rxQueue = s.rxQueue ∧ s.settleAgent.outgoing = s.outgoing ∧
    s.settleAgent.held = s.held ∧ s.settleAgent.nextSequence = s.nextSequence ∧
    s.settleAgent.line = s.line ∧ s.settleAgent.busSeen = s.busSeen ∧
    s.settleAgent.directory = s.directory ∧ s.settleAgent.answers = s.answers ∧
    s.settleAgent.nextGeneration = s.nextGeneration ∧ s.settleAgent.refs = s.refs ∧
    s.settleAgent.slots = s.slots ∧ s.settleAgent.backlog = s.backlog ∧
    s.settleAgent.patchQueue = s.patchQueue ∧ s.settleAgent.walk = s.walk ∧
    s.settleAgent.transfer = s.transfer ∧ s.settleAgent.commandQueue = s.commandQueue ∧
    s.settleAgent.lastSubmit = s.lastSubmit ∧ s.settleAgent.command = s.command ∧
    s.settleAgent.wanted = s.wanted ∧ s.settleAgent.modules = s.modules ∧
    s.settleAgent.notices = s.notices  ∧
    s.settleAgent.runs = s.runs ∧ s.settleAgent.mem = s.mem ∧ s.settleAgent.freeCount = s.freeCount ∧
    s.settleAgent.pending = s.pending :=
  ⟨rfl, rfl, rfl, rfl, rfl, rfl, rfl, rfl, rfl, rfl, rfl, rfl, rfl, rfl, rfl, rfl, rfl, rfl, rfl, rfl, rfl, rfl,
    rfl, rfl, rfl, rfl, rfl, rfl, rfl, rfl, rfl⟩

end Sys2Proof.Machine
end

