-- ==== Sys2Proof/Laws/Agent.lean ====
section
/-! SUPPORT. What the memory agent's operations can do, said once: who is granted, and the law of the grant (R182). -/

namespace Sys2Proof.Machine

/-- What waits does not depend on who is granted. -/
@[simp] theorem asks_granted (s : State) (l : List Claimant) : ({ s with granted := l } : State).asks = s.asks := by
  funext c
  cases c <;> rfl

@[simp] theorem served_asks (s : State) (c : Claimant) : (s.served c).asks = s.asks := asks_granted s _

@[simp] theorem settleAgent_asks (s : State) : s.settleAgent.asks = s.asks := asks_granted s _

theorem mem_rotationAfter (c x : Claimant) : x ∈ rotationAfter c := by cases c <;> cases x <;> decide

theorem mem_claimants (c : Claimant) : c ∈ claimants := by cases c <;> decide

/-- The claimant granted after `c` has a transfer to make. -/
theorem asks_of_mem_grantAfter {s : State} {c x : Claimant} (h : x ∈ s.grantAfter c) : s.asks x = true := by
  rw [State.grantAfter, Option.mem_toList] at h
  exact List.find?_some h

/-- One claimant is granted whenever one waits. -/
theorem grantAfter_ne_nil {s : State} (c : Claimant) {x : Claimant} (h : s.asks x = true) : s.grantAfter c ≠ [] := by
  rw [State.grantAfter]
  cases hf : (rotationAfter c).find? s.asks with
  | none => exact absurd h (by simp [List.find?_eq_none.mp hf x (mem_rotationAfter c x)])
  | some y => simp

theorem grantAfter_nodup (s : State) (c : Claimant) : (s.grantAfter c).Nodup := by
  rw [State.grantAfter]
  cases (rotationAfter c).find? s.asks <;> simp

/-- The end of a claimant's transfers leaves the law of the grant. -/
theorem served_agentLaw (s : State) (c : Claimant) : (s.served c).AgentLaw where
  asking x h := by rw [served_asks]; exact asks_of_mem_grantAfter h
  once := grantAfter_nodup s c
  busy x h := grantAfter_ne_nil c (by rwa [served_asks] at h)

/-- The end of any other event leaves it, too, where no claimant was granted twice. -/
theorem settleAgent_agentLaw {s : State} (once : s.granted.Nodup) : s.settleAgent.AgentLaw := by
  have key : ∀ l : List Claimant, (∀ c ∈ l, s.asks c = true) → l.Nodup → (∀ c, s.asks c = true → l ≠ []) →
      ({ s with granted := l } : State).AgentLaw := fun l h1 h2 h3 =>
    ⟨fun c hc => by rw [asks_granted]; exact h1 c hc, h2, fun c hc => h3 c (by rwa [asks_granted] at hc)⟩
  unfold State.settleAgent
  split
  · next h =>
    obtain ⟨x, hx, hax⟩ := List.any_eq_true.mp h
    exact key _ (fun c hc => (List.mem_filter.mp hc).2) (once.filter _)
      fun _ _ => List.ne_nil_of_mem (List.mem_filter.mpr ⟨hx, hax⟩)
  · split
    · next c _ =>
      exact key _ (fun x hx => asks_of_mem_grantAfter hx) (grantAfter_nodup s c) fun x hx => grantAfter_ne_nil c hx
    · exact key _ (fun c hc => (List.mem_filter.mp hc).2) (List.Nodup.filter _ (by decide))
        fun x hx => List.ne_nil_of_mem (List.mem_filter.mpr ⟨mem_claimants x, hx⟩)

/-- In a state that keeps the law an event that changes nothing for the agent leaves the grant. -/
theorem settleAgent_of_law {s : State} (h : s.AgentLaw) : s.settleAgent = s := by
  have hg : ∀ l, l = s.granted → ({ s with granted := l } : State) = s := fun l hl => by rw [hl]
  refine hg _ ?_
  split
  · exact List.filter_eq_self.mpr h.asking
  · next hn =>
    have hnil : s.granted = [] := by
      cases hs : s.granted with
      | nil => rfl
      | cons c _ => exact absurd (List.any_eq_true.mpr ⟨c, by simp [hs], h.asking c (by simp [hs])⟩) hn
    rw [hnil]
    refine List.filter_eq_nil_iff.mpr fun c _ hc => h.busy c hc hnil

end Sys2Proof.Machine
end

