-- ==== Sys2Proof/Laws/Blocks.lean ====
section
/-! SUPPORT. What the reading of a command block, the writing of words and the arbiter of transmit room come to, each said
once under the conditions of Safety.lean. -/

namespace Sys2Proof.Machine

/-! ## Transfers -/

/-- The words of a block, all of them acknowledged, are read, each as an earlier step of the run read it or as it stands in memory. -/
theorem blockWords_acked (mem : Memory) (fetched : List Word) (env : Env) (a : Nat) (n : Nat) : ∀ k,
    (∀ i, k ≤ i → i < k + n → acks env i (a + 4 * i) = true) →
    blockWords mem fetched env a k n = .ok ((List.range' k n).map (blockContent mem fetched a)) := by
  induction n with
  | zero => exact fun _ _ => rfl
  | succ n ih =>
    intro k h
    have h0 := h k (le_refl _) (by omega)
    have h1 : a + 4 * k < 0x10000000 := by
      simp only [acks, Config.localBytes, Bool.and_eq_true] at h0
      exact of_decide_eq_true h0.2
    rw [blockWords, if_neg (by omega), if_pos h0, ih (k + 1) fun i hi hj => h i (by omega) (by omega)]
    rfl

/-- Words that are all acknowledged are written in order, and nothing else changes. -/
theorem writeWords_acked (env : Env) (ws : List Word) : ∀ (k a : Nat) (s : State),
    (∀ i, i < ws.length → acks env (k + i) (a + 4 * i) = true) →
    State.writeWords env k a ws s = ({ s with mem := s.mem.setWords a ws }, none) := by
  induction ws with
  | nil => exact fun _ _ _ _ => rfl
  | cons w ws ih =>
    intro k a s h
    have h0 := h 0 (by simp)
    rw [State.writeWords, if_pos (by simpa using h0), ih]
    · rfl
    · intro i hi
      have := h (i + 1) (by simpa using hi)
      rwa [show k + 1 + i = k + (i + 1) by omega, show a + 4 + 4 * i = a + 4 * (i + 1) by omega]

/-- The first word that is not acknowledged ends the writing: the words before it stand, it holds a free value. -/
theorem writeWords_failed (env : Env) (ws : List Word) : ∀ (k a n : Nat) (s : State), n < ws.length →
    (∀ i, i < n → acks env (k + i) (a + 4 * i) = true) → acks env (k + n) (a + 4 * n) = false →
    State.writeWords env k a ws s =
      (({ s with mem := s.mem.setWords a (ws.take n) } : State).spoilWord (a + 4 * n), some (k + n)) := by
  induction ws with
  | nil => exact fun _ _ _ _ h => absurd h (by simp)
  | cons w ws ih =>
    intro k a n s hn h hf
    cases n with
    | zero =>
      rw [State.writeWords, if_neg (by simpa using hf)]
      rfl
    | succ n =>
      have h0 := h 0 (by omega)
      rw [State.writeWords, if_pos (by simpa using h0), ih (k + 1) (a + 4) n]
      · rw [show a + 4 + 4 * n = a + 4 * (n + 1) by omega, show k + 1 + n = k + (n + 1) by omega]
        rfl
      · simpa using hn
      · intro i hi
        have := h (i + 1) (by omega)
        rwa [show k + 1 + i = k + (i + 1) by omega, show a + 4 + 4 * i = a + 4 * (i + 1) by omega]
      · rwa [show k + 1 + n = k + (n + 1) by omega, show a + 4 + 4 * n = a + 4 * (n + 1) by omega]

/-! ## The head of the command queue -/

/-- The end of a command on the state in which it is read, its reading over, is the state `ended`. -/
theorem endCommand_forReading (s : State) (env : Env) (tag : Half) (status : Status) (detail : Nat) :
    ((s.forReading env).endCommand tag status detail).endFetch.served .commandEngine = s.ended env tag status detail := by
  simp only [State.forReading, State.forTransfers, State.endCommand, State.post, State.endFetch, State.ended, State.runsRead]

/-- Where no LOADING record of a first pass has been made, the module table is whole. -/
theorem otherModules_of_loadingId {s : State} (h : s.loadingId = none) : s.otherModules = s.modules :=
  List.filter_eq_self.mpr fun m _ => by simp [State.isLoading, h]

/-- Words kept of a block of another command than LOAD belong to no first pass. -/
theorem Runs.load?_of_code {r : Runs} (h : ∀ w, r.fetched.head? = some w → commandOfCode (byteAt w 0) ≠ some .load) :
    r.load? = none := by
  unfold Runs.load?
  split
  · rename_i w _ _ hf
    exact if_neg (h w (by simp [hf]))
  · rfl

/-- While the block at the head is read, its first word is the first of the words kept. -/
theorem blockWord_zero {s : State} {w : Word} (h : s.runs.fetched.head? = some w) (env : Env) (a : Word) :
    s.blockWord env a 0 = w := by
  cases hf : s.runs.fetched with
  | nil => simp [hf] at h
  | cons x xs => simp [hf] at h; simp [State.blockWord, hf, h]

/-- A command other than LOAD is read with the whole module table. -/
theorem State.Holds.forReading {s : State} {env : Env} {a : Word} {k : CommandKind} (h : s.Holds env a k) (other : k ≠ .load) :
    s.forReading env = s.forTransfers env := by
  have hl : s.runs.load? = none := Runs.load?_of_code fun w hw hc => by
    have hk := h.block.code
    rw [blockWord_zero hw, hc] at hk
    exact other (Option.some.inj hk).symm
  rw [State.forReading, otherModules_of_loadingId (by rw [State.loadingId, State.firstPassLoad, hl]; split <;> rfl)]
  rfl

/-- A block that the Command Engine executes is the head of the queue, and it may be executed. -/
theorem State.Executes.mayExecute {s : State} {env : Env} {a : Word} (h : s.Executes env a) : s.mayExecute = true := by
  simp [State.mayExecute, State.mayTransfer, h.awake, h.idle, h.granted]

/-- Where no other claimant waits, a step whose operand does not leave its run reads on to the end of the head. -/
theorem readsOn_alone {s : State} {env : Env} (h : env.upTo = none) (alone : s.othersAsk .commandEngine = false) :
    s.ReadsOn env := by
  simp [State.ReadsOn, State.runEnv, alone, State.headPause, pauseAt, h]

/-- So it does with a record of the commit pass. -/
theorem commitPause_alone {s : State} {env : Env} (h : env.upTo = none) (alone : s.othersAsk .commandEngine = false) (t : State) :
    t.commitPause (s.runEnv .commandEngine env) = none := by
  simp [State.runEnv, alone, State.commitPause, pauseAt, h]

/-- The block at the head, all of whose words are read. -/
theorem State.Block.readHead {s : State} {env : Env} {a : Word} {k : CommandKind} (h : s.Block env a k) (out : Env)
    (same : out.failAt = env.failAt) :
    (s.forReading env).readHead out = some (.whole (some k) (s.tagAt env a) (s.arguments env a k)) := by
  obtain ⟨⟨_, _, h3, _, h5⟩, hc, hr⟩ := h
  have hk : ∀ i b, acks (resumed out s.runs.fetched.length) i b = s.readAcks env i b := fun i b => by
    simp [State.readAcks, acks, resumed, same]
  obtain ⟨rest, hq⟩ : ∃ rest, s.commandQueue = a :: rest := by
    cases hq : s.commandQueue with
    | nil => simp [hq] at h3
    | cons x r => exact ⟨r, by simp only [hq, List.head?_cons, Option.some.injEq] at h3; rw [h3]⟩
  have hb := blockWords_acked (s.mem.afterStores env.stores) s.runs.fetched (resumed out s.runs.fetched.length) a.toNat
    k.moreWords 1 fun i h1 h2 => (hk _ _).trans (hr i h1 (by omega))
  have hw : blockContent (s.mem.afterStores env.stores) s.runs.fetched a.toNat 0 = s.blockWord env a 0 := rfl
  simp only [State.readHead, State.forReading, State.forTransfers, hq, (hk _ _).trans h5, if_true, hw, hc, hb]
  simp only [State.tagAt, State.arguments, Option.some.injEq, HeadRead.whole.injEq, true_and, List.range'_eq_map_range,
    List.map_map]
  refine List.map_congr_left fun i _ => ?_
  simp [Function.comp, blockContent, State.blockWord, Nat.add_comm]

/-- The surroundings of a step differ from its operand in where the run is left, and in nothing else. -/
theorem runEnv_same (s : State) (c : Claimant) (env : Env) :
    (s.runEnv c env).failAt = env.failAt ∧ (s.runEnv c env).stores = env.stores ∧
    (s.runEnv c env).order = env.order ∧ (s.runEnv c env).siteBegun = env.siteBegun := by
  unfold State.runEnv
  split <;> exact ⟨rfl, rfl, rfl, rfl⟩

/-- A command whose block is read is carried out in the states it is taken in, and otherwise ends with REFUSED-STATE. -/
theorem State.Holds.runCommand {s : State} {env : Env} {a : Word} {k : CommandKind} (h : s.Holds env a k)
    (body : Half → List Word → State → State) :
    s.runCommand k env body =
      if k.takenIn s.station then
        (body (s.tagAt env a) (s.arguments env a k) (s.forReading env)).endFetch.served .commandEngine
      else s.ended env (s.tagAt env a) .refusedState 0 := by
  obtain ⟨hf, hs, _, _⟩ := runEnv_same s .commandEngine env
  have hr : s.forReading (s.runEnv .commandEngine env) = s.forReading env := by
    simp only [State.forReading, State.forTransfers, hs]
  have hp : (s.forReading env).headPause (s.runEnv .commandEngine env) = none := h.whole
  simp only [State.runCommand, State.runHead, h.block.executes.mayExecute, if_true, hr, hp, h.block.readHead _ hf]
  rw [show (s.forReading env).station = s.station from rfl]
  cases k.takenIn s.station
  · exact endCommand_forReading s env _ _ _
  · rfl

/-! ## The arbiter of transmit room -/

/-- No slot waits. -/
theorem State.NoneWaiting.waitingSlot {s : State} (h : s.NoneWaiting) : s.waitingSlot = none := by
  rw [State.waitingSlot, List.findIdx?_eq_none_iff]
  intro o ho
  match o with
  | none => rfl
  | some x =>
    have := h.2 x ho
    by_cases hw : x.awaitingRoom = true
    · simp [hw, this hw]
    · simp [hw]

/-- With no request waiting the arbiter grants nothing. -/
theorem grantRounds_noneWaiting {s : State} (h : s.NoneWaiting) (n : Nat) (order : List Bool) :
    s.grantRounds n order = s := by
  cases n with
  | zero => rfl
  | succ n => rw [State.grantRounds, h.waitingSlot, h.1]; split <;> rfl

/-- With no place free the arbiter grants nothing. -/
theorem grantRounds_full {s : State} (h : Config.transmitRoom ≤ s.txQueue.length) (n : Nat) (order : List Bool) :
    s.grantRounds n order = s := by
  cases n with
  | zero => rfl
  | succ n => rw [State.grantRounds, if_pos h]

/-- With no request waiting, or no place free, the end of an event grants nothing. -/
theorem arbitrate_idle {s : State} (h : s.NoneWaiting ∨ Config.transmitRoom ≤ s.txQueue.length)
    (on : s.station ≠ .isolated) (order : List Bool) : s.arbitrate order = s := by
  rw [State.arbitrate, if_neg on]
  exact h.elim (fun h => grantRounds_noneWaiting h _ _) fun h => grantRounds_full h _ _

/-- With a place free and only the Command Engine's one request waiting, its frame is placed. -/
theorem arbitrate_command {s : State} (free : s.txQueue.length < Config.transmitRoom) {x : TxEntry}
    (one : s.wanted = [x]) (slots : ∀ y, some y ∈ s.slots → y.awaitingRoom = true → y.state ≠ .toSend)
    (on : s.station ≠ .isolated) (order : List Bool) :
    s.arbitrate order = { s with txQueue := s.txQueue ++ [x], wanted := [] } := by
  let t : State := { s with txQueue := s.txQueue ++ [x], wanted := [] }
  have ht : t.NoneWaiting := ⟨rfl, slots⟩
  have hs : s.waitingSlot = none := ht.waitingSlot
  have hg : s.grantCommand = t := by rw [State.grantCommand, one]
  have h31 : s.grantRounds 32 order = t.grantRounds 31 order := by
    rw [State.grantRounds, if_neg (by omega), hs, one, hg]
  rw [State.arbitrate, if_neg on]
  exact h31.trans (grantRounds_noneWaiting ht _ _)

/-- With one place free the waiting slot of lowest number takes it, before any request of the Command Engine. -/
theorem arbitrate_slot {s : State} (last : s.txQueue.length = 31) {k : Nat} {x : Slot} (first : s.FirstWaiting k x)
    (on : s.station ≠ .isolated) :
    s.arbitrate [] =
      { s with txQueue := s.txQueue ++ [.seek k x.key], slots := s.slots.set k (some { x with awaitingRoom := false }) } := by
  obtain ⟨hk, hw, hst, hmin⟩ := first
  have hlt : k < s.slots.length := (List.getElem?_eq_some_iff.mp hk).1
  have hs : s.waitingSlot = some k := by
    rw [State.waitingSlot, List.findIdx?_eq_some_iff_getElem]
    refine ⟨hlt, ?_, fun j hj => ?_⟩
    · have : s.slots[k] = some x := (List.getElem?_eq_some_iff.mp hk).2
      simp [this, hw, hst]
    · cases hy : s.slots[j] with
      | none => simp
      | some y =>
        have hj' : s.slots[j]? = some (some y) := by rw [List.getElem?_eq_getElem (by omega), hy]
        by_cases hyw : y.awaitingRoom = true
        · simp [hyw, hmin j hj y hj' hyw]
        · simp [hyw]
  let t : State :=
    { s with txQueue := s.txQueue ++ [.seek k x.key], slots := s.slots.set k (some { x with awaitingRoom := false }) }
  have hg : s.grantSlot k = t := by rw [State.grantSlot, hk]
  have hr : s.grantRounds 32 [] = (s.grantSlot k).grantRounds 31 [] := by
    rw [State.grantRounds, if_neg (by rw [last, Config.transmitRoom]; omega), hs]
    cases s.wanted <;> rfl
  rw [State.arbitrate, if_neg on]
  refine hr.trans ?_
  rw [hg]
  exact grantRounds_full (s := t) (by simp [t, last, Config.transmitRoom]) _ _

/-- A slot that waits is found. -/
theorem waitingSlot_eq_none {s : State} (h : s.waitingSlot = none) :
    ∀ x, some x ∈ s.slots → x.awaitingRoom = true → x.state ≠ .toSend := by
  rw [State.waitingSlot, List.findIdx?_eq_none_iff] at h
  intro x hx hw hst
  have := h (some x) hx
  simp [hw, hst] at this

/-- A grant to a slot that waits fills one place. -/
theorem grantSlot_length {s : State} {k : Nat} (h : s.waitingSlot = some k) :
    (s.grantSlot k).txQueue.length = s.txQueue.length + 1 := by
  rw [State.waitingSlot, List.findIdx?_eq_some_iff_getElem] at h
  obtain ⟨hlt, hk, _⟩ := h
  cases hx : s.slots[k] with
  | none => simp [hx] at hk
  | some x =>
    have : s.slots[k]? = some (some x) := by rw [List.getElem?_eq_getElem hlt, hx]
    simp [State.grantSlot, this]

/-- A grant to the Command Engine fills one place. -/
theorem grantCommand_length {s : State} {c : TxEntry} {cs : List TxEntry} (h : s.wanted = c :: cs) :
    s.grantCommand.txQueue.length = s.txQueue.length + 1 := by
  simp [State.grantCommand, h]

/-- After as many grants as there are places, no request waits while a place is free (R138). -/
theorem grantRounds_granted (n : Nat) : ∀ (order : List Bool) (s : State), 32 ≤ s.txQueue.length + n →
    (s.grantRounds n order).RoomGranted := by
  induction n with
  | zero => exact fun _ _ h => Or.inr h
  | succ n ih =>
    intro order s h
    rw [State.grantRounds]
    split
    · exact Or.inr ‹_›
    · split
      · next k hk =>
        have hs := grantSlot_length hk
        split
        · next hw => exact ih _ _ (by rw [grantCommand_length hw]; omega)
        · exact ih _ _ (by omega)
        · exact ih _ _ (by omega)
      · next hn =>
        split
        · next hw => exact Or.inl ⟨hw, waitingSlot_eq_none hn⟩
        · next hw => exact ih _ _ (by rw [grantCommand_length hw]; omega)

/-- The end of an event leaves no place free while a request waits (R138). -/
theorem arbitrate_granted (s : State) (order : List Bool) : (s.arbitrate order).RoomGranted := by
  rw [State.arbitrate]
  split
  · refine Or.inl ⟨rfl, fun x hx hw => ?_⟩
    simp only [State.withdrawRequests, List.mem_map] at hx
    obtain ⟨o, _, ho⟩ := hx
    cases o with
    | none => cases ho
    | some y =>
      cases ho
      cases hw
  · exact grantRounds_granted _ _ _ (Nat.le_add_left _ _)

/-! ## The notices of an event -/

/-- A binding of another kind posts the KIND fault, and one of the right kind nothing (R11). -/
theorem offerBinding_notices (s : State) (r : Ref) (b : Binding) :
    (s.offerBinding r b).notices = if r.expected.accepts b.kind then s.notices else s.notices.take (kindFault r.owner) := by
  unfold State.offerBinding
  split <;> rfl

/-- Settling one module leaves the references, and posts its MODULE-STATE where its derived state is another (R31). -/
theorem settleModule_refs (s : State) (m : ModuleRecord) : (s.settleModule m).refs = s.refs := by
  unfold State.settleModule
  dsimp only
  split <;> rfl

theorem settleModule_notices (s : State) (m : ModuleRecord) :
    (s.settleModule m).notices =
      (if m.state = .loading ∨ m.state = .unloading ∨ derivedState (s.phasesOf m.id) = m.state then s.notices
       else s.notices.take (.moduleState m.id (derivedState (s.phasesOf m.id)))) := by
  unfold State.settleModule
  cases h : m.state <;> simp [ModuleState.isDerived] <;> split <;> rename_i k <;> simp [State.post, State.setModuleState]

/-- The end of an event posts the MODULE-STATE notices of R31, in table order, and no others. -/
theorem settleModules_notices (s : State) :
    s.settleModules.notices = (s.newStates s none).foldl NoticeUnit.take s.notices := by
  suffices h : ∀ (l : List ModuleRecord) (u : State), u.refs = s.refs →
      (l.foldl State.settleModule u).notices =
        (l.filterMap fun m =>
          let now := derivedState (s.phasesOf m.id)
          if m.state = .loading ∨ m.state = .unloading ∨ (none : Option Byte) = some m.id ∨ now = m.state then none
          else some (Notice.moduleState m.id now)).foldl NoticeUnit.take u.notices from h s.modules s rfl
  intro l
  induction l with
  | nil => exact fun _ _ => rfl
  | cons m l ih =>
    intro u hu
    have hp : u.phasesOf m.id = s.phasesOf m.id := by rw [State.phasesOf, State.phasesOf, hu]
    rw [List.foldl_cons, ih _ ((settleModule_refs u m).trans hu), settleModule_notices, hp, List.filterMap_cons]
    by_cases k : m.state = .loading ∨ m.state = .unloading ∨ derivedState (s.phasesOf m.id) = m.state
    · simp [k]
    · simp [k]

end Sys2Proof.Machine
end

