-- ==== Sys2Proof/Laws/Descriptors.lean ====
section
/-! SUPPORT. A pass over a descriptor and the table of its checks: how the first fault of a longer pass comes from those of its
parts. -/

namespace Sys2Proof.Machine

theorem firstFault_append (cs ds : Checks) : firstFault (cs ++ ds) = (firstFault cs).or (firstFault ds) := by
  rw [firstFault, firstFault, firstFault, List.find?_append]
  cases cs.find? (fun c => !c.1) <;> rfl

/-- A part of a pass ends with the first check of `cs` that fails, and goes on where none does. -/
def Checked {α : Type} (x : Except Ending α) (cs : Checks) : Prop :=
  ∀ e, x = .error e ↔ firstFault cs = some e

theorem Checked.ok {α : Type} (a : α) : Checked (.ok a : Except Ending α) [] := by
  intro e
  exact ⟨fun h => (nomatch h), fun h => (nomatch h)⟩

/-- A check that is made. -/
theorem Checked.check {α : Type} {ok : Bool} {e : Ending} {x : Except Ending α} {cs : Checks} (fails : ok = false → x = .error e)
    (passes : ok = true → Checked x cs) : Checked x ((ok, e) :: cs) := by
  intro e'
  cases ok with
  | false => rw [fails rfl]; simp [firstFault]
  | true => rw [passes rfl e']; simp [firstFault]

/-- A pass of two parts. -/
theorem Checked.bind {α β : Type} {x : Except Ending α} {f : α → Except Ending β} {cs ds : Checks} (first : Checked x cs)
    (then_ : ∀ a, x = .ok a → Checked (f a) ds) : Checked (x >>= f) (cs ++ ds) := by
  intro e
  rw [firstFault_append]
  cases x with
  | error e' =>
    have h : firstFault cs = some e' := (first e').mp rfl
    rw [h]
    exact ⟨fun h => by cases h; rfl, fun h => by cases h; rfl⟩
  | ok a =>
    have h : firstFault cs = none := by
      cases hc : firstFault cs with
      | none => rfl
      | some e' => exact nomatch (first e').mpr hc
    rw [h]
    exact then_ a rfl e

theorem requireField_checked (ok : Bool) (offset : Nat) : Checked (requireField ok offset) [fieldCheck ok offset] :=
  Checked.check (fun h => by rw [requireField, h]; rfl) fun h => by
    rw [requireField, if_pos h]
    exact Checked.ok ()

theorem require_checked (ok : Bool) (e : Ending) : Checked (require ok e) [(ok, e)] :=
  Checked.check (fun h => by rw [require, h]; rfl) fun h => by
    rw [require, if_pos h]
    exact Checked.ok ()

theorem requireCode_checked {α : Type} (code : Option α) (offset : Nat) :
    Checked (requireCode code offset) [fieldCheck code.isSome offset] := by
  cases code with
  | none => exact Checked.check (fun _ => rfl) fun h => nomatch h
  | some a => exact Checked.check (fun h => nomatch h) fun _ => Checked.ok a

theorem word_checked (r : Reading) (w field : Nat) : Checked (r.word w field) (r.wordChecks w field) := by
  refine Checked.check (fun h => ?_) fun h => Checked.check (fun k => ?_) fun k => ?_
  · rw [Reading.word, if_pos (by simpa using h)]
    rfl
  · rw [Reading.word, if_neg (by simpa using h), if_neg (by simp [k])]
  · rw [Reading.word, if_neg (by simpa using h), if_pos k]
    exact Checked.ok _

/-- A word that is read has the content of its place. -/
theorem word_ok {r : Reading} {w field : Nat} {v : Word} (h : r.word w field = .ok v) : v = r.content w := by
  simp only [Reading.word] at h
  split at h
  · cases h
  · split at h <;> cases h
    rfl

end Sys2Proof.Machine
end

