-- ==== Sys2Proof/Laws/Frames.lean ====
section
/-! SUPPORT. What the shared operations leave unchanged: `ReferenceFrame` for the operations of an event of the Reference
Unit, `TableFrame` for those that may also change the directory, the peer table or the walk (both in Safety.lean). -/

namespace Sys2Proof.Machine

/-- The transmit queue and the requests of the Command Engine are untouched. -/
theorem State.QueueKept.of_eq {s t : State} (_ : t.station = s.station) (h : t.txQueue = s.txQueue) (k : t.wanted = s.wanted) :
    s.QueueKept t :=
  ⟨[], by rw [h, List.append_nil], fun _ => ⟨[], by rw [k]; rfl, List.nil_sublist _⟩⟩

theorem State.QueueKept.trans {s t u : State} (h : s.QueueKept t) (on : t.station = s.station) (k : t.QueueKept u) :
    s.QueueKept u := by
  obtain ⟨j, hj, hw⟩ := h
  obtain ⟨j', kj, kw⟩ := k
  refine ⟨j ++ j', by rw [kj, hj, List.append_assoc], fun hs => ?_⟩
  obtain ⟨p, hp, hs'⟩ := hw hs
  obtain ⟨p', kp, ks'⟩ := kw (on ▸ hs)
  exact ⟨p ++ p', by rw [hp, kp, List.append_assoc], hs'.append ks'⟩

/-- A state set in one record leaves the records as they are apart from their states. -/
theorem sameModules_setState (m : Byte) (st : ModuleState) (l : List ModuleRecord) :
    sameModules (l.map fun x => if x.id = m then { x with state := st } else x) l := by
  simp only [sameModules, List.map_map]
  refine List.map_congr_left fun x _ => ?_
  simp only [Function.comp]
  split <;> rfl

theorem ReferenceFrame.refl (s : State) : ReferenceFrame s s := by
  constructor <;> first | exact rfl | exact .of_eq rfl rfl rfl

theorem ReferenceFrame.trans {s t u : State} (h : ReferenceFrame s t) (k : ReferenceFrame t u) : ReferenceFrame s u :=
  ⟨k.station.trans h.station, k.number.trans h.number, k.config.trans h.config, k.peers.trans h.peers,
   k.inReset.trans h.inReset, k.rxQueue.trans h.rxQueue, k.outgoing.trans h.outgoing, k.held.trans h.held,
   k.nextSequence.trans h.nextSequence, k.line.trans h.line, k.busSeen.trans h.busSeen, k.directory.trans
   h.directory, k.answers.trans h.answers, k.nextGeneration.trans h.nextGeneration, k.walk.trans h.walk,
   k.transfer.trans h.transfer, k.commandQueue.trans h.commandQueue, k.lastSubmit.trans h.lastSubmit,
   k.command.trans h.command, k.runs.trans h.runs, k.mem.trans h.mem, k.freeCount.trans h.freeCount,
   k.pending.trans h.pending,
   h.queue.trans h.station k.queue, k.modules.trans h.modules⟩

theorem ReferenceFrame.foldl {α : Type} (f : State → α → State) (h : ∀ s x, ReferenceFrame s (f s x)) (l : List α) :
    ∀ s, ReferenceFrame s (l.foldl f s) := by
  induction l with
  | nil => exact fun s => ReferenceFrame.refl s
  | cons x l ih => exact fun s => (h s x).trans (ih (f s x))

theorem TableFrame.refl (s : State) : TableFrame s s := by
  constructor <;> first | exact rfl | exact .of_eq rfl rfl rfl

theorem TableFrame.trans {s t u : State} (h : TableFrame s t) (k : TableFrame t u) : TableFrame s u :=
  ⟨k.station.trans h.station, k.number.trans h.number, k.config.trans h.config, k.inReset.trans h.inReset,
   k.rxQueue.trans h.rxQueue, k.outgoing.trans h.outgoing, k.held.trans h.held, k.nextSequence.trans
   h.nextSequence, k.busSeen.trans h.busSeen, k.nextGeneration.trans h.nextGeneration, k.commandQueue.trans
   h.commandQueue, k.lastSubmit.trans h.lastSubmit, k.command.trans h.command, k.runs.trans h.runs,
   k.mem.trans h.mem, k.freeCount.trans h.freeCount, k.pending.trans h.pending,
   h.queue.trans h.station k.queue, k.modules.trans h.modules⟩

theorem TableFrame.foldl {α : Type} (f : State → α → State) (h : ∀ s x, TableFrame s (f s x)) (l : List α) :
    ∀ s, TableFrame s (l.foldl f s) := by
  induction l with
  | nil => exact fun s => TableFrame.refl s
  | cons x l ih => exact fun s => (h s x).trans (ih (f s x))

theorem ReferenceFrame.table {s t : State} (h : ReferenceFrame s t) : TableFrame s t :=
  ⟨h.station, h.number, h.config, h.inReset, h.rxQueue, h.outgoing, h.held, h.nextSequence, h.busSeen,
   h.nextGeneration, h.commandQueue, h.lastSubmit, h.command, h.runs, h.mem, h.freeCount, h.pending,
   h.queue, h.modules⟩

theorem post_frame (s : State) (x : Notice) : ReferenceFrame s (s.post x) := by
  constructor <;> first | exact rfl | exact .of_eq rfl rfl rfl

theorem setPhase_frame (s : State) (o : Owner) (p : Phase) : ReferenceFrame s (s.setPhase o p) := by
  constructor <;> first | exact rfl | exact .of_eq rfl rfl rfl

theorem setReflect_frame (s : State) (o : Owner) (x : Reflect) : ReferenceFrame s (s.setReflect o x) := by
  constructor <;> first | exact rfl | exact .of_eq rfl rfl rfl

theorem setModuleState_frame (s : State) (m : Byte) (st : ModuleState) : ReferenceFrame s (s.setModuleState m st) := by
  constructor <;> first | exact rfl | exact .of_eq rfl rfl rfl | exact sameModules_setState m st _

theorem enterToSend_frame (s : State) (n : Nat) (k : Key) (tries : Nat) : ReferenceFrame s (s.enterToSend n k tries) := by
  constructor <;> first | exact rfl | exact .of_eq rfl rfl rfl

theorem takeSlot_frame (s : State) (r : Ref) (n : Nat) : ReferenceFrame s (s.takeSlot r n) := by
  constructor <;> first | exact rfl | exact .of_eq rfl rfl rfl

theorem joinQueued_frame (s : State) (k : Key) (n : Nat) : ReferenceFrame s (s.joinQueued k n) := by
  constructor <;> first | exact rfl | exact .of_eq rfl rfl rfl

theorem freeEmptySlots_frame (s : State) : ReferenceFrame s (s.freeEmptySlots) := by
  constructor <;> first | exact rfl | exact .of_eq rfl rfl rfl

theorem appendWalks_frame (s : State) : ReferenceFrame s (s.appendWalks) := by
  constructor <;> first | exact rfl | exact .of_eq rfl rfl rfl

theorem withdrawRequests_frame {s : State} (h : s.station = .isolated) : ReferenceFrame s (s.withdrawRequests) := by
  constructor <;> first | exact rfl | exact ⟨[], (List.append_nil _).symm, fun k => absurd h k⟩

theorem dropBinding_frame (c : RevocationCause) (s : State) (r : Ref) : ReferenceFrame s (s.dropBinding c r) := by
  constructor <;> first | exact rfl | exact .of_eq rfl rfl rfl

theorem postAll_frame (s : State) (xs : List Notice) : ReferenceFrame s (s.postAll xs) :=
  ReferenceFrame.foldl _ post_frame xs s

theorem grantSlot_frame (s : State) (k : Nat) : ReferenceFrame s (s.grantSlot k) := by
  unfold State.grantSlot
  split
  · constructor <;> first | exact rfl | exact ⟨_, rfl, fun _ => ⟨[], rfl, List.nil_sublist _⟩⟩
  · exact .refl s

theorem grantCommand_frame (s : State) : ReferenceFrame s s.grantCommand := by
  unfold State.grantCommand
  split
  · exact .refl s
  · rename_i x _ h
    constructor <;> first | exact rfl | exact ⟨[x], rfl, fun _ => ⟨[x], h, .refl _⟩⟩

theorem grantRounds_frame (n : Nat) : ∀ (order : List Bool) (s : State), ReferenceFrame s (s.grantRounds n order) := by
  induction n with
  | zero => exact fun _ s => .refl s
  | succ n ih =>
    intro order s
    unfold State.grantRounds
    split
    · exact .refl s
    · split
      · split
        · exact (grantCommand_frame s).trans (ih _ _)
        · exact (grantSlot_frame s _).trans (ih _ _)
        · exact (grantSlot_frame s _).trans (ih _ _)
      · split
        · exact .refl s
        · exact (grantCommand_frame s).trans (ih _ _)

theorem arbitrate_frame (s : State) (order : List Bool) : ReferenceFrame s (s.arbitrate order) := by
  unfold State.arbitrate
  split
  · exact withdrawRequests_frame ‹_›
  · exact grantRounds_frame _ _ s

theorem offerBinding_frame (s : State) (r : Ref) (b : Binding) : ReferenceFrame s (s.offerBinding r b) := by
  unfold State.offerBinding
  split
  · exact setPhase_frame ..
  · exact (setPhase_frame ..).trans (post_frame ..)

theorem enterOut_frame (s : State) (k : Key) : ReferenceFrame s (s.enterOut k) := by
  unfold State.enterOut
  split
  · exact .refl s
  · split
    · split
      · constructor <;> first | exact rfl | exact .of_eq rfl rfl rfl
      · exact .refl s
    · exact .refl s

theorem freeSlotOf_frame (s : State) (k : Key) : ReferenceFrame s (s.freeSlotOf k) := by
  unfold State.freeSlotOf
  split
  · exact .refl s
  · constructor <;> first | exact rfl | exact .of_eq rfl rfl rfl

theorem seekEntry_frame (s : State) (r : Ref) : ReferenceFrame s (s.seekEntry r) := by
  unfold State.seekEntry
  split
  · exact offerBinding_frame ..
  · split
    · exact setPhase_frame ..
    · split
      · exact takeSlot_frame ..
      · constructor <;> first | exact rfl | exact .of_eq rfl rfl rfl

theorem serveOne_frame (s : State) (r : Ref) (n : Nat) : ReferenceFrame s (s.serveOne r n) := by
  unfold State.serveOne
  split
  · exact offerBinding_frame ..
  · split
    · exact setPhase_frame ..
    · exact (takeSlot_frame ..).trans (joinQueued_frame ..)

theorem serveRounds_frame (n : Nat) : ∀ s : State, ReferenceFrame s (s.serveRounds n) := by
  induction n with
  | zero => exact fun s => .refl s
  | succ n ih =>
    intro s
    unfold State.serveRounds
    split
    · rename_i rest _ _
      have h : ReferenceFrame s { s with backlog := rest } := by constructor <;> first | exact rfl | exact .of_eq rfl rfl rfl
      dsimp only
      split
      · exact h.trans ((serveOne_frame ..).trans (ih _))
      · exact h.trans (ih _)
    · exact .refl s

theorem settleModule_frame (s : State) (m : ModuleRecord) : ReferenceFrame s (s.settleModule m) := by
  unfold State.settleModule
  dsimp only
  split
  · exact (setModuleState_frame ..).trans (post_frame ..)
  · exact .refl s

theorem settleModules_frame (s : State) : ReferenceFrame s s.settleModules :=
  ReferenceFrame.foldl _ settleModule_frame s.modules s

theorem endEvent_frame (s before : State) (order : List Bool) : ReferenceFrame s (s.endEvent before order) := by
  unfold State.endEvent
  have h : ReferenceFrame s (if someFreed before.slots s.slots then s.serve else s) := by
    split
    · exact serveRounds_frame _ s
    · exact .refl s
  exact ((h.trans (appendWalks_frame _)).trans (settleModules_frame _)).trans (arbitrate_frame _ order)

theorem bindFromFrame_frame (s : State) (r : Ref) (b : Binding) : ReferenceFrame s (s.bindFromFrame r b) := by
  have h : ReferenceFrame s { s with backlog := s.backlog.filter fun o => decide (o ≠ r.owner) } := by
    constructor <;> first | exact rfl | exact .of_eq rfl rfl rfl
  exact h.trans (offerBinding_frame ..)

theorem bindKey_frame (s : State) (k : Key) (b : Binding) : ReferenceFrame s (s.bindKey k b) :=
  (ReferenceFrame.foldl _ (fun t r => bindFromFrame_frame t r b) _ s).trans (freeSlotOf_frame ..)

theorem clashRef_frame (s : State) (r : Ref) (b : Binding) (refused : List Pair) :
    ReferenceFrame s (s.clashRef r b refused) := by
  unfold State.clashRef
  split
  · exact bindFromFrame_frame ..
  · split
    · split
      · exact (post_frame ..).trans (offerBinding_frame ..)
      · exact .refl s
    · exact .refl s

theorem clashKey_frame (s : State) (k : Key) (b : Binding) (refused : List Pair) :
    ReferenceFrame s (s.clashKey k b refused) :=
  (ReferenceFrame.foldl _ (fun t r => clashRef_frame t r b refused) _ s).trans (freeSlotOf_frame ..)

theorem revoke_frame (s : State) (criterion : Ref → Binding → Bool) (cause : RevocationCause) :
    ReferenceFrame s (s.revoke criterion cause) :=
  (ReferenceFrame.foldl _ (fun t r => dropBinding_frame cause t r) _ s).trans
    (ReferenceFrame.foldl _ seekEntry_frame _ _)

/-! ## The directory and the peer table -/

theorem setEntry_frame (s : State) (o : Owner) (st : ExportState) : TableFrame s (s.setEntry o st) := by
  constructor <;> first | exact rfl | exact .of_eq rfl rfl rfl

theorem leaveAnswers_frame (s : State) (g : Owner → Bool) : TableFrame s (s.leaveAnswers g) := by
  constructor <;> first | exact rfl | exact .of_eq rfl rfl rfl

theorem removeWithdrawn_frame (s : State) (k : Key) (g : Half) : TableFrame s (s.removeWithdrawn k g) := by
  constructor <;> first | exact rfl | exact .of_eq rfl rfl rfl

theorem dropPairs_frame (s : State) (g : Key → Pair → Bool) : TableFrame s (s.dropPairs g) := by
  constructor <;> first | exact rfl | exact .of_eq rfl rfl rfl

theorem withdrawEntries_frame (s : State) (m : Byte) : TableFrame s (s.withdrawEntries m) := by
  constructor <;> first | exact rfl | exact .of_eq rfl rfl rfl

theorem updatePeer_frame (s : State) (n : Station) (f : Peer → Peer) : TableFrame s (s.updatePeer n f) := by
  constructor <;> first | exact rfl | exact .of_eq rfl rfl rfl

theorem removeRefs_frame (s : State) (m : Byte) (b : Bool) : TableFrame s (s.removeRefs m b) := by
  constructor <;> first | exact rfl | exact .of_eq rfl rfl rfl

theorem removeModule_frame (s : State) (m : Byte) :
    TableFrame { s with modules := s.modules.filter fun x => decide (x.id ≠ m) } (s.removeModule m) := by
  constructor <;> first | exact rfl | exact .of_eq rfl rfl rfl

theorem giveUp_frame (s : State) (m : Byte) (b : Bool) :
    TableFrame { s with wanted := (s.giveUp m b).wanted } (s.giveUp m b) := by
  constructor <;> first | exact rfl | exact .of_eq rfl rfl rfl | exact sameModules_setState m .unloading _

theorem hear_frame (s : State) (f : Frame) : TableFrame s (s.hear f) := by
  constructor <;> first | exact rfl | exact .of_eq rfl rfl rfl

theorem markAbsent_frame (s : State) (n : Station) : TableFrame s (s.markAbsent n) := by
  constructor <;> first | exact rfl | exact .of_eq rfl rfl rfl

theorem oweOffer_frame (s : State) (o : Owner) : TableFrame s (s.oweOffer o) := by
  unfold State.oweOffer
  split <;> constructor <;> first | exact rfl | exact .of_eq rfl rfl rfl

theorem oweClash_frame (s : State) (o : Owner) : TableFrame s (s.oweClash o) := by
  unfold State.oweClash
  split <;> constructor <;> first | exact rfl | exact .of_eq rfl rfl rfl

theorem refuse_frame (s : State) (o : Owner) (p : Pair) : TableFrame s (s.refuse o p) := by
  constructor <;> first | exact rfl | exact .of_eq rfl rfl rfl

theorem meetClaim_frame (s : State) (k : Key) (p : Pair) (refused : List Pair) :
    TableFrame s (s.meetClaim k p refused) := by
  unfold State.meetClaim
  split
  · exact .refl s
  · split
    · exact refuse_frame ..
    · split
      · exact refuse_frame ..
      · exact (setEntry_frame ..).trans (oweClash_frame ..)
    · exact .refl s
    · exact .refl s

theorem meetSeek_frame (s : State) (k : Key) : TableFrame s (s.meetSeek k) := by
  unfold State.meetSeek
  split
  · exact .refl s
  · split
    · exact oweOffer_frame ..
    · exact .refl s
    · exact .refl s
    · exact .refl s

theorem meetOwnAnnounce_frame (s : State) (k : Key) (g : Half) : TableFrame s (s.meetOwnAnnounce k g) := by
  unfold State.meetOwnAnnounce
  split
  · exact .refl s
  · split
    · exact setEntry_frame ..
    · exact .refl s

theorem losePeer_frame (s : State) (n : Station) (cause : PeerLoss) : TableFrame s (s.losePeer n cause) :=
  ((post_frame ..).table.trans (revoke_frame ..).table).trans (dropPairs_frame ..)

theorem departs_frame (s : State) (n : Station) (cause : PeerLoss) : TableFrame s (s.departs n cause) := by
  unfold State.departs
  split
  · exact ((markAbsent_frame ..).trans (losePeer_frame ..)).trans (endEvent_frame ..).table
  · exact .refl s

/-! ## Walks -/

theorem completeWalk_frame (s : State) (o : Owner) (v : WalkValue) : TableFrame s (s.completeWalk o v) := by
  unfold State.completeWalk
  cases v <;> constructor <;> first | exact rfl | exact .of_eq rfl rfl rfl

theorem beginWrites_frame (s : State) (r : Ref) (v : WalkValue) (ws : List Word) :
    TableFrame s (s.beginWrites r v ws) := by
  unfold State.beginWrites
  split
  · constructor <;> first | exact rfl | exact .of_eq rfl rfl rfl
  · exact completeWalk_frame ..

theorem computeWalk_frame (s : State) (r : Ref) : TableFrame s (s.computeWalk r) := by
  unfold State.computeWalk
  split
  · exact beginWrites_frame ..
  · split
    · exact beginWrites_frame ..
    · exact ((setPhase_frame ..).trans (post_frame ..)).table.trans (beginWrites_frame ..)

theorem beginWalk_frame (s : State) (r : Ref) : TableFrame s (s.beginWalk r) := by
  unfold State.beginWalk
  split
  · exact completeWalk_frame ..
  · exact computeWalk_frame ..

theorem afterSite_frame (s : State) (w : Walk) : TableFrame s (s.afterSite w) := by
  unfold State.afterSite
  split
  · constructor <;> first | exact rfl | exact .of_eq rfl rfl rfl
  · split
    · exact computeWalk_frame ..
    · split
      · constructor <;> first | exact rfl | exact .of_eq rfl rfl rfl
      · exact completeWalk_frame ..

theorem busFault_frame (s : State) (o : Owner) (k : Nat) : TableFrame s (s.busFault o k) := by
  unfold State.busFault
  have h : TableFrame s { s with
      walk := none
      patchQueue := s.patchQueue.erase o
      backlog := s.backlog.filter fun x => decide (x ≠ o) } := by
    constructor <;> first | exact rfl | exact .of_eq rfl rfl rfl
  exact h.trans ((((setPhase_frame ..).trans (setReflect_frame ..)).trans (post_frame ..)).trans
    (freeEmptySlots_frame ..)).table

end Sys2Proof.Machine
end

