-- ==== Sys2Proof/Laws/Isolation.lean ====
section
/-! SUPPORT. What an isolation leaves of the state in which a duplicate of the station number is detected (R148, R162): the
number, the configuration, the peer table, the counters, local memory, and what the station has seen of the bus. -/

namespace Sys2Proof.Machine

/-- The station state and these are as they were. -/
structure State.StationKept (s t : State) : Prop where
  station : t.station = s.station
  number : t.number = s.number
  config : t.config = s.config
  peers : t.peers = s.peers
  nextSequence : t.nextSequence = s.nextSequence
  nextGeneration : t.nextGeneration = s.nextGeneration
  mem : t.mem = s.mem
  inReset : t.inReset = s.inReset
  lastSubmit : t.lastSubmit = s.lastSubmit
  freeCount : t.freeCount = s.freeCount
  busSeen : t.busSeen = s.busSeen

theorem ReferenceFrame.stationKept {s t : State} (h : ReferenceFrame s t) : s.StationKept t :=
  ⟨h.station, h.number, h.config, h.peers, h.nextSequence, h.nextGeneration, h.mem, h.inReset, h.lastSubmit, h.freeCount,
   h.busSeen⟩

theorem State.StationKept.trans {s t u : State} (h : s.StationKept t) (k : t.StationKept u) : s.StationKept u :=
  ⟨k.station.trans h.station, k.number.trans h.number, k.config.trans h.config, k.peers.trans h.peers,
   k.nextSequence.trans h.nextSequence, k.nextGeneration.trans h.nextGeneration, k.mem.trans h.mem, k.inReset.trans h.inReset,
   k.lastSubmit.trans h.lastSubmit, k.freeCount.trans h.freeCount, k.busSeen.trans h.busSeen⟩

theorem endCommand_stationKept (s : State) (tag : Half) (st : Status) (d : Nat) : s.StationKept (s.endCommand tag st d) := by
  constructor <;> rfl

theorem endFetch_stationKept (s : State) : s.StationKept s.endFetch := by constructor <;> rfl

theorem settleAgent_stationKept (s : State) : s.StationKept s.settleAgent := by constructor <;> rfl

theorem dropTransfer_stationKept (s : State) : s.StationKept s.dropTransfer := by
  unfold State.dropTransfer
  split
  · constructor <;> rfl
  · exact settleAgent_stationKept s

theorem abandonModule_stationKept (s : State) (tag : Half) (m : Byte) (begun : Bool) :
    s.StationKept (s.abandonModule tag m begun) := by
  have removed : s.StationKept (({ s.removeRefs m begun with
      directory := (s.removeRefs m begun).directory.filter fun e => decide (e.owner.module ≠ m) } : State).removeModule m) := by
    constructor <;> rfl
  exact ((removed.trans (endEvent_frame _ s []).stationKept).trans (endCommand_stationKept _ _ _ _)).trans (endFetch_stationKept _)

/-- What the isolation keeps of the state in which the duplicate is detected (R148, R162). -/
theorem isolate_kept (s : State) (begun : Bool) : ({ s with station := .isolated } : State).StationKept (s.isolate begun) := by
  have cut : ({ s with station := .isolated } : State).StationKept (s.cutFromBus.post .stationIsolated) := by constructor <;> rfl
  unfold State.isolate
  dsimp only
  split
  · exact (cut.trans (abandonModule_stationKept _ _ _ _)).trans (dropTransfer_stationKept _)
  · exact (cut.trans (abandonModule_stationKept _ _ _ _)).trans (dropTransfer_stationKept _)
  · exact (cut.trans (abandonModule_stationKept _ _ _ _)).trans (dropTransfer_stationKept _)
  · exact (cut.trans (endCommand_stationKept _ _ _ _)).trans (dropTransfer_stationKept _)
  · exact (cut.trans (endCommand_stationKept _ _ _ _)).trans (dropTransfer_stationKept _)
  · exact cut.trans (settleAgent_stationKept _)
  · split
    · have without : (s.cutFromBus.post .stationIsolated).StationKept (s.cutFromBus.post .stationIsolated).withoutLoading := by
        constructor <;> rfl
      exact (((cut.trans without).trans (endCommand_stationKept _ _ _ _)).trans (endFetch_stationKept _)).trans
        (dropTransfer_stationKept _)
    · exact cut.trans (settleAgent_stationKept _)

end Sys2Proof.Machine
end

