-- ==== Sys2Proof/Laws/Memory.lean ====
section
/-! SUPPORT. Local memory: every store keeps the canonical form, and what a byte reads after a store. -/

namespace Sys2Proof.Machine

theorem risingFrom_mono {low low' : Nat} (h : low' ≤ low) (m : Memory) (w : Memory.risingFrom low m = true) :
    Memory.risingFrom low' m = true := by
  cases m with
  | nil => rfl
  | cons c m =>
    obtain ⟨a, v⟩ := c
    simp only [Memory.risingFrom, Bool.and_eq_true, decide_eq_true_eq] at w ⊢
    exact ⟨⟨⟨by omega, w.1.1.2⟩, w.1.2⟩, w.2⟩

theorem byte_below {low : Nat} (m : Memory) (w : Memory.risingFrom low m = true) (x : Nat) (h : x < low) :
    m.byte x = unlistedByte := by
  induction m generalizing low with
  | nil => rfl
  | cons c m ih =>
    obtain ⟨a, v⟩ := c
    simp only [Memory.risingFrom, Bool.and_eq_true, decide_eq_true_eq] at w
    have : a ≠ x := by omega
    simp only [Memory.byte, this, if_false]
    exact ih w.2 (by omega)

theorem risingFrom_insertByte {low : Nat} (m : Memory) (w : Memory.risingFrom low m = true) (x : Nat) (v : Byte)
    (hl : low ≤ x) (hx : x < Config.localBytes) : Memory.risingFrom low (m.insertByte x v) = true := by
  induction m generalizing low with
  | nil =>
    unfold Memory.insertByte
    split
    · rfl
    · simp_all [Memory.risingFrom]
  | cons c m ih =>
    obtain ⟨a, b⟩ := c
    have w' := w
    simp only [Memory.risingFrom, Bool.and_eq_true, decide_eq_true_eq] at w
    unfold Memory.insertByte
    split
    · split
      · exact w'
      · simp only [Memory.risingFrom, Bool.and_eq_true, decide_eq_true_eq]
        exact ⟨⟨⟨hl, hx⟩, by assumption⟩, ⟨⟨by omega, w.1.1.2⟩, w.1.2⟩, w.2⟩
    · split
      · split
        · exact risingFrom_mono (by omega) m w.2
        · simp only [Memory.risingFrom, Bool.and_eq_true, decide_eq_true_eq]
          exact ⟨⟨⟨hl, hx⟩, by assumption⟩, by subst_vars; exact w.2⟩
      · simp only [Memory.risingFrom, Bool.and_eq_true, decide_eq_true_eq]
        exact ⟨w.1, ih w.2 (by omega)⟩

theorem wf_setByte (m : Memory) (w : m.wf = true) (x : Nat) (v : Byte) : (m.setByte x v).wf = true := by
  unfold Memory.setByte
  split
  · exact risingFrom_insertByte m w x v (Nat.zero_le x) (by assumption)
  · exact w

theorem wf_setWord (m : Memory) (w : m.wf = true) (a : Nat) (v : Word) : (m.setWord a v).wf = true :=
  wf_setByte _ (wf_setByte _ (wf_setByte _ (wf_setByte m w _ _) _ _) _ _) _ _

theorem wf_setWords (vs : List Word) : ∀ (m : Memory) (a : Nat), m.wf = true → (m.setWords a vs).wf = true := by
  induction vs with
  | nil => exact fun m a w => w
  | cons v vs ih => exact fun m a w => ih _ _ (wf_setWord m w a v)

theorem wf_afterStores (cells : List Host.Cell) : ∀ m : Memory, m.wf = true → (m.afterStores cells).wf = true := by
  induction cells with
  | nil => exact fun m w => w
  | cons c cells ih => exact fun m w => ih _ (wf_setByte m w c.1 c.2)

theorem byte_insertByte {low : Nat} (m : Memory) (w : Memory.risingFrom low m = true) (x : Nat) (v : Byte) (y : Nat) :
    (m.insertByte x v).byte y = if x = y then v else m.byte y := by
  induction m generalizing low with
  | nil =>
    unfold Memory.insertByte
    split
    · simp_all [Memory.byte]
    · simp [Memory.byte]
  | cons c m ih =>
    obtain ⟨a, b⟩ := c
    simp only [Memory.risingFrom, Bool.and_eq_true, decide_eq_true_eq] at w
    unfold Memory.insertByte
    split
    · rename_i hxa
      split
      · rename_i hv
        split
        · subst_vars
          have hne : a ≠ y := by omega
          simp only [Memory.byte, hne, if_false]
          exact byte_below m w.2 y (by omega)
        · rfl
      · rfl
    · split
      · rename_i hxa
        subst hxa
        split
        · rename_i hv
          split
          · subst_vars
            exact byte_below m w.2 _ (by omega)
          · simp_all [Memory.byte]
        · by_cases hy : x = y <;> simp [Memory.byte, hy]
      · have := ih w.2
        simp only [Memory.byte, this]
        by_cases h1 : a = y <;> by_cases h2 : x = y <;> simp_all

/-- A byte after a store of one byte. -/
theorem byte_setByte (m : Memory) (w : m.wf = true) (x : Nat) (v : Byte) (y : Nat) :
    (m.setByte x v).byte y = if x = y ∧ x < Config.localBytes then v else m.byte y := by
  unfold Memory.setByte
  split
  · rename_i h
    rw [byte_insertByte m w]
    simp [h]
  · rename_i h
    simp [h]

/-- A byte outside a stored word is unchanged. -/
theorem byte_setWord_outside (m : Memory) (w : m.wf = true) (a : Nat) (v : Word) (y : Nat) (h : y < a ∨ a + 4 ≤ y) :
    (m.setWord a v).byte y = m.byte y := by
  have w1 := wf_setByte m w a (byteAt v 0)
  have w2 := wf_setByte _ w1 (a + 1) (byteAt v 1)
  have w3 := wf_setByte _ w2 (a + 2) (byteAt v 2)
  unfold Memory.setWord
  rw [byte_setByte _ w3, byte_setByte _ w2, byte_setByte _ w1, byte_setByte m w]
  have h0 : ¬(a = y ∧ a < Config.localBytes) := by omega
  have h1 : ¬(a + 1 = y ∧ a + 1 < Config.localBytes) := by omega
  have h2 : ¬(a + 2 = y ∧ a + 2 < Config.localBytes) := by omega
  have h3 : ¬(a + 3 = y ∧ a + 3 < Config.localBytes) := by omega
  simp only [h0, h1, h2, h3, if_false]

/-- A byte outside stored words is unchanged. -/
theorem byte_setWords_outside (vs : List Word) : ∀ (m : Memory) (_ : m.wf = true) (a y : Nat),
    (y < a ∨ a + 4 * vs.length ≤ y) → (m.setWords a vs).byte y = m.byte y := by
  induction vs with
  | nil => exact fun m w a y h => rfl
  | cons v vs ih =>
    intro m w a y h
    have h' : y < a + 4 ∨ a + 4 + 4 * vs.length ≤ y := by
      simp only [List.length_cons] at h; omega
    rw [Memory.setWords]
    rw [ih _ (wf_setWord m w a v) (a + 4) y h']
    exact byte_setWord_outside m w a v y (by simp only [List.length_cons] at h; omega)

theorem wordOf_byteAt (v : Word) : wordOf (byteAt v 0) (byteAt v 1) (byteAt v 2) (byteAt v 3) = v := by
  unfold wordOf byteAt
  apply BitVec.eq_of_getLsbD_eq
  intro i hi
  simp only [BitVec.getLsbD_append, BitVec.getLsbD_setWidth, BitVec.getLsbD_ushiftRight]
  by_cases h1 : i < 8
  · simp [h1]
  · by_cases h2 : i < 16
    · have : i - 8 < 8 := by omega
      have e : 8 + (i - 8) = i := by omega
      simp [h1, this, e]
    · by_cases h3 : i < 24
      · have h4 : ¬ i - 8 < 8 := by omega
        have h5 : i - 8 - 8 < 8 := by omega
        have e : 16 + (i - 8 - 8) = i := by omega
        simp [h1, h4, h5, e]
      · have h4 : ¬ i - 8 < 8 := by omega
        have h5 : ¬ i - 8 - 8 < 8 := by omega
        have h6 : i - 8 - 8 - 8 < 8 := by omega
        have e : 24 + (i - 8 - 8 - 8) = i := by omega
        simp [h1, h4, h5, h6, e]

/-- A word read back after its store. -/
theorem word_setWord (m : Memory) (w : m.wf = true) (a : Nat) (v : Word) (h : a + 4 ≤ Config.localBytes) :
    (m.setWord a v).word a = v := by
  have w1 := wf_setByte m w a (byteAt v 0)
  have w2 := wf_setByte _ w1 (a + 1) (byteAt v 1)
  have w3 := wf_setByte _ w2 (a + 2) (byteAt v 2)
  have e0 : a < Config.localBytes := by omega
  have e1 : a + 1 < Config.localBytes := by omega
  have e2 : a + 2 < Config.localBytes := by omega
  have e3 : a + 3 < Config.localBytes := by omega
  unfold Memory.word Memory.setWord
  simp only [byte_setByte _ w3, byte_setByte _ w2, byte_setByte _ w1, byte_setByte m w, e0, e1, e2, e3, and_true]
  simp only [Nat.add_left_cancel_iff, Nat.add_eq_left, Nat.left_eq_add, if_true]
  simp
  exact wordOf_byteAt v

/-- The word writes of a step keep the canonical form. -/
theorem wf_writeWords (env : Env) (ws : List Word) : ∀ (k a : Nat) (s : State), s.mem.wf = true →
    (State.writeWords env k a ws s).1.mem.wf = true := by
  induction ws with
  | nil => exact fun k a s w => w
  | cons v ws ih =>
    intro k a s w
    unfold State.writeWords
    split
    · exact ih _ _ _ (wf_setWord _ w a v)
    · exact wf_setWord _ w a _

/-- A locked site transfer keeps the canonical form. -/
theorem wf_makeTransfer (env : Env) (s : State) (t : SiteTransfer) (w : s.mem.wf = true) :
    (s.makeTransfer env t).1.mem.wf = true := by
  unfold State.makeTransfer
  dsimp only
  split
  · split <;> exact wf_setWord _ w _ _
  · split
    · split <;> exact wf_setWord _ w _ _
    · exact w

theorem wf_memAtReset (s : State) (cut : Cut) (w : s.mem.wf = true) : (s.memAtReset cut).wf = true := by
  have h0 : (match s.transfer with
    | some t => if cut.site && decide (.patchEngine ∈ s.granted) then (s.siteWritten t).mem else s.mem
    | none => s.mem : Memory).wf = true := by
    split
    · split
      · exact wf_setWord _ w _ _
      · exact w
    · exact w
  unfold State.memAtReset
  dsimp only
  split
  · split
    · refine wf_setWords _ _ _ ?_
      split
      · exact wf_setWords _ _ _ h0
      · exact h0
    · split
      · exact wf_setWords _ _ _ h0
      · exact h0
  · split
    · exact wf_setWords _ _ _ h0
    · exact h0

end Sys2Proof.Machine
end

