-- ==== Sys2Proof/Laws/Serving.lean ====
section
/-! SUPPORT. What the end of an event does: the walks it appends (R63), the grants of the arbiter (R138), the serving of the
backlog (R78), and the SEEK of a slot taken (R69), each said once in the terms of Safety.lean. -/

namespace Sys2Proof.Machine

/-! ## Keys, slots and requests -/

@[simp] theorem Key.agrees_self (k : Key) : k.agrees k = true := by
  cases k with
  | mk scope group name => cases scope <;> simp [Key.agrees]

theorem seekQueued_iff (s : State) (n : Nat) (k : Key) : s.seekQueued n k = true ↔ s.HoldsSeek n k := by
  simp only [State.seekQueued, List.any_eq_true, State.HoldsSeek]
  constructor
  · rintro ⟨x, hx, h⟩
    cases x <;> simp at h
    obtain ⟨rfl, h⟩ := h
    exact ⟨_, hx, h⟩
  · rintro ⟨q, hq, h⟩
    exact ⟨_, hq, by simp [h]⟩

@[simp] theorem Slot.unasked_key (x : Slot) : x.unasked.key = x.key := rfl

/-- Slots alike but for their requests have one key. -/
theorem Slot.key_of_unasked {x y : Slot} (h : y.unasked = x.unasked) : y.key = x.key := by
  have key := congrArg Slot.key h
  exact key

theorem slotsUnasked_getElem? (s : State) (n : Nat) :
    s.slotsUnasked[n]? = s.slots[n]?.map (Option.map Slot.unasked) := by
  simp [State.slotsUnasked]

theorem none_mem_slotsUnasked (s : State) : none ∈ s.slotsUnasked ↔ none ∈ s.slots := by
  simp [State.slotsUnasked, List.mem_map, Option.map_eq_none_iff]

/-! ## Walks (R63) -/

theorem Ref.owesWalk_eq_needsWalk (r : Ref) : r.owesWalk = r.needsWalk := by
  cases r with
  | mk key owner expected sites phase reflect =>
    cases phase with
    | faulted c => cases c <;> simp [Ref.owesWalk, Ref.needsWalk, Phase.binding?]
    | _ => simp [Ref.owesWalk, Ref.needsWalk, Phase.binding?]

theorem appendWalks_joined (s : State) : s.appendWalks.WalksJoined s.patchQueue := by
  simp only [State.WalksJoined, State.appendWalks, Ref.owesWalk_eq_needsWalk]

/-- Settling the modules leaves everything that the Reference Unit, the Patch Engine and the arbiter hold. -/
theorem settleModules_tables (s : State) :
    s.settleModules.refs = s.refs ∧ s.settleModules.slots = s.slots ∧ s.settleModules.backlog = s.backlog ∧
    s.settleModules.patchQueue = s.patchQueue ∧ s.settleModules.txQueue = s.txQueue ∧ s.settleModules.wanted = s.wanted := by
  suffices h : ∀ (l : List ModuleRecord) (u : State),
      (l.foldl State.settleModule u).refs = u.refs ∧ (l.foldl State.settleModule u).slots = u.slots ∧
      (l.foldl State.settleModule u).backlog = u.backlog ∧ (l.foldl State.settleModule u).patchQueue = u.patchQueue ∧
      (l.foldl State.settleModule u).txQueue = u.txQueue ∧ (l.foldl State.settleModule u).wanted = u.wanted from h _ _
  intro l
  induction l with
  | nil => exact fun u => ⟨rfl, rfl, rfl, rfl, rfl, rfl⟩
  | cons m l ih =>
    intro u
    obtain ⟨h1, h2, h3, h4, h5, h6⟩ := ih (u.settleModule m)
    have k : (u.settleModule m).refs = u.refs ∧ (u.settleModule m).slots = u.slots ∧ (u.settleModule m).backlog = u.backlog ∧
        (u.settleModule m).patchQueue = u.patchQueue ∧ (u.settleModule m).txQueue = u.txQueue ∧
        (u.settleModule m).wanted = u.wanted := by
      unfold State.settleModule
      dsimp only
      split <;> exact ⟨rfl, rfl, rfl, rfl, rfl, rfl⟩
    exact ⟨h1.trans k.1, h2.trans k.2.1, h3.trans k.2.2.1, h4.trans k.2.2.2.1, h5.trans k.2.2.2.2.1, h6.trans k.2.2.2.2.2⟩

/-! ## The grants of the arbiter (R138) -/

@[simp] theorem Grant.slot?_seek (n : Nat) (k : Key) : (Grant.seek n k).slot? = some n := rfl
@[simp] theorem Grant.slot?_command (x : TxEntry) : (Grant.command x).slot? = none := rfl
@[simp] theorem Grant.command?_seek (n : Nat) (k : Key) : (Grant.seek n k).command? = none := rfl
@[simp] theorem Grant.command?_command (x : TxEntry) : (Grant.command x).command? = some x := rfl

/-- What rounds of granting come to: the grants in their order, each to a slot that waits, in ascending number, or to the Command
Engine; slots without a grant stay as they are. -/
theorem grantRounds_grants (n : Nat) : ∀ (order : List Bool) (s : State), ∃ gs : List Grant,
    (s.grantRounds n order).txQueue = s.txQueue ++ gs.map Grant.frame ∧
    s.wanted = gs.filterMap Grant.command? ++ (s.grantRounds n order).wanted ∧
    (gs.filterMap Grant.slot?).Pairwise (· < ·) ∧
    (∀ i k, Grant.seek i k ∈ gs → ∃ x : Slot, s.slots[i]? = some (some x) ∧ x.key = k ∧ x.state = .toSend ∧
      x.awaitingRoom = true ∧ (s.grantRounds n order).slots[i]? = some (some { x with awaitingRoom := false })) ∧
    ∀ i, i ∉ gs.filterMap Grant.slot? → (s.grantRounds n order).slots[i]? = s.slots[i]? := by
  induction n with
  | zero => exact fun _ s => ⟨[], by simp [State.grantRounds]⟩
  | succ n ih =>
    intro order s
    have command : ∀ (c : TxEntry) (cs : List TxEntry) (order : List Bool), s.wanted = c :: cs → ∃ gs : List Grant,
        (s.grantCommand.grantRounds n order).txQueue = s.txQueue ++ gs.map Grant.frame ∧
        s.wanted = gs.filterMap Grant.command? ++ (s.grantCommand.grantRounds n order).wanted ∧
        (gs.filterMap Grant.slot?).Pairwise (· < ·) ∧
        (∀ i k, Grant.seek i k ∈ gs → ∃ x : Slot, s.slots[i]? = some (some x) ∧ x.key = k ∧ x.state = .toSend ∧
          x.awaitingRoom = true ∧
          (s.grantCommand.grantRounds n order).slots[i]? = some (some { x with awaitingRoom := false })) ∧
        ∀ i, i ∉ gs.filterMap Grant.slot? → (s.grantCommand.grantRounds n order).slots[i]? = s.slots[i]? := by
      intro c cs order hw
      have hg : s.grantCommand = { s with txQueue := s.txQueue ++ [c], wanted := cs } := by rw [State.grantCommand, hw]
      obtain ⟨gs, h1, h2, h3, h4, h5⟩ := ih order s.grantCommand
      have hc : s.grantCommand.slots = s.slots := by rw [hg]
      refine ⟨.command c :: gs, ?_, ?_, ?_, ?_, ?_⟩
      · rw [h1, hg]; simp [Grant.frame]
      · have : s.grantCommand.wanted = cs := by rw [hg]
        rw [this] at h2
        simp [hw, ← h2]
      · simpa [List.filterMap_cons] using h3
      · intro i k hi
        rw [← hc]
        exact h4 i k (by simpa using hi)
      · intro i hi
        rw [← hc]
        exact h5 i (by simpa [List.filterMap_cons] using hi)
    have slot : ∀ (k : Nat) (order : List Bool), s.waitingSlot = some k → ∃ gs : List Grant,
        ((s.grantSlot k).grantRounds n order).txQueue = s.txQueue ++ gs.map Grant.frame ∧
        s.wanted = gs.filterMap Grant.command? ++ ((s.grantSlot k).grantRounds n order).wanted ∧
        (gs.filterMap Grant.slot?).Pairwise (· < ·) ∧
        (∀ i k', Grant.seek i k' ∈ gs → ∃ x : Slot, s.slots[i]? = some (some x) ∧ x.key = k' ∧ x.state = .toSend ∧
          x.awaitingRoom = true ∧
          ((s.grantSlot k).grantRounds n order).slots[i]? = some (some { x with awaitingRoom := false })) ∧
        ∀ i, i ∉ gs.filterMap Grant.slot? → ((s.grantSlot k).grantRounds n order).slots[i]? = s.slots[i]? := by
      intro k order hk
      rw [State.waitingSlot, List.findIdx?_eq_some_iff_getElem] at hk
      obtain ⟨hlt, hx, hmin⟩ := hk
      obtain ⟨x, hsx⟩ : ∃ x, s.slots[k] = some x := by
        cases h : s.slots[k] with
        | none => simp [h] at hx
        | some x => exact ⟨x, rfl⟩
      simp only [hsx, Bool.and_eq_true, decide_eq_true_eq] at hx
      have hks : s.slots[k]? = some (some x) := by rw [List.getElem?_eq_getElem hlt, hsx]
      have hg : s.grantSlot k =
          { s with txQueue := s.txQueue ++ [.seek k x.key], slots := s.slots.set k (some { x with awaitingRoom := false }) } := by
        rw [State.grantSlot, hks]
      obtain ⟨gs, h1, h2, h3, h4, h5⟩ := ih order (s.grantSlot k)
      have hslots : ∀ i, (s.grantSlot k).slots[i]? =
          if k = i then some (some { x with awaitingRoom := false }) else s.slots[i]? := by
        intro i
        rw [hg]
        simp only [List.getElem?_set]
        split
        · rename_i h; subst h; simp
        · rfl
      have later : ∀ i k', Grant.seek i k' ∈ gs → k < i := by
        intro i k' hi
        obtain ⟨y, hy, _, hst, hw, _⟩ := h4 i k' hi
        rw [hslots] at hy
        split at hy
        · cases hy; cases hw
        · rename_i hne
          rcases Nat.lt_or_ge i k with hik | hik
          · have := hmin i hik
            rw [List.getElem?_eq_some_iff] at hy
            obtain ⟨hil, hy⟩ := hy
            simp [hy, hw, hst] at this
          · omega
      have laterSlot : ∀ i ∈ gs.filterMap Grant.slot?, k < i := by
        intro i hi
        obtain ⟨g, hg', he⟩ := List.mem_filterMap.mp hi
        cases g with
        | seek j q => simp only [Grant.slot?, Option.some.injEq] at he; subst he; exact later j q hg'
        | command c => cases he
      refine ⟨.seek k x.key :: gs, ?_, ?_, ?_, ?_, ?_⟩
      · rw [h1, hg]; simp [Grant.frame]
      · have : (s.grantSlot k).wanted = s.wanted := by rw [hg]
        rw [this] at h2
        simpa [List.filterMap_cons] using h2
      · rw [List.filterMap_cons, Grant.slot?_seek]
        exact List.pairwise_cons.mpr ⟨laterSlot, h3⟩
      · intro i k' hi
        rcases List.mem_cons.mp hi with hi | hi
        · cases hi
          refine ⟨x, hks, rfl, hx.2, hx.1, ?_⟩
          rw [h5 k fun h => absurd (laterSlot k h) (Nat.lt_irrefl k), hslots, if_pos rfl]
        · obtain ⟨y, hy, r⟩ := h4 i k' hi
          refine ⟨y, ?_, r⟩
          rwa [hslots, if_neg (Nat.ne_of_lt (later i k' hi))] at hy
      · intro i hi
        simp only [List.filterMap_cons, Grant.slot?, List.mem_cons, not_or] at hi
        rw [h5 i hi.2, hslots, if_neg (Ne.symm hi.1)]
    rw [State.grantRounds]
    split
    · exact ⟨[], by simp⟩
    · split
      · next k hk =>
        split
        · next c cs rest hw => exact command c cs rest hw
        · next rest _ => exact slot k _ hk
        · exact slot k _ hk
      · split
        · next hw => exact ⟨[], by simp [hw]⟩
        · next c cs hw => exact command c cs order hw

/-- The arbiter changes nothing of the seek tables and of the patch queue. -/
theorem arbitrate_tables (s : State) (order : List Bool) :
    (s.arbitrate order).refs = s.refs ∧ (s.arbitrate order).slotsUnasked = s.slotsUnasked ∧
    (s.arbitrate order).backlog = s.backlog ∧ (s.arbitrate order).patchQueue = s.patchQueue := by
  rw [State.arbitrate]
  split
  · refine ⟨rfl, ?_, rfl, rfl⟩
    simp only [State.slotsUnasked, State.withdrawRequests, List.map_map]
    refine List.map_congr_left fun o _ => ?_
    cases o <;> rfl
  · suffices h : ∀ (n : Nat) (order : List Bool) (u : State), (u.grantRounds n order).refs = u.refs ∧
        (u.grantRounds n order).slotsUnasked = u.slotsUnasked ∧ (u.grantRounds n order).backlog = u.backlog ∧
        (u.grantRounds n order).patchQueue = u.patchQueue from h _ _ _
    have command : ∀ u : State, u.grantCommand.refs = u.refs ∧ u.grantCommand.slotsUnasked = u.slotsUnasked ∧
        u.grantCommand.backlog = u.backlog ∧ u.grantCommand.patchQueue = u.patchQueue := by
      intro u
      unfold State.grantCommand
      split <;> exact ⟨rfl, rfl, rfl, rfl⟩
    have slot : ∀ (u : State) (k : Nat), (u.grantSlot k).refs = u.refs ∧ (u.grantSlot k).slotsUnasked = u.slotsUnasked ∧
        (u.grantSlot k).backlog = u.backlog ∧ (u.grantSlot k).patchQueue = u.patchQueue := by
      intro u k
      unfold State.grantSlot
      split
      · next x hx =>
        refine ⟨rfl, ?_, rfl, rfl⟩
        refine List.ext_getElem? fun i => ?_
        simp only [State.slotsUnasked, List.map_set, List.getElem?_set, List.getElem?_map]
        split
        · rename_i h
          subst h
          have : k < u.slots.length := (List.getElem?_eq_some_iff.mp hx).1
          have hk : u.slots[k] = some x := (List.getElem?_eq_some_iff.mp hx).2
          simp [this, hk, Slot.unasked]
        · rfl
      · exact ⟨rfl, rfl, rfl, rfl⟩
    intro n
    induction n with
    | zero => exact fun _ _ => ⟨rfl, rfl, rfl, rfl⟩
    | succ n ih =>
      intro order u
      have viaC : ∀ order, (u.grantCommand.grantRounds n order).refs = u.refs ∧
          (u.grantCommand.grantRounds n order).slotsUnasked = u.slotsUnasked ∧
          (u.grantCommand.grantRounds n order).backlog = u.backlog ∧
          (u.grantCommand.grantRounds n order).patchQueue = u.patchQueue := fun order => by
        obtain ⟨a, b, c, d⟩ := ih order u.grantCommand
        obtain ⟨a', b', c', d'⟩ := command u
        exact ⟨a.trans a', b.trans b', c.trans c', d.trans d'⟩
      have viaS : ∀ k order, ((u.grantSlot k).grantRounds n order).refs = u.refs ∧
          ((u.grantSlot k).grantRounds n order).slotsUnasked = u.slotsUnasked ∧
          ((u.grantSlot k).grantRounds n order).backlog = u.backlog ∧
          ((u.grantSlot k).grantRounds n order).patchQueue = u.patchQueue := fun k order => by
        obtain ⟨a, b, c, d⟩ := ih order (u.grantSlot k)
        obtain ⟨a', b', c', d'⟩ := slot u k
        exact ⟨a.trans a', b.trans b', c.trans c', d.trans d'⟩
      rw [State.grantRounds]
      split
      · exact ⟨rfl, rfl, rfl, rfl⟩
      · split
        · split
          · exact viaC _
          · exact viaS _ _
          · exact viaS _ _
        · split
          · exact ⟨rfl, rfl, rfl, rfl⟩
          · exact viaC _

/-- The arbiter's grants in an event from `b` whose other effects leave the state `s`: a slot that asks in `s` asked in `b` or has no SEEK
of its key on the queue, and a slot that asked in `b` and is as it was asks in `s` or has its SEEK. -/
theorem arbitrate_granted_from {b s : State} (order : List Bool) (queue : s.txQueue = b.txQueue)
    (asks : ∀ (n : Nat) (y : Slot), s.slots[n]? = some (some y) → y.state = .toSend → y.awaitingRoom = true →
      (∃ x, b.slots[n]? = some (some x) ∧ x.key = y.key ∧ x.awaitingRoom = true) ∨ ¬ b.HoldsSeek n y.key)
    (kept : ∀ (n : Nat) (x y : Slot), b.slots[n]? = some (some x) → x.awaitingRoom = true → s.slots[n]? = some (some y) →
      y.unasked = x.unasked → y.awaitingRoom = true ∨ b.HoldsSeek n x.key) :
    b.Granted (s.arbitrate order) s.wanted := by
  have station : (s.arbitrate order).station = s.station := (arbitrate_frame s order).station
  by_cases iso : s.station = .isolated
  · have h : s.arbitrate order = s.withdrawRequests := by rw [State.arbitrate, if_pos iso]
    refine ⟨[], ?_, fun _ => ⟨rfl, by rw [h]; rfl⟩, ?_, by simp, by simp, ?_⟩
    · rw [h]; simp [State.withdrawRequests, queue]
    · exact fun hs => absurd (station.trans iso) hs
    · exact fun hs => absurd (station.trans iso) hs
  · have h : s.arbitrate order = s.grantRounds 32 order := by rw [State.arbitrate, if_neg iso]; rfl
    obtain ⟨gs, h1, h2, h3, h4, h5⟩ := grantRounds_grants 32 order s
    rw [← h] at h1 h2 h4 h5
    refine ⟨gs, by rw [h1, queue], fun hs => absurd (station ▸ hs) iso, fun _ => h2, h3, ?_, ?_⟩
    · intro n k hk
      obtain ⟨x, hx, rfl, hst, hw, ht⟩ := h4 n k hk
      exact ⟨⟨_, ht, rfl, hst, rfl⟩, asks n x hx hst hw⟩
    · intro _ n x y hx hw hy hu
      by_cases hm : n ∈ gs.filterMap Grant.slot?
      · obtain ⟨g, hg, he⟩ := List.mem_filterMap.mp hm
        cases g with
        | command c => cases he
        | seek j k =>
          simp only [Grant.slot?, Option.some.injEq] at he
          subst he
          obtain ⟨z, _, rfl, _, _, ht⟩ := h4 j k hg
          rw [ht] at hy
          cases hy
          have hkey : z.key = x.key := Slot.key_of_unasked hu
          refine Or.inr ⟨z.key, ?_, by rw [hkey]; simp⟩
          rw [h1]
          exact List.mem_append_right _ (List.mem_map.mpr ⟨_, hg, rfl⟩)
      · rw [h5 n hm] at hy
        refine (kept n x y hx hw hy hu).imp id fun ⟨q, hq, ha⟩ => ⟨q, ?_, ha⟩
        rw [h1, queue]
        exact List.mem_append_left _ hq

/-- A slot that an event has put in TO-SEND, asking unless the queue held its SEEK, has obtained its SEEK at the end of the event
(R69). -/
theorem arbitrate_obtains {b s : State} (order : List Bool) (queue : s.txQueue = b.txQueue) {n : Nat} {y z : Slot}
    (slot : s.slots[n]? = some (some y)) (state : y.state = .toSend) (asks : y.awaitingRoom = !b.seekQueued n y.key)
    (last : (s.arbitrate order).slots[n]? = some (some z)) : b.SeekObtained (s.arbitrate order) n z := by
  have station : (s.arbitrate order).station = s.station := (arbitrate_frame s order).station
  by_cases iso : s.station = .isolated
  · have h : s.arbitrate order = s.withdrawRequests := by rw [State.arbitrate, if_pos iso]
    have hz : z.awaitingRoom = false := by
      rw [h] at last
      simp only [State.withdrawRequests, List.getElem?_map, slot, Option.map_some, Option.some.injEq] at last
      exact last ▸ rfl
    exact ⟨fun _ => hz, fun _ => hz, fun hs => absurd (station.trans iso) hs⟩
  · have h : s.arbitrate order = s.grantRounds 32 order := by rw [State.arbitrate, if_neg iso]; rfl
    obtain ⟨gs, h1, h2, h3, h4, h5⟩ := grantRounds_grants 32 order s
    rw [← h] at h1 h2 h4 h5
    by_cases hm : n ∈ gs.filterMap Grant.slot?
    · obtain ⟨g, hg, he⟩ := List.mem_filterMap.mp hm
      cases g with
      | command c => cases he
      | seek j k =>
        simp only [Grant.slot?, Option.some.injEq] at he
        subst he
        obtain ⟨x, hx, rfl, _, hw, ht⟩ := h4 j k hg
        rw [ht] at last
        cases last
        refine ⟨fun _ => rfl, fun _ => rfl, fun _ _ => ?_⟩
        rw [if_neg (by simp), h1, queue, List.drop_left]
        exact List.mem_map.mpr ⟨_, hg, rfl⟩
    · rw [h5 n hm, slot] at last
      cases last
      refine ⟨fun hs => absurd (station ▸ hs) iso, fun hh => ?_, fun _ hh => ?_⟩
      · rw [asks, (seekQueued_iff b n y.key).mpr hh]; rfl
      · have hw : y.awaitingRoom = true := by
          rw [asks]
          cases hq : b.seekQueued n y.key
          · rfl
          · exact absurd ((seekQueued_iff b n y.key).mp hq) hh
        rw [if_pos hw]
        rcases arbitrate_granted s order with hr | hr
        · exact absurd state (hr.2 y (List.mem_of_getElem? (by rw [h5 n hm, slot])) hw)
        · exact hr

/-! ## Serving the backlog (R78) -/

/-- The law of the backlog (R77) on the tables that serving works on, with the distinct owners that keep it (R15, R35). -/
structure SeekTables.Law (x : SeekTables) : Prop where
  owners : (x.refs.map (·.owner)).Nodup
  once : x.backlog.Nodup
  queued : ∀ o, o ∈ x.backlog ↔ ∃ r ∈ x.refs, r.owner = o ∧ r.phase = .queued

/-- No two references have one owner. -/
theorem eq_of_owner {refs : List Ref} (h : (refs.map (·.owner)).Nodup) {q r : Ref} (hq : q ∈ refs) (hr : r ∈ refs)
    (e : q.owner = r.owner) : q = r :=
  List.inj_on_of_nodup_map h hq hr e

/-- Serving reads of the state only its own exports and its number. -/
theorem State.Serving.congr {t u : State} (d : u.directory = t.directory) (n : u.number = t.number) {x y : SeekTables}
    (h : t.Serving x y) : u.Serving x y := by
  have f : ∀ refs k b, u.Finds refs k b ↔ t.Finds refs k b := by
    intro refs k b
    simp only [State.Finds, d, n]
  induction h with
  | done x h => exact .done x h
  | answered x y r rest b free row oldest found _ ih => exact .answered x y r rest b free row oldest ((f _ _ _).mpr found) ih
  | joins x y r rest n z free row oldest found slot key _ ih =>
    exact .joins x y r rest n z free row oldest (fun b hb => found b ((f _ _ _).mp hb)) slot key ih
  | takes x y r rest n row oldest found noSlot free lowest _ ih =>
    exact .takes x y r rest n row oldest (fun b hb => found b ((f _ _ _).mp hb)) noSlot free lowest ih

/-- After serving the backlog is empty or no slot is free. -/
theorem State.Serving.served {t : State} {x y : SeekTables} (h : t.Serving x y) : y.backlog = [] ∨ none ∉ y.slots := by
  induction h with
  | done x h => exact h
  | answered _ _ _ _ _ _ _ _ _ _ ih => exact ih
  | joins _ _ _ _ _ _ _ _ _ _ _ _ _ ih => exact ih
  | takes _ _ _ _ _ _ _ _ _ _ _ _ ih => exact ih

/-- Serving leaves every slot in use as it is. -/
theorem State.Serving.used {t : State} {x y : SeekTables} (h : t.Serving x y) :
    ∀ (n : Nat) (z : Slot), x.slots[n]? = some (some z) → y.slots[n]? = some (some z) := by
  induction h with
  | done x h => exact fun _ _ hz => hz
  | answered _ _ _ _ _ _ _ _ _ _ ih => exact ih
  | joins _ _ _ _ _ _ _ _ _ _ _ _ _ ih => exact ih
  | takes x y r rest n row oldest found noSlot free lowest _ ih =>
    intro m z hz
    refine ih m z ?_
    have : n ≠ m := fun e => by subst e; rw [free] at hz; cases hz
    simpa [List.getElem?_set_ne this] using hz

/-- Serving creates and removes no reference, and keeps the table's order. -/
theorem State.Serving.owners {t : State} {x y : SeekTables} (h : t.Serving x y) :
    y.refs.map (·.owner) = x.refs.map (·.owner) := by
  induction h with
  | done x h => rfl
  | answered x y r rest b free row oldest found _ ih =>
    refine ih.trans ?_
    rw [List.map_map]
    exact List.map_congr_left fun q _ => by dsimp [Function.comp]; split <;> simp_all [Ref.offered]
  | joins x y r rest n z free row oldest found slot key _ ih =>
    refine ih.trans ?_
    rw [List.map_map]
    exact List.map_congr_left fun q _ => by dsimp [Function.comp]; split <;> simp_all
  | takes x y r rest n row oldest found noSlot free lowest _ ih =>
    refine ih.trans ?_
    rw [List.map_map]
    exact List.map_congr_left fun q _ => by dsimp [Function.comp]; split <;> rfl

/-- Steps 1 and 2 of seek entry, as the model finds a binding. -/
theorem finds_iff (s : State) (k : Key) (b : Binding) : s.Finds s.refs k b ↔ s.bindingAtHand k = some b := by
  have hl : (fun e : ExportEntry => e.key.agrees k && e.isLive) = fun e => e.key.agrees k && decide (e.state.code = 2) := rfl
  simp only [State.Finds, State.bindingAtHand, hl]
  cases hd : s.directory.find? fun e => e.key.agrees k && decide (e.state.code = 2) with
  | some e =>
    have hm := List.mem_of_find?_eq_some hd
    have hp := List.find?_some hd
    constructor
    · rintro (⟨e', he, rfl⟩ | ⟨hn, _⟩)
      · cases he; rfl
      · exact absurd (hn e hm) (by simpa [ExportEntry.isLive] using hp)
    · intro h
      exact Or.inl ⟨e, rfl, (Option.some.inj h).symm⟩
  | none =>
    have hn : ∀ e ∈ s.directory, (e.key.agrees k && decide (e.state.code = 2)) = false := fun e he => by
      have := List.find?_eq_none.mp hd e he
      simpa using this
    constructor
    · rintro (⟨e, he, _⟩ | ⟨_, q, hq, hb⟩)
      · cases he
      · simpa [hq] using hb
    · intro h
      refine Or.inr ⟨hn, ?_⟩
      cases hq : s.refs.find? fun r => r.key.agrees k && r.phase.binding?.isSome with
      | none => simp [hq] at h
      | some q => exact ⟨q, rfl, by simpa [hq] using h⟩

/-- A binding offered to a reference, in the terms of the statements. -/
theorem offerBinding_refs (s : State) (r : Ref) (b : Binding) (hr : r ∈ s.refs) (nodup : (s.refs.map (·.owner)).Nodup) :
    (s.offerBinding r b).refs = s.refs.map fun q => if q.owner = r.owner then r.offered b else q := by
  have : ∀ p : Phase, (s.refs.map fun q => if q.owner = r.owner then { q with phase := p } else q) =
      s.refs.map fun q => if q.owner = r.owner then { r with phase := p } else q := fun p =>
    List.map_congr_left fun q hq => by
      split
      · rename_i e; rw [eq_of_owner nodup hq hr e]
      · rfl
  unfold State.offerBinding
  split
  · rename_i h; simp only [State.setPhase, this, Ref.offered, h, if_true]
  · rename_i h; simp only [State.post, State.setPhase, this, Ref.offered, h, if_false, Bool.false_eq_true]

/-- It touches nothing else of the seek tables. -/
theorem offerBinding_kept (s : State) (r : Ref) (b : Binding) :
    (s.offerBinding r b).slots = s.slots ∧ (s.offerBinding r b).backlog = s.backlog ∧
    (s.offerBinding r b).txQueue = s.txQueue ∧ (s.offerBinding r b).patchQueue = s.patchQueue ∧
    (s.offerBinding r b).wanted = s.wanted := by
  unfold State.offerBinding
  split <;> exact ⟨rfl, rfl, rfl, rfl, rfl⟩

/-- One reference whose phase is set, in the terms of the statements. -/
theorem setPhase_refs (s : State) (r : Ref) (p : Phase) (hr : r ∈ s.refs) (nodup : (s.refs.map (·.owner)).Nodup) :
    (s.setPhase r.owner p).refs = s.refs.map fun q => if q.owner = r.owner then { r with phase := p } else q :=
  List.map_congr_left fun q hq => by
    split
    · rename_i e; rw [eq_of_owner nodup hq hr e]
    · rfl

theorem slotOf_eq_some {s : State} {k : Key} {n : Nat} (h : s.slotOf k = some n) :
    ∃ x, s.slots[n]? = some (some x) ∧ x.key.agrees k = true := by
  rw [State.slotOf, List.findIdx?_eq_some_iff_getElem] at h
  obtain ⟨hlt, hx, _⟩ := h
  cases hs : s.slots[n] with
  | none => simp [hs] at hx
  | some x => exact ⟨x, by rw [List.getElem?_eq_getElem hlt, hs], by simpa [hs] using hx⟩

theorem slotOf_eq_none {s : State} {k : Key} (h : s.slotOf k = none) : ∀ x, some x ∈ s.slots → x.key.agrees k = false := by
  rw [State.slotOf, List.findIdx?_eq_none_iff] at h
  exact fun x hx => by simpa using h _ hx

theorem freeSlot_eq_some {s : State} {n : Nat} (h : s.freeSlot = some n) :
    s.slots[n]? = some none ∧ ∀ m, m < n → s.slots[m]? ≠ some none := by
  rw [State.freeSlot, List.findIdx?_eq_some_iff_getElem] at h
  obtain ⟨hlt, hx, hmin⟩ := h
  constructor
  · cases hs : s.slots[n] with
    | none => rw [List.getElem?_eq_getElem hlt, hs]
    | some x => simp [hs] at hx
  · intro m hm hnone
    have := hmin m hm
    obtain ⟨hl, he⟩ := List.getElem?_eq_some_iff.mp hnone
    simp [he] at this

theorem freeSlot_eq_none {s : State} (h : s.freeSlot = none) : none ∉ s.slots := by
  rw [State.freeSlot, List.findIdx?_eq_none_iff] at h
  exact fun hn => by simpa using h _ hn

/-- Tables whose references keep their owners, and of which exactly the members left in the backlog are QUEUED, keep the law. -/
theorem SeekTables.Law.next {x : SeekTables} (h : x.Law) (f : Ref → Ref) (slots : List (Option Slot)) (backlog : List Owner)
    (owner : ∀ q, (f q).owner = q.owner) (sub : backlog.Sublist x.backlog)
    (queued : ∀ q ∈ x.refs, (f q).phase = .queued ↔ q.phase = .queued ∧ q.owner ∈ backlog) :
    SeekTables.Law { refs := x.refs.map f, slots, backlog } where
  owners := by
    have : (x.refs.map f).map (·.owner) = x.refs.map (·.owner) := by
      rw [List.map_map]; exact List.map_congr_left fun q _ => owner q
    rw [this]; exact h.owners
  once := sub.nodup h.once
  queued := by
    intro o
    constructor
    · intro ho
      obtain ⟨q, hq, rfl, hp⟩ := (h.queued o).mp (sub.subset ho)
      exact ⟨f q, List.mem_map_of_mem hq, owner q, (queued q hq).mpr ⟨hp, ho⟩⟩
    · rintro ⟨r, hr, rfl, hp⟩
      obtain ⟨q, hq, rfl⟩ := List.mem_map.mp hr
      rw [owner q]
      exact ((queued q hq).mp hp).2

/-- One reference that leaves the head of the backlog for a phase that is not QUEUED. -/
theorem SeekTables.Law.leaves {x : SeekTables} (h : x.Law) {r r' : Ref} {rest : List Owner}
    (oldest : x.backlog = r.owner :: rest) (owner : r'.owner = r.owner) (phase : r'.phase ≠ .queued) :
    SeekTables.Law { x with backlog := rest, refs := x.refs.map fun q => if q.owner = r.owner then r' else q } := by
  have once := h.once
  rw [oldest, List.nodup_cons] at once
  refine h.next _ _ _ (fun q => ?_) (oldest ▸ List.sublist_cons_self _ _) fun q hq => ?_
  · split
    · rename_i e; rw [owner, e]
    · rfl
  · split
    · rename_i e
      exact ⟨fun hp => absurd hp phase, fun hp => absurd (e ▸ hp.2) once.1⟩
    · rename_i e
      refine ⟨fun hp => ⟨hp, ?_⟩, fun hp => hp.1⟩
      have := (h.queued q.owner).mpr ⟨q, hq, rfl, hp⟩
      rw [oldest] at this
      exact (List.mem_cons.mp this).resolve_left e

/-- A slot taken in TO-SEND, apart from its request for room. -/
theorem enterToSend_unasked (s : State) (n : Nat) (k : Key) (tries : Nat) :
    (s.enterToSend n k tries).slotsUnasked =
      s.slotsUnasked.set n (some { key := k, state := .toSend, tries, timer := false, awaitingRoom := false }) := by
  simp [State.slotsUnasked, State.enterToSend, List.map_set, Slot.unasked]

/-- Step 4 of one reference served: it and the QUEUED references of its key are in the slot, and out of the backlog. -/
theorem takes_refs (s : State) (r : Ref) (n : Nat) (rest : List Owner) (h : s.seekTables.Law) (row : r ∈ s.refs)
    (oldest : s.backlog = r.owner :: rest) :
    ((({ s with backlog := rest } : State).takeSlot r n).joinQueued r.key n).refs =
      (s.refs.map fun q => if q.phase = .queued ∧ q.key.agrees r.key = true then { q with phase := .seeking n } else q) ∧
    ((({ s with backlog := rest } : State).takeSlot r n).joinQueued r.key n).backlog =
      rest.filter fun o => !(s.refs.any fun q => decide (q.owner = o) && q.key.agrees r.key) := by
  have once := h.once
  rw [show s.seekTables.backlog = r.owner :: rest from oldest, List.nodup_cons] at once
  have hany : ∀ o, (({ s with backlog := rest } : State).takeSlot r n).refs.any
      (fun q => decide (q.owner = o) && q.key.agrees r.key) = s.refs.any fun q => decide (q.owner = o) && q.key.agrees r.key := by
    intro o
    simp only [State.takeSlot, State.setPhase, enterToSend_fields, List.any_map]
    refine congrArg s.refs.any (funext fun q => ?_)
    dsimp only [Function.comp]
    split <;> rfl
  have mem : ∀ q ∈ s.refs, (s.refs.any fun p => decide (p.owner = q.owner) && p.key.agrees r.key) = q.key.agrees r.key := by
    intro q hq
    rw [Bool.eq_iff_iff, List.any_eq_true]
    constructor
    · rintro ⟨p, hp, hk⟩
      simp only [Bool.and_eq_true, decide_eq_true_eq] at hk
      rw [← eq_of_owner h.owners hp hq hk.1]
      exact hk.2
    · exact fun hk => ⟨q, hq, by simp [hk]⟩
  constructor
  · simp only [State.joinQueued, takeSlot_fields, hany]
    simp only [State.takeSlot, State.setPhase, enterToSend_fields, List.map_map]
    refine List.map_congr_left fun q hq => ?_
    have hqd : q.phase = .queued ↔ q.owner = r.owner ∨ q.owner ∈ rest := by
      rw [← List.mem_cons, ← oldest]
      refine ⟨fun hp => (h.queued q.owner).mpr ⟨q, hq, rfl, hp⟩, fun ho => ?_⟩
      obtain ⟨p, hp, e, hph⟩ := (h.queued q.owner).mp ho
      rw [← eq_of_owner h.owners hp hq e]
      exact hph
    dsimp only [Function.comp]
    by_cases e : q.owner = r.owner
    · obtain rfl := eq_of_owner h.owners hq row e
      simp only [if_true, hqd.mpr (Or.inl rfl), Key.agrees_self, and_self]
      split <;> rfl
    · simp only [e, if_false, List.mem_filter, mem q hq, hqd, false_or]
  · simp only [State.joinQueued, takeSlot_fields, hany]
    refine List.filter_congr fun o ho => ?_
    cases hb : (s.refs.any fun q => decide (q.owner = o) && q.key.agrees r.key) <;> simp_all

/-- The rounds of serving are the serving of R78, on tables that keep the law of the backlog. -/
theorem serveRounds_serving (n : Nat) : ∀ s : State, s.seekTables.Law → s.backlog.length ≤ n →
    s.Serving s.seekTables (s.serveRounds n).seekTables := by
  induction n with
  | zero =>
    intro s _ len
    exact .done _ (Or.inl (List.eq_nil_of_length_eq_zero (Nat.le_zero.mp len)))
  | succ n ih =>
    intro s law len
    rw [State.serveRounds]
    split
    · next free o rest hfree hb =>
      obtain ⟨hnone, hmin⟩ := freeSlot_eq_some hfree
      have hasFree : none ∈ s.seekTables.slots := (none_mem_slotsUnasked s).mpr (List.mem_of_getElem? hnone)
      have hrest : rest.length ≤ n := by rw [hb] at len; simpa using len
      obtain ⟨r, row, rfl, _⟩ := (law.queued o).mp (by
        rw [show s.seekTables.backlog = _ from hb]; exact List.mem_cons_self)
      have oldest : s.seekTables.backlog = r.owner :: rest := hb
      have href : ({ s with backlog := rest } : State).ref? r.owner = some r := by
        rw [State.ref?]
        cases hf : s.refs.find? fun q => decide (q.owner = r.owner) with
        | none => exact absurd (List.find?_eq_none.mp hf r row) (by simp)
        | some q =>
          exact congrArg some (eq_of_owner law.owners (List.mem_of_find?_eq_some hf) row (by simpa using List.find?_some hf))
      simp only [href]
      have frame := serveOne_frame { s with backlog := rest } r free
      have back : ∀ {x y}, (({ s with backlog := rest } : State).serveOne r free).Serving x y → s.Serving x y :=
        fun h => State.Serving.congr (u := s) frame.directory.symm frame.number.symm h
      cases hfind : ({ s with backlog := rest } : State).bindingAtHand r.key with
      | some b =>
        have e : ({ s with backlog := rest } : State).serveOne r free = ({ s with backlog := rest } : State).offerBinding r b := by
          rw [State.serveOne, hfind]
        obtain ⟨k1, k2, _⟩ := offerBinding_kept { s with backlog := rest } r b
        have tables : (({ s with backlog := rest } : State).serveOne r free).seekTables =
            { s.seekTables with
              backlog := rest, refs := s.refs.map fun q => if q.owner = r.owner then r.offered b else q } := by
          simp only [State.seekTables, State.slotsUnasked, e, k1, k2]
          rw [offerBinding_refs { s with backlog := rest } r b row law.owners]
        refine .answered _ _ r rest b hasFree row oldest ((finds_iff { s with backlog := rest } r.key b).mpr hfind) ?_
        rw [show s.seekTables.refs = s.refs from rfl, ← tables]
        refine back (ih _ ?_ ?_)
        · rw [tables]
          refine law.leaves oldest rfl ?_
          rw [Ref.offered]
          split <;> simp
        · rw [e, k2]; exact hrest
      | none =>
        have found : ∀ b, ¬ s.Finds s.seekTables.refs r.key b := fun b hb => by
          have := (finds_iff { s with backlog := rest } r.key b).mp hb
          rw [hfind] at this
          cases this
        cases hslot : ({ s with backlog := rest } : State).slotOf r.key with
        | some m =>
          have e : ({ s with backlog := rest } : State).serveOne r free =
              ({ s with backlog := rest } : State).setPhase r.owner (.seeking m) := by
            rw [State.serveOne, hfind, hslot]
          obtain ⟨z, hz, hk⟩ := slotOf_eq_some hslot
          have tables : (({ s with backlog := rest } : State).serveOne r free).seekTables =
              { s.seekTables with
                backlog := rest
                refs := s.refs.map fun q => if q.owner = r.owner then { r with phase := .seeking m } else q } := by
            simp only [State.seekTables, State.slotsUnasked, e]
            rw [setPhase_refs { s with backlog := rest } r (.seeking m) row law.owners]
            rfl
          refine .joins _ _ r rest m z.unasked hasFree row oldest found ?_ hk ?_
          · rw [show s.seekTables.slots = s.slotsUnasked from rfl, slotsUnasked_getElem?,
              show s.slots[m]? = some (some z) from hz]
            rfl
          · rw [show s.seekTables.refs = s.refs from rfl, ← tables]
            refine back (ih _ ?_ ?_)
            · rw [tables]
              exact law.leaves oldest rfl (by simp)
            · rw [e]; exact hrest
        | none =>
          have e : ({ s with backlog := rest } : State).serveOne r free =
              (({ s with backlog := rest } : State).takeSlot r free).joinQueued r.key free := by
            rw [State.serveOne, hfind, hslot]
          obtain ⟨hrefs, hback⟩ := takes_refs s r free rest law row hb
          have tables : (({ s with backlog := rest } : State).serveOne r free).seekTables =
              { slots := s.slotsUnasked.set free
                  (some { key := r.key, state := .toSend, tries := 1, timer := false, awaitingRoom := false })
                refs := s.refs.map fun q =>
                  if q.phase = .queued ∧ q.key.agrees r.key = true then { q with phase := .seeking free } else q
                backlog := rest.filter fun o => !(s.refs.any fun q => decide (q.owner = o) && q.key.agrees r.key) } := by
            have hu := enterToSend_unasked { s with backlog := rest } free r.key 1
            rw [e, State.seekTables, hrefs, hback]
            exact congrArg (fun l => SeekTables.mk _ l _) hu
          refine .takes _ _ r rest free row oldest found ?_ ?_ ?_ ?_
          · intro z hz
            obtain ⟨o, ho, hz⟩ := List.mem_map.mp hz
            cases o with
            | none => cases hz
            | some x =>
              cases hz
              exact slotOf_eq_none hslot x ho
          · rw [show s.seekTables.slots = s.slotsUnasked from rfl, slotsUnasked_getElem?, hnone]; rfl
          · intro m hm hn
            rw [show s.seekTables.slots = s.slotsUnasked from rfl, slotsUnasked_getElem?] at hn
            refine hmin m hm ?_
            cases hs : s.slots[m]? with
            | none => rw [hs] at hn; cases hn
            | some o =>
              cases o with
              | none => rfl
              | some x => rw [hs] at hn; cases hn
          · rw [show s.seekTables.refs = s.refs from rfl, show s.seekTables.slots = s.slotsUnasked from rfl, ← tables]
            refine back (ih _ ?_ ?_)
            · rw [tables]
              refine law.next _ _ _ (fun q => by split <;> rfl) (oldest ▸ (List.filter_sublist.cons _)) fun q hq => ?_
              split
              · rename_i hq'
                refine ⟨fun hp => by simp at hp, fun hp => ?_⟩
                have := (List.mem_filter.mp hp.2).2
                rw [Bool.not_eq_true', List.any_eq_false] at this
                exact absurd (by simp [hq'.2]) (this q hq)
              · rename_i hq'
                refine ⟨fun hp => ⟨hp, ?_⟩, fun hp => hp.1⟩
                have hno : q.key.agrees r.key = false := by
                  cases hk : q.key.agrees r.key
                  · rfl
                  · exact absurd ⟨hp, hk⟩ hq'
                have hmem := (law.queued q.owner).mpr ⟨q, hq, rfl, hp⟩
                rw [oldest] at hmem
                refine List.mem_filter.mpr ⟨(List.mem_cons.mp hmem).resolve_left fun e => ?_, ?_⟩
                · rw [eq_of_owner law.owners hq row e] at hno
                  simp at hno
                · rw [Bool.not_eq_true', List.any_eq_false]
                  intro p hp' hk
                  simp only [Bool.and_eq_true, decide_eq_true_eq] at hk
                  rw [eq_of_owner law.owners hp' hq hk.1, hno] at hk
                  exact absurd hk.2 (by simp)
            · rw [e, hback]
              exact (List.length_filter_le _ _).trans hrest
    · next hno =>
      refine .done _ ?_
      cases hf : s.freeSlot with
      | none => exact Or.inr fun hn => freeSlot_eq_none hf ((none_mem_slotsUnasked s).mp hn)
      | some free =>
        cases hb : s.backlog with
        | nil => exact Or.inl hb
        | cons o rest => exact (hno free o rest hf hb).elim

/-- From `s` to `t` slots have been taken and none has changed otherwise, and the queues stay: a slot taken is in TO-SEND and asks
unless the transmit queue holds its SEEK (R69). -/
structure State.SlotsTaken (s t : State) : Prop where
  queue : t.txQueue = s.txQueue
  patches : t.patchQueue = s.patchQueue
  wanted : t.wanted = s.wanted
  kept : ∀ (m : Nat) (y : Slot), s.slots[m]? = some (some y) → t.slots[m]? = some (some y)
  free : ∀ m : Nat, t.slots[m]? = some none → s.slots[m]? = some none
  taken : ∀ (m : Nat) (y : Slot), t.slots[m]? = some (some y) → s.slots[m]? = some (some y) ∨
    (s.slots[m]? = some none ∧ y.state = .toSend ∧ y.awaitingRoom = !s.seekQueued m y.key)

theorem State.SlotsTaken.of_eq {s t : State} (slots : t.slots = s.slots) (queue : t.txQueue = s.txQueue)
    (patches : t.patchQueue = s.patchQueue) (wanted : t.wanted = s.wanted) : s.SlotsTaken t where
  queue := queue
  patches := patches
  wanted := wanted
  kept := fun _ _ h => slots ▸ h
  free := fun _ h => slots ▸ h
  taken := fun _ _ h => Or.inl (slots ▸ h)

theorem State.SlotsTaken.trans {s t u : State} (h : s.SlotsTaken t) (k : t.SlotsTaken u) : s.SlotsTaken u where
  queue := k.queue.trans h.queue
  patches := k.patches.trans h.patches
  wanted := k.wanted.trans h.wanted
  kept := fun m y hy => k.kept m y (h.kept m y hy)
  free := fun m hm => h.free m (k.free m hm)
  taken := fun m y hy => by
    rcases k.taken m y hy with hy | ⟨hn, hs, ha⟩
    · exact h.taken m y hy
    · refine Or.inr ⟨h.free m hn, hs, ?_⟩
      rw [ha]
      simp only [State.seekQueued, h.queue]

theorem takeSlot_taken (s : State) (r : Ref) {n : Nat} (hfree : s.freeSlot = some n) : s.SlotsTaken (s.takeSlot r n) := by
  obtain ⟨hnone, _⟩ := freeSlot_eq_some hfree
  have slot : ∀ m : Nat, (s.takeSlot r n).slots[m]? =
      if n = m then some (some { key := r.key, state := .toSend, tries := 1, timer := false
                                 awaitingRoom := !s.seekQueued n r.key }) else s.slots[m]? := fun m => by
    simp only [State.takeSlot, State.setPhase, State.enterToSend, List.getElem?_set]
    split
    · rename_i e; subst e; simp [(List.getElem?_eq_some_iff.mp hnone).1]
    · rfl
  refine ⟨rfl, rfl, rfl, fun m y hy => ?_, fun m hm => ?_, fun m y hy => ?_⟩
  · rw [slot]
    split
    · rename_i e; subst e; rw [hnone] at hy; cases hy
    · exact hy
  · rw [slot] at hm
    split at hm
    · cases hm
    · exact hm
  · rw [slot] at hy
    split at hy
    · rename_i e; subst e; cases hy; exact Or.inr ⟨hnone, rfl, rfl⟩
    · exact Or.inl hy

theorem serveOne_taken (s : State) (r : Ref) {free : Nat} (hfree : s.freeSlot = some free) : s.SlotsTaken (s.serveOne r free) := by
  unfold State.serveOne
  split
  · obtain ⟨slots, _, queue, patches, wanted⟩ := offerBinding_kept s r ‹Binding›
    exact .of_eq slots queue patches wanted
  · split
    · exact .of_eq rfl rfl rfl rfl
    · exact (takeSlot_taken s r hfree).trans (.of_eq rfl rfl rfl rfl)

theorem serveRounds_taken (n : Nat) : ∀ s : State, s.SlotsTaken (s.serveRounds n) := by
  induction n with
  | zero => exact fun s => .of_eq rfl rfl rfl rfl
  | succ n ih =>
    intro s
    rw [State.serveRounds]
    split
    · next free o rest hfree _ =>
      have out : s.SlotsTaken { s with backlog := rest } := .of_eq rfl rfl rfl rfl
      dsimp only
      split
      · exact (out.trans (serveOne_taken { s with backlog := rest } _ hfree)).trans (ih _)
      · exact out.trans (ih _)
    · exact .of_eq rfl rfl rfl rfl

/-! ## The end of an event -/

theorem settleModules_seekTables (s : State) : s.settleModules.seekTables = s.seekTables := by
  obtain ⟨refs, slots, backlog, _⟩ := settleModules_tables s
  simp only [State.seekTables, State.slotsUnasked, refs, slots, backlog]

theorem arbitrate_seekTables (s : State) (order : List Bool) : (s.arbitrate order).seekTables = s.seekTables := by
  obtain ⟨refs, slots, backlog, _⟩ := arbitrate_tables s order
  simp only [State.seekTables, refs, slots, backlog]

/-- The end of an event is the walks, the settled modules and the grants of the state that serving leaves, or of the state itself where
the event has freed no slot. -/
theorem endEvent_cases (s before : State) (order : List Bool) :
    ∃ t, s.endEvent before order = t.appendWalks.settleModules.arbitrate order ∧
      (t = s.serve ∨ t = s ∧ someFreed before.slots s.slots = false) := by
  unfold State.endEvent
  cases h : someFreed before.slots s.slots
  · exact ⟨s, rfl, Or.inr ⟨rfl, rfl⟩⟩
  · exact ⟨_, rfl, Or.inl rfl⟩

/-- The end of an event appends the walks that R63 asks for, and no others. -/
theorem endEvent_walks (s before : State) (order : List Bool) : (s.endEvent before order).WalksJoined s.patchQueue := by
  have join : ∀ t : State, t.patchQueue = s.patchQueue →
      (t.appendWalks.settleModules.arbitrate order).WalksJoined s.patchQueue := by
    intro t h
    obtain ⟨refs, _, _, queue⟩ := arbitrate_tables t.appendWalks.settleModules order
    obtain ⟨refs', _, _, queue', _⟩ := settleModules_tables t.appendWalks
    rw [State.WalksJoined, refs, refs', queue, queue', ← h]
    exact appendWalks_joined t
  obtain ⟨t, e, rfl | ⟨rfl, _⟩⟩ := endEvent_cases s before order
  · exact e ▸ join _ (serveRounds_taken _ s).patches
  · exact e ▸ join _ rfl

/-- The end of an event serves the backlog from the tables that the event's other effects leave (R78), and each slot taken in it
obtains its SEEK (R69). An event that frees no slot leaves an empty backlog, or no slot free, as every event does. -/
theorem endEvent_servedFrom {b s : State} (before : State) (order : List Bool) (law : s.seekTables.Law)
    (queue : s.txQueue = b.txQueue)
    (unfreed : someFreed before.slots s.slots = false → s.backlog = [] ∨ none ∉ s.slots) :
    b.ServedFrom (s.endEvent before order) s.seekTables := by
  have last : ∀ t : State, s.Serving s.seekTables t.seekTables → s.SlotsTaken t → ReferenceFrame s t →
      b.ServedFrom (t.appendWalks.settleModules.arbitrate order) s.seekTables := by
    intro t serving taken frame
    have frame := ((frame.trans (appendWalks_frame t)).trans (settleModules_frame _)).trans (arbitrate_frame _ order)
    have tables : (t.appendWalks.settleModules.arbitrate order).seekTables = t.seekTables := by
      rw [arbitrate_seekTables, settleModules_seekTables]; rfl
    obtain ⟨_, slots, _, _, txQueue, _⟩ := settleModules_tables t.appendWalks
    refine ⟨?_, fun n z hn hz => ?_⟩
    · rw [tables]
      exact serving.congr frame.directory frame.number
    · have free : s.slots[n]? = some none := by
        rw [show s.seekTables.slots = s.slotsUnasked from rfl, slotsUnasked_getElem?] at hn
        cases h : s.slots[n]? with
        | none => rw [h] at hn; cases hn
        | some o =>
          cases o with
          | none => rfl
          | some x => rw [h] at hn; cases hn
      obtain ⟨y, hy⟩ : ∃ y, t.slots[n]? = some (some y) := by
        have e : (t.appendWalks.settleModules.arbitrate order).slotsUnasked[n]? = t.slotsUnasked[n]? :=
          congrArg (fun x : SeekTables => x.slots[n]?) tables
        rw [slotsUnasked_getElem?, slotsUnasked_getElem?, hz] at e
        cases h : t.slots[n]? with
        | none => rw [h] at e; cases e
        | some o =>
          cases o with
          | none => rw [h] at e; cases e
          | some y => exact ⟨y, rfl⟩
      rcases taken.taken n y hy with h | ⟨_, state, asks⟩
      · rw [free] at h; cases h
      · refine arbitrate_obtains order (txQueue.trans (taken.queue.trans queue)) (slots ▸ hy) state ?_ hz
        rw [asks]
        simp only [State.seekQueued, queue]
  obtain ⟨t, e, rfl | ⟨rfl, h⟩⟩ := endEvent_cases s before order
  · exact e ▸ last _ (serveRounds_serving _ s law (Nat.le_refl _)) (serveRounds_taken _ s) (serveRounds_frame _ s)
  · refine e ▸ last t (.done _ ?_) (.of_eq rfl rfl rfl rfl) (ReferenceFrame.refl t)
    exact (unfreed h).imp id fun h hn => h ((none_mem_slotsUnasked t).mp hn)

/-- The grants at the end of an event from `b` whose other effects leave `s`, as `arbitrate_granted_from` has them. -/
theorem endEvent_granted {b s : State} (before : State) (order : List Bool) (queue : s.txQueue = b.txQueue)
    (asks : ∀ (n : Nat) (y : Slot), s.slots[n]? = some (some y) → y.state = .toSend → y.awaitingRoom = true →
      (∃ x, b.slots[n]? = some (some x) ∧ x.key = y.key ∧ x.awaitingRoom = true) ∨ ¬ b.HoldsSeek n y.key)
    (kept : ∀ (n : Nat) (x y : Slot), b.slots[n]? = some (some x) → x.awaitingRoom = true → s.slots[n]? = some (some y) →
      y.unasked = x.unasked → y.awaitingRoom = true ∨ b.HoldsSeek n x.key) :
    b.Granted (s.endEvent before order) s.wanted := by
  have holds : ∀ (n : Nat) (k : Key), s.HoldsSeek n k ↔ b.HoldsSeek n k := fun n k => by simp only [State.HoldsSeek, queue]
  have last : ∀ t : State, s.SlotsTaken t → b.Granted (t.appendWalks.settleModules.arbitrate order) s.wanted := by
    intro t taken
    obtain ⟨_, slots, _, _, txQueue, wanted⟩ := settleModules_tables t.appendWalks
    rw [show s.wanted = t.appendWalks.settleModules.wanted from (wanted.trans taken.wanted).symm]
    have hslots : t.appendWalks.settleModules.slots = t.slots := slots
    refine arbitrate_granted_from order (txQueue.trans (taken.queue.trans queue)) (fun n y hy hs ha => ?_) fun n x y hx hw hy hu => ?_
    · rw [hslots] at hy
      rcases taken.taken n y hy with h | ⟨_, _, h⟩
      · exact asks n y h hs ha
      · refine Or.inr fun hh => ?_
        rw [h, (seekQueued_iff s n y.key).mpr ((holds n y.key).mpr hh)] at ha
        cases ha
    · rw [hslots] at hy
      rcases taken.taken n y hy with h | ⟨_, _, h⟩
      · exact kept n x y hx hw h hu
      · have key := Slot.key_of_unasked hu
        cases hq : s.seekQueued n y.key
        · exact Or.inl (by rw [h, hq]; rfl)
        · exact Or.inr (key ▸ (holds n y.key).mp ((seekQueued_iff s n y.key).mp hq))
  obtain ⟨t, e, rfl | ⟨rfl, _⟩⟩ := endEvent_cases s before order
  · exact e ▸ last _ (serveRounds_taken _ s)
  · exact e ▸ last t (.of_eq rfl rfl rfl rfl)

/-- Tables served leave an empty backlog, or no slot free. -/
theorem State.ServedFrom.backlogServed {s t : State} {x : SeekTables} (h : s.ServedFrom t x) : t.BacklogServed :=
  h.serving.served.imp id fun h o ho => by
    cases o with
    | none => exact absurd ((none_mem_slotsUnasked t).mpr ho) h
    | some x => rfl

end Sys2Proof.Machine
end

