-- ==== Sys2Proof/Laws/Tables.lean ====
section
/-! SUPPORT. The seek tables that the effects of an event leave before the backlog is served: exhausted seeks (R75), a bus
fault (R123), the removal of a module's references (R34), the pass of a taken OFFER, ANNOUNCE or CLASH (R79, R99). -/

namespace Sys2Proof.Machine

/-- References of a table with distinct owners, one after another given a phase of their own. -/
theorem foldl_refs {R : List Ref} (nodup : (R.map (·.owner)).Nodup) (F : State → Ref → State) (phase : Ref → Phase)
    (step : ∀ s r, (F s r).refs = s.refs.map fun q => if q.owner = r.owner then { q with phase := phase r } else q)
    (l : List Ref) : ∀ (s : State) (k : Ref → Ref), (∀ q, ∃ p, k q = { q with phase := p }) → s.refs = R.map k →
      (∀ r ∈ l, r ∈ R) →
      (l.foldl F s).refs = R.map fun q => if q ∈ l then { q with phase := phase q } else k q := by
  induction l with
  | nil => exact fun s k _ h _ => by simpa using h
  | cons r l ih =>
    intro s k hk h hl
    have owner : ∀ q, (k q).owner = q.owner := fun q => by obtain ⟨p, e⟩ := hk q; rw [e]
    have here : (F s r).refs = R.map fun q => if q = r then { q with phase := phase q } else k q := by
      rw [step, h, List.map_map]
      refine List.map_congr_left fun q hq => ?_
      simp only [Function.comp, owner]
      by_cases e : q.owner = r.owner
      · obtain rfl := eq_of_owner nodup hq (hl r List.mem_cons_self) e
        obtain ⟨p, e⟩ := hk q
        rw [if_pos rfl, if_pos rfl, e]
      · have : q ≠ r := fun h => e (congrArg Ref.owner h)
        simp [e, this]
    rw [List.foldl_cons, ih (F s r) (fun q => if q = r then { q with phase := phase q } else k q) (fun q => ?_) here
      fun x hx => hl x (List.mem_cons_of_mem r hx)]
    · refine List.map_congr_left fun q _ => ?_
      simp only [List.mem_cons]
      by_cases e : q = r <;> by_cases m : q ∈ l <;> simp [e, m]
    · split
      · exact ⟨_, rfl⟩
      · exact hk q

/-- The same, of every reference of a kind. -/
theorem foldl_refs_filter (s : State) (nodup : (s.refs.map (·.owner)).Nodup) (F : State → Ref → State) (phase : Ref → Phase)
    (step : ∀ s r, (F s r).refs = s.refs.map fun q => if q.owner = r.owner then { q with phase := phase r } else q)
    (p : Ref → Bool) (u : State) (h : u.refs = s.refs) :
    ((s.refs.filter p).foldl F u).refs = s.refs.map fun q => if p q then { q with phase := phase q } else q := by
  rw [foldl_refs nodup F phase step _ u id (fun q => ⟨q.phase, rfl⟩) (by simpa using h) fun r hr => (List.mem_filter.mp hr).1]
  refine List.map_congr_left fun q hq => ?_
  simp [List.mem_filter, hq]

/-- What the folded operation leaves, the fold leaves. -/
theorem foldl_kept {α β : Type} (f : State → β) (F : State → α → State) (h : ∀ s x, f (F s x) = f s) (l : List α) :
    ∀ s, f (l.foldl F s) = f s := by
  induction l with
  | nil => exact fun _ => rfl
  | cons x l ih => exact fun s => (ih (F s x)).trans (h s x)

/-- R75: the references of the slot go WAITING and the slot is freed. -/
theorem exhaust_tables (s : State) (n : Nat) (nodup : (s.refs.map (·.owner)).Nodup) :
    (s.exhaust n).seekTables =
      { refs := s.refs.map fun r => if r.phase = .seeking n then { r with phase := .waiting } else r
        slots := s.slotsUnasked.set n none
        backlog := s.backlog } ∧
    (s.exhaust n).txQueue = s.txQueue := by
  have refs := foldl_refs_filter s nodup (fun t r => (t.setPhase r.owner .waiting).post (.referenceUnresolved r.owner))
    (fun _ => .waiting) (fun _ _ => rfl) (fun r => decide (r.phase = .seeking n)) s rfl
  have slots := foldl_kept State.slots (fun t (r : Ref) => (t.setPhase r.owner .waiting).post (.referenceUnresolved r.owner))
    (fun _ _ => rfl) (s.refs.filter fun r => decide (r.phase = .seeking n)) s
  have backlog := foldl_kept State.backlog (fun t (r : Ref) => (t.setPhase r.owner .waiting).post (.referenceUnresolved r.owner))
    (fun _ _ => rfl) (s.refs.filter fun r => decide (r.phase = .seeking n)) s
  have queue := foldl_kept State.txQueue (fun t (r : Ref) => (t.setPhase r.owner .waiting).post (.referenceUnresolved r.owner))
    (fun _ _ => rfl) (s.refs.filter fun r => decide (r.phase = .seeking n)) s
  refine ⟨?_, queue⟩
  simp only [State.seekTables, State.slotsUnasked, State.exhaust, refs, slots, backlog, decide_eq_true_eq, List.map_set,
    Option.map_none]

/-- The slots that keep a SEEKING reference, by number. -/
theorem keepUsedSlots_eq (refs : List Ref) : ∀ (l : List (Option Slot)) (k : Nat), keepUsedSlots refs k l =
    l.mapIdx fun i o => if refs.any fun r => decide (r.phase = .seeking (k + i)) then o else none := by
  intro l
  induction l with
  | nil => exact fun _ => rfl
  | cons o l ih =>
    intro k
    rw [keepUsedSlots, ih, List.mapIdx_cons]
    refine congrArg _ (List.ext_getElem? fun i => ?_)
    simp [List.getElem?_mapIdx, Nat.add_assoc, Nat.add_comm 1]

/-- The slots through which references of a kind seek, in a state that has these references alone. -/
theorem freeEmptySlots_unasked (s u : State) (keeps : Ref → Bool) (f : Slot → Slot)
    (refs : ∀ n, (u.refs.any fun r => decide (r.phase = .seeking n)) = s.refs.any fun r => keeps r && decide (r.phase = .seeking n))
    (slots : u.slotsUnasked = s.slotsUnasked.map (Option.map f)) :
    u.freeEmptySlots.slotsUnasked = (s.slotsOf keeps).map (Option.map f) := by
  refine List.ext_getElem? fun i => ?_
  have hi := congrArg (fun l : List (Option Slot) => l[i]?) slots
  simp only [State.slotsUnasked, List.map_map, List.getElem?_map] at hi
  simp only [State.slotsUnasked, State.slotsOf, freeEmptySlots_fields, keepUsedSlots_eq, List.getElem?_map, List.getElem?_mapIdx,
    Nat.zero_add, refs]
  cases hu : u.slots[i]? <;> cases hs : s.slots[i]? <;> simp [hu, hs] at hi ⊢
  split
  · rw [hi, Option.map_map]
  · rfl

/-- R34: the references of the module are gone, from the backlog too, and the slots through which no other seeks are freed. In `u` the
isolation may have stopped the timers of `s` before it (R85). -/
theorem removeRefs_tables (s u : State) (m : Byte) (begun : Bool) (f : Slot → Slot) (refs : u.refs = s.refs)
    (backlog : u.backlog = s.backlog) (slots : u.slotsUnasked = s.slotsUnasked.map (Option.map f)) :
    (u.removeRefs m begun).seekTables =
      { refs := s.refs.filter fun r => decide (r.owner.module ≠ m)
        slots := (s.slotsOf fun r => decide (r.owner.module ≠ m)).map (Option.map f)
        backlog := s.backlog.filter fun o => decide (o.module ≠ m) } := by
  have h := freeEmptySlots_unasked s
    { u with
      refs := u.refs.filter fun r => decide (r.owner.module ≠ m)
      backlog := u.backlog.filter fun o => decide (o.module ≠ m) } (fun r => decide (r.owner.module ≠ m)) f
    (fun n => by simp only [refs, List.any_filter]) slots
  simp only [State.seekTables]
  refine congr (congrArg₂ SeekTables.mk ?_ ?_) ?_
  · rw [← refs]; rfl
  · rw [← h]
    rfl
  · rw [← backlog]; rfl

/-- R123: the reference is faulted, out of the backlog, and its slot is freed where no other reference seeks through it. -/
theorem busFault_tables (s : State) (r : Ref) (k : Nat) (nodup : (s.refs.map (·.owner)).Nodup) (row : r ∈ s.refs) :
    (s.busFault r.owner k).seekTables =
      { refs := s.refs.map fun q => if q.owner = r.owner then r.busFaulted else q
        slots := s.slotsOf fun q => decide (q.owner ≠ r.owner)
        backlog := s.backlog.filter fun o => decide (o ≠ r.owner) } ∧
    (s.busFault r.owner k).txQueue = s.txQueue := by
  refine ⟨?_, rfl⟩
  have refs : (s.busFault r.owner k).refs = s.refs.map fun q => if q.owner = r.owner then r.busFaulted else q := by
    simp only [State.busFault, freeEmptySlots_fields, post_fields, State.setReflect, State.setPhase, List.map_map]
    refine List.map_congr_left fun q hq => ?_
    dsimp only [Function.comp]
    by_cases e : q.owner = r.owner
    · simp [eq_of_owner nodup hq row e, Ref.busFaulted]
    · simp [e]
  refine congr (congrArg₂ SeekTables.mk refs ?_) rfl
  refine (freeEmptySlots_unasked s _ (fun q => decide (q.owner ≠ r.owner)) id (fun n => ?_) (by simp [State.slotsUnasked])).trans
    (by simp)
  refine (congrArg (fun l : List Ref => l.any fun r => decide (r.phase = .seeking n)) refs).trans ?_
  rw [List.any_map]
  refine List.any_congr rfl fun q => ?_
  dsimp only [Function.comp]
  by_cases e : q.owner = r.owner <;> simp [e, Ref.busFaulted]

/-- Keys that agree with one key agree with each other. -/
theorem Key.agrees_of_both {a b k : Key} (ha : a.agrees k = true) (hb : b.agrees k = true) : a.agrees b = true := by
  simp only [Key.agrees, Bool.and_eq_true, Bool.or_eq_true, decide_eq_true_eq] at ha hb ⊢
  obtain ⟨⟨h1, h2⟩, h3⟩ := ha
  obtain ⟨⟨k1, k2⟩, k3⟩ := hb
  refine ⟨⟨h1.trans k1.symm, h2.trans k2.symm⟩, ?_⟩
  rcases h3 with h | h
  · exact Or.inl h
  · exact k3.imp (fun e => h1.trans (k1.symm.trans e)) fun e => h.trans e.symm

/-- The slot of a key is freed, and no other. -/
theorem freeSlotOf_unasked (s : State) (k : Key) (keys : s.SlotKeysDistinct) :
    (s.freeSlotOf k).slotsUnasked = s.slotsUnasked.map fun o => o.filter fun x => !x.key.agrees k := by
  have keep : ∀ l : List (Option Slot), (∀ x, some x ∈ l → x.key.agrees k = false) →
      l.map (Option.map Slot.unasked) = (l.map (Option.map Slot.unasked)).map fun o => o.filter fun x => !x.key.agrees k := by
    intro l h
    rw [List.map_map]
    refine List.map_congr_left fun o ho => ?_
    cases o with
    | none => rfl
    | some x => simp [Option.filter, h x ho]
  unfold State.freeSlotOf
  split
  · next h => exact keep _ (slotOf_eq_none h)
  · next n h =>
    obtain ⟨x, hx, hk⟩ := slotOf_eq_some h
    refine List.ext_getElem? fun i => ?_
    simp only [State.slotsUnasked, List.getElem?_map, List.getElem?_set]
    split
    · rename_i e
      subst e
      obtain ⟨hl, he⟩ := List.getElem?_eq_some_iff.mp hx
      simp [hl, he, Option.filter, hk]
    · rename_i e
      cases hi : s.slots[i]? with
      | none => rfl
      | some o =>
        cases o with
        | none => rfl
        | some y =>
          have : y.key.agrees k = false := by
            cases hy : y.key.agrees k
            · rfl
            · exact absurd (keys n i x y hx hi (Key.agrees_of_both hk hy)) e
          simp [Option.filter, this]

/-- An OFFER or ANNOUNCE is a CLASH that refuses no pair, for the references (R79, R98). -/
theorem bindKey_eq_clashKey (s : State) (k : Key) (b : Binding) : s.bindKey k b = s.clashKey k b [] := by
  have clash : ∀ (t : State) (r : Ref), t.clashRef r b [] = if r.phase.isSeek then t.bindFromFrame r b else t := by
    intro t r
    unfold State.clashRef
    split
    · rfl
    · split <;> simp
  simp only [State.bindKey, State.clashKey, clash, List.foldl_filter]
  refine congrArg (fun t : State => t.freeSlotOf k) ?_
  refine congrArg (fun f => s.refs.foldl f s) (funext fun t => funext fun r => ?_)
  by_cases h : r.key.agrees k = true <;> by_cases h' : r.phase.isSeek = true <;> simp [h, h']

/-- The pass of a CLASH moves a reference of its key which is in a seek phase or bound to a pair it refuses (R98, R99). -/
def Ref.clashMoves (k : Key) (refused : List Pair) (r : Ref) : Bool :=
  r.key.agrees k && (r.phase.isSeek || r.boundToOne refused)

/-- What the pass does with such a reference. -/
def State.clashMove (b : Binding) (s : State) (r : Ref) : State :=
  if r.phase.isSeek then s.bindFromFrame r b else (s.post (.referenceRevoked r.owner .refusedDefiner)).offerBinding r b

theorem clashRef_eq (s : State) (r : Ref) (b : Binding) (refused : List Pair) :
    s.clashRef r b refused = if r.phase.isSeek || r.boundToOne refused then s.clashMove b r else s := by
  unfold State.clashRef State.clashMove Ref.boundToOne
  by_cases h : r.phase.isSeek = true
  · simp [h]
  · cases hb : r.phase.binding? with
    | none => simp [h]
    | some old => simp [h]

theorem clashKey_eq (s : State) (k : Key) (b : Binding) (refused : List Pair) :
    s.clashKey k b refused = ((s.refs.filter (Ref.clashMoves k refused)).foldl (State.clashMove b) s).freeSlotOf k := by
  simp only [State.clashKey, clashRef_eq, List.foldl_filter]
  refine congrArg (fun t : State => t.freeSlotOf k) ?_
  refine congrArg (fun f => s.refs.foldl f s) (funext fun t => funext fun r => ?_)
  cases h : r.key.agrees k <;> simp [Ref.clashMoves, h]

/-- The members of the backlog that one reference of the pass leaves. -/
theorem clashMove_kept (b : Binding) (s : State) (r : Ref) :
    (s.clashMove b r).refs = (s.refs.map fun q => if q.owner = r.owner then { q with phase := (r.offered b).phase } else q) ∧
    (s.clashMove b r).slots = s.slots ∧ (s.clashMove b r).txQueue = s.txQueue ∧ (s.clashMove b r).patchQueue = s.patchQueue ∧
    (s.clashMove b r).wanted = s.wanted ∧
    (s.clashMove b r).backlog = s.backlog.filter fun o => !(r.phase.isSeek && decide (o = r.owner)) := by
  unfold State.clashMove State.bindFromFrame State.offerBinding
  by_cases h : r.phase.isSeek = true <;> by_cases e : r.expected.accepts b.kind = true <;>
    simp [h, e, State.setPhase, Ref.offered]

/-- R79, R98, R99: the references of the key that the pass moves are offered the binding, those QUEUED leave the backlog, and the slot
of the key is freed. -/
theorem clashKey_tables (s : State) (k : Key) (b : Binding) (refused : List Pair) (law : s.seekTables.Law)
    (keys : s.SlotKeysDistinct) :
    (s.clashKey k b refused).seekTables =
      { refs := s.refs.map fun r => if r.clashMoves k refused then r.offered b else r
        slots := s.slotsUnasked.map fun o => o.filter fun x => !x.key.agrees k
        backlog := s.backlog.filter fun o => !(s.refs.any fun r => decide (r.owner = o) && r.key.agrees k) } ∧
    (s.clashKey k b refused).txQueue = s.txQueue := by
  have h := fun t r => clashMove_kept b t r
  have refs := foldl_refs_filter s law.owners (State.clashMove b) (fun r => (r.offered b).phase) (fun t r => (h t r).1)
    (Ref.clashMoves k refused) s rfl
  have slots := foldl_kept State.slots (State.clashMove b) (fun t r => (h t r).2.1) (s.refs.filter (Ref.clashMoves k refused)) s
  have queue := foldl_kept State.txQueue (State.clashMove b) (fun t r => (h t r).2.2.1) (s.refs.filter (Ref.clashMoves k refused)) s
  have backlog : ∀ (l : List Ref) (t : State), (l.foldl (State.clashMove b) t).backlog =
      t.backlog.filter fun o => !(l.any fun r => r.phase.isSeek && decide (o = r.owner)) := by
    intro l
    induction l with
    | nil => intro t; simp
    | cons r l ih =>
      intro t
      rw [List.foldl_cons, ih, (h t r).2.2.2.2.2, List.filter_filter]
      refine List.filter_congr fun o _ => ?_
      rw [List.any_cons, Bool.not_or, Bool.and_comm]
  have free : ∀ t : State, (t.freeSlotOf k).refs = t.refs ∧ (t.freeSlotOf k).backlog = t.backlog ∧
      (t.freeSlotOf k).txQueue = t.txQueue := fun t => by
    unfold State.freeSlotOf
    split <;> exact ⟨rfl, rfl, rfl⟩
  rw [clashKey_eq]
  obtain ⟨f1, f2, f3⟩ := free ((s.refs.filter (Ref.clashMoves k refused)).foldl (State.clashMove b) s)
  refine ⟨congr (congrArg₂ SeekTables.mk (f1.trans refs) ?_) (f2.trans ?_), f3.trans queue⟩
  · rw [freeSlotOf_unasked]
    · simp only [State.slotsUnasked, slots]
    · intro i j x y
      rw [slots]
      exact keys i j x y
  · rw [backlog]
    refine List.filter_congr fun o ho => congrArg _ (Bool.eq_iff_iff.mpr ?_)
    obtain ⟨q, hq, rfl, hp⟩ := (law.queued o).mp ho
    simp only [List.any_eq_true, List.mem_filter, Bool.and_eq_true, decide_eq_true_eq]
    constructor
    · rintro ⟨r, ⟨hr, hm⟩, _, e⟩
      exact ⟨r, hr, e.symm, (Bool.and_eq_true _ _ ▸ hm : _ ∧ _).1⟩
    · rintro ⟨r, hr, e, hk⟩
      obtain rfl := eq_of_owner law.owners hr hq e
      exact ⟨r, ⟨hr, by simp [Ref.clashMoves, hk, hp, Phase.isSeek]⟩, by simp [hp, Phase.isSeek], rfl⟩

end Sys2Proof.Machine
end

