-- ==== Sys2Proof/WellFormed.lean ====
section
/-! DEFINITION. Which operands a command may have: the ranges the spec gives the thing the operand stands for. `exec`
is total and does not ask; a test or a trace with an ill-formed operand describes nothing the surroundings can do. -/

namespace Sys2Proof

/-- Every store lies in local memory (R6). -/
def Env.wellFormed (e : Env) : Bool :=
  e.stores.all fun x => decide (x.1 < Config.localBytes)

/-- A step that leaves its run of transfers has made one of them. -/
def Env.wellFormedRun (e : Env) : Bool :=
  e.wellFormed && decide (e.upTo ≠ some 0)

/-- A step that writes a report record may only take its content, and make no transfer (R173). -/
def Env.wellFormedForRecord (e : Env) : Bool :=
  e.wellFormedRun || decide (e = { upTo := some 0 })

/-- A step that ends in a transfer not acknowledged. -/
def Env.wellFormedTimeout (e : Env) : Bool :=
  e.wellFormed && e.failAt.isSome && e.upTo.isNone

/-- A notice has four words and the longest report record sixteen (R186, R187). -/
def Cut.wellFormed (c : Cut) : Bool :=
  decide (c.noticeWords ≤ 4) && decide (c.reportWords ≤ 16)

/-- The bits reach the declared end of the frame. -/
def completeBits (bits : List Bool) : Bool :=
  decide (29 ≤ bits.length) && decide (bits.length = declaredLength bits)

/-- An access of this width at this byte offset lies in the window and is aligned (R165). -/
def Width.fits (offset : Nat) : Width → Bool
  | .byte => decide (offset < 32)
  | .half => decide (offset < 32) && decide (offset % 2 = 0)
  | .word => decide (offset < 32) && decide (offset % 4 = 0)

/-- A write there is acknowledged and ignored (R165): any byte or halfword write, a word write to ID, PSTAT, CQSTAT
or NPROD. -/
def ignoredWrite (offset : Nat) : Width → Bool
  | .byte => true
  | .half => true
  | .word => decide (offset ∈ [0x00, 0x08, 0x10, 0x14])

/-- The operands of a command are in the ranges the spec gives them. -/
def Instr.wellFormed : Instr → Bool
  | .pinReset _ cut => cut.wellFormed
  | .portReset value cut => value.getLsbD 31 && cut.wellFormed
  | .interruptEnableWrite value => !value.getLsbD 31
  | .submission _ => true
  | .nconsWrite _ => true
  | .istatWrite _ => true
  | .ignoredRegisterWrite offset width _ => width.fits offset && ignoredWrite offset width
  | .unknownCommandCode env => env.wellFormedRun
  | .configure env => env.wellFormedRun
  | .start env => env.wellFormedRun
  | .stop env => env.wellFormedRun
  | .load env => env.wellFormedRun
  | .loadCommitExport env => env.wellFormedRun
  | .loadCommitImport env => env.wellFormedRun
  | .loadCommitEnd => true
  | .loadCommitFault env => env.wellFormedRun
  | .unload env => env.wellFormedRun
  | .reseek env => env.wellFormedRun
  | .report env => env.wellFormedRun
  | .reportRecordWrite env => env.wellFormedForRecord
  | .frameBegin idle => decide (Config.freeIdle ≤ idle)
  | .contentionLost bit => decide (bit < 6)
  | .contentionWon => true
  | .senderBitMismatch pos => decide (6 ≤ pos)
  | .frameCutOff bits quiet => !completeBits bits && decide (Config.cutOffIdle ≤ quiet)
  | .frameArrival bits _ => completeBits bits
  | .holdWindowEnd _ => true
  | .repeatFrame idle => decide (Config.freeIdle ≤ idle)
  | .reservationLapse idle _ => decide (Config.lapseIdle ≤ idle)
  | .lapse => true
  | .seekTaken => true
  | .ownSeekTaken => true
  | .offerTaken => true
  | .announceTaken => true
  | .ownAnnounceTaken => true
  | .clashTaken => true
  | .withdrawTaken => true
  | .ownWithdrawTaken => true
  | .leaveTaken => true
  | .ownLeaveTaken => true
  | .joinTaken => true
  | .ownJoinTaken => true
  | .seekTimerExpiry slot _ => decide (slot < Config.slotCount)
  | .walkBegin => true
  | .siteWriteDone env => env.wellFormed && env.upTo.isNone
  | .memoryAckTimeout _ env => env.wellFormedTimeout
  | .noticeWriteDone env => env.wellFormedRun
  | .resetLow => true

end Sys2Proof
end

