-- ==== Sys2Proof/Tests/Slice0.lean ====
section
/-! SUPPORT. The model's own tests: ill-formed commands refused, the spec's worked examples, single steps, and for every
obligation with hypotheses a state and operands that meet them (`test_<Obligation>_met`). -/

namespace Sys2Proof.Tests
open Sys2Proof Sys2Proof.Machine

/-! ## Ill-formed commands -/

theorem test_wellFormed_refuses : [
    Instr.pinReset 0 { noticeWords := 5 }, .pinReset 0 { reportWords := 17 }, .portReset 0 {},
    .portReset 0x80000000 { noticeWords := 5 }, .interruptEnableWrite 0x80000000, .ignoredRegisterWrite 32 .byte 0,
    .ignoredRegisterWrite 1 .half 0, .ignoredRegisterWrite 2 .word 0, .ignoredRegisterWrite 0x04 .word 0,
    .unknownCommandCode { stores := [(0x10000000, 1)] }, .frameBegin 11, .contentionLost 6, .senderBitMismatch 5,
    .frameCutOff [true] 1, .frameCutOff (List.replicate 21 true ++ List.replicate 24 false) 2, .frameArrival [true] false,
    .repeatFrame 11, .reservationLapse 47 false, .seekTimerExpiry 16 0, .memoryAckTimeout .patchEngine {},
    .load { upTo := some 0 }, .memoryAckTimeout .noticeUnit { failAt := some 1, upTo := some 2 }, .siteWriteDone { upTo := some 1 },
    .reportRecordWrite { upTo := some 0, failAt := some 0 } ].all
    (fun c => !c.wellFormed) = true := by decide +kernel

theorem test_wellFormed_accepts : [
    Instr.pinReset 15 { noticeWords := 4, reportWords := 16 }, .portReset 0x80000001 {}, .interruptEnableWrite 1,
    .ignoredRegisterWrite 31 .byte 0, .ignoredRegisterWrite 30 .half 0, .ignoredRegisterWrite 0x14 .word 0,
    .load { stores := [(0x0FFFFFFF, 1)] }, .frameBegin 12, .contentionLost 5, .senderBitMismatch 6, .frameCutOff [true] 2,
    .frameArrival (List.replicate 21 true ++ List.replicate 24 false) false, .repeatFrame 12, .reservationLapse 48 true,
    .seekTimerExpiry 15 10, .load { upTo := some 1 }, .reportRecordWrite { upTo := some 0 },
    .memoryAckTimeout .noticeUnit { failAt := some 0 }, .siteWriteDone { failAt := some 1 } ].all
    (·.wellFormed) = true := by
  decide +kernel

/-! ## The spec's worked examples -/

/-- "adc_rd". -/
def adcRd : List Byte := [0x61, 0x64, 0x63, 0x5F, 0x72, 0x64]

/-- Chapter 10, one SEEK on the line. -/
def seekOnTheLine : Frame := { sender := 3, sequence := 18, group := 0, body := .seek .common adcRd }

theorem test_one_seek_on_the_line :
    seekOnTheLine.bits.length = 109 ∧
    seekOnTheLine.bits.take 29 =
      [true, true, false, false, true, true] ++ [false, false, false, true, false, false, true, false] ++
        [false, true, true, true] ++ [false, false, false] ++ [false, false, false, false, true, false, false, false] ∧
    seekOnTheLine.body.bytes = [0x00, 0x06, 0x61, 0x64, 0x63, 0x5F, 0x72, 0x64] ∧
    checkOf seekOnTheLine.bits = 0 ∧ readFrame seekOnTheLine.bits = some seekOnTheLine := by decide +kernel

/-- One bit changed, a frame of another class than its kind's, and a frame cut short are bad (R131). -/
theorem test_bad_frames :
    readFrame (seekOnTheLine.bits.set 30 true) = none ∧ readFrame (seekOnTheLine.bits.take 108) = none ∧
    (let bits := natBits 6 (1 * 16 + 3) ++ (seekOnTheLine.contentBits.drop 6)
     readFrame (bits ++ natBits 16 (checkOf bits).toNat) = none) := by decide +kernel

/-- The station of the examples: 3, with a ring of 16, and station 2 present. -/
def active : State :=
  { State.reset with
    station := .active, number := 3, busSeen := true
    config := some { group := 0, seekTimeout := 10, seekTries := 3, stub := 0x30000100, ringBase := 0x1000, ringSize := 16 }
    peers := State.reset.peers.modify 2 fun p => { p with present := true }
    notices := { NoticeUnit.reset with ring := some { base := 0x1000, size := 16 } } }

/-- A site of chapter 6's segment, whose local base is 0x8000. -/
def siteAt (form : Form) (offset : Nat) (addend : Word) : Site :=
  { segment := 0, offset := BitVec.ofNat 32 offset, form, addend, address := 0x8000 + offset }

/-- Chapter 6, the encodings of one binding and of the stub. -/
theorem test_site_encodings_of_chapter_6 :
    let sites := [siteAt .a32 0 0, siteAt .hi16 4 0, siteAt .lo16 6 8, siteAt (.fld 4 20 12) 8 0xFFFFFFC0, siteAt .d16 12 0]
    (sites.map fun x => x.encode 3 0x20100040) = [some 0x20100040, some 0x2010, some 0x0048, some 0x20100, none] ∧
    sites.map active.stubValue = [0x30000100, 0x3000, 0x0108, 0, 0x8100] ∧
    (siteAt (.fld 4 20 12) 8 0).newWord 0xA5FFFFF3 0x20100 = 0xA5201003 ∧
    (siteAt (.fld 4 20 12) 8 0).newWord 0xA5FFFFF3 0 = 0xA5000003 ∧
    (siteAt .d16 12 0).encode 3 0x30009010 = some 0x1010 := by decide +kernel

/-- Chapter 9, a ring of 16 running full, from its second row on. -/
theorem test_ring_of_16_running_full :
    let n : NoticeUnit := { NoticeUnit.reset with ring := some { base := 0, size := 16 }, producer := 15, drops := 2 }
    let freed := n.release 4
    freed.list = [{ slot := 15, notice := .noticesDropped 2 }] ∧ freed.drops = 0 ∧
    (let full : NoticeUnit := { freed with producer := 2, list := [] }
     let four := [Notice.busStall, .busStall, .busStall, .busStall].foldl NoticeUnit.take full
     four.list = [{ slot := 2, notice := .busStall }] ∧ four.drops = 3 ∧ four.occupancy = 15) := by decide +kernel

/-! ## Stations in use -/

/-- The station with the memory agent's grant given to every claimant that waits, as where they have asked together. -/
def ready (s : State) : State := { s with granted := claimants.filter s.asks }

/-- The next state of a command on the station so. -/
def after (c : Instr) (s : State) : State :=
  match exec c (ready s) with
  | .next t => t
  | .fault _ => s
  | .refused _ => s

/-- A key of the cage, by one byte of its name. -/
def keyNamed (b : Byte) : Key := { scope := .common, group := 0, name := [b] }

/-- A frame of station `n`. -/
def frameOf (n : Station) (body : Body) : Frame := { sender := n, sequence := 9, group := 0, body }

/-- The binding of chapter 6's kind: station 2, generation 7. -/
def bindingOf2 : Binding := { definer := 2, generation := 7, target := 0x20100040, kind := .entry }

/-- A reference of module 7. -/
def refOf (index : Nat) (name : Byte) (phase : Phase) (reflect : Reflect) : Ref :=
  { key := keyNamed name, owner := { module := 7, index }, expected := .any, sites := [siteAt .a32 0 0], phase, reflect }

/-- An export entry of module 7. -/
def entryOf (index : Nat) (name : Byte) (generation : Half) (state : ExportState) : ExportEntry :=
  { key := keyNamed name, owner := { module := 7, index }, target := 0x30001000, kind := .entry, generation, state }

/-- Module 7, loaded. -/
def module7 : ModuleRecord :=
  { id := 7, descriptor := 0x2000, segmentCount := 1, segments := [{ base := 0x8000, length := 0x100 }], exportCount := 4, importCount := 3,
    siteCount := 3, state := .linking }

/-- A seek slot for name `b`. -/
def slotFor (b : Byte) (state : SlotState) (tries : Nat) : Slot :=
  { key := keyNamed b, state, tries, timer := decide (state = .out), awaitingRoom := false }

/-- Module 7 in use: exports 'P' LIVE with a claim of station 4, 'Q' PENDING, 'R' WITHDRAWING, 'S' REFUSED; imports 'x'
seeking in slot 0, 'y' bound to station 2, 'z' waiting. -/
def linked : State :=
  { active with
    modules := [module7]
    directory := [entryOf 0 0x50 1 (.live [{ station := 4, generation := 1 }]), entryOf 1 0x51 2 .pending,
      entryOf 2 0x52 3 .withdrawing, entryOf 3 0x53 4 (.refused { station := 4, generation := 9 })]
    answers := [{ owner := { module := 7, index := 0 }, owesOffer := false }]
    refs := [refOf 0 0x78 (.seeking 0) .stub, refOf 1 0x79 (.bound bindingOf2) (.binding bindingOf2),
      refOf 2 0x7A .waiting .stub]
    slots := some (slotFor 0x78 .out 3) :: List.replicate 15 none
    pending := [.seekTimerExpiry 0 10] }

/-- The station with this frame at the head of its receive queue. -/
def received (s : State) (f : Frame) : State := { s with rxQueue := [.frame f] }

/-- The station with these words at 0x100 and that address at the head of its command queue. -/
def submitted (s : State) (words : List Word) : State :=
  { s with mem := s.mem.setWords 0x100 words, commandQueue := [0x100], granted := [.commandEngine] }

/-! ## The laws hold in a station in use -/

theorem linked_ringLaw : linked.RingLaw where
  sizes := by
    rintro r h
    simp only [linked, active, Option.some.injEq] at h
    subst h
    decide
  slots := by
    intro r _ i x hx
    simp [linked, active, NoticeUnit.reset] at hx
  unset := by simp [linked, active]
  off := by simp [linked, active]

theorem linked_ownersDistinct : linked.OwnersDistinct where
  exportOwners := by decide
  refOwners := by decide
  exportModules := by decide
  refModules := by decide
  commit := by simp [linked, active, State.reset]

theorem linked_slots (n : Nat) (x : Slot) (h : linked.slots[n]? = some (some x)) : n = 0 ∧ x = slotFor 0x78 .out 3 := by
  cases n with
  | zero => simpa [linked] using h.symm
  | succ n =>
    have hm : some x ∈ List.replicate 15 (none : Option Slot) := List.mem_of_getElem? (i := n) h
    simp at hm

theorem linked_seekLaw : linked.SeekLaw where
  owners := linked_ownersDistinct
  keys := by
    intro i j x y hi hj _
    rw [(linked_slots i x hi).1, (linked_slots j y hj).1]
  used := by
    intro n x h
    obtain ⟨rfl, rfl⟩ := linked_slots n x h
    decide
  seeking := by
    intro r hr n hn
    simp only [linked, List.mem_cons, List.not_mem_nil, or_false] at hr
    rcases hr with rfl | rfl | rfl <;> simp [refOf] at hn
    subst hn
    exact ⟨slotFor 0x78 .out 3, by decide, by decide⟩
  once := by decide
  queued := by
    intro o
    simp [linked, active, State.reset, refOf]
  served := Or.inl rfl

theorem linked_boundLaw : linked.BoundLaw where
  owners := linked_ownersDistinct
  queueOnce := by decide
  bound := by
    intro r hr b hb
    simp only [linked, List.mem_cons, List.not_mem_nil, or_false] at hr
    rcases hr with rfl | rfl | rfl <;> simp [refOf] at hb
    subst hb
    decide

theorem linked_definersPresent : linked.DefinersPresent where
  definers := by
    intro r hr b hb
    simp only [linked, List.mem_cons, List.not_mem_nil, or_false] at hr
    rcases hr with rfl | rfl | rfl <;> simp [refOf, Phase.binding?] at hb
    subst hb
    exact Or.inr (by decide)
  owners := by simp [linked, active, State.reset]
  markers := by decide
  modules := by decide
  joined := by simp [linked, active]
  table := by decide

theorem linked_namesValid : linked.NamesValid where
  entries := by decide
  refs := by decide
  slots := by
    intro x hx
    simp [linked] at hx
    subst hx
    decide
  queued := by simp [linked, active, State.reset]
  owed := by decide
  owners := by simp [linked, active, State.reset]

theorem linked_noneWaiting : linked.NoneWaiting := by
  refine ⟨rfl, fun y hy => ?_⟩
  simp [linked] at hy
  subst hy
  decide

theorem linked_withinRoom : linked.WithinRoom where
  transmit := by decide
  receive := by decide
  commands := by decide
  modules := by decide
  slots := by decide
  peers := by decide
  drops := by decide
  granted := fun _ => Or.inl linked_noneWaiting

theorem linked_answersLive : linked.AnswersLive := by constructor <;> decide

theorem linked_storesWithinRoom : linked.StoresWithinRoom := by constructor <;> decide

theorem linked_keysDistinct : linked.DirectoryKeysDistinct := by
  unfold State.DirectoryKeysDistinct
  decide

theorem linked_moduleStates : linked.ModuleStatesDerived where
  agree := by
    intro m hm _ _
    simp only [linked, List.mem_cons, List.not_mem_nil, or_false] at hm
    subst hm
    exact ⟨by decide, by decide, by decide, by decide⟩

theorem linked_agentLaw : linked.AgentLaw where
  asking := by decide
  once := by decide
  busy := by intro c; cases c <;> decide

theorem linked_memory : linked.MemoryCanonical := by
  unfold State.MemoryCanonical
  decide

/-- Every law is met by a station in use, of which a step is taken. -/
theorem test_laws_met :
    (linked.MemoryCanonical ∧ linked.WithinRoom ∧ linked.RingLaw ∧ linked.SeekLaw ∧ linked.DirectoryKeysDistinct ∧
      linked.AnswersLive ∧ linked.ModuleStatesDerived ∧ linked.BoundLaw ∧ linked.DefinersPresent ∧
      linked.StoresWithinRoom ∧ linked.NamesValid ∧ linked.AgentLaw) ∧ ∃ t, step linked = .next t :=
  ⟨⟨linked_memory, linked_withinRoom, linked_ringLaw, linked_seekLaw, linked_keysDistinct, linked_answersLive,
    linked_moduleStates, linked_boundLaw, linked_definersPresent, linked_storesWithinRoom, linked_namesValid,
    linked_agentLaw⟩, _, rfl⟩

/-! ## The machine -/

theorem test_StepRunsTheFrontCommand_met :
    linked.pending = [.seekTimerExpiry 0 10] ∧ step linked = exec (.seekTimerExpiry 0 10) { linked with pending := [] } ∧
    State.reset.pending = [] ∧ step State.reset = .next State.reset := ⟨rfl, rfl, rfl, rfl⟩

/-- The station number through the two resets. -/
theorem test_NumberAndConfigurationKept_met :
    exec (.pinReset 5 {}) linked = .next (after (.pinReset 5 {}) linked) ∧ (after (.pinReset 5 {}) linked).number = 5 ∧
    (after (.pinReset 5 {}) linked).config = none ∧ (after (.portReset 0x80000000 {}) linked).number = 3 := by
  refine ⟨rfl, ?_⟩
  decide +kernel

theorem test_SequenceNumbers_met :
    let t := { linked with nextSequence := 255, answers := [], txQueue := [.withdraw (keyNamed 0x52) 3] }
    let f := frameOf 3 (.withdraw .common [0x52] 3)
    (after (.frameBegin 12) t).line = .contending .queue { f with sequence := 255 } ∧
    (after .contentionWon (after (.frameBegin 12) t)).nextSequence = 0 ∧
    (after .contentionWon (after (.frameBegin 12) t)).txQueue = [] := by decide +kernel

theorem test_ResetsClearEveryBlock_met :
    let moving := { linked with transfer := some { site := siteAt .a32 0 0, value := 0x11223344 } }
    linked.transfer = none ∧ linked.notices.list = [] ∧ linked.reporting = false ∧ linked.inReset = false ∧
    (after (.pinReset 5 { site := true }) moving).mem.word 0x8000 = 0x11223344 ∧
    (after (.portReset 0x80000000 {}) moving).mem = [] ∧ (0x80000000 : Word).getLsbD 31 = true := by decide +kernel

/-- A notice, then a report record, half written at a reset: the words written by then stand (R166, R175, R180). -/
theorem test_half_written_at_a_reset :
    let noticed := linked.post .busStall
    let reporting := { linked with command := some (.report 0x51 .peers 7 0x4000 3 2) }
    (after (.pinReset 5 { noticeWords := 1, reportWords := 4 }) noticed).mem = linked.mem.setWords 0x1000 [0x08000000] ∧
    (after (.pinReset 5 { noticeWords := 4, reportWords := 1 }) reporting).mem = linked.mem.setWords 0x4020 [0x02010000] ∧
    (after (.pinReset 5 {}) reporting).mem = linked.mem := by decide +kernel

/-! ## The local port -/

theorem test_RegisterWrites_met :
    State.reset.inReset = false ∧ (after .resetLow linked).inReset = true ∧
    (after (.interruptEnableWrite 1) linked).notices.interruptEnable = true ∧
    (after (.interruptEnableWrite 1) (after .resetLow linked)).notices.interruptEnable = false := by decide +kernel

theorem test_SubmissionOutcomes_met :
    let full := { linked with commandQueue := List.replicate 8 0x100 }
    let nearly := { linked with commandQueue := List.replicate 7 0x100 }
    (after (.submission 0x101) linked).lastSubmit = .refusedAddress ∧
    (after (.submission 0x10000000) linked).lastSubmit = .refusedAddress ∧
    (after (.submission 0x0FFFFFFC) full).lastSubmit = .refusedFull ∧
    (after (.submission 0x0FFFFFFC) nearly).commandQueue = List.replicate 7 0x100 ++ [0x0FFFFFFC] := by decide +kernel

theorem test_ConsumerWrite_met :
    let s := { linked with notices := { linked.notices with producer := 2, consumer := 14 } }
    (after (.nconsWrite 14) s).notices.consumer = 14 ∧ (after (.nconsWrite 2) s).notices.consumer = 2 ∧
    (after (.nconsWrite 3) s).notices.consumerRefused = true ∧ (after (.nconsWrite 13) s).notices.consumerRefused = true ∧
    (after (.nconsWrite 16) s).notices.consumerRefused = true ∧
    (after (.nconsWrite 0) State.reset).notices.consumerRefused = true := by decide +kernel

theorem test_NoticesTakenOrCounted_met :
    let n := fun producer drops : Nat => ({ linked.notices with producer, drops } : NoticeUnit)
    (n 14 0).occupancy + 1 + 1 = 16 ∧ ((n 14 0).take .busStall).list.length = 1 ∧
    (n 13 3).occupancy + 2 + 1 = 16 ∧ ((n 13 3).take .busStall).list.length = 2 ∧
    ((n 14 3).take .busStall).list.length = 1 ∧ ((n 14 3).take .busStall).drops = 1 ∧
    (n 15 65535).occupancy + 0 + 1 = 16 ∧ ((n 15 65535).take .busStall).drops = 65535 := by decide +kernel

theorem test_RegisterReads_met :
    State.reset.notices.ring = none ∧ State.reset.readWindow 0x14 .word = some 0 ∧
    linked.readWindow 0x08 .word = some 0x00000303 ∧ linked.readWindow 0x0B .byte = some 0x03 ∧
    linked.readWindow 0x02 .half = some 0x0001 ∧ (after .resetLow linked).readWindow 0 .word = none ∧
    ({ linked with notices := { linked.notices with producer := 1, interruptEnable := true } } : State).interrupt = true := by
  decide +kernel

/-! ## Commands of the command queue -/

/-- `State.Executes` by evaluation. -/
def executesCheck (s : State) (env : Env) (a : Word) : Bool :=
  decide (s.inReset = false ∧ s.command = none ∧ s.commandQueue.head? = some a ∧ .commandEngine ∈ s.granted ∧
    s.readAcks env 0 a.toNat = true)

theorem executes_of {s : State} {env : Env} {a : Word} (h : executesCheck s env a = true) : s.Executes env a := by
  simp only [executesCheck, decide_eq_true_eq] at h
  exact ⟨h.1, h.2.1, h.2.2.1, h.2.2.2.1, h.2.2.2.2⟩

/-- `State.Block` by evaluation. -/
def blockCheck (s : State) (env : Env) (a : Word) (k : CommandKind) : Bool :=
  executesCheck s env a && decide (commandOfCode (byteAt (s.blockWord env a 0) 0) = some k) &&
    (List.range k.moreWords).all fun i => s.readAcks env (i + 1) (a.toNat + 4 * (i + 1))

theorem block_of {s : State} {env : Env} {a : Word} {k : CommandKind} (h : blockCheck s env a k = true) :
    s.Block env a k := by
  simp only [blockCheck, Bool.and_eq_true, decide_eq_true_eq, List.all_eq_true, List.mem_range] at h
  refine ⟨executes_of h.1.1, h.1.2, fun i h1 h2 => ?_⟩
  have := h.2 (i - 1) (by omega)
  rwa [show i - 1 + 1 = i by omega] at this

/-- `State.ReadsOn` by evaluation. -/
def readsOnCheck (s : State) (env : Env) : Bool :=
  ((s.forReading env).headPause (s.runEnv .commandEngine env)).isNone

theorem readsOn_of {s : State} {env : Env} (h : readsOnCheck s env = true) : s.ReadsOn env := Option.isNone_iff_eq_none.mp h

/-- `State.Holds` by evaluation. -/
def holdsCheck (s : State) (env : Env) (a : Word) (k : CommandKind) : Bool :=
  blockCheck s env a k && readsOnCheck s env

theorem holds_of {s : State} {env : Env} {a : Word} {k : CommandKind} (h : holdsCheck s env a k = true) :
    s.Holds env a k := by
  simp only [holdsCheck, Bool.and_eq_true] at h
  exact ⟨block_of h.1, readsOn_of h.2⟩

/-- A command that ends: the station, the surroundings, and the status and detail it ends with. -/
structure Ends where
  s : State
  env : Env
  status : Status
  detail : Nat

/-- The command of kind `k` at 0x100 is held and ends as said. -/
def Ends.check (x : Ends) (k : CommandKind) : Bool :=
  holdsCheck x.s x.env 0x100 k &&
    decide (after (k.row x.env) x.s = x.s.ended x.env (x.s.tagAt x.env 0x100) x.status x.detail)

theorem ends_holds {l : List Ends} {k : CommandKind} (h : l.all (fun x => x.check k) = true) :
    ∀ x ∈ l, x.s.Holds x.env 0x100 k := by
  intro x hx
  have := List.all_eq_true.mp h x hx
  simp only [Ends.check, Bool.and_eq_true] at this
  exact holds_of this.1

/-- Station 3 in OFF with a CONFIGURE block at 0x100. -/
def configuring (w1 stub base size : Word) : State :=
  submitted { State.reset with number := 3 } [0x01000011, w1, stub, base, size]

def configureFaults : List Ends := [
  ⟨configuring 0x080A0300 0 0 0, {}, .badConfig, 0x04⟩, ⟨configuring 0x07000300 0 0 0, {}, .badConfig, 0x05⟩,
  ⟨configuring 0x07010000 0 0 0, {}, .badConfig, 0x06⟩, ⟨configuring 0x07010800 0 0 0, {}, .badConfig, 0x06⟩,
  ⟨configuring 0x07010100 2 0 0, {}, .badConfig, 0x08⟩, ⟨configuring 0x07010700 0 8 0, {}, .badConfig, 0x0C⟩,
  ⟨configuring 0x07010700 0 0x10000000 0, {}, .badConfig, 0x0C⟩, ⟨configuring 0x07010700 0 0 0x00110000, {}, .badConfig, 0x10⟩,
  ⟨configuring 0x07010700 0 0x0FFFFFF0 0x00100000, {}, .badConfig, 0x0C⟩]

theorem test_configure_faults : configureFaults.all (fun x => x.check .configure) = true := by decide +kernel

theorem test_ConfigureOutcomes_met :
    (∀ x ∈ configureFaults, x.s.Holds x.env 0x100 .configure ∧ x.s.station = .off) ∧
    (let s := configuring 0x07FF0700 0x30000100 0x0FFFFF00 0x00100000
     s.Holds {} 0x100 .configure ∧ (after (.configure {}) s).station = .configured) :=
  ⟨fun x hx => ⟨ends_holds test_configure_faults x hx, (by decide +kernel : ∀ x ∈ configureFaults, x.s.station = .off) x hx⟩,
    holds_of (by decide +kernel), by decide +kernel⟩

theorem test_StartAndStop_met :
    let start := submitted { active with station := .configured } [0x02000012]
    let stop := submitted active [0x03000013]
    let full := { stop with txQueue := List.replicate 32 .join }
    let nearly := { stop with txQueue := List.replicate 31 .join }
    start.Holds {} 0x100 .start ∧ (submitted linked [0x03000013]).Holds {} 0x100 .stop ∧ nearly.Holds {} 0x100 .stop ∧
    full.Holds {} 0x100 .stop ∧
    (after (.start {}) start).txQueue = [.join] ∧ (after (.stop {}) nearly).txQueue.length = 32 ∧
    (after (.stop {}) full).wanted = [.leave] :=
  ⟨holds_of (by decide +kernel), holds_of (by decide +kernel), holds_of (by decide +kernel), holds_of (by decide +kernel),
    by decide +kernel⟩

/-- Station `s` with a LOAD block at 0x100 and the words of a descriptor at `d`. -/
def loading (s : State) (d : Word) (words : List Word) : State :=
  submitted { s with mem := s.mem.setWords d.toNat words } [0x04000021, d]

def loadFaults : List Ends := [
  ⟨loading active 0x202 [], {}, .badCommand, 0⟩, ⟨loading active 0x10000000 [], {}, .badCommand, 0⟩,
  ⟨loading active 0x200 [0x07010000], { failAt := some 2 }, .readError, 0⟩,
  ⟨loading active 0x200 [0x00010000], {}, .badDescriptor, 0x00⟩, ⟨loading linked 0x200 [0x07010000], {}, .duplicateModule, 7⟩,
  ⟨loading { active with modules := List.replicate 32 module7 } 0x200 [0x08010000], {}, .noRoom, 1⟩,
  ⟨loading active 0x200 [0x08000000], {}, .badDescriptor, 0x01⟩, ⟨loading active 0x200 [0x08050000], {}, .badDescriptor, 0x01⟩,
  ⟨loading active 0x200 [0x08010081], {}, .badDescriptor, 0x02⟩,
  ⟨loading { active with directory := List.replicate 385 (entryOf 0 0x50 1 .pending) } 0x200 [0x08010080], {}, .noRoom, 2⟩,
  ⟨loading active 0x0FFFFFFC [0x08040080], {}, .badDescriptor, 0x04⟩,
  ⟨loading active 0x200 [0x08040000], { failAt := some 3 }, .readError, 4⟩,
  ⟨loading active 0x200 [0x08010000, 0x01010000], {}, .badDescriptor, 0x04⟩,
  ⟨loading { active with refs := List.replicate 769 (refOf 0 0x78 .waiting .stub) } 0x200 [0x08010000, 0x01000000], {},
    .noRoom, 3⟩,
  ⟨loading active 0x200 [0x08010000, 0x00004001], {}, .badDescriptor, 0x06⟩,
  ⟨loading active 0x200 [0x08010000, 0x00004000], {}, .noRoom, 4⟩,
  ⟨loading active 0x200 [0x08010000, 0, 0x8000, 0], {}, .badDescriptor, 0x08⟩]

theorem test_load_faults : loadFaults.all (fun x => x.check .load) = true := by decide +kernel

theorem test_LoadFirstPass_met :
    (∀ x ∈ loadFaults, x.s.Holds x.env 0x100 .load ∧ x.s.station = .active) ∧
    (let s := loading active 0x200 [0x08010000, 0, 0x8000, 0x100]
     s.Holds {} 0x100 .load ∧ (after (.load {}) s).command = some (.loadCommit 0x21 8 0 0 16 0)) :=
  ⟨fun x hx => ⟨ends_holds test_load_faults x hx, (by decide +kernel : ∀ x ∈ loadFaults, x.s.station = .active) x hx⟩,
    holds_of (by decide +kernel), by decide +kernel⟩

/-- A descriptor of module 8: one segment, export 'e' at 0x10, import 'i' at 0x34 with its site record at 0x54. -/
def goodDescriptor : List Word :=
  [0x08010001, 0x00010001, 0x8000, 0x100] ++ [0x01650000, 0, 0, 0, 0, 0, 0, 0x01010000, 4] ++
    [0x01690000, 0, 0, 0, 0, 0, 0, 0x01030100] ++ [0x01000000, 8, 0, 0]

/-- A LOAD of that descriptor with word `i` changed. -/
def faulty (i : Nat) (w : Word) : State := loading active 0x200 (goodDescriptor.set i w)

def segmentAndExportFaults : List Ends := [
  ⟨faulty 3 0, {}, .badDescriptor, 0x08⟩, ⟨faulty 3 0x01000001, {}, .badDescriptor, 0x08⟩,
  ⟨faulty 2 0x0FFFFF01, {}, .badDescriptor, 0x08⟩, ⟨faulty 4 0x00650000, {}, .badDescriptor, 0x10⟩,
  ⟨faulty 4 0x19656565, {}, .badDescriptor, 0x10⟩, ⟨faulty 4 0x01200000, {}, .badDescriptor, 0x11⟩,
  ⟨faulty 4 0x03212120, {}, .badDescriptor, 0x13⟩, ⟨faulty 4 0x0421217E, {}, .badDescriptor, 0x14⟩,
  ⟨faulty 11 0x03010000, {}, .badDescriptor, 0x2C⟩, ⟨faulty 11 0x01030000, {}, .badDescriptor, 0x2D⟩,
  ⟨faulty 11 0x02020100, {}, .badDescriptor, 0x2E⟩, ⟨faulty 12 0x100, {}, .badDescriptor, 0x30⟩,
  ⟨loading { active with directory := [entryOf 0 0x65 1 .withdrawing] } 0x200 goodDescriptor, {}, .duplicateExport, 0x10⟩,
  ⟨loading active 0x200 ([0x08010002] ++ (goodDescriptor.take 13).tail ++ (goodDescriptor.take 13).drop 4), {}, .duplicateExport, 0x34⟩]

def importFaults : List Ends := [
  ⟨faulty 13 0x017F0000, {}, .badDescriptor, 0x35⟩, ⟨faulty 20 0x00030100, {}, .badDescriptor, 0x50⟩,
  ⟨faulty 20 0x01040100, {}, .badDescriptor, 0x51⟩, ⟨faulty 20 0x01030000, {}, .badDescriptor, 0x52⟩,
  ⟨faulty 20 0x01034100, {}, .badDescriptor, 0x52⟩, ⟨faulty 21 0x06000000, {}, .badDescriptor, 0x54⟩,
  ⟨faulty 21 0x01010000, {}, .badDescriptor, 0x55⟩, ⟨faulty 22 0xFD, {}, .badDescriptor, 0x58⟩,
  ⟨faulty 22 0x0A, {}, .badDescriptor, 0x58⟩, ⟨faulty 1 0x00010002, {}, .badDescriptor, 0x06⟩,
  ⟨faulty 0 0x08010001, { failAt := some 14 }, .readError, 0x30⟩, ⟨faulty 0 0x08010001, { failAt := some 26 }, .readError, 0x60⟩,
  ⟨loading active 0x0FFFFFC0 (goodDescriptor.take 16), {}, .badDescriptor, 0x34⟩]

/-- The pass ends with the first check that fails, each at its offset (R19 to R24). -/
def Ends.isFirstFault (x : Ends) : Bool :=
  decide (firstFault (x.s.firstPassChecks (x.s.descriptorReading x.env (x.s.blockWord x.env 0x100 1))) =
    some { status := x.status, detail := x.detail })

theorem test_segment_and_export_faults : segmentAndExportFaults.all (fun x => x.check .load && x.isFirstFault) = true := by
  decide +kernel

theorem test_import_faults : importFaults.all (fun x => x.check .load && x.isFirstFault) = true := by decide +kernel

/-- No check of a good descriptor fails, and it passes. -/
theorem test_good_descriptor :
    let s := loading active 0x200 goodDescriptor
    s.Holds {} 0x100 .load ∧ firstFault (s.firstPassChecks (s.descriptorReading {} 0x200)) = none ∧
    (after (.load {}) s).command = some (.loadCommit 0x21 8 0 0 16 0) :=
  ⟨holds_of (by decide +kernel), by decide +kernel⟩

/-- A LOAD left after the first word of its block, then after one word of its descriptor, then after two. -/
def loadLeft (n : Nat) : State :=
  let s := loading active 0x200 [0x08010000, 0, 0x8000, 0x100]
  let first := after (.load { upTo := some 1 }) s
  if n = 1 then first else after (.load { upTo := some (n - 1) }) first

/-- The words read stay, whatever is stored after they were read, and the rest of the first pass goes on from them. -/
theorem test_load_left_between_words :
    (loadLeft 1).runs.fetched = [0x04000021, 0x200].take 1 ∧ (loadLeft 2).runs.fetched = [0x04000021, 0x200] ∧
    (loadLeft 3).runs.fetched = [0x04000021, 0x200, 0x08010000] ∧ (loadLeft 3).command = none ∧
    (after (.load { stores := [(0x200, 9)] }) (loadLeft 3)).command = some (.loadCommit 0x21 8 0 0 16 0) ∧
    (after (.load { stores := [(0x200, 9)] }) (loadLeft 3)).runs = State.reset.runs ∧
    (after (.load { failAt := some 0 }) (loadLeft 3)).notices.list.map (·.notice) = [.commandDone 0x21 .readError 4] ∧
    (after (.load { stores := [(0x200, 9)] }) (loadLeft 2)).command = some (.loadCommit 0x21 9 0 0 16 0) := by
  decide +kernel

/-- The LOADING record joins the table with the word that holds the id, holds what has been read, and goes with a LOAD that
fails or is cut off; a pass taken up again does not meet it, and another module's record stays before it (R13, R17 to R19). -/
theorem test_loading_record_of_a_first_pass :
    let record (count : Nat) (segments : List Segment) : ModuleRecord :=
      { id := 8, descriptor := 0x200, segmentCount := count, segments, exportCount := 0, importCount := 0, siteCount := 0
        state := .loading }
    let two := after (.load { upTo := some 3 }) (loading linked 0x200 [0x08010002, 0, 0x8000, 0x100])
    (loadLeft 2).modules = [] ∧ (loadLeft 3).modules = [record 1 []] ∧ (loadLeft 4).modules = [record 1 []] ∧
    (after (.load { upTo := some 1 }) (loadLeft 3)).modules = [record 1 []] ∧
    (after (.load {}) (loadLeft 3)).modules = [record 1 [{ base := 0x8000, length := 0x100 }]] ∧
    (after (.load { stores := [(0x20B, 1)] }) (loadLeft 3)).modules.length = 1 ∧
    (after (.load { failAt := some 0 }) (loadLeft 3)).modules = [] ∧
    (after (.memoryAckTimeout .commandEngine { failAt := some 0 }) (loadLeft 3)).modules = [] ∧
    (after (.frameArrival seekOnTheLine.bits false) (loadLeft 3)).modules = [] ∧
    two.modules = [module7, { record 1 [] with exportCount := 2 }] ∧
    (after (.load { upTo := some 3 }) two).modules =
      [module7, { record 1 [{ base := 0x8000, length := 0x100 }] with exportCount := 2 }] := by decide +kernel

/-- What the clauses on a step that leaves the block, or the first pass, ask of the state. -/
theorem test_a_step_that_leaves_the_reading_met :
    let env : Env := { upTo := some 1 }
    (loading active 0x200 [0x08010000]).Executes env 0x100 ∧ (loadLeft 2).leavesAfter .commandEngine env 1 ∧
    (loadLeft 2).Block env 0x100 .load ∧ (loadLeft 2).station = .active ∧ 2 ≤ (loadLeft 2).runs.fetched.length + 1 ∧
    (((loadLeft 2).forReading env).loadFirstPass { env with failAt := some 1 } [0x200] matches
      .error { status := .readError, detail := _ }) ∧
    (loadLeft 1).runs.fetched.length + 1 - 2 = 0 ∧ ((loadLeft 1).forReading env).loadFirstPass { env with failAt := some 1 } [0x200] =
      .error { status := .readError, detail := 0 } ∧
    ((loadLeft 2).forReading { upTo := some 4 }).headPause { upTo := some 4 } = none :=
  ⟨executes_of (by decide +kernel), ⟨rfl, by simp⟩, block_of (by decide +kernel), by decide +kernel, by decide +kernel,
    by decide +kernel, by decide +kernel, by decide +kernel, by decide +kernel⟩

/-- The example of chapter 10: the fourth byte of export 1's name is reported at 0x40. -/
theorem test_locating_a_fault :
    let words := [0x07020003, 0x00000000, 0x8000, 0x100, 0x9000, 0x100] ++
      [0x01410000, 0, 0, 0, 0, 0, 0, 0x01010000, 0] ++ [0x04414243, 0x20000000]
    (after (.load {}) (loading active 0x200 words)).notices.list =
      [{ slot := 0, notice := .commandDone 0x21 .badDescriptor 0x40 }] := by decide +kernel

theorem test_UnloadOutcomes_met :
    let known := submitted linked [0x05000031, 7]
    let unknown := submitted linked [0x05000031, 9]
    known.Holds {} 0x100 .unload ∧ unknown.Holds {} 0x100 .unload ∧
    (after (.unload {}) known).command = some (.unload 0x31 7) ∧
    (after (.unload {}) known).txQueue.length = 3 ∧
    (after (.unload {}) unknown).notices.list = [{ slot := 0, notice := .commandDone 0x31 .unknownModule 9 }] :=
  ⟨holds_of (by decide +kernel), holds_of (by decide +kernel), by decide +kernel⟩

/-- The removal of module 7 frees slot 0, which it alone used; a slot that module 8's reference shares stays; the transfer of
the walk it stops goes on only where it had begun (R34, R125). -/
theorem test_removal_frees_slots_and_stops_walks :
    let s := submitted linked [0x05000031, 7]
    let shared := { s with refs := s.refs ++ [{ refOf 0 0x78 (.seeking 0) .stub with owner := { module := 8, index := 0 } }] }
    let walked := { s with
      walk := some { ref := { module := 7, index := 1 }, value := .binding bindingOf2, pass := .write, next := 1, computed := [0] }
      transfer := some { site := siteAt .a32 0 0, value := 0 } }
    let read := after (.unload {}) walked
    (after (.unload {}) s).slots = List.replicate 16 none ∧ (after (.unload {}) shared).slots = shared.slots ∧
    read.walk = walked.walk ∧ (after (.unload {}) read).walk = none ∧ (after (.unload {}) read).transfer = none ∧
    (after (.unload { siteBegun := true }) read).transfer = walked.transfer ∧
    (after (.unload {}) s).notices = s.notices := by decide +kernel

/-- The blocks of a RESEEK, and the law of the slots in its station. -/
theorem SeekLaw_submitted {s : State} (h : s.SeekLaw) (words : List Word) : (submitted s words).SeekLaw :=
  ⟨⟨h.owners.exportOwners, h.owners.refOwners, h.owners.exportModules, h.owners.refModules, h.owners.commit⟩, h.keys, h.used,
    h.seeking, h.once, h.queued, h.served⟩

theorem test_ReseekOutcomes_met :
    let all := submitted linked [0x06000041, 0]
    let unknown := submitted linked [0x06000041, 9]
    all.Holds {} 0x100 .reseek ∧ unknown.Holds {} 0x100 .reseek ∧ all.SeekLaw ∧
    (after (.reseek {}) all).refs.map (fun r => r.phase.code) = [2, 5, 2] :=
  ⟨holds_of (by decide +kernel), holds_of (by decide +kernel), SeekLaw_submitted linked_seekLaw _, by decide +kernel⟩

/-- Eight references of module 7 that RESEEK sends to seek entry, and one bound sibling of 'b', with one slot free: 'L' binds
the LIVE own export, 'b' its sibling's export, 's' joins the slot of its key, 'f' takes the free slot for both its
references, and 'g' finds none. -/
def reseeking : State :=
  { linked with
    directory := [entryOf 0 0x4C 5 (.live [])]
    refs := [refOf 0 0x4C .waiting .stub, refOf 1 0x62 (.faulted .kind) .stub, refOf 2 0x62 (.bound bindingOf2) (.binding bindingOf2),
      refOf 3 0x73 (.seeking 0) .stub, refOf 4 0x73 .waiting .stub, refOf 5 0x66 .waiting .stub, refOf 6 0x67 .waiting .stub,
      refOf 7 0x66 (.faulted .bus) .unknown, { refOf 8 0x4C .waiting .stub with expected := .data },
      refOf 9 0x67 .waiting .stub] ++ (List.range 14).map fun i => refOf (10 + i) (BitVec.ofNat 8 (0x30 + i)) (.seeking (1 + i)) .stub
    slots := some (slotFor 0x73 .out 1) :: ((List.range 14).map fun i => some (slotFor (BitVec.ofNat 8 (0x30 + i)) .out 1)) ++
      [none] }

theorem test_reseek_takes_each_step_of_seek_entry :
    let t := after (.reseek {}) (submitted reseeking [0x06000041, 7])
    ((t.refs.map (·.phase)).take 10) = [
      .patching { definer := 3, generation := 5, target := 0x30001000, kind := .entry }, .patching bindingOf2, .bound bindingOf2,
      .seeking 0, .seeking 0, .seeking 15, .queued, .seeking 15, .faulted .kind, .queued] ∧
    t.backlog = [{ module := 7, index := 6 }, { module := 7, index := 9 }] ∧
    t.slots[15]? = some (some (slotFor 0x66 .toSend 1)) ∧
    t.notices.list.map (·.notice) =
      [.referenceFaulted { module := 7, index := 8 } .kind 0, .moduleState 7 .faulted, .commandDone 0x41 .ok 8] := by
  decide +kernel

/-- Module 7's station with a REPORT block. -/
def reporting (w1 buffer : Word) : State := submitted linked [0x07000051, w1, buffer]

def reportEnds : List Ends := [
  ⟨reporting 0x00000001 0x4000, {}, .badCommand, 0⟩, ⟨reporting 0x06000001 0x4000, {}, .badCommand, 0⟩,
  ⟨reporting 0x01000001 0x4008, {}, .badCommand, 0⟩, ⟨reporting 0x01000001 0x10000000, {}, .badCommand, 0⟩,
  ⟨reporting 0x01000000 0x4000, {}, .badCommand, 0⟩, ⟨reporting 0x01000101 0x4000, {}, .badCommand, 0⟩,
  ⟨reporting 0x01000001 0x0FFFFFE0, {}, .badCommand, 0⟩, ⟨reporting 0x04090001 0x4000, {}, .unknownModule, 9⟩,
  ⟨{ reporting 0x04070001 0x4000 with directory := [] }, {}, .ok, 0⟩]

theorem test_report_ends : reportEnds.all (fun x => x.check .report) = true := by decide +kernel

theorem test_ReportOutcomes_met :
    (∀ x ∈ reportEnds, x.s.Holds x.env 0x100 .report) ∧
    (let s := reporting 0x01000001 0x0FFFFFD0
     s.Holds {} 0x100 .report ∧ (after (.report {}) s).command = some (.report 0x51 .station 0 0x0FFFFFD0 1 0)) :=
  ⟨ends_holds test_report_ends, holds_of (by decide +kernel), by decide +kernel⟩

theorem test_BlocksThatEndACommand_met :
    let unknown := submitted linked [0x08000061]
    let off := submitted linked [0x01000061]
    let last := { linked with mem := linked.mem.setWords 0x0FFFFFFC [0x04000061], commandQueue := [0x0FFFFFFC], granted := [.commandEngine] }
    let load := submitted linked [0x04000061]
    unknown.Executes {} 0x100 ∧ commandOfCode (byteAt (unknown.blockWord {} 0x100 0) 0) = none ∧
    off.Holds {} 0x100 .configure ∧ last.Executes {} 0x0FFFFFFC ∧
    load.Executes { failAt := some 1 } 0x100 ∧
    (after (.load {}) last).notices.list = [{ slot := 0, notice := .commandDone 0x61 .badCommand 0 }] ∧
    (after (.load { failAt := some 1 }) load).notices.list = [{ slot := 0, notice := .commandDone 0x61 .readError 4 }] ∧
    (after (.start { failAt := some 0 }) load).notices.list = [{ slot := 0, notice := .commandDone 0 .readError 0 }] :=
  ⟨executes_of (by decide +kernel), by decide +kernel, holds_of (by decide +kernel), executes_of (by decide +kernel),
    executes_of (by decide +kernel), by decide +kernel⟩

/-! ## The later steps of LOAD and REPORT -/

/-- Module 8 in its commit pass, its next record of kind export or import at offset 16: one export 'e' and one import 'i'
with one A32 site. -/
def committing (s : State) (nextExport : Nat) (record : List Word) : State :=
  { s with
    mem := s.mem.setWords 0x210 record
    modules := [{ id := 8, descriptor := 0x200, segmentCount := 1, segments := [{ base := 0x8000, length := 0x100 }], exportCount := 1,
                  importCount := 1, siteCount := 1, state := .loading }]
    directory := s.directory, granted := [.commandEngine], command := some (.loadCommit 0x21 8 nextExport 0 16 0) }

/-- An export record of name 'b': COMMON, ENTRY, segment 0, offset 4. -/
def exportWords (b : Byte) : List Word := [wordOf 1 b 0 0, 0, 0, 0, 0, 0, 0, 0x01010000, 4]

/-- An import record of name 'b': COMMON, ANY, one A32 site at offset 8. -/
def importWords (b : Byte) : List Word := [wordOf 1 b 0 0, 0, 0, 0, 0, 0, 0, 0x01030100, 0x01000000, 8, 0, 0]

/-- `State.ReadsRecord` by evaluation. -/
theorem readsRecord_of {s : State} {env : Env} (h1 : s.inReset = false) (h2 : .commandEngine ∈ s.granted)
    (h3 : decide ((s.forTransfers env).commitPause (s.runEnv .commandEngine env) = none) = true) : s.ReadsRecord env :=
  ⟨h1, h2, of_decide_eq_true h3⟩

theorem test_CommitExport_met :
    let s := committing active 0 (exportWords 0x65)
    let full := { s with txQueue := List.replicate 32 .join }
    s.NoneWaiting ∧ s.ReadsRecord {} ∧ ((s.forTransfers {}).readCommit {} matches some (.ok (.exported _))) ∧
    (after (.loadCommitExport {}) s).txQueue = [.announce (keyNamed 0x65) 1 0x30008004 .entry] ∧
    (after (.loadCommitExport {}) full).wanted = [.announce (keyNamed 0x65) 1 0x30008004 .entry] ∧
    (after (.loadCommitExport {}) { s with nextGeneration := 65535 }).nextGeneration = 1 :=
  ⟨⟨rfl, by simp [committing, active, State.reset]⟩, readsRecord_of rfl (by decide) (by decide +kernel), by decide +kernel⟩

theorem test_CommitImport_met :
    let s := committing active 1 (importWords 0x69)
    let phase := fun s : State => (after (.loadCommitImport {}) s).refs.getLast?.map (·.phase)
    s.ReadsRecord {} ∧ ((s.forTransfers {}).readCommit {} matches some (.ok (.imported _))) ∧
    phase { s with directory := [entryOf 0 0x69 5 (.live [])] } =
      some (.patching { definer := 3, generation := 5, target := 0x30001000, kind := .entry }) ∧
    phase { s with refs := [refOf 0 0x69 (.bound bindingOf2) (.binding bindingOf2)] } = some (.patching bindingOf2) ∧
    phase { s with slots := s.slots.set 5 (some (slotFor 0x69 .out 1)) } = some (.seeking 5) ∧
    phase s = some (.seeking 0) ∧
    phase { s with slots := List.replicate 16 (some (slotFor 0x6A .out 1)) } = some .queued :=
  ⟨readsRecord_of rfl (by decide) (by decide +kernel), by decide +kernel⟩

/-- `State.LeavesRecord` by evaluation. -/
theorem leavesRecord_of {s : State} {env : Env} {p : Nat} (h1 : s.inReset = false) (h2 : .commandEngine ∈ s.granted)
    (h3 : (s.runEnv .commandEngine env).upTo = some p) (h4 : env.failAt = none)
    (h5 : ((s.forTransfers env).readCommit { env with failAt := some p } matches
      some (.error { status := .readError, detail := _ })) = true) : s.LeavesRecord env p := by
  refine ⟨h1, h2, ⟨h3, by simp [h4]⟩, ?_⟩
  split at h5
  · exact ⟨_, by assumption, rfl⟩
  · cases h5

/-- A record of the commit pass left between two words: the words read stay, whatever is stored afterwards. -/
theorem test_commit_left_between_words :
    let e := committing active 0 (exportWords 0x65)
    let i := committing active 1 (importWords 0x69)
    let left := after (.loadCommitExport { upTo := some 3 }) e
    e.LeavesRecord { upTo := some 3 } 3 ∧ i.LeavesRecord { upTo := some 9 } 9 ∧
    left.runs.fetched = (exportWords 0x65).take 3 ∧ left.command = e.command ∧
    (after (.loadCommitExport { stores := [(0x211, 0x66)] }) left).directory.map (·.key) = [keyNamed 0x65] ∧
    (after (.loadCommitExport { failAt := some 0 }) left).notices.list.map (·.notice) = [.commandDone 0x21 .readError 28] ∧
    (after (.loadCommitImport { upTo := some 9 }) i).runs.fetched = (importWords 0x69).take 9 ∧
    (after (.loadCommitImport {}) (after (.loadCommitImport { upTo := some 9 }) i)).refs.map (·.key) = [keyNamed 0x69] ∧
    (after (.loadCommitImport {}) (after (.loadCommitImport { upTo := some 9 }) i)).runs = State.reset.runs :=
  ⟨leavesRecord_of (by decide +kernel) (by decide +kernel) rfl rfl (by decide +kernel),
    leavesRecord_of (by decide +kernel) (by decide +kernel) rfl rfl (by decide +kernel), by decide +kernel⟩

theorem test_CommitEnd_met :
    let s := { linked with command := some (.loadCommit 0x21 7 4 3 0 3) }
    s.module? 7 = some module7 ∧ s.wanted = [] ∧
    (after .loadCommitEnd s).notices.list.map (·.notice) = [.moduleState 7 .linking, .commandDone 0x21 .ok 7] := by
  decide +kernel

theorem test_CommitFault_met :
    let bad := committing active 0 (exportWords 0x20)
    let entered := { bad with directory := [{ entryOf 0 0x50 1 (.live []) with owner := { module := 8, index := 0 } }] }
    bad.ReadsRecord {} ∧ ((bad.forTransfers {}).readCommit {} matches some (.error _)) ∧
    (((committing active 1 (importWords 0x20)).forTransfers {}).readCommit {} matches some (.error _)) ∧
    (after (.loadCommitFault {}) bad).notices.list = [{ slot := 0, notice := .commandDone 0x21 .badDescriptor 0x11 }] ∧
    (after (.loadCommitFault {}) entered).command =
      some (.loadTakeOut 0x21 8 { status := .badDescriptor, detail := 0x11 }) :=
  ⟨readsRecord_of rfl (by decide) (by decide +kernel), by decide +kernel⟩

theorem test_DescriptorRecords_met :
    let r : Reading :=
      { mem := (exportWords 0x65 ++ importWords 0x69 |> Memory.setWords [] 0x200), env := {}, base := 0x200, firstWord := 0,
        firstTransfer := 0 }
    let g : Segment := { base := 0x8000, length := 0x100 }
    ({ r with mem := Memory.setWords [] 0x200 [0x8000, 0x100] } : Reading).segment 0 = .ok g ∧
    r.exportRecord [g] 0 = .ok { scope := .common, name := [0x65], kind := .entry, segment := g, offset := 4 } ∧
    r.site [g] 68 = .ok (siteAt .a32 8 0) ∧
    r.importRecord [g] 36 = .ok { scope := .common, name := [0x69], expected := .any, sites := [siteAt .a32 8 0] } := by
  decide +kernel

/-- The three fields of FLD, each record's first fault at its field, and those of the commit pass's next record. -/
theorem test_record_faults :
    let g : Segment := { base := 0x8000, length := 0x100 }
    let fld := fun w : Word =>
      ({ mem := Memory.setWords [] 0x200 [0x05000000, 8, w, 0], env := {}, base := 0x200, firstWord := 0, firstTransfer := 0 } :
        Reading)
    let fault := fun (offset : Nat) => some ({ status := .badDescriptor, detail := offset } : Ending)
    let again := { committing active 0 (exportWords 0x65) with directory := [entryOf 0 0x65 1 (.live [])] }
    let summed := { committing active 1 (importWords 0x69) with command := some (.loadCommit 0x21 8 1 0 16 1) }
    let next := fun s : State => s.recordReading {} (s.modules.headD module7) 16
    ([0x20010000, 0x1F000000, 0x1F020000, 0x00011000, 0x1F010F00] : List Word).map
        (fun w => firstFault ((fld w).siteChecks [g] 0)) = [fault 8, fault 9, fault 9, fault 10, none] ∧
    ([0x20010000, 0x1F000000, 0x1F020000, 0x00011000] : List Word).map (fun w => ((fld w).site [g] 0).toOption) =
      [none, none, none, none] ∧
    firstFault ((fld 0).segmentChecks 8) = fault 8 ∧ firstFault ((fld 0).exportChecks [g] 0) = fault 1 ∧
    firstFault ((fld 0).importChecks [g] 0) = fault 1 ∧
    firstFault ((next again).exportChecks [g] 16 ++ [again.keyCheck (next again) [] 16]) =
      some { status := .duplicateExport, detail := 16 } ∧
    ((again.forTransfers {}).readCommit {} =
      some (.error { status := .duplicateExport, detail := 16 })) ∧
    ((summed.forTransfers {}).readCommit {} = some (.error { status := .badDescriptor, detail := 16 + 0x1E })) := by
  decide +kernel

theorem test_ReportRecordWrite_met :
    let at' := fun (sel : Selector) (capacity n : Nat) =>
      { linked with command := some (.report 0x51 sel 7 0x4000 capacity n) }
    let last := fun s : State => (after (.reportRecordWrite {}) s).notices.list.map (·.notice)
    ((at' .station 1 0).reportRecord .station 7 0).isSome = true ∧ last (at' .station 1 0) = [.commandDone 0x51 .ok 1] ∧
    last (at' .peers 2 1) = [.commandDone 0x51 .ok 0x80000002] ∧
    (after (.reportRecordWrite {}) (at' .peers 3 1)).command = some (.report 0x51 .peers 7 0x4000 3 2) ∧
    (after (.reportRecordWrite {}) (at' .peers 3 2)).mem.word 0x4020 = 0x02010000 ∧
    (after (.reportRecordWrite { failAt := some 3 }) (at' .peers 3 1)).notices.list.map (·.notice) =
      [.commandDone 0x51 .writeError 28] ∧
    (at' .modules 3 1).reportRecord .modules 7 1 = none ∧ (at' .modules 3 1).asks .commandEngine = false ∧
    last (at' .modules 3 1) = [.commandDone 0x51 .ok 1] := by decide +kernel

/-- A report record left between two words: its content is that of the moment it was taken, here before station 2 departs,
though its words are written after (R173). -/
theorem test_report_record_left_between_words :
    let s := { linked with command := some (.report 0x51 .peers 7 0x4000 3 2), rxQueue := [.lapse 2] }
    let taken := after .lapse (after (.reportRecordWrite { upTo := some 0 }) s)
    let part := after .lapse (after (.reportRecordWrite { upTo := some 1 }) s)
    let next := after (.reportRecordWrite {})
    taken.runs.record = some { words := [0x02010000, 0, 0, 0], written := 0 } ∧ taken.granted = [.commandEngine] ∧
    taken.isPresent 2 = false ∧ (after (.reportRecordWrite {}) taken).mem.word 0x4020 = 0x02010000 ∧
    part.runs.record = some { words := [0x02010000, 0, 0, 0], written := 1 } ∧
    (next (next (next part))).notices.list.map (·.notice) =
      [.peerGone 2 .lapse, .referenceRevoked { module := 7, index := 1 } .peerGone, .commandDone 0x51 .ok 0x80000003] ∧
    (after (.reportRecordWrite { failAt := some 0 }) part).notices.list.map (·.notice) =
      [.peerGone 2 .lapse, .referenceRevoked { module := 7, index := 1 } .peerGone, .commandDone 0x51 .writeError 36] ∧
    (after (.portReset 0x80000000 { reportWords := 16 }) part).mem.word 0x4020 = 0x02010000 := by decide +kernel

/-! ## The line -/

theorem test_FrameBegin_met :
    let begun := fun s : State => (after (.frameBegin 12) s).line
    let idle := { linked with answers := [] }
    begun linked = .contending (.answer { module := 7, index := 0 })
      { frameOf 3 (.clash .common [0x50] 3 1 0x30001000 .entry [{ station := 4, generation := 1 }]) with sequence := 0 } ∧
    begun { linked with directory := [entryOf 0 0x50 1 (.live [])] } = .contending (.answer { module := 7, index := 0 })
      { frameOf 3 (.offer .common [0x50] 1 0x30001000 .entry) with sequence := 0 } ∧
    begun idle = .quiet ∧ (linked.directory.map (·.owner)).Nodup ∧
    begun { idle with txQueue := [.announce (keyNamed 0x51) 2 0x30001000 .entry] } =
      .contending .queue { frameOf 3 (.announce .common [0x51] 2 0x30001000 .entry) with sequence := 0 } ∧
    (after (.frameBegin 12) { idle with txQueue := [.announce (keyNamed 0x50) 1 0x30001000 .entry] }).txQueue = [] ∧
    after (.frameBegin 11) linked = linked ∧ after (.frameBegin 47) { linked with busSeen := false } =
      { linked with busSeen := false } := by decide +kernel

/-- A head that fails its check is dropped while others wait: the slot gets the place first, then the Command Engine. -/
theorem test_dropped_head_grants_its_place :
    let x := { slotFor 0x78 .toSend 1 with awaitingRoom := true }
    let dead : TxEntry := .announce (keyNamed 0x50) 1 0x30001000 .entry
    let s := { linked with answers := [], txQueue := dead :: List.replicate 31 .leave, wanted := [.join] }
    let t := { s with slots := linked.slots.set 0 (some x) }
    t.FirstWaiting 0 x ∧ s.RoomGranted ∧ t.RoomGranted ∧
    (after (.frameBegin 12) t).txQueue = List.replicate 31 .leave ++ [.seek 0 (keyNamed 0x78)] ∧
    (after (.frameBegin 12) t).wanted = [.join] ∧
    (after (.frameBegin 12) s).txQueue = List.replicate 31 .leave ++ [.join] ∧ (after (.frameBegin 12) s).wanted = [] := by
  refine ⟨⟨by decide, by decide, by decide, fun j hj => absurd hj (Nat.not_lt_zero j)⟩, Or.inr (by decide),
    Or.inr (by decide), by decide +kernel⟩

theorem test_SendingStopsAndRepeats_met :
    let s := { linked with line := .contending .queue seekOnTheLine }
    let o : Outgoing := { frame := seekOnTheLine, holds := 1, stalled := false }
    (after (.contentionLost 5) s).line = .quiet ∧ (after (.contentionLost 3) s).line = .contending .queue seekOnTheLine ∧
    (after (.senderBitMismatch 9) { linked with line := .sending, outgoing := some o }).outgoing = none ∧
    (after (.senderBitMismatch 6) { linked with line := .sending, outgoing := some o }).outgoing = some o ∧
    (after (.repeatFrame 12) { linked with outgoing := some o }).line = .sending := by decide +kernel

theorem test_ContentionWon_met :
    let x := slotFor 0x78 .toSend 1
    let s := { linked with
      line := .contending .queue seekOnTheLine, txQueue := List.replicate 32 .leave, wanted := [.join]
      slots := linked.slots.set 0 (some { x with awaitingRoom := true }) }
    s.FirstWaiting 0 { x with awaitingRoom := true } ∧ linked.NoneWaiting ∧
    (after .contentionWon s).txQueue = List.replicate 31 .leave ++ [.seek 0 (keyNamed 0x78)] ∧
    (after .contentionWon { s with slots := linked.slots }).txQueue = List.replicate 31 .leave ++ [.join] ∧
    (after .contentionWon { linked with line := .contending (.answer { module := 7, index := 0 }) seekOnTheLine }).answers = [] := by
  refine ⟨⟨rfl, rfl, rfl, fun j h => absurd h (Nat.not_lt_zero j)⟩, ⟨rfl, ?_⟩, by decide +kernel⟩
  intro y hy
  simp [linked] at hy
  subst hy
  decide

/-- The frame of another station. -/
def offerOf2 : Frame := frameOf 2 (.offer .common [0x78] 7 0x20100040 .entry)

theorem test_ArrivalTests_met :
    let arrived := fun (s : State) (bits : List Bool) => match (after (.frameArrival bits false) s).line with
      | .window w => some w.arrival
      | _ => none
    let held := fun took : Bool => some ({ sender := 2, sequence := some 9, took } : HeldRecord)
    linked.listens = true ∧ readFrame offerOf2.bits = some offerOf2 ∧
    arrived linked offerOf2.bits = some .taken ∧ arrived linked (offerOf2.bits.set 6 true) = some .heldBad ∧
    arrived { linked with held := held true } offerOf2.bits = some .discarded ∧
    arrived { linked with held := held false } offerOf2.bits = some .taken ∧
    arrived { linked with rxQueue := [.lapse 2] } offerOf2.bits = some .heldFull ∧
    arrived { linked with rxQueue := List.replicate 32 (.frame offerOf2) } offerOf2.bits = some .heldFull ∧
    arrived { linked with rxQueue := List.replicate 31 (.frame offerOf2) } offerOf2.bits = some .taken ∧
    (after (.frameCutOff (offerOf2.bits.take 6) 2) linked).line =
      .window { sender := 2, sequence := none, arrival := .heldBad, own := false } ∧
    after (.frameCutOff (offerOf2.bits.take 5) 2) linked = linked := by decide +kernel

theorem test_DuplicateNumberIsolates_met :
    let own := { offerOf2 with sender := 3 }
    let s := { linked with held := some { sender := 3, sequence := none, took := false } }
    readFrame own.bits = some own ∧ (after (.frameArrival own.bits false) linked).station = .isolated ∧
    (after (.reservationLapse 48 false) s).station = .isolated ∧
    (after (.reservationLapse 47 false) s).station = .active := by decide +kernel

/-- A station that has seen nothing of the bus since its START: the lapse of a reservation of its own number shows it that none
runs, a frame of that number does not (R132, R148; log 31). -/
theorem test_isolation_and_what_the_bus_has_shown :
    let unseen := { linked with busSeen := false }
    let lapsed := after (.reservationLapse 48 false) { unseen with held := some { sender := 3, sequence := none, took := false } }
    let cut := after (.frameArrival seekOnTheLine.bits false) unseen
    (lapsed.station = .isolated ∧ lapsed.busSeen = true ∧ lapsed.held = none) ∧
    cut.station = .isolated ∧ cut.busSeen = false := by decide +kernel

theorem test_HoldWindowEnd_met :
    let window := fun (arrival : Arrival) (own : Bool) (s : State) =>
      { s with line := .window { sender := 2, sequence := some 9, arrival, own } }
    let sender := fun holds : Nat =>
      { linked with outgoing := some { frame := seekOnTheLine, holds, stalled := false } }
    let leaving := { sender 0 with station := .configured, command := some (.stop 5) }
    (after (.holdWindowEnd false) (window .taken false linked)).held = none ∧
    (after (.holdWindowEnd false) (window .taken true (sender 0))).outgoing = none ∧
    (after (.holdWindowEnd false) (window .taken true leaving)).command = none ∧
    (after (.holdWindowEnd true) (window .taken false linked)).held = some { sender := 2, sequence := some 9, took := true } ∧
    (after (.holdWindowEnd false) (window .heldBad false { linked with held := some { sender := 2, sequence := some 9, took := true } })).held =
      some { sender := 2, sequence := some 9, took := true } ∧
    (after (.holdWindowEnd true) (window .taken true (sender 14))).notices.list = [] ∧
    (after (.holdWindowEnd true) (window .taken true (sender 15))).notices.list = [{ slot := 0, notice := .busStall }] := by
  decide +kernel

theorem test_ReservationLapse_met :
    let held := { linked with held := some { sender := 2, sequence := none, took := false }, busSeen := false }
    (after (.reservationLapse 48 false) { held with held := none }).busSeen = true ∧
    (after (.reservationLapse 48 false) held).rxQueue = [.lapse 2] ∧
    (after (.reservationLapse 48 false) { held with rxQueue := [.lapse 2] }).rxQueue = [.lapse 2] := by decide +kernel

/-- A duplicate of the number during the first pass of a LOAD ends it, with the module id once that has been read, with 0
before; not yet at the first word of the block (R36; log 15). -/
theorem test_isolation_in_the_first_pass :
    let cut := fun s : State => (after (.frameArrival seekOnTheLine.bits false) s).notices.list.map (·.notice)
    (loadLeft 2).firstPassLoad = some (0x21, none) ∧ (loadLeft 3).firstPassLoad = some (0x21, some 8) ∧
    cut (loadLeft 1) = [.stationIsolated] ∧ cut (loadLeft 2) = [.stationIsolated, .commandDone 0x21 .refusedState 0] ∧
    cut (loadLeft 3) = [.stationIsolated, .commandDone 0x21 .refusedState 8] ∧
    (after (.load {}) (after (.frameArrival seekOnTheLine.bits false) (loadLeft 1))).notices.list.map (·.notice) =
      [.stationIsolated, .commandDone 0x21 .refusedState 0] := by decide +kernel

/-- A commit pass cut off by the isolation: module 8 goes with all it has entered; module 7, its entries, its references and
its place on the patch queue stay (R36, R163). -/
theorem test_isolation_takes_one_module_out :
    let eight : Owner := { module := 8, index := 0 }
    let seven : Owner := { module := 7, index := 1 }
    let s := { linked with
      modules := module7 :: (committing active 1 []).modules, command := (committing active 1 []).command
      directory := linked.directory ++ [{ entryOf 0 0x65 9 .pending with owner := eight }]
      refs := linked.refs ++ [{ refOf 0 0x7B .waiting .stub with owner := eight }], patchQueue := [eight, seven] }
    let t := after (.frameArrival seekOnTheLine.bits false) s
    t.modules.map (·.id) = [7] ∧ t.refs = linked.refs ∧ t.patchQueue = [seven] ∧ t.command = none ∧
    t.directory.map (·.owner) = linked.directory.map (·.owner) ∧
    t.notices.list.map (·.notice) = [.stationIsolated, .commandDone 0x21 .refusedState 8] := by decide +kernel

/-! ## Receive processing -/

theorem takes_received (s : State) (f : Frame) (h : s.onBus = true) : (received s f).Takes f [] := ⟨rfl, h⟩

theorem seekLaw_received {s : State} (h : s.SeekLaw) (f : Frame) : (received s f).SeekLaw :=
  ⟨⟨h.owners.exportOwners, h.owners.refOwners, h.owners.exportModules, h.owners.refModules, h.owners.commit⟩, h.keys, h.used,
    h.seeking, h.once, h.queued, h.served⟩

theorem linked_slotKeys : linked.SlotKeysDistinct := linked_seekLaw.keys

theorem test_SeekTaken_met :
    let live := received linked (frameOf 2 (.seek .common [0x50]))
    let slot := received { linked with slots := linked.slots.set 0 (some (slotFor 0x78 .toSend 2)) } (frameOf 2 (.seek .common [0x78]))
    live.Takes (frameOf 2 (.seek .common [0x50])) [] ∧
    (after .seekTaken live).answers = [{ owner := { module := 7, index := 0 }, owesOffer := true }] ∧
    (after .seekTaken { live with answers := [] }).answers = [{ owner := { module := 7, index := 0 }, owesOffer := true }] ∧
    (after .seekTaken slot).slots[0]? = some (some (slotFor 0x78 .out 2)) :=
  ⟨takes_received _ _ (by decide), by decide +kernel⟩

theorem test_OwnSeekTaken_met :
    let f := frameOf 3 (.seek .common [0x78])
    let s := received { linked with slots := linked.slots.set 0 (some (slotFor 0x78 .toSend 2)) } f
    s.Takes f [] ∧ (received linked f).SlotKeysDistinct ∧
    (after .ownSeekTaken s).slots[0]? = some (some (slotFor 0x78 .out 2)) ∧
    (after .ownSeekTaken (received linked f)).slots = linked.slots :=
  ⟨takes_received _ _ (by decide), linked_slotKeys, by decide +kernel⟩

theorem test_OwnerDataBinds_met :
    let offer := frameOf 2 (.offer .common [0x78] 7 0x20100040 .entry)
    let announce := frameOf 2 (.announce .common [0x78] 7 0x20100040 .entry)
    let clash := frameOf 2 (.clash .common [0x79] 2 8 0x20100050 .entry [{ station := 2, generation := 7 }])
    OwnerData (received linked offer) offer .offerTaken (keyNamed 0x78) bindingOf2 [] ∧
    OwnerData (received linked announce) announce .announceTaken (keyNamed 0x78) bindingOf2 [] ∧
    OwnerData (received linked clash) clash .clashTaken (keyNamed 0x79)
      { definer := 2, generation := 8, target := 0x20100050, kind := .entry } [{ station := 2, generation := 7 }] ∧
    (received linked offer).Takes offer [] ∧ (received linked offer).SeekLaw ∧
    (after .offerTaken (received linked offer)).refs.head?.map (·.phase) = some (.patching bindingOf2) ∧
    (after .announceTaken (received linked announce)).slots = List.replicate 16 none ∧
    (after .clashTaken (received linked clash)).refs.map (fun r => r.phase.code) = [2, 4, 3] :=
  ⟨.offer _ _ rfl, .announce _ _ rfl (by decide), .clash _ _ _ rfl, takes_received _ _ (by decide),
    seekLaw_received linked_seekLaw _, by decide +kernel⟩

/-- One CLASH refuses the own export 'P', offers 'x', which seeks, a binding of another kind, and rebinds 'y', of any kind: the
notices of the event in their order (R11, R31, R81, R98, R99). -/
theorem test_notices_of_one_clash :
    let f := frameOf 4 (.clash .common [0x78] 4 6 0x40000010 .data
      [{ station := 2, generation := 7 }, { station := 3, generation := 1 }])
    let b : Binding := { definer := 4, generation := 6, target := 0x40000010, kind := .data }
    let refused : List Pair := [{ station := 2, generation := 7 }, { station := 3, generation := 1 }]
    let s := { received linked f with
      directory := [entryOf 0 0x78 1 (.live [])], answers := []
      refs := [{ refOf 0 0x78 (.seeking 0) .stub with expected := .entry },
        { refOf 1 0x78 (.bound bindingOf2) (.binding bindingOf2) with expected := .entry },
        refOf 2 0x78 (.bound bindingOf2) (.binding bindingOf2)] }
    let owner := fun i : Nat => ({ module := 7, index := i } : Owner)
    s.PostsInTurn (after .clashTaken s)
      (s.refusals f (keyNamed 0x78) b refused ++ (s.refs.flatMap fun r => r.passNotices b refused)) [] ∧
    (after .clashTaken s).notices.list.map (·.notice) =
      [.exportRefused (owner 0) 4, .referenceFaulted (owner 0) .kind 0, .referenceRevoked (owner 1) .refusedDefiner,
        .referenceFaulted (owner 1) .kind 0, .referenceRevoked (owner 2) .refusedDefiner, .moduleState 7 .faulted] := by
  unfold State.PostsInTurn
  decide +kernel

theorem test_ClaimsRefuseOrAreRecorded_met :
    let claim := fun (n : Station) (name : Byte) => frameOf n (.announce .common [name] 6 0x20100040 .entry)
    let clash := frameOf 5 (.clash .common [0x50] 5 6 0x50100040 .entry [{ station := 3, generation := 1 }])
    let states := fun (c : Instr) (f : Frame) => (after c (received linked f)).directory.map fun e => e.state
    let p : Pair := { station := 4, generation := 1 }
    let rest : List ExportState := [.pending, .withdrawing, .refused { station := 4, generation := 9 }]
    (received linked clash).DirectoryKeysDistinct ∧
    states .announceTaken (claim 5 0x50) = .live [p, { station := 5, generation := 6 }] :: rest ∧
    states .announceTaken (claim 4 0x50) = .live [{ station := 4, generation := 6 }] :: rest ∧
    states .announceTaken (claim 5 0x51) = [.live [p], .refused { station := 5, generation := 6 }] ++ rest.drop 1 ∧
    states .announceTaken (claim 5 0x52) = .live [p] :: rest ∧ states .announceTaken (claim 5 0x53) = .live [p] :: rest ∧
    states .clashTaken clash = .refused { station := 5, generation := 6 } :: rest ∧
    (after .announceTaken (received { linked with answers := [] } (claim 5 0x50))).answers =
      [{ owner := { module := 7, index := 0 }, owesOffer := false }] :=
  ⟨linked_keysDistinct, by decide +kernel⟩

/-- A frame in contention for the answer of an entry that is refused, or whose module is unloaded, is abandoned; another's, or
a queued frame, is not (R49, R135). -/
theorem test_answer_in_contention :
    let answering := { linked with line := .contending (.answer { module := 7, index := 0 }) seekOnTheLine }
    let queued := { linked with line := .contending .queue seekOnTheLine }
    let refusing := frameOf 5 (.clash .common [0x50] 5 6 0x50100040 .entry [{ station := 3, generation := 1 }])
    let claiming := frameOf 5 (.clash .common [0x51] 5 6 0x50100040 .entry [{ station := 3, generation := 1 }])
    let line := fun (f : Frame) (s : State) => (after .clashTaken (received s f)).line
    line refusing answering = .quiet ∧ line claiming answering = answering.line ∧ line refusing queued = queued.line ∧
    (after (.unload {}) (submitted answering [0x05000031, 7])).line = .quiet ∧
    (after (.unload {}) (submitted queued [0x05000031, 7])).line = queued.line := by decide +kernel

theorem test_OwnAnnounceMakesLive_met :
    let f := fun g : Half => frameOf 3 (.announce .common [0x51] g 0x30001000 .entry)
    let states := fun g : Half => (after .ownAnnounceTaken (received linked (f g))).directory.map fun e => e.state.code
    OwnerData (received linked (f 2)) (f 2) .ownAnnounceTaken (keyNamed 0x51)
      { definer := 3, generation := 2, target := 0x30001000, kind := .entry } [] ∧
    states 2 = [2, 2, 3, 4] ∧ states 1 = [2, 1, 3, 4] :=
  ⟨.ownAnnounce _ _ rfl rfl, by decide +kernel⟩

theorem test_WithdrawalsRevoke_met :
    let other := frameOf 2 (.withdraw .common [0x79] 7)
    let own := frameOf 3 (.withdraw .common [0x52] 3)
    let unloading := fun m : Byte => received { linked with command := some (.unload 0x31 m) } own
    (received linked other).Takes other [] ∧ (linked.refs.map (·.owner)).Nodup ∧
    (after .withdrawTaken (received linked other)).refs.map (fun r => r.phase.code) = [2, 2, 3] ∧
    (after .withdrawTaken (received linked other)).notices.list.map (·.notice) =
      [.referenceRevoked { module := 7, index := 1 } .withdrawn] ∧
    (after .ownWithdrawTaken (unloading 7)).directory.length = 3 ∧
    (after .ownWithdrawTaken (unloading 7)).command = some (.unload 0x31 7) ∧
    (after .ownWithdrawTaken (unloading 8)).notices.list.map (·.notice) = [.commandDone 0x31 .ok 8] ∧
    (let none := received { linked with txQueue := [.leave] } own
     let t := after .ownWithdrawTaken none
     t.command = none.command ∧ t.commandQueue = [] ∧ t.rxQueue = [] ∧ t.txQueue = [.leave] ∧ t.modules = none.modules ∧
     t.refs = none.refs ∧ t.directory.length = 3) :=
  ⟨takes_received _ _ (by decide), by decide, by decide +kernel⟩

/-- An own WITHDRAW with a reference bound to the export it names: where the entry is WITHDRAWING the reference seeks; in a state
that no run reaches, with a LIVE entry of that key and generation, seek entry binds it to that entry. -/
theorem test_own_withdraw_and_a_bound_reference :
    let own := frameOf 3 (.withdraw .common [0x52] 3)
    let b : Binding := { definer := 3, generation := 3, target := 0x30001000, kind := .entry }
    let bound := fun st : ExportState => received { linked with
      directory := [entryOf 2 0x52 3 st], refs := [refOf 0 0x52 (.bound b) (.binding b)], slots := List.replicate 16 none } own
    let phases := fun st : ExportState => (after .ownWithdrawTaken (bound st)).refs.map (·.phase)
    (bound .withdrawing).Takes own [] ∧ ((bound .withdrawing).refs.map (·.owner)).Nodup ∧
    (∀ e ∈ (bound .withdrawing).directory, e.isLive = true → e.key.agrees (keyNamed 0x52) = true → e.generation ≠ 3) ∧
    phases .withdrawing = [.seeking 0] ∧ phases (.live []) = [.patching b] :=
  ⟨takes_received _ _ (by decide), by decide, by decide, by decide +kernel⟩

theorem test_DeparturesRevoke_met :
    let gone := fun (c : Instr) (s : State) => (after c s).refs.map fun r => r.phase.code
    let lapsed := { linked with rxQueue := [.lapse 2] }
    Departure (received linked (frameOf 2 .leave)) 2 [] .leaveTaken .leave ∧
    Departure (received linked (frameOf 2 .join)) 2 [] .joinTaken .rejoin ∧ Departure lapsed 2 [] .lapse .lapse ∧
    linked.isPresent 2 = true ∧ linked.isPresent 4 = false ∧
    gone .leaveTaken (received linked (frameOf 2 .leave)) = [2, 2, 3] ∧
    gone .joinTaken (received linked (frameOf 2 .join)) = [2, 2, 3] ∧ gone .lapse lapsed = [2, 2, 3] ∧
    (after .joinTaken (received linked (frameOf 4 .join))).isPresent 4 = true ∧
    (after .leaveTaken (received linked (frameOf 4 .leave))).notices.list = [] ∧
    (after .lapse lapsed).directory = linked.directory :=
  ⟨.leave _ rfl rfl rfl, .join _ rfl rfl rfl, .lapse rfl, by decide +kernel⟩

theorem test_OwnJoinAndOwnLeave_met :
    let joining := received { active with station := .joining, command := some (.start 5) } (frameOf 3 .join)
    let leaving := received { active with station := .leaving, command := some (.stop 6) } (frameOf 3 .leave)
    let sending := { leaving with outgoing := some { frame := frameOf 3 .leave, holds := 1, stalled := false } }
    joining.Takes (frameOf 3 .join) [] ∧ leaving.Takes (frameOf 3 .leave) [] ∧
    (after .ownJoinTaken joining).station = .active ∧ (after .ownLeaveTaken leaving).command = none ∧
    (after .ownLeaveTaken sending).command = some (.stop 6) ∧ (after .ownLeaveTaken sending).station = .configured :=
  ⟨takes_received _ _ (by decide), takes_received _ _ (by decide), by decide +kernel⟩

/-- A REPORT and the Notice Unit, both with a transfer to make, the agent's grant given to the Command Engine. -/
def contested : State :=
  { linked with
    command := some (.report 0x51 .peers 7 0x4000 3 2), notices := linked.notices.take .busStall, granted := [.commandEngine]
    pending := [.reportRecordWrite {}] }

/-! ## Timers, walks, notices, the memory agent -/

theorem test_TimerExpiry_met :
    let s := { linked with slots := linked.slots.set 0 (some (slotFor 0x78 .out 2)) }
    let full := { s with txQueue := List.replicate 32 .leave }
    let again := { s with txQueue := [.seek 0 (keyNamed 0x78)] }
    let expired := after (.seekTimerExpiry 0 10)
    let waiting := { full with wanted := [.join] }
    s.config.map (·.seekTries) = some 3 ∧ linked.RoomGranted ∧ waiting.RoomGranted ∧
    (expired waiting).slots = (expired full).slots ∧ (expired waiting).wanted = [.join] ∧
    (expired s).txQueue = [.seek 0 (keyNamed 0x78)] ∧ (expired again).txQueue = again.txQueue ∧
    ((expired full).slots[0]?.join.map (·.awaitingRoom)) = some true ∧
    ((expired s).slots[0]?.join.map (·.tries)) = some 3 ∧
    (expired linked).refs.map (fun r => r.phase.code) = [3, 5, 3] ∧ (expired linked).slots[0]? = some none ∧
    (expired linked).notices.list.map (·.notice) = [.referenceUnresolved { module := 7, index := 0 }, .moduleState 7 .waiting] ∧
    after (.seekTimerExpiry 0 9) linked = linked := by
  exact ⟨rfl, Or.inl linked_noneWaiting, Or.inr (by decide), by decide +kernel⟩

/-- Module 7's second reference is to be walked, with these sites. -/
def walking (sites : List Site) (phase : Phase) : State :=
  { linked with
    refs := linked.refs.set 1 { refOf 1 0x79 phase .stub with sites }
    patchQueue := [{ module := 7, index := 1 }] }

/-- A site that no target of station 2 fits. -/
def misfit : Site := siteAt .d16 12 0

theorem test_WalkBegin_met :
    let fits := walking [siteAt .a32 0 0] (.patching bindingOf2)
    let fails := walking [siteAt .a32 0 0, misfit] (.patching bindingOf2)
    let stub := { walking [siteAt .a32 0 0] .waiting with
      refs := linked.refs.set 1 { refOf 1 0x79 .waiting .none with sites := [siteAt .a32 0 0] } }
    let done := walking [siteAt .a32 0 0] .waiting
    fits.walk = none ∧ fits.transfer = none ∧ (fits.refs.map (·.owner)).Nodup ∧
    (after .walkBegin fits).transfer = some { site := siteAt .a32 0 0, value := 0x20100040 } ∧
    (after .walkBegin stub).transfer = some { site := siteAt .a32 0 0, value := 0x30000100 } ∧
    (after .walkBegin fails).notices.list.map (·.notice) =
      [.referenceFaulted { module := 7, index := 1 } .fit 2, .moduleState 7 .faulted] ∧
    (after .walkBegin done).patchQueue = [] := by decide +kernel

theorem test_SiteWriteDone_met :
    let two := after .walkBegin (walking [siteAt .a32 0 0, siteAt .hi16 4 0] (.patching bindingOf2))
    let one := after (.siteWriteDone {}) two
    let done := after (.siteWriteDone {}) one
    let dropped := fun (s : State) (p : Phase) => { s with refs := s.refs.map fun r =>
      if r.owner.index = 1 then { r with phase := p } else r }
    let other : Binding := { definer := 2, generation := 8, target := 0x20200000, kind := .entry }
    one.transfer = some { site := siteAt .hi16 4 0, value := 0x2010 } ∧ one.mem.word 0x8000 = 0x20100040 ∧
    done.mem.word 0x8004 = 0x20100000 ∧ done.refs.map (fun r => r.phase.code) = [2, 5, 3] ∧ done.walk = none ∧
    (after (.siteWriteDone {}) (dropped two .waiting)).transfer = some { site := siteAt .a32 0 0, value := 0x30000100 } ∧
    (after (.siteWriteDone {}) (dropped two (.patching other))).transfer =
      some { site := siteAt .a32 0 0, value := 0x20200000 } ∧
    (after (.siteWriteDone {}) { two with walk := none }).transfer = none ∧
    (after (.siteWriteDone { failAt := some 0 }) one).refs.map (fun r => r.phase) =
      [.seeking 0, .faulted .bus, .waiting] ∧
    (after (.siteWriteDone { failAt := some 0 }) one).mem.word 0x8004 = 0 := by decide +kernel

/-- A restart that finds a site the new binding does not fit, and a BUS fault of the reference that alone seeks in slot 0:
the reference keeps its place on the queue, or leaves it; the slot is freed. -/
theorem test_restart_and_slot_at_a_fault :
    let near : Binding := { definer := 3, generation := 1, target := 0x30008010, kind := .entry }
    let two := after .walkBegin (walking [siteAt .a32 0 0, misfit] (.patching near))
    let restarted := after (.siteWriteDone {}) { two with refs := two.refs.map fun r =>
      if r.owner.index = 1 then { r with phase := .patching bindingOf2 } else r }
    let seeking := after .walkBegin { linked with
      refs := linked.refs.set 0 { refOf 0 0x78 (.seeking 0) .none with sites := [siteAt .a32 0 0] }
      patchQueue := [{ module := 7, index := 0 }] }
    let faulted := after (.siteWriteDone { failAt := some 0 }) seeking
    two.walk.isSome = true ∧ two.transfer.isSome = true ∧ restarted.patchQueue = two.patchQueue ∧
    restarted.refs.map (·.phase) = [.seeking 0, .faulted .fit, .waiting] ∧
    restarted.transfer = some { site := siteAt .a32 0 0, value := 0x30000100 } ∧
    restarted.notices.list.map (·.notice) =
      [.referenceFaulted { module := 7, index := 1 } .fit 2, .moduleState 7 .faulted] ∧
    faulted.slots = List.replicate 16 none ∧ faulted.patchQueue = [] ∧
    faulted.refs.map (fun r => r.phase.code) = [6, 5, 3] := by decide +kernel

/-! ## The backlog served -/

/-- The station of chapter 4's example after its LOAD: all sixteen slots in use, imports 0 and 3 in slot 14, import 1 in slot 15,
imports 2 and 4 QUEUED; their sites hold the stub. -/
def crowded : State :=
  { linked with
    refs := [{ refOf 0 0x61 (.seeking 14) .stub with expected := .entry }, { refOf 1 0x64 (.seeking 15) .stub with expected := .entry },
      refOf 2 0x70 .queued .stub, refOf 3 0x61 (.seeking 14) .stub, { refOf 4 0x70 .queued .stub with expected := .data }] ++
      (List.range 14).map fun i => refOf (10 + i) (BitVec.ofNat 8 (0x30 + i)) (.seeking i) .stub
    slots := ((List.range 14).map fun i => some (slotFor (BitVec.ofNat 8 (0x30 + i)) .out 1)) ++
      [some (slotFor 0x61 .out 1), some (slotFor 0x64 .out 3)]
    backlog := [{ module := 7, index := 2 }, { module := 7, index := 4 }] }

/-- The phases of its five imports. -/
def fivePhases (s : State) : List Phase := (s.refs.map (·.phase)).take 5

theorem crowded_seekLaw : crowded.SeekLaw where
  owners := ⟨by decide +kernel, by decide +kernel, by decide +kernel, by decide +kernel, by simp [crowded, linked, active, State.reset]⟩
  keys := by
    have table : ∀ i < 16, ∀ j < 16, ∀ x ∈ crowded.slots[i]?.join, ∀ y ∈ crowded.slots[j]?.join, x.key.agrees y.key = true → i = j := by
      decide +kernel
    intro i j x y hi hj
    exact table i (List.getElem?_eq_some_iff.mp hi).1 j (List.getElem?_eq_some_iff.mp hj).1 x (by simp [hi]) y (by simp [hj])
  used := by
    have table : ∀ n < 16, ∀ x ∈ crowded.slots[n]?.join,
        ∃ r ∈ crowded.refs, r.phase = .seeking n ∧ r.key.agrees x.key = true := by decide +kernel
    intro n x h
    exact table n (List.getElem?_eq_some_iff.mp h).1 x (by simp [h])
  seeking := by
    have table : ∀ r ∈ crowded.refs, (match r.phase with
        | .seeking n => crowded.slots[n]?.join.any fun x => x.key.agrees r.key
        | _ => true) = true := by decide +kernel
    intro r hr n hn
    have h := table r hr
    rw [hn] at h
    cases hs : crowded.slots[n]? with
    | none => simp [hs] at h
    | some o =>
      cases o with
      | none => simp [hs] at h
      | some x => exact ⟨x, rfl, by simpa [hs] using h⟩
  once := by decide +kernel
  queued := by
    have there : ∀ o ∈ crowded.backlog, ∃ r ∈ crowded.refs, r.owner = o ∧ r.phase = .queued := by decide +kernel
    have back : ∀ r ∈ crowded.refs, r.phase = .queued → r.owner ∈ crowded.backlog := by decide +kernel
    exact fun o => ⟨there o, fun ⟨r, hr, e, hp⟩ => e ▸ back r hr hp⟩
  served := Or.inr (by decide +kernel)

/-- Chapter 4, two free slots and five imports: the OFFER frees slot 14, import 2 takes it, import 4 joins it, and imports 0 and 3
join the patch queue in table order. A place being free, the new slot's request is granted in the same event. -/
theorem test_example_of_4_6 :
    let offer := frameOf 2 (.offer .common [0x61] 7 0x20100040 .entry)
    let t := after .offerTaken (received crowded offer)
    OwnerData (received crowded offer) offer .offerTaken (keyNamed 0x61) bindingOf2 [] ∧ (received crowded offer).SeekLaw ∧
    fivePhases t = [.patching bindingOf2, .seeking 15, .seeking 14, .patching bindingOf2, .seeking 14] ∧ t.backlog = [] ∧
    t.slots[14]? = some (some (slotFor 0x70 .toSend 1)) ∧ t.slots[15]? = some (some (slotFor 0x64 .out 3)) ∧
    t.patchQueue = [{ module := 7, index := 0 }, { module := 7, index := 3 }] ∧ t.txQueue = [.seek 14 (keyNamed 0x70)] ∧
    t.notices.list = [] :=
  ⟨.offer _ _ rfl, seekLaw_received crowded_seekLaw _, by decide +kernel⟩

/-- Slot 15 exhausted beside a longer backlog: its members are served oldest first, the first binding the LIVE own export, the
second faulted by KIND at a bound sibling, the third taking the slot with the fourth, the fifth left over (R75, R78). -/
theorem test_each_step_of_serving :
    let queued := fun i (name : Byte) => refOf i name .queued .stub
    let s := { crowded with
      directory := [entryOf 0 0x4C 5 (.live [])]
      refs := crowded.refs ++ [queued 30 0x4C, { queued 31 0x62 with expected := .data }, queued 32 0x66,
        refOf 33 0x62 (.bound bindingOf2) (.binding bindingOf2)]
      backlog := ([30, 31, 4, 32, 2] : List Nat).map fun i => { module := 7, index := i } }
    let t := after (.seekTimerExpiry 15 10) s
    (crowded.SeekLaw ∧ crowded.slots[15]? = some (some (slotFor 0x64 .out 3))) ∧
    fivePhases t = [.seeking 14, .waiting, .seeking 15, .seeking 14, .seeking 15] ∧
    (t.refs.drop 19).map (·.phase) = [.patching { definer := 3, generation := 5, target := 0x30001000, kind := .entry },
      .faulted .kind, .queued, .bound bindingOf2] ∧
    t.backlog = [{ module := 7, index := 32 }] ∧ t.slots[15]? = some (some (slotFor 0x70 .toSend 1)) ∧
    t.patchQueue = [{ module := 7, index := 30 }] ∧
    t.notices.list.map (·.notice) =
      [.referenceUnresolved { module := 7, index := 1 }, .referenceFaulted { module := 7, index := 31 } .kind 0, .moduleState 7 .faulted] :=
  ⟨⟨crowded_seekLaw, by decide +kernel⟩, by decide +kernel⟩

/-- A BUS fault of import 1, which alone seeks in slot 15: import 2 takes the slot and import 4 joins it (R78, R102, R123). -/
theorem test_serving_after_a_bus_fault :
    let one : Owner := { module := 7, index := 1 }
    let s := after .walkBegin { crowded with refs := crowded.refs.set 1 (refOf 1 0x64 (.seeking 15) .none), patchQueue := [one] }
    let t := after (.siteWriteDone { failAt := some 0 }) s
    s.walk.isSome = true ∧ fivePhases t = [.seeking 14, .faulted .bus, .seeking 15, .seeking 14, .seeking 15] ∧ t.backlog = [] ∧
    t.slots[15]? = some (some (slotFor 0x70 .toSend 1)) ∧ t.txQueue = [.seek 15 (keyNamed 0x70)] ∧ t.patchQueue = [] ∧
    t.notices.list.map (·.notice) = [.referenceFaulted one .bus 1, .moduleState 7 .faulted] := by decide +kernel

/-- The SEEK of a slot taken in serving (R69, R85, R138): one that is queued still serves it; on a full queue it awaits room; in
ISOLATED, where an UNLOAD cut off by the isolation frees the slot, its request is withdrawn at once. -/
theorem test_seek_of_a_slot_served :
    let offer := frameOf 2 (.offer .common [0x61] 7 0x20100040 .entry)
    let serve := fun s : State => after .offerTaken (received s offer)
    let held := { crowded with txQueue := [.seek 14 (keyNamed 0x70)] }
    let full := { crowded with txQueue := List.replicate 32 .leave }
    let unloading := { crowded with
      modules := [module7, { module7 with id := 8 }], command := some (.unload 5 8), directory := []
      refs := crowded.refs.map fun r => if r.phase = .seeking 14 then { r with owner := { r.owner with module := 8 } } else r }
    let cut := after (.frameArrival seekOnTheLine.bits false) unloading
    (serve held).txQueue = held.txQueue ∧ (serve held).slots[14]? = some (some (slotFor 0x70 .toSend 1)) ∧
    (serve full).txQueue = full.txQueue ∧
    (serve full).slots[14]? = some (some { slotFor 0x70 .toSend 1 with awaitingRoom := true }) ∧
    cut.station = .isolated ∧ cut.txQueue = [] ∧ cut.backlog = [] ∧ cut.slots[14]? = some (some (slotFor 0x70 .toSend 1)) ∧
    (cut.refs.map (·.phase)).take 3 = [.seeking 15, .seeking 14, .seeking 14] := by decide +kernel

/-- A duplicate of the number with no module to abandon: every slot keeps its key, state and try count, and the walk and its site
transfer go on (R85, R126). -/
theorem test_isolation_keeps_slots_and_walk :
    let s := { after .walkBegin (walking [siteAt .a32 0 0] (.patching bindingOf2)) with
      slots := [some (slotFor 0x78 .out 3), some { slotFor 0x79 .toSend 2 with awaitingRoom := true }] }
    let t := after (.frameArrival seekOnTheLine.bits true) s
    t.station = .isolated ∧ s.walk.isSome = true ∧ t.walk = s.walk ∧ t.transfer = s.transfer ∧
    t.slots = [some { slotFor 0x78 .out 3 with timer := false }, some (slotFor 0x79 .toSend 2)] := by decide +kernel

/-- An import entered behind another that waits for its walk joins the tail of the patch queue; with a slot free it obtains its SEEK
(R26, R63, R69, R108). -/
theorem test_import_joins_the_tail :
    let first : Owner := { module := 7, index := 1 }
    let s := { committing active 1 (importWords 0x69) with patchQueue := [first] }
    let t := after (.loadCommitImport {}) s
    t.patchQueue = first :: (t.refs.getLast?.map (·.owner)).toList ∧ t.txQueue = [.seek 0 (keyNamed 0x69)] ∧
    t.slots[0]? = some (some (slotFor 0x69 .toSend 1)) := by decide +kernel

/-- A failed LO16 write leaves the HI16 that shares its word (R122, R128), whatever the site then holds. -/
theorem test_failed_write_spares_the_other_halfword (old w : Word) :
    (siteAt .lo16 6 0).newWord old w &&& 0xFFFF0000 = old &&& 0xFFFF0000 ∧
    (siteAt .hi16 4 0).newWord old w &&& 0xFFFF = old &&& 0xFFFF := by
  constructor <;>
    · simp only [siteAt, Site.newWord]
      ext i hi
      interval_cases i <;> simp

theorem test_AcknowledgeTimeout_met :
    let failed := fun (c : Claimant) (k : Nat) (s : State) => after (.memoryAckTimeout c { failAt := some k }) s
    let load := loading active 0x200 [0x08010000, 0, 0x8000, 0x100]
    let noticed := { linked with notices := linked.notices.take .busStall }
    let site := after .walkBegin (walking [siteAt .hi16 4 0] (.patching bindingOf2))
    load.reachesFailure .commandEngine { failAt := some 5 } = true ∧ load.othersAsk .commandEngine = false ∧
    contested.othersAsk .commandEngine = true ∧ contested.reachesFailure .commandEngine { failAt := some 0 } = true ∧
    (failed .commandEngine 0 load).notices.list.map (·.notice) = [.commandDone 0 .readError 0] ∧
    (failed .commandEngine 1 load).notices.list.map (·.notice) = [.commandDone 0x21 .readError 4] ∧
    (failed .commandEngine 5 load).notices.list.map (·.notice) = [.commandDone 0x21 .readError 12] ∧
    (failed .commandEngine 8 (committing active 0 (exportWords 0x65))).notices.list.map (·.notice) =
      [.commandDone 0x21 .readError 48] ∧
    (failed .commandEngine 3 { linked with command := some (.report 0x51 .peers 7 0x4000 3 2) }).notices.list.map (·.notice) =
      [.commandDone 0x51 .writeError 44] ∧
    (failed .patchEngine 0 site).notices.list.map (·.notice) =
      [.referenceFaulted { module := 7, index := 1 } .bus 1, .moduleState 7 .faulted] ∧
    (failed .noticeUnit 3 noticed).notices.writeFault = true ∧ (failed .noticeUnit 3 noticed).notices.drops = 1 := by
  decide +kernel

theorem test_NoticeWriteDone_met :
    let empty : NoticeUnit := { linked.notices with producer := 15, consumer := 15 }
    let s := { linked with notices := (empty.take (.commandDone 0x21 .ok 7)).take .busStall }
    let failed := after (.noticeWriteDone { failAt := some 1 }) s
    s.notices.list.map (·.slot) = [15, 0] ∧
    (after (.noticeWriteDone {}) s).mem.word 0x10F0 = 0x01000021 ∧ (after (.noticeWriteDone {}) s).mem.word 0x10F4 = 7 ∧
    (after (.noticeWriteDone {}) s).notices.producer = 0 ∧ failed.notices.producer = 15 ∧ failed.notices.drops = 2 ∧
    failed.notices.list = [] ∧ failed.freeCount = 1 := by decide +kernel

/-- A notice left between two words, and finished. -/
theorem test_notice_left_between_words :
    let s := { linked with notices := (linked.notices.take (.commandDone 0x21 .ok 7)).take .busStall }
    let part := after (.noticeWriteDone { upTo := some 1 }) s
    let done := after (.noticeWriteDone { upTo := some 3 }) part
    part.runs.noticeWords = 1 ∧ part.notices = s.notices ∧ part.mem.word 0x1000 = 0x01000021 ∧ part.mem.word 0x1004 = 0 ∧
    done.notices.producer = 1 ∧ done.runs.noticeWords = 0 ∧ done.mem.word 0x1004 = 7 ∧
    (after (.noticeWriteDone { failAt := some 2 }) part).notices.drops = 2 ∧
    (after (.noticeWriteDone { failAt := some 2 }) part).runs.noticeWords = 0 := by decide +kernel

/-- A NOTICES-DROPPED behind the failed notice gives its count back and counts nothing for itself (log 39). -/
theorem test_failed_write_with_a_drop_notice_behind :
    let list := [Notice.busStall, .noticesDropped 5, .busStall].map fun x : Notice => ({ slot := 0, notice := x } : Reserved)
    failedDrops list = 7 := by decide

theorem contested_agentLaw : contested.AgentLaw where
  asking := by decide
  once := by decide
  busy := by intro c _; simp [contested]

theorem test_MemoryUnchangedWithoutTransfers_met :
    claimOf (.reportRecordWrite {}) = some (.commandEngine, {}) ∧ claimOf .lapse = none ∧ contested.AgentLaw ∧
    linked.AgentLaw ∧ contested.asks .commandEngine = true ∧ contested.asks .noticeUnit = true ∧
    contested.asks .patchEngine = false ∧ ∃ t, step contested = .next t :=
  ⟨rfl, rfl, contested_agentLaw, linked_agentLaw, by decide, by decide, by decide, _, rfl⟩

/-- While the Notice Unit waits the report record's next word alone is written, then the notice's, turn by turn; a step whose
claimant is not granted does nothing; an idle agent grants either of two that ask together (R182). -/
theorem test_agent_rotation :
    let next := fun (c : Instr) (s : State) => match exec c s with
      | .next t => t
      | _ => s
    let word := next (.reportRecordWrite {}) contested
    let turn := next (.noticeWriteDone {}) word
    word.runs.record.map (·.written) = some 1 ∧ word.granted = [.noticeUnit] ∧ next (.reportRecordWrite {}) word = word ∧
    turn.runs.noticeWords = 1 ∧ turn.granted = [.commandEngine] ∧ next (.noticeWriteDone {}) turn = turn ∧
    ({ contested with granted := [] } : State).settleAgent.granted = [.commandEngine, .noticeUnit] ∧
    next (.memoryAckTimeout .commandEngine { failAt := some 1 }) contested = contested ∧
    (next (.memoryAckTimeout .commandEngine { failAt := some 0 }) contested).granted = [.noticeUnit] ∧
    (next (.pinReset 5 { noticeWords := 4, reportWords := 16 }) turn).mem =
      turn.mem.setWords 0x4024 [0] := by decide +kernel

/-- The isolation ends a command's transfer and the grant goes on from it; a site transfer that alone is granted has begun. -/
theorem test_grant_at_the_isolation :
    let site : SiteTransfer := { site := siteAt .a32 0 0, value := 1 }
    let cut := fun (s : State) (begun : Bool) => match exec (.frameArrival seekOnTheLine.bits begun) s with
      | .next t => (t.granted, t.transfer)
      | _ => ([], none)
    let unloading := { linked with
      command := some (.unload 0x31 7), transfer := some site
      walk := some { ref := { module := 7, index := 1 }, value := .stub, pass := .write, next := 1, computed := [1] } }
    cut (loadLeft 3) false = ([.noticeUnit], none) ∧
    cut { loadLeft 3 with transfer := some site } false = ([.patchEngine], some site) ∧
    cut { unloading with granted := [.patchEngine] } false = ([.patchEngine], some site) ∧
    cut { unloading with granted := [] } true = ([.noticeUnit], none) := by decide +kernel

/-- The layouts of a notice's slot and of a REFERENCES record (R186, R187). -/
theorem test_layouts :
    (Notice.referenceFaulted { module := 7, index := 300 } .fit 2).layout = [0x0507012C, 0x0202, 0, 0] ∧
    (Notice.commandDone 0x21 .writeError 0x80000003).layout = [0x010B0021, 0x80000003, 0, 0] ∧
    linked.reportRecord .references 7 1 = some [0x01010305, 0x01790000, 0, 0, 0, 0, 0, 0, 0x01010201, 0x00070000, 0x20100040,
      0x03020007, 0x00FF0000, 0, 0, 0] := by decide +kernel

/-! ## Formats -/

/-- The longest body: a CLASH with a 24-byte name and 15 pairs. -/
def longestFrame : Frame :=
  frameOf 3 (.clash .group (List.replicate 24 0x7E) 3 0xFFFF 0x3FFFFFFF .data
    ((List.range 15).map fun i => { station := Fin.ofNat 16 (i + 1), generation := BitVec.ofNat 16 (i + 1) }))

/-- A CLASH with two pairs. -/
def shortClash : Frame :=
  frameOf 3 (.clash .group [0x7E] 3 0xFFFF 0x3FFFFFFF .data
    [{ station := 15, generation := 0x8001 }, { station := 0, generation := 1 }])

theorem test_FramesReadAsSent_met :
    longestFrame.carriable = true ∧ longestFrame.body.bytes.length = 79 ∧ readFrame shortClash.bits = some shortClash ∧
    checkOf (seekOnTheLine.bits.set 0 false) ≠ 0 ∧
    classOfCode (bitsNat (((seekOnTheLine.bits.set 15 false).drop 14).take 4)) = some 1 := by decide +kernel

/-- Bits with a right header and check: this kind with its class, from station 3, with this body. -/
def bitsWith (kind frameClass : Nat) (body : List Byte) : List Bool :=
  let bits := natBits 6 (frameClass * 16 + 3) ++ natBits 8 9 ++ natBits 4 kind ++ natBits 3 0 ++ natBits 8 body.length
    ++ byteBits body
  bits ++ natBits 16 (checkOf bits).toNat

/-- A name field's bytes: its length, and that many characters. -/
def nameBytes (n : Nat) : List Byte := BitVec.ofNat 8 n :: List.replicate n 0x78

/-- A CLASH's body of this owner byte and count, with this many pairs. -/
def clashBytes (owner count : Byte) (pairs : Nat) : List Byte :=
  (0 :: nameBytes 1) ++ [owner, 0, 1, 0, 0, 0, 0, count] ++ (List.replicate pairs [(4 : Byte), 0, 1]).flatten

/-- A body that its kind, name length and count do not give is no body (R131). -/
theorem test_bodies_that_are_bad :
    ([(7, 0 :: nameBytes 24), (5, 0 :: nameBytes 1 ++ [0, 1]), (3, []), (1, clashBytes 3 1 1), (1, clashBytes 3 15 15)].all
      fun x => (readBody x.1 x.2).isSome) = true ∧
    ([(7, 0 :: nameBytes 25), (7, 0 :: nameBytes 0), (7, [0]), (7, 0 :: nameBytes 1 ++ [0]), (5, 0 :: nameBytes 1 ++ [0]),
      (2, 0 :: nameBytes 1 ++ [0, 1]), (4, [0]), (1, clashBytes 3 0 0), (1, clashBytes 3 16 16), (1, clashBytes 3 2 1)].all
      fun x => readBody x.1 x.2 = none) = true := by decide +kernel

/-- Bits of a right header and check are a bad frame where the body is bad (R131). -/
theorem test_frames_of_bad_bodies :
    (readFrame (bitsWith 7 3 (0 :: nameBytes 1))).isSome = true ∧
    readFrame (bitsWith 7 3 (0 :: nameBytes 1 ++ [0])) = none ∧ checkOf (bitsWith 7 3 (0 :: nameBytes 1 ++ [0])) = 0 ∧
    readFrame (bitsWith 4 1 [0]) = none ∧ checkOf (bitsWith 4 1 [0]) = 0 := by decide +kernel

/-- A CLASH whose owner is not its sender is a bad frame (R131). -/
theorem test_clash_of_another_owner :
    (readFrame (bitsWith 1 0 (clashBytes 0x13 1 1))).isSome = true ∧ readFrame (bitsWith 1 0 (clashBytes 2 1 1)) = none ∧
    checkOf (bitsWith 1 0 (clashBytes 2 1 1)) = 0 := by decide +kernel

theorem test_SiteEncodings_met :
    (siteAt .d16 12 0).encode 3 0x3000FFFF = some 0x7FFF ∧ (siteAt .d16 12 0).encode 3 0x30010000 = none ∧
    (siteAt .d16 12 0).encode 3 0x30000000 = some 0x8000 ∧ (siteAt .d16 12 0).encode 3 0x2FFFFFFF = none ∧
    (siteAt (.fld 31 1 15) 0 0).encode 3 0x8000 = some 1 ∧ (siteAt (.fld 31 1 15) 0 0).encode 3 0x10000 = none ∧
    (siteAt (.fld 0 32 0) 0 1).encode 3 0xFFFFFFFF = some 0 ∧ (siteAt (.fld 0 32 1) 0 0).encode 3 1 = none ∧
    (siteAt .hi16 2 0).newWord 0xAAAABBBB 0x2010 = 0xAAAA2010 ∧ (siteAt .lo16 4 0).newWord 0xAAAABBBB 0x48 = 0x0048BBBB := by
  decide +kernel

theorem test_StubEncodings_met :
    active.config.map (·.stub) = some 0x30000100 ∧ (siteAt .d16 12 0).encode 3 0x30000100 = some 0x8100 ∧
    (siteAt (.fld 4 20 12) 8 0xFFFFFFC0).encode 3 0x30000100 = none := by decide +kernel

/-! ## Rows with no effect on these stations -/

/-- The remaining rows on a station where their event cannot occur leave it unchanged (log 1). -/
theorem test_events_that_cannot_occur :
    [Instr.ignoredRegisterWrite 0 .word 5, .istatWrite 0, .contentionWon, .repeatFrame 12, .holdWindowEnd true, .walkBegin,
      .siteWriteDone {}, .noticeWriteDone {}, .loadCommitEnd, .lapse, .clashTaken, .unknownCommandCode {}].all
      (fun c => decide (after c active = active)) = true := by decide +kernel

end Sys2Proof.Tests
end

/-! The law of derived module state (R30) is kept by every step. The end of an event settles the module table (R31) and so
establishes the law from any state; a step without one leaves the references as they are, and brings no record into the table
but a LOADING one, or, at the end of a LOAD's commit, one whose state is derived then (R28). -/

namespace Sys2Proof.Machine

/-! ## The table of R30 -/

/-- The table of R30 dictates exactly one state. -/
theorem dictates_iff (phases : List Phase) (st : ModuleState) : Dictates phases st ↔ st = derivedState phases := by
  have range : ∀ p : Phase, 1 ≤ p.code ∧ p.code ≤ 6 := fun p => by cases p <;> simp [Phase.code]
  simp only [derivedState, List.any_eq_true, decide_eq_true_eq]
  split
  case isTrue faulted =>
    refine ⟨fun h => h.faulted faulted, ?_⟩
    rintro rfl
    obtain ⟨p, hp, hc⟩ := faulted
    exact ⟨fun _ => rfl, fun h => absurd hc (h p hp), fun h => absurd hc (by have := h p hp; omega),
      fun h => absurd hc (by have := h p hp; omega)⟩
  case isFalse notFaulted =>
    have sound : ∀ p ∈ phases, p.code ≠ 6 := fun p hp hc => notFaulted ⟨p, hp, hc⟩
    split
    case isTrue linking =>
      refine ⟨fun h => h.linking sound linking, ?_⟩
      rintro rfl
      obtain ⟨p, hp, hc⟩ := linking
      exact ⟨fun h => absurd h notFaulted, fun _ _ => rfl, fun h => absurd hc (by have := h p hp; omega),
        fun h => absurd hc (by have := h p hp; omega)⟩
    case isFalse notLinking =>
      have settled : ∀ p ∈ phases, p.code = 3 ∨ p.code = 5 := fun p hp => by
        have := range p
        have := sound p hp
        have : ¬ (p.code = 1 ∨ p.code = 2 ∨ p.code = 4) := fun hc => notLinking ⟨p, hp, hc⟩
        omega
      split
      case isTrue waiting =>
        refine ⟨fun h => h.waiting settled waiting, ?_⟩
        rintro rfl
        obtain ⟨p, hp, hc⟩ := waiting
        exact ⟨fun h => absurd h notFaulted, fun _ h => absurd h notLinking, fun _ _ => rfl,
          fun h => absurd hc (by have := h p hp; omega)⟩
      case isFalse notWaiting =>
        have bound : ∀ p ∈ phases, p.code = 5 := fun p hp =>
          (settled p hp).resolve_left fun hc => notWaiting ⟨p, hp, hc⟩
        refine ⟨fun h => h.bound bound, ?_⟩
        rintro rfl
        exact ⟨fun h => absurd h notFaulted, fun _ h => absurd h notLinking, fun _ h => absurd h notWaiting, fun _ => rfl⟩

theorem ModuleState.isDerived_iff (st : ModuleState) : st.isDerived = true ↔ st ≠ .loading ∧ st ≠ .unloading := by
  cases st <;> simp [ModuleState.isDerived]

theorem phasesOf_congr {s t : State} (refs : t.refs = s.refs) (m : Byte) : t.phasesOf m = s.phasesOf m := by
  rw [State.phasesOf, State.phasesOf, refs]

/-- A record does not contradict R30 in `s`. -/
def State.Settled (s : State) (m : ModuleRecord) : Prop :=
  m.state.isDerived = true → m.state = derivedState (s.phasesOf m.id)

theorem settled_congr {s t : State} (refs : t.refs = s.refs) (m : ModuleRecord) : t.Settled m ↔ s.Settled m := by
  rw [State.Settled, State.Settled, phasesOf_congr refs]

/-- The law, in the terms of the model's own derivation. -/
theorem moduleStatesDerived_iff (s : State) : s.ModuleStatesDerived ↔ ∀ m ∈ s.modules, s.Settled m := by
  simp only [State.Settled, ModuleState.isDerived_iff, ← dictates_iff]
  exact ⟨fun h m hm hs => h.agree m hm hs.1 hs.2, fun h => ⟨fun _ hm hl hu => h _ hm ⟨hl, hu⟩⟩⟩

/-! ## What keeps the law -/

/-- With the references as they were, and each record of a derived state one of those before. -/
theorem State.ModuleStatesDerived.of_old {s t : State} (law : s.ModuleStatesDerived) (refs : t.refs = s.refs)
    (old : ∀ m ∈ t.modules, m.state.isDerived = true → m ∈ s.modules) : t.ModuleStatesDerived := by
  rw [moduleStatesDerived_iff] at law ⊢
  exact fun m hm hs => (settled_congr refs m).mpr (law m (old m hm hs)) hs

theorem State.ModuleStatesDerived.congr {s t : State} (law : s.ModuleStatesDerived) (refs : t.refs = s.refs)
    (modules : t.modules = s.modules) : t.ModuleStatesDerived :=
  law.of_old refs fun _ hm _ => modules ▸ hm

/-- Records may leave the module table. -/
theorem State.ModuleStatesDerived.filter {s t : State} (law : s.ModuleStatesDerived) (p : ModuleRecord → Bool)
    (refs : t.refs = s.refs) (modules : t.modules = s.modules.filter p) : t.ModuleStatesDerived :=
  law.of_old refs fun _ hm _ => (List.mem_filter.mp (modules ▸ hm)).1

/-- A LOADING record may join it. -/
theorem State.ModuleStatesDerived.append_loading {s t : State} (law : s.ModuleStatesDerived) {x : ModuleRecord}
    (loading : x.state = .loading) (refs : t.refs = s.refs) (modules : t.modules = s.modules ++ [x]) :
    t.ModuleStatesDerived := by
  refine law.of_old refs fun m hm hs => ?_
  rw [modules, List.mem_append, List.mem_singleton] at hm
  rcases hm with hm | rfl
  · exact hm
  · rw [loading] at hs
    cases hs

/-- An empty module table keeps the law. -/
theorem moduleStatesDerived_of_empty {s : State} (empty : s.modules = []) : s.ModuleStatesDerived :=
  ⟨fun _ hm => by rw [empty] at hm; cases hm⟩

/-! ## Settling the module table (R31) -/

/-- A record of the table after the state of module `id` has been set: of that module and state, or untouched. -/
theorem mem_setModuleState {s : State} {id : Byte} {st : ModuleState} {m : ModuleRecord}
    (h : m ∈ (s.setModuleState id st).modules) : m.id = id ∧ m.state = st ∨ m.id ≠ id ∧ m ∈ s.modules := by
  obtain ⟨x, hx, rfl⟩ := List.mem_map.mp h
  by_cases e : x.id = id
  · exact Or.inl (by simp [e])
  · exact Or.inr (by simp [e, hx])

/-- Setting the state of a module to what its references dictate keeps the law (R28, R30). -/
theorem setModuleState_derived {s : State} (law : s.ModuleStatesDerived) (id : Byte) :
    (s.setModuleState id (derivedState (s.phasesOf id))).ModuleStatesDerived := by
  rw [moduleStatesDerived_iff] at law ⊢
  intro m hm
  refine (settled_congr (s := s) rfl m).mpr ?_
  rcases mem_setModuleState hm with ⟨rfl, state⟩ | ⟨_, old⟩
  · exact fun _ => state
  · exact law m old

/-- After one module has been settled, a record agrees with R30, or is one that was there before and not the one settled. -/
theorem mem_settleModule {s : State} {x m : ModuleRecord} (h : m ∈ (s.settleModule x).modules) :
    s.Settled m ∨ m ∈ s.modules ∧ m ≠ x := by
  unfold State.settleModule at h
  dsimp only at h
  split at h
  · rcases mem_setModuleState h with ⟨id, state⟩ | ⟨other, old⟩
    · exact Or.inl fun _ => by rw [state, id]
    · exact Or.inr ⟨old, fun e => other (e ▸ rfl)⟩
  · next agrees =>
    by_cases e : m = x
    · subst e
      exact Or.inl fun derived => Eq.symm (by simpa [derived] using agrees)
    · exact Or.inr ⟨h, e⟩

/-- Settling the modules of a list settles the table, where the records outside the list are settled. -/
theorem foldl_settleModule_derived (l : List ModuleRecord) : ∀ s : State, (∀ m ∈ s.modules, s.Settled m ∨ m ∈ l) →
    (l.foldl State.settleModule s).ModuleStatesDerived := by
  induction l with
  | nil =>
    intro s h
    exact (moduleStatesDerived_iff s).mpr fun m hm => (h m hm).resolve_right List.not_mem_nil
  | cons x l ih =>
    intro s h
    refine ih (s.settleModule x) fun m hm => ?_
    rw [settled_congr (settleModule_refs s x)]
    rcases mem_settleModule hm with settled | ⟨old, other⟩
    · exact Or.inl settled
    · exact (h m old).imp_right fun hl => (List.mem_cons.mp hl).resolve_left other

/-- Whatever an event has done, settling the modules brings the table into agreement with R30. -/
theorem settleModules_derived (s : State) : s.settleModules.ModuleStatesDerived :=
  foldl_settleModule_derived s.modules s fun _ hm => Or.inr hm

/-! ## Operations that leave references and module records -/

/-- The references and the module records are as they were. -/
structure State.LinksKept (s t : State) : Prop where
  refs : t.refs = s.refs
  modules : t.modules = s.modules

theorem State.LinksKept.refl (s : State) : s.LinksKept s := ⟨rfl, rfl⟩

theorem State.LinksKept.trans {s t u : State} (h : s.LinksKept t) (k : t.LinksKept u) : s.LinksKept u :=
  ⟨k.refs.trans h.refs, k.modules.trans h.modules⟩

theorem State.LinksKept.law {s t : State} (h : s.LinksKept t) (law : s.ModuleStatesDerived) : t.ModuleStatesDerived :=
  law.congr h.refs h.modules

theorem post_links (s : State) (x : Notice) : s.LinksKept (s.post x) := ⟨rfl, rfl⟩

theorem endCommand_links (s : State) (tag : Half) (st : Status) (d : Nat) : s.LinksKept (s.endCommand tag st d) :=
  ⟨rfl, rfl⟩

theorem endFetch_links (s : State) : s.LinksKept s.endFetch := ⟨rfl, rfl⟩

theorem served_links (s : State) (c : Claimant) : s.LinksKept (s.served c) := ⟨rfl, rfl⟩

theorem settleAgent_links (s : State) : s.LinksKept s.settleAgent := ⟨rfl, rfl⟩


theorem setRecord_links (s : State) (x : Option TakenRecord) : s.LinksKept (s.setRecord x) := ⟨rfl, rfl⟩

theorem openWindow_links (s : State) (bits : List Bool) (a : Arrival) : s.LinksKept (s.openWindow bits a) := ⟨rfl, rfl⟩

theorem forTransfers_links (s : State) (env : Env) : s.LinksKept (s.forTransfers env) := ⟨rfl, rfl⟩

theorem hear_links (s : State) (f : Frame) : s.LinksKept (s.hear f) := ⟨rfl, rfl⟩

theorem cutFromBus_links (s : State) : s.LinksKept s.cutFromBus := ⟨rfl, rfl⟩

theorem dropTransfer_links (s : State) : s.LinksKept s.dropTransfer := by
  unfold State.dropTransfer
  split <;> exact ⟨rfl, rfl⟩

/-! ### Room on the transmit queue -/

theorem grantSlot_links (s : State) (k : Nat) : s.LinksKept (s.grantSlot k) := by
  unfold State.grantSlot
  split <;> exact ⟨rfl, rfl⟩

theorem grantCommand_links (s : State) : s.LinksKept s.grantCommand := by
  unfold State.grantCommand
  split <;> exact ⟨rfl, rfl⟩

theorem grantRounds_links (n : Nat) : ∀ (order : List Bool) (s : State), s.LinksKept (s.grantRounds n order) := by
  induction n with
  | zero => exact fun _ s => .refl s
  | succ n ih =>
    intro order s
    unfold State.grantRounds
    split
    · exact .refl s
    · split
      · split
        · exact (grantCommand_links s).trans (ih _ _)
        · exact (grantSlot_links s _).trans (ih _ _)
        · exact (grantSlot_links s _).trans (ih _ _)
      · split
        · exact .refl s
        · exact (grantCommand_links s).trans (ih _ _)

theorem arbitrate_links (s : State) (order : List Bool) : s.LinksKept (s.arbitrate order) := by
  unfold State.arbitrate
  split
  · exact ⟨rfl, rfl⟩
  · exact grantRounds_links _ _ s

/-- The end of an event leaves the law, from whatever state (R31). -/
theorem endEvent_derived (s before : State) (order : List Bool) : (s.endEvent before order).ModuleStatesDerived :=
  (arbitrate_links _ order).law (settleModules_derived _)

theorem dropHeads_links (n : Nat) : ∀ s : State, s.LinksKept (State.dropHeads n s) := by
  induction n with
  | zero => exact fun s => .refl s
  | succ n ih =>
    intro s
    unfold State.dropHeads
    split
    · exact .refl s
    · next rest _ =>
      split
      · exact .refl s
      · have dropped : s.LinksKept { s with txQueue := rest } := ⟨rfl, rfl⟩
        exact (dropped.trans (arbitrate_links _ _)).trans (ih _)

theorem beginFrame_links (s : State) : s.LinksKept s.beginFrame := by
  unfold State.beginFrame
  split
  · split <;> exact ⟨rfl, rfl⟩
  · dsimp only
    split
    · exact dropHeads_links _ s
    · exact (dropHeads_links _ s).trans ⟨rfl, rfl⟩

theorem leaveSource_links (s : State) (source : Source) : s.LinksKept (s.leaveSource source) := by
  cases source with
  | queue =>
    have left : s.LinksKept { s with txQueue := s.txQueue.tail } := ⟨rfl, rfl⟩
    exact left.trans (arbitrate_links _ _)
  | answer o => exact ⟨rfl, rfl⟩

/-! ### SEEKs -/

theorem meetSeek_links (s : State) (k : Key) : s.LinksKept (s.meetSeek k) := by
  unfold State.meetSeek State.oweOffer
  split
  · exact .refl s
  · split
    · split <;> exact ⟨rfl, rfl⟩
    · exact .refl s
    · exact .refl s
    · exact .refl s

theorem enterOut_links (s : State) (k : Key) : s.LinksKept (s.enterOut k) := by
  unfold State.enterOut
  split
  · exact .refl s
  · split
    · split <;> exact ⟨rfl, rfl⟩
    · exact .refl s

/-! ### Transfers -/

theorem writeWords_links (env : Env) (ws : List Word) : ∀ (k a : Nat) (s : State),
    s.LinksKept (State.writeWords env k a ws s).1 := by
  induction ws with
  | nil => exact fun _ _ s => .refl s
  | cons w ws ih =>
    intro k a s
    unfold State.writeWords
    split
    · have written : s.LinksKept { s with mem := s.mem.setWord a w } := ⟨rfl, rfl⟩
      exact written.trans (ih _ _ _)
    · exact ⟨rfl, rfl⟩

theorem makeTransfer_links (s : State) (env : Env) (x : SiteTransfer) : s.LinksKept (s.makeTransfer env x).1 := by
  unfold State.makeTransfer
  dsimp only
  split
  · split <;> exact ⟨rfl, rfl⟩
  · split
    · split <;> exact ⟨rfl, rfl⟩
    · exact .refl s

theorem afterRecord_links (s : State) (tag : Half) (sel : Selector) (m : Byte) (buffer capacity written : Nat) :
    s.LinksKept (s.afterRecord tag sel m buffer capacity written) := by
  unfold State.afterRecord
  split
  · exact endCommand_links ..
  · split
    · exact endCommand_links ..
    · exact ⟨rfl, rfl⟩

theorem writeRecord_links (s : State) (env : Env) : s.LinksKept (s.writeRecord env) := by
  unfold State.writeRecord
  split
  · split
    · exact endCommand_links ..
    · next tag sel m buffer capacity n _ _ x _ =>
      have written := writeWords_links env (wordsNow env (x.words.drop x.written))
        0 (buffer + (n * sel.recordSize + 4 * x.written)) s
      dsimp only
      split
      · next e =>
        rw [e] at written
        exact written.trans ((endCommand_links ..).trans (setRecord_links ..))
      · next e =>
        rw [e] at written
        split
        · exact written.trans (setRecord_links ..)
        · exact written.trans ((setRecord_links ..).trans (afterRecord_links ..))
  · exact .refl s

theorem takeRecord_links (s : State) : s.LinksKept s.takeRecord := by
  unfold State.takeRecord
  split
  · exact setRecord_links ..
  · exact .refl s

theorem writeNotice_links (s : State) (env : Env) (r : Ring) (x : Reserved) : s.LinksKept (s.writeNotice env r x) := by
  have written := writeWords_links env (wordsNow env (s.noticeLeft x)) 0 (s.noticePlace r x) s
  unfold State.writeNotice
  dsimp only
  split
  · next e =>
    rw [e] at written
    exact written.trans ⟨rfl, rfl⟩
  · next e =>
    rw [e] at written
    split <;> exact written.trans ⟨rfl, rfl⟩

/-! ### The line and the end of START and STOP -/

theorem completeStop_links (s : State) : s.LinksKept s.completeStop := by
  unfold State.completeStop
  split <;> exact ⟨rfl, rfl⟩

theorem countHold_links (s : State) : s.LinksKept s.countHold := by
  unfold State.countHold
  split
  · exact .refl s
  · dsimp only
    split <;> exact ⟨rfl, rfl⟩

theorem windowHeld_links (s : State) (w : Window) : s.LinksKept (s.windowHeld w) := by
  have held : s.LinksKept { s with held := some (heldRecordAfter s.held w), line := .quiet } := ⟨rfl, rfl⟩
  unfold State.windowHeld
  dsimp only
  split
  · exact held.trans (countHold_links _)
  · exact held

theorem windowCarried_links (s : State) (w : Window) : s.LinksKept (s.windowCarried w) := by
  have carried : s.LinksKept { s with held := none, line := .quiet, busSeen := true, outgoing := none } := ⟨rfl, rfl⟩
  unfold State.windowCarried
  dsimp only
  split
  · split
    · exact carried.trans ((completeStop_links _).trans (settleAgent_links _))
    · exact carried
  · exact ⟨rfl, rfl⟩

theorem ownLeave_links (s : State) : s.LinksKept s.ownLeave := by
  unfold State.ownLeave
  split
  · have left : s.LinksKept { s with peers := List.replicate 16 Peer.absent, station := .configured } := ⟨rfl, rfl⟩
    dsimp only
    split
    · exact left.trans (completeStop_links _)
    · exact left
  · exact .refl s

theorem ownJoin_links (s : State) : s.LinksKept s.ownJoin := by
  unfold State.ownJoin
  split
  · dsimp only
    split <;> exact ⟨rfl, rfl⟩
  · exact .refl s

theorem startJoining_links (s : State) (tag : Half) : s.LinksKept (s.startJoining tag) := by
  have begun : s.LinksKept { s with station := .joining, busSeen := false, command := some (.start tag), wanted := [.join] } :=
    ⟨rfl, rfl⟩
  exact begun.trans (arbitrate_links _ _)

theorem stopLeaving_links (s : State) (tag : Half) : s.LinksKept (s.stopLeaving tag) := by
  unfold State.stopLeaving
  split
  · exact endCommand_links ..
  · have begun : s.LinksKept { s with station := .leaving, command := some (.stop tag), wanted := [.leave] } := ⟨rfl, rfl⟩
    exact begun.trans (arbitrate_links _ _)

/-! ### Other commands, and the local port -/

theorem submit_links (s : State) (value : Word) : s.LinksKept (s.submit value) := by
  unfold State.submit
  split
  · exact ⟨rfl, rfl⟩
  · split <;> exact ⟨rfl, rfl⟩

theorem configure_links (s : State) (tag : Half) (words : List Word) : s.LinksKept (s.configure tag words) := by
  unfold State.configure
  split <;> exact ⟨rfl, rfl⟩

theorem beginReport_links (s : State) (tag : Half) (words : List Word) : s.LinksKept (s.beginReport tag words) := by
  unfold State.beginReport
  split
  · exact endCommand_links ..
  · split
    · split <;> exact ⟨rfl, rfl⟩
    · exact .refl s

theorem enterExport_links (s : State) (x : ExportRecord) : s.LinksKept (s.enterExport x) := by
  unfold State.enterExport
  split <;> exact ⟨rfl, rfl⟩

theorem commitPause_links {s t : State} {env : Env} (h : s.commitPause env = some t) : s.LinksKept t := by
  unfold State.commitPause at h
  split at h
  · split at h
    · cases h
      exact ⟨rfl, rfl⟩
    · cases h
  · cases h

/-! ## Operations that change the module table -/

theorem resetWith_derived (s : State) (n : Station) (cut : Cut) : (s.resetWith n cut).ModuleStatesDerived :=
  moduleStatesDerived_of_empty rfl

/-- Setting the LOADING record of a first pass aside keeps the law. -/
theorem forReading_derived {s : State} (law : s.ModuleStatesDerived) (env : Env) : (s.forReading env).ModuleStatesDerived :=
  law.filter _ rfl rfl

theorem withoutLoading_derived {s : State} (law : s.ModuleStatesDerived) : s.withoutLoading.ModuleStatesDerived :=
  law.filter _ rfl rfl

/-- A first pass left between two words adds its LOADING record, or none (R13, R17). -/
theorem leaveHead_derived {s : State} (law : s.ModuleStatesDerived) (env : Env) (words : List Word) :
    (s.leaveHead env words).ModuleStatesDerived := by
  unfold State.leaveHead
  dsimp only
  split
  · split
    · exact law.append_loading (x := loadingRecord _ _) rfl rfl rfl
    · exact law.congr rfl rfl
  · exact law.congr rfl rfl

/-- The record that a pass answers satisfies what each record its last part answers does. -/
theorem ok_of_bind {α β : Type} {x : Except Ending α} {f : α → Except Ending β} {P : β → Prop}
    (h : ∀ a b, f a = .ok b → P b) : ∀ b, (x >>= f) = .ok b → P b := by
  intro b hb
  cases x with
  | error e => cases hb
  | ok a => exact h a b hb

/-- A first pass without a fault answers a LOADING record (R17). -/
theorem firstPass_loading (s : State) (r : Reading) (address : Word) :
    ∀ m, s.firstPass r address = .ok m → m.state = .loading := by
  unfold State.firstPass
  repeat refine ok_of_bind fun _ => ?_
  rintro m ⟨⟩
  rfl

theorem loadFirstPass_loading {s : State} {env : Env} {words : List Word} {m : ModuleRecord}
    (h : s.loadFirstPass env words = .ok m) : m.state = .loading := by
  unfold State.loadFirstPass at h
  dsimp only at h
  split at h
  · cases h
  · exact firstPass_loading _ _ _ m h

theorem beginLoad_derived {s : State} (law : s.ModuleStatesDerived) (env : Env) (tag : Half) (words : List Word) :
    (s.beginLoad env tag words).ModuleStatesDerived := by
  unfold State.beginLoad
  split
  · exact (endCommand_links ..).law law
  · next pass => exact law.append_loading (loadFirstPass_loading pass) rfl rfl

/-- The end of a removal takes records out, or does nothing (R35). -/
theorem finishRemoval_derived {s : State} (law : s.ModuleStatesDerived) : s.finishRemoval.ModuleStatesDerived := by
  have removed : ∀ m, (s.removeModule m).ModuleStatesDerived := fun m => law.filter _ rfl rfl
  unfold State.finishRemoval
  split
  · split
    · exact (endCommand_links ..).law (removed _)
    · exact law
  · split
    · exact (endCommand_links ..).law (removed _)
    · exact law
  · exact law

/-! ## Commands at the head of the command queue -/

/-- A command at the head keeps the law where its body does. -/
theorem runHead_derived {s : State} (law : s.ModuleStatesDerived) (kind : Option CommandKind) (env : Env)
    {body : Half → List Word → State → State}
    (kept : ∀ tag words t, t.ModuleStatesDerived → (body tag words t).ModuleStatesDerived) :
    (s.runHead kind env body).ModuleStatesDerived := by
  have read := forReading_derived law (s.runEnv .commandEngine env)
  have done : ∀ {t : State}, t.ModuleStatesDerived → (t.endFetch.served .commandEngine).ModuleStatesDerived := fun h =>
    ((endFetch_links _).trans (served_links _ _)).law h
  unfold State.runHead
  split
  · dsimp only
    split
    · split
      · exact (served_links _ _).law (leaveHead_derived read _ _)
      · exact law
    · split
      · exact law
      · split
        · exact done ((endCommand_links ..).law read)
        · exact law
      · split
        · exact done (kept _ _ _ read)
        · exact law
  · exact law

theorem runCommand_derived {s : State} (law : s.ModuleStatesDerived) (kind : CommandKind) (env : Env)
    {body : Half → List Word → State → State}
    (kept : ∀ tag words t, t.ModuleStatesDerived → (body tag words t).ModuleStatesDerived) :
    (s.runCommand kind env body).ModuleStatesDerived :=
  runHead_derived law _ env fun tag words t h => by
    split
    · exact kept tag words t h
    · exact (endCommand_links ..).law h

theorem unloadModule_derived {s : State} (law : s.ModuleStatesDerived) (env : Env) (tag : Half) (words : List Word) :
    (s.unloadModule env tag words).ModuleStatesDerived := by
  unfold State.unloadModule
  dsimp only
  split
  · exact (endCommand_links ..).law law
  · exact finishRemoval_derived (endEvent_derived _ _ _)

theorem reseekModules_derived {s : State} (law : s.ModuleStatesDerived) (tag : Half) (words : List Word) :
    (s.reseekModules tag words).ModuleStatesDerived := by
  unfold State.reseekModules
  dsimp only
  split
  · exact (endCommand_links ..).law law
  · exact (endCommand_links ..).law (endEvent_derived _ _ _)

/-! ## The commit pass -/

theorem takeOut_derived {s : State} (law : s.ModuleStatesDerived) (env : Env) (e : Ending) :
    (s.takeOut env e).ModuleStatesDerived := by
  unfold State.takeOut
  split
  · exact finishRemoval_derived (endEvent_derived _ _ _)
  · exact law

theorem commitFault_derived {s : State} (law : s.ModuleStatesDerived) (env : Env) (e : Ending) :
    (s.commitFault env e).ModuleStatesDerived :=
  (served_links _ _).law (takeOut_derived law env e)

/-- The reading of a record keeps the law where what is done with the record, or with its fault, does. -/
theorem readRecord_derived {s : State} (law : s.ModuleStatesDerived) (env : Env) {onRecord : CommitItem → State → State}
    {onFault : Ending → State → State}
    (record : ∀ item t, t.ModuleStatesDerived → (onRecord item t).ModuleStatesDerived)
    (fault : ∀ e t, t.ModuleStatesDerived → (onFault e t).ModuleStatesDerived) :
    (s.readRecord env onRecord onFault).ModuleStatesDerived := by
  have read : (s.forTransfers env).endFetch.ModuleStatesDerived := ((forTransfers_links _ _).trans (endFetch_links _)).law law
  unfold State.readRecord
  split
  · dsimp only
    split
    · exact law
    · exact record _ _ read
    · exact fault _ _ read
  · exact law

theorem commitStep_derived {s : State} (law : s.ModuleStatesDerived) (env : Env) {onPause : State → State}
    {onRecord : CommitItem → State → State} {onFault : Ending → State → State}
    (pause : ∀ t, t.ModuleStatesDerived → (onPause t).ModuleStatesDerived)
    (record : ∀ item t, t.ModuleStatesDerived → (onRecord item t).ModuleStatesDerived)
    (fault : ∀ e t, t.ModuleStatesDerived → (onFault e t).ModuleStatesDerived) :
    (s.commitStep env onPause onRecord onFault).ModuleStatesDerived := by
  unfold State.commitStep
  split
  · next left =>
    split
    · exact pause _ (((forTransfers_links _ _).trans (commitPause_links left)).law law)
    · exact law
  · exact readRecord_derived law env record fault

/-! ## Isolation and the peer table -/

theorem abandonModule_derived (s : State) (tag : Half) (m : Byte) (begun : Bool) :
    (s.abandonModule tag m begun).ModuleStatesDerived :=
  ((endCommand_links ..).trans (endFetch_links _)).law (endEvent_derived _ s [])

theorem isolate_derived {s : State} (law : s.ModuleStatesDerived) (begun : Bool) : (s.isolate begun).ModuleStatesDerived := by
  have cut : (s.cutFromBus.post .stationIsolated).ModuleStatesDerived :=
    ((cutFromBus_links s).trans (post_links _ _)).law law
  unfold State.isolate
  dsimp only
  split
  · exact (dropTransfer_links _).law (abandonModule_derived _ _ _ _)
  · exact (dropTransfer_links _).law (abandonModule_derived _ _ _ _)
  · exact (dropTransfer_links _).law (abandonModule_derived _ _ _ _)
  · exact ((endCommand_links ..).trans (dropTransfer_links _)).law cut
  · exact ((endCommand_links ..).trans (dropTransfer_links _)).law cut
  · exact (settleAgent_links _).law cut
  · split
    · exact ((endCommand_links ..).trans ((endFetch_links _).trans (dropTransfer_links _))).law (withoutLoading_derived cut)
    · exact (settleAgent_links _).law cut

theorem arrive_derived {s : State} (law : s.ModuleStatesDerived) (bits : List Bool) (begun : Bool) :
    (s.arrive bits begun).ModuleStatesDerived := by
  unfold State.arrive
  split
  · exact (openWindow_links ..).law law
  · split
    · exact isolate_derived law begun
    · split
      · exact (openWindow_links ..).law law
      · split
        · exact (openWindow_links ..).law law
        · split
          · exact (openWindow_links ..).law law
          · exact law.congr rfl rfl

theorem lapseReservation_derived {s : State} (law : s.ModuleStatesDerived) (begun : Bool) :
    (s.lapseReservation begun).ModuleStatesDerived := by
  have free : ({ s with held := none, busSeen := true } : State).ModuleStatesDerived := law.congr rfl rfl
  unfold State.lapseReservation
  dsimp only
  split
  · exact free
  · split
    · exact isolate_derived free begun
    · split
      · exact free
      · exact free.congr rfl rfl

theorem departs_derived {s : State} (law : s.ModuleStatesDerived) (n : Station) (cause : PeerLoss) :
    (s.departs n cause).ModuleStatesDerived := by
  unfold State.departs
  split
  · exact endEvent_derived _ _ _
  · exact law

/-! ## Timers, walks and the agent's timeout -/

theorem expire_derived {s : State} (law : s.ModuleStatesDerived) (n : Nat) (x : Slot) (c : ConfigRecord) :
    (s.expire n x c).ModuleStatesDerived := by
  unfold State.expire
  split
  · have sending : s.LinksKept (s.enterToSend n x.key (x.tries + 1)) := ⟨rfl, rfl⟩
    exact (sending.trans (arbitrate_links _ _)).law law
  · exact endEvent_derived _ _ _

theorem endTransfer_derived {s : State} (law : s.ModuleStatesDerived) (env : Env) (x : SiteTransfer) :
    (s.endTransfer env x).ModuleStatesDerived := by
  unfold State.endTransfer
  dsimp only
  split
  · exact ((makeTransfer_links s env x).law law).congr rfl rfl
  · exact endEvent_derived _ _ _

theorem timeoutAtHead_derived {s : State} (law : s.ModuleStatesDerived) (env : Env) :
    (s.timeoutAtHead env).ModuleStatesDerived := by
  unfold State.timeoutAtHead
  dsimp only
  split
  · exact ((endCommand_links ..).trans ((endFetch_links _).trans (served_links _ _))).law (forReading_derived law env)
  · exact law

theorem timeoutInReport_derived {s : State} (law : s.ModuleStatesDerived) (env : Env) :
    (s.timeoutInReport env).ModuleStatesDerived := by
  unfold State.timeoutInReport
  dsimp only
  split
  · split
    · split
      · exact ((forTransfers_links _ _).trans ((writeRecord_links _ _).trans (served_links _ _))).law law
      · exact law
    · exact law
  · exact law

theorem commandTimeout_derived {s : State} (law : s.ModuleStatesDerived) (env : Env) :
    (s.commandTimeout env).ModuleStatesDerived := by
  unfold State.commandTimeout
  split
  · exact law
  · split
    · exact timeoutAtHead_derived law env
    · split
      · exact timeoutInReport_derived law env
      · refine readRecord_derived law env (fun _ _ _ => law) fun e t h => ?_
        split
        · exact commitFault_derived h env e
        · exact law

theorem patchTimeout_derived {s : State} (law : s.ModuleStatesDerived) (env : Env) :
    (s.patchTimeout env).ModuleStatesDerived := by
  unfold State.patchTimeout
  split
  · dsimp only
    split
    · exact (served_links _ _).law (endTransfer_derived ((forTransfers_links _ _).law law) env _)
    · exact law
  · exact law

theorem noticeTimeout_derived {s : State} (law : s.ModuleStatesDerived) (env : Env) :
    (s.noticeTimeout env).ModuleStatesDerived := by
  unfold State.noticeTimeout
  split
  · dsimp only
    split
    · exact ((forTransfers_links _ _).trans ((writeNotice_links ..).trans (served_links _ _))).law law
    · exact law
  · exact law

/-! ## The rows -/

/-- The next state that a meaning answers, if it answers one, keeps the law. -/
def AnswersDerived (a : StepAnswer) : Prop :=
  ∀ t, a = .next t → t.ModuleStatesDerived

theorem AnswersDerived.next {t : State} (h : t.ModuleStatesDerived) : AnswersDerived (.next t) := by
  rintro _ ⟨⟩
  exact h

/-! ### The local port -/

theorem windowWrite_derived {s : State} (law : s.ModuleStatesDerived) {f : State → State} (h : (f s).ModuleStatesDerived) :
    (s.windowWrite f).ModuleStatesDerived := by
  unfold State.windowWrite
  split
  · exact law
  · exact h

theorem writePctl_derived {s : State} (law : s.ModuleStatesDerived) (value : Word) (cut : Cut) :
    (s.writePctl value cut).ModuleStatesDerived := by
  unfold State.writePctl
  split
  · exact resetWith_derived s s.number cut
  · exact law.congr rfl rfl

/-! ### Later steps of LOAD and REPORT -/

theorem execLoadCommitExport_derived {s : State} (law : s.ModuleStatesDerived) (env : Env) :
    AnswersDerived (execLoadCommitExport env s) := by
  refine .next ?_
  split
  · refine commitStep_derived law env (fun t h => (served_links t _).law h) (fun item t h => ?_) fun e t h =>
      commitFault_derived h env e
    cases item with
    | exported x => exact ((enterExport_links t x).trans ((arbitrate_links _ _).trans (served_links _ _))).law h
    | imported x => exact law
  · exact law

theorem execLoadCommitImport_derived {s : State} (law : s.ModuleStatesDerived) (env : Env) :
    AnswersDerived (execLoadCommitImport env s) := by
  refine .next ?_
  split
  · exact law
  · refine commitStep_derived law env (fun t h => (served_links t _).law h) (fun item t _ => ?_) fun e t h =>
      commitFault_derived h env e
    cases item with
    | exported x => exact law
    | imported x => exact (served_links _ _).law (endEvent_derived _ _ _)

theorem execLoadCommitEnd_derived {s : State} (law : s.ModuleStatesDerived) : AnswersDerived (execLoadCommitEnd s) := by
  refine .next ?_
  split
  · split
    · exact ((post_links _ _).trans ((endCommand_links ..).trans (settleAgent_links _))).law (setModuleState_derived law _)
    · exact law
  · exact law

theorem execLoadCommitFault_derived {s : State} (law : s.ModuleStatesDerived) (env : Env) :
    AnswersDerived (execLoadCommitFault env s) :=
  .next (commitStep_derived law env (fun _ _ => law) (fun _ _ _ => law) fun e _ h => commitFault_derived h env e)

theorem execReportRecordWrite_derived {s : State} (law : s.ModuleStatesDerived) (env : Env) :
    AnswersDerived (execReportRecordWrite env s) := by
  refine .next ?_
  split
  · exact law
  · split
    · exact (takeRecord_links s).law law
    · split
      · exact ((writeRecord_links _ _).trans (settleAgent_links _)).law law
      · split
        · exact ((forTransfers_links _ _).trans ((writeRecord_links _ _).trans (served_links _ _))).law law
        · exact law

/-! ### The line -/

theorem execFrameBegin_derived {s : State} (law : s.ModuleStatesDerived) (idle : Nat) :
    AnswersDerived (execFrameBegin idle s) := by
  refine .next ?_
  split
  · exact ((beginFrame_links s).trans (settleAgent_links _)).law law
  · exact law

theorem execContentionLost_derived {s : State} (law : s.ModuleStatesDerived) (bit : Nat) :
    AnswersDerived (execContentionLost bit s) := by
  refine .next ?_
  split
  · split
    · exact law.congr rfl rfl
    · exact law
  · exact law
  · exact law
  · exact law

theorem execContentionWon_derived {s : State} (law : s.ModuleStatesDerived) : AnswersDerived (execContentionWon s) := by
  refine .next ?_
  split
  · next source f _ =>
    split
    · exact law
    · have won : s.LinksKept { s with
          line := .sending
          outgoing := some { frame := f, holds := 0, stalled := false }
          nextSequence := s.nextSequence + 1 } := ⟨rfl, rfl⟩
      exact (won.trans ((leaveSource_links _ source).trans (settleAgent_links _))).law law
  · exact law
  · exact law
  · exact law

theorem execSenderBitMismatch_derived {s : State} (law : s.ModuleStatesDerived) (pos : Nat) :
    AnswersDerived (execSenderBitMismatch pos s) := by
  refine .next ?_
  split
  · split
    · exact law.congr rfl rfl
    · exact law
  · exact law

theorem execFrameCutOff_derived {s : State} (law : s.ModuleStatesDerived) (bits : List Bool) (quiet : Nat) :
    AnswersDerived (execFrameCutOff bits quiet s) := by
  refine .next ?_
  split
  · exact (openWindow_links ..).law law
  · exact law

theorem execFrameArrival_derived {s : State} (law : s.ModuleStatesDerived) (bits : List Bool) (begun : Bool) :
    AnswersDerived (execFrameArrival bits begun s) := by
  refine .next ?_
  split
  · exact arrive_derived law bits begun
  · exact law

theorem execHoldWindowEnd_derived {s : State} (law : s.ModuleStatesDerived) (othersPull : Bool) :
    AnswersDerived (execHoldWindowEnd othersPull s) := by
  refine .next ?_
  split
  · split
    · exact law
    · split
      · exact (windowHeld_links s _).law law
      · exact (windowCarried_links s _).law law
  · exact law
  · exact law
  · exact law

theorem execRepeatFrame_derived {s : State} (law : s.ModuleStatesDerived) (idle : Nat) :
    AnswersDerived (execRepeatFrame idle s) := by
  refine .next ?_
  split
  · split
    · exact law.congr rfl rfl
    · exact law
  · exact law

theorem execReservationLapse_derived {s : State} (law : s.ModuleStatesDerived) (idle : Nat) (begun : Bool) :
    AnswersDerived (execReservationLapse idle begun s) := by
  refine .next ?_
  split
  · exact lapseReservation_derived law begun
  · exact law

/-! ### Receive processing -/

/-- A frame taken keeps the law where its application does. -/
theorem takeFrame_derived {s : State} (law : s.ModuleStatesDerived) (mine : Frame → Bool) {f : Frame → State → State}
    (kept : ∀ x t, t.ModuleStatesDerived → (f x t).ModuleStatesDerived) : (s.takeFrame mine f).ModuleStatesDerived := by
  unfold State.takeFrame
  split
  · split
    · exact (settleAgent_links _).law (kept _ _ (law.congr rfl rfl))
    · exact law
  · exact law
  · exact law

theorem execLapse_derived {s : State} (law : s.ModuleStatesDerived) : AnswersDerived (execLapse s) := by
  refine .next ?_
  split
  · next n rest _ =>
    have taken : ({ s with rxQueue := rest } : State).ModuleStatesDerived := law.congr rfl rfl
    split
    · exact (settleAgent_links _).law (departs_derived taken n .lapse)
    · exact law
  · exact law
  · exact law

theorem execSeekTaken_derived {s : State} (law : s.ModuleStatesDerived) : AnswersDerived (execSeekTaken s) := by
  refine .next (takeFrame_derived law _ fun f t h => ?_)
  split
  · exact ((hear_links t f).trans ((meetSeek_links _ _).trans ((enterOut_links _ _).trans (arbitrate_links _ _)))).law h
  · exact law

theorem execOwnSeekTaken_derived {s : State} (law : s.ModuleStatesDerived) : AnswersDerived (execOwnSeekTaken s) := by
  refine .next (takeFrame_derived law _ fun f t h => ?_)
  split
  · exact ((hear_links t f).trans ((enterOut_links _ _).trans (arbitrate_links _ _))).law h
  · exact law

theorem execOwnWithdrawTaken_derived {s : State} (law : s.ModuleStatesDerived) :
    AnswersDerived (execOwnWithdrawTaken s) := by
  refine .next (takeFrame_derived law _ fun f t _ => ?_)
  split
  · exact finishRemoval_derived (endEvent_derived _ _ _)
  · exact law

theorem execJoinTaken_derived {s : State} (law : s.ModuleStatesDerived) : AnswersDerived (execJoinTaken s) := by
  refine .next (takeFrame_derived law _ fun f t h => ?_)
  split
  · exact endEvent_derived _ _ _
  · exact (hear_links t f).law h

/-! ### Timers, the Patch Engine, the Notice Unit, the memory agent -/

theorem execSeekTimerExpiry_derived {s : State} (law : s.ModuleStatesDerived) (slot elapsed : Nat) :
    AnswersDerived (execSeekTimerExpiry slot elapsed s) := by
  refine .next ?_
  split
  · split
    · exact (settleAgent_links _).law (expire_derived law _ _ _)
    · exact law
  · exact law

theorem execWalkBegin_derived {s : State} (law : s.ModuleStatesDerived) : AnswersDerived (execWalkBegin s) := by
  refine .next ?_
  split
  · exact law
  · split
    · exact law
    · split
      · exact law
      · exact (settleAgent_links _).law (endEvent_derived _ _ _)

theorem execSiteWriteDone_derived {s : State} (law : s.ModuleStatesDerived) (env : Env) :
    AnswersDerived (execSiteWriteDone env s) := by
  refine .next ?_
  split
  · split
    · exact (served_links _ _).law (endTransfer_derived ((forTransfers_links _ _).law law) env _)
    · exact law
  · exact law

theorem execMemoryAckTimeout_derived {s : State} (law : s.ModuleStatesDerived) (claimant : Claimant) (env : Env) :
    AnswersDerived (execMemoryAckTimeout claimant env s) := by
  refine .next ?_
  cases claimant with
  | commandEngine => exact commandTimeout_derived law _
  | patchEngine => exact patchTimeout_derived law _
  | noticeUnit => exact noticeTimeout_derived law _

theorem execNoticeWriteDone_derived {s : State} (law : s.ModuleStatesDerived) (env : Env) :
    AnswersDerived (execNoticeWriteDone env s) := by
  refine .next ?_
  split
  · split
    · exact ((forTransfers_links _ _).trans ((writeNotice_links ..).trans (served_links _ _))).law law
    · exact law
  · exact law

/-! ## Every step -/

/-- Every command keeps the law (R30). -/
theorem exec_derived {s : State} (law : s.ModuleStatesDerived) (c : Instr) : AnswersDerived (exec c s) := by
  cases c with
  | pinReset straps cut => exact .next (resetWith_derived s _ cut)
  | portReset value cut => exact .next (windowWrite_derived law (writePctl_derived law value cut))
  | interruptEnableWrite value => exact .next (windowWrite_derived law (writePctl_derived law value {}))
  | submission value =>
    exact .next (windowWrite_derived law (((submit_links s value).trans (settleAgent_links _)).law law))
  | nconsWrite value => exact .next (windowWrite_derived law (law.congr rfl rfl))
  | istatWrite value => exact .next (windowWrite_derived law (law.congr rfl rfl))
  | ignoredRegisterWrite offset width value => exact .next law
  | unknownCommandCode env =>
    exact .next (runHead_derived law _ env fun _ _ _ h => (endCommand_links ..).law h)
  | configure env => exact .next (runCommand_derived law _ env fun _ _ _ h => (configure_links ..).law h)
  | start env => exact .next (runCommand_derived law _ env fun _ _ _ h => (startJoining_links ..).law h)
  | stop env => exact .next (runCommand_derived law _ env fun _ _ _ h => (stopLeaving_links ..).law h)
  | load env => exact .next (runCommand_derived law _ env fun _ _ _ h => beginLoad_derived h env _ _)
  | loadCommitExport env => exact execLoadCommitExport_derived law env
  | loadCommitImport env => exact execLoadCommitImport_derived law env
  | loadCommitEnd => exact execLoadCommitEnd_derived law
  | loadCommitFault env => exact execLoadCommitFault_derived law env
  | unload env => exact .next (runCommand_derived law _ env fun _ _ _ h => unloadModule_derived h env _ _)
  | reseek env => exact .next (runCommand_derived law _ env fun _ _ _ h => reseekModules_derived h _ _)
  | report env => exact .next (runCommand_derived law _ env fun _ _ _ h => (beginReport_links ..).law h)
  | reportRecordWrite env => exact execReportRecordWrite_derived law env
  | frameBegin idle => exact execFrameBegin_derived law idle
  | contentionLost bit => exact execContentionLost_derived law bit
  | contentionWon => exact execContentionWon_derived law
  | senderBitMismatch pos => exact execSenderBitMismatch_derived law pos
  | frameCutOff bits quiet => exact execFrameCutOff_derived law bits quiet
  | frameArrival bits begun => exact execFrameArrival_derived law bits begun
  | holdWindowEnd othersPull => exact execHoldWindowEnd_derived law othersPull
  | repeatFrame idle => exact execRepeatFrame_derived law idle
  | reservationLapse idle begun => exact execReservationLapse_derived law idle begun
  | lapse => exact execLapse_derived law
  | seekTaken => exact execSeekTaken_derived law
  | ownSeekTaken => exact execOwnSeekTaken_derived law
  | offerTaken | announceTaken | ownAnnounceTaken | clashTaken | withdrawTaken =>
    refine .next (takeFrame_derived law _ fun _ _ _ => ?_)
    split
    · exact endEvent_derived _ _ _
    · exact law
  | ownWithdrawTaken => exact execOwnWithdrawTaken_derived law
  | leaveTaken => exact .next (takeFrame_derived law _ fun _ _ h => departs_derived h _ _)
  | ownLeaveTaken => exact .next (takeFrame_derived law _ fun _ t h => (ownLeave_links t).law h)
  | joinTaken => exact execJoinTaken_derived law
  | ownJoinTaken =>
    exact .next (takeFrame_derived law _ fun f t h => ((hear_links t f).trans (ownJoin_links _)).law h)
  | seekTimerExpiry slot elapsed => exact execSeekTimerExpiry_derived law slot elapsed
  | walkBegin => exact execWalkBegin_derived law
  | siteWriteDone env => exact execSiteWriteDone_derived law env
  | memoryAckTimeout claimant env => exact execMemoryAckTimeout_derived law claimant env
  | noticeWriteDone env => exact execNoticeWriteDone_derived law env
  | resetLow => exact .next (law.congr rfl rfl)

/-- Settles O15: each command keeps the law, and the queue of waiting commands is no part of it. -/
theorem moduleStatesDerivedKept : Obligations.ModuleStatesDerivedKept := by
  intro s t law h
  unfold step at h
  split at h
  · cases h
    exact law
  · next c rest _ =>
    have fetched : ({ s with pending := rest } : State).ModuleStatesDerived := law.congr rfl rfl
    exact exec_derived fetched c t h

end Sys2Proof.Machine

/-! Receive processing of the station's own SEEK (R71): the meaning is an entry of the key's slot into OUT followed by the
arbiter. What receive processing applies, what the slot's entry into OUT does, and which parts of the state the arbiter
leaves, are each said once as a rule of their own. -/

namespace Sys2Proof.Machine

/-! ## A frame at the head of the receive queue -/

/-- A frame of the row is applied to the state without it (R147). -/
theorem State.Takes.takeFrame {s : State} {f : Frame} {rest : List RxItem} (takes : s.Takes f rest) {mine : Frame → Bool}
    (isMine : mine f = true) (meaning : Frame → State → State) :
    s.takeFrame mine meaning = (meaning f { s with rxQueue := rest }).settleAgent := by
  rw [State.takeFrame, takes.head]
  exact if_pos (by rw [takes.onBus, isMine, Bool.and_self])

/-- An own frame marks the own station present, with the own group (R161). -/
theorem hear_own {s : State} {f : Frame} (own : f.sender = s.number) :
    s.hear f =
      { s with peers := s.peers.modify f.sender.val fun p => { p with present := true, group := s.ownGroup } } := by
  simp [State.hear, State.updatePeer, State.isOwn, own]

/-! ## A slot enters OUT -/

/-- Under the law of distinct keys the slot found for a key is the one that holds it (R68). -/
theorem slotOf_of_agrees {s : State} (keys : s.SlotKeysDistinct) {k : Key} {n : Nat} {x : Slot}
    (slot : s.slots[n]? = some (some x)) (agrees : x.key.agrees k = true) : s.slotOf k = some n := by
  cases found : s.slotOf k with
  | none =>
    have other := slotOf_eq_none found x (List.mem_of_getElem? slot)
    rw [agrees] at other
    cases other
  | some m =>
    obtain ⟨y, slot', agrees'⟩ := slotOf_eq_some found
    rw [keys m n y x slot' slot (Key.agrees_of_both agrees' agrees)]

/-- The slot found in TO-SEND enters OUT with its timer running, and asks no more for room. -/
theorem enterOut_of_toSend {s : State} {k : Key} {n : Nat} {x : Slot} (found : s.slotOf k = some n)
    (slot : s.slots[n]? = some (some x)) (state : x.state = .toSend) :
    s.enterOut k =
      { s with slots := s.slots.set n (some { x with state := .out, timer := true, awaitingRoom := false }) } := by
  simp only [State.enterOut, found, slot, state]

/-- With every slot of the key in OUT, or none, nothing changes. -/
theorem enterOut_of_noneToSend {s : State} {k : Key}
    (out : ∀ x, some x ∈ s.slots → x.key.agrees k = true → x.state = .out) : s.enterOut k = s := by
  cases found : s.slotOf k with
  | none => simp only [State.enterOut, found]
  | some n =>
    obtain ⟨x, slot, agrees⟩ := slotOf_eq_some found
    simp only [State.enterOut, found, slot, out x (List.mem_of_getElem? slot) agrees]

/-- An entry into OUT changes no table but the slots, and posts no notice. -/
theorem enterOut_tables (s : State) (k : Key) :
    (s.enterOut k).refs = s.refs ∧ (s.enterOut k).backlog = s.backlog ∧ (s.enterOut k).patchQueue = s.patchQueue ∧
    (s.enterOut k).modules = s.modules ∧ (s.enterOut k).notices = s.notices := by
  unfold State.enterOut
  split
  · exact ⟨rfl, rfl, rfl, rfl, rfl⟩
  · split
    · split <;> exact ⟨rfl, rfl, rfl, rfl, rfl⟩
    · exact ⟨rfl, rfl, rfl, rfl, rfl⟩

/-! ## What the end of an event leaves -/

/-- What each grant keeps, the rounds of granting keep. -/
theorem grantRounds_kept {α : Type} (f : State → α) (slot : ∀ s k, f (s.grantSlot k) = f s)
    (command : ∀ s, f s.grantCommand = f s) (n : Nat) :
    ∀ (order : List Bool) (s : State), f (s.grantRounds n order) = f s := by
  induction n with
  | zero => exact fun _ _ => rfl
  | succ n ih =>
    intro order s
    unfold State.grantRounds
    split
    · rfl
    · split
      · split
        · exact (ih _ _).trans (command s)
        · exact (ih _ _).trans (slot s _)
        · exact (ih _ _).trans (slot s _)
      · split
        · rfl
        · exact (ih _ _).trans (command s)

/-- The arbiter posts no notice. -/
theorem arbitrate_notices (s : State) (order : List Bool) : (s.arbitrate order).notices = s.notices := by
  have slot : ∀ (t : State) (k : Nat), (t.grantSlot k).notices = t.notices := fun t k => by
    unfold State.grantSlot
    split <;> rfl
  have command : ∀ t : State, t.grantCommand.notices = t.notices := fun t => by
    unfold State.grantCommand
    split <;> rfl
  unfold State.arbitrate
  split
  · rfl
  · exact grantRounds_kept State.notices slot command _ _ s

/-- The agent's grant at the end of an event is outside the frame. -/
theorem settleAgent_frame (s : State) : ReferenceFrame s s.settleAgent := by
  constructor <;> first | exact rfl | exact .of_eq rfl rfl rfl

/-! ## The own SEEK -/

/-- The own SEEK self-received: the sender is heard, the slot of the key enters OUT, and the event ends (R71). -/
theorem exec_ownSeekTaken {s : State} {f : Frame} {rest : List RxItem} {scope : Scope} {name : List Byte}
    (takes : s.Takes f rest) (own : f.sender = s.number) (seek : f.body = .seek scope name) :
    exec .ownSeekTaken s =
      .next (((({ s with
        rxQueue := rest
        peers := s.peers.modify f.sender.val fun p => { p with present := true, group := s.ownGroup } } : State).enterOut
          (f.key scope name)).arbitrate []).settleAgent) := by
  have named : f.body.seekName = some (scope, name) := by rw [seek]; rfl
  have heard := hear_own (s := { s with rxQueue := rest }) own
  rw [exec, execOwnSeekTaken, takes.takeFrame (by simp [State.isOwn, own, named])]
  simp only [named, heard]
  rfl

/-- Settles O46: apart from its requests for room the slot table at the end is the one the entry into OUT leaves. -/
theorem ownSeekTaken : Obligations.OwnSeekTaken := by
  intro s f rest scope name takes own seek key heard
  let u : State := { s with rxQueue := rest, peers := heard }
  obtain ⟨refs, backlog, patchQueue, modules, notices⟩ := enterOut_tables u key
  obtain ⟨refs', slots', backlog', patchQueue'⟩ := arbitrate_tables (u.enterOut key) []
  refine ⟨((u.enterOut key).arbitrate []).settleAgent, exec_ownSeekTaken takes own seek,
    (enterOut_frame u key).trans ((arbitrate_frame _ []).trans (settleAgent_frame _)),
    refs'.trans refs, backlog'.trans backlog, patchQueue'.trans patchQueue,
    (arbitrate_links _ []).modules.trans modules, (arbitrate_notices _ []).trans notices, ?toSend, ?out⟩
  case toSend =>
    intro keys n x slot agrees state
    have entered : u.enterOut key =
        { u with slots := s.slots.set n (some { x with state := .out, timer := true, awaitingRoom := false }) } :=
      enterOut_of_toSend (slotOf_of_agrees keys slot agrees) slot state
    refine slots'.trans ?_
    simp only [entered, State.slotsUnasked, List.map_set, Option.map_some, Slot.unasked]
  case out =>
    intro out
    have unchanged : u.enterOut key = u := enterOut_of_noneToSend out
    refine slots'.trans ?_
    simp only [unchanged, State.slotsUnasked, u]

end Sys2Proof.Machine

/-! The sites of the Patch Engine (R110 to R114). What a site transfer leaves of the containing word is said once, for every
form and every value (`newWord_replaces`); a form's value and its fit test are then one equation of `Site.encode` each. -/

namespace Sys2Proof.Machine

/-! ## The bits of the containing word -/

/-- The mask of a halfword form keeps the bits of the lower half. -/
theorem getLsbD_lowerMask (i : Nat) : (0xFFFF : Word).getLsbD i = decide (i < 16) := by
  have mask : (0xFFFF : Word) = BitVec.ofNat 32 (2 ^ 16 - 1) := rfl
  rw [mask, BitVec.getLsbD_ofNat, Nat.testBit_two_pow_sub_one, ← Bool.decide_and]
  exact decide_eq_decide.mpr (by omega)

/-- The mask of a field holds the field's bits alone. -/
theorem getLsbD_fieldMask (p w : Nat) {i : Nat} (inWord : i < 32) :
    (BitVec.ofNat 32 ((2 ^ w - 1) * 2 ^ p)).getLsbD i = decide (p ≤ i ∧ i < p + w) := by
  rw [BitVec.getLsbD_ofNat, Nat.testBit_mul_two_pow, Nat.testBit_two_pow_sub_one, ← Bool.decide_and, ← Bool.decide_and]
  exact decide_eq_decide.mpr (by omega)

/-- A value written to the upper half of a word. -/
theorem getLsbD_upperHalf (old value : Word) {i : Nat} (inWord : i < 32) :
    ((old &&& (0xFFFF : Word)) ||| (value <<< 16)).getLsbD i = if 16 ≤ i then value.getLsbD (i - 16) else old.getLsbD i := by
  rw [BitVec.getLsbD_or, BitVec.getLsbD_and, getLsbD_lowerMask, BitVec.getLsbD_shiftLeft]
  split
  case isTrue upper => simp [inWord, Nat.not_lt.mpr upper]
  case isFalse lower => simp [Nat.lt_of_not_le lower]

/-- A value written to the lower half of a word. -/
theorem getLsbD_lowerHalf (old value : Word) {i : Nat} (inWord : i < 32) :
    ((old &&& 0xFFFF0000) ||| (value &&& 0xFFFF)).getLsbD i = if i < 16 then value.getLsbD i else old.getLsbD i := by
  have mask : (0xFFFF0000 : Word) = ~~~0xFFFF := rfl
  rw [mask, BitVec.getLsbD_or, BitVec.getLsbD_and, BitVec.getLsbD_and, BitVec.getLsbD_not, getLsbD_lowerMask]
  split
  case isTrue lower => simp [lower]
  case isFalse upper => simp [inWord, upper]

/-- A value written to a field of a word. -/
theorem getLsbD_field (old value : Word) (p w : Nat) {i : Nat} (inWord : i < 32) :
    ((old &&& ~~~BitVec.ofNat 32 ((2 ^ w - 1) * 2 ^ p)) |||
      ((value <<< p) &&& BitVec.ofNat 32 ((2 ^ w - 1) * 2 ^ p))).getLsbD i =
    if p ≤ i ∧ i < p + w then value.getLsbD (i - p) else old.getLsbD i := by
  rw [BitVec.getLsbD_or, BitVec.getLsbD_and, BitVec.getLsbD_and, BitVec.getLsbD_not, BitVec.getLsbD_shiftLeft,
    getLsbD_fieldMask p w inWord]
  split
  case isTrue inside => simp [inWord, inside]
  case isFalse outside => simp [inWord, outside]

section
variable {x : Site} (halfword : x.form = .hi16 ∨ x.form = .lo16 ∨ x.form = .d16)
include halfword

theorem newWord_halfword (old value : Word) :
    x.newWord old value =
      if x.address % 4 = 0 then (old &&& (0xFFFF : Word)) ||| (value <<< 16)
      else (old &&& 0xFFFF0000) ||| (value &&& 0xFFFF) := by
  obtain ⟨_, _, form, _, _⟩ := x
  rcases halfword with rfl | rfl | rfl <;> rfl

theorem valueBit_halfword (i : Nat) :
    x.valueBit i =
      if x.address % 4 = 0 then (if 16 ≤ i then some (i - 16) else none) else (if i < 16 then some i else none) := by
  obtain ⟨_, _, form, _, _⟩ := x
  rcases halfword with rfl | rfl | rfl <;> rfl

/-- A halfword form replaces its half of the word and keeps the other (R114). -/
theorem newWord_replaces_halfword (old value : Word) : x.Replaces old value (x.newWord old value) := by
  intro i inWord
  rw [newWord_halfword halfword, valueBit_halfword halfword]
  by_cases upper : x.address % 4 = 0
  · rw [if_pos upper, if_pos upper, getLsbD_upperHalf old value inWord]
    split <;> rfl
  · rw [if_neg upper, if_neg upper, getLsbD_lowerHalf old value inWord]
    split <;> rfl

end

/-- A site transfer replaces the site's own bits by the value's and keeps the others, whatever the value (R114). -/
theorem newWord_replaces (x : Site) (old value : Word) : x.Replaces old value (x.newWord old value) := by
  cases form : x.form with
  | a32 =>
    intro i _
    simp only [Site.newWord, Site.valueBit, form]
  | hi16 => exact newWord_replaces_halfword (.inl form) old value
  | lo16 => exact newWord_replaces_halfword (.inr (.inl form)) old value
  | d16 => exact newWord_replaces_halfword (.inr (.inr form)) old value
  | fld p w shift =>
    intro i inWord
    simp only [Site.newWord, Site.valueBit, form]
    rw [getLsbD_field old value p w inWord]
    split <;> rfl

/-! ## The value of each form -/

/-- A shift right is the division by a power of 2, taken whole (R111, R113). -/
theorem toNat_shifted (v : Word) (shift : Nat) : (v >>> shift).toNat = v.toNat / 2 ^ shift := by
  rw [BitVec.toNat_ushiftRight, Nat.shiftRight_eq_div_pow]

/-- The lower 16 bits of a word (R111). -/
theorem toNat_lowerHalf (v : Word) : (v &&& 0xFFFF).toNat = v.toNat % 65536 :=
  (BitVec.toNat_and v 0xFFFF).trans (Nat.and_two_pow_sub_one_eq_mod v.toNat 16)

section
variable {x : Site} (n : Station) (target : Word)

theorem encode_a32 (form : x.form = .a32) : x.encode n target = some (target + x.addend) := by
  rw [Site.encode, form]

theorem encode_hi16 (form : x.form = .hi16) : x.encode n target = some ((target + x.addend) >>> 16) := by
  rw [Site.encode, form]

theorem encode_lo16 (form : x.form = .lo16) : x.encode n target = some ((target + x.addend) &&& 0xFFFF) := by
  rw [Site.encode, form]

/-- The fit test of a displacement (R112). -/
theorem encode_d16 (form : x.form = .d16) :
    x.encode n target =
      if -32768 ≤ (target + x.addend - x.segmentBase n).toInt ∧ (target + x.addend - x.segmentBase n).toInt ≤ 32767 then
        some ((target + x.addend - x.segmentBase n) &&& 0xFFFF)
      else none := by
  rw [Site.encode, form]

/-- The fit test of a field (R113). -/
theorem encode_fld {p w shift : Nat} (form : x.form = .fld p w shift) :
    x.encode n target =
      if (target + x.addend).toNat % 2 ^ shift = 0 ∧ (target + x.addend).toNat / 2 ^ shift < 2 ^ w then
        some ((target + x.addend) >>> shift)
      else none := by
  rw [Site.encode, form]
  simp only [toNat_shifted]

end

/-! ## Every form -/

/-- Settles O59: each form's value by its own equation, and the bits replaced by `newWord_replaces`. -/
theorem siteEncodings : Obligations.SiteEncodings := by
  intro n x target old v g
  have base : x.segmentBase n = g := rfl
  refine ⟨?a32, ?hi16, ?lo16, ?d16, ?fld⟩
  case a32 => exact fun form => ⟨encode_a32 n target form, newWord_replaces x old v⟩
  case hi16 =>
    exact fun form => ⟨v >>> 16, encode_hi16 n target form, toNat_shifted v 16, newWord_replaces x old _⟩
  case lo16 =>
    exact fun form => ⟨v &&& 0xFFFF, encode_lo16 n target form, toNat_lowerHalf v, newWord_replaces x old _⟩
  case d16 =>
    intro form
    have value := encode_d16 n target form
    rw [base] at value
    refine ⟨fun least most => ?fits, fun beyond => ?fails⟩
    case fits =>
      exact ⟨(v - g) &&& 0xFFFF, value.trans (if_pos ⟨least, most⟩), toNat_lowerHalf (v - g), newWord_replaces x old _⟩
    case fails => exact value.trans (if_neg fun ⟨least, most⟩ => beyond.elim (Int.not_lt.mpr least) (Int.not_lt.mpr most))
  case fld =>
    intro p w shift form _
    have value := encode_fld n target form
    refine ⟨fun whole small => ?fits, fun lost => ?fails⟩
    case fits =>
      exact ⟨v >>> shift, value.trans (if_pos ⟨whole, small⟩), toNat_shifted v shift, newWord_replaces x old _⟩
    case fails =>
      exact value.trans (if_neg fun ⟨whole, small⟩ => lost.elim (· whole) (Nat.not_le_of_lt small))

end Sys2Proof.Machine

/-! The next-sequence value (R130). A frame is begun with a header built from the state (R136), of which the next-sequence
value is a part; only the resets and a contention won write it. That every other row leaves it is shown operation by
operation: the operations with a frame of their own (`ReferenceFrame`, `TableFrame`, `StationKept`) by that frame, the others
by their branches. -/

namespace Sys2Proof.Machine

/-! ## The header of a frame begun (R130, R133, R136) -/

/-- What the header of a frame says of its sender. -/
def Frame.header (f : Frame) : Station × Byte × BitVec 3 := (f.sender, f.sequence, f.group)

/-- What the header of a frame begun in this state says. -/
def State.header (s : State) : Station × Byte × BitVec 3 := (s.number, s.nextSequence, s.ownGroup)

theorem header_eq_iff (f : Frame) (s : State) :
    f.header = s.header ↔ f.sequence = s.nextSequence ∧ f.sender = s.number ∧ f.group = s.ownGroup := by
  simp only [Frame.header, State.header, Prod.mk.injEq]
  exact and_left_comm

theorem arbitrate_header (s : State) (order : List Bool) : (s.arbitrate order).header = s.header := by
  have frame := arbitrate_frame s order
  simp only [State.header, State.ownGroup, frame.number, frame.nextSequence, frame.config]

theorem queuedFrame_header (s : State) (x : TxEntry) : (s.queuedFrame x).header = s.header := rfl

theorem answerFrame_header {s : State} {o : Owner} {f : Frame} (h : s.answerFrame = some (o, f)) : f.header = s.header := by
  unfold State.answerFrame at h
  split at h
  · cases h
  · split at h
    · cases h
    · cases h
      rfl

/-- What a freed place and the arbiter's grant of it keep, the dropping of heads keeps (R134, R138). -/
theorem dropHeads_kept {α : Type} (g : State → α) (freed : ∀ s q, g { s with txQueue := q } = g s)
    (granted : ∀ s, g (s.arbitrate []) = g s) (n : Nat) : ∀ s : State, g (s.dropHeads n) = g s := by
  induction n with
  | zero => exact fun _ => rfl
  | succ n ih =>
    intro s
    unfold State.dropHeads
    split
    · rfl
    · split
      · rfl
      · exact (ih _).trans ((granted _).trans (freed s _))

theorem dropHeads_header (s : State) (n : Nat) : (s.dropHeads n).header = s.header :=
  dropHeads_kept State.header (fun _ _ => rfl) (fun t => arbitrate_header t []) n s

theorem dropHeads_line (s : State) (n : Nat) : (s.dropHeads n).line = s.line :=
  dropHeads_kept State.line (fun _ _ => rfl) (fun t => (arbitrate_frame t []).line) n s

theorem mayBegin_quiet {s : State} {idle : Nat} (h : s.mayBegin idle = true) : s.line = .quiet := by
  simp only [State.mayBegin, State.busFree, Bool.and_eq_true, decide_eq_true_eq] at h
  obtain ⟨⟨_, ⟨⟨quiet, _⟩, _⟩, _⟩, _⟩ := h
  exact quiet

/-- The frame in contention after a beginning on a quiet line carries the header of the state (R130). -/
theorem beginFrame_header {s : State} {source : Source} {f : Frame} (quiet : s.line = .quiet)
    (h : s.beginFrame.line = .contending source f) : f.header = s.header := by
  have notBegun : ∀ {t : State}, t.line = s.line → t.line ≠ .contending source f := fun kept e => by
    rw [kept, quiet] at e
    cases e
  unfold State.beginFrame at h
  split at h
  · split at h
    · next answer =>
      cases h
      exact answerFrame_header answer
    · exact absurd h (notBegun rfl)
  · dsimp only at h
    split at h
    · exact absurd h (notBegun (dropHeads_line s _))
    · cases h
      exact (queuedFrame_header _ _).trans (dropHeads_header s _)

/-! ## Operations that leave the next-sequence value -/

@[simp] theorem arbitrate_nextSequence (s : State) (order : List Bool) :
    (s.arbitrate order).nextSequence = s.nextSequence :=
  (arbitrate_frame s order).nextSequence

@[simp] theorem endEvent_nextSequence (s before : State) (order : List Bool) :
    (s.endEvent before order).nextSequence = s.nextSequence :=
  (endEvent_frame s before order).nextSequence

@[simp] theorem seekEntry_nextSequence (s : State) (r : Ref) : (s.seekEntry r).nextSequence = s.nextSequence :=
  (seekEntry_frame s r).nextSequence

@[simp] theorem enterOut_nextSequence (s : State) (k : Key) : (s.enterOut k).nextSequence = s.nextSequence :=
  (enterOut_frame s k).nextSequence

@[simp] theorem bindKey_nextSequence (s : State) (k : Key) (b : Binding) : (s.bindKey k b).nextSequence = s.nextSequence :=
  (bindKey_frame s k b).nextSequence

@[simp] theorem clashKey_nextSequence (s : State) (k : Key) (b : Binding) (refused : List Pair) :
    (s.clashKey k b refused).nextSequence = s.nextSequence :=
  (clashKey_frame s k b refused).nextSequence

@[simp] theorem revokeWithdrawn_nextSequence (s : State) (k : Key) (p : Pair) :
    (s.revokeWithdrawn k p).nextSequence = s.nextSequence :=
  (revoke_frame s _ _).nextSequence

@[simp] theorem hear_nextSequence (s : State) (f : Frame) : (s.hear f).nextSequence = s.nextSequence :=
  (hear_frame s f).nextSequence

@[simp] theorem meetSeek_nextSequence (s : State) (k : Key) : (s.meetSeek k).nextSequence = s.nextSequence :=
  (meetSeek_frame s k).nextSequence

@[simp] theorem meetClaim_nextSequence (s : State) (k : Key) (p : Pair) (refused : List Pair) :
    (s.meetClaim k p refused).nextSequence = s.nextSequence :=
  (meetClaim_frame s k p refused).nextSequence

@[simp] theorem meetOwnAnnounce_nextSequence (s : State) (k : Key) (g : Half) :
    (s.meetOwnAnnounce k g).nextSequence = s.nextSequence :=
  (meetOwnAnnounce_frame s k g).nextSequence

@[simp] theorem losePeer_nextSequence (s : State) (n : Station) (cause : PeerLoss) :
    (s.losePeer n cause).nextSequence = s.nextSequence :=
  (losePeer_frame s n cause).nextSequence

@[simp] theorem departs_nextSequence (s : State) (n : Station) (cause : PeerLoss) :
    (s.departs n cause).nextSequence = s.nextSequence :=
  (departs_frame s n cause).nextSequence

@[simp] theorem giveUp_nextSequence (s : State) (m : Byte) (begun : Bool) :
    (s.giveUp m begun).nextSequence = s.nextSequence :=
  (giveUp_frame s m begun).nextSequence

@[simp] theorem beginWalk_nextSequence (s : State) (r : Ref) : (s.beginWalk r).nextSequence = s.nextSequence :=
  (beginWalk_frame s r).nextSequence

@[simp] theorem afterSite_nextSequence (s : State) (w : Walk) : (s.afterSite w).nextSequence = s.nextSequence :=
  (afterSite_frame s w).nextSequence

@[simp] theorem busFault_nextSequence (s : State) (o : Owner) (k : Nat) : (s.busFault o k).nextSequence = s.nextSequence :=
  (busFault_frame s o k).nextSequence

@[simp] theorem isolate_nextSequence (s : State) (begun : Bool) : (s.isolate begun).nextSequence = s.nextSequence :=
  (isolate_kept s begun).nextSequence

/-! ### The line -/

@[simp] theorem beginFrame_nextSequence (s : State) : s.beginFrame.nextSequence = s.nextSequence := by
  have dropped : (s.dropHeads s.headRounds).nextSequence = s.nextSequence :=
    dropHeads_kept State.nextSequence (fun _ _ => rfl) (fun t => arbitrate_nextSequence t []) _ s
  unfold State.beginFrame
  split
  · split <;> rfl
  · dsimp only
    split
    · exact dropped
    · exact dropped

@[simp] theorem leaveSource_nextSequence (s : State) (source : Source) :
    (s.leaveSource source).nextSequence = s.nextSequence := by
  cases source with
  | queue => exact arbitrate_nextSequence _ _
  | answer o => rfl

theorem leaveSource_outgoing (s : State) (source : Source) : (s.leaveSource source).outgoing = s.outgoing := by
  cases source with
  | queue => exact (arbitrate_frame _ _).outgoing
  | answer o => rfl

@[simp] theorem completeStop_nextSequence (s : State) : s.completeStop.nextSequence = s.nextSequence := by
  unfold State.completeStop
  split <;> rfl

@[simp] theorem countHold_nextSequence (s : State) : s.countHold.nextSequence = s.nextSequence := by
  unfold State.countHold
  split
  · rfl
  · dsimp only
    split <;> rfl

@[simp] theorem windowHeld_nextSequence (s : State) (w : Window) : (s.windowHeld w).nextSequence = s.nextSequence := by
  unfold State.windowHeld
  dsimp only
  split
  · exact countHold_nextSequence _
  · rfl

@[simp] theorem windowCarried_nextSequence (s : State) (w : Window) :
    (s.windowCarried w).nextSequence = s.nextSequence := by
  unfold State.windowCarried
  dsimp only
  split
  · split
    · exact completeStop_nextSequence _
    · rfl
  · rfl

@[simp] theorem arrive_nextSequence (s : State) (bits : List Bool) (begun : Bool) :
    (s.arrive bits begun).nextSequence = s.nextSequence := by
  unfold State.arrive
  split
  · rfl
  · split
    · exact isolate_nextSequence s begun
    · split
      · rfl
      · split
        · rfl
        · split <;> rfl

@[simp] theorem lapseReservation_nextSequence (s : State) (begun : Bool) :
    (s.lapseReservation begun).nextSequence = s.nextSequence := by
  unfold State.lapseReservation
  dsimp only
  split
  · rfl
  · split
    · exact isolate_nextSequence _ begun
    · split <;> rfl

@[simp] theorem ownLeave_nextSequence (s : State) : s.ownLeave.nextSequence = s.nextSequence := by
  unfold State.ownLeave
  split
  · dsimp only
    split
    · exact completeStop_nextSequence _
    · rfl
  · rfl

@[simp] theorem ownJoin_nextSequence (s : State) : s.ownJoin.nextSequence = s.nextSequence := by
  unfold State.ownJoin
  split
  · dsimp only
    split <;> rfl
  · rfl

/-! ### Transfers -/

@[simp] theorem writeWords_nextSequence (env : Env) (ws : List Word) : ∀ (k a : Nat) (s : State),
    (State.writeWords env k a ws s).1.nextSequence = s.nextSequence := by
  induction ws with
  | nil => exact fun _ _ _ => rfl
  | cons w ws ih =>
    intro k a s
    unfold State.writeWords
    split
    · exact ih _ _ _
    · rfl

/-- The same of the state named by a split of the words' outcome. -/
theorem nextSequence_of_writeWords {env : Env} {ws : List Word} {k a : Nat} {s t : State} {failed : Option Nat}
    (h : State.writeWords env k a ws s = (t, failed)) : t.nextSequence = s.nextSequence := by
  have kept := writeWords_nextSequence env ws k a s
  rwa [h] at kept

@[simp] theorem makeTransfer_nextSequence (s : State) (env : Env) (x : SiteTransfer) :
    (s.makeTransfer env x).1.nextSequence = s.nextSequence := by
  unfold State.makeTransfer
  dsimp only
  split
  · split <;> rfl
  · split
    · split <;> rfl
    · rfl

@[simp] theorem endTransfer_nextSequence (s : State) (env : Env) (x : SiteTransfer) :
    (s.endTransfer env x).nextSequence = s.nextSequence := by
  unfold State.endTransfer
  dsimp only
  split
  · exact makeTransfer_nextSequence s env x
  · rw [endEvent_nextSequence]
    split <;> simp

@[simp] theorem afterRecord_nextSequence (s : State) (tag : Half) (sel : Selector) (m : Byte)
    (buffer capacity written : Nat) :
    (s.afterRecord tag sel m buffer capacity written).nextSequence = s.nextSequence := by
  unfold State.afterRecord
  split
  · rfl
  · split <;> rfl

@[simp] theorem writeRecord_nextSequence (s : State) (env : Env) : (s.writeRecord env).nextSequence = s.nextSequence := by
  unfold State.writeRecord
  split
  · split
    · rfl
    · dsimp only
      split
      · next written => exact (nextSequence_of_writeWords written :)
      · next written =>
        split
        · exact (nextSequence_of_writeWords written :)
        · exact (afterRecord_nextSequence ..).trans (nextSequence_of_writeWords written :)
  · rfl

@[simp] theorem takeRecord_nextSequence (s : State) : s.takeRecord.nextSequence = s.nextSequence := by
  unfold State.takeRecord
  split <;> rfl

@[simp] theorem writeNotice_nextSequence (s : State) (env : Env) (r : Ring) (x : Reserved) :
    (s.writeNotice env r x).nextSequence = s.nextSequence := by
  unfold State.writeNotice
  dsimp only
  split
  · next written => exact (nextSequence_of_writeWords written :)
  · next written => split <;> exact (nextSequence_of_writeWords written :)

/-! ### Commands -/

@[simp] theorem submit_nextSequence (s : State) (value : Word) : (s.submit value).nextSequence = s.nextSequence := by
  unfold State.submit
  split
  · rfl
  · split <;> rfl

@[simp] theorem configure_nextSequence (s : State) (tag : Half) (words : List Word) :
    (s.configure tag words).nextSequence = s.nextSequence := by
  unfold State.configure
  split <;> rfl

@[simp] theorem startJoining_nextSequence (s : State) (tag : Half) : (s.startJoining tag).nextSequence = s.nextSequence :=
  arbitrate_nextSequence _ _

@[simp] theorem stopLeaving_nextSequence (s : State) (tag : Half) : (s.stopLeaving tag).nextSequence = s.nextSequence := by
  unfold State.stopLeaving
  split
  · rfl
  · exact arbitrate_nextSequence _ _

@[simp] theorem beginLoad_nextSequence (s : State) (env : Env) (tag : Half) (words : List Word) :
    (s.beginLoad env tag words).nextSequence = s.nextSequence := by
  unfold State.beginLoad
  split <;> rfl

@[simp] theorem finishRemoval_nextSequence (s : State) : s.finishRemoval.nextSequence = s.nextSequence := by
  unfold State.finishRemoval
  split
  · split <;> rfl
  · split <;> rfl
  · rfl

@[simp] theorem unloadModule_nextSequence (s : State) (env : Env) (tag : Half) (words : List Word) :
    (s.unloadModule env tag words).nextSequence = s.nextSequence := by
  unfold State.unloadModule
  dsimp only
  split
  · rfl
  · simp

@[simp] theorem reseekModules_nextSequence (s : State) (tag : Half) (words : List Word) :
    (s.reseekModules tag words).nextSequence = s.nextSequence := by
  have reseek : ∀ (t : State) (r : Ref), (t.reseekRef r).nextSequence = t.nextSequence := fun t r =>
    seekEntry_nextSequence _ r
  unfold State.reseekModules
  dsimp only
  split
  · rfl
  · simpa using foldl_kept State.nextSequence _ reseek _ s

@[simp] theorem beginReport_nextSequence (s : State) (tag : Half) (words : List Word) :
    (s.beginReport tag words).nextSequence = s.nextSequence := by
  unfold State.beginReport
  split
  · rfl
  · split
    · split <;> rfl
    · rfl

@[simp] theorem leaveHead_nextSequence (s : State) (env : Env) (words : List Word) :
    (s.leaveHead env words).nextSequence = s.nextSequence := by
  unfold State.leaveHead
  dsimp only
  split
  · split <;> rfl
  · rfl

/-- A command at the head leaves the value where its body does. -/
theorem runHead_nextSequence (s : State) (kind : Option CommandKind) (env : Env) {body : Half → List Word → State → State}
    (kept : ∀ tag words t, (body tag words t).nextSequence = t.nextSequence) :
    (s.runHead kind env body).nextSequence = s.nextSequence := by
  unfold State.runHead
  split
  · dsimp only
    split
    · split
      · exact leaveHead_nextSequence _ _ _
      · rfl
    · split
      · rfl
      · split <;> simp
      · split
        · simp [kept]
        · rfl
  · rfl

theorem runCommand_nextSequence (s : State) (kind : CommandKind) (env : Env) {body : Half → List Word → State → State}
    (kept : ∀ tag words t, (body tag words t).nextSequence = t.nextSequence) :
    (s.runCommand kind env body).nextSequence = s.nextSequence :=
  runHead_nextSequence s _ env fun tag words t => by
    split
    · exact kept tag words t
    · rfl

/-! ### The commit pass -/

@[simp] theorem enterExport_nextSequence (s : State) (x : ExportRecord) : (s.enterExport x).nextSequence = s.nextSequence := by
  unfold State.enterExport
  split <;> rfl

@[simp] theorem enterImport_nextSequence (s : State) (x : ImportRecord) : (s.enterImport x).nextSequence = s.nextSequence := by
  unfold State.enterImport
  split
  · exact seekEntry_nextSequence _ _
  · rfl

@[simp] theorem takeOut_nextSequence (s : State) (env : Env) (e : Ending) : (s.takeOut env e).nextSequence = s.nextSequence := by
  unfold State.takeOut
  split
  · simp
  · rfl

@[simp] theorem commitFault_nextSequence (s : State) (env : Env) (e : Ending) :
    (s.commitFault env e).nextSequence = s.nextSequence :=
  takeOut_nextSequence s env e

theorem commitPause_nextSequence {s t : State} {env : Env} (h : s.commitPause env = some t) :
    t.nextSequence = s.nextSequence := by
  unfold State.commitPause at h
  split at h
  · split at h
    · cases h
      rfl
    · cases h
  · cases h

/-- The reading of a record leaves the value where what is done with the record, or with its fault, does. -/
theorem readRecord_nextSequence (s : State) (env : Env) {onRecord : CommitItem → State → State}
    {onFault : Ending → State → State}
    (record : ∀ item t, t.nextSequence = s.nextSequence → (onRecord item t).nextSequence = s.nextSequence)
    (fault : ∀ e t, t.nextSequence = s.nextSequence → (onFault e t).nextSequence = s.nextSequence) :
    (s.readRecord env onRecord onFault).nextSequence = s.nextSequence := by
  unfold State.readRecord
  split
  · dsimp only
    split
    · rfl
    · exact record _ _ rfl
    · exact fault _ _ rfl
  · rfl

theorem commitStep_nextSequence (s : State) (env : Env) {onPause : State → State} {onRecord : CommitItem → State → State}
    {onFault : Ending → State → State}
    (pause : ∀ t, t.nextSequence = s.nextSequence → (onPause t).nextSequence = s.nextSequence)
    (record : ∀ item t, t.nextSequence = s.nextSequence → (onRecord item t).nextSequence = s.nextSequence)
    (fault : ∀ e t, t.nextSequence = s.nextSequence → (onFault e t).nextSequence = s.nextSequence) :
    (s.commitStep env onPause onRecord onFault).nextSequence = s.nextSequence := by
  unfold State.commitStep
  split
  · next left =>
    split
    · exact pause _ (by simpa using commitPause_nextSequence left)
    · rfl
  · exact readRecord_nextSequence s env record fault

/-! ### Timers and the agent's timeout -/

@[simp] theorem exhaust_nextSequence (s : State) (n : Nat) : (s.exhaust n).nextSequence = s.nextSequence := by
  have unresolved : ∀ (t : State) (r : Ref),
      ((t.setPhase r.owner .waiting).post (.referenceUnresolved r.owner)).nextSequence = t.nextSequence := fun _ _ => rfl
  exact foldl_kept State.nextSequence _ unresolved _ s

@[simp] theorem expire_nextSequence (s : State) (n : Nat) (x : Slot) (c : ConfigRecord) :
    (s.expire n x c).nextSequence = s.nextSequence := by
  unfold State.expire
  split <;> simp

@[simp] theorem timeoutAtHead_nextSequence (s : State) (env : Env) : (s.timeoutAtHead env).nextSequence = s.nextSequence := by
  unfold State.timeoutAtHead
  dsimp only
  split <;> simp

@[simp] theorem timeoutInReport_nextSequence (s : State) (env : Env) :
    (s.timeoutInReport env).nextSequence = s.nextSequence := by
  unfold State.timeoutInReport
  dsimp only
  split
  · split
    · split
      · exact writeRecord_nextSequence _ env
      · rfl
    · rfl
  · rfl

@[simp] theorem commandTimeout_nextSequence (s : State) (env : Env) : (s.commandTimeout env).nextSequence = s.nextSequence := by
  unfold State.commandTimeout
  split
  · rfl
  · split
    · exact timeoutAtHead_nextSequence s env
    · split
      · exact timeoutInReport_nextSequence s env
      · refine readRecord_nextSequence s env (fun _ _ _ => rfl) fun e t kept => ?_
        split
        · exact (commitFault_nextSequence t env e).trans kept
        · rfl

@[simp] theorem patchTimeout_nextSequence (s : State) (env : Env) : (s.patchTimeout env).nextSequence = s.nextSequence := by
  unfold State.patchTimeout
  split
  · dsimp only
    split
    · exact endTransfer_nextSequence _ env _
    · rfl
  · rfl

@[simp] theorem noticeTimeout_nextSequence (s : State) (env : Env) :
    (s.noticeTimeout env).nextSequence = s.nextSequence := by
  unfold State.noticeTimeout
  split
  · dsimp only
    split
    · exact writeNotice_nextSequence _ env _ _
    · rfl
  · rfl

/-! ## The rows -/

/-- The next state that a meaning answers, if it answers one, has the next-sequence value of `s`. -/
def State.SequenceKeptBy (s : State) (a : StepAnswer) : Prop :=
  ∀ t, a = .next t → t.nextSequence = s.nextSequence

theorem State.SequenceKeptBy.next {s t : State} (h : t.nextSequence = s.nextSequence) : s.SequenceKeptBy (.next t) := by
  rintro _ ⟨⟩
  exact h

theorem windowWrite_nextSequence (s : State) {f : State → State} (h : (f s).nextSequence = s.nextSequence) :
    (s.windowWrite f).nextSequence = s.nextSequence := by
  unfold State.windowWrite
  split
  · rfl
  · exact h

/-- A write to PCTL that makes no reset. -/
theorem writePctl_nextSequence (s : State) {value : Word} (h : value.getLsbD 31 = false) (cut : Cut) :
    (s.writePctl value cut).nextSequence = s.nextSequence := by
  simp only [State.writePctl, h]
  rfl

/-- A frame taken leaves the value where its application does. -/
theorem takeFrame_nextSequence (s : State) (mine : Frame → Bool) {f : Frame → State → State}
    (kept : ∀ x t, t.nextSequence = s.nextSequence → (f x t).nextSequence = s.nextSequence) :
    (s.takeFrame mine f).nextSequence = s.nextSequence := by
  unfold State.takeFrame
  split
  · split
    · exact kept _ _ rfl
    · rfl
  · rfl
  · rfl

section
variable (s : State)

/-! ### Later steps of LOAD and REPORT -/

theorem execLoadCommitExport_nextSequence (env : Env) : s.SequenceKeptBy (execLoadCommitExport env s) := by
  refine .next ?_
  split
  · refine commitStep_nextSequence s env (fun t kept => kept) (fun item t kept => ?_) fun e t kept =>
      (commitFault_nextSequence t env e).trans kept
    cases item with
    | exported x => simpa using kept
    | imported x => rfl
  · rfl

theorem execLoadCommitImport_nextSequence (env : Env) : s.SequenceKeptBy (execLoadCommitImport env s) := by
  refine .next ?_
  split
  · rfl
  · refine commitStep_nextSequence s env (fun t kept => kept) (fun item t kept => ?_) fun e t kept =>
      (commitFault_nextSequence t env e).trans kept
    cases item with
    | exported x => rfl
    | imported x => simpa using kept

theorem execLoadCommitEnd_nextSequence : s.SequenceKeptBy (execLoadCommitEnd s) := by
  refine .next ?_
  split
  · split <;> simp
  · rfl

theorem execLoadCommitFault_nextSequence (env : Env) : s.SequenceKeptBy (execLoadCommitFault env s) :=
  .next (commitStep_nextSequence s env (fun _ _ => rfl) (fun _ _ _ => rfl) fun e t kept =>
    (commitFault_nextSequence t env e).trans kept)

theorem execReportRecordWrite_nextSequence (env : Env) : s.SequenceKeptBy (execReportRecordWrite env s) := by
  refine .next ?_
  split
  · rfl
  · split
    · exact takeRecord_nextSequence s
    · split
      · exact writeRecord_nextSequence s env
      · split
        · exact writeRecord_nextSequence _ _
        · rfl

/-! ### The line -/

theorem execFrameBegin_nextSequence (idle : Nat) : s.SequenceKeptBy (execFrameBegin idle s) := by
  refine .next ?_
  split
  · exact beginFrame_nextSequence s
  · rfl

theorem execContentionLost_nextSequence (bit : Nat) : s.SequenceKeptBy (execContentionLost bit s) := by
  refine .next ?_
  split
  · split <;> rfl
  · rfl
  · rfl
  · rfl

theorem execSenderBitMismatch_nextSequence (pos : Nat) : s.SequenceKeptBy (execSenderBitMismatch pos s) := by
  refine .next ?_
  split
  · split <;> rfl
  · rfl

theorem execFrameCutOff_nextSequence (bits : List Bool) (quiet : Nat) : s.SequenceKeptBy (execFrameCutOff bits quiet s) := by
  refine .next ?_
  split <;> rfl

theorem execFrameArrival_nextSequence (bits : List Bool) (begun : Bool) :
    s.SequenceKeptBy (execFrameArrival bits begun s) := by
  refine .next ?_
  split
  · exact arrive_nextSequence s bits begun
  · rfl

theorem execHoldWindowEnd_nextSequence (othersPull : Bool) : s.SequenceKeptBy (execHoldWindowEnd othersPull s) := by
  refine .next ?_
  split
  · split
    · rfl
    · split
      · exact windowHeld_nextSequence s _
      · exact windowCarried_nextSequence s _
  · rfl
  · rfl
  · rfl

theorem execRepeatFrame_nextSequence (idle : Nat) : s.SequenceKeptBy (execRepeatFrame idle s) := by
  refine .next ?_
  split
  · split <;> rfl
  · rfl

theorem execReservationLapse_nextSequence (idle : Nat) (begun : Bool) :
    s.SequenceKeptBy (execReservationLapse idle begun s) := by
  refine .next ?_
  split
  · exact lapseReservation_nextSequence s begun
  · rfl

/-! ### Receive processing -/

theorem execLapse_nextSequence : s.SequenceKeptBy (execLapse s) := by
  refine .next ?_
  split
  · split
    · exact departs_nextSequence _ _ .lapse
    · rfl
  · rfl
  · rfl

theorem execJoinTaken_nextSequence : s.SequenceKeptBy (execJoinTaken s) := by
  refine .next (takeFrame_nextSequence s _ fun f t kept => ?_)
  split <;> simpa using kept

/-! ### Timers, the Patch Engine, the Notice Unit, the memory agent -/

theorem execSeekTimerExpiry_nextSequence (slot elapsed : Nat) : s.SequenceKeptBy (execSeekTimerExpiry slot elapsed s) := by
  refine .next ?_
  split
  · split
    · exact expire_nextSequence s _ _ _
    · rfl
  · rfl

theorem execWalkBegin_nextSequence : s.SequenceKeptBy (execWalkBegin s) := by
  refine .next ?_
  split
  · rfl
  · split
    · rfl
    · split
      · rfl
      · simp

theorem execSiteWriteDone_nextSequence (env : Env) : s.SequenceKeptBy (execSiteWriteDone env s) := by
  refine .next ?_
  split
  · split
    · exact endTransfer_nextSequence _ env _
    · rfl
  · rfl

theorem execMemoryAckTimeout_nextSequence (claimant : Claimant) (env : Env) :
    s.SequenceKeptBy (execMemoryAckTimeout claimant env s) := by
  refine .next ?_
  cases claimant with
  | commandEngine => exact commandTimeout_nextSequence s _
  | patchEngine => exact patchTimeout_nextSequence s _
  | noticeUnit => exact noticeTimeout_nextSequence s _

theorem execNoticeWriteDone_nextSequence (env : Env) : s.SequenceKeptBy (execNoticeWriteDone env s) := by
  refine .next ?_
  split
  · split
    · exact writeNotice_nextSequence _ _ _ _
    · rfl
  · rfl

/-- Every row but the resets and a contention won leaves the next-sequence value (R130). -/
theorem exec_nextSequence (c : Instr) (noReset : c.isReset = false) (notWon : c ≠ .contentionWon) :
    s.SequenceKeptBy (exec c s) := by
  cases c with
  | pinReset straps cut => cases noReset
  | portReset value cut => exact .next (windowWrite_nextSequence s (writePctl_nextSequence s noReset cut))
  | interruptEnableWrite value => exact .next (windowWrite_nextSequence s (writePctl_nextSequence s noReset {}))
  | submission value => exact .next (windowWrite_nextSequence s (submit_nextSequence s value))
  | nconsWrite value => exact .next (windowWrite_nextSequence s rfl)
  | istatWrite value => exact .next (windowWrite_nextSequence s rfl)
  | ignoredRegisterWrite offset width value => exact .next rfl
  | unknownCommandCode env => exact .next (runHead_nextSequence s _ env fun _ _ _ => rfl)
  | configure env => exact .next (runCommand_nextSequence s _ env fun tag words t => configure_nextSequence t tag words)
  | start env => exact .next (runCommand_nextSequence s _ env fun tag _ t => startJoining_nextSequence t tag)
  | stop env => exact .next (runCommand_nextSequence s _ env fun tag _ t => stopLeaving_nextSequence t tag)
  | load env => exact .next (runCommand_nextSequence s _ env fun tag words t => beginLoad_nextSequence t env tag words)
  | loadCommitExport env => exact execLoadCommitExport_nextSequence s env
  | loadCommitImport env => exact execLoadCommitImport_nextSequence s env
  | loadCommitEnd => exact execLoadCommitEnd_nextSequence s
  | loadCommitFault env => exact execLoadCommitFault_nextSequence s env
  | unload env => exact .next (runCommand_nextSequence s _ env fun tag words t => unloadModule_nextSequence t env tag words)
  | reseek env => exact .next (runCommand_nextSequence s _ env fun tag words t => reseekModules_nextSequence t tag words)
  | report env => exact .next (runCommand_nextSequence s _ env fun tag words t => beginReport_nextSequence t tag words)
  | reportRecordWrite env => exact execReportRecordWrite_nextSequence s env
  | frameBegin idle => exact execFrameBegin_nextSequence s idle
  | contentionLost bit => exact execContentionLost_nextSequence s bit
  | contentionWon => exact absurd rfl notWon
  | senderBitMismatch pos => exact execSenderBitMismatch_nextSequence s pos
  | frameCutOff bits quiet => exact execFrameCutOff_nextSequence s bits quiet
  | frameArrival bits begun => exact execFrameArrival_nextSequence s bits begun
  | holdWindowEnd othersPull => exact execHoldWindowEnd_nextSequence s othersPull
  | repeatFrame idle => exact execRepeatFrame_nextSequence s idle
  | reservationLapse idle begun => exact execReservationLapse_nextSequence s idle begun
  | lapse => exact execLapse_nextSequence s
  | seekTaken | ownSeekTaken | announceTaken | ownAnnounceTaken | withdrawTaken | ownWithdrawTaken =>
    refine .next (takeFrame_nextSequence s _ fun _ _ kept => ?_)
    split
    · simpa using kept
    · rfl
  | offerTaken | clashTaken =>
    refine .next (takeFrame_nextSequence s _ fun _ _ kept => ?_)
    split
    · dsimp only
      split <;> simpa using kept
    · rfl
  | leaveTaken => exact .next (takeFrame_nextSequence s _ fun _ t kept => (departs_nextSequence t _ _).trans kept)
  | ownLeaveTaken => exact .next (takeFrame_nextSequence s _ fun _ t kept => (ownLeave_nextSequence t).trans kept)
  | joinTaken => exact execJoinTaken_nextSequence s
  | ownJoinTaken => exact .next (takeFrame_nextSequence s _ fun _ _ kept => (ownJoin_nextSequence _).trans kept)
  | seekTimerExpiry slot elapsed => exact execSeekTimerExpiry_nextSequence s slot elapsed
  | walkBegin => exact execWalkBegin_nextSequence s
  | siteWriteDone env => exact execSiteWriteDone_nextSequence s env
  | memoryAckTimeout claimant env => exact execMemoryAckTimeout_nextSequence s claimant env
  | noticeWriteDone env => exact execNoticeWriteDone_nextSequence s env
  | resetLow => exact .next rfl

end

/-! ## The statement -/

/-- Both resets put the value to 0 (R164). -/
theorem resetWith_nextSequence (s : State) (n : Station) (cut : Cut) : (s.resetWith n cut).nextSequence = 0 := rfl

theorem exec_portReset {s : State} {value : Word} (high : s.inReset = false) (reset : value.getLsbD 31 = true) (cut : Cut) :
    exec (.portReset value cut) s = .next (s.resetWith s.number cut) := by
  simp only [exec, execPortReset, State.windowWrite, State.writePctl, high, reset]
  rfl

/-- FRAME_BEGIN changes the state only where the station may begin a frame (R132). -/
theorem exec_frameBegin_of_ne {idle : Nat} {s t : State} (h : exec (.frameBegin idle) s = .next t) (changed : t ≠ s) :
    s.mayBegin idle = true ∧ t = s.beginFrame.settleAgent := by
  rw [exec, execFrameBegin] at h
  split at h
  · next may =>
    cases h
    exact ⟨may, rfl⟩
  · cases h
    exact absurd rfl changed

/-- A contention won (R130, R136). -/
theorem exec_contentionWon {s : State} {source : Source} {f : Frame} (high : s.inReset = false)
    (line : s.line = .contending source f) :
    exec .contentionWon s =
      .next (({ s with
        line := .sending
        outgoing := some { frame := f, holds := 0, stalled := false }
        nextSequence := s.nextSequence + 1 } : State).leaveSource source).settleAgent := by
  simp only [exec, execContentionWon, line, high]
  rfl

/-- A repeat sends the outgoing frame as it stands (R140). -/
theorem exec_repeatFrame_outgoing {idle : Nat} {s t : State} (h : exec (.repeatFrame idle) s = .next t) :
    t.outgoing = s.outgoing := by
  rw [exec, execRepeatFrame] at h
  split at h
  · split at h <;> cases h <;> rfl
  · cases h
    rfl

/-- Settles O5: a frame begun has the header of its state, a contention won counts, and `exec_nextSequence` covers every
other row. -/
theorem sequenceNumbers : Obligations.SequenceNumbers := by
  refine ⟨?pinReset, ?portReset, ?begun, ?won, ?kept, ?repeated⟩
  case pinReset =>
    rintro straps cut s t ⟨⟩
    exact resetWith_nextSequence s _ cut
  case portReset =>
    intro value cut s t high reset h
    rw [exec_portReset high reset] at h
    cases h
    exact resetWith_nextSequence s _ cut
  case begun =>
    intro idle s t source f h changed contending
    obtain ⟨may, rfl⟩ := exec_frameBegin_of_ne h changed
    exact (header_eq_iff f s).mp (beginFrame_header (mayBegin_quiet may) contending)
  case won =>
    intro s source f high line
    exact ⟨_, _, exec_contentionWon high line, leaveSource_nextSequence _ source, leaveSource_outgoing _ source, rfl⟩
  case kept => exact fun c s t noReset notWon h => exec_nextSequence s c noReset notWon t h
  case repeated => exact fun idle s t h => exec_repeatFrame_outgoing h

end Sys2Proof.Machine

/-! What a step can do, said once. Every row is a path of moves: named changes of the state, each with what the row has tested
before it makes it. An invariant then has to be shown of each move, and not of each row. -/

namespace Sys2Proof.Machine

/-! ## The fields of which no law of the tables speaks -/

/-- The state with those fields blanked of which no law of the tables speaks: the agent's grant and the runs, the line and what
is sent on it, the current walk and its site transfer. -/
def State.core (s : State) : State :=
  { s with outgoing := none, held := none, nextSequence := 0, line := .quiet, busSeen := false
           walk := none, transfer := none, granted := [], runs := Runs.idle }

/-! ## Moves -/

/-- The command is a LOAD's commit pass. -/
def Command.isCommit : Command → Bool
  | .loadCommit .. => true
  | _ => false

/-- The changes of the Notice Unit apart from the notices it takes. -/
inductive NoticeMove (n : NoticeUnit) : NoticeUnit → Prop where
  | release (v : Nat) : NoticeMove n (n.release v)
  | clearFlags (value : Word) : NoticeMove n (n.clearFlags value)
  | enable (b : Bool) : NoticeMove n { n with interruptEnable := b }
  | published (r : Ring) (ring : n.ring = some r) (some_ : n.list ≠ []) : NoticeMove n (n.published r)
  | writeFailed : NoticeMove n n.writeFailed

/-- The commit pass is at an export record that holds `x`, and `x` has passed its checks (R20, R25). -/
structure State.ExportDue (s : State) (x : ExportRecord) (tag : Half) (m : Byte) (i j off sum : Nat) (rec : ModuleRecord) :
    Prop where
  command : s.command = some (.loadCommit tag m i j off sum)
  module : s.module? m = some rec
  due : i < rec.exportCount
  valid : validName x.name = true
  fresh : ∀ e ∈ s.directory, e.key.agrees (s.keyOf x.scope x.name) = false

/-- The commit pass is at an import record that holds `x`, and `x` has passed its checks (R21, R26). -/
structure State.ImportDue (s : State) (x : ImportRecord) (tag : Half) (m : Byte) (i j off sum : Nat) (rec : ModuleRecord) :
    Prop where
  command : s.command = some (.loadCommit tag m i j off sum)
  module : s.module? m = some rec
  due : j < rec.importCount
  valid : validName x.name = true
  room : sum + x.sites.length ≤ rec.siteCount

/-- A module record that passes the first pass of a LOAD (R17, R18). -/
structure State.Loadable (s : State) (m : ModuleRecord) : Prop where
  loading : m.state = .loading
  fresh : s.module? m.id = none
  room : s.modules.length < 32
  exports : m.exportCount ≤ 512 - s.directory.length
  imports : m.importCount ≤ 1024 - s.refs.length
  sites : m.siteCount ≤ 4096 - s.sitesInUse

/-- What an event does to the tables before its end. Where `ok` holds, owner data come from a station that is present. -/
inductive Effect (ok : Prop) : State → State → Prop where
  | clash (s : State) (k : Key) (b : Binding) (refused : List Pair)
      (definer : ok → s.peers.length = 16 → s.isPresent b.definer = true) : Effect ok s (s.clashKey k b refused)
  | revoke (s : State) (criterion : Ref → Binding → Bool) (cause : RevocationCause) : Effect ok s (s.revoke criterion cause)
  | withdraw (s : State) (criterion : Ref → Binding → Bool) (cause : RevocationCause) (gone : Key → Pair → Bool) :
      Effect ok s ((s.revoke criterion cause).dropPairs gone)
  | depart (s : State) (n : Station) (cause : PeerLoss) : Effect ok s ((s.markAbsent n).losePeer n cause)
  | rejoin (s : State) (n : Station) (cause : PeerLoss) : Effect ok s (s.losePeer n cause)
  | giveUp (s : State) (m : Byte) (begun : Bool) (c : Command) (h : c.isCommit = false) :
      Effect ok s { s.giveUp m begun with command := some c }
  | exhaust (s : State) (n : Nat) : Effect ok s (s.exhaust n)
  | enterImport (s : State) (x : ImportRecord) {tag : Half} {m : Byte} {i j off sum : Nat} {rec : ModuleRecord}
      (due : s.ImportDue x tag m i j off sum rec) : Effect ok s (s.enterImport x)
  | reseek (s : State) (p : Ref → Bool) (h : ∀ r, p r = true → r.reseekable = true) :
      Effect ok s ((s.refs.filter p).foldl State.reseekRef s)
  | beginWalk (s : State) (r : Ref) (row : r ∈ s.refs) : Effect ok s (s.beginWalk r)
  | afterSite (s : State) (w : Walk) : Effect ok s (s.afterSite w)
  | busFault (s : State) (o : Owner) (k : Nat) : Effect ok s (s.busFault o k)

/-- One change of the state that leaves station state, number, configuration, the last SUBMIT result and the waiting commands
as they are. Where `ok` holds, a claim met is another station's. -/
inductive Move (ok : Prop) : State → State → Prop where
  | aside {s t : State} (h : t.core = s.core) : Move ok s t
  | memory {s t : State} (kept : s.mem.wf = true → t.mem.wf = true)
      (h : t.core = { s.core with mem := t.mem, freeCount := t.freeCount }) : Move ok s t
  | post (s : State) (x : Notice) : Move ok s (s.post x)
  | notices (s : State) {n : NoticeUnit} (h : NoticeMove s.notices n) : Move ok s { s with notices := n }
  | retire (s : State) : Move ok s { s with commandQueue := s.commandQueue.tail, command := none }
  | proceed (s : State) (c : Command) (h : c.isCommit = false) : Move ok s { s with command := some c }
  | setAside (s : State) : Move ok s { s with modules := s.otherModules }
  | loading (s : State) (x : ModuleRecord) (active : s.station = .active) (idle : s.command = none)
      (loading : x.state = .loading) (room : s.modules.length < 32) : Move ok s { s with modules := s.modules ++ [x] }
  | beginCommit (s : State) (tag : Half) (x : ModuleRecord) (off : Nat) (active : s.station = .active) (idle : s.command = none)
      (h : s.Loadable x) : Move ok s { s with modules := s.modules ++ [x], command := some (.loadCommit tag x.id 0 0 off 0) }
  | setModuleState (s : State) (m : Byte) (st : ModuleState) : Move ok s (s.setModuleState m st)
  | dropModule (s : State) (m : Byte) (owns : s.ownsNothing m = true) (c : Command) (command : s.command = some c)
      (h : c.isCommit = false) : Move ok s (s.removeModule m)
  | updatePeer (s : State) (n : Station) (f : Peer → Peer) (h : ∀ p, p.present = true → (f p).present = true) :
      Move ok s (s.updatePeer n f)
  | meetSeek (s : State) (k : Key) : Move ok s (s.meetSeek k)
  | meetClaim (s : State) (k : Key) (p : Pair) (refused : List Pair) (other : ok → p.station ≠ s.number) :
      Move ok s (s.meetClaim k p refused)
  | meetOwnAnnounce (s : State) (k : Key) (g : Half) : Move ok s (s.meetOwnAnnounce k g)
  | removeWithdrawn (s : State) (k : Key) (g : Half) : Move ok s (s.removeWithdrawn k g)
  | answered (s : State) (o : Owner) : Move ok s (s.leaveSource (.answer o))
  | arbitrate (s : State) (order : List Bool) : Move ok s (s.arbitrate order)
  | leaveQueue (s : State) (ts : List TxEntry) (h : ts = s.txQueue.tail) :
      Move ok s (({ s with txQueue := ts } : State).arbitrate [])
  | enterOut (s : State) (k : Key) : Move ok s (s.enterOut k)
  | retry (s : State) (n tries : Nat) (x : Slot) (h : s.slots[n]? = some (some x)) :
      Move ok s ((s.enterToSend n x.key tries).arbitrate [])
  | takeRx (s : State) (x : RxItem) (rest : List RxItem) (h : s.rxQueue = x :: rest) : Move ok s { s with rxQueue := rest }
  | receive (s : State) (f : Frame) (owner : f.body.ownerAgrees f.sender = true) (room : s.rxFrames < 32) :
      Move ok s { s with rxQueue := s.rxQueue ++ [.frame f] }
  | marker (s : State) (n : Station) (h : n ≠ s.number) : Move ok s { s with rxQueue := s.rxQueue ++ [.lapse n] }
  | emptyQueues (s : State) (h : s.station = .configured) : Move ok s { s with txQueue := [], rxQueue := [] }
  | enterExport (s : State) (x : ExportRecord) {tag : Half} {m : Byte} {i j off sum : Nat} {rec : ModuleRecord}
      (due : s.ExportDue x tag m i j off sum rec) : Move ok s ((s.enterExport x).arbitrate [])
  | event {s u : State} (h : Effect ok s u) (b : State) (order : List Bool) (slots : b.slots = s.slots) :
      Move ok s (u.endEvent b order)
  | abandon (s : State) (tag : Half) (m : Byte) (begun : Bool) (isolated : s.station = .isolated) (answers : s.answers = []) :
      Move ok s (s.abandonModule tag m begun)

/-- A change of station state, number, configuration, the last SUBMIT result or the RESET input. -/
inductive Change : State → State → Prop where
  | reset (s : State) (n : Station) (cut : Cut) : Change s (s.resetWith n cut)
  | resetLow (s : State) : Change s { s with inReset := true }
  | submit (s : State) (value : Word) : Change s (s.submit value)
  | configure (s : State) (c : ConfigRecord) (off : s.station = .off) (size : c.ringSize ∈ ringSizes) :
      Change s { s with
        config := some c
        station := .configured
        notices := ({ s.notices with ring := some { base := c.ringBase.toNat, size := c.ringSize }
                                     producer := 0, consumer := 0 } : NoticeUnit).testDrops }
  | join (s : State) (tag : Half) (configured : s.station = .configured) : Change s (s.startJoining tag)
  | leave (s : State) (tag : Half) (active : s.station = .active) (empty : s.modules = []) :
      Change s (({ s with station := .leaving, command := some (.stop tag), wanted := [.leave] } : State).arbitrate [])
  | isolate (s : State) : Change s s.cutFromBus
  | left (s : State) (leaving : s.station = .leaving) :
      Change s { s with peers := List.replicate 16 Peer.absent, station := .configured }
  | joined (s : State) (joining : s.station = .joining) : Change s { s with station := .active }

/-- A path of moves. -/
abbrev Moves (ok : Prop) : State → State → Prop := Relation.ReflTransGen (Move ok)

/-- A path of moves and changes. -/
abbrev Acts (ok : Prop) : State → State → Prop := Relation.ReflTransGen fun s t => Move ok s t ∨ Change s t

theorem Move.path {ok : Prop} {s t : State} (h : Move ok s t) : Moves ok s t := .single h

theorem Moves.acts {ok : Prop} {s t : State} (h : Moves ok s t) : Acts ok s t :=
  Relation.ReflTransGen.mono (fun _ _ => Or.inl) _ _ h

theorem Change.acts {ok : Prop} {s t : State} (h : Change s t) : Acts ok s t := .single (.inr h)

theorem Move.acts {ok : Prop} {s t : State} (h : Move ok s t) : Acts ok s t := .single (.inl h)

end Sys2Proof.Machine

/-! The pieces of the rows as paths of moves. -/

namespace Sys2Proof.Machine

variable {ok : Prop}

/-! ## Changes outside the tables -/

theorem aside_moves {s t : State} (h : t.core = s.core) : Moves ok s t := (Move.aside h).path

theorem served_moves (s : State) (c : Claimant) : Moves ok s (s.served c) := aside_moves rfl

theorem settleAgent_moves (s : State) : Moves ok s s.settleAgent := aside_moves rfl

theorem endFetch_moves (s : State) : Moves ok s s.endFetch := aside_moves rfl

theorem setRecord_moves (s : State) (x : Option TakenRecord) : Moves ok s (s.setRecord x) := aside_moves rfl

theorem openWindow_moves (s : State) (bits : List Bool) (a : Arrival) : Moves ok s (s.openWindow bits a) := aside_moves rfl

theorem dropTransfer_moves (s : State) : Moves ok s s.dropTransfer := by
  unfold State.dropTransfer
  split
  · exact served_moves s _
  · exact settleAgent_moves s

/-! ## Transfers -/

theorem forTransfers_moves (s : State) (env : Env) : Moves ok s (s.forTransfers env) :=
  (Move.memory (t := s.forTransfers env) (wf_afterStores _ _) rfl).path

theorem forReading_moves (s : State) (env : Env) : Moves ok s (s.forReading env) :=
  (forTransfers_moves s env).tail (.setAside (s.forTransfers env))

/-- Writes change local memory and the free values drawn alone. -/
theorem writeWords_core (env : Env) (ws : List Word) : ∀ (k a : Nat) (s : State),
    (State.writeWords env k a ws s).1.core =
      { s.core with mem := (State.writeWords env k a ws s).1.mem, freeCount := (State.writeWords env k a ws s).1.freeCount } := by
  induction ws with
  | nil => intro k a s; rfl
  | cons w ws ih =>
    intro k a s
    unfold State.writeWords
    split
    · exact ih _ _ _
    · rfl

theorem writeWords_moves (env : Env) (k a : Nat) (ws : List Word) (s : State) : Moves ok s (State.writeWords env k a ws s).1 :=
  (Move.memory (wf_writeWords env ws k a s) (writeWords_core env ws k a s)).path

theorem moves_of_writeWords {env : Env} {k a : Nat} {ws : List Word} {s t : State} {failed : Option Nat}
    (h : State.writeWords env k a ws s = (t, failed)) : Moves ok s t := by
  have moves := writeWords_moves (ok := ok) env k a ws s
  rwa [h] at moves

theorem makeTransfer_moves (s : State) (env : Env) (x : SiteTransfer) : Moves ok s (s.makeTransfer env x).1 := by
  refine (Move.memory (wf_makeTransfer env s x) ?_).path
  unfold State.makeTransfer
  dsimp only
  split
  · split <;> rfl
  · split
    · split <;> rfl
    · rfl

/-! ## The end of a command -/

theorem endCommand_moves (s : State) (tag : Half) (st : Status) (d : Nat) : Moves ok s (s.endCommand tag st d) :=
  .tail (.single (.post s _)) (.retire _)

theorem finishRemoval_moves (s : State) : Moves ok s s.finishRemoval := by
  unfold State.finishRemoval
  split
  · next tag m command =>
    split
    · next owns => exact .trans (Move.dropModule s m owns _ command rfl).path (endCommand_moves _ _ _ _)
    · exact .refl
  · next tag m e command =>
    split
    · next owns => exact .trans (Move.dropModule s m owns _ command rfl).path (endCommand_moves _ _ _ _)
    · exact .refl
  · exact .refl

/-! ## The head of the command queue -/

/-- What the reading of the head can come to, `t` being the state it is made in: nothing; the reading left; a failed
read; or the command carried out. -/
inductive HeadRun (s : State) (kind : Option CommandKind) (env : Env) (body : Half → List Word → State → State) : State → Prop where
  | nothing : HeadRun s kind env body s
  | left (words : List Word) (idle : s.command = none)
      (h : (s.forReading env).headPause env = some words) (mine : (words.head?.map fun w => commandOfCode (byteAt w 0)) = some kind) :
      HeadRun s kind env body (((s.forReading env).leaveHead env words).served .commandEngine)
  | failed (tag : Half) (e : Ending) :
      HeadRun s kind env body ((((s.forReading env).endCommand tag e.status e.detail).endFetch).served .commandEngine)
  | whole (tag : Half) (words : List Word) (idle : s.command = none)
      (h : (s.forReading env).readHead env = some (.whole kind tag words)) :
      HeadRun s kind env body ((body tag words (s.forReading env)).endFetch.served .commandEngine)

theorem forReading_runEnv (s : State) (c : Claimant) (env : Env) : s.forReading (s.runEnv c env) = s.forReading env := by
  obtain ⟨-, stores, -, -⟩ := runEnv_same s c env
  unfold State.forReading State.forTransfers
  rw [stores]

theorem runHead_cases (s : State) (kind : Option CommandKind) (env : Env) (body : Half → List Word → State → State) :
    HeadRun s kind (s.runEnv .commandEngine env) body (s.runHead kind env body) := by
  unfold State.runHead
  split
  · next may =>
    have idle : s.command = none := by
      simp only [State.mayExecute, Bool.and_eq_true, Option.isNone_iff_eq_none] at may
      exact may.2
    dsimp only
    split
    · next words pause =>
      split
      · next mine => exact .left words idle pause mine
      · exact .nothing
    · split
      · exact .nothing
      · split
        · exact .failed _ _
        · exact .nothing
      · next k tag words read =>
        split
        · next same =>
          subst same
          exact .whole tag words idle read
        · exact .nothing
  · exact .nothing

/-- A READ-ERROR of the first pass is that of the transfer that was not acknowledged. -/
theorem word_readError {r : Reading} {w field : Nat} {e : Ending} (h : r.word w field = .error e) (read : e.status = .readError) :
    r.env.failAt = some (r.transfer w) := by
  unfold Reading.word at h
  dsimp only at h
  split at h
  · cases h
    cases read
  · next within =>
    split at h
    · cases h
    · next unacked =>
      unfold acks at unacked
      have : r.base + 4 * w < Config.localBytes := by
        unfold Config.localBytes
        omega
      simpa [this] using unacked

/-- A first pass that meets a READ-ERROR behind its first word has found room in the module table (R17, R18). -/
theorem firstPass_room {s : State} {r : Reading} {a : Word} {e : Ending} (h : s.firstPass r a = .error e)
    (read : e.status = .readError) (behind : r.env.failAt ≠ some (r.transfer 0)) : s.modules.length < 32 := by
  by_contra full
  unfold State.firstPass at h
  cases h0 : r.word 0 0 with
  | error e0 =>
    rw [h0] at h
    cases h
    exact behind (word_readError h0 read)
  | ok w0 =>
    rw [h0] at h
    simp only [bind, Except.bind, requireField, require, Config.moduleRoom, full, decide_false] at h
    split at h
    · next he =>
      split at he
      · cases he
      · cases he; cases h; cases read
    · split at h
      · next he =>
        split at he
        · cases he
        · cases he; cases h; cases read
      · cases h
        cases read

theorem upTo_of_pauseAt {env : Env} {p : Nat} (h : pauseAt env = some p) : env.upTo = some p := by
  unfold pauseAt at h
  split at h
  · next hp _ =>
    split at h
    · cases h
    · rw [hp, h]
  · next hp _ => rw [hp, h]
  · cases h

theorem fetchMore_length (mem : Memory) (next : List Word → Nat) : ∀ (n : Nat) (ws : List Word),
    (fetchMore mem next n ws).length = ws.length + n
  | 0, ws => rfl
  | n + 1, ws => by
    rw [fetchMore, fetchMore_length mem next n, List.length_append, List.length_singleton]
    omega

/-- The reading is left after as many words as the step may read. -/
theorem headPause_length {s : State} {env : Env} {words : List Word} (h : s.headPause env = some words) :
    ∃ p, env.upTo = some p ∧ words.length = s.runs.fetched.length + p := by
  unfold State.headPause at h
  split at h
  · next p pause =>
    split at h
    · cases h
      exact ⟨p, upTo_of_pauseAt pause, fetchMore_length _ _ _ _⟩
    · cases h
  · cases h

/-- A READ-ERROR of a first pass, and the word of the run it is met at. -/
theorem firstPassReadError_some {s : State} {env : Env} (h : (s.firstPassReadError env).isSome = true) :
    s.station = .active ∧ ∃ (tag : Half) (args : List Word) (e : Ending), s.readHead env = some (.whole (some .load) tag args) ∧
      s.loadFirstPass env args = .error e ∧ e.status = .readError := by
  unfold State.firstPassReadError at h
  split at h
  · next tag args read =>
    split at h
    · next active =>
      split at h
      · next e fails =>
        unfold readErrorOf at h
        split at h
        · next status => exact ⟨active, tag, args, e, read, fails, status⟩
        · cases h
      · cases h
    · cases h
  · cases h

/-- What the state holds where a first pass is left behind its first word. -/
theorem leaveHead_cases {s : State} {env : Env} {words : List Word} (h : s.headPause env = some words) :
    s.leaveHead env words = { s with runs := { s.runs with fetched := words } } ∨
    (s.station = .active ∧ s.modules.length < 32 ∧ ∃ x : ModuleRecord, x.state = .loading ∧
      s.leaveHead env words = { s with runs := { s.runs with fetched := words }, modules := s.modules ++ [x] }) := by
  obtain ⟨p, upTo, length⟩ := headPause_length h
  unfold State.leaveHead
  dsimp only
  split
  · next d w0 rest =>
    split
    · next missed =>
      obtain ⟨active, tag, args, e, -, fails, status⟩ := firstPassReadError_some missed
      refine .inr ⟨active, ?_, _, rfl, rfl⟩
      unfold State.loadFirstPass at fails
      dsimp only at fails
      split at fails
      · cases fails
        cases status
      · refine firstPass_room fails status ?_
        simp only [resumed, upTo, Option.map_some, Reading.transfer]
        simp only [List.length_cons] at length
        intro same
        injection same
        omega
    · exact .inl rfl
  · exact .inl rfl

theorem leaveHead_moves {s : State} {env : Env} {words : List Word} (h : s.headPause env = some words) (idle : s.command = none) :
    Moves ok s (s.leaveHead env words) := by
  obtain plain | ⟨active, room, x, loading, made⟩ := leaveHead_cases h
  · rw [plain]
    exact aside_moves rfl
  · rw [made]
    exact .tail (aside_moves (t := { s with runs := { s.runs with fetched := words } }) rfl) (.loading _ x active idle loading room)

/-- A row that reads the head is a path where its command is one, from the state it is carried out in. -/
theorem runHead_path {R : State → State → Prop} {s : State} {kind : Option CommandKind} {env : Env}
    {body : Half → List Word → State → State} (moves : ∀ {a b}, Move ok a b → R a b)
    (kept : ∀ tag words, s.command = none → (s.forReading env).readHead (s.runEnv .commandEngine env) = some (.whole kind tag words) →
      Relation.ReflTransGen R (s.forReading env) (body tag words (s.forReading env))) :
    Relation.ReflTransGen R s (s.runHead kind env body) := by
  have path : ∀ {a b}, Moves ok a b → Relation.ReflTransGen R a b := fun h =>
    Relation.ReflTransGen.mono (fun _ _ => moves) _ _ h
  have cases := runHead_cases s kind env body
  have reading := path (forReading_moves s env)
  generalize s.runHead kind env body = t at cases
  cases cases with
  | nothing => exact .refl
  | left words idle h mine =>
    rw [forReading_runEnv] at h ⊢
    exact .trans reading (path (.trans (leaveHead_moves h idle) (served_moves _ _)))
  | failed tag e =>
    rw [forReading_runEnv]
    exact .trans reading (path (.trans (endCommand_moves _ _ _ _) (.trans (endFetch_moves _) (served_moves _ _))))
  | whole tag words idle h =>
    rw [forReading_runEnv] at h ⊢
    exact .trans reading (.trans (kept tag words idle h) (path (.trans (endFetch_moves _) (served_moves _ _))))

theorem runCommand_path {R : State → State → Prop} {s : State} {kind : CommandKind} {env : Env}
    {body : Half → List Word → State → State} (moves : ∀ {a b}, Move ok a b → R a b)
    (kept : ∀ tag words, s.command = none → kind.takenIn s.station = true →
      (s.forReading env).readHead (s.runEnv .commandEngine env) = some (.whole (some kind) tag words) →
      Relation.ReflTransGen R (s.forReading env) (body tag words (s.forReading env))) :
    Relation.ReflTransGen R s (s.runCommand kind env body) := by
  refine runHead_path moves fun tag words idle h => ?_
  split
  · next taken => exact kept tag words idle taken h
  · exact Relation.ReflTransGen.mono (fun _ _ => moves) _ _ (endCommand_moves _ _ _ _)

/-! ## LOAD -/

theorem require_ok {ok : Bool} {e : Ending} (h : require ok e = .ok ()) : ok = true := by
  unfold require at h
  split at h
  · assumption
  · cases h

theorem bind_ok {α β : Type} {x : Except Ending α} {f : α → Except Ending β} {b : β} (h : x >>= f = .ok b) :
    ∃ a, x = .ok a ∧ f a = .ok b := by
  cases x with
  | error e => cases h
  | ok a => exact ⟨a, rfl, h⟩

theorem firstPass_loadable {s : State} {r : Reading} {a : Word} {m : ModuleRecord} (h : s.firstPass r a = .ok m) :
    s.Loadable m := by
  unfold State.firstPass at h
  obtain ⟨w0, -, h⟩ := bind_ok h
  obtain ⟨_, -, h⟩ := bind_ok h
  obtain ⟨_, fresh, h⟩ := bind_ok h
  obtain ⟨_, room, h⟩ := bind_ok h
  obtain ⟨_, -, h⟩ := bind_ok h
  obtain ⟨_, -, h⟩ := bind_ok h
  obtain ⟨_, exports, h⟩ := bind_ok h
  obtain ⟨w1, -, h⟩ := bind_ok h
  obtain ⟨_, -, h⟩ := bind_ok h
  obtain ⟨_, imports, h⟩ := bind_ok h
  obtain ⟨_, -, h⟩ := bind_ok h
  obtain ⟨_, sites, h⟩ := bind_ok h
  obtain ⟨segments, -, h⟩ := bind_ok h
  obtain ⟨_, -, h⟩ := bind_ok h
  obtain ⟨sum, -, h⟩ := bind_ok h
  obtain ⟨_, -, h⟩ := bind_ok h
  cases h
  exact {
    loading := rfl
    fresh := by simpa using require_ok fresh
    room := of_decide_eq_true (require_ok room)
    exports := of_decide_eq_true (require_ok exports)
    imports := of_decide_eq_true (require_ok imports)
    sites := of_decide_eq_true (require_ok sites) }

theorem beginLoad_moves {s : State} (active : s.station = .active) (idle : s.command = none) (env : Env) (tag : Half)
    (words : List Word) : Moves ok s (s.beginLoad env tag words) := by
  unfold State.beginLoad
  split
  · exact endCommand_moves _ _ _ _
  · next m loaded =>
    unfold State.loadFirstPass at loaded
    dsimp only at loaded
    split at loaded
    · cases loaded
    · exact (Move.beginCommit s tag m _ active idle (firstPass_loadable loaded)).path

/-! ## UNLOAD, RESEEK, REPORT -/

theorem giveUp_moves (s b : State) (m : Byte) (begun : Bool) (c : Command) (h : c.isCommit = false) (order : List Bool)
    (slots : b.slots = s.slots) :
    Moves ok s ((({ s.giveUp m begun with command := some c } : State).endEvent b order).finishRemoval) :=
  .trans (Move.event (.giveUp s m begun c h) b order slots).path (finishRemoval_moves _)

theorem unloadModule_moves (s : State) (env : Env) (tag : Half) (words : List Word) : Moves ok s (s.unloadModule env tag words) := by
  unfold State.unloadModule
  dsimp only
  split
  · exact endCommand_moves _ _ _ _
  · exact giveUp_moves s s _ _ (.unload tag _) rfl _ rfl

theorem reseekModules_moves (s : State) (tag : Half) (words : List Word) : Moves ok s (s.reseekModules tag words) := by
  unfold State.reseekModules
  dsimp only
  split
  · exact endCommand_moves _ _ _ _
  · refine .trans (Move.event (.reseek s _ fun r h => ?_) s [] rfl).path (endCommand_moves _ _ _ _)
    exact (Bool.and_eq_true _ _ ▸ h).1

theorem readReport_isCommit {s : State} {tag : Half} {words : List Word} {c : Command} (h : s.readReport tag words = .ok c) :
    c.isCommit = false := by
  unfold State.readReport at h
  dsimp only at h
  split at h
  · cases h
  · obtain ⟨_, -, h⟩ := bind_ok h
    obtain ⟨_, -, h⟩ := bind_ok h
    obtain ⟨_, -, h⟩ := bind_ok h
    obtain ⟨_, -, h⟩ := bind_ok h
    cases h
    rfl

theorem beginReport_moves (s : State) (tag : Half) (words : List Word) : Moves ok s (s.beginReport tag words) := by
  unfold State.beginReport
  split
  · exact endCommand_moves _ _ _ _
  · next c read =>
    split
    · split
      · exact endCommand_moves _ _ _ _
      · exact (Move.proceed s _ (readReport_isCommit read)).path
    · exact .refl

end Sys2Proof.Machine

/-! What the reading of a name field comes to (R2, R183): the bytes of the name, each of them valid. -/

namespace Sys2Proof.Machine

/-! ## Name fields -/

/-- Byte `i` of the name in the name field at `off`. -/
def Reading.nameByte (r : Reading) (off i : Nat) : Byte :=
  byteAt (r.content (off / 4 + (i + 1) / 4)) ((i + 1) % 4)

/-- The first bytes, at the most `n` of them, of a name of `len` bytes. -/
def Reading.namePrefix (r : Reading) (off len n : Nat) : List Byte :=
  (List.range (min len n)).map (r.nameByte off)

/-- The bytes of a name that word `j` of its field holds, one by one. -/
theorem nameBytesIn_bytes (len j : Nat) (w : Word) : (nameBytesIn len j w).map (·.2) =
    ((List.range 4).filter fun k => decide (1 ≤ 4 * j + k) && decide (4 * j + k ≤ len)).map (byteAt w) := by
  rw [nameBytesIn, List.filter_map, List.map_map]
  rfl

/-- Which bytes of word `j` those are. -/
theorem nameIndexes (len j : Nat) : ((List.range 4).filter fun k => decide (1 ≤ 4 * j + k) && decide (4 * j + k ≤ len)) =
    List.range' (1 - 4 * j) (min (len + 1 - 4 * j) 4 - (1 - 4 * j)) := by
  cases j with
  | zero =>
    match len with
    | 0 | 1 | 2 => decide
    | n + 3 =>
      have count : min (n + 3 + 1 - 4 * 0) 4 - (1 - 4 * 0) = 3 := by omega
      rw [count]
      simp [List.range_succ, List.range']
  | succ j =>
    have low : 1 - 4 * (j + 1) = 0 := by omega
    rw [low, Nat.sub_zero]
    obtain none | ⟨d, hd⟩ : len < 4 * (j + 1) ∨ ∃ d, len = 4 * (j + 1) + d := by
      by_cases h : len < 4 * (j + 1)
      · exact .inl h
      · exact .inr ⟨len - 4 * (j + 1), by omega⟩
    · have count : min (len + 1 - 4 * (j + 1)) 4 = 0 := by omega
      rw [count]
      simp [List.range_succ]
      omega
    · subst hd
      match d with
      | 0 | 1 | 2 => simp [List.range_succ, List.range', Nat.add_assoc, Nat.mul_add]
      | n + 3 =>
        have count : min (4 * (j + 1) + (n + 3) + 1 - 4 * (j + 1)) 4 = 4 := by omega
        rw [count]
        simp [List.range_succ, List.range', Nat.add_assoc, Nat.mul_add]

/-- Word `j` of a name field holds the bytes of the name from `4 j - 1` up to `4 j + 2`. -/
theorem namePrefix_next (r : Reading) (off len j : Nat) :
    r.namePrefix off len (4 * j + 3) =
      r.namePrefix off len (4 * j - 1) ++ (nameBytesIn len j (r.content (off / 4 + j))).map (·.2) := by
  have byte : ∀ k, k < 4 → ∀ i, i + 1 = 4 * j + k → byteAt (r.content (off / 4 + j)) k = r.nameByte off i := by
    intro k hk i hi
    have hd : (i + 1) / 4 = j := by omega
    have hm : (i + 1) % 4 = k := by omega
    rw [Reading.nameByte, hd, hm]
  have more : min len (4 * j + 3) = min len (4 * j - 1) + (min (len + 1 - 4 * j) 4 - (1 - 4 * j)) := by omega
  rw [nameBytesIn_bytes, nameIndexes, Reading.namePrefix, Reading.namePrefix, more, List.range_add, List.map_append,
    List.range'_eq_map_range, List.map_map, List.map_map]
  refine congrArg _ (List.map_congr_left fun q hq => ?_)
  have inside := List.mem_range.mp hq
  exact (byte (1 - 4 * j + q) (by omega) (min len (4 * j - 1) + q) (by omega)).symm

/-- The words of a name field from word `7 - n` on (R2): the rest of the name, its bytes valid. -/
theorem nameWords_ok {r : Reading} {off len : Nat} : ∀ (n : Nat) {acc name : List Byte}, n ≤ 6 →
    acc = r.namePrefix off len (4 * (6 - n) + 3) → acc.all isNameByte = true → r.nameWords off len n acc = .ok name →
    name = r.namePrefix off len 27 ∧ name.all isNameByte = true
  | 0, acc, name, _, hacc, valid, h => by
    cases h
    exact ⟨hacc, valid⟩
  | n + 1, acc, name, hn, hacc, valid, h => by
    unfold Reading.nameWords at h
    obtain ⟨w, hw, h⟩ := bind_ok h
    have content := word_ok hw
    dsimp only at h
    split at h
    · cases h
    · next good =>
      have here : (nameBytesIn len (6 - n) w).all (fun p => isNameByte p.2) = true := by
        simpa [List.find?_eq_none] using good
      refine nameWords_ok n (by omega) ?_ ?_ h
      · have prefix_ := namePrefix_next r off len (6 - n)
        have before : 4 * (6 - n) - 1 = 4 * (6 - (n + 1)) + 3 := by omega
        rw [prefix_, before, hacc, content]
      · rw [List.all_append, valid, List.all_map, Bool.true_and]
        exact here

/-- A name field that is read holds the bytes of the name, and the name satisfies R1 (R2). -/
theorem name_ok {r : Reading} {off : Nat} {name : List Byte} (h : r.name off = .ok name) :
    name = (List.range name.length).map (r.nameByte off) ∧ name.length = (byteAt (r.content (off / 4)) 0).toNat ∧
      validName name = true := by
  unfold Reading.name at h
  obtain ⟨w, hw, h⟩ := bind_ok h
  have content := word_ok hw
  obtain ⟨_, length, h⟩ := bind_ok h
  have length : 1 ≤ (byteAt w 0).toNat ∧ (byteAt w 0).toNat ≤ 24 := by
    unfold requireField at length
    split at length
    · next ok => simpa using ok
    · cases length
  dsimp only at h
  split at h
  · cases h
  · next good =>
    have here : (nameBytesIn (byteAt w 0).toNat 0 w).all (fun p => isNameByte p.2) = true := by
      simpa [List.find?_eq_none] using good
    have first := namePrefix_next r off (byteAt w 0).toNat 0
    obtain ⟨all, valid⟩ := nameWords_ok 6 le_rfl (by
      rw [first, Nat.add_zero, ← content]
      simp [Reading.namePrefix]) (by rw [List.all_map]; exact here) h
    have count : min (byteAt w 0).toNat 27 = (byteAt w 0).toNat := by omega
    rw [Reading.namePrefix, count] at all
    have size : name.length = (byteAt w 0).toNat := by rw [all, List.length_map, List.length_range]
    refine ⟨by rw [size]; exact all, by rw [size, content], ?_⟩
    simp [validName, valid, size, length]

theorem exportRecord_valid {r : Reading} {segments : List Segment} {off : Nat} {x : ExportRecord}
    (h : r.exportRecord segments off = .ok x) : validName x.name = true := by
  unfold Reading.exportRecord at h
  obtain ⟨name, named, h⟩ := bind_ok h
  obtain ⟨_, -, h⟩ := bind_ok h
  obtain ⟨_, -, h⟩ := bind_ok h
  obtain ⟨_, -, h⟩ := bind_ok h
  obtain ⟨_, -, h⟩ := bind_ok h
  obtain ⟨_, -, h⟩ := bind_ok h
  obtain ⟨_, -, h⟩ := bind_ok h
  cases h
  obtain ⟨-, -, valid⟩ := name_ok named
  exact valid

theorem importRecord_valid {r : Reading} {segments : List Segment} {off : Nat} {x : ImportRecord}
    (h : r.importRecord segments off = .ok x) : validName x.name = true := by
  unfold Reading.importRecord at h
  obtain ⟨name, named, h⟩ := bind_ok h
  obtain ⟨_, -, h⟩ := bind_ok h
  obtain ⟨_, -, h⟩ := bind_ok h
  obtain ⟨_, -, h⟩ := bind_ok h
  obtain ⟨_, -, h⟩ := bind_ok h
  obtain ⟨_, -, h⟩ := bind_ok h
  cases h
  obtain ⟨-, -, valid⟩ := name_ok named
  exact valid

end Sys2Proof.Machine

/-! The rows as paths of moves, and of the changes of station state that they may make. -/

namespace Sys2Proof.Machine

variable {ok : Prop}

/-! ## The commit pass -/

theorem exportDue_of_readCommit {s : State} {env : Env} {x : ExportRecord} (h : s.readCommit env = some (.ok (.exported x))) :
    ∃ tag m i j off sum rec, s.ExportDue x tag m i j off sum rec := by
  unfold State.readCommit at h
  split at h
  · next tag m i j off sum command =>
    split at h
    · cases h
    · next rec module =>
      dsimp only at h
      split at h
      · cases h
      · split at h
        · next due =>
          obtain ⟨y, checked, h⟩ := bind_ok (Option.some.inj h)
          cases h
          unfold State.checkedExport at checked
          obtain ⟨z, record, checked⟩ := bind_ok checked
          obtain ⟨_, fresh, checked⟩ := bind_ok checked
          cases checked
          exact ⟨tag, m, i, j, off, sum, rec, command, module, due, exportRecord_valid record, by simpa using require_ok fresh⟩
        · split at h
          · obtain ⟨y, -, h⟩ := bind_ok (Option.some.inj h)
            obtain ⟨_, -, h⟩ := bind_ok h
            cases h
          · cases h
  · cases h

theorem importDue_of_readCommit {s : State} {env : Env} {x : ImportRecord} (h : s.readCommit env = some (.ok (.imported x))) :
    ∃ tag m i j off sum rec, s.ImportDue x tag m i j off sum rec := by
  unfold State.readCommit at h
  split at h
  · next tag m i j off sum command =>
    split at h
    · cases h
    · next rec module =>
      dsimp only at h
      split at h
      · cases h
      · split at h
        · obtain ⟨y, -, h⟩ := bind_ok (Option.some.inj h)
          cases h
        · split at h
          · next due =>
            obtain ⟨y, record, h⟩ := bind_ok (Option.some.inj h)
            obtain ⟨_, room, h⟩ := bind_ok h
            cases h
            refine ⟨tag, m, i, j, off, sum, rec, command, module, due, importRecord_valid record, ?_⟩
            unfold requireField at room
            split at room
            · next ok => exact of_decide_eq_true ok
            · cases room
          · cases h
  · cases h

theorem commitFault_moves (s : State) (env : Env) (e : Ending) : Moves ok s (s.commitFault env e) := by
  refine .trans ?_ (served_moves _ _)
  unfold State.takeOut
  split
  · exact giveUp_moves s s _ _ (.loadTakeOut _ _ e) rfl _ rfl
  · exact .refl

/-- What the reading of a commit record can come to, `t` being the state it is made in. -/
inductive RecordRead (s : State) (env : Env) (onRecord : CommitItem → State → State) (onFault : Ending → State → State) :
    State → Prop where
  | nothing : RecordRead s env onRecord onFault s
  | record (item : CommitItem) (h : (s.forTransfers env).readCommit env = some (.ok item)) :
      RecordRead s env onRecord onFault (onRecord item (s.forTransfers env).endFetch)
  | fault (e : Ending) (h : (s.forTransfers env).readCommit env = some (.error e)) :
      RecordRead s env onRecord onFault (onFault e (s.forTransfers env).endFetch)

theorem readRecord_cases (s : State) (env : Env) (onRecord : CommitItem → State → State) (onFault : Ending → State → State) :
    RecordRead s env onRecord onFault (s.readRecord env onRecord onFault) := by
  unfold State.readRecord
  split
  · dsimp only
    split
    · exact .nothing
    · next item h => exact .record item h
    · next e h => exact .fault e h
  · exact .nothing

theorem readRecord_moves {s : State} {env : Env} {onRecord : CommitItem → State → State} {onFault : Ending → State → State}
    (record : ∀ item, (s.forTransfers env).readCommit env = some (.ok item) →
      Moves ok s (onRecord item (s.forTransfers env).endFetch))
    (fault : ∀ e, Moves ok s (onFault e (s.forTransfers env).endFetch)) : Moves ok s (s.readRecord env onRecord onFault) := by
  have cases := readRecord_cases s env onRecord onFault
  generalize s.readRecord env onRecord onFault = t at cases
  cases cases with
  | nothing => exact .refl
  | record item h => exact record item h
  | fault e _ => exact fault e

theorem commitPause_moves {s t : State} {env : Env} (h : s.commitPause env = some t) : Moves ok s t := by
  unfold State.commitPause at h
  split at h
  · split at h
    · cases h
      exact aside_moves rfl
    · cases h
  · cases h

theorem commitStep_moves {s : State} {env : Env} {onPause : State → State} {onRecord : CommitItem → State → State}
    {onFault : Ending → State → State} (pause : ∀ t, Moves ok s t → Moves ok s (onPause t))
    (record : ∀ item, (s.forTransfers env).readCommit env = some (.ok item) →
      Moves ok s (onRecord item (s.forTransfers env).endFetch))
    (fault : ∀ e, Moves ok s (onFault e (s.forTransfers env).endFetch)) :
    Moves ok s (s.commitStep env onPause onRecord onFault) := by
  unfold State.commitStep
  split
  · next t left =>
    split
    · exact pause t (.trans (forTransfers_moves s env) (commitPause_moves left))
    · exact .refl
  · exact readRecord_moves record fault

/-- The state in which a record that has been read is entered. -/
theorem recordState_moves (s : State) (env : Env) : Moves ok s (s.forTransfers env).endFetch :=
  .trans (forTransfers_moves s env) (endFetch_moves _)

theorem loadCommitExport_moves {env : Env} {s t : State} (h : execLoadCommitExport env s = .next t) : Moves ok s t := by
  cases h
  split
  · refine commitStep_moves (fun t h => .trans h (served_moves _ _)) (fun item read => ?_)
      fun e => .trans (recordState_moves s env) (commitFault_moves _ env e)
    cases item with
    | exported x =>
      obtain ⟨tag, m, i, j, off, sum, rec, due⟩ := exportDue_of_readCommit read
      have due : (s.forTransfers env).endFetch.ExportDue x tag m i j off sum rec :=
        ⟨due.command, due.module, due.due, due.valid, due.fresh⟩
      exact .trans (recordState_moves s env) (.trans (Move.enterExport _ x due).path (served_moves _ _))
    | imported x => exact .refl
  · exact .refl

theorem loadCommitImport_moves {env : Env} {s t : State} (h : execLoadCommitImport env s = .next t) : Moves ok s t := by
  cases h
  split
  · exact .refl
  · refine commitStep_moves (fun t h => .trans h (served_moves _ _)) (fun item read => ?_)
      fun e => .trans (recordState_moves s env) (commitFault_moves _ env e)
    cases item with
    | exported x => exact .refl
    | imported x =>
      obtain ⟨tag, m, i, j, off, sum, rec, due⟩ := importDue_of_readCommit read
      have due : (s.forTransfers env).endFetch.ImportDue x tag m i j off sum rec :=
        ⟨due.command, due.module, due.due, due.valid, due.room⟩
      exact .trans (recordState_moves s env)
        (.trans (Move.event (.enterImport _ x due) (s.forTransfers env).endFetch [] rfl).path (served_moves _ _))

theorem loadCommitEnd_moves {s t : State} (h : execLoadCommitEnd s = .next t) : Moves ok s t := by
  cases h
  split
  · split
    · dsimp only
      exact .trans (.tail (.single (.setModuleState s _ _)) (.post _ _)) (.trans (endCommand_moves _ _ _ _) (settleAgent_moves _))
    · exact .refl
  · exact .refl

theorem loadCommitFault_moves {env : Env} {s t : State} (h : execLoadCommitFault env s = .next t) : Moves ok s t := by
  cases h
  exact commitStep_moves (fun _ _ => .refl) (fun _ _ => .refl)
    fun e => .trans (recordState_moves s env) (commitFault_moves _ env e)

/-! ## REPORT -/

theorem afterRecord_moves (s : State) (tag : Half) (sel : Selector) (m : Byte) (buffer capacity written : Nat) :
    Moves ok s (s.afterRecord tag sel m buffer capacity written) := by
  unfold State.afterRecord
  split
  · exact endCommand_moves _ _ _ _
  · split
    · exact endCommand_moves _ _ _ _
    · exact (Move.proceed s _ rfl).path

theorem writeRecord_moves (s : State) (env : Env) : Moves ok s (s.writeRecord env) := by
  unfold State.writeRecord
  split
  · split
    · exact endCommand_moves _ _ _ _
    · dsimp only
      split
      · next written =>
        exact .trans (moves_of_writeWords written) (.trans (endCommand_moves _ _ _ _) (setRecord_moves _ _))
      · next written =>
        split
        · exact .trans (moves_of_writeWords written) (setRecord_moves _ _)
        · exact .trans (moves_of_writeWords written) (.trans (setRecord_moves _ _) (afterRecord_moves ..))
  · exact .refl

theorem takeRecord_moves (s : State) : Moves ok s s.takeRecord := by
  unfold State.takeRecord
  split
  · exact setRecord_moves _ _
  · exact .refl

theorem reportRecordWrite_moves {env : Env} {s t : State} (h : execReportRecordWrite env s = .next t) : Moves ok s t := by
  cases h
  split
  · exact .refl
  · split
    · exact takeRecord_moves s
    · split
      · exact .trans (writeRecord_moves s env) (settleAgent_moves _)
      · split
        · exact .trans (forTransfers_moves s env) (.trans (writeRecord_moves _ _) (served_moves _ _))
        · exact .refl

/-! ## The line -/

theorem dropHeads_moves (n : Nat) : ∀ s : State, Moves ok s (State.dropHeads n s) := by
  induction n with
  | zero => exact fun s => .refl
  | succ n ih =>
    intro s
    unfold State.dropHeads
    split
    · exact .refl
    · next x xs queue =>
      split
      · exact .refl
      · exact .trans (Move.leaveQueue s xs (by rw [queue, List.tail_cons])).path (ih _)

theorem beginFrame_moves (s : State) : Moves ok s s.beginFrame := by
  unfold State.beginFrame
  split
  · split
    · exact aside_moves rfl
    · exact .refl
  · dsimp only
    split
    · exact dropHeads_moves _ _
    · exact .trans (dropHeads_moves _ _) (aside_moves rfl)

theorem frameBegin_moves {idle : Nat} {s t : State} (h : execFrameBegin idle s = .next t) : Moves ok s t := by
  cases h
  split
  · exact .trans (beginFrame_moves s) (settleAgent_moves _)
  · exact .refl

theorem contentionLost_moves {bit : Nat} {s t : State} (h : execContentionLost bit s = .next t) : Moves ok s t := by
  cases h
  split
  · split
    · exact aside_moves rfl
    · exact .refl
  all_goals exact .refl

theorem contentionWon_moves {s t : State} (h : execContentionWon s = .next t) : Moves ok s t := by
  cases h
  split
  · next source f _ =>
    split
    · exact .refl
    · refine .trans ?_ (settleAgent_moves _)
      refine .trans (aside_moves (t := { s with
        line := .sending
        outgoing := some { frame := f, holds := 0, stalled := false }
        nextSequence := s.nextSequence + 1 }) rfl) ?_
      cases source with
      | answer o => exact (Move.answered _ o).path
      | queue => exact (Move.leaveQueue _ _ rfl).path
  all_goals exact .refl

theorem senderBitMismatch_moves {pos : Nat} {s t : State} (h : execSenderBitMismatch pos s = .next t) : Moves ok s t := by
  cases h
  split
  · split
    · exact aside_moves rfl
    · exact .refl
  · exact .refl

theorem frameCutOff_moves {bits : List Bool} {quiet : Nat} {s t : State} (h : execFrameCutOff bits quiet s = .next t) :
    Moves ok s t := by
  cases h
  split
  · exact openWindow_moves _ _ _
  · exact .refl

theorem completeStop_moves {s : State} (configured : s.station = .configured) : Moves ok s s.completeStop := by
  unfold State.completeStop
  split
  · exact .trans (aside_moves (t := { s with held := none, line := .quiet }) rfl)
      (.trans (Move.emptyQueues { s with held := none, line := .quiet } configured).path (endCommand_moves _ _ _ _))
  · exact .refl

theorem countHold_moves (s : State) : Moves ok s s.countHold := by
  unfold State.countHold
  split
  · exact .refl
  · next o _ =>
    dsimp only
    split
    · exact .trans (.tail (aside_moves (t := { s with outgoing := some { o with
        holds := o.holds + 1, stalled := o.stalled || (decide (Config.stallCount ≤ o.holds + 1) && !o.stalled) } }) rfl)
        (.post _ _)) (settleAgent_moves _)
    · exact aside_moves rfl

theorem windowHeld_moves (s : State) (w : Window) : Moves ok s (s.windowHeld w) := by
  unfold State.windowHeld
  have first : Moves ok s { s with held := some (heldRecordAfter s.held w), line := .quiet } := aside_moves rfl
  dsimp only
  split
  · exact .trans first (countHold_moves _)
  · exact first

theorem windowCarried_moves (s : State) (w : Window) : Moves ok s (s.windowCarried w) := by
  unfold State.windowCarried
  dsimp only
  split
  · have first : Moves ok s { s with held := none, line := .quiet, busSeen := true, outgoing := none } := aside_moves rfl
    split
    · next configured => exact .trans first (.trans (completeStop_moves configured) (settleAgent_moves _))
    · exact first
  · exact aside_moves rfl

theorem holdWindowEnd_moves {othersPull : Bool} {s t : State} (h : execHoldWindowEnd othersPull s = .next t) : Moves ok s t := by
  cases h
  split
  · split
    · exact .refl
    · split
      · exact windowHeld_moves _ _
      · exact windowCarried_moves _ _
  all_goals exact .refl

theorem repeatFrame_moves {idle : Nat} {s t : State} (h : execRepeatFrame idle s = .next t) : Moves ok s t := by
  cases h
  split
  · split
    · exact aside_moves rfl
    · exact .refl
  · exact .refl

/-! ## Receive processing -/

/-- What the taking of a frame can come to. -/
inductive FrameTaken (s : State) (mine : Frame → Bool) (f : Frame → State → State) : State → Prop where
  | nothing : FrameTaken s mine f s
  | taken (x : Frame) (rest : List RxItem) (head : s.rxQueue = .frame x :: rest) (onBus : s.onBus = true)
      (isMine : mine x = true) : FrameTaken s mine f (f x { s with rxQueue := rest }).settleAgent

theorem takeFrame_cases (s : State) (mine : Frame → Bool) (f : Frame → State → State) :
    FrameTaken s mine f (s.takeFrame mine f) := by
  unfold State.takeFrame
  split
  · next x rest head =>
    split
    · next both =>
      rw [Bool.and_eq_true] at both
      exact .taken x rest head both.1 both.2
    · exact .nothing
  · exact .nothing
  · exact .nothing

theorem takeFrame_path {R : State → State → Prop} {s : State} {mine : Frame → Bool} {f : Frame → State → State}
    (moves : ∀ {a b}, Move ok a b → R a b)
    (kept : ∀ x rest, s.rxQueue = .frame x :: rest → mine x = true →
      Relation.ReflTransGen R { s with rxQueue := rest } (f x { s with rxQueue := rest })) :
    Relation.ReflTransGen R s (s.takeFrame mine f) := by
  have cases := takeFrame_cases s mine f
  generalize s.takeFrame mine f = t at cases
  cases cases with
  | nothing => exact .refl
  | taken x rest head _ isMine =>
    exact .head (moves (.takeRx s _ rest head)) (.tail (kept x rest head isMine) (moves (.aside rfl)))

theorem hear_moves (s : State) (f : Frame) : Moves ok s (s.hear f) := (Move.updatePeer s f.sender _ fun _ _ => rfl).path

end Sys2Proof.Machine

/-! Every row as a path: a path of moves where it leaves station state, number and configuration, and a path of moves and
changes in any case. -/

namespace Sys2Proof.Machine

variable {ok : Prop}

/-! ## Frames applied -/

/-- Every CLASH in the receive queue names its sender as owner (R131). -/
def State.ClashesOwned (s : State) : Prop :=
  ∀ f, RxItem.frame f ∈ s.rxQueue → f.body.ownerAgrees f.sender = true

theorem isPresent_hear {s : State} (f : Frame) (table : s.peers.length = 16) : (s.hear f).isPresent f.sender = true := by
  have inside : f.sender.val < s.peers.length := by
    rw [table]
    exact f.sender.isLt
  simp [State.isPresent, State.hear, State.updatePeer, inside]

theorem hear_peers_length (s : State) (f : Frame) : (s.hear f).peers.length = s.peers.length := by
  simp [State.hear, State.updatePeer]

theorem meetClaim_peers (s : State) (k : Key) (p : Pair) (refused : List Pair) : (s.meetClaim k p refused).peers = s.peers := by
  unfold State.meetClaim
  split
  · rfl
  · split
    · rfl
    · split
      · rfl
      · unfold State.oweClash
        split <;> rfl
    · rfl
    · rfl

theorem meetOwnAnnounce_peers (s : State) (k : Key) (g : Half) : (s.meetOwnAnnounce k g).peers = s.peers := by
  unfold State.meetOwnAnnounce
  split
  · rfl
  · split <;> rfl

/-- Owner data of a present station: what its event does after the Directory's part. -/
theorem ownerData_moves {s u b : State} {f : Frame} {k : Key} {d : Binding} {refused : List Pair} (directory : Moves ok (s.hear f) u)
    (peers : u.peers = (s.hear f).peers) (slots : b.slots = u.slots) (definer : ok → d.definer = f.sender) :
    Moves ok s ((u.clashKey k d refused).endEvent b) := by
  refine .trans (hear_moves s f) (.trans directory (Move.event (.clash u k d refused fun holds table => ?_) b [] slots).path)
  rw [peers, hear_peers_length] at table
  have present := isPresent_hear f table
  rw [definer holds, State.isPresent, peers]
  exact present

theorem meetClaim_slots (s : State) (k : Key) (p : Pair) (refused : List Pair) : (s.meetClaim k p refused).slots = s.slots := by
  unfold State.meetClaim
  split
  · rfl
  · split
    · rfl
    · split
      · rfl
      · unfold State.oweClash
        split <;> rfl
    · rfl
    · rfl

theorem meetOwnAnnounce_slots (s : State) (k : Key) (g : Half) : (s.meetOwnAnnounce k g).slots = s.slots := by
  unfold State.meetOwnAnnounce
  split
  · rfl
  · split <;> rfl

/-- The Directory's part of owner data, and the pass over the references. -/
theorem claimed_moves {s b : State} {f : Frame} {k : Key} {d : Binding} {refused : List Pair} (own : Bool)
    (isOwn : own = s.isOwn f) (slots : b.slots = s.slots) (definer : ok → d.definer = f.sender) :
    Moves ok s (((if own then s.hear f else (s.hear f).meetClaim k d.pair refused).clashKey k d refused).endEvent b) := by
  cases own with
  | true => exact ownerData_moves .refl rfl slots definer
  | false =>
    refine ownerData_moves (Move.meetClaim _ k d.pair refused fun holds => ?_).path (meetClaim_peers ..) ?_ definer
    · have other : f.sender ≠ s.number := of_decide_eq_false isOwn.symm
      exact fun same => other (definer holds ▸ same)
    · show b.slots = ((s.hear f).meetClaim k d.pair refused).slots
      rw [meetClaim_slots]
      exact slots

theorem offerData_definer {f : Frame} {k : Key} {b : Binding} (h : f.offerData = some (k, b)) : b.definer = f.sender := by
  unfold Frame.offerData at h
  split at h
  · cases h; rfl
  · cases h

theorem announceData_definer {f : Frame} {k : Key} {b : Binding} (h : f.announceData = some (k, b)) : b.definer = f.sender := by
  unfold Frame.announceData at h
  split at h
  · cases h; rfl
  · cases h

theorem clashData_definer {f : Frame} {k : Key} {b : Binding} {refused : List Pair} (h : f.clashData = some (k, b, refused))
    (owned : f.body.ownerAgrees f.sender = true) : b.definer = f.sender := by
  unfold Frame.clashData at h
  split at h
  · next body =>
    rw [body] at owned
    cases h
    exact of_decide_eq_true owned
  · cases h

theorem departs_moves (s : State) (n : Station) (cause : PeerLoss) : Moves ok s (s.departs n cause) := by
  unfold State.departs
  split
  · exact (Move.event (.depart s n cause) s [] rfl).path
  · exact .refl

/-! ## Rows of receive processing -/

variable {s t : State}

theorem lapse_moves (h : execLapse s = .next t) : Moves ok s t := by
  cases h
  split
  · next n rest queue =>
    split
    · exact .trans (Move.takeRx s _ rest queue).path (.trans (departs_moves _ _ _) (settleAgent_moves _))
    · exact .refl
  all_goals exact .refl

theorem seekTaken_moves (h : execSeekTaken s = .next t) : Moves ok s t := by
  cases h
  refine takeFrame_path id fun f rest _ isMine => ?_
  split
  · next scope name _ =>
    exact .trans (hear_moves _ f) (.trans (.tail (.single (.meetSeek _ _)) (.enterOut _ _)) (Move.arbitrate _ []).path)
  · next none_ => simp [none_] at isMine

theorem ownSeekTaken_moves (h : execOwnSeekTaken s = .next t) : Moves ok s t := by
  cases h
  refine takeFrame_path id fun f rest _ isMine => ?_
  split
  · exact .trans (hear_moves _ f) (.tail (.single (.enterOut _ _)) (.arbitrate _ []))
  · next none_ => simp [none_] at isMine

theorem offerTaken_moves (h : execOfferTaken s = .next t) : Moves ok s t := by
  cases h
  refine takeFrame_path id fun f rest _ isMine => ?_
  split
  · next k b data =>
    dsimp only
    rw [bindKey_eq_clashKey]
    exact claimed_moves (s := { s with rxQueue := rest }) (s.isOwn f) rfl rfl fun _ => offerData_definer data
  · next none_ => simp [none_] at isMine

theorem announceTaken_moves (h : execAnnounceTaken s = .next t) : Moves ok s t := by
  cases h
  refine takeFrame_path id fun f rest _ isMine => ?_
  have other : s.isOwn f = false := by
    rw [Bool.and_eq_true] at isMine
    simpa using isMine.1
  split
  · next k b data =>
    rw [bindKey_eq_clashKey]
    exact claimed_moves (s := { s with rxQueue := rest }) (b := s) false other.symm rfl fun _ => announceData_definer data
  · next none_ => simp [none_] at isMine

theorem ownAnnounceTaken_moves (h : execOwnAnnounceTaken s = .next t) : Moves ok s t := by
  cases h
  refine takeFrame_path id fun f rest _ isMine => ?_
  split
  · next k b data =>
    rw [bindKey_eq_clashKey]
    exact ownerData_moves (s := { s with rxQueue := rest }) (b := s) (Move.meetOwnAnnounce _ k _).path (meetOwnAnnounce_peers ..)
      (by rw [meetOwnAnnounce_slots]; rfl) fun _ => announceData_definer data
  · next none_ => simp [none_] at isMine

theorem clashTaken_moves (owned : ok → s.ClashesOwned) (h : execClashTaken s = .next t) : Moves ok s t := by
  cases h
  refine takeFrame_path id fun f rest head isMine => ?_
  split
  · next k b refused data =>
    exact claimed_moves (s := { s with rxQueue := rest }) (s.isOwn f) rfl rfl fun holds =>
      clashData_definer data (owned holds f (head ▸ List.mem_cons_self))
  · next none_ => simp [none_] at isMine

theorem withdrawTaken_moves (h : execWithdrawTaken s = .next t) : Moves ok s t := by
  cases h
  refine takeFrame_path id fun f rest _ isMine => ?_
  split
  · exact .trans (hear_moves _ f) (Move.event (.withdraw (State.hear { s with rxQueue := rest } f) _ _ _) s [] rfl).path
  · next none_ => simp [none_] at isMine

theorem ownWithdrawTaken_moves (h : execOwnWithdrawTaken s = .next t) : Moves ok s t := by
  cases h
  refine takeFrame_path id fun f rest _ isMine => ?_
  split
  · exact .trans (hear_moves _ f) (.trans (.tail (.single (.removeWithdrawn _ _ _)) (.event (.revoke _ _ _) s [] (by rfl)))
      (finishRemoval_moves _))
  · next none_ => simp [none_] at isMine

theorem leaveTaken_moves (h : execLeaveTaken s = .next t) : Moves ok s t := by
  cases h
  exact takeFrame_path id fun f rest _ _ => departs_moves _ _ _

theorem joinTaken_moves (h : execJoinTaken s = .next t) : Moves ok s t := by
  cases h
  refine takeFrame_path id fun f rest _ _ => ?_
  split
  · exact .trans (hear_moves _ f) (Move.event (.rejoin (State.hear { s with rxQueue := rest } f) _ _) { s with rxQueue := rest } [] rfl).path
  · exact hear_moves _ f

/-! ## Timers, the Patch Engine, the Notice Unit, the memory agent -/

theorem seekTimerExpiry_moves {slot elapsed : Nat} (h : execSeekTimerExpiry slot elapsed s = .next t) : Moves ok s t := by
  cases h
  split
  · next x c used _ =>
    split
    · refine .trans ?_ (settleAgent_moves _)
      unfold State.expire
      split
      · exact (Move.retry s slot _ x used).path
      · exact (Move.event (.exhaust s slot) s [] rfl).path
    · exact .refl
  · exact .refl

theorem mem_of_ref? {o : Owner} {r : Ref} (h : s.ref? o = some r) : r ∈ s.refs ∧ r.owner = o :=
  ⟨List.mem_of_find?_eq_some h, by simpa using List.find?_some h⟩

theorem walkBegin_moves (h : execWalkBegin s = .next t) : Moves ok s t := by
  cases h
  split
  · exact .refl
  · split
    · exact .refl
    · split
      · exact .refl
      · next r row =>
        exact .trans (Move.event (.beginWalk s r (mem_of_ref? row).1) s [] rfl).path (settleAgent_moves _)

theorem makeTransfer_slots (s : State) (env : Env) (x : SiteTransfer) : (s.makeTransfer env x).1.slots = s.slots := by
  unfold State.makeTransfer
  dsimp only
  split
  · split <;> rfl
  · split
    · split <;> rfl
    · rfl

theorem endTransfer_moves (s : State) (env : Env) (x : SiteTransfer) : Moves ok s (s.endTransfer env x) := by
  unfold State.endTransfer
  dsimp only
  have made : Moves ok s { (s.makeTransfer env x).1 with transfer := none } :=
    .trans (makeTransfer_moves s env x) (aside_moves rfl)
  have slots : s.slots = ({ (s.makeTransfer env x).1 with transfer := none } : State).slots := (makeTransfer_slots s env x).symm
  split
  · exact made
  · split
    · exact .trans made (Move.event (.afterSite _ _) s [] slots).path
    · exact .trans made (Move.event (.busFault _ _ _) s [] slots).path

theorem siteWriteDone_moves {env : Env} (h : execSiteWriteDone env s = .next t) : Moves ok s t := by
  cases h
  split
  · split
    · exact .trans (forTransfers_moves s env) (.trans (endTransfer_moves _ _ _) (served_moves _ _))
    · exact .refl
  · exact .refl

theorem writeWords_notices {env : Env} {ws : List Word} {k a : Nat} {s t : State} {failed : Option Nat}
    (h : State.writeWords env k a ws s = (t, failed)) : t.notices = s.notices := by
  have core := writeWords_core env ws k a s
  rw [h] at core
  have notices := congrArg State.notices core
  exact notices

theorem writeNotice_moves {s : State} (env : Env) {r : Ring} {x : Reserved} {behind : List Reserved} (ring : s.notices.ring = some r)
    (list : s.notices.list = x :: behind) : Moves ok s (s.writeNotice env r x) := by
  unfold State.writeNotice
  dsimp only
  split
  · next u _ written =>
    refine .trans (moves_of_writeWords written) (.trans (aside_moves (t := u.setNoticeWords 0) rfl) ?_)
    exact (Move.notices (u.setNoticeWords 0) .writeFailed).path
  · next u written =>
    refine .trans (moves_of_writeWords written) ?_
    have same := writeWords_notices written
    split
    · exact aside_moves rfl
    · refine .trans (aside_moves (t := u.setNoticeWords 0) rfl) ?_
      refine (Move.notices (u.setNoticeWords 0) (.published r ?_ ?_)).path
      · exact (congrArg NoticeUnit.ring same).trans ring
      · intro none_
        have := (congrArg NoticeUnit.list same).symm.trans none_
        rw [list] at this
        cases this

theorem noticeWriteDone_moves {env : Env} (h : execNoticeWriteDone env s = .next t) : Moves ok s t := by
  cases h
  split
  · next ring list =>
    split
    · exact .trans (forTransfers_moves s env) (.trans (writeNotice_moves _ ring list) (served_moves _ _))
    · exact .refl
  · exact .refl

theorem timeoutAtHead_moves (s : State) (env : Env) : Moves ok s (s.timeoutAtHead env) := by
  unfold State.timeoutAtHead
  dsimp only
  split
  · exact .trans (forReading_moves s env) (.trans (endCommand_moves _ _ _ _) (.trans (endFetch_moves _) (served_moves _ _)))
  · exact .refl

theorem timeoutInReport_moves (s : State) (env : Env) : Moves ok s (s.timeoutInReport env) := by
  unfold State.timeoutInReport
  dsimp only
  split
  · split
    · split
      · exact .trans (forTransfers_moves s env) (.trans (writeRecord_moves _ _) (served_moves _ _))
      · exact .refl
    · exact .refl
  · exact .refl

theorem commandTimeout_moves (s : State) (env : Env) : Moves ok s (s.commandTimeout env) := by
  unfold State.commandTimeout
  split
  · exact .refl
  · split
    · exact timeoutAtHead_moves s env
    · split
      · exact timeoutInReport_moves s env
      · refine readRecord_moves (fun _ _ => .refl) fun e => ?_
        split
        · exact .trans (recordState_moves s env) (commitFault_moves _ env e)
        · exact .refl

theorem patchTimeout_moves (s : State) (env : Env) : Moves ok s (s.patchTimeout env) := by
  unfold State.patchTimeout
  split
  · dsimp only
    split
    · exact .trans (forTransfers_moves s env) (.trans (endTransfer_moves _ _ _) (served_moves _ _))
    · exact .refl
  · exact .refl

theorem noticeTimeout_moves (s : State) (env : Env) : Moves ok s (s.noticeTimeout env) := by
  unfold State.noticeTimeout
  split
  · next ring list =>
    dsimp only
    split
    · exact .trans (forTransfers_moves s env) (.trans (writeNotice_moves _ ring list) (served_moves _ _))
    · exact .refl
  · exact .refl

theorem memoryAckTimeout_moves {claimant : Claimant} {env : Env} (h : execMemoryAckTimeout claimant env s = .next t) :
    Moves ok s t := by
  cases h
  cases claimant with
  | commandEngine => exact commandTimeout_moves s _
  | patchEngine => exact patchTimeout_moves s _
  | noticeUnit => exact noticeTimeout_moves s _

/-! ## The local port -/

theorem windowWrite_cases (s : State) (f : State → State) : s.windowWrite f = s ∨ (s.inReset = false ∧ s.windowWrite f = f s) := by
  unfold State.windowWrite
  cases s.inReset with
  | true => exact .inl rfl
  | false => exact .inr ⟨rfl, rfl⟩

theorem nconsWrite_moves {value : Word} (h : execNconsWrite value s = .next t) : Moves ok s t := by
  cases h
  obtain kept | ⟨-, written⟩ := windowWrite_cases s fun s => State.settleAgent { s with notices := s.notices.release value.toNat }
  · rw [kept]
  · rw [written]
    exact .trans (Move.notices s (.release _)).path (settleAgent_moves _)

theorem istatWrite_moves {value : Word} (h : execIstatWrite value s = .next t) : Moves ok s t := by
  cases h
  obtain kept | ⟨-, written⟩ := windowWrite_cases s fun s => { s with notices := s.notices.clearFlags value }
  · rw [kept]
  · rw [written]
    exact (Move.notices s (.clearFlags _)).path

/-! ## The rows that change nothing but the tables -/

/-- The rows that may reset, take a submission, or change the station state. -/
def mayChange : Instr → Bool
  | .pinReset .. => true
  | .portReset .. => true
  | .interruptEnableWrite _ => true
  | .submission _ => true
  | .configure _ => true
  | .start _ => true
  | .stop _ => true
  | .frameArrival .. => true
  | .reservationLapse .. => true
  | .ownLeaveTaken => true
  | .ownJoinTaken => true
  | .resetLow => true
  | _ => false

/-- Every other row is a path of moves. -/
theorem exec_moves {c : Instr} (plain : mayChange c = false) (owned : ok → s.ClashesOwned) (h : exec c s = .next t) :
    Moves ok s t := by
  cases c with
  | pinReset | portReset | interruptEnableWrite | submission | configure | start | stop | frameArrival | reservationLapse
  | ownLeaveTaken | ownJoinTaken | resetLow => cases plain
  | nconsWrite value => exact nconsWrite_moves h
  | istatWrite value => exact istatWrite_moves h
  | ignoredRegisterWrite => cases h; exact .refl
  | unknownCommandCode env => cases h; exact runHead_path id fun _ _ _ _ => endCommand_moves _ _ _ _
  | load env =>
    cases h
    exact runCommand_path id fun _ _ idle taken _ =>
      beginLoad_moves (s := s.forReading env) (of_decide_eq_true taken) idle _ _ _
  | loadCommitExport env => exact loadCommitExport_moves h
  | loadCommitImport env => exact loadCommitImport_moves h
  | loadCommitEnd => exact loadCommitEnd_moves h
  | loadCommitFault env => exact loadCommitFault_moves h
  | unload env => cases h; exact runCommand_path id fun _ _ _ _ _ => unloadModule_moves _ _ _ _
  | reseek env => cases h; exact runCommand_path id fun _ _ _ _ _ => reseekModules_moves _ _ _
  | report env => cases h; exact runCommand_path id fun _ _ _ _ _ => beginReport_moves _ _ _
  | reportRecordWrite env => exact reportRecordWrite_moves h
  | frameBegin idle => exact frameBegin_moves h
  | contentionLost bit => exact contentionLost_moves h
  | contentionWon => exact contentionWon_moves h
  | senderBitMismatch pos => exact senderBitMismatch_moves h
  | frameCutOff bits quiet => exact frameCutOff_moves h
  | holdWindowEnd othersPull => exact holdWindowEnd_moves h
  | repeatFrame idle => exact repeatFrame_moves h
  | lapse => exact lapse_moves h
  | seekTaken => exact seekTaken_moves h
  | ownSeekTaken => exact ownSeekTaken_moves h
  | offerTaken => exact offerTaken_moves h
  | announceTaken => exact announceTaken_moves h
  | ownAnnounceTaken => exact ownAnnounceTaken_moves h
  | clashTaken => exact clashTaken_moves owned h
  | withdrawTaken => exact withdrawTaken_moves h
  | ownWithdrawTaken => exact ownWithdrawTaken_moves h
  | leaveTaken => exact leaveTaken_moves h
  | joinTaken => exact joinTaken_moves h
  | seekTimerExpiry slot elapsed => exact seekTimerExpiry_moves h
  | walkBegin => exact walkBegin_moves h
  | siteWriteDone env => exact siteWriteDone_moves h
  | memoryAckTimeout claimant env => exact memoryAckTimeout_moves h
  | noticeWriteDone env => exact noticeWriteDone_moves h

end Sys2Proof.Machine

/-! The rows that may change the station state, reset, or take a submission, as paths of moves and changes. -/

namespace Sys2Proof.Machine

variable {ok : Prop} {s t : State}

/-! ## Resets and the local port -/

theorem writePctl_acts (s : State) (value : Word) (cut : Cut) : Acts ok s (s.writePctl value cut) := by
  unfold State.writePctl
  split
  · exact (Change.reset s _ cut).acts
  · exact (Move.notices s (.enable _)).acts

theorem windowWrite_acts {f : State → State} (h : Acts ok s (f s)) : Acts ok s (s.windowWrite f) := by
  obtain kept | ⟨-, written⟩ := windowWrite_cases s f
  · rw [kept]
  · rwa [written]

/-! ## Commands that change the station state -/

theorem readConfig_size {words : List Word} {c : ConfigRecord} (h : readConfig words = .ok c) : c.ringSize ∈ ringSizes := by
  unfold readConfig at h
  dsimp only at h
  split at h
  · cases h
  split at h
  · cases h
  split at h
  · cases h
  split at h
  · cases h
  split at h
  · cases h
  split at h
  · cases h
  next size =>
  split at h
  · cases h
  · cases h
    exact not_not.mp size

theorem configure_acts {s : State} (off : s.station = .off) (tag : Half) (words : List Word) : Acts ok s (s.configure tag words) := by
  unfold State.configure
  split
  · exact (endCommand_moves _ _ _ _).acts
  · next c read => exact .trans (Change.configure s c off (readConfig_size read)).acts (endCommand_moves _ _ _ _).acts

theorem startJoining_acts {s : State} (configured : s.station = .configured) (tag : Half) : Acts ok s (s.startJoining tag) :=
  (Change.join s tag configured).acts

theorem stopLeaving_acts {s : State} (active : s.station = .active) (tag : Half) : Acts ok s (s.stopLeaving tag) := by
  unfold State.stopLeaving
  split
  · exact (endCommand_moves _ _ _ _).acts
  · next empty => exact (Change.leave s tag active (not_not.mp empty)).acts

theorem runCommand_acts {kind : CommandKind} {env : Env} {body : Half → List Word → State → State}
    (kept : ∀ tag words, kind.takenIn s.station = true →
      Acts ok (s.forReading env) (body tag words (s.forReading env))) : Acts ok s (s.runCommand kind env body) :=
  runCommand_path (fun h => .inl h) fun tag words _ taken _ => kept tag words taken

/-! ## Isolation -/

/-- What the blocks of an isolated station still do: the command in progress is ended. -/
theorem isolate_moves (s : State) (begun : Bool) : Moves ok s.cutFromBus (s.isolate begun) := by
  have posted : Moves ok s.cutFromBus (s.cutFromBus.post .stationIsolated) := (Move.post _ _).path
  refine .trans posted ?_
  unfold State.isolate
  dsimp only
  have abandoned : ∀ tag m b, Moves ok (s.cutFromBus.post .stationIsolated)
      ((s.cutFromBus.post .stationIsolated).abandonModule tag m b).dropTransfer := fun tag m b =>
    .trans (Move.abandon _ tag m b rfl rfl).path (dropTransfer_moves _)
  split
  · exact abandoned _ _ _
  · exact abandoned _ _ _
  · exact abandoned _ _ _
  · exact .trans (endCommand_moves _ _ _ _) (dropTransfer_moves _)
  · exact .trans (endCommand_moves _ _ _ _) (dropTransfer_moves _)
  · exact settleAgent_moves _
  · split
    · exact .trans (Move.setAside _).path (.trans (endCommand_moves _ _ _ _) (.trans (endFetch_moves _) (dropTransfer_moves _)))
    · exact settleAgent_moves _

theorem isolate_acts (s : State) (begun : Bool) : Acts ok s (s.isolate begun) :=
  .trans (Change.isolate s).acts (isolate_moves s begun).acts

/-! ## Arrival and lapse -/

theorem readFrame_owned {bits : List Bool} {f : Frame} (h : readFrame bits = some f) : f.body.ownerAgrees f.sender = true := by
  unfold readFrame at h
  dsimp only at h
  split at h
  · cases h
  split at h
  · cases h
  split at h
  · cases h
  split at h
  · split at h
    · next owned =>
      cases h
      exact owned
    · cases h
  · cases h

/-- The arrival tests on a frame either isolate the station or leave it where it was. -/
theorem arrive_cases (s : State) (bits : List Bool) (begun : Bool) :
    Moves ok s (s.arrive bits begun) ∨ s.arrive bits begun = s.isolate begun := by
  unfold State.arrive
  split
  · exact .inl (openWindow_moves _ _ _)
  · next f read =>
    split
    · exact .inr rfl
    · split
      · exact .inl (openWindow_moves _ _ _)
      · split
        · exact .inl (openWindow_moves _ _ _)
        · split
          · exact .inl (openWindow_moves _ _ _)
          · next room =>
            refine .inl (.trans (Move.receive s f (readFrame_owned read) (Nat.not_le.mp room)).path ?_)
            exact .trans (Move.updatePeer _ f.sender (fun p => { p with lastSequence := f.sequence }) fun _ h => h).path
              (openWindow_moves _ _ _)

theorem arrive_acts (s : State) (bits : List Bool) (begun : Bool) : Acts ok s (s.arrive bits begun) := by
  obtain moves | isolated := arrive_cases (ok := ok) s bits begun
  · exact moves.acts
  · rw [isolated]
    exact isolate_acts s begun

/-- The state in which the held-frame record has lapsed. -/
def State.lapsed (s : State) : State := { s with held := none, busSeen := true }

theorem lapseReservation_cases (s : State) (begun : Bool) :
    Moves ok s (s.lapseReservation begun) ∨ s.lapseReservation begun = s.lapsed.isolate begun := by
  unfold State.lapseReservation
  have lapsed : Moves ok s s.lapsed := aside_moves rfl
  dsimp only
  split
  · exact .inl lapsed
  · split
    · exact .inr rfl
    · next other =>
      split
      · exact .inl lapsed
      · exact .inl (.trans lapsed (Move.marker s.lapsed _ other).path)

theorem lapseReservation_acts (s : State) (begun : Bool) : Acts ok s (s.lapseReservation begun) := by
  obtain moves | isolated := lapseReservation_cases (ok := ok) s begun
  · exact moves.acts
  · rw [isolated]
    exact .trans (aside_moves (s := s) (t := s.lapsed) rfl).acts (isolate_acts _ begun)

/-! ## The own JOIN and LEAVE -/

theorem ownLeave_acts (s : State) : Acts ok s s.ownLeave := by
  unfold State.ownLeave
  split
  · next leaving =>
    dsimp only
    split
    · exact .trans (Change.left s leaving).acts (Moves.acts (completeStop_moves rfl))
    · exact (Change.left s leaving).acts
  · exact .refl

theorem ownJoin_acts (s : State) : Acts ok s s.ownJoin := by
  unfold State.ownJoin
  split
  · next joining =>
    dsimp only
    split
    · exact .trans (Change.joined s joining).acts (endCommand_moves _ _ _ _).acts
    · exact (Change.joined s joining).acts
  · exact .refl

/-! ## Every row -/

/-- Every row is a path of moves and changes. -/
theorem exec_acts {c : Instr} (owned : ok → s.ClashesOwned) (h : exec c s = .next t) : Acts ok s t := by
  by_cases plain : mayChange c = false
  · exact (exec_moves plain owned h).acts
  · cases c with
    | pinReset straps cut => cases h; exact (Change.reset s _ cut).acts
    | portReset value cut => cases h; exact windowWrite_acts (writePctl_acts s value cut)
    | interruptEnableWrite value => cases h; exact windowWrite_acts (writePctl_acts s value {})
    | submission value =>
      cases h
      exact windowWrite_acts (.trans (Change.submit s value).acts (settleAgent_moves _).acts)
    | configure env =>
      cases h
      exact runCommand_acts fun tag words taken => configure_acts (s := s.forReading env) (of_decide_eq_true taken) tag words
    | start env =>
      cases h
      exact runCommand_acts fun tag _ taken => startJoining_acts (s := s.forReading env) (of_decide_eq_true taken) tag
    | stop env =>
      cases h
      exact runCommand_acts fun tag _ taken => stopLeaving_acts (s := s.forReading env) (of_decide_eq_true taken) tag
    | frameArrival bits begun =>
      cases h
      split
      · exact arrive_acts s bits begun
      · exact .refl
    | reservationLapse idle begun =>
      cases h
      split
      · exact lapseReservation_acts s begun
      · exact .refl
    | ownLeaveTaken =>
      cases h
      exact takeFrame_path (fun h => .inl h) fun f rest _ _ => ownLeave_acts _
    | ownJoinTaken =>
      cases h
      exact takeFrame_path (fun h => .inl h) fun f rest _ _ => .trans (hear_moves _ f).acts (ownJoin_acts _)
    | resetLow =>
      cases h
      exact .trans (aside_moves (s := s) (t := { s with line := .quiet, outgoing := none }) rfl).acts (Change.resetLow { s with line := .quiet, outgoing := none }).acts
    | _ => exact absurd rfl plain

/-- An invariant that each move and each change keeps is kept by every step, the queue of waiting commands being no part of
it. -/
theorem step_keeps {P : State → Prop} (queue : ∀ (s : State) (q : List Instr), P s → P { s with pending := q })
    (moves : ∀ s t, P s → Move True s t → P t) (changes : ∀ s t, P s → Change s t → P t)
    (owned : ∀ s, P s → s.ClashesOwned) (law : P s) (h : step s = .next t) : P t := by
  unfold step at h
  split at h
  · cases h
    exact law
  · next c rest _ =>
    have start := queue s rest law
    have path := exec_acts (ok := True) (fun _ => owned _ start) h
    clear h
    induction path with
    | refl => exact start
    | tail _ last ih => exact last.elim (moves _ _ ih) (changes _ _ ih)

/-- The same of an invariant that does not rest on the owners that received frames name. -/
theorem step_keeps_any {P : State → Prop} (queue : ∀ (s : State) (q : List Instr), P s → P { s with pending := q })
    (moves : ∀ s t, P s → Move False s t → P t) (changes : ∀ s t, P s → Change s t → P t)
    (law : P s) (h : step s = .next t) : P t := by
  unfold step at h
  split at h
  · cases h
    exact law
  · next c rest _ =>
    have start := queue s rest law
    have path := exec_acts (ok := False) False.elim h
    clear h
    induction path with
    | refl => exact start
    | tail _ last ih => exact last.elim (moves _ _ ih) (changes _ _ ih)

end Sys2Proof.Machine

/-! What every move leaves: station state, number, configuration, RESET input, last SUBMIT result, waiting commands. From it
the statements that say which rows change these (R151, R152, R153, R167). -/

namespace Sys2Proof.Machine

variable {ok : Prop} {s t u : State}

/-! ## What an effect leaves -/

theorem TableFrame.to {s t : State} (command : t.command = s.command) (wanted : t.wanted = s.wanted) (h : TableFrame s t) :
    TableFrame { s with wanted := t.wanted, command := t.command } t := by
  have same : ({ s with wanted := t.wanted, command := t.command } : State) = s := by rw [command, wanted]
  rw [same]
  exact h

theorem foldl_reseekRef_frame (l : List Ref) (s : State) : ReferenceFrame s (l.foldl State.reseekRef s) :=
  .foldl State.reseekRef (fun s r => (setPhase_frame s r.owner .waiting).trans (seekEntry_frame (s.setPhase r.owner .waiting) r)) l s

theorem exhaust_frame (s : State) (n : Nat) : ReferenceFrame s (s.exhaust n) := by
  have fold := ReferenceFrame.foldl (fun t r => (t.setPhase r.owner .waiting).post (.referenceUnresolved r.owner))
    (fun s r => (setPhase_frame s r.owner .waiting).trans (post_frame _ _))
    (s.refs.filter fun r => decide (r.phase = .seeking n)) s
  refine fold.trans ?_
  constructor <;> first | exact rfl | exact .of_eq rfl rfl rfl

theorem enterImport_frame {x : ImportRecord} {tag : Half} {m : Byte} {i j off sum : Nat}
    (command : s.command = some (.loadCommit tag m i j off sum)) :
    ReferenceFrame { s with command := some (.loadCommit tag m i (j + 1) (off + 32 + 16 * x.sites.length) (sum + x.sites.length)) }
      (s.enterImport x) := by
  unfold State.enterImport
  rw [command]
  refine ReferenceFrame.trans ?_ (seekEntry_frame _ _)
  constructor <;> first | exact rfl | exact .of_eq rfl rfl rfl

/-- Outside the tables an effect changes at most the command in progress and the frames it has still to place. -/
structure State.Confined (s t : State) : Prop where
  station : t.station = s.station
  number : t.number = s.number
  config : t.config = s.config
  inReset : t.inReset = s.inReset
  rxQueue : t.rxQueue = s.rxQueue
  nextGeneration : t.nextGeneration = s.nextGeneration
  commandQueue : t.commandQueue = s.commandQueue
  lastSubmit : t.lastSubmit = s.lastSubmit
  runs : t.runs = s.runs
  mem : t.mem = s.mem
  freeCount : t.freeCount = s.freeCount
  pending : t.pending = s.pending
  queue : ∃ joined : List TxEntry, t.txQueue = s.txQueue ++ joined
  modules : sameModules t.modules s.modules

theorem TableFrame.confined (h : TableFrame s t) : s.Confined t where
  station := h.station
  number := h.number
  config := h.config
  inReset := h.inReset
  rxQueue := h.rxQueue
  nextGeneration := h.nextGeneration
  commandQueue := h.commandQueue
  lastSubmit := h.lastSubmit
  runs := h.runs
  mem := h.mem
  freeCount := h.freeCount
  pending := h.pending
  queue := h.queue.imp fun _ h => h.1
  modules := h.modules

theorem ReferenceFrame.confined (h : ReferenceFrame s t) : s.Confined t := h.table.confined

theorem State.Confined.trans (h : s.Confined t) (k : t.Confined u) : s.Confined u where
  station := k.station.trans h.station
  number := k.number.trans h.number
  config := k.config.trans h.config
  inReset := k.inReset.trans h.inReset
  rxQueue := k.rxQueue.trans h.rxQueue
  nextGeneration := k.nextGeneration.trans h.nextGeneration
  commandQueue := k.commandQueue.trans h.commandQueue
  lastSubmit := k.lastSubmit.trans h.lastSubmit
  runs := k.runs.trans h.runs
  mem := k.mem.trans h.mem
  freeCount := k.freeCount.trans h.freeCount
  pending := k.pending.trans h.pending
  queue := by
    obtain ⟨a, ha⟩ := h.queue
    obtain ⟨b, hb⟩ := k.queue
    exact ⟨a ++ b, by rw [hb, ha, List.append_assoc]⟩
  modules := Eq.trans k.modules h.modules

theorem Effect.confined (h : Effect ok s u) : s.Confined u := by
  cases h with
  | clash k b refused _ => exact (clashKey_frame s k b refused).confined
  | revoke criterion cause => exact (revoke_frame s criterion cause).confined
  | withdraw criterion cause gone => exact ((revoke_frame s criterion cause).table.trans (dropPairs_frame _ gone)).confined
  | depart n cause => exact ((markAbsent_frame s n).trans (losePeer_frame _ n cause)).confined
  | rejoin n cause => exact (losePeer_frame s n cause).confined
  | giveUp m begun c _ =>
    have frame := (giveUp_frame s m begun).confined
    exact ⟨frame.station, frame.number, frame.config, frame.inReset, frame.rxQueue, frame.nextGeneration, frame.commandQueue,
      frame.lastSubmit, frame.runs, frame.mem, frame.freeCount, frame.pending, frame.queue, frame.modules⟩
  | exhaust n => exact (exhaust_frame s n).confined
  | enterImport x due =>
    have frame := (enterImport_frame (x := x) due.command).confined
    exact ⟨frame.station, frame.number, frame.config, frame.inReset, frame.rxQueue, frame.nextGeneration, frame.commandQueue,
      frame.lastSubmit, frame.runs, frame.mem, frame.freeCount, frame.pending, frame.queue, frame.modules⟩
  | reseek p _ => exact (foldl_reseekRef_frame _ s).confined
  | beginWalk r _ => exact (beginWalk_frame s r).confined
  | afterSite w => exact (afterSite_frame s w).confined
  | busFault o k => exact (busFault_frame s o k).confined

/-- The end of the event too. -/
theorem Effect.event_confined (h : Effect ok s u) (b : State) (order : List Bool) : s.Confined (u.endEvent b order) :=
  h.confined.trans (endEvent_frame u b order).confined

/-! ## What a move leaves -/

/-- What every move leaves. -/
structure State.Still (s t : State) : Prop where
  station : t.station = s.station
  number : t.number = s.number
  config : t.config = s.config
  inReset : t.inReset = s.inReset
  lastSubmit : t.lastSubmit = s.lastSubmit
  pending : t.pending = s.pending

theorem State.Still.refl (s : State) : s.Still s := ⟨rfl, rfl, rfl, rfl, rfl, rfl⟩

theorem State.Still.trans (h : s.Still t) (k : t.Still u) : s.Still u :=
  ⟨k.station.trans h.station, k.number.trans h.number, k.config.trans h.config, k.inReset.trans h.inReset,
   k.lastSubmit.trans h.lastSubmit, k.pending.trans h.pending⟩

theorem State.Confined.still (h : s.Confined t) : s.Still t :=
  ⟨h.station, h.number, h.config, h.inReset, h.lastSubmit, h.pending⟩

theorem still_of_core {x : State} (h : t.core = x.core) (k : s.Still x) : s.Still t :=
  ⟨(congrArg State.station h).trans k.station, (congrArg State.number h).trans k.number,
   (congrArg State.config h).trans k.config, (congrArg State.inReset h).trans k.inReset,
   (congrArg State.lastSubmit h).trans k.lastSubmit, (congrArg State.pending h).trans k.pending⟩

/-- The tables once an abandoned module's references, exports and record are gone (R36). -/
def State.abandoned (s : State) (m : Byte) (begun : Bool) : State :=
  ({ s.removeRefs m begun with
    directory := (s.removeRefs m begun).directory.filter fun e => decide (e.owner.module ≠ m) } : State).removeModule m

theorem abandonModule_eq (s : State) (tag : Half) (m : Byte) (begun : Bool) :
    s.abandonModule tag m begun = (((s.abandoned m begun).endEvent s).endCommand tag .refusedState m.toNat).endFetch := rfl

theorem abandonModule_pending (s : State) (tag : Half) (m : Byte) (begun : Bool) :
    (s.abandonModule tag m begun).pending = s.pending := by
  rw [abandonModule_eq]
  simp only [endFetch_fields, endCommand_fields]
  exact (endEvent_frame (s.abandoned m begun) s []).pending

theorem enterExport_still (s : State) (x : ExportRecord) : s.Still (s.enterExport x) := by
  unfold State.enterExport
  split <;> exact ⟨rfl, rfl, rfl, rfl, rfl, rfl⟩

/-- Every move leaves station state, number, configuration, RESET input, last SUBMIT result and waiting commands. -/
theorem Move.still (h : Move ok s t) : s.Still t := by
  cases h with
  | aside h => exact still_of_core h (.refl s)
  | memory _ h => exact still_of_core (x := { s with mem := t.mem, freeCount := t.freeCount }) h ⟨rfl, rfl, rfl, rfl, rfl, rfl⟩
  | meetSeek k => exact (meetSeek_frame s k).confined.still
  | meetClaim k p refused _ => exact (meetClaim_frame s k p refused).confined.still
  | meetOwnAnnounce k g => exact (meetOwnAnnounce_frame s k g).confined.still
  | arbitrate order => exact (arbitrate_frame s order).confined.still
  | leaveQueue ts _ =>
    have freed : s.Still { s with txQueue := ts } := ⟨rfl, rfl, rfl, rfl, rfl, rfl⟩
    exact freed.trans (arbitrate_frame { s with txQueue := ts } []).confined.still
  | enterOut k => exact (enterOut_frame s k).confined.still
  | retry n tries x _ => exact ((enterToSend_frame s n x.key tries).trans (arbitrate_frame _ [])).confined.still
  | enterExport x _ => exact (enterExport_still s x).trans (arbitrate_frame _ []).confined.still
  | event h b order _ => exact (h.event_confined b order).still
  | abandon tag m begun _ _ =>
    have kept := abandonModule_stationKept s tag m begun
    exact ⟨kept.station, kept.number, kept.config, kept.inReset, kept.lastSubmit, abandonModule_pending ..⟩
  | _ => exact ⟨rfl, rfl, rfl, rfl, rfl, rfl⟩

theorem Moves.still (h : Moves ok s t) : s.Still t := by
  induction h with
  | refl => exact .refl s
  | tail _ last ih => exact ih.trans last.still

end Sys2Proof.Machine

/-! The statements that say which rows change the station state, the station number, the configuration, the last SUBMIT result,
local memory's form and the waiting commands. -/

namespace Sys2Proof.Machine

variable {ok : Prop} {s t u : State}

/-! ## Rows that may change the station -/

/-- A row that reads the head is a path of moves, or carries its command out. -/
theorem runCommand_cases (s : State) (kind : CommandKind) (env : Env) (body : Half → List Word → State → State) :
    Moves False s (s.runCommand kind env body) ∨ ∃ tag words, kind.takenIn s.station = true ∧ s.command = none ∧
      (s.forReading env).readHead (s.runEnv .commandEngine env) = some (.whole (some kind) tag words) ∧
      s.runCommand kind env body = (body tag words (s.forReading env)).endFetch.served .commandEngine := by
  have cases := runHead_cases s (some kind) env fun tag words t =>
    if kind.takenIn t.station then body tag words t else t.endCommand tag .refusedState 0
  have reading := forReading_moves (ok := False) s env
  unfold State.runCommand
  generalize s.runHead (some kind) env _ = t at cases ⊢
  cases cases with
  | nothing => exact .inl .refl
  | left words idle h mine =>
    rw [forReading_runEnv] at h ⊢
    exact .inl (.trans reading (.trans (leaveHead_moves h idle) (served_moves _ _)))
  | failed tag e =>
    rw [forReading_runEnv]
    exact .inl (.trans reading (.trans (endCommand_moves _ _ _ _) (.trans (endFetch_moves _) (served_moves _ _))))
  | whole tag words idle h =>
    rw [forReading_runEnv] at h ⊢
    split
    · next taken => exact .inr ⟨tag, words, taken, idle, h, rfl⟩
    · exact .inl (.trans reading (.trans (endCommand_moves _ _ _ _) (.trans (endFetch_moves _) (served_moves _ _))))

/-- The words kept of a head that is read whole are those of its own command. -/
theorem readHead_code {s : State} {env : Env} {k : CommandKind} {tag : Half} {words : List Word}
    (h : s.readHead env = some (.whole (some k) tag words)) {w : Word} (first : s.runs.fetched.head? = some w) :
    commandOfCode (byteAt w 0) = some k := by
  unfold State.readHead at h
  split at h
  · cases h
  · dsimp only at h
    have content : ∀ a, blockContent s.mem s.runs.fetched a 0 = w := fun a => by
      rw [blockContent, ← List.head?_eq_getElem?, first, Option.getD_some]
    simp only [content] at h
    split at h
    · split at h
      · cases h
      · next code =>
        split at h
        · cases h
          exact code
        · cases h
    · cases h

/-- A command other than LOAD that is read whole leaves no LOADING record set aside. -/
theorem otherModules_of_readHead {s : State} {env out : Env} {k : CommandKind} {tag : Half} {words : List Word}
    (other : k ≠ .load) (h : (s.forReading env).readHead out = some (.whole (some k) tag words)) : s.otherModules = s.modules := by
  refine otherModules_of_loadingId ?_
  have none_ : s.runs.load? = none := Runs.load?_of_code fun w first code => by
    have same := readHead_code h (w := w) first
    rw [code] at same
    exact other (Option.some.inj same).symm
  unfold State.loadingId State.firstPassLoad
  split
  · rw [none_]; rfl
  · rfl

/-- The change that a row makes of number, configuration, last SUBMIT result and station state, apart from resets and
submissions. -/
structure State.Moved (s : State) (c : Instr) (t : State) : Prop where
  number : t.number = s.number
  lastSubmit : t.lastSubmit = s.lastSubmit
  pending : t.pending = s.pending
  config : t.config = s.config ∨ (s.station = .off ∧ ∃ env, c = .configure env)
  station : t.station = s.station ∨ StationChange s c t.station

theorem State.Still.moved (h : s.Still t) (c : Instr) : s.Moved c t :=
  ⟨h.number, h.lastSubmit, h.pending, .inl h.config, .inl h.station⟩

theorem State.Moved.after {c : Instr} (h : s.Moved c t) (k : t.Still u) : s.Moved c u where
  number := k.number.trans h.number
  lastSubmit := k.lastSubmit.trans h.lastSubmit
  pending := k.pending.trans h.pending
  config := by rw [k.config]; exact h.config
  station := by rw [k.station]; exact h.station

theorem State.Moved.served {c : Instr} (h : s.Moved c t) (x : Claimant) : s.Moved c (t.endFetch.served x) :=
  h.after (Moves.still (ok := False) (.trans (endFetch_moves _) (served_moves _ _)))

theorem configure_moved (env : Env) (s : State) (off : s.station = .off) (tag : Half) (words : List Word) :
    s.Moved (.configure env) (s.configure tag words) := by
  unfold State.configure
  split
  · exact (endCommand_moves (ok := False) _ _ _ _).still.moved _
  · exact ⟨rfl, rfl, rfl, .inr ⟨off, env, rfl⟩, .inr (.configured env off)⟩

theorem startJoining_moved (env : Env) (s : State) (configured : s.station = .configured) (tag : Half) :
    s.Moved (.start env) (s.startJoining tag) := by
  refine State.Moved.after (t := { s with station := .joining, busSeen := false, command := some (.start tag), wanted := [.join] })
    ⟨rfl, rfl, rfl, .inl rfl, .inr (.joining env configured)⟩ ?_
  exact (arbitrate_frame _ []).confined.still

theorem stopLeaving_moved (env : Env) (s : State) (active : s.station = .active) (tag : Half) :
    s.Moved (.stop env) (s.stopLeaving tag) := by
  unfold State.stopLeaving
  split
  · exact (endCommand_moves (ok := False) _ _ _ _).still.moved _
  · next empty =>
    refine State.Moved.after (t := { s with station := .leaving, command := some (.stop tag), wanted := [.leave] })
      ⟨rfl, rfl, rfl, .inl rfl, .inr (.leaving env active (not_not.mp empty))⟩ ?_
    exact (arbitrate_frame _ []).confined.still

/-- The state that a change begins in may be one that the same row has reached by moves. -/
theorem State.Moved.before {c : Instr} (h : s.Still t) (modules : t.modules = s.modules) (listens : t.listens = s.listens)
    (k : t.Moved c u) : s.Moved c u where
  number := k.number.trans h.number
  lastSubmit := k.lastSubmit.trans h.lastSubmit
  pending := k.pending.trans h.pending
  config := by
    have config := k.config
    rwa [h.config, h.station] at config
  station := by
    obtain same | change := k.station
    · exact .inl (same.trans h.station)
    · refine .inr ?_
      generalize u.station = st at change
      cases change with
      | configured env off => exact .configured env (h.station ▸ off)
      | joining env on => exact .joining env (h.station ▸ on)
      | joined on => exact .joined (h.station ▸ on)
      | leaving env on empty => exact .leaving env (h.station ▸ on) (modules ▸ empty)
      | left on => exact .left (h.station ▸ on)
      | duplicateSeen bits begun on => exact .duplicateSeen bits begun (listens ▸ on)
      | duplicateLapsed idle begun on => exact .duplicateLapsed idle begun (listens ▸ on)
      | reset c h => exact .reset c h

theorem runCommand_moved {c : Instr} {kind : CommandKind} {env : Env} {body : Half → List Word → State → State}
    (other : kind ≠ .load) (moved : ∀ (t : State) tag words, kind.takenIn t.station = true → t.Moved c (body tag words t)) :
    s.Moved c (s.runCommand kind env body) := by
  obtain moves | ⟨tag, words, taken, -, read, result⟩ := runCommand_cases s kind env body
  · exact moves.still.moved c
  · rw [result]
    have whole := otherModules_of_readHead other read
    refine State.Moved.served ?_ _
    exact State.Moved.before (Moves.still (ok := False) (forReading_moves s env)) whole rfl (moved (s.forReading env) tag words taken)

theorem isolate_moved {c : Instr} (change : StationChange s c .isolated) (begun : Bool) : s.Moved c (s.isolate begun) := by
  have kept := isolate_kept s begun
  have pending := (isolate_moves (ok := False) s begun).still.pending
  exact ⟨kept.number, kept.lastSubmit, pending, .inl kept.config, .inr (kept.station ▸ change)⟩

theorem arrive_moved (s : State) (bits : List Bool) (begun : Bool) (listens : s.listens = true) :
    s.Moved (.frameArrival bits begun) (s.arrive bits begun) := by
  obtain moves | isolated := arrive_cases (ok := False) s bits begun
  · exact moves.still.moved _
  · rw [isolated]
    exact isolate_moved (.duplicateSeen bits begun listens) begun

theorem lapseReservation_moved (s : State) (idle : Nat) (begun : Bool) (listens : s.listens = true) :
    s.Moved (.reservationLapse idle begun) (s.lapseReservation begun) := by
  obtain moves | isolated := lapseReservation_cases (ok := False) s begun
  · exact moves.still.moved _
  · rw [isolated]
    refine State.Moved.before (t := s.lapsed) ⟨rfl, rfl, rfl, rfl, rfl, rfl⟩ rfl rfl ?_
    exact isolate_moved (s := s.lapsed) (.duplicateLapsed idle begun listens) begun

theorem takeFrame_moved {c : Instr} {mine : Frame → Bool} {f : Frame → State → State}
    (moved : ∀ (x : Frame) (t : State), t.Moved c (f x t)) : s.Moved c (s.takeFrame mine f) := by
  have cases := takeFrame_cases s mine f
  generalize s.takeFrame mine f = t at cases
  cases cases with
  | nothing => exact (State.Still.refl s).moved c
  | taken x rest head _ _ =>
    refine State.Moved.after ?_ (settleAgent_moves (ok := False) _).still
    exact State.Moved.before (t := { s with rxQueue := rest }) ⟨rfl, rfl, rfl, rfl, rfl, rfl⟩ rfl rfl (moved x _)

theorem ownLeave_moved (s : State) : s.Moved .ownLeaveTaken s.ownLeave := by
  unfold State.ownLeave
  split
  · next leaving =>
    have left : s.Moved .ownLeaveTaken { s with peers := List.replicate 16 Peer.absent, station := .configured } :=
      ⟨rfl, rfl, rfl, .inl rfl, .inr (.left leaving)⟩
    dsimp only
    split
    · exact left.after (Moves.still (ok := False) (completeStop_moves rfl))
    · exact left
  · exact (State.Still.refl s).moved _

theorem ownJoin_moved (s : State) : s.Moved .ownJoinTaken s.ownJoin := by
  unfold State.ownJoin
  split
  · next joining =>
    have joined : s.Moved .ownJoinTaken { s with station := .active } := ⟨rfl, rfl, rfl, .inl rfl, .inr (.joined joining)⟩
    dsimp only
    split
    · exact joined.after (endCommand_moves (ok := False) _ _ _ _).still
    · exact joined
  · exact (State.Still.refl s).moved _

/-- What a row does to number, configuration, last SUBMIT result and station state: a reset clears them; a submission is
taken; or `State.Moved`. -/
inductive RowResult (s : State) : Instr → State → Prop where
  | reset (c : Instr) (n : Station) (cut : Cut) (h : c.isReset = true)
      (number : n = s.number ∨ ∃ straps cut, c = .pinReset straps cut ∧ n = straps.toFin) : RowResult s c (s.resetWith n cut)
  | submitted (value : Word) : RowResult s (.submission value) (s.submit value).settleAgent
  | moved (c : Instr) (t : State) (h : s.Moved c t) : RowResult s c t

theorem writePctl_result {c : Instr} {value : Word} (reset : value.getLsbD 31 = true → c.isReset = true) (cut : Cut) :
    RowResult s c (s.windowWrite fun s => s.writePctl value cut) := by
  obtain kept | ⟨-, written⟩ := windowWrite_cases s fun s => s.writePctl value cut
  · rw [kept]
    exact .moved c s ((State.Still.refl s).moved c)
  · rw [written]
    unfold State.writePctl
    split
    · next high => exact .reset c _ cut (reset high) (.inl rfl)
    · exact .moved c _ ((Move.still (ok := False) (.notices s (.enable _))).moved c)

theorem exec_result {c : Instr} (h : exec c s = .next t) : RowResult s c t := by
  by_cases plain : mayChange c = false
  · exact .moved c t ((exec_moves (ok := False) plain False.elim h).still.moved c)
  · cases c with
    | pinReset straps cut => cases h; exact .reset _ _ cut rfl (.inr ⟨straps, cut, rfl, rfl⟩)
    | portReset value cut => cases h; exact writePctl_result id cut
    | interruptEnableWrite value => cases h; exact writePctl_result id {}
    | submission value =>
      cases h
      obtain kept | ⟨-, written⟩ := windowWrite_cases s fun s => (s.submit value).settleAgent
      · rw [kept]
        exact .moved _ s ((State.Still.refl s).moved _)
      · rw [written]
        exact .submitted value
    | configure env =>
      cases h
      refine .moved _ _ (runCommand_moved (fun h => by cases h) fun t tag words taken => ?_)
      exact configure_moved env t (of_decide_eq_true taken) tag words
    | start env =>
      cases h
      refine .moved _ _ (runCommand_moved (fun h => by cases h) fun t tag words taken => ?_)
      exact startJoining_moved env t (of_decide_eq_true taken) tag
    | stop env =>
      cases h
      refine .moved _ _ (runCommand_moved (fun h => by cases h) fun t tag words taken => ?_)
      exact stopLeaving_moved env t (of_decide_eq_true taken) tag
    | frameArrival bits begun =>
      cases h
      refine .moved _ _ ?_
      split
      · next may =>
        simp only [State.canArrive, Bool.and_eq_true] at may
        exact arrive_moved s bits begun may.1.1
      · exact (State.Still.refl s).moved _
    | reservationLapse idle begun =>
      cases h
      refine .moved _ _ ?_
      split
      · next may =>
        simp only [Bool.and_eq_true] at may
        exact lapseReservation_moved s idle begun may.1.1.1
      · exact (State.Still.refl s).moved _
    | ownLeaveTaken => cases h; exact .moved _ _ (takeFrame_moved fun _ t => ownLeave_moved t)
    | ownJoinTaken =>
      cases h
      refine .moved _ _ (takeFrame_moved fun f t => ?_)
      have heard := Moves.still (ok := False) (hear_moves t f)
      exact State.Moved.before heard rfl rfl (ownJoin_moved _)
    | resetLow => cases h; exact .moved _ _ ⟨rfl, rfl, rfl, .inl rfl, .inl rfl⟩
    | _ => exact absurd rfl plain

/-! ## The statements -/

theorem submit_pending (s : State) (value : Word) : (s.submit value).pending = s.pending := by
  unfold State.submit
  split
  · rfl
  · split <;> rfl

theorem exec_pending {c : Instr} (h : exec c s = .next t) : t.pending = s.pending := by
  cases exec_result h with
  | reset => rfl
  | submitted value => exact submit_pending s value
  | moved _ _ moved => exact moved.pending

/-- Settles O2: each arm of `exec` answers a next state. -/
theorem everyCommandAnswersNext : Obligations.EveryCommandAnswersNext := by
  intro c s
  have answers : ∃ t, exec c s = .next t := by cases c <;> exact ⟨_, rfl⟩
  obtain ⟨t, h⟩ := answers
  exact ⟨t, h, exec_pending h⟩

theorem submit_kept (s : State) (value : Word) : (s.submit value).station = s.station ∧ (s.submit value).number = s.number ∧
    (s.submit value).config = s.config := by
  unfold State.submit
  split
  · exact ⟨rfl, rfl, rfl⟩
  · split <;> exact ⟨rfl, rfl, rfl⟩

/-- Settles O3, by what each row does to number and configuration. -/
theorem numberAndConfigurationKept : Obligations.NumberAndConfigurationKept := by
  intro c s t h
  cases exec_result h with
  | reset _ n cut reset number =>
    refine ⟨number.imp id fun ⟨straps, cut, row, same⟩ => ⟨straps, cut, row, same⟩, .inr (.inr ⟨reset, rfl⟩)⟩
  | submitted value =>
    obtain ⟨-, number, config⟩ := submit_kept s value
    exact ⟨.inl number, .inl config⟩
  | moved _ _ moved =>
    exact ⟨.inl moved.number, moved.config.imp id .inl⟩

/-- Settles O4, by what each row does to the station state. -/
theorem stationStateTransitions : Obligations.StationStateTransitions := by
  intro c s t h
  cases exec_result h with
  | reset _ n cut reset _ => exact .inr (.reset c reset)
  | submitted value => exact .inl (submit_kept s value).1
  | moved _ _ moved => exact moved.station

/-- Settles O21: the branches of `State.submit`; no other row but a reset changes the result. -/
theorem submissionOutcomes : Obligations.SubmissionOutcomes := by
  refine ⟨fun value s high => ?_, fun c s t noReset other h => ?_⟩
  · have row : exec (.submission value) s = .next (s.submit value).settleAgent :=
      congrArg Host.Outcome.next (by rw [State.windowWrite, high]; rfl)
    rw [row]
    unfold State.submit Config.commandRoom
    refine ⟨fun bad => by rw [if_pos bad], fun aligned inside full => ?_, fun aligned inside free => ?_⟩
    · rw [if_neg (by omega), if_pos full]
    · rw [if_neg (by omega), if_neg (by omega)]
  · cases exec_result h with
    | reset _ _ _ reset _ => rw [reset] at noReset; cases noReset
    | submitted value => exact absurd rfl (other value)
    | moved _ _ moved => exact moved.lastSubmit

/-! ## Local memory's form -/

/-- A move leaves local memory, or keeps its canonical form. -/
theorem Move.memory_canonical (h : Move ok s t) (law : s.MemoryCanonical) : t.MemoryCanonical := by
  have same : ∀ {x : State}, x.mem = s.mem → x.MemoryCanonical := fun h => (congrArg (Memory.wf · = true) h).mpr law
  cases h with
  | aside h =>
    have mem := congrArg State.mem h
    exact same mem
  | memory kept _ => exact kept law
  | meetSeek k => exact same (meetSeek_frame s k).mem
  | meetClaim k p refused _ => exact same (meetClaim_frame s k p refused).mem
  | meetOwnAnnounce k g => exact same (meetOwnAnnounce_frame s k g).mem
  | arbitrate order => exact same (arbitrate_frame s order).mem
  | leaveQueue ts _ => exact same (arbitrate_frame { s with txQueue := ts } []).mem
  | enterOut k => exact same (enterOut_frame s k).mem
  | retry n tries x _ => exact same ((enterToSend_frame s n x.key tries).trans (arbitrate_frame _ [])).mem
  | enterExport x due =>
    refine same ((arbitrate_frame _ []).mem.trans ?_)
    rw [State.enterExport, due.command]
  | event h b order _ => exact same (h.event_confined b order).mem
  | abandon tag m begun _ _ => exact same (abandonModule_stationKept s tag m begun).mem
  | _ => exact law

theorem Change.memory_canonical (h : Change s t) (law : s.MemoryCanonical) : t.MemoryCanonical := by
  have same : ∀ {x : State}, x.mem = s.mem → x.MemoryCanonical := fun h => (congrArg (Memory.wf · = true) h).mpr law
  cases h with
  | reset n cut => exact wf_memAtReset s cut law
  | submit value =>
    unfold State.submit
    split
    · exact law
    · split <;> exact law
  | join tag _ => exact same (arbitrate_frame _ []).mem
  | leave tag _ _ => exact same (arbitrate_frame _ []).mem
  | _ => exact law

/-- Settles O9: every store keeps the canonical form. -/
theorem memoryCanonicalKept : Obligations.MemoryCanonicalKept := fun _ _ law h =>
  step_keeps_any (fun _ _ law => law) (fun _ _ law h => h.memory_canonical law) (fun _ _ law h => h.memory_canonical law) law h

end Sys2Proof.Machine

/-! The tables' operations cut into single edits. An invariant that no step of an event breaks, even for a while, has to be shown
of each edit alone. -/

namespace Sys2Proof.Machine

variable {ok : Prop} {s t u : State}

/-- A binding that names the own station, one that a reference holds, or one of a station that is present where `ok` holds. -/
def State.Offers (ok : Prop) (s : State) (b : Binding) : Prop :=
  b.definer = s.number ∨ (∃ r ∈ s.refs, r.phase.binding? = some b) ∨
    (ok → s.peers.length = 16 → s.isPresent b.definer = true)

/-- One edit of the tables. -/
inductive Edit (ok : Prop) : State → State → Prop where
  | post (s : State) (x : Notice) : Edit ok s (s.post x)
  | lists {s t : State} (h : t.core = { s.core with backlog := t.backlog, patchQueue := t.patchQueue }) : Edit ok s t
  | setPhase (s : State) (o : Owner) (p : Phase) (h : ∀ b, p.binding? = some b → s.Offers ok b) : Edit ok s (s.setPhase o p)
  | seekPhases (s : State) (f : Ref → Bool) (n : Nat) :
      Edit ok s { s with refs := s.refs.map fun r => if f r then { r with phase := .seeking n } else r }
  | setReflect (s : State) (o : Owner) (x : Reflect) : Edit ok s (s.setReflect o x)
  | addRef (s : State) (x : ImportRecord) {tag : Half} {m : Byte} {i j off sum : Nat} {rec : ModuleRecord}
      (due : s.ImportDue x tag m i j off sum rec) : Edit ok s { s with
        refs := s.refs ++ [{ key := s.keyOf x.scope x.name, owner := { module := m, index := j }, expected := x.expected
                             sites := x.sites, phase := .waiting, reflect := .none }]
        command := some (.loadCommit tag m i (j + 1) (off + 32 + 16 * x.sites.length) (sum + x.sites.length)) }
  | dropRefs (s : State) (p : Ref → Bool) : Edit ok s { s with refs := s.refs.filter p }
  | slots (s : State) (l : List (Option Slot)) (length : l.length = s.slots.length)
      (keys : ∀ x, some x ∈ l → (∃ y, some y ∈ s.slots ∧ y.key = x.key) ∨ x.key ∈ s.refs.map (·.key)) :
      Edit ok s { s with slots := l }
  | queueSeek (s : State) (n : Nat) (x : Slot) (h : some x ∈ s.slots) (room : s.txQueue.length < 32) :
      Edit ok s { s with txQueue := s.txQueue ++ [.seek n x.key] }
  | placeFrame (s : State) (x : TxEntry) (xs : List TxEntry) (h : s.wanted = x :: xs) (room : s.txQueue.length < 32) :
      Edit ok s { s with txQueue := s.txQueue ++ [x], wanted := xs }
  | withdrawFrames (s : State) : Edit ok s { s with wanted := [] }
  | setModuleState (s : State) (m : Byte) (st : ModuleState) : Edit ok s (s.setModuleState m st)
  | removeModule (s : State) (m : Byte) (gone : ∀ r ∈ s.refs, r.owner.module ≠ m)
      (entries : ∀ e ∈ s.directory, e.owner.module ≠ m) : Edit ok s (s.removeModule m)
  | dropPairs (s : State) (gone : Key → Pair → Bool) : Edit ok s (s.dropPairs gone)
  | withdrawEntries (s : State) (m : Byte) : Edit ok s (s.withdrawEntries m)
  | wantWithdraws (s : State) (m : Byte) (c : Command) (h : c.isCommit = false) :
      Edit ok s { s with wanted := s.withdrawFrames m, command := some c }
  | dropEntries (s : State) (p : ExportEntry → Bool) (answers : s.answers = []) :
      Edit ok s { s with directory := s.directory.filter p }

/-- A path of edits. -/
abbrev Edits (ok : Prop) : State → State → Prop := Relation.ReflTransGen (Edit ok)

theorem Edit.path (h : Edit ok s t) : Edits ok s t := .single h

theorem lists_edits (h : t.core = { s.core with backlog := t.backlog, patchQueue := t.patchQueue }) : Edits ok s t :=
  (Edit.lists h).path

/-! ## The arbiter -/

theorem grantSlot_edits (s : State) (k : Nat) (room : s.txQueue.length < 32) : Edits ok s (s.grantSlot k) := by
  unfold State.grantSlot
  split
  · next x used =>
    have held : some x ∈ s.slots := List.mem_of_getElem? used
    refine .tail (.single (.queueSeek s k x held room)) (.slots _ (s.slots.set k (some { x with awaitingRoom := false })) ?_ ?_)
    · simp
    · intro y hy
      obtain same | old := List.mem_or_eq_of_mem_set hy |>.symm
      · cases same
        exact .inl ⟨x, held, rfl⟩
      · exact .inl ⟨y, old, rfl⟩
  · exact .refl

theorem grantCommand_edits (s : State) (room : s.txQueue.length < 32) : Edits ok s s.grantCommand := by
  unfold State.grantCommand
  split
  · exact .refl
  · next wanted => exact (Edit.placeFrame s _ _ wanted room).path

theorem grantRounds_edits (n : Nat) : ∀ (order : List Bool) (s : State), Edits ok s (s.grantRounds n order) := by
  induction n with
  | zero => exact fun order s => .refl
  | succ n ih =>
    intro order s
    unfold State.grantRounds
    split
    · exact .refl
    · next room =>
      have room : s.txQueue.length < 32 := Nat.not_le.mp room
      split
      · split
        · exact .trans (grantCommand_edits s room) (ih _ _)
        · exact .trans (grantSlot_edits s _ room) (ih _ _)
        · exact .trans (grantSlot_edits s _ room) (ih _ _)
      · split
        · exact .refl
        · exact .trans (grantCommand_edits s room) (ih _ _)

theorem arbitrate_edits (s : State) (order : List Bool) : Edits ok s (s.arbitrate order) := by
  unfold State.arbitrate
  split
  · refine .tail (.single (.withdrawFrames s)) (.slots _ (s.slots.map (Option.map fun x => { x with awaitingRoom := false })) ?_ ?_)
    · simp
    · intro y hy
      obtain ⟨o, ho, same⟩ := List.mem_map.mp hy
      cases o with
      | none => cases same
      | some x => cases same; exact .inl ⟨x, ho, rfl⟩
  · exact grantRounds_edits _ _ _

/-! ## Seek entry and serving -/

/-- Edits that leave the keys of the references and the peer table. -/
structure Reworked (ok : Prop) (s t : State) : Prop where
  edits : Edits ok s t
  keys : t.refs.map (·.key) = s.refs.map (·.key)
  frame : ReferenceFrame s t

theorem Reworked.refl (s : State) : Reworked ok s s := ⟨.refl, rfl, .refl s⟩

theorem Reworked.trans (h : Reworked ok s t) (k : Reworked ok t u) : Reworked ok s u :=
  ⟨h.edits.trans k.edits, k.keys.trans h.keys, h.frame.trans k.frame⟩

theorem Reworked.foldl {f : State → Ref → State} {l : List Ref}
    (h : ∀ t r, t.peers = s.peers → r.key ∈ t.refs.map (·.key) → Reworked ok t (f t r)) :
    (∀ r ∈ l, r.key ∈ s.refs.map (·.key)) → Reworked ok s (l.foldl f s) := by
  induction l generalizing s with
  | nil => exact fun _ => .refl s
  | cons r l ih =>
    intro members
    have first := h s r rfl (members r List.mem_cons_self)
    refine first.trans (ih (fun t q same => h t q (same.trans first.frame.peers)) fun q hq => ?_)
    rw [first.keys]
    exact members q (List.mem_cons_of_mem _ hq)

theorem key_mem {r : Ref} (row : r ∈ s.refs) : r.key ∈ s.refs.map (·.key) := List.mem_map_of_mem row

theorem setPhase_keys (s : State) (o : Owner) (p : Phase) : (s.setPhase o p).refs.map (·.key) = s.refs.map (·.key) := by
  rw [State.setPhase, List.map_map]
  refine List.map_congr_left fun r _ => ?_
  simp only [Function.comp]
  split <;> rfl

theorem setPhase_reworked (s : State) (o : Owner) {p : Phase} (h : ∀ b, p.binding? = some b → s.Offers ok b) :
    Reworked ok s (s.setPhase o p) :=
  ⟨(Edit.setPhase s o p h).path, setPhase_keys s o p, setPhase_frame s o p⟩

theorem setPhase_unbound (s : State) (o : Owner) {p : Phase} (h : p.binding? = none) : Reworked ok s (s.setPhase o p) :=
  setPhase_reworked s o fun b same => by rw [h] at same; cases same

theorem post_reworked (s : State) (x : Notice) : Reworked ok s (s.post x) := ⟨(Edit.post s x).path, rfl, post_frame s x⟩

theorem offerBinding_reworked (s : State) (r : Ref) {b : Binding} (h : s.Offers ok b) : Reworked ok s (s.offerBinding r b) := by
  unfold State.offerBinding
  split
  · exact setPhase_reworked s _ fun b' same => by cases same; exact h
  · exact (setPhase_unbound s _ rfl).trans (post_reworked _ _)

theorem bindingAtHand_offers {k : Key} {b : Binding} (h : s.bindingAtHand k = some b) : s.Offers ok b := by
  unfold State.bindingAtHand at h
  split at h
  · cases h
    exact .inl rfl
  · split at h
    · next r found =>
      exact .inr (.inl ⟨r, List.mem_of_find?_eq_some found, h⟩)
    · cases h

theorem takeSlot_reworked (s : State) (r : Ref) (n : Nat) (key : r.key ∈ s.refs.map (·.key)) :
    Reworked ok s (s.takeSlot r n) := by
  refine Reworked.trans (t := s.enterToSend n r.key 1) ⟨?_, rfl, enterToSend_frame s n r.key 1⟩ (setPhase_unbound _ _ rfl)
  refine (Edit.slots s _ (by simp) fun y hy => ?_).path
  obtain old | same := List.mem_or_eq_of_mem_set hy
  · exact .inl ⟨y, old, rfl⟩
  · cases same
    exact .inr key

theorem seekEntry_reworked (s : State) (r : Ref) (key : r.key ∈ s.refs.map (·.key)) : Reworked ok s (s.seekEntry r) := by
  have frame := seekEntry_frame s r
  unfold State.seekEntry at frame ⊢
  split
  · next found => exact offerBinding_reworked s r (bindingAtHand_offers found)
  · split
    · exact setPhase_unbound s _ rfl
    · split
      · exact takeSlot_reworked s r _ key
      · have queued := setPhase_unbound (ok := ok) s r.owner (p := .queued) rfl
        exact ⟨.tail queued.edits (.lists rfl), queued.keys, by simp_all⟩

theorem joinQueued_reworked (s : State) (k : Key) (n : Nat) : Reworked ok s (s.joinQueued k n) := by
  refine ⟨?_, ?_, joinQueued_frame s k n⟩
  · unfold State.joinQueued
    refine .tail (lists_edits (t := { s with backlog := s.backlog.filter fun o => decide (o ∉
      s.backlog.filter fun o => s.refs.any fun r => decide (r.owner = o) && r.key.agrees k) }) rfl) ?_
    have join := Edit.seekPhases (ok := ok) { s with backlog := s.backlog.filter fun o => decide (o ∉
      s.backlog.filter fun o => s.refs.any fun r => decide (r.owner = o) && r.key.agrees k) }
      (fun r => decide (r.owner ∈ s.backlog.filter fun o => s.refs.any fun r => decide (r.owner = o) && r.key.agrees k)) n
    simpa only [decide_eq_true_eq] using join
  · unfold State.joinQueued
    simp only [List.map_map]
    refine List.map_congr_left fun r _ => ?_
    simp only [Function.comp]
    split <;> rfl

theorem serveOne_reworked (s : State) (r : Ref) (n : Nat) (key : r.key ∈ s.refs.map (·.key)) : Reworked ok s (s.serveOne r n) := by
  unfold State.serveOne
  split
  · next found => exact offerBinding_reworked s r (bindingAtHand_offers found)
  · split
    · exact setPhase_unbound s _ rfl
    · exact (takeSlot_reworked s r n key).trans (joinQueued_reworked _ _ _)

theorem serveRounds_edits (n : Nat) : ∀ s : State, Edits ok s (s.serveRounds n) := by
  induction n with
  | zero => exact fun s => .refl
  | succ n ih =>
    intro s
    unfold State.serveRounds
    split
    · next free o rest _ _ =>
      have out : Edits ok s { s with backlog := rest } := lists_edits rfl
      dsimp only
      split
      · next r found =>
        exact .trans out (.trans (serveOne_reworked _ r free (key_mem (mem_of_ref? found).1)).edits (ih _))
      · exact .trans out (ih _)
    · exact .refl

/-! ## The end of an event -/

theorem settleModules_edits (s : State) : Edits ok s s.settleModules := by
  unfold State.settleModules
  generalize s.modules = l
  induction l generalizing s with
  | nil => exact .refl
  | cons m l ih =>
    refine .trans ?_ (ih (s.settleModule m))
    unfold State.settleModule
    dsimp only
    split
    · exact .tail (.single (.setModuleState s _ _)) (.post _ _)
    · exact .refl

theorem endEvent_edits (s b : State) (order : List Bool) : Edits ok s (s.endEvent b order) := by
  obtain ⟨t, result, served | ⟨same, -⟩⟩ := endEvent_cases s b order
  all_goals
    rw [result]
    refine .trans ?_ (arbitrate_edits _ order)
    refine .trans ?_ (settleModules_edits _)
    refine .trans ?_ (lists_edits (t := t.appendWalks) rfl)
  · rw [served]
    exact serveRounds_edits _ s
  · rw [same]

/-! ## The effects of an event -/

theorem freeSlotOf_edits (s : State) (k : Key) : Edits ok s (s.freeSlotOf k) := by
  unfold State.freeSlotOf
  split
  · exact .refl
  · refine (Edit.slots s _ (by simp) fun y hy => ?_).path
    obtain old | same := List.mem_or_eq_of_mem_set hy
    · exact .inl ⟨y, old, rfl⟩
    · cases same

theorem keepUsedSlots_sub (refs : List Ref) : ∀ (l : List (Option Slot)) (n : Nat),
    (keepUsedSlots refs n l).length = l.length ∧ ∀ x, some x ∈ keepUsedSlots refs n l → some x ∈ l
  | [], _ => ⟨rfl, fun _ h => h⟩
  | o :: l, n => by
    obtain ⟨length, sub⟩ := keepUsedSlots_sub refs l (n + 1)
    refine ⟨congrArg (· + 1) length, fun x hx => ?_⟩
    obtain first | later := List.mem_cons.mp hx
    · split at first
      · exact first ▸ List.mem_cons_self
      · cases first
    · exact List.mem_cons_of_mem _ (sub x later)

theorem freeEmptySlots_edits (s : State) : Edits ok s s.freeEmptySlots := by
  obtain ⟨length, sub⟩ := keepUsedSlots_sub s.refs s.slots 0
  exact (Edit.slots s _ length fun x hx => .inl ⟨x, sub x hx, rfl⟩).path

theorem offers_of_present {b : Binding} (definer : ok → s.peers.length = 16 → s.isPresent b.definer = true)
    (peers : t.peers = s.peers) : t.Offers ok b := by
  refine .inr (.inr fun holds table => ?_)
  rw [peers] at table
  have present := definer holds table
  rwa [State.isPresent, ← peers] at present

theorem clashRef_reworked (s : State) (r : Ref) {b : Binding} (refused : List Pair) (h : s.Offers ok b) :
    Reworked ok s (s.clashRef r b refused) := by
  unfold State.clashRef
  split
  · have out : Edits ok s { s with backlog := s.backlog.filter fun o => decide (o ≠ r.owner) } := lists_edits rfl
    have offered := offerBinding_reworked (s := { s with backlog := s.backlog.filter fun o => decide (o ≠ r.owner) }) r h
    exact ⟨out.trans offered.edits, offered.keys, bindFromFrame_frame s r b⟩
  · split
    · split
      · have posted := post_reworked (ok := ok) s (.referenceRevoked r.owner .refusedDefiner)
        exact posted.trans (offerBinding_reworked (s := s.post _) r h)
      · exact .refl s
    · exact .refl s

theorem clashKey_edits (s : State) (k : Key) {b : Binding} (refused : List Pair)
    (definer : ok → s.peers.length = 16 → s.isPresent b.definer = true) : Edits ok s (s.clashKey k b refused) := by
  refine .trans (Reworked.edits ?_) (freeSlotOf_edits _ k)
  refine Reworked.foldl (fun t r peers _ => clashRef_reworked t r refused (offers_of_present definer peers)) fun r hr => ?_
  exact key_mem (List.mem_filter.mp hr).1

theorem revoke_reworked (s : State) (criterion : Ref → Binding → Bool) (cause : RevocationCause) :
    Reworked ok s (s.revoke criterion cause) := by
  have hit : ∀ r ∈ s.refs.filter (Ref.meets criterion), r.key ∈ s.refs.map (·.key) := fun r hr =>
    key_mem (List.mem_filter.mp hr).1
  unfold State.revoke
  have dropped : Reworked ok s ((s.refs.filter (Ref.meets criterion)).foldl (State.dropBinding cause) s) :=
    Reworked.foldl (fun t r _ _ => (setPhase_unbound t r.owner rfl).trans (post_reworked _ _)) hit
  refine dropped.trans (Reworked.foldl (fun t r _ key => seekEntry_reworked t r key) fun r hr => ?_)
  rw [dropped.keys]
  exact hit r hr

theorem removeRefs_edits (s : State) (m : Byte) (begun : Bool) : Edits ok s (s.removeRefs m begun) := by
  unfold State.removeRefs
  dsimp only
  refine .trans ?_ (freeEmptySlots_edits _)
  exact .tail (.single (.dropRefs s fun r => decide (r.owner.module ≠ m))) (.lists rfl)

theorem completeWalk_edits (s : State) (o : Owner) (v : WalkValue) (h : ∀ b, v = .binding b → s.Offers ok b) :
    Edits ok s (s.completeWalk o v) := by
  have out : Edits ok s { s.setReflect o v.asReflect with patchQueue := s.patchQueue.erase o, walk := none } :=
    .tail (.single (.setReflect s o v.asReflect)) (.lists rfl)
  unfold State.completeWalk
  dsimp only
  cases v with
  | stub => exact out
  | binding b =>
    refine .tail out (.setPhase _ o _ fun b' same => ?_)
    cases same
    obtain own | ⟨r, row, holds⟩ | present := h b rfl
    · exact .inl own
    · refine .inr (.inl ⟨if r.owner = o then { r with reflect := .binding b } else r, List.mem_map_of_mem row, ?_⟩)
      split <;> exact holds
    · exact .inr (.inr present)

theorem beginWrites_edits (s : State) (r : Ref) (v : WalkValue) (ws : List Word) (h : ∀ b, v = .binding b → s.Offers ok b) :
    Edits ok s (s.beginWrites r v ws) := by
  unfold State.beginWrites
  split
  · exact lists_edits rfl
  · exact completeWalk_edits s _ v h

theorem walkStub_edits (s : State) (r : Ref) : Edits ok s (s.walkStub r) :=
  beginWrites_edits s r .stub _ fun b same => by cases same

theorem currentValue_offers {r : Ref} (row : r ∈ s.refs) {b : Binding} (h : r.currentValue = .binding b) : s.Offers ok b := by
  unfold Ref.currentValue at h
  split at h
  · next holds =>
    cases h
    exact .inr (.inl ⟨r, row, holds⟩)
  · cases h

theorem computeWalk_edits {r : Ref} (row : r ∈ s.refs) : Edits ok s (s.computeWalk r) := by
  unfold State.computeWalk
  split
  · exact walkStub_edits s r
  · next b holds =>
    split
    · exact beginWrites_edits s r _ _ fun b' same => by cases same; exact .inr (.inl ⟨r, row, holds⟩)
    · exact .trans ((setPhase_unbound s r.owner rfl).trans (post_reworked _ _)).edits (walkStub_edits _ r)

theorem beginWalk_edits {r : Ref} (row : r ∈ s.refs) : Edits ok s (s.beginWalk r) := by
  unfold State.beginWalk
  split
  · exact completeWalk_edits s _ _ fun b same => currentValue_offers row same
  · exact computeWalk_edits row

theorem afterSite_edits (s : State) (w : Walk) : Edits ok s (s.afterSite w) := by
  unfold State.afterSite
  split
  · exact lists_edits rfl
  · next r found =>
    have row := (mem_of_ref? found).1
    split
    · exact computeWalk_edits row
    · next same =>
      split
      · exact lists_edits rfl
      · exact completeWalk_edits s _ _ fun b value => currentValue_offers row ((not_not.mp same).trans value)

theorem busFault_edits (s : State) (o : Owner) (k : Nat) : Edits ok s (s.busFault o k) := by
  have out : Edits ok s { s with walk := none, patchQueue := s.patchQueue.erase o
                                 backlog := s.backlog.filter fun x => decide (x ≠ o) } := lists_edits rfl
  exact .trans out (.trans (.tail (.tail (setPhase_unbound _ o rfl).edits (.setReflect _ o .unknown)) (.post _ _))
    (freeEmptySlots_edits _))

theorem exhaust_edits (s : State) (n : Nat) : Edits ok s (s.exhaust n) := by
  have waiting : Reworked ok s ((s.refs.filter fun r => decide (r.phase = .seeking n)).foldl
      (fun t r => (t.setPhase r.owner .waiting).post (.referenceUnresolved r.owner)) s) :=
    Reworked.foldl (fun t r _ _ => (setPhase_unbound t r.owner rfl).trans (post_reworked _ _)) fun r hr =>
      key_mem (List.mem_filter.mp hr).1
  refine .tail waiting.edits (.slots _ _ (by simp) fun y hy => ?_)
  obtain old | same := List.mem_or_eq_of_mem_set hy
  · exact .inl ⟨y, old, rfl⟩
  · cases same

theorem losePeer_edits (s : State) (n : Station) (cause : PeerLoss) : Edits ok s (s.losePeer n cause) :=
  .tail ((post_reworked s _).trans (revoke_reworked _ _ _)).edits (.dropPairs _ _)

theorem enterImport_edits {x : ImportRecord} {tag : Half} {m : Byte} {i j off sum : Nat} {rec : ModuleRecord}
    (due : s.ImportDue x tag m i j off sum rec) : Edits ok s (s.enterImport x) := by
  unfold State.enterImport
  rw [due.command]
  exact .trans (Edit.addRef s x due).path (seekEntry_reworked _ _ (key_mem (by simp))).edits

/-- An effect is a path of edits; that of a departure begins where the station has been marked absent. -/
theorem Effect.edits (h : Effect ok s u) : Edits ok s u ∨ ∃ n cause, Edits ok (s.markAbsent n) u ∧
    u = (s.markAbsent n).losePeer n cause := by
  cases h with
  | clash k b refused definer => exact .inl (clashKey_edits s k refused definer)
  | revoke criterion cause => exact .inl (revoke_reworked s criterion cause).edits
  | withdraw criterion cause gone => exact .inl (.tail (revoke_reworked s criterion cause).edits (.dropPairs _ gone))
  | depart n cause => exact .inr ⟨n, cause, losePeer_edits _ n cause, rfl⟩
  | rejoin n cause => exact .inl (losePeer_edits s n cause)
  | giveUp m begun c h =>
    refine .inl ?_
    have given : Edits ok s (((s.setModuleState m .unloading).withdrawEntries m).removeRefs m begun) :=
      .trans (.tail (.single (.setModuleState s m .unloading)) (.withdrawEntries _ m)) (removeRefs_edits _ m begun)
    exact .tail given (.wantWithdraws _ m c h)
  | exhaust n => exact .inl (exhaust_edits s n)
  | enterImport x due => exact .inl (enterImport_edits due)
  | reseek p _ =>
    refine .inl (Reworked.edits (Reworked.foldl (f := State.reseekRef) (fun t r _ key => ?_) fun r hr => ?_))
    · have waiting := setPhase_unbound (ok := ok) t r.owner (p := .waiting) rfl
      exact waiting.trans (seekEntry_reworked _ r (waiting.keys ▸ key))
    · exact key_mem (List.mem_filter.mp hr).1
  | beginWalk r row => exact .inl (beginWalk_edits row)
  | afterSite w => exact .inl (afterSite_edits s w)
  | busFault o k => exact .inl (busFault_edits s o k)

/-- The tables of an abandoned module are taken out by edits (R36). -/
theorem abandoned_edits (s : State) (m : Byte) (begun : Bool) (answers : s.answers = []) : Edits ok s (s.abandoned m begun) := by
  refine .tail (.tail (removeRefs_edits s m begun) (.dropEntries _ (fun e => decide (e.owner.module ≠ m)) ?_)) (.removeModule _ m ?_ ?_)
  · exact answers
  · intro r hr
    simp only [removeRefs_fields, List.mem_filter, decide_eq_true_eq] at hr
    exact hr.2
  · intro e he
    exact of_decide_eq_true (List.mem_filter.mp he).2

/-! ## Moves as single edits -/

/-- An edit of the tables, or one of the other changes of a move. -/
inductive Base (ok : Prop) : State → State → Prop where
  | edit {s t : State} (h : Edit ok s t) : Base ok s t
  | depart (s : State) (n : Station) (cause : PeerLoss) (h : Edits ok (s.markAbsent n) ((s.markAbsent n).losePeer n cause)) :
      Base ok s ((s.markAbsent n).losePeer n cause)
  | memory {s t : State} (kept : s.mem.wf = true → t.mem.wf = true)
      (h : t.core = { s.core with mem := t.mem, freeCount := t.freeCount }) : Base ok s t
  | notices (s : State) {n : NoticeUnit} (h : NoticeMove s.notices n) : Base ok s { s with notices := n }
  | retire (s : State) : Base ok s { s with commandQueue := s.commandQueue.tail, command := none }
  | proceed (s : State) (c : Command) (h : c.isCommit = false) : Base ok s { s with command := some c }
  | setAside (s : State) : Base ok s { s with modules := s.otherModules }
  | loading (s : State) (x : ModuleRecord) (active : s.station = .active) (idle : s.command = none)
      (loading : x.state = .loading) (room : s.modules.length < 32) : Base ok s { s with modules := s.modules ++ [x] }
  | beginCommit (s : State) (tag : Half) (x : ModuleRecord) (off : Nat) (active : s.station = .active) (idle : s.command = none)
      (h : s.Loadable x) : Base ok s { s with modules := s.modules ++ [x], command := some (.loadCommit tag x.id 0 0 off 0) }
  | dropModule (s : State) (m : Byte) (owns : s.ownsNothing m = true) (c : Command) (command : s.command = some c)
      (h : c.isCommit = false) : Base ok s (s.removeModule m)
  | updatePeer (s : State) (n : Station) (f : Peer → Peer) (h : ∀ p, p.present = true → (f p).present = true) :
      Base ok s (s.updatePeer n f)
  | meetSeek (s : State) (k : Key) : Base ok s (s.meetSeek k)
  | meetClaim (s : State) (k : Key) (p : Pair) (refused : List Pair) (other : ok → p.station ≠ s.number) :
      Base ok s (s.meetClaim k p refused)
  | meetOwnAnnounce (s : State) (k : Key) (g : Half) : Base ok s (s.meetOwnAnnounce k g)
  | removeWithdrawn (s : State) (k : Key) (g : Half) : Base ok s (s.removeWithdrawn k g)
  | answered (s : State) (o : Owner) : Base ok s (s.leaveSource (.answer o))
  | freePlace (s : State) : Base ok s { s with txQueue := s.txQueue.tail }
  | takeRx (s : State) (x : RxItem) (rest : List RxItem) (h : s.rxQueue = x :: rest) : Base ok s { s with rxQueue := rest }
  | receive (s : State) (f : Frame) (owner : f.body.ownerAgrees f.sender = true) (room : s.rxFrames < 32) :
      Base ok s { s with rxQueue := s.rxQueue ++ [.frame f] }
  | marker (s : State) (n : Station) (h : n ≠ s.number) : Base ok s { s with rxQueue := s.rxQueue ++ [.lapse n] }
  | emptyQueues (s : State) (h : s.station = .configured) : Base ok s { s with txQueue := [], rxQueue := [] }
  | enterExport (s : State) (x : ExportRecord) {tag : Half} {m : Byte} {i j off sum : Nat} {rec : ModuleRecord}
      (due : s.ExportDue x tag m i j off sum rec) : Base ok s (s.enterExport x)

/-- A path of them. -/
abbrev Bases (ok : Prop) : State → State → Prop := Relation.ReflTransGen (Base ok)

theorem Edits.bases (h : Edits ok s t) : Bases ok s t := Relation.ReflTransGen.mono (fun _ _ => Base.edit) _ _ h

theorem enterOut_edits (s : State) (k : Key) : Edits ok s (s.enterOut k) := by
  unfold State.enterOut
  split
  · exact .refl
  · next n _ =>
    split
    · next x used =>
      split
      · refine (Edit.slots s _ (by simp) fun y hy => ?_).path
        obtain old | same := List.mem_or_eq_of_mem_set hy
        · exact .inl ⟨y, old, rfl⟩
        · cases same
          exact .inl ⟨x, List.mem_of_getElem? used, rfl⟩
      · exact .refl
    · exact .refl

theorem retry_edits {n : Nat} {x : Slot} (used : s.slots[n]? = some (some x)) (tries : Nat) :
    Edits ok s (s.enterToSend n x.key tries) := by
  refine (Edit.slots s _ (by simp) fun y hy => ?_).path
  obtain old | same := List.mem_or_eq_of_mem_set hy
  · exact .inl ⟨y, old, rfl⟩
  · cases same
    exact .inl ⟨x, List.mem_of_getElem? used, rfl⟩

theorem Effect.bases (h : Effect ok s u) : Bases ok s u := by
  obtain edits | ⟨n, cause, edits, rfl⟩ := h.edits
  · exact edits.bases
  · exact .single (.depart s n cause edits)

/-- Every move is a path of edits and of the other changes. -/
theorem Move.bases (h : Move ok s t) : Bases ok s t := by
  cases h with
  | aside h =>
    have backlog : t.backlog = s.backlog := by simpa [State.core] using congrArg State.backlog h
    have queue : t.patchQueue = s.patchQueue := by simpa [State.core] using congrArg State.patchQueue h
    exact (lists_edits (by rw [h, backlog, queue]; rfl)).bases
  | memory kept h => exact .single (.memory kept h)
  | post x => exact (Edit.post s x).path.bases
  | notices h => exact .single (.notices s h)
  | retire => exact .single (.retire s)
  | proceed c h => exact .single (.proceed s c h)
  | setAside => exact .single (.setAside s)
  | loading x active idle loading room => exact .single (.loading s x active idle loading room)
  | beginCommit tag x off active idle h => exact .single (.beginCommit s tag x off active idle h)
  | setModuleState m st => exact (Edit.setModuleState s m st).path.bases
  | dropModule m owns c command h => exact .single (.dropModule s m owns c command h)
  | updatePeer n f h => exact .single (.updatePeer s n f h)
  | meetSeek k => exact .single (.meetSeek s k)
  | meetClaim k p refused other => exact .single (.meetClaim s k p refused other)
  | meetOwnAnnounce k g => exact .single (.meetOwnAnnounce s k g)
  | removeWithdrawn k g => exact .single (.removeWithdrawn s k g)
  | answered o => exact .single (.answered s o)
  | arbitrate order => exact (arbitrate_edits s order).bases
  | leaveQueue ts h =>
    subst h
    exact .head (.freePlace s) (arbitrate_edits _ []).bases
  | enterOut k => exact (enterOut_edits s k).bases
  | retry n tries x used => exact .trans (retry_edits used tries).bases (arbitrate_edits _ []).bases
  | takeRx x rest h => exact .single (.takeRx s x rest h)
  | receive f owner room => exact .single (.receive s f owner room)
  | marker n h => exact .single (.marker s n h)
  | emptyQueues h => exact .single (.emptyQueues s h)
  | enterExport x due => exact .head (.enterExport s x due) (arbitrate_edits _ []).bases
  | event h b order _ => exact h.bases.trans (endEvent_edits _ b order).bases
  | abandon tag m begun _ answers =>
    have out : Edits ok s (s.abandoned m begun) := abandoned_edits s m begun answers
    rw [abandonModule_eq]
    refine .trans out.bases (.trans (endEvent_edits _ s []).bases ?_)
    refine .tail (.tail (.single (.edit (.post _ _))) (.retire _)) (.edit (.lists rfl))

/-- What each of them keeps, every step of a row keeps that is no change of station state, number or configuration. -/
theorem Move.keeps {P : State → Prop} (base : ∀ s t, P s → Base ok s t → P t) (law : P s) (h : Move ok s t) : P t := by
  have path := h.bases
  clear h
  induction path with
  | refl => exact law
  | tail _ last ih => exact base _ _ ih last

theorem Edits.keeps {P : State → Prop} (edit : ∀ s t, P s → Edit ok s t → P t) (law : P s) (h : Edits ok s t) : P t := by
  induction h with
  | refl => exact law
  | tail _ last ih => exact edit _ _ ih last

end Sys2Proof.Machine

/-! The law of the notice ring (R177), kept by every operation of the Notice Unit and so by every step. -/

namespace Sys2Proof.Machine

variable {ok : Prop} {s t u : State}

/-! ## Distances on the ring -/

/-- The way from `c` forward to `p` on a ring of `n` slots. -/
theorem ring_distance {n p c : Nat} (hp : p < n) (hc : c < n) : (p + n - c) % n = if c ≤ p then p - c else p + n - c := by
  split
  · next le =>
    have split_ : p + n - c = p - c + n := by omega
    rw [split_, Nat.add_mod_right, Nat.mod_eq_of_lt (by omega)]
  · exact Nat.mod_eq_of_lt (by omega)

theorem ring_next {n p : Nat} (hp : p < n) : (p + 1) % n = if p + 1 = n then 0 else p + 1 := by
  split
  · next full => rw [full, Nat.mod_self]
  · exact Nat.mod_eq_of_lt (by omega)

theorem ringSize_pos {n : Nat} (h : n ∈ ringSizes) : 16 ≤ n := by
  simp only [ringSizes, List.mem_cons, List.not_mem_nil, or_false] at h
  omega

/-! ## The Notice Unit's part of the law -/

/-- The Notice Unit's part of the law: all of it but that in OFF there is no ring. -/
structure NoticeUnit.Lawful (n : NoticeUnit) : Prop where
  sizes : ∀ r, n.ring = some r → r.size ∈ ringSizes ∧ n.producer < r.size ∧ n.consumer < r.size ∧ n.occupancy ≤ r.size - 1
  slots : ∀ r, n.ring = some r → ∀ (i : Nat) (x : Reserved), n.list[i]? = some x → x.slot = (n.producer + i) % r.size
  unset : n.ring = none → n.list = [] ∧ n.producer = 0 ∧ n.consumer = 0

theorem ringLaw_iff (s : State) : s.RingLaw ↔ s.notices.Lawful ∧ (s.station = .off → s.notices.ring = none) :=
  ⟨fun h => ⟨⟨h.sizes, h.slots, h.unset⟩, h.off⟩, fun ⟨h, off⟩ => ⟨h.sizes, h.slots, h.unset, off⟩⟩

theorem occupancy_of_ring {n : NoticeUnit} {r : Ring} (h : n.ring = some r) :
    n.occupancy = (n.producer + r.size - n.consumer) % r.size + n.list.length := by
  rw [NoticeUnit.occupancy, h]

theorem hasRoom_iff {n : NoticeUnit} {r : Ring} (h : n.ring = some r) : n.hasRoom = true ↔ n.occupancy < r.size - 1 := by
  rw [NoticeUnit.hasRoom, h]
  exact decide_eq_true_iff

theorem reserve_of_ring {n : NoticeUnit} {r : Ring} (h : n.ring = some r) (x : Notice) :
    n.reserve x = { n with list := n.list ++ [{ slot := (n.producer + n.list.length) % r.size, notice := x }] } := by
  rw [NoticeUnit.reserve, h]

theorem ring_of_hasRoom {n : NoticeUnit} (h : n.hasRoom = true) : ∃ r, n.ring = some r := by
  unfold NoticeUnit.hasRoom at h
  split at h
  · cases h
  · next r ring => exact ⟨r, ring⟩

theorem NoticeUnit.Lawful.reserve {n : NoticeUnit} (law : n.Lawful) (room : n.hasRoom = true) (x : Notice) (d : Nat) :
    ({ n.reserve x with drops := d } : NoticeUnit).Lawful := by
  obtain ⟨r, ring⟩ := ring_of_hasRoom room
  have space := (hasRoom_iff ring).mp room
  obtain ⟨size, producer, consumer, -⟩ := law.sizes r ring
  rw [reserve_of_ring ring]
  refine ⟨fun r' ring' => ?_, fun r' ring' i y hy => ?_, fun none_ => ?_⟩
  · have same : r = r' := Option.some.inj (ring.symm.trans ring')
    subst same
    refine ⟨size, producer, consumer, ?_⟩
    rw [occupancy_of_ring ring] at space
    rw [occupancy_of_ring ring']
    simp only [List.length_append, List.length_singleton]
    omega
  · have same : r = r' := Option.some.inj (ring.symm.trans ring')
    subst same
    dsimp only at hy
    rw [List.getElem?_append] at hy
    split at hy
    · exact law.slots r ring i y hy
    · next behind =>
      rw [List.getElem?_singleton] at hy
      split at hy
      · next last =>
        cases hy
        have index : i = n.list.length := by omega
        rw [index]
      · cases hy
  · exact absurd (ring.symm.trans none_) (by simp)

/-- Fields of which the law does not speak. -/
theorem NoticeUnit.Lawful.congr {n m : NoticeUnit} (law : n.Lawful) (ring : m.ring = n.ring) (producer : m.producer = n.producer)
    (consumer : m.consumer = n.consumer) (list : m.list = n.list) : m.Lawful := by
  have occupancy : m.occupancy = n.occupancy := by
    unfold NoticeUnit.occupancy
    rw [ring, producer, consumer, list]
  refine ⟨?_, ?_, ?_⟩
  · rw [ring, producer, consumer, occupancy]; exact law.sizes
  · rw [ring, producer, list]; exact law.slots
  · rw [ring, producer, consumer, list]; exact law.unset

theorem NoticeUnit.Lawful.testDrops {n : NoticeUnit} (law : n.Lawful) : n.testDrops.Lawful := by
  unfold NoticeUnit.testDrops
  split
  · next test => exact law.reserve test.2 _ 0
  · exact law

theorem NoticeUnit.Lawful.take {n : NoticeUnit} (law : n.Lawful) (x : Notice) : (n.take x).Lawful := by
  unfold NoticeUnit.take
  dsimp only
  split
  · next room => exact law.testDrops.reserve room x (n.testDrops.reserve x).drops
  · exact law.testDrops.congr rfl rfl rfl rfl

theorem reserve_ring (n : NoticeUnit) (x : Notice) : (n.reserve x).ring = n.ring := by
  unfold NoticeUnit.reserve
  split
  · rfl
  · rfl

theorem testDrops_ring (n : NoticeUnit) : n.testDrops.ring = n.ring := by
  unfold NoticeUnit.testDrops
  split
  · exact reserve_ring n _
  · rfl

theorem take_ring (n : NoticeUnit) (x : Notice) : (n.take x).ring = n.ring := by
  unfold NoticeUnit.take
  dsimp only
  split
  · exact (reserve_ring _ x).trans (testDrops_ring n)
  · exact testDrops_ring n

theorem accepts_of_ring {n : NoticeUnit} {r : Ring} (ring : n.ring = some r) (v : Nat) : n.accepts v = true ↔
    v < r.size ∧ (v + r.size - n.consumer) % r.size ≤ (n.producer + r.size - n.consumer) % r.size := by
  rw [NoticeUnit.accepts, ring]
  simp

theorem ring_of_accepts {n : NoticeUnit} {v : Nat} (h : n.accepts v = true) : ∃ r, n.ring = some r := by
  unfold NoticeUnit.accepts at h
  split at h
  · cases h
  · next r ring => exact ⟨r, ring⟩

theorem NoticeUnit.Lawful.release {n : NoticeUnit} (law : n.Lawful) (v : Nat) : (n.release v).Lawful := by
  unfold NoticeUnit.release
  split
  · next accepted =>
    refine NoticeUnit.Lawful.testDrops ?_
    obtain ⟨r, hr⟩ := ring_of_accepts accepted
    obtain ⟨inside, before⟩ := (accepts_of_ring hr v).mp accepted
    obtain ⟨size, producer, consumer, occupancy⟩ := law.sizes r hr
    refine ⟨fun r' ring' => ?_, law.slots, fun none_ => absurd (hr.symm.trans none_) (by simp)⟩
    have same : r = r' := Option.some.inj (hr.symm.trans ring')
    subst same
    refine ⟨size, producer, inside, ?_⟩
    rw [occupancy_of_ring hr, ring_distance producer consumer] at occupancy
    rw [ring_distance inside consumer, ring_distance producer consumer] at before
    rw [occupancy_of_ring ring']
    dsimp only
    rw [ring_distance producer inside]
    split at before <;> split at before <;> split <;> simp_all <;> omega
  · exact law.congr rfl rfl rfl rfl

theorem NoticeUnit.Lawful.published {n : NoticeUnit} (law : n.Lawful) {r : Ring} (ring : n.ring = some r) (some_ : n.list ≠ []) :
    (n.published r).Lawful := by
  obtain ⟨size, producer, consumer, occupancy⟩ := law.sizes r ring
  have wide := ringSize_pos size
  have length : 1 ≤ n.list.length := List.length_pos_iff.mpr some_
  rw [occupancy_of_ring ring, ring_distance producer consumer] at occupancy
  refine ⟨fun r' ring' => ?_, fun r' ring' i x hx => ?_, fun none_ => absurd (ring.symm.trans none_) (by simp)⟩
  · have same : r = r' := Option.some.inj (ring.symm.trans ring')
    subst same
    have below : (n.producer + 1) % r.size < r.size := Nat.mod_lt _ (by omega)
    refine ⟨size, below, consumer, ?_⟩
    rw [occupancy_of_ring ring']
    simp only [NoticeUnit.published, List.length_tail]
    rw [ring_distance below consumer, ring_next producer]
    split at occupancy <;> split <;> split <;> simp_all <;> omega
  · have same : r = r' := Option.some.inj (ring.symm.trans ring')
    subst same
    rw [NoticeUnit.published, List.getElem?_tail] at hx
    rw [law.slots r ring (i + 1) x hx, NoticeUnit.published, Nat.mod_add_mod, Nat.add_right_comm, Nat.add_assoc]

theorem NoticeUnit.Lawful.writeFailed {n : NoticeUnit} (law : n.Lawful) : n.writeFailed.Lawful := by
  refine ⟨fun r ring => ?_, fun r ring i x hx => ?_, fun none_ => ⟨rfl, (law.unset none_).2⟩⟩
  · obtain ⟨size, producer, consumer, occupancy⟩ := law.sizes r ring
    refine ⟨size, producer, consumer, ?_⟩
    rw [occupancy_of_ring (n := n) ring] at occupancy
    rw [occupancy_of_ring ring]
    simp only [NoticeUnit.writeFailed, List.length_nil]
    omega
  · cases hx

theorem NoticeMove.lawful {n m : NoticeUnit} (h : NoticeMove n m) (law : n.Lawful) : m.Lawful ∧ m.ring = n.ring := by
  cases h with
  | release v =>
    refine ⟨law.release v, ?_⟩
    unfold NoticeUnit.release
    split
    · exact testDrops_ring _
    · rfl
  | clearFlags value => exact ⟨law.congr rfl rfl rfl rfl, rfl⟩
  | enable b => exact ⟨law.congr rfl rfl rfl rfl, rfl⟩
  | published r ring some_ => exact ⟨law.published ring some_, rfl⟩
  | writeFailed => exact ⟨law.writeFailed, rfl⟩

/-! ## Every step -/

theorem State.RingLaw.congr (law : s.RingLaw) (notices : t.notices = s.notices) (station : t.station = s.station) : t.RingLaw := by
  rw [ringLaw_iff] at law ⊢
  rwa [notices, station]

theorem State.RingLaw.post (law : s.RingLaw) (x : Notice) : (s.post x).RingLaw := by
  rw [ringLaw_iff] at law ⊢
  exact ⟨law.1.take x, fun off => (take_ring s.notices x).trans (law.2 off)⟩

theorem refuse_ringLaw (law : s.RingLaw) (o : Owner) (p : Pair) : (s.refuse o p).RingLaw := by
  have refused : ((s.setEntry o (.refused p)).leaveAnswers fun x => decide (x = o)).RingLaw := law.congr rfl rfl
  exact refused.post _

theorem Edit.ringLaw (h : Edit ok s t) (law : s.RingLaw) : t.RingLaw := by
  cases h with
  | post x => exact law.post x
  | lists h => exact law.congr (by simpa [State.core] using congrArg State.notices h) (by simpa [State.core] using congrArg State.station h)
  | _ => exact law.congr rfl rfl

theorem Base.ringLaw (h : Base ok s t) (law : s.RingLaw) : t.RingLaw := by
  cases h with
  | edit h => exact h.ringLaw law
  | depart n cause h => exact h.keeps (fun _ _ law h => h.ringLaw law) (law.congr (t := s.markAbsent n) rfl rfl)
  | memory _ h => exact law.congr (by simpa [State.core] using congrArg State.notices h) (by simpa [State.core] using congrArg State.station h)
  | notices h =>
    rw [ringLaw_iff] at law ⊢
    obtain ⟨lawful, ring⟩ := h.lawful law.1
    exact ⟨lawful, fun off => ring.trans (law.2 off)⟩
  | meetSeek k =>
    unfold State.meetSeek
    split
    · exact law
    · split
      · unfold State.oweOffer
        split <;> exact law.congr rfl rfl
      all_goals exact law
  | meetClaim k p refused _ =>
    unfold State.meetClaim
    split
    · exact law
    · split
      · exact refuse_ringLaw law _ _
      · split
        · exact refuse_ringLaw law _ _
        · unfold State.oweClash
          split <;> exact law.congr rfl rfl
      all_goals exact law
  | meetOwnAnnounce k g =>
    unfold State.meetOwnAnnounce
    split
    · exact law
    · split
      · exact law.congr rfl rfl
      · exact law
  | enterExport x due =>
    unfold State.enterExport
    split <;> exact law.congr rfl rfl
  | _ => exact law.congr rfl rfl

theorem Change.ringLaw (h : Change s t) (law : s.RingLaw) : t.RingLaw := by
  rw [ringLaw_iff] at law ⊢
  obtain ⟨lawful, off⟩ := law
  cases h with
  | reset n cut => exact ⟨⟨fun _ h => (nomatch h), fun _ h => (nomatch h), fun _ => ⟨rfl, rfl, rfl⟩⟩, fun _ => rfl⟩
  | resetLow => exact ⟨lawful, off⟩
  | submit value =>
    unfold State.submit
    split
    · exact ⟨lawful, off⟩
    · split <;> exact ⟨lawful, off⟩
  | configure c isOff size =>
    have empty := (lawful.unset (off isOff)).1
    refine ⟨NoticeUnit.Lawful.testDrops ⟨fun r ring => ?_, fun r ring i x hx => ?_, fun none_ => (by cases none_)⟩,
      fun h => (by cases h)⟩
    · have wide := ringSize_pos size
      rw [occupancy_of_ring ring]
      cases ring
      refine ⟨size, by dsimp only; omega, by dsimp only; omega, ?_⟩
      simp [empty]
    · simp [empty] at hx
  | join tag configured =>
    have joined : ({ s with station := .joining, busSeen := false, command := some (.start tag), wanted := [.join] } :
        State).RingLaw := (ringLaw_iff _).mpr ⟨lawful, fun h => by cases h⟩
    exact (ringLaw_iff _).mp ((arbitrate_edits (ok := False) _ []).keeps (fun _ _ law h => h.ringLaw law) joined)
  | leave tag active empty =>
    have left : ({ s with station := .leaving, command := some (.stop tag), wanted := [.leave] } : State).RingLaw :=
      (ringLaw_iff _).mpr ⟨lawful, fun h => by cases h⟩
    exact (ringLaw_iff _).mp ((arbitrate_edits (ok := False) _ []).keeps (fun _ _ law h => h.ringLaw law) left)
  | isolate => exact ⟨lawful, fun h => by cases h⟩
  | left => exact ⟨lawful, fun h => by cases h⟩
  | joined => exact ⟨lawful, fun h => by cases h⟩

/-- Settles O11: the Notice Unit's operations keep its part of the law, and CONFIGURE alone, in OFF, sets a ring. -/
theorem ringLawKept : Obligations.RingLawKept := fun _ _ law h =>
  step_keeps_any (fun _ _ law => law.congr rfl rfl) (fun _ _ law h => h.keeps (fun _ _ law h => h.ringLaw law) law)
    (fun _ _ law h => h.ringLaw law) law h

end Sys2Proof.Machine

/-! The export directory: no row but LOAD_COMMIT_EXPORT adds an entry, and no row changes an entry's key or owner. The laws of its
keys (R39) and of the answer list (R48, R49). -/

namespace Sys2Proof.Machine

variable {ok : Prop} {s t u : State}

/-! ## How the directory changes -/

/-- Entries have gone or changed, but none has come, and none has changed its key or its owner. -/
def Shrinks (d d' : List ExportEntry) : Prop :=
  ∃ f : ExportEntry → Option ExportEntry, (∀ e e', f e = some e' → e'.key = e.key ∧ e'.owner = e.owner) ∧ d' = d.filterMap f

theorem Shrinks.refl (d : List ExportEntry) : Shrinks d d :=
  ⟨some, fun _ _ h => by cases h; exact ⟨rfl, rfl⟩, (List.filterMap_some).symm⟩

theorem Shrinks.trans {a b c : List ExportEntry} (h : Shrinks a b) (k : Shrinks b c) : Shrinks a c := by
  obtain ⟨f, hf, rfl⟩ := h
  obtain ⟨g, hg, rfl⟩ := k
  refine ⟨fun e => (f e).bind g, fun e e' both => ?_, List.filterMap_filterMap⟩
  obtain ⟨x, hx, hx'⟩ := Option.bind_eq_some_iff.mp both
  exact ⟨(hg x e' hx').1.trans (hf e x hx).1, (hg x e' hx').2.trans (hf e x hx).2⟩

theorem Shrinks.map {d : List ExportEntry} {f : ExportEntry → ExportEntry} (h : ∀ e, (f e).key = e.key ∧ (f e).owner = e.owner) :
    Shrinks d (d.map f) :=
  ⟨some ∘ f, fun e _ same => by cases same; exact h e, (List.filterMap_eq_map).symm ▸ rfl⟩

theorem Shrinks.filter {d : List ExportEntry} (p : ExportEntry → Bool) : Shrinks d (d.filter p) := by
  refine ⟨Option.guard p, fun e e' same => ?_, by rw [List.filterMap_eq_filter]⟩
  obtain ⟨rfl, -⟩ := Option.guard_eq_some_iff.mp same
  exact ⟨rfl, rfl⟩

theorem Shrinks.proj {α : Type} (g : ExportEntry → α) {d : List ExportEntry} {f : ExportEntry → Option ExportEntry}
    (h : ∀ e e', f e = some e' → g e' = g e) : ((d.filterMap f).map g).Sublist (d.map g) := by
  induction d with
  | nil => exact .slnil
  | cons e d ih =>
    rw [List.filterMap_cons, List.map_cons]
    split
    · exact ih.cons _
    · next e' he => rw [List.map_cons, h e e' he]; exact ih.cons_cons _

theorem Shrinks.keys {d d' : List ExportEntry} (h : Shrinks d d') : (d'.map (·.key)).Sublist (d.map (·.key)) := by
  obtain ⟨f, hf, rfl⟩ := h
  exact Shrinks.proj _ fun e e' same => (hf e e' same).1

theorem Shrinks.owners {d d' : List ExportEntry} (h : Shrinks d d') : (d'.map (·.owner)).Sublist (d.map (·.owner)) := by
  obtain ⟨f, hf, rfl⟩ := h
  exact Shrinks.proj _ fun e e' same => (hf e e' same).2

theorem Shrinks.length {d d' : List ExportEntry} (h : Shrinks d d') : d'.length ≤ d.length := by
  have le := h.owners.length_le
  rwa [List.length_map, List.length_map] at le

theorem withdrawn_kept {e e' : ExportEntry} {m : Byte} (h : e.withdrawn m = some e') : e'.key = e.key ∧ e'.owner = e.owner := by
  unfold ExportEntry.withdrawn at h
  split at h
  · split at h <;> cases h <;> exact ⟨rfl, rfl⟩
  · cases h; exact ⟨rfl, rfl⟩

theorem setEntry_shrinks (s : State) (o : Owner) (st : ExportState) : Shrinks s.directory (s.setEntry o st).directory :=
  Shrinks.map fun e => by split <;> exact ⟨rfl, rfl⟩

theorem dropPairs_shrinks (s : State) (gone : Key → Pair → Bool) : Shrinks s.directory (s.dropPairs gone).directory :=
  Shrinks.map fun e => by split <;> exact ⟨rfl, rfl⟩

theorem oweClash_directory (s : State) (o : Owner) : (s.oweClash o).directory = s.directory := by
  unfold State.oweClash
  split <;> rfl

theorem oweOffer_directory (s : State) (o : Owner) : (s.oweOffer o).directory = s.directory := by
  unfold State.oweOffer
  split <;> rfl

theorem meetSeek_directory (s : State) (k : Key) : (s.meetSeek k).directory = s.directory := by
  unfold State.meetSeek
  split
  · rfl
  · split
    · exact oweOffer_directory s _
    all_goals rfl

theorem meetClaim_shrinks (s : State) (k : Key) (p : Pair) (refused : List Pair) :
    Shrinks s.directory (s.meetClaim k p refused).directory := by
  unfold State.meetClaim
  split
  · exact .refl _
  · split
    · exact setEntry_shrinks s _ _
    · split
      · exact setEntry_shrinks s _ _
      · rw [oweClash_directory]
        exact setEntry_shrinks s _ _
    all_goals exact .refl _

theorem meetOwnAnnounce_shrinks (s : State) (k : Key) (g : Half) : Shrinks s.directory (s.meetOwnAnnounce k g).directory := by
  unfold State.meetOwnAnnounce
  split
  · exact .refl _
  · split
    · exact setEntry_shrinks s _ _
    · exact .refl _

theorem answered_shrinks (s : State) (o : Owner) : Shrinks s.directory (s.leaveSource (.answer o)).directory :=
  Shrinks.map fun e => by
    split
    · split <;> exact ⟨rfl, rfl⟩
    all_goals exact ⟨rfl, rfl⟩

theorem isolated_shrinks (s : State) : Shrinks s.directory s.cutFromBus.directory :=
  Shrinks.map fun e => by
    unfold ExportEntry.isolated
    split <;> exact ⟨rfl, rfl⟩

theorem core_directory (h : t.core = s.core) : t.directory = s.directory := by
  have directory := congrArg State.directory h
  exact directory

theorem Edit.directory (h : Edit ok s t) : Shrinks s.directory t.directory := by
  cases h with
  | lists h =>
    have directory : t.directory = s.directory := by simpa [State.core] using congrArg State.directory h
    rw [directory]
    exact .refl _
  | dropPairs gone => exact dropPairs_shrinks s gone
  | withdrawEntries m => exact ⟨fun e => e.withdrawn m, fun _ _ => withdrawn_kept, rfl⟩
  | dropEntries p _ => exact .filter p
  | _ => exact .refl _

theorem Edits.directory (h : Edits ok s t) : Shrinks s.directory t.directory := by
  induction h with
  | refl => exact .refl _
  | tail _ last ih => exact ih.trans last.directory

/-- The entry that the commit of an export adds (R25). -/
def State.newEntry (s : State) (x : ExportRecord) (m : Byte) (i : Nat) : ExportEntry :=
  { key := s.keyOf x.scope x.name, owner := { module := m, index := i }
    target := globalAddress s.number (x.segment.base.toNat + x.offset.toNat), kind := x.kind
    generation := s.nextGeneration, state := .pending }

theorem enterExport_directory {x : ExportRecord} {tag : Half} {m : Byte} {i j off sum : Nat}
    (command : s.command = some (.loadCommit tag m i j off sum)) :
    (s.enterExport x).directory = s.directory ++ [s.newEntry x m i] := by
  unfold State.enterExport
  rw [command]
  rfl

/-- The directory shrinks, or an export is entered. -/
theorem Base.directory (h : Base ok s t) : Shrinks s.directory t.directory ∨
    ∃ x tag m i j off sum rec, s.ExportDue x tag m i j off sum rec ∧ t = s.enterExport x := by
  cases h with
  | edit h => exact .inl h.directory
  | depart n cause h => exact .inl h.directory
  | memory _ h =>
    have directory : t.directory = s.directory := by simpa [State.core] using congrArg State.directory h
    rw [directory]
    exact .inl (.refl _)
  | meetSeek k => rw [meetSeek_directory]; exact .inl (.refl _)
  | meetClaim k p refused _ => exact .inl (meetClaim_shrinks s k p refused)
  | meetOwnAnnounce k g => exact .inl (meetOwnAnnounce_shrinks s k g)
  | removeWithdrawn k g => exact .inl (.filter _)
  | answered o => exact .inl (answered_shrinks s o)
  | enterExport x due => exact .inr ⟨x, _, _, _, _, _, _, _, due, rfl⟩
  | _ => exact .inl (.refl _)

theorem submit_directory (s : State) (value : Word) : (s.submit value).directory = s.directory := by
  unfold State.submit
  split
  · rfl
  · split <;> rfl

theorem Change.directory (h : Change s t) : Shrinks s.directory t.directory := by
  cases h with
  | reset n cut => exact ⟨fun _ => none, fun _ _ h => (nomatch h), by simp [State.resetWith, State.reset]⟩
  | submit value => rw [submit_directory]; exact .refl _
  | join tag _ =>
    exact Edits.directory (s := { s with station := .joining, busSeen := false, command := some (.start tag), wanted := [.join] })
      (ok := False) (arbitrate_edits _ [])
  | leave tag _ _ =>
    exact Edits.directory (s := { s with station := .leaving, command := some (.stop tag), wanted := [.leave] })
      (ok := False) (arbitrate_edits _ [])
  | isolate => exact isolated_shrinks s
  | _ => exact .refl _

/-! ## One entry for each key (R39) -/

theorem directoryKeysDistinct_iff (s : State) : s.DirectoryKeysDistinct ↔
    (s.directory.map (·.key)).Pairwise fun a b => a.agrees b = false := by
  rw [List.pairwise_map]
  rfl

theorem State.DirectoryKeysDistinct.shrinks (law : s.DirectoryKeysDistinct) (h : Shrinks s.directory t.directory) :
    t.DirectoryKeysDistinct := by
  rw [directoryKeysDistinct_iff] at law ⊢
  exact law.sublist h.keys

theorem Base.directoryKeys (h : Base ok s t) (law : s.DirectoryKeysDistinct) : t.DirectoryKeysDistinct := by
  obtain shrinks | ⟨x, tag, m, i, j, off, sum, rec, due, rfl⟩ := h.directory
  · exact law.shrinks shrinks
  · rw [directoryKeysDistinct_iff] at law ⊢
    rw [enterExport_directory due.command, List.map_append, List.pairwise_append]
    refine ⟨law, List.pairwise_singleton _ _, fun a ha b hb => ?_⟩
    obtain ⟨e, he, rfl⟩ := List.mem_map.mp ha
    obtain rfl := List.mem_singleton.mp hb
    exact due.fresh e he

/-- Settles O13: an export is entered only where no entry has its key. -/
theorem directoryKeysDistinctKept : Obligations.DirectoryKeysDistinctKept := fun _ _ law h =>
  step_keeps_any (P := State.DirectoryKeysDistinct) (fun _ _ law => law)
    (fun _ _ law h => h.keeps (fun _ _ law h => h.directoryKeys law) law) (fun _ _ law h => law.shrinks h.directory) law h

/-! ## The answer list (R48, R49) -/

/-- An entry of the owner is LIVE. -/
def State.LiveOwner (s : State) (o : Owner) : Prop := ∃ e ∈ s.directory, e.owner = o ∧ e.isLive = true

theorem State.AnswersLive.of_sublist (law : s.AnswersLive) (answers : t.answers.Sublist s.answers)
    (live : ∀ a ∈ t.answers, s.LiveOwner a.owner → t.LiveOwner a.owner) : t.AnswersLive where
  once := law.once.sublist (answers.map _)
  live := fun a ha => live a ha (law.live a (answers.subset ha))

theorem State.AnswersLive.congr (law : s.AnswersLive) (answers : t.answers = s.answers) (directory : t.directory = s.directory) :
    t.AnswersLive :=
  law.of_sublist (answers ▸ .refl _) fun _ _ ⟨e, he, h⟩ => ⟨e, directory ▸ he, h⟩

/-- An update of entries that leaves owners and LIVE entries LIVE. -/
theorem liveOwner_map {f : ExportEntry → ExportEntry} {o : Owner} (directory : t.directory = s.directory.map f)
    (kept : ∀ e, e.owner = o → e.isLive = true → (f e).owner = o ∧ (f e).isLive = true) (h : s.LiveOwner o) : t.LiveOwner o := by
  obtain ⟨e, he, owner, live⟩ := h
  exact ⟨f e, directory ▸ List.mem_map_of_mem he, kept e owner live⟩

theorem setEntry_liveOwner (s : State) {o p : Owner} (st : ExportState) (h : p = o → st.code = 2) (live : s.LiveOwner p) :
    (s.setEntry o st).LiveOwner p := by
  refine liveOwner_map (t := s.setEntry o st) rfl (fun e owner isLive => ?_) live
  split
  · next same => exact ⟨owner, decide_eq_true (h (owner.symm.trans same))⟩
  · exact ⟨owner, isLive⟩

theorem setEntry_live_answersLive (law : s.AnswersLive) (o : Owner) (owed : List Pair) :
    (s.setEntry o (.live owed)).AnswersLive :=
  law.of_sublist (.refl _) fun _ _ => setEntry_liveOwner s (.live owed) fun _ => rfl

theorem refuse_answersLive (law : s.AnswersLive) (o : Owner) (p : Pair) : (s.refuse o p).AnswersLive := by
  refine law.of_sublist List.filter_sublist fun a ha live => ?_
  have other : a.owner ≠ o := by simpa using (List.mem_filter.mp ha).2
  exact setEntry_liveOwner s (.refused p) (fun same => absurd same other) live

theorem answer?_none {o : Owner} (h : s.answer? o = none) : o ∉ s.answers.map (·.owner) := by
  intro member
  obtain ⟨a, ha, owner⟩ := List.mem_map.mp member
  have := List.find?_eq_none.mp h a ha
  simp [owner] at this

theorem append_answersLive (law : s.AnswersLive) {o : Owner} (new : s.answer? o = none) (live : s.LiveOwner o) (b : Bool) :
    ({ s with answers := s.answers ++ [{ owner := o, owesOffer := b }] } : State).AnswersLive := by
  refine ⟨?_, fun a ha => ?_⟩
  · rw [List.map_append]
    refine List.nodup_append.mpr ⟨law.once, List.nodup_singleton _, fun x hx y hy same => ?_⟩
    obtain rfl := List.mem_singleton.mp hy
    exact answer?_none new (same ▸ hx)
  · obtain old | new := List.mem_append.mp ha
    · exact law.live a old
    · obtain rfl := List.mem_singleton.mp new
      exact live

theorem oweOffer_answersLive (law : s.AnswersLive) {o : Owner} (live : s.LiveOwner o) : (s.oweOffer o).AnswersLive := by
  unfold State.oweOffer
  split
  · have owners : (s.answers.map fun a => if a.owner = o then { a with owesOffer := true } else a).map (·.owner) =
        s.answers.map (·.owner) := by
      rw [List.map_map]
      refine List.map_congr_left fun a _ => ?_
      simp only [Function.comp]
      split <;> rfl
    refine ⟨by rw [owners]; exact law.once, fun a ha => ?_⟩
    have owner : a.owner ∈ s.answers.map (·.owner) := owners ▸ List.mem_map_of_mem ha
    obtain ⟨b, hb, same⟩ := List.mem_map.mp owner
    exact same ▸ law.live b hb
  · next new => exact append_answersLive law new live true

theorem oweClash_answersLive (law : s.AnswersLive) {o : Owner} (live : s.LiveOwner o) : (s.oweClash o).AnswersLive := by
  unfold State.oweClash
  split
  · exact law
  · next new => exact append_answersLive law new live false

theorem entryOf_mem {k : Key} {e : ExportEntry} (h : s.entryOf k = some e) : e ∈ s.directory := List.mem_of_find?_eq_some h

theorem Edit.answersLive (h : Edit ok s t) (law : s.AnswersLive) : t.AnswersLive := by
  cases h with
  | lists h =>
    exact law.congr (by simpa [State.core] using congrArg State.answers h) (by simpa [State.core] using congrArg State.directory h)
  | dropPairs gone =>
    refine law.of_sublist List.filter_sublist fun a _ => liveOwner_map (t := s.dropPairs gone) rfl fun e owner live => ?_
    split
    · exact ⟨owner, rfl⟩
    all_goals exact ⟨owner, live⟩
  | withdrawEntries m =>
    refine law.of_sublist List.filter_sublist fun a ha ⟨e, he, owner, live⟩ => ?_
    have other : a.owner.module ≠ m := by simpa using (List.mem_filter.mp ha).2
    refine ⟨e, List.mem_filterMap.mpr ⟨e, he, ?_⟩, owner, live⟩
    rw [ExportEntry.withdrawn, if_neg (owner ▸ other)]
  | dropEntries p none_ =>
    refine ⟨?_, fun a ha => ?_⟩
    · exact law.once
    · have : a ∈ s.answers := ha
      rw [none_] at this
      cases this
  | _ => exact law.congr rfl rfl

theorem Base.answersLive (h : Base ok s t) (law : s.AnswersLive) : t.AnswersLive := by
  cases h with
  | edit h => exact h.answersLive law
  | depart n cause h => exact h.keeps (fun _ _ law h => h.answersLive law) (law.congr (t := s.markAbsent n) rfl rfl)
  | memory _ h =>
    exact law.congr (by simpa [State.core] using congrArg State.answers h) (by simpa [State.core] using congrArg State.directory h)
  | meetSeek k =>
    unfold State.meetSeek
    split
    · exact law
    · next e found =>
      split
      · next state => exact oweOffer_answersLive law ⟨e, entryOf_mem found, rfl, by simp [ExportEntry.isLive, state, ExportState.code]⟩
      all_goals exact law
  | meetClaim k p refused _ =>
    unfold State.meetClaim
    split
    · exact law
    · next e found =>
      split
      · exact refuse_answersLive law _ _
      · next state =>
        split
        · exact refuse_answersLive law _ _
        · refine oweClash_answersLive (setEntry_live_answersLive law _ _) (setEntry_liveOwner s _ (fun _ => rfl) ?_)
          exact ⟨e, entryOf_mem found, rfl, by simp [ExportEntry.isLive, state, ExportState.code]⟩
      all_goals exact law
  | meetOwnAnnounce k g =>
    unfold State.meetOwnAnnounce
    split
    · exact law
    · split
      · exact setEntry_live_answersLive law _ _
      · exact law
  | removeWithdrawn k g =>
    refine law.of_sublist (.refl _) fun a _ ⟨e, he, owner, live⟩ => ⟨e, List.mem_filter.mpr ⟨he, ?_⟩, owner, live⟩
    have : e.state ≠ .withdrawing := fun same => by simp [ExportEntry.isLive, same, ExportState.code] at live
    simp [this]
  | answered o =>
    refine law.of_sublist List.filter_sublist fun a _ => liveOwner_map (t := s.leaveSource (.answer o)) rfl fun e owner live => ?_
    split
    · split
      · exact ⟨owner, rfl⟩
      · exact ⟨owner, live⟩
    all_goals exact ⟨owner, live⟩
  | enterExport x due =>
    have answers : (s.enterExport x).answers = s.answers := by
      rw [State.enterExport, due.command]
    refine law.of_sublist (answers ▸ .refl _) fun a _ ⟨e, he, h⟩ => ⟨e, ?_, h⟩
    rw [enterExport_directory due.command]
    exact List.mem_append_left _ he
  | _ => exact law.congr rfl rfl

theorem State.AnswersLive.arbitrate (law : s.AnswersLive) (order : List Bool) : (s.arbitrate order).AnswersLive :=
  (arbitrate_edits (ok := False) s order).keeps (fun _ _ law h => h.answersLive law) law

theorem Change.answersLive (h : Change s t) (law : s.AnswersLive) : t.AnswersLive := by
  cases h with
  | reset n cut => exact ⟨List.nodup_nil, fun _ ha => (nomatch ha)⟩
  | submit value =>
    unfold State.submit
    split
    · exact law.congr rfl rfl
    · split <;> exact law.congr rfl rfl
  | join tag _ =>
    have joined : ({ s with station := .joining, busSeen := false, command := some (.start tag), wanted := [.join] } : State).AnswersLive :=
      law.congr rfl rfl
    exact joined.arbitrate []
  | leave tag _ _ =>
    have leaving : ({ s with station := .leaving, command := some (.stop tag), wanted := [.leave] } : State).AnswersLive :=
      law.congr rfl rfl
    exact leaving.arbitrate []
  | isolate => exact ⟨List.nodup_nil, fun _ ha => (nomatch ha)⟩
  | _ => exact law.congr rfl rfl

/-- Settles O14: a member joins the list for a LIVE entry, and leaves it with its entry's being LIVE. -/
theorem answersLiveKept : Obligations.AnswersLiveKept := fun _ _ law h =>
  step_keeps_any (fun _ _ law => law.congr rfl rfl) (fun _ _ law h => h.keeps (fun _ _ law h => h.answersLive law) law)
    (fun _ _ law h => h.answersLive law) law h

end Sys2Proof.Machine

/-! The machine at its start, the register window (R165 to R167, R179, R181), and the stub encoding (R115). -/

namespace Sys2Proof.Machine

/-- Settles O1: by the definition of a step. -/
theorem stepRunsTheFrontCommand : Obligations.StepRunsTheFrontCommand :=
  ⟨fun _ _ _ h => by rw [step, h], fun _ h => by rw [step, h]⟩

/-! ## The state after reset (R9, R58, R86, R149, R164, R166, R176) -/

theorem reset_noSlot {n : Nat} {x : Slot} (h : State.reset.slots[n]? = some (some x)) : False :=
  absurd (List.eq_of_mem_replicate (List.mem_of_getElem? h)) (by simp)

theorem reset_noneWaiting : State.reset.NoneWaiting :=
  ⟨rfl, fun _ h => absurd (List.eq_of_mem_replicate h) (by simp)⟩

theorem reset_owners : State.reset.OwnersDistinct where
  exportOwners := List.nodup_nil
  refOwners := List.nodup_nil
  exportModules _ h := (nomatch h)
  refModules _ h := (nomatch h)
  commit _ _ _ _ _ _ h := (nomatch h)

theorem reset_seekLaw : State.reset.SeekLaw where
  owners := reset_owners
  keys _ _ _ _ h := (reset_noSlot h).elim
  used _ _ h := (reset_noSlot h).elim
  seeking _ h := (nomatch h)
  once := List.nodup_nil
  queued _ := ⟨fun h => (nomatch h), fun ⟨_, h, _⟩ => (nomatch h)⟩
  served := .inl rfl

/-- Settles O7: every store is empty, every slot free, and no claimant asks. -/
theorem lawsHoldAtReset : Obligations.LawsHoldAtReset := by
  refine ⟨rfl, ?withinRoom, ?ringLaw, reset_seekLaw, List.Pairwise.nil, ⟨List.nodup_nil, fun _ h => (nomatch h)⟩,
    ⟨fun _ h => (nomatch h)⟩, reset_owners, ⟨reset_owners, List.nodup_nil, fun _ h => (nomatch h)⟩, ?definers, ?stores, ?names,
    ?agent⟩
  case withinRoom =>
    exact ⟨by decide, by decide, by decide, by decide, rfl, rfl, by decide, fun _ => .inl reset_noneWaiting⟩
  case ringLaw => exact ⟨fun _ h => (nomatch h), fun _ h => (nomatch h), fun _ => ⟨rfl, rfl, rfl⟩, fun _ => rfl⟩
  case definers => exact ⟨fun _ h => (nomatch h), fun _ h => (nomatch h), fun h => (nomatch h), fun _ h => (nomatch h), fun _ _ => rfl, rfl⟩
  case stores => exact ⟨by decide, by decide, by decide⟩
  case names =>
    exact ⟨fun _ h => (nomatch h), fun _ h => (nomatch h), fun _ h => absurd (List.eq_of_mem_replicate h) (by simp),
      fun _ h => (nomatch h), fun _ h => (nomatch h), fun _ h => (nomatch h)⟩
  case agent => exact ⟨fun _ h => (nomatch h), List.nodup_nil, fun c => by cases c <;> decide⟩

/-! ## The register window -/

theorem windowWrite_of_high {s : State} (h : s.inReset = false) (f : State → State) : s.windowWrite f = f s := by
  rw [State.windowWrite, if_neg (by simp [h])]

theorem windowWrite_of_low {s : State} (h : s.inReset = true) (f : State → State) : s.windowWrite f = s :=
  if_pos h

/-- Clearing a flag by a written 1 bit (R181). -/
theorem and_not_eq_ite (flag bit : Bool) : (flag && !bit) = if bit then false else flag := by
  cases bit
  · exact Bool.and_true flag
  · exact Bool.and_false flag

/-- Settles O20: the rows of the register window, by the bits of the written word. -/
theorem registerWrites : Obligations.RegisterWrites := by
  refine ⟨fun value s high low => ?enable, fun value s high => ?flags, fun _ _ _ _ => rfl, fun _ => rfl, ?inReset⟩
  case enable =>
    have written : s.writePctl value {} = { s with notices := { s.notices with interruptEnable := value.getLsbD 0 } } :=
      if_neg (by rw [low]; exact Bool.false_ne_true)
    exact congrArg Host.Outcome.next ((windowWrite_of_high high _).trans written)
  case flags =>
    have cleared : s.notices.clearFlags value = { s.notices with
        writeFault := if value.getLsbD 2 then false else s.notices.writeFault
        consumerRefused := if value.getLsbD 3 then false else s.notices.consumerRefused } := by
      simp only [NoticeUnit.clearFlags, and_not_eq_ite]
    rw [← cleared]
    exact congrArg Host.Outcome.next (windowWrite_of_high high _)
  case inReset =>
    intro s value cut c low row
    simp only [List.mem_cons, List.not_mem_nil, or_false] at row
    rcases row with rfl | rfl | rfl | rfl | rfl <;> exact congrArg Host.Outcome.next (windowWrite_of_low low _)

/-! ## The consumer index (R179) -/

/-- A distance from `c` less than `n` is reached by one index. -/
theorem ring_reached {n p c v : Nat} (hc : c < n) :
    (v < n ∧ (v + n - c) % n ≤ p) ↔ ∃ i, i ≤ p ∧ i < n ∧ v = (c + i) % n := by
  constructor
  · rintro ⟨inside, near⟩
    refine ⟨(v + n - c) % n, near, Nat.mod_lt _ (by omega), ?_⟩
    rw [Nat.add_mod_mod, show c + (v + n - c) = v + n by omega, Nat.add_mod_right, Nat.mod_eq_of_lt inside]
  · rintro ⟨i, near, less, rfl⟩
    have inside : (c + i) % n < n := Nat.mod_lt _ (by omega)
    refine ⟨inside, ?_⟩
    suffices ((c + i) % n + n - c) % n = i by omega
    rw [ring_distance inside hc]
    by_cases wraps : c + i < n
    · rw [Nat.mod_eq_of_lt wraps]; split <;> omega
    · rw [Nat.mod_eq_sub_mod (by omega), Nat.mod_eq_of_lt (by omega)]; split <;> omega

/-- A written consumer index is accepted where it lies from the consumer index forward to the producer index. -/
theorem accepts_iff {s : State} (law : s.RingLaw) {r : Ring} (ring : s.notices.ring = some r) (v : Nat) :
    s.notices.accepts v = true ↔
      ∃ i, i ≤ (s.notices.producer + r.size - s.notices.consumer) % r.size ∧ v = (s.notices.consumer + i) % r.size := by
  obtain ⟨-, producer, consumer, -⟩ := law.sizes r ring
  have room : 0 < r.size := by omega
  rw [accepts_of_ring ring, ring_reached consumer]
  constructor
  · rintro ⟨i, near, -, same⟩; exact ⟨i, near, same⟩
  · rintro ⟨i, near, same⟩; exact ⟨i, near, near.trans_lt (Nat.mod_lt _ room), same⟩

theorem accepts_of_noRing {n : NoticeUnit} (h : n.ring = none) (v : Nat) : n.accepts v = false := by
  rw [NoticeUnit.accepts, h]

theorem exec_nconsWrite {s : State} (high : s.inReset = false) (value : Word) :
    exec (.nconsWrite value) s = .next (State.settleAgent { s with notices := s.notices.release value.toNat }) :=
  congrArg Host.Outcome.next (windowWrite_of_high high _)

/-- Settles O22: by what is accepted, with a ring and without. -/
theorem consumerWrite : Obligations.ConsumerWrite := by
  intro value s high
  rw [exec_nconsWrite high]
  refine ⟨fun r ring law => ⟨fun reached => ?accepted, fun missed => ?refused⟩, fun none_ => ?noRing⟩
  case accepted => rw [NoticeUnit.release, if_pos ((accepts_iff law ring _).mpr reached)]
  case refused =>
    rw [NoticeUnit.release, if_neg fun accepted => ?_]
    obtain ⟨i, near, same⟩ := (accepts_iff law ring _).mp accepted
    exact missed i near same
  case noRing => rw [NoticeUnit.release, if_neg (by simp [accepts_of_noRing none_])]

/-! ## The notice list (R177, R178) -/

theorem testDrops_of_room {n : NoticeUnit} (drops : n.drops ≠ 0) (room : n.hasRoom = true) :
    n.testDrops = { n.reserve (.noticesDropped n.drops) with drops := 0 } := if_pos ⟨drops, room⟩

theorem testDrops_of_none {n : NoticeUnit} (h : n.drops = 0 ∨ n.hasRoom = false) : n.testDrops = n :=
  if_neg fun ⟨drops, room⟩ => h.elim drops (by simp [room])

theorem hasRoom_of_noRing {n : NoticeUnit} (h : n.ring = none) : n.hasRoom = false := by
  rw [NoticeUnit.hasRoom, h]

section
variable {n : NoticeUnit} {r : Ring} {free : Nat}

/-- The room left: the size less one less the occupancy. -/
theorem hasRoom_of_free (ring : n.ring = some r) (h : n.occupancy + free + 1 = r.size) : n.hasRoom = decide (1 ≤ free) := by
  rw [NoticeUnit.hasRoom, ring]
  exact decide_eq_decide.mpr (by omega)

theorem take_of_room {x : Notice} (room : n.testDrops.hasRoom = true) : n.take x = n.testDrops.reserve x := if_pos room

theorem take_of_full {x : Notice} (full : n.testDrops.hasRoom = false) :
    n.take x = { n.testDrops with drops := min 65535 (n.testDrops.drops + 1) } := if_neg (by simp [full])

/-- The Notice Unit after NOTICES-DROPPED has been reserved. -/
def NoticeUnit.dropsTold (n : NoticeUnit) (r : Ring) : NoticeUnit :=
  { n with drops := 0, list := n.list ++ [{ slot := (n.producer + n.list.length) % r.size, notice := .noticesDropped n.drops }] }

theorem testDrops_of_free (ring : n.ring = some r) (h : n.occupancy + free + 1 = r.size) (drops : n.drops ≠ 0)
    (room : 1 ≤ free) : n.testDrops = n.dropsTold r := by
  rw [testDrops_of_room drops (by rw [hasRoom_of_free ring h]; exact decide_eq_true room), reserve_of_ring ring]
  rfl

theorem testDrops_unchanged (ring : n.ring = some r) (h : n.occupancy + free + 1 = r.size) (none_ : n.drops = 0 ∨ free = 0) :
    n.testDrops = n :=
  testDrops_of_none (none_.imp_right fun full => by rw [hasRoom_of_free ring h, full]; rfl)

theorem dropsTold_hasRoom (ring : n.ring = some r) (h : n.occupancy + free + 1 = r.size) (room : 1 ≤ free) :
    (n.dropsTold r).hasRoom = decide (2 ≤ free) := by
  have ring' : (n.dropsTold r).ring = some r := ring
  have occupancy : (n.dropsTold r).occupancy + (free - 1) + 1 = r.size := by
    rw [occupancy_of_ring ring] at h
    rw [occupancy_of_ring ring']
    simp only [NoticeUnit.dropsTold, List.length_append, List.length_singleton]
    omega
  rw [hasRoom_of_free ring' occupancy]
  exact decide_eq_decide.mpr (by omega)

end

/-- Settles O23: by the test of the drop count, then by the room it leaves. -/
theorem noticesTakenOrCounted : Obligations.NoticesTakenOrCounted := by
  refine ⟨fun n x r free ring h => ⟨fun drops room => ?plain, fun drops room => ?both, fun drops one => ?counted,
    fun full => ?full, testDrops_of_free ring h, testDrops_unchanged ring h⟩, fun n x none_ => ?noRing⟩
  case plain =>
    have same := testDrops_unchanged ring h (.inl drops)
    rw [take_of_room (by rw [same, hasRoom_of_free ring h]; exact decide_eq_true room), same, reserve_of_ring ring]
  case both =>
    have told := testDrops_of_free ring h drops (by omega)
    rw [take_of_room (by rw [told, dropsTold_hasRoom ring h (by omega)]; exact decide_eq_true room), told,
      reserve_of_ring (n := n.dropsTold r) ring]
    simp [NoticeUnit.dropsTold]
  case counted =>
    have told := testDrops_of_free ring h drops (by omega)
    rw [take_of_full (by rw [told, dropsTold_hasRoom ring h (by omega)]; exact decide_eq_false (by omega)), told]
    rfl
  case full =>
    have same := testDrops_unchanged ring h (.inr full)
    rw [take_of_full (by rw [same, hasRoom_of_free ring h, full]; rfl), same]
  case noRing =>
    have same : n.testDrops = n := testDrops_of_none (.inr (hasRoom_of_noRing none_))
    exact ⟨by rw [take_of_full (by rw [same]; exact hasRoom_of_noRing none_), same], same⟩

/-! ## The stub encoding (R115) -/

/-- Settles O60: the stub value is the encoding of the stub address, and the bits replaced are those of any value. -/
theorem stubEncodings : Obligations.StubEncodings := by
  intro s c x old config
  have value : s.stubValue x = (x.encode s.number c.stub).getD 0 := by rw [State.stubValue, State.stubAddress, config]
  exact ⟨fun v fits => by rw [value, fits]; rfl, fun fails => by rw [value, fails]; rfl, fun _ => newWord_replaces x old _⟩

end Sys2Proof.Machine

/-! What the host reads in the register window (R165, R166, R181). -/

namespace Sys2Proof.Machine

/-- A field of a register, by number. -/
theorem toNat_field (w : Word) (low width : Nat) : (w.extractLsb' low width).toNat = w.toNat / 2 ^ low % 2 ^ width := by
  rw [BitVec.extractLsb'_toNat, Nat.shiftRight_eq_div_pow]

/-- A field of a register is read as `v`. -/
theorem field_eq {w : Word} {low width : Nat} {v : BitVec width} (h : w.toNat / 2 ^ low % 2 ^ width = v.toNat) :
    w.extractLsb' low width = v :=
  BitVec.eq_of_toNat_eq ((toNat_field w low width).trans h)

theorem bit_eq {w : Word} {i : Nat} {b : Bool} (h : w.toNat / 2 ^ i % 2 = b.toNat) : w.getLsbD i = b := by
  rw [BitVec.getLsbD, Nat.testBit_eq_decide_div_mod_eq, h]
  cases b <;> rfl

theorem station_code_le (st : StationState) : st.code ≤ 5 := by cases st <;> decide

theorem submit_code_le (r : SubmitResult) : r.code ≤ 3 := by cases r <;> decide

theorem pstat_toNat (s : State) : s.pstat.toNat = s.station.code + s.number.val * 0x100 + s.ownGroup.toNat * 0x10000 := by
  have station := station_code_le s.station
  have number := s.number.isLt
  have group := s.ownGroup.isLt
  rw [State.pstat, BitVec.toNat_ofNat, Nat.mod_eq_of_lt (by omega)]

theorem cqstat_toNat {s : State} (h : s.commandQueue.length ≤ 8) :
    s.cqstat.toNat = s.commandQueue.length + s.lastSubmit.code * 0x100 := by
  have result := submit_code_le s.lastSubmit
  rw [State.cqstat, BitVec.toNat_ofNat, Nat.mod_eq_of_lt (by omega)]

theorem istat_toNat {n : NoticeUnit} (h : n.drops ≤ 65535) :
    n.istat.toNat = n.pendingFlag.toNat + 2 * (decide (n.drops ≠ 0)).toNat + 4 * n.writeFault.toNat
      + 8 * n.consumerRefused.toNat + n.drops * 0x10000 := by
  have pending := Bool.toNat_le n.pendingFlag
  have dropped := Bool.toNat_le (decide (n.drops ≠ 0))
  have fault := Bool.toNat_le n.writeFault
  have refused := Bool.toNat_le n.consumerRefused
  rw [NoticeUnit.istat, BitVec.toNat_ofNat, Nat.mod_eq_of_lt (by omega)]

theorem index_lt {s : State} (law : s.RingLaw) : s.notices.producer < 256 ∧ s.notices.consumer < 256 := by
  cases ring : s.notices.ring with
  | none =>
    obtain ⟨-, producer, consumer⟩ := law.unset ring
    omega
  | some r =>
    obtain ⟨size, producer, consumer, -⟩ := law.sizes r ring
    simp only [ringSizes, List.mem_cons, List.not_mem_nil, or_false] at size
    omega

theorem readWindow_word {s : State} (high : s.inReset = false) (offset : Nat) :
    s.readWindow offset .word = some (s.register (offset - offset % 4)) := by
  rw [State.readWindow, if_neg (by simp [high])]

/-- The fields of a register holding an index. -/
theorem index_register {v : Nat} (h : v < 256) :
    (BitVec.ofNat 32 v).toNat = v ∧ (BitVec.ofNat 32 v).extractLsb' 8 24 = 0 := by
  have value : (BitVec.ofNat 32 v).toNat = v := by rw [BitVec.toNat_ofNat, Nat.mod_eq_of_lt (by omega)]
  exact ⟨value, field_eq (by rw [value]; simp; omega)⟩

theorem pstat_fields (s : State) : (s.pstat.extractLsb' 0 3).toNat = s.station.code ∧
    (s.pstat.extractLsb' 8 4).toNat = s.number.val ∧ s.pstat.extractLsb' 16 3 = s.ownGroup ∧
    s.pstat.extractLsb' 3 5 = 0 ∧ s.pstat.extractLsb' 12 4 = 0 ∧ s.pstat.extractLsb' 19 13 = 0 := by
  have station := station_code_le s.station
  have number := s.number.isLt
  have group := s.ownGroup.isLt
  refine ⟨?_, ?_, field_eq ?_, field_eq ?_, field_eq ?_, field_eq ?_⟩ <;>
    simp only [toNat_field, pstat_toNat, BitVec.ofNat_eq_ofNat, BitVec.toNat_ofNat] <;> omega

theorem cqstat_fields {s : State} (h : s.commandQueue.length ≤ 8) :
    (s.cqstat.extractLsb' 0 4).toNat = s.commandQueue.length ∧ (s.cqstat.extractLsb' 8 2).toNat = s.lastSubmit.code ∧
    s.cqstat.extractLsb' 4 4 = 0 ∧ s.cqstat.extractLsb' 10 22 = 0 := by
  have result := submit_code_le s.lastSubmit
  refine ⟨?_, ?_, field_eq ?_, field_eq ?_⟩ <;>
    simp only [toNat_field, cqstat_toNat h, BitVec.ofNat_eq_ofNat, BitVec.toNat_ofNat] <;> omega

theorem istat_fields {n : NoticeUnit} (h : n.drops ≤ 65535) :
    n.istat.getLsbD 0 = decide (n.producer ≠ n.consumer) ∧ n.istat.getLsbD 1 = decide (n.drops ≠ 0) ∧
    n.istat.getLsbD 2 = n.writeFault ∧ n.istat.getLsbD 3 = n.consumerRefused ∧ n.istat.extractLsb' 4 12 = 0 ∧
    (n.istat.extractLsb' 16 16).toNat = n.drops := by
  have value := istat_toNat h
  have pending := Bool.toNat_le n.pendingFlag
  have dropped := Bool.toNat_le (decide (n.drops ≠ 0))
  have fault := Bool.toNat_le n.writeFault
  have refused := Bool.toNat_le n.consumerRefused
  refine ⟨bit_eq (b := n.pendingFlag) ?_, bit_eq ?_, bit_eq ?_, bit_eq ?_, field_eq ?_, ?_⟩ <;>
    simp only [toNat_field, value, BitVec.ofNat_eq_ofNat, BitVec.toNat_ofNat] <;> omega

/-- The lanes of a narrower access are those of the word that holds it (R165). -/
theorem readWindow_lanes {s : State} {j i : Nat} {w : Word} (less : i < 4) (read : s.readWindow (4 * j) .word = some w) :
    s.readWindow (4 * j + i) .byte = some ((byteAt w i).setWidth 32) ∧
    s.readWindow (4 * j + i) .half = some ((halfOf (byteAt w i) (byteAt w (i + 1))).setWidth 32) := by
  have high : s.inReset = false := by
    by_contra low
    rw [State.readWindow, if_pos (by simpa using low)] at read
    cases read
  rw [readWindow_word high, Nat.mul_mod_right, Nat.sub_zero] at read
  have lane : (4 * j + i) % 4 = i := by omega
  have base : 4 * j + i - i = 4 * j := by omega
  simp only [State.readWindow, high, lane, base, Option.some.inj read, Bool.false_eq_true, if_false, and_self]

/-- Settles O24: register by register, by number. -/
theorem registerReads : Obligations.RegisterReads := by
  refine ⟨fun s high room law => ?registers, fun s j i w less read => ?lanes, fun s offset width low => if_pos low,
    fun s => ?interrupt⟩
  case registers =>
    obtain ⟨producer, consumer⟩ := index_lt law
    refine ⟨readWindow_word high 0, ?_, ⟨_, readWindow_word high 8, pstat_fields s⟩, readWindow_word high 12,
      ⟨_, readWindow_word high 16, cqstat_fields room.commands⟩, ⟨_, readWindow_word high 20, index_register producer⟩,
      ⟨_, readWindow_word high 24, index_register consumer⟩, fun none_ => ?_,
      ⟨_, readWindow_word high 28, istat_fields room.drops⟩⟩
    · rw [readWindow_word high]
      cases enable : s.notices.interruptEnable <;> simp [State.register, enable]
    · obtain ⟨-, producer, consumer⟩ := law.unset none_
      rw [readWindow_word high, readWindow_word high]
      simp [State.register, producer, consumer]
  case lanes =>
    obtain ⟨byte, half⟩ := readWindow_lanes less read
    exact ⟨byte, fun _ => half⟩
  case interrupt => simp [State.interrupt, NoticeUnit.pendingFlag]

end Sys2Proof.Machine

/-! The resets (R127, R149, R164, R166, R175, R180, R182): what each claimant's transfer in progress leaves of local memory. -/

namespace Sys2Proof.Machine

variable {s : State} {cut : Cut}

/-- Words that the agent has not carried leave local memory as it was; of those it carried one at the most where another waits. -/
theorem carriedWords_of_not_granted {c : Claimant} (h : c ∉ s.granted) (n : Nat) : s.carriedWords c n = 0 := if_neg h

theorem carriedWords_le_one {c : Claimant} (others : s.othersAsk c = true) (n : Nat) : s.carriedWords c n ≤ 1 := by
  rw [State.carriedWords, if_pos others]
  split
  · exact Nat.min_le_left 1 n
  · exact Nat.zero_le 1

/-- Local memory after what a reset leaves of the words that claimant `c` was writing (R175, R180). -/
theorem setWords_carried {c : Claimant} (m : Memory) (a n : Nat) (words : List Word) :
    m.setWords a (words.take (s.carriedWords c n)) = m ∨
      c ∈ s.granted ∧ (s.othersAsk c = true → s.carriedWords c n ≤ 1) := by
  by_cases granted : c ∈ s.granted
  · exact .inr ⟨granted, fun others => carriedWords_le_one others n⟩
  · rw [carriedWords_of_not_granted granted, List.take_zero]
    exact .inl rfl

/-- Local memory after the site transfer at a reset (R127). -/
def State.siteAtReset (s : State) (cut : Cut) : Memory :=
  match s.transfer with
  | some t => if cut.site && decide (.patchEngine ∈ s.granted) then (s.siteWritten t).mem else s.mem
  | none => s.mem

/-- Local memory after the words of the first reserved notice at a reset (R180). -/
def State.noticeAtReset (s : State) (cut : Cut) : Memory :=
  match s.notices.ring, s.notices.list with
  | some r, x :: _ =>
    (s.siteAtReset cut).setWords (r.base + 16 * x.slot + 4 * s.runs.noticeWords)
      ((x.notice.words.drop s.runs.noticeWords).take (s.carriedWords .noticeUnit cut.noticeWords))
  | _, _ => s.siteAtReset cut

theorem siteAtReset_of_some {x : SiteTransfer} (h : s.transfer = some x) : s.siteAtReset cut =
    if cut.site && decide (.patchEngine ∈ s.granted) then (s.siteWritten x).mem else s.mem := by
  rw [State.siteAtReset, h]

theorem siteAtReset_of_none (h : s.transfer = none) : s.siteAtReset cut = s.mem := by
  rw [State.siteAtReset, h]

theorem siteAtReset_cases (s : State) (cut : Cut) : s.siteAtReset cut = s.mem ∨
    ∃ x, s.transfer = some x ∧ .patchEngine ∈ s.granted ∧ s.siteAtReset cut = (s.siteWritten x).mem := by
  cases transfer : s.transfer with
  | none => exact .inl (siteAtReset_of_none transfer)
  | some x =>
    rw [siteAtReset_of_some transfer]
    split
    · next done =>
      rw [Bool.and_eq_true, decide_eq_true_eq] at done
      exact .inr ⟨x, rfl, done.2, rfl⟩
    · exact .inl rfl

theorem noticeAtReset_of_nil (h : s.notices.list = []) : s.noticeAtReset cut = s.siteAtReset cut := by
  unfold State.noticeAtReset
  rw [h]
  split
  · next list => cases list
  · rfl

/-- Words of the first reserved notice that stand at a reset. -/
theorem noticeAtReset_cases (s : State) (cut : Cut) : s.noticeAtReset cut = s.siteAtReset cut ∨
    ∃ r x behind k, s.notices.ring = some r ∧ s.notices.list = x :: behind ∧ .noticeUnit ∈ s.granted ∧
      (s.othersAsk .noticeUnit = true → k ≤ 1) ∧
      s.noticeAtReset cut = (s.siteAtReset cut).setWords (r.base + 16 * x.slot + 4 * s.runs.noticeWords)
        ((x.notice.words.drop s.runs.noticeWords).take k) := by
  unfold State.noticeAtReset
  split
  · next r x behind ring list =>
    exact (setWords_carried _ _ _ _).imp_right fun ⟨granted, one⟩ => ⟨r, x, behind, _, ring, list, granted, one, rfl⟩
  · exact .inl rfl

/-- Words of the report record under way that stand at a reset. -/
theorem memAtReset_cases (s : State) (cut : Cut) : s.memAtReset cut = s.noticeAtReset cut ∨
    ∃ tag sel m buffer capacity n x k, s.command = some (.report tag sel m buffer capacity n) ∧
      s.recordAt sel m n = some x ∧ .commandEngine ∈ s.granted ∧ (s.othersAsk .commandEngine = true → k ≤ 1) ∧
      s.memAtReset cut = (s.noticeAtReset cut).setWords (buffer + n * sel.recordSize + 4 * x.written)
        ((x.words.drop x.written).take k) := by
  unfold State.memAtReset
  dsimp only
  split
  · next tag sel m buffer capacity n command =>
    split
    · next x record =>
      exact (setWords_carried _ _ _ _).imp_right fun ⟨granted, one⟩ =>
        ⟨tag, sel, m, buffer, capacity, n, x, _, command, record, granted, one, rfl⟩
    · exact .inl rfl
  · exact .inl rfl

theorem memAtReset_of_quiet (h : s.reporting = false) : s.memAtReset cut = s.noticeAtReset cut := by
  refine (memAtReset_cases s cut).resolve_right ?_
  rintro ⟨tag, sel, m, buffer, capacity, n, -, -, command, -⟩
  rw [State.reporting, command] at h
  cases h

/-- Settles O8: every field but local memory by the reset itself, and local memory claimant after claimant. -/
theorem resetsClearEveryBlock : Obligations.ResetsClearEveryBlock := by
  intro c n cut s row
  have reset : exec c s = .next (s.resetWith n cut) := by
    rcases row with ⟨straps, rfl, rfl⟩ | ⟨value, rfl, bit, high, rfl⟩
    · rfl
    · exact exec_portReset high bit cut
  refine ⟨_, reset, rfl, rfl, rfl, rfl, rfl, rfl, rfl, rfl, rfl, rfl, rfl, rfl, rfl, rfl, rfl, rfl, rfl, rfl, rfl, rfl, rfl,
    rfl, rfl, rfl, rfl, rfl, rfl, rfl, ?idle, ?transfer, s.siteAtReset cut, s.noticeAtReset cut, ?site,
    noticeAtReset_cases s cut, memAtReset_cases s cut⟩
  case idle =>
    intro transfer list quiet
    exact (memAtReset_of_quiet quiet).trans ((noticeAtReset_of_nil list).trans (siteAtReset_of_none transfer))
  case transfer =>
    intro x transfer list quiet
    have mem : (s.resetWith n cut).mem = s.siteAtReset cut := (memAtReset_of_quiet quiet).trans (noticeAtReset_of_nil list)
    rw [mem, siteAtReset_of_some transfer]
    split
    · exact .inr rfl
    · exact .inl rfl
  case site =>
    exact (siteAtReset_cases s cut).imp_right fun ⟨x, transfer, granted, mem⟩ => ⟨x, transfer, granted, mem⟩

end Sys2Proof.Machine

/-! The events on the line of the binding bus (R131 to R145), row by row. -/

namespace Sys2Proof.Machine

variable {s : State}

/-! ## The end of sending (R135, R136, R140) -/

theorem exec_contentionLost {source : Source} {f : Frame} {bit : Nat} (high : s.inReset = false)
    (line : s.line = .contending source f) (key : bit < 6) (sent : f.arbitrationKey.testBit bit = true) :
    exec (.contentionLost bit) s = .next { s with line := .quiet } := by
  simp only [exec, execContentionLost, line, high, decide_eq_true key, sent]
  rfl

theorem exec_senderBitMismatch {o : Outgoing} {pos : Nat} (high : s.inReset = false) (line : s.line = .sending)
    (outgoing : s.outgoing = some o) (after : 6 ≤ pos) (sent : o.frame.bits[pos]? = some true) :
    exec (.senderBitMismatch pos) s = .next { s with line := .quiet, outgoing := none } := by
  simp only [exec, execSenderBitMismatch, outgoing, high, decide_eq_true line, decide_eq_true after, decide_eq_true sent]
  rfl

theorem exec_repeatFrame {o : Outgoing} {idle : Nat} (listens : s.listens = true) (line : s.line = .quiet)
    (outgoing : s.outgoing = some o) (holds : 1 ≤ o.holds) (free : 12 ≤ idle) :
    exec (.repeatFrame idle) s = .next { s with line := .sending } := by
  have passed : decide (Config.freeIdle ≤ idle) = true := decide_eq_true free
  simp only [exec, execRepeatFrame, outgoing, listens, decide_eq_true line, decide_eq_true holds, passed]
  rfl

/-- Settles O39: the three rows where their event can occur. -/
theorem sendingStopsAndRepeats : Obligations.SendingStopsAndRepeats :=
  ⟨fun _ _ _ _ high line key sent => exec_contentionLost high line key sent,
    fun _ _ _ high line outgoing after sent => exec_senderBitMismatch high line outgoing after sent,
    fun _ _ _ listens line outgoing holds free => exec_repeatFrame listens line outgoing holds free⟩

/-! ## A contention won (R50, R130, R136, R138) -/

/-- With one place free and no slot waiting, the first of the Command Engine's frames takes it. -/
theorem arbitrate_wanted (last : s.txQueue.length = 31) {c : TxEntry} {cs : List TxEntry} (wanted : s.wanted = c :: cs)
    (slots : ∀ y, some y ∈ s.slots → y.awaitingRoom = true → y.state ≠ .toSend) (on : s.station ≠ .isolated) :
    s.arbitrate [] = { s with txQueue := s.txQueue ++ [c], wanted := cs } := by
  let t : State := { s with txQueue := s.txQueue ++ [c], wanted := cs }
  have none_ : s.waitingSlot = none := State.NoneWaiting.waitingSlot (s := { s with wanted := [] }) ⟨rfl, slots⟩
  have placed : s.grantCommand = t := by rw [State.grantCommand, wanted]
  have round : s.grantRounds 32 [] = t.grantRounds 31 [] := by
    rw [State.grantRounds, if_neg (by rw [last, Config.transmitRoom]; omega), none_, wanted, placed]
  rw [State.arbitrate, if_neg on]
  exact round.trans (grantRounds_full (s := t) (by simp [t, last, Config.transmitRoom]) _ _)

/-- The entries as a won contention for an answer leaves them (R50). -/
theorem leaveSource_answer (s : State) (o : Owner) : s.leaveSource (.answer o) = { s with
    answers := s.answers.filter fun a => decide (a.owner ≠ o)
    directory := s.directory.map fun e => if e.owner = o ∧ e.isLive = true then { e with state := .live [] } else e } := by
  refine congrArg (fun directory => ({ s with
    answers := s.answers.filter fun a => decide (a.owner ≠ o), directory } : State)) (List.map_congr_left fun e _ => ?_)
  cases state : e.state <;> simp [ExportEntry.isLive, state, ExportState.code]

/-- Settles O40: what leaves its source, and what the arbiter does with the place. -/
theorem contentionWon : Obligations.ContentionWon := by
  intro s source f high line won
  have row : exec .contentionWon s = .next (won.leaveSource source).settleAgent := exec_contentionWon high line
  refine ⟨?answer, ?queue⟩
  case answer =>
    rintro o rfl
    rw [row, leaveSource_answer]
  case queue =>
    rintro x xs rfl queue on
    have left : won.leaveSource .queue = ({ won with txQueue := xs } : State).arbitrate [] := by
      rw [State.leaveSource]
      simp only [won, queue, List.tail_cons]
    rw [row, left]
    refine ⟨fun none_ => ?_, fun last k y first => ?_, fun last slots c cs wanted => ?_⟩
    · rw [arbitrate_idle (s := { won with txQueue := xs }) (.inl none_) on]
    · rw [arbitrate_slot (s := { won with txQueue := xs }) last first on]
    · rw [arbitrate_wanted (s := { won with txQueue := xs }) last wanted slots on]

/-! ## Arrival (R131, R139, R143, R144) -/

theorem canArrive_of_listens (listens : s.listens = true) (line : s.line = .quiet ∨ s.line = .sending) : s.canArrive = true := by
  rw [State.canArrive, listens, decide_eq_true line]
  rfl

theorem exec_frameArrival {bits : List Bool} (begun : Bool) (may : s.canArrive = true) (key : 6 ≤ bits.length) :
    exec (.frameArrival bits begun) s = .next (s.arrive bits begun) := by
  rw [exec, execFrameArrival, may, decide_eq_true key]
  rfl

/-- A good frame has a whole header, from which its sender and sequence are read. -/
theorem readFrame_header {bits : List Bool} {f : Frame} (h : readFrame bits = some f) :
    f.sender = readSender bits ∧ readSequence bits = some f.sequence := by
  unfold readFrame at h
  dsimp only at h
  split at h
  · cases h
  next whole =>
  split at h
  · cases h
  split at h
  · cases h
  split at h
  · split at h
    · cases h
      exact ⟨rfl, if_pos (by omega)⟩
    · cases h
  · cases h

theorem hasMarker_iff (n : Station) : s.hasMarker n = true ↔ RxItem.lapse n ∈ s.rxQueue := by
  simp [State.hasMarker]

theorem isTakenRepeat_iff (f : Frame) : s.isTakenRepeat f = true ↔
    ∃ h, s.held = some h ∧ h.took = true ∧ h.sender = f.sender ∧ h.sequence = some f.sequence := by
  unfold State.isTakenRepeat
  cases s.held with
  | none => simp
  | some h => simp [and_assoc]

/-- The arrival tests on a good frame that is not a duplicate of the own number (R143). -/
theorem arrive_of_read {bits : List Bool} {f : Frame} {begun : Bool} (read : readFrame bits = some f)
    (good : f.sender ≠ s.number ∨ s.line = .sending) : s.arrive bits begun =
      if s.isTakenRepeat f then s.openWindow bits .discarded
      else if s.hasMarker f.sender then s.openWindow bits .heldFull
      else if Config.receiveRoom ≤ s.rxFrames then s.openWindow bits .heldFull
      else (({ s with rxQueue := s.rxQueue ++ [.frame f] } : State).updatePeer f.sender fun p =>
        { p with lastSequence := f.sequence }).openWindow bits .taken := by
  rw [State.arrive, read]
  exact if_neg fun ⟨own, other⟩ => good.elim (· own) other

theorem openWindow_of_read {bits : List Bool} {f : Frame} (read : readFrame bits = some f) (x : Arrival) :
    s.openWindow bits x = { s with
      line := .window { sender := f.sender, sequence := some f.sequence, arrival := x, own := decide (s.line = .sending) } } := by
  obtain ⟨sender, sequence⟩ := readFrame_header read
  rw [State.openWindow, sequence, sender]

/-- Settles O41: the tests in their order. -/
theorem arrivalTests : Obligations.ArrivalTests := by
  refine ⟨fun s bits begun listens line key => ?listening, fun s bits begun quiet silent => ?silent⟩
  case listening =>
    have may := canArrive_of_listens listens line
    refine ⟨fun bad => ?_, fun quiet idle short => ?_, fun f read good => ?_⟩
    · rw [exec_frameArrival begun may key, State.arrive, bad]
      rfl
    · have cut : (decide (29 ≤ bits.length) && decide (declaredLength bits ≤ bits.length)) = false := by
        rw [← Bool.decide_and]
        exact decide_eq_false (by omega)
      have passed : decide (Config.cutOffIdle ≤ quiet) = true := decide_eq_true idle
      rw [exec, execFrameCutOff, may, passed, decide_eq_true key, cut]
      rfl
    · dsimp only
      rw [exec_frameArrival begun may key, arrive_of_read read good]
      refine ⟨fun again => ?_, fun fresh full => ?_, fun fresh noMarker room => ?_⟩
      · rw [if_pos ((isTakenRepeat_iff f).mpr again), openWindow_of_read read]
      · rw [if_neg (mt (isTakenRepeat_iff f).mp fresh), openWindow_of_read read]
        by_cases marker : RxItem.lapse f.sender ∈ s.rxQueue
        · rw [if_pos ((hasMarker_iff _).mpr marker)]
        · have queue : Config.receiveRoom ≤ s.rxFrames := full.resolve_left marker
          rw [if_neg (mt (hasMarker_iff _).mp marker), if_pos queue]
      · have queue : ¬ Config.receiveRoom ≤ s.rxFrames := Nat.not_le.mpr room
        rw [if_neg (mt (isTakenRepeat_iff f).mp fresh), if_neg (mt (hasMarker_iff _).mp noMarker), if_neg queue,
          openWindow_of_read read]
        rfl
  case silent =>
    have never : (s.canArrive && decide (6 ≤ bits.length)) = false := by
      rcases silent with deaf | fragment
      · rw [State.canArrive, deaf]; rfl
      · rw [decide_eq_false (by omega), Bool.and_false]
    refine ⟨?_, ?_⟩
    · rw [exec, execFrameArrival, never]
      rfl
    · rw [exec, execFrameCutOff, Bool.and_right_comm s.canArrive, never]
      rfl

/-! ## The end of the hold window (R139, R141, R158) -/

theorem exec_holdWindowEnd {w : Window} (high : s.inReset = false) (line : s.line = .window w) (pulled : Bool) :
    exec (.holdWindowEnd pulled) s =
      .next (if pulled || decide (w.arrival = .heldBad ∨ w.arrival = .heldFull) then s.windowHeld w else s.windowCarried w) := by
  rw [exec, execHoldWindowEnd, line]
  simp only [high, Bool.false_eq_true, if_false]

/-- The held-frame record is kept where it says this station took the frame and the repeat is discarded or bad (R139). -/
theorem heldRecordAfter_kept {h : HeldRecord} {w : Window} (took : h.took = true)
    (again : w.arrival = .discarded ∨ w.arrival = .heldBad) : heldRecordAfter (some h) w = h := if_pos ⟨took, again⟩

theorem heldRecordAfter_new {old : Option HeldRecord} {w : Window}
    (h : ¬ ∃ h, old = some h ∧ h.took = true ∧ (w.arrival = .discarded ∨ w.arrival = .heldBad)) :
    heldRecordAfter old w = { sender := w.sender, sequence := w.sequence, took := decide (w.arrival = .taken) } := by
  cases old with
  | none => rfl
  | some x => exact if_neg fun kept => h ⟨x, rfl, kept⟩

theorem countHold_of_none (h : s.outgoing = none) : s.countHold = s := by
  rw [State.countHold, h]

theorem countHold_quiet {o : Outgoing} (h : s.outgoing = some o) (few : o.holds + 1 < 16 ∨ o.stalled = true) :
    s.countHold = { s with outgoing := some { o with holds := o.holds + 1 } } := by
  have stall : (decide (Config.stallCount ≤ o.holds + 1) && !o.stalled) = false := by
    rcases few with few | stalled
    · rw [decide_eq_false (show ¬ Config.stallCount ≤ o.holds + 1 from Nat.not_le.mpr few), Bool.false_and]
    · rw [stalled, Bool.not_true, Bool.and_false]
  rw [State.countHold, h]
  simp only [stall, Bool.or_false, Bool.false_eq_true, if_false]

theorem countHold_stall {o : Outgoing} (h : s.outgoing = some o) (many : 16 ≤ o.holds + 1) (first : o.stalled = false) :
    s.countHold = State.settleAgent { s with
      outgoing := some { o with holds := o.holds + 1, stalled := true }, notices := s.notices.take .busStall } := by
  have stall : (decide (Config.stallCount ≤ o.holds + 1) && !o.stalled) = true := by
    rw [first, decide_eq_true (show Config.stallCount ≤ o.holds + 1 from many)]
    rfl
  rw [State.countHold, h]
  simp only [stall, Bool.or_true, if_true]
  rfl

theorem completeStop_of_stop {tag : Half} (stop : s.command = some (.stop tag)) : s.completeStop =
    ({ s with txQueue := [], rxQueue := [], held := none, line := .quiet } : State).endCommand tag .ok 0 := by
  rw [State.completeStop, stop]

/-- Settles O43: a window that shows no HOLD, and one that does. -/
theorem holdWindowEnd : Obligations.HoldWindowEnd := by
  intro s w pulled high line held carried
  rw [exec_holdWindowEnd high line]
  have shown : (pulled || decide (w.arrival = .heldBad ∨ w.arrival = .heldFull)) = true ↔ held := by
    simp [held]
  refine ⟨fun free other => ?_, fun free own on => ?_, fun tag free own configured stop => ?_, fun isHeld => ?_⟩
  · rw [if_neg (mt shown.mp free), State.windowCarried, other]
    rfl
  · rw [if_neg (mt shown.mp free), State.windowCarried, own]
    exact congrArg Host.Outcome.next (if_neg on)
  · rw [if_neg (mt shown.mp free), State.windowCarried, own]
    have ended := completeStop_of_stop (s := { carried with outgoing := none }) stop
    exact congrArg Host.Outcome.next ((if_pos configured).trans (congrArg State.settleAgent ended))
  · rw [if_pos (shown.mpr isHeld)]
    refine ⟨heldRecordAfter s.held w, fun ⟨h, record, took, again⟩ => ?_, heldRecordAfter_new, fun silent => ?_,
      fun o own outgoing => ⟨fun few => ?_, fun many first => ?_⟩⟩
    · rw [record, heldRecordAfter_kept took again]
    · rw [State.windowHeld]
      split
      · next own =>
        rw [countHold_of_none (s := { s with held := some (heldRecordAfter s.held w), line := .quiet })
          (silent.resolve_left (by simp [own]))]
      · rfl
    · rw [State.windowHeld, if_pos own]
      exact congrArg Host.Outcome.next
        (countHold_quiet (s := { s with held := some (heldRecordAfter s.held w), line := .quiet }) outgoing few)
    · rw [State.windowHeld, if_pos own]
      exact congrArg Host.Outcome.next
        (countHold_stall (s := { s with held := some (heldRecordAfter s.held w), line := .quiet }) outgoing many first)

/-! ## The lapse of a reservation (R132, R145, R146) -/

theorem exec_reservationLapse {idle : Nat} (begun : Bool) (listens : s.listens = true) (line : s.line = .quiet)
    (outgoing : s.outgoing = none) (passed : 48 ≤ idle) :
    exec (.reservationLapse idle begun) s = .next (s.lapseReservation begun) := by
  have idle_ : decide (Config.lapseIdle ≤ idle) = true := decide_eq_true passed
  rw [exec, execReservationLapse, listens, decide_eq_true line, outgoing, idle_]
  rfl

/-- Settles O44: no record, or another station's, with or without its marker. -/
theorem reservationLapse : Obligations.ReservationLapse := by
  intro s idle begun listens line outgoing passed
  rw [exec_reservationLapse begun listens line outgoing passed]
  refine ⟨fun none_ => ?_, fun h held other => ⟨fun marked => ?_, fun unmarked => ?_⟩⟩
  · rw [State.lapseReservation, none_]
  · rw [State.lapseReservation, held]
    exact congrArg Host.Outcome.next ((if_neg other).trans (if_pos ((hasMarker_iff _).mpr marked)))
  · rw [State.lapseReservation, held]
    exact congrArg Host.Outcome.next ((if_neg other).trans (if_neg (mt (hasMarker_iff _).mp unmarked)))

end Sys2Proof.Machine

/-! The beginning of a frame (R50, R132 to R134, R138): heads that fail their check are dropped, and each place so freed goes
to the request that is next. There are rounds enough for that: each takes one frame from those queued or waiting for room. -/

namespace Sys2Proof.Machine

variable {s : State}

/-! ## The frames queued or waiting for room -/

/-- A slot waits for room, in TO-SEND (R138). -/
def slotWaits : Option Slot → Bool
  | some x => x.awaitingRoom && decide (x.state = .toSend)
  | none => false

/-- The frames on the transmit queue and those that wait for a place on it. -/
def State.framesDue (s : State) : Nat := s.txQueue.length + s.wanted.length + s.slots.countP slotWaits

theorem waitingSlot_eq (s : State) : s.waitingSlot = s.slots.findIdx? slotWaits := rfl

theorem grantSlot_framesDue {k : Nat} (h : s.waitingSlot = some k) : (s.grantSlot k).framesDue = s.framesDue := by
  rw [waitingSlot_eq, List.findIdx?_eq_some_iff_getElem] at h
  obtain ⟨inside, waits, -⟩ := h
  have some_ : 1 ≤ s.slots.countP slotWaits := List.countP_pos_iff.mpr ⟨_, List.getElem_mem inside, waits⟩
  cases slot : s.slots[k] with
  | none => rw [slot] at waits; cases waits
  | some x =>
    have found : s.slots[k]? = some (some x) := by rw [List.getElem?_eq_getElem inside, slot]
    have served : slotWaits (some { x with awaitingRoom := false }) = false := rfl
    rw [slot] at waits
    simp only [State.grantSlot, found, State.framesDue, List.length_append, List.length_singleton,
      List.countP_set inside, slot, waits, served, if_true, Bool.false_eq_true, if_false]
    omega

theorem grantCommand_framesDue {c : TxEntry} {cs : List TxEntry} (h : s.wanted = c :: cs) :
    s.grantCommand.framesDue = s.framesDue := by
  simp only [State.grantCommand, h, State.framesDue, List.length_append, List.length_cons, List.length_nil]
  omega

theorem grantRounds_framesDue (n : Nat) : ∀ (order : List Bool) (s : State), (s.grantRounds n order).framesDue = s.framesDue := by
  induction n with
  | zero => exact fun _ _ => rfl
  | succ n ih =>
    intro order s
    rw [State.grantRounds]
    split
    · rfl
    · split
      · next k waiting =>
        split
        · next wanted => exact (ih _ _).trans (grantCommand_framesDue wanted)
        · exact (ih _ _).trans (grantSlot_framesDue waiting)
        · exact (ih _ _).trans (grantSlot_framesDue waiting)
      · split
        · rfl
        · next wanted => exact (ih _ _).trans (grantCommand_framesDue wanted)

theorem arbitrate_framesDue (on : s.station ≠ .isolated) (order : List Bool) : (s.arbitrate order).framesDue = s.framesDue := by
  rw [State.arbitrate, if_neg on]
  exact grantRounds_framesDue _ _ _

/-! ## The heads dropped (R134) -/

theorem dropHeads_of_nil (h : s.txQueue = []) (n : Nat) : s.dropHeads n = s := by
  cases n with
  | zero => rfl
  | succ n => rw [State.dropHeads, h]

theorem dropHeads_of_passes {x : TxEntry} {xs : List TxEntry} (h : s.txQueue = x :: xs) (passes : s.passesHeadCheck x = true)
    (n : Nat) : s.dropHeads n = s := by
  cases n with
  | zero => rfl
  | succ n =>
    rw [State.dropHeads, h]
    exact if_pos passes

theorem dropHeads_of_fails {x : TxEntry} {xs : List TxEntry} (h : s.txQueue = x :: xs) (fails : s.passesHeadCheck x = false)
    (n : Nat) : s.dropHeads (n + 1) = (({ s with txQueue := xs } : State).arbitrate []).dropHeads n := by
  rw [State.dropHeads, h]
  exact if_neg (by simp [fails])

theorem arbitrate_station (s : State) (order : List Bool) : (s.arbitrate order).station = s.station := (arbitrate_frame s order).station

/-- As many rounds as frames are due are enough: more change nothing. -/
theorem dropHeads_enough (n : Nat) : ∀ s : State, s.station ≠ .isolated → s.framesDue ≤ n →
    ∀ k, s.dropHeads (n + k) = s.dropHeads n := by
  induction n with
  | zero =>
    intro s on due k
    have empty : s.txQueue = [] := List.length_eq_zero_iff.mp (by unfold State.framesDue at due; omega)
    rw [dropHeads_of_nil empty, dropHeads_of_nil empty]
  | succ n ih =>
    intro s on due k
    match queue : s.txQueue with
    | [] => rw [dropHeads_of_nil queue, dropHeads_of_nil queue]
    | x :: xs =>
      cases check : s.passesHeadCheck x with
      | true => rw [dropHeads_of_passes queue check, dropHeads_of_passes queue check]
      | false =>
        rw [Nat.succ_add_eq_add_succ, Nat.add_succ, dropHeads_of_fails queue check, dropHeads_of_fails queue check]
        refine ih _ (by rw [arbitrate_station]; exact on) ?_ k
        rw [arbitrate_framesDue (s := { s with txQueue := xs }) on]
        simp only [State.framesDue, queue, List.length_cons] at due ⊢
        omega

theorem framesDue_le_headRounds (s : State) : s.framesDue + 1 ≤ s.headRounds := by
  have slots : s.slots.countP slotWaits ≤ s.slots.length := List.countP_le_length
  unfold State.framesDue State.headRounds
  omega

theorem dropHeads_headRounds (on : s.station ≠ .isolated) {n : Nat} (h : s.framesDue ≤ n) :
    s.dropHeads n = s.dropHeads s.framesDue := by
  obtain ⟨k, rfl⟩ := Nat.le.dest h
  exact dropHeads_enough _ s on (Nat.le_refl _) k

/-- A head that fails its check is dropped, and the check goes on with what the arbiter then leaves. -/
theorem dropHeads_step {x : TxEntry} {xs : List TxEntry} (on : s.station ≠ .isolated) (queue : s.txQueue = x :: xs)
    (fails : s.passesHeadCheck x = false) : s.dropHeads s.headRounds =
      (({ s with txQueue := xs } : State).arbitrate []).dropHeads (({ s with txQueue := xs } : State).arbitrate []).headRounds := by
  let t : State := ({ s with txQueue := xs } : State).arbitrate []
  have on' : t.station ≠ .isolated := by rw [arbitrate_station]; exact on
  have due : t.framesDue + 1 = s.framesDue := by
    rw [arbitrate_framesDue (s := { s with txQueue := xs }) on]
    simp only [State.framesDue, queue, List.length_cons]
    omega
  have enough := framesDue_le_headRounds s
  obtain ⟨n, rounds⟩ : ∃ n, s.headRounds = n + 1 := ⟨s.headRounds - 1, by omega⟩
  rw [rounds, dropHeads_of_fails queue fails]
  have more := framesDue_le_headRounds t
  rw [dropHeads_headRounds on' (n := n) (by omega), dropHeads_headRounds on' (n := t.headRounds) (by omega)]

/-! ## The frame begun (R132, R133) -/

theorem onBus_station (h : s.onBus = true) : s.station ≠ .isolated := by
  simp only [State.onBus, Bool.and_eq_true, decide_eq_true_eq] at h
  obtain ⟨-, joining | active | leaving⟩ := h <;> simp [*]

/-- The station may begin a frame, apart from having something to send (R132). -/
theorem mayBegin_iff (s : State) (idle : Nat) : s.mayBegin idle = true ↔ s.onBus = true ∧ s.outgoing = none ∧
    (s.line = .quiet ∧ s.held = none ∧ 12 ≤ idle ∧ (s.busSeen = true ∨ 48 ≤ idle)) ∧ s.rxQueue = [] := by
  simp only [State.mayBegin, State.busFree, Bool.and_eq_true, Bool.or_eq_true, Option.isNone_iff_eq_none,
    decide_eq_true_eq, and_assoc]
  rfl

theorem exec_frameBegin {idle : Nat} (may : s.mayBegin idle = true) :
    exec (.frameBegin idle) s = .next s.beginFrame.settleAgent := congrArg Host.Outcome.next (if_pos may)

/-- The frame at the head of the checked queue is begun (R133). -/
def State.beginQueued (s : State) : State :=
  match s.txQueue with
  | [] => s
  | x :: _ => { s with line := .contending .queue (s.queuedFrame x), busSeen := true }

theorem beginQueued_of_nil (h : s.txQueue = []) : s.beginQueued = s := by
  unfold State.beginQueued
  split
  · rfl
  · next queue => cases h.symm.trans queue

theorem beginQueued_of_cons {x : TxEntry} {xs : List TxEntry} (h : s.txQueue = x :: xs) :
    s.beginQueued = { s with line := .contending .queue (s.queuedFrame x), busSeen := true } := by
  unfold State.beginQueued
  split
  · next queue => cases h.symm.trans queue
  · next queue =>
    cases h.symm.trans queue
    rfl

theorem beginFrame_of_queue (h : s.answers = []) : s.beginFrame = (s.dropHeads s.headRounds).beginQueued := by
  unfold State.beginFrame
  split
  · next answers => cases h.symm.trans answers
  · rfl

theorem beginFrame_of_answer {a : Answer} {as : List Answer} {o : Owner} {f : Frame} (answers : s.answers = a :: as)
    (frame : s.answerFrame = some (o, f)) : s.beginFrame = { s with line := .contending (.answer o) f, busSeen := true } := by
  unfold State.beginFrame
  split
  · rw [frame]
  · next none_ => cases answers.symm.trans none_

theorem beginFrame_of_passes {x : TxEntry} {xs : List TxEntry} (answers : s.answers = []) (queue : s.txQueue = x :: xs)
    (passes : s.passesHeadCheck x = true) :
    s.beginFrame = { s with line := .contending .queue (s.queuedFrame x), busSeen := true } := by
  rw [beginFrame_of_queue answers, dropHeads_of_passes queue passes, beginQueued_of_cons queue]

/-- Beginning a frame where the head fails its check is beginning one where it is dropped. -/
theorem exec_frameBegin_of_fails {idle : Nat} {x : TxEntry} {xs : List TxEntry} {t : State} (may : s.mayBegin idle = true)
    (answers : s.answers = []) (queue : s.txQueue = x :: xs) (fails : s.passesHeadCheck x = false)
    (freed : ({ s with txQueue := xs } : State).arbitrate [] = t) (sameAnswers : t.answers = s.answers)
    (sameMay : t.mayBegin idle = s.mayBegin idle) : exec (.frameBegin idle) s = exec (.frameBegin idle) t := by
  have on : s.station ≠ .isolated := onBus_station ((mayBegin_iff s idle).mp may).1
  rw [exec_frameBegin may, exec_frameBegin (sameMay.trans may), beginFrame_of_queue answers,
    beginFrame_of_queue (sameAnswers.trans answers), dropHeads_step on queue fails, freed]

theorem passesHeadCheck_iff (s : State) (x : TxEntry) : s.passesHeadCheck x = true ↔
    match x with
    | .join => True
    | .leave => True
    | .withdraw _ _ => True
    | .announce k g _ _ => ∃ e ∈ s.directory, e.key.agrees k = true ∧ e.generation = g ∧ e.state = .pending
    | .seek n k => ∃ y, s.slots[n]? = some (some y) ∧ y.key.agrees k = true ∧ y.state = .toSend := by
  cases x with
  | join => simp [State.passesHeadCheck]
  | leave => simp [State.passesHeadCheck]
  | withdraw k g => simp [State.passesHeadCheck]
  | announce k g target kind => simp [State.passesHeadCheck, and_assoc]
  | seek n k =>
    simp only [State.passesHeadCheck]
    split
    · next y slot => simp [slot]
    · next other =>
      simp only [Bool.false_eq_true, false_iff]
      rintro ⟨y, slot, -⟩
      exact other y slot

/-- Of the entries of a table with one entry for each owner, the first found with an owner is the one with it. -/
theorem find?_owner {directory : List ExportEntry} (once : (directory.map (·.owner)).Nodup) {e : ExportEntry} (he : e ∈ directory)
    {o : Owner} (owner : e.owner = o) : directory.find? (fun x => decide (x.owner = o)) = some e := by
  obtain ⟨x, found⟩ : ∃ x, directory.find? (fun x => decide (x.owner = o)) = some x :=
    Option.isSome_iff_exists.mp (List.find?_isSome.mpr ⟨e, he, decide_eq_true owner⟩)
  have same : x.owner = o := by simpa using List.find?_some found
  rw [found, List.inj_on_of_nodup_map once (List.mem_of_find?_eq_some found) he (same.trans owner.symm)]

/-- The frame that the head member of the answer list owes (R50). -/
theorem answerFrame_of_entry {a : Answer} {as : List Answer} {e : ExportEntry} (answers : s.answers = a :: as)
    (he : e ∈ s.directory) (owner : e.owner = a.owner) (once : (s.directory.map (·.owner)).Nodup) :
    s.answerFrame = some (a.owner, { sender := s.number, sequence := s.nextSequence, group := s.ownGroup
                                     body := match e.state.owed with
                                       | [] => .offer e.key.scope e.key.name e.generation e.target e.kind
                                       | p :: ps => .clash e.key.scope e.key.name s.number e.generation e.target e.kind (p :: ps) }) := by
  rw [State.answerFrame, answers]
  simp only [find?_owner once he owner] <;> rfl

/-- Settles O38: nothing begun, an answer begun, a queued frame begun, or the head dropped. -/
theorem frameBegin : Obligations.FrameBegin := by
  intro s idle free
  refine ⟨fun barred => ?barred, fun on outgoing isFree empty => ?may⟩
  case barred =>
    refine congrArg Host.Outcome.next (if_neg fun may => ?_)
    obtain ⟨on, outgoing, isFree, empty⟩ := (mayBegin_iff s idle).mp may
    rcases barred with off | sending | busy | full
    · rw [on] at off; cases off
    · exact sending outgoing
    · exact busy isFree
    · exact full empty
  case may =>
    have may : s.mayBegin idle = true := (mayBegin_iff s idle).mpr ⟨on, outgoing, isFree, empty⟩
    refine ⟨fun a as e answers he owner once => ?answer, fun answers queue => ?silent, ?queued⟩
    case answer =>
      have frame := answerFrame_of_entry answers he owner once
      rw [exec_frameBegin may, beginFrame_of_answer answers frame]
      refine ⟨fun nothing => ?_, fun owes => ?_⟩
      · rw [nothing]
      · obtain ⟨p, ps, owed⟩ := List.exists_cons_of_ne_nil owes
        rw [owed]
    case silent => rw [exec_frameBegin may, beginFrame_of_queue answers, dropHeads_of_nil queue, beginQueued_of_nil queue]
    case queued =>
      intro x xs answers queue passes
      have check : s.passesHeadCheck x = true ↔ passes := passesHeadCheck_iff s x
      refine ⟨fun passed => ?_, fun failed => ?_⟩
      · rw [exec_frameBegin may, beginFrame_of_passes answers queue (check.mpr passed)]
        rfl
      · have fails : s.passesHeadCheck x = false := by simpa using mt check.mp failed
        have on' := onBus_station on
        refine ⟨fun none_ => ?_, fun last k y first => ?_, fun last slots c cs wanted => ?_⟩
        · exact exec_frameBegin_of_fails may answers queue fails (arbitrate_idle (s := { s with txQueue := xs }) (.inl none_) on' [])
            rfl rfl
        · exact exec_frameBegin_of_fails may answers queue fails (arbitrate_slot (s := { s with txQueue := xs }) last first on')
            rfl rfl
        · exact exec_frameBegin_of_fails may answers queue fails
            (arbitrate_wanted (s := { s with txQueue := xs }) last wanted slots on') rfl rfl

end Sys2Proof.Machine

/-! The commands whose block is read whole (R154, R155, R157, R169, R172), and the end of a commit pass (R28). -/

namespace Sys2Proof.Machine

variable {s : State} {env : Env} {a : Word}

/-! ## A block read whole -/

theorem State.Holds.exec_row {k : CommandKind} (h : s.Holds env a k) (refused : k.takenIn s.station = false) :
    exec (k.row env) s = .next (s.ended env (s.tagAt env a) .refusedState 0) := by
  cases k <;> refine congrArg Host.Outcome.next ((h.runCommand _).trans ?_) <;> rw [refused] <;> rfl

/-- The state in which a command other than LOAD is carried out. -/
theorem State.Holds.taken {k : CommandKind} (h : s.Holds env a k) (other : k ≠ .load) (taken : k.takenIn s.station = true)
    (body : Half → List Word → State → State) : s.runCommand k env body =
      (body (s.tagAt env a) (s.arguments env a k) (s.forTransfers env)).endFetch.served .commandEngine := by
  rw [h.runCommand, if_pos taken, h.forReading other]

/-- Such a command ends at once. -/
theorem State.Holds.endCommand {k : CommandKind} (h : s.Holds env a k) (other : k ≠ .load) (tag : Half) (status : Status) (detail : Nat) :
    ((s.forTransfers env).endCommand tag status detail).endFetch.served .commandEngine = s.ended env tag status detail := by
  rw [← h.forReading other, endCommand_forReading]

/-- The modules of a state in which the head is no LOAD. -/
theorem State.Holds.otherModules {k : CommandKind} (h : s.Holds env a k) (other : k ≠ .load) : s.otherModules = s.modules :=
  congrArg State.modules (h.forReading other)

/-! ## CONFIGURE (R154) -/

/-- The words of a CONFIGURE block. -/
theorem arguments_configure (s : State) (env : Env) (a : Word) : s.arguments env a .configure =
    [s.blockWord env a 1, s.blockWord env a 2, s.blockWord env a 3, s.blockWord env a 4] := rfl

theorem exec_configure (h : s.Holds env a .configure) (off : s.station = .off) : exec (.configure env) s =
    .next (((s.forTransfers env).configure (s.tagAt env a) (s.arguments env a .configure)).endFetch.served .commandEngine) :=
  congrArg Host.Outcome.next (h.taken (by decide) (decide_eq_true off) _)

theorem configure_error (s : State) (tag : Half) {words : List Word} {off : Nat} (read : readConfig words = .error off) :
    s.configure tag words = s.endCommand tag .badConfig off := by
  rw [State.configure, read]

theorem configure_ok (s : State) (tag : Half) {words : List Word} {c : ConfigRecord} (read : readConfig words = .ok c) :
    s.configure tag words = ({ s with
      config := some c
      station := .configured
      notices := ({ s.notices with ring := some { base := c.ringBase.toNat, size := c.ringSize }
                                   producer := 0, consumer := 0 } : NoticeUnit).testDrops } : State).endCommand tag .ok 0 := by
  rw [State.configure, read]

/-- Settles O26: the fields in their order. -/
theorem configureOutcomes : Obligations.ConfigureOutcomes := by
  intro s env a h off fields group timeout tries stub base size bad
  have fails : ∀ offset, readConfig (s.arguments env a .configure) = .error offset → bad offset := fun offset read => by
    exact (exec_configure h off).trans (by rw [configure_error _ _ read, h.endCommand (by decide)])
  have config : readConfig (s.arguments env a .configure) =
      if 7 < group then .error 0x04
      else if timeout = 0 then .error 0x05
      else if tries = 0 ∨ 7 < tries then .error 0x06
      else if stub.toNat % 4 ≠ 0 then .error 0x08
      else if base.toNat % 16 ≠ 0 ∨ 0x0FFFFFFF < base.toNat then .error 0x0C
      else if size ∉ ringSizes then .error 0x10
      else if 0x10000000 < base.toNat + 16 * size then .error 0x0C
      else .ok { group := BitVec.ofNat 3 group, seekTimeout := timeout, seekTries := tries, stub, ringBase := base, ringSize := size } := rfl
  refine ⟨fun wrong => fails _ (config.trans (if_pos wrong)), fun okGroup => ?_⟩
  replace config := config.trans (if_neg (Nat.not_lt.mpr okGroup))
  refine ⟨fun wrong => fails _ (config.trans (if_pos wrong)), fun okTimeout => ?_⟩
  replace config := config.trans (if_neg (by omega))
  refine ⟨fun wrong => fails _ (config.trans (if_pos wrong)), fun someTries fewTries => ?_⟩
  replace config := config.trans (if_neg (by omega))
  refine ⟨fun wrong => fails _ (config.trans (if_pos wrong)), fun okStub => ?_⟩
  replace config := config.trans (if_neg (by omega))
  refine ⟨fun wrong => fails _ (config.trans (if_pos wrong)), fun aligned local_ => ?_⟩
  replace config := config.trans (if_neg (by omega))
  refine ⟨fun wrong => fails _ (config.trans (if_pos wrong)), fun okSize => ?_⟩
  replace config := config.trans (if_neg (not_not.mpr okSize))
  refine ⟨fun wrong => fails _ (config.trans (if_pos wrong)), fun fits => ?_⟩
  replace config := config.trans (if_neg (Nat.not_lt.mpr fits))
  rw [exec_configure h off, configure_ok _ _ config]
  rfl

/-! ## START and STOP (R155, R157) -/

theorem exec_start (h : s.Holds env a .start) (configured : s.station = .configured) :
    exec (.start env) s = .next (((s.forTransfers env).startJoining (s.tagAt env a)).endFetch.served .commandEngine) :=
  congrArg Host.Outcome.next (h.taken (by decide) (decide_eq_true configured) _)

theorem exec_stop (h : s.Holds env a .stop) (active : s.station = .active) :
    exec (.stop env) s = .next (((s.forTransfers env).stopLeaving (s.tagAt env a)).endFetch.served .commandEngine) :=
  congrArg Host.Outcome.next (h.taken (by decide) (decide_eq_true active) _)

/-- Where no slot is taken none waits. -/
theorem noSlotWaits {slots : List (Option Slot)} (h : ∀ x ∈ slots, x = none) :
    ∀ y, some y ∈ slots → y.awaitingRoom = true → y.state ≠ .toSend := fun y hy => nomatch h (some y) hy

theorem startJoining_placed (s : State) (tag : Half) (queue : s.txQueue = []) (slots : ∀ x ∈ s.slots, x = none) :
    s.startJoining tag =
      { s with station := .joining, busSeen := false, command := some (.start tag), txQueue := [.join], wanted := [] } := by
  have room : s.txQueue.length < Config.transmitRoom := by rw [queue]; decide
  have placed := arbitrate_command (s := { s with
    station := .joining, busSeen := false, command := some (.start tag), wanted := [.join] }) room rfl (noSlotWaits slots) (by simp) []
  refine placed.trans ?_
  rw [queue, List.nil_append]

theorem stopLeaving_of_modules (s : State) (tag : Half) (some_ : s.modules ≠ []) :
    s.stopLeaving tag = s.endCommand tag .modulesPresent s.modules.length := if_pos some_

theorem stopLeaving_placed (s : State) (tag : Half) (none_ : s.modules = []) (slots : ∀ x ∈ s.slots, x = none)
    (room : s.txQueue.length < 32) : s.stopLeaving tag =
      { s with station := .leaving, command := some (.stop tag), txQueue := s.txQueue ++ [.leave], wanted := [] } := by
  rw [State.stopLeaving, if_neg (not_not.mpr none_)]
  exact arbitrate_command (s := { s with station := .leaving, command := some (.stop tag), wanted := [.leave] })
    room rfl (noSlotWaits slots) (by simp) []

theorem stopLeaving_waits (s : State) (tag : Half) (none_ : s.modules = []) (full : 32 ≤ s.txQueue.length) :
    s.stopLeaving tag = { s with station := .leaving, command := some (.stop tag), wanted := [.leave] } := by
  rw [State.stopLeaving, if_neg (not_not.mpr none_)]
  exact arbitrate_idle (s := { s with station := .leaving, command := some (.stop tag), wanted := [.leave] })
    (.inr full) (by simp) []

/-- Settles O27: the JOIN or the LEAVE is placed by the arbiter, or waits. -/
theorem startAndStop : Obligations.StartAndStop := by
  refine ⟨fun s env a h configured queue slots => ?start, fun s env a h active =>
    ⟨fun some_ => ?modules, fun none_ slots room => ?leave, fun none_ full => ?waits⟩⟩
  case start =>
    rw [exec_start h configured, startJoining_placed (s.forTransfers env) _ queue slots]
    rfl
  case modules =>
    rw [exec_stop h active, stopLeaving_of_modules (s.forTransfers env) _ some_, h.endCommand (by decide)]
    rfl
  case leave =>
    rw [exec_stop h active, stopLeaving_placed (s.forTransfers env) _ none_ slots room]
    rfl
  case waits =>
    rw [exec_stop h active, stopLeaving_waits (s.forTransfers env) _ none_ full]
    rfl

/-! ## REPORT (R172, R173) -/

theorem arguments_report (s : State) (env : Env) (a : Word) :
    s.arguments env a .report = [s.blockWord env a 1, s.blockWord env a 2] := rfl

theorem exec_report (h : s.Holds env a .report) : exec (.report env) s =
    .next (((s.forTransfers env).beginReport (s.tagAt env a) (s.arguments env a .report)).endFetch.served .commandEngine) :=
  congrArg Host.Outcome.next (h.taken (by decide) rfl _)

theorem beginReport_error (s : State) (tag : Half) {words : List Word} {e : Ending} (read : s.readReport tag words = .error e) :
    s.beginReport tag words = s.endCommand tag e.status e.detail := by
  rw [State.beginReport, read]

theorem beginReport_ok (s : State) (tag : Half) {words : List Word} {sel : Selector} {m : Byte} {buffer capacity n : Nat}
    (read : s.readReport tag words = .ok (.report tag sel m buffer capacity n)) : s.beginReport tag words =
      if (s.reportRecord sel m 0).isNone then s.endCommand tag .ok 0
      else { s with command := some (.report tag sel m buffer capacity n) } := by
  rw [State.beginReport, read]

/-- A test that passes leaves what follows it, and one that fails ends the pass. -/
theorem require_bind {α : Type} (ok : Bool) (e : Ending) (f : Unit → Except Ending α) :
    (require ok e >>= f) = if ok then f () else .error e := by
  cases ok <;> rfl

theorem readReport_of_selector (s : State) (tag : Half) (w b : Word) {sel : Selector} (selector : selectorOfCode (byteAt w 0) = some sel) :
    s.readReport tag [w, b] =
      let m := byteAt w 1
      let capacity := (halfOf (byteAt w 2) (byteAt w 3)).toNat
      let bad : Ending := { status := .badCommand, detail := 0 }
      if (decide (b.toNat % 16 = 0) && decide (b.toNat ≤ 0x0FFFFFFF)) = true then
        if (decide (1 ≤ capacity) && decide (capacity ≤ 256)) = true then
          if decide (b.toNat + capacity * sel.recordSize ≤ 0x10000000) = true then
            if (decide (sel ≠ .exports ∧ sel ≠ .references) || (s.module? m).isSome) = true then
              .ok (.report tag sel m b.toNat capacity 0)
            else .error { status := .unknownModule, detail := m.toNat }
          else .error bad
        else .error bad
      else .error bad := by
  simp only [State.readReport, List.getD_cons_zero, List.getD_cons_succ, selector, require_bind]

theorem module?_isSome_iff (s : State) (m : Byte) : (s.module? m).isSome = true ↔ ∃ x ∈ s.modules, x.id = m := by
  simp [State.module?, List.find?_isSome]

/-- Settles O31: the arguments in their order, then the first record. -/
theorem reportOutcomes : Obligations.ReportOutcomes := by
  intro s env a h w m capacity buffer ends
  have words : s.arguments env a .report = [w, s.blockWord env a 2] := arguments_report s env a
  have fails : ∀ e, (s.forTransfers env).readReport (s.tagAt env a) [w, s.blockWord env a 2] = .error e →
      ends e.status e.detail := fun e read => by
    exact (exec_report h).trans (by rw [words, beginReport_error _ _ read, h.endCommand (by decide)])
  refine ⟨fun none_ => ?unknown, fun sel selector => ?known⟩
  case unknown =>
    refine fails ⟨.badCommand, 0⟩ ?_
    simp only [State.readReport, List.getD_cons_zero, none_]
  case known =>
    have read := readReport_of_selector (s.forTransfers env) (s.tagAt env a) w (s.blockWord env a 2) selector
    dsimp only at read
    refine ⟨fun wrong => fails ⟨.badCommand, 0⟩ (read.trans (if_neg ?_)), fun aligned local_ => ?_⟩
    · rw [Bool.and_eq_true, decide_eq_true_eq, decide_eq_true_eq]
      omega
    replace read := read.trans (if_pos (by rw [decide_eq_true aligned, decide_eq_true local_]; rfl))
    refine ⟨fun wrong => fails ⟨.badCommand, 0⟩ (read.trans (if_neg ?_)), fun some_ few => ?_⟩
    · rw [Bool.and_eq_true, decide_eq_true_eq, decide_eq_true_eq]
      omega
    replace read := read.trans (if_pos (by rw [decide_eq_true some_, decide_eq_true few]; rfl))
    refine ⟨fun wrong => fails ⟨.badCommand, 0⟩ (read.trans (if_neg (by simpa using wrong))), fun fits => ?_⟩
    replace read := read.trans (if_pos (decide_eq_true fits))
    have known := module?_isSome_iff s m
    refine ⟨fun wants none_ => fails ⟨.unknownModule, m.toNat⟩ (read.trans (if_neg ?_)), fun passes => ?_⟩
    · rw [Bool.or_eq_true, decide_eq_true_eq, not_or]
      refine ⟨by tauto, fun found => ?_⟩
      obtain ⟨x, hx, id⟩ := known.mp found
      exact none_ x hx id
    · replace read := read.trans (if_pos ?_)
      · have begun := (exec_report h).trans (by rw [words, beginReport_ok _ _ read])
        have first : (s.forTransfers env).reportRecord sel m 0 = s.reportRecord sel m 0 := rfl
        refine ⟨fun none_ => begun.trans ?_, fun record some_ => begun.trans ?_⟩
        · rw [if_pos (by rw [first, none_]; rfl), h.endCommand (by decide)]
        · rw [if_neg (by rw [first, some_]; exact Bool.false_ne_true)]
          rfl
      · rw [Bool.or_eq_true, decide_eq_true_eq]
        rcases passes with rfl | rfl | rfl | found
        · exact .inl ⟨by decide, by decide⟩
        · exact .inl ⟨by decide, by decide⟩
        · exact .inl ⟨by decide, by decide⟩
        · exact .inr (known.mpr found)

/-! ## The end of a commit pass (R28, R30) -/

theorem commitAtEnd_of {tag : Half} {m : Byte} {i j off sum : Nat} {rec : ModuleRecord}
    (command : s.command = some (.loadCommit tag m i j off sum)) (module : s.module? m = some rec) (wanted : s.wanted = [])
    (exports : rec.exportCount ≤ i) (imports : rec.importCount ≤ j) : s.commitAtEnd = true := by
  simp [State.commitAtEnd, command, module, wanted, exports, imports]

/-- Settles O35: R30's table, and the row at the end of the pass. -/
theorem commitEnd : Obligations.CommitEnd := by
  refine ⟨fun phases => (dictates_iff phases _).mpr rfl, fun s tag m i j off sum rec high command module wanted exports imports => ?_⟩
  have atEnd := commitAtEnd_of command module wanted exports imports
  rw [exec, execLoadCommitEnd, if_pos (by rw [atEnd, high]; rfl), command]
  rfl

end Sys2Proof.Machine

/-! The records of a REPORT and of the notice list, as they stand in local memory (R56, R84, R173 to R175, R183, R186, R187). -/

namespace Sys2Proof.Machine

variable {s : State}

/-! ## The codes (R129, R165, R183, R185, R187, R188) -/

/-- A byte is the number `n`. -/
theorem byte_eq_iff (b : Byte) {n : Nat} (h : n < 256) : b = BitVec.ofNat 8 n ↔ b.toNat = n := by
  rw [BitVec.toNat_eq, BitVec.toNat_ofNat, Nat.mod_eq_of_lt (by omega)]

theorem commandOfCode_iff (b : Byte) (k : CommandKind) : commandOfCode b = some k ↔ (b.toNat, k) ∈
    [(1, CommandKind.configure), (2, .start), (3, .stop), (4, .load), (5, .unload), (6, .reseek), (7, .report)] := by
  simp only [commandOfCode, BitVec.toNat_eq, List.mem_cons, Prod.mk.injEq, List.not_mem_nil, or_false]
  cases k <;> simp <;> split_ifs <;> simp <;> omega

theorem selectorOfCode_iff (b : Byte) (x : Selector) : selectorOfCode b = some x ↔ (b.toNat, x) ∈
    [(1, Selector.station), (2, .peers), (3, .modules), (4, .exports), (5, .references)] := by
  simp only [selectorOfCode, BitVec.toNat_eq, List.mem_cons, Prod.mk.injEq, List.not_mem_nil, or_false]
  cases x <;> simp <;> split_ifs <;> simp <;> omega

theorem scopeOfCode_iff (b : Byte) (x : Scope) :
    scopeOfCode b = some x ↔ (b.toNat, x) ∈ [(1, Scope.common), (2, .group)] := by
  simp only [scopeOfCode, BitVec.toNat_eq, List.mem_cons, Prod.mk.injEq, List.not_mem_nil, or_false]
  cases x <;> simp <;> split_ifs <;> simp <;> omega

theorem kindOfCode_iff (b : Byte) (x : Kind) : kindOfCode b = some x ↔ (b.toNat, x) ∈ [(1, Kind.entry), (2, .data)] := by
  simp only [kindOfCode, BitVec.toNat_eq, List.mem_cons, Prod.mk.injEq, List.not_mem_nil, or_false]
  cases x <;> simp <;> split_ifs <;> simp <;> omega

theorem expectedOfCode_iff (b : Byte) (x : ExpectedKind) :
    expectedOfCode b = some x ↔ (b.toNat, x) ∈ [(1, ExpectedKind.entry), (2, .data), (3, .any)] := by
  simp only [expectedOfCode, BitVec.toNat_eq, List.mem_cons, Prod.mk.injEq, List.not_mem_nil, or_false]
  cases x <;> simp <;> split_ifs <;> simp <;> omega

theorem classOfCode_iff (kind c : Nat) : classOfCode kind = some c ↔
    (kind, c) ∈ [(1, 0), (2, 0), (3, 1), (4, 1), (5, 1), (6, 2), (7, 3)] := by
  simp only [classOfCode, List.mem_cons, Prod.mk.injEq, List.not_mem_nil, or_false]
  split_ifs <;> simp <;> omega

theorem codesAsListed : CodesAsListed where
  status := rfl
  station := rfl
  module := rfl
  revocation := rfl
  loss := rfl
  fault := rfl
  scope := rfl
  kind := ⟨rfl, rfl⟩
  slot := rfl
  exportState _ _ := rfl
  submit := rfl
  commands := commandOfCode_iff
  words := rfl
  selectors := selectorOfCode_iff
  records := rfl
  scopes := scopeOfCode_iff
  kinds := kindOfCode_iff
  expected := expectedOfCode_iff
  classes := classOfCode_iff
  frames _ _ _ _ _ _ _ := rfl
  phase _ _ _ := rfl

/-! ## Bytes of a record -/

theorem byteAt_eq_extract (w : Word) (k : Nat) : w.extractLsb' (24 - 8 * k) 8 = byteAt w k := by
  rw [byteAt, BitVec.setWidth_ushiftRight_eq_extractLsb]

theorem toNat_byteAt (w : Word) (k : Nat) : (byteAt w k).toNat = w.toNat / 2 ^ (24 - 8 * k) % 256 := by
  rw [byteAt, BitVec.toNat_setWidth, BitVec.toNat_ushiftRight, Nat.shiftRight_eq_div_pow]

theorem toNat_append8 {n : Nat} (x : BitVec n) (b : Byte) : (x ++ b).toNat = x.toNat * 256 + b.toNat := by
  rw [BitVec.toNat_append, ← Nat.shiftLeft_add_eq_or_of_lt b.isLt, Nat.shiftLeft_eq]

theorem toNat_wordOf (b0 b1 b2 b3 : Byte) :
    (wordOf b0 b1 b2 b3).toNat = ((b0.toNat * 256 + b1.toNat) * 256 + b2.toNat) * 256 + b3.toNat := by
  rw [wordOf, toNat_append8, toNat_append8, toNat_append8]

theorem byteAt_wordOf (b0 b1 b2 b3 : Byte) : byteAt (wordOf b0 b1 b2 b3) 0 = b0 ∧ byteAt (wordOf b0 b1 b2 b3) 1 = b1 ∧
    byteAt (wordOf b0 b1 b2 b3) 2 = b2 ∧ byteAt (wordOf b0 b1 b2 b3) 3 = b3 := by
  have h0 := b0.isLt
  have h1 := b1.isLt
  have h2 := b2.isLt
  have h3 := b3.isLt
  refine ⟨BitVec.eq_of_toNat_eq ?_, BitVec.eq_of_toNat_eq ?_, BitVec.eq_of_toNat_eq ?_, BitVec.eq_of_toNat_eq ?_⟩ <;>
    rw [toNat_byteAt, toNat_wordOf] <;> omega

/-- The bytes of a halfword, put together again. -/
theorem halfBytes_append (h : Half) : (h >>> 8).setWidth 8 ++ h.setWidth 8 = h := by
  have small := h.isLt
  refine BitVec.eq_of_toNat_eq ?_
  rw [toNat_append8, BitVec.toNat_setWidth, BitVec.toNat_setWidth, BitVec.toNat_ushiftRight, Nat.shiftRight_eq_div_pow]
  omega

theorem recordByte_cons (b0 b1 b2 b3 : Byte) (words : List Word) :
    recordByte (wordOf b0 b1 b2 b3 :: words) 0 = b0 ∧ recordByte (wordOf b0 b1 b2 b3 :: words) 1 = b1 ∧
    recordByte (wordOf b0 b1 b2 b3 :: words) 2 = b2 ∧ recordByte (wordOf b0 b1 b2 b3 :: words) 3 = b3 := by
  obtain ⟨e0, e1, e2, e3⟩ := byteAt_wordOf b0 b1 b2 b3
  exact ⟨(byteAt_eq_extract _ 0).trans e0, (byteAt_eq_extract _ 1).trans e1, (byteAt_eq_extract _ 2).trans e2,
    (byteAt_eq_extract _ 3).trans e3⟩

theorem recordByte_cons_add (w : Word) (words : List Word) (i : Nat) : recordByte (w :: words) (i + 4) = recordByte words i := by
  rw [recordByte, recordByte, show (i + 4) / 4 = i / 4 + 1 by omega, Nat.add_mod_right, List.getD_cons_succ]

/-- Bytes written as words are read as those bytes. -/
theorem recordByte_bytesWords (n : Nat) : ∀ (bs : List Byte) (i : Nat), bs.length = 4 * n →
    recordByte (bytesWords bs) i = bs.getD i 0 := by
  induction n with
  | zero =>
    intro bs i h
    rw [List.length_eq_zero_iff.mp h]
    simp [bytesWords, recordByte]
  | succ n ih =>
    intro bs i h
    match bs, h with
    | b0 :: b1 :: b2 :: b3 :: rest, h =>
      obtain ⟨e0, e1, e2, e3⟩ := recordByte_cons b0 b1 b2 b3 (bytesWords rest)
      match i with
      | 0 => exact e0
      | 1 => exact e1
      | 2 => exact e2
      | 3 => exact e3
      | i + 4 =>
        rw [bytesWords, recordByte_cons_add, ih rest i (by simp only [List.length_cons] at h; omega)]
        rfl
    | [b0, b1, b2], h => simp only [List.length_cons, List.length_nil] at h; omega
    | [b0, b1], h => simp only [List.length_cons, List.length_nil] at h; omega
    | [b0], h => simp only [List.length_cons, List.length_nil] at h; omega
    | [], h => simp only [List.length_nil] at h; omega

theorem bytesWords_length (n : Nat) : ∀ bs : List Byte, bs.length = 4 * n → (bytesWords bs).length = n := by
  induction n with
  | zero =>
    intro bs h
    rw [List.length_eq_zero_iff.mp h]
    rfl
  | succ n ih =>
    intro bs h
    match bs, h with
    | b0 :: b1 :: b2 :: b3 :: rest, h =>
      rw [bytesWords, List.length_cons, ih rest (by simp only [List.length_cons] at h; omega)]
    | [b0, b1, b2], h => simp only [List.length_cons, List.length_nil] at h; omega
    | [b0, b1], h => simp only [List.length_cons, List.length_nil] at h; omega
    | [b0], h => simp only [List.length_cons, List.length_nil] at h; omega
    | [], h => simp only [List.length_nil] at h; omega

theorem padTo_length {size : Nat} {bs : List Byte} (h : bs.length ≤ size) : (padTo size bs).length = size := by
  rw [padTo, List.length_append, List.length_replicate]
  omega

/-- The zeros behind a record read as what lies beyond it. -/
theorem padTo_getD (size : Nat) (bs : List Byte) (i : Nat) : (padTo size bs).getD i 0 = bs.getD i 0 := by
  rw [padTo, List.getD_eq_getElem?_getD, List.getD_eq_getElem?_getD, List.getElem?_append]
  split
  · rfl
  · rw [List.getElem?_replicate, List.getElem?_eq_none (by omega)]
    split <;> rfl

/-- A record of `4 * n` bytes: its words, its bytes, and the zeros behind them. -/
theorem record_bytes {n : Nat} {bs : List Byte} (h : bs.length ≤ 4 * n) :
    (bytesWords (padTo (4 * n) bs)).length = n ∧
    (∀ {i : Nat} {b : Byte}, bs[i]? = some b → recordByte (bytesWords (padTo (4 * n) bs)) i = b) ∧
    ∀ i, bs.length ≤ i → recordByte (bytesWords (padTo (4 * n) bs)) i = 0 := by
  have byte : ∀ i, recordByte (bytesWords (padTo (4 * n) bs)) i = bs.getD i 0 := fun i =>
    (recordByte_bytesWords n _ i (padTo_length h)).trans (padTo_getD _ bs i)
  refine ⟨bytesWords_length n _ (padTo_length h), fun {i b} some_ => (byte i).trans ?_, fun i beyond => (byte i).trans ?_⟩
  · rw [List.getD_eq_getElem?_getD, some_]
    rfl
  · exact List.getD_eq_default _ _ beyond

theorem recordHalf_of {words : List Word} {offset : Nat} {h : Half} (high : recordByte words offset = (h >>> 8).setWidth 8)
    (low : recordByte words (offset + 1) = h.setWidth 8) : recordHalf words offset = h := by
  rw [recordHalf, high, low, halfBytes_append]

theorem recordWord_of {words : List Word} {j : Nat} {w : Word} (b0 : recordByte words (4 * j) = byteAt w 0)
    (b1 : recordByte words (4 * j + 1) = byteAt w 1) (b2 : recordByte words (4 * j + 2) = byteAt w 2)
    (b3 : recordByte words (4 * j + 3) = byteAt w 3) : recordWord words (4 * j) = w := by
  have lane : ∀ k, k < 4 → recordByte words (4 * j + k) = byteAt (words.getD j 0) k := fun k hk => by
    rw [recordByte, show (4 * j + k) / 4 = j by omega, show (4 * j + k) % 4 = k by omega, byteAt_eq_extract]
  rw [recordWord, Nat.mul_div_cancel_left j (by decide), ← wordOf_byteAt (words.getD j 0), ← lane 0 (by decide), ← lane 1 (by decide),
    ← lane 2 (by decide), ← lane 3 (by decide), Nat.add_zero, b0, b1, b2, b3, wordOf_byteAt]

/-- A byte of a part of a record, behind `k` other bytes. -/
theorem getElem?_part {pre part post : List Byte} {k i : Nat} {b : Byte} (length : pre.length = k) (found : part[i]? = some b) :
    (pre ++ (part ++ post))[k + i]? = some b := by
  have inside : i < part.length := (List.getElem?_eq_some_iff.mp found).1
  rw [← length, List.getElem?_append_right (Nat.le_add_right _ _), Nat.add_sub_cancel_left, List.getElem?_append_left inside, found]

/-- The bytes of one part of a record of `4 * n` bytes. -/
theorem record_part {n : Nat} {parts : List (List Byte)} (h : parts.flatten.length ≤ 4 * n) (before : List (List Byte))
    {part : List Byte} {after : List (List Byte)} {m : Nat} (length : before.flatten.length = m)
    (same : parts = before ++ part :: after) {k : Nat} {b : Byte} (found : part[k]? = some b) :
    recordByte (bytesWords (padTo (4 * n) parts.flatten)) (m + k) = b := by
  obtain ⟨-, byte, -⟩ := record_bytes h
  refine byte ?_
  rw [same, List.flatten_append, List.flatten_cons]
  exact getElem?_part length found

end Sys2Proof.Machine

/-! The records of a REPORT, field by field (R56, R84, R174, R187). A field of a record is read at its offset, the parts of
varying content being listed at their length. -/

namespace Sys2Proof.Machine

variable {s : State}

theorem nameField_length {name : List Byte} (h : name.length ≤ 24) : (nameField name).length = 28 :=
  padTo_length (by simp only [nameBytes, List.length_cons]; omega)

/-- A name field holds the length and the bytes, and zeros behind them. -/
theorem nameField_getD (name : List Byte) (i : Nat) : (nameField name).getD (i + 1) 0 = name.getD i 0 := padTo_getD 28 _ (i + 1)

/-! ## STATION -/

/-- The configuration in a STATION record. -/
def configBytes : Option ConfigRecord → List Byte
  | none => List.replicate 14 0
  | some c => byteOf 1 ++ byteOf c.group.toNat ++ byteOf c.seekTimeout ++ byteOf c.seekTries ++ halfField c.ringSize
      ++ wordBytes c.stub ++ wordBytes c.ringBase

theorem configBytes_length (c : Option ConfigRecord) : (configBytes c).length = 14 := by cases c <;> rfl

/-- A STATION record behind the configuration. -/
def State.stationTail (s : State) : List Byte :=
  halfBytes s.nextGeneration ++ ([s.nextSequence, BitVec.ofNat 8 s.modules.length] ++ (halfField s.directory.length ++
    (halfField s.answers.length ++ (halfField s.refs.length ++ (halfField s.sitesInUse ++
    ([BitVec.ofNat 8 (s.slots.countP Option.isSome), BitVec.ofNat 8 s.txQueue.length,
      BitVec.ofNat 8 (s.slots.countP (fun o => (o.map (·.awaitingRoom)).getD false) + if s.wanted = [] then 0 else 1),
      BitVec.ofNat 8 s.rxFrames, BitVec.ofNat 8 (s.rxQueue.length - s.rxFrames), BitVec.ofNat 8 s.notices.producer,
      BitVec.ofNat 8 s.notices.consumer, 0] ++ (halfField s.backlog.length ++ (halfField s.patchQueue.length ++
    halfField s.notices.drops))))))))

theorem stationRecord_eq (s : State) : s.stationRecord =
    [BitVec.ofNat 8 s.number.val, BitVec.ofNat 8 s.station.code] ++ (configBytes s.config ++ s.stationTail) := by
  unfold State.stationRecord State.stationTail
  split <;> next config =>
    rw [config]
    simp only [configBytes, byteOf, List.append_assoc, List.countP_eq_length_filter, List.cons_append, List.nil_append]
    rfl

theorem stationRecord_length (s : State) : s.stationRecord.length = 42 := by
  rw [stationRecord_eq, List.length_append, List.length_append, configBytes_length]
  rfl

theorem stationRecord_layout (s : State) : s.StationLayout (bytesWords (padTo 48 s.stationRecord)) := by
  obtain ⟨size, byte, beyond⟩ := record_bytes (n := 12) (bs := s.stationRecord) (by rw [stationRecord_length]; decide)
  rw [stationRecord_length] at beyond
  have head : ∀ {k b}, ([BitVec.ofNat 8 s.number.val, BitVec.ofNat 8 s.station.code] : List Byte)[k]? = some b →
      recordByte (bytesWords (padTo 48 s.stationRecord)) (0 + k) = b := fun found =>
    byte (by rw [stationRecord_eq]; exact getElem?_part (pre := []) rfl found)
  have config : ∀ {k b}, (configBytes s.config)[k]? = some b →
      recordByte (bytesWords (padTo 48 s.stationRecord)) (2 + k) = b := fun found =>
    byte (by rw [stationRecord_eq]; exact getElem?_part rfl found)
  have tail : ∀ {k b}, s.stationTail[k]? = some b →
      recordByte (bytesWords (padTo 48 s.stationRecord)) (16 + k) = b := fun found =>
    byte (by
      rw [stationRecord_eq, ← List.append_assoc, ← List.append_nil s.stationTail]
      exact getElem?_part (by rw [List.length_append, configBytes_length]; rfl) found)
  constructor
  case size => exact size
  case number => exact head (k := 0) rfl
  case state => exact head (k := 1) rfl
  case unset =>
    intro none_ i low high
    obtain ⟨k, rfl⟩ := Nat.le.dest low
    refine config ?_
    rw [none_]
    exact List.getElem?_replicate_of_lt (by omega)
  case config =>
    intro c some_
    rw [some_] at config
    exact ⟨config (k := 0) rfl, config (k := 1) rfl, config (k := 2) rfl, config (k := 3) rfl,
      recordHalf_of (config (k := 4) rfl) (config (k := 5) rfl),
      recordWord_of (j := 2) (config (k := 6) rfl) (config (k := 7) rfl) (config (k := 8) rfl) (config (k := 9) rfl),
      recordWord_of (j := 3) (config (k := 10) rfl) (config (k := 11) rfl) (config (k := 12) rfl) (config (k := 13) rfl)⟩
  case generation => exact recordHalf_of (tail (k := 0) rfl) (tail (k := 1) rfl)
  case sequence => exact tail (k := 2) rfl
  case modules => exact tail (k := 3) rfl
  case exports => exact recordHalf_of (tail (k := 4) rfl) (tail (k := 5) rfl)
  case answers => exact recordHalf_of (tail (k := 6) rfl) (tail (k := 7) rfl)
  case references => exact recordHalf_of (tail (k := 8) rfl) (tail (k := 9) rfl)
  case sites => exact recordHalf_of (tail (k := 10) rfl) (tail (k := 11) rfl)
  case slots => exact tail (k := 12) rfl
  case transmit => exact tail (k := 13) rfl
  case requests => exact tail (k := 14) rfl
  case frames => exact tail (k := 15) rfl
  case markers => exact tail (k := 16) rfl
  case indices => exact ⟨tail (k := 17) rfl, tail (k := 18) rfl⟩
  case backlog => exact recordHalf_of (tail (k := 20) rfl) (tail (k := 21) rfl)
  case patches => exact recordHalf_of (tail (k := 22) rfl) (tail (k := 23) rfl)
  case drops => exact recordHalf_of (tail (k := 24) rfl) (tail (k := 25) rfl)
  case zero =>
    refine ⟨fun i low high => ?_, fun i low _ => beyond i low⟩
    interval_cases i
    exact tail (k := 19) rfl

/-! ## PEERS and MODULES -/

theorem peerRecord_layout (p : Peer) (n : Nat) : p.Layout n (bytesWords (padTo 16 (peerRecord n p))) := by
  obtain ⟨size, byte, beyond⟩ := record_bytes (n := 4) (bs := peerRecord n p) (by decide : 4 ≤ 16)
  constructor
  case size => exact size
  case number => exact byte rfl
  case present =>
    refine (byte rfl : _ = BitVec.ofNat 8 p.present.toNat).trans ?_
    cases p.present <;> rfl
  case group => exact byte rfl
  case sequence => exact byte rfl
  case zero => exact fun i low _ => beyond i low

theorem moduleRecordBytes_layout (m : ModuleRecord) : m.Layout (bytesWords (padTo 16 (moduleRecordBytes m))) := by
  obtain ⟨size, byte, beyond⟩ := record_bytes (n := 4) (bs := moduleRecordBytes m) (by decide : 14 ≤ 16)
  constructor
  case size => exact size
  case id => exact byte rfl
  case state => exact byte rfl
  case segments => exact byte rfl
  case descriptor => exact recordWord_of (j := 1) (byte rfl) (byte rfl) (byte rfl) (byte rfl)
  case exports => exact recordHalf_of (byte rfl) (byte rfl)
  case imports => exact recordHalf_of (byte rfl) (byte rfl)
  case sites => exact recordHalf_of (byte rfl) (byte rfl)
  case zero =>
    refine ⟨fun i low high => ?_, fun i low _ => beyond i low⟩
    interval_cases i
    exact byte rfl

/-! ## EXPORTS (R56) -/

/-- The refused pair in an EXPORTS record. -/
def ExportState.refusedBytes : ExportState → List Byte
  | .refused p => halfBytes p.generation ++ byteOf p.station.val
  | .pending => halfField 0 ++ byteOf 0xFF
  | .live _ => halfField 0 ++ byteOf 0xFF
  | .withdrawing => halfField 0 ++ byteOf 0xFF

theorem refusedBytes_length (st : ExportState) : st.refusedBytes.length = 3 := by cases st <;> rfl

/-- The parts of an EXPORTS record. -/
def State.exportParts (s : State) (e : ExportEntry) : List (List Byte) :=
  [[BitVec.ofNat 8 e.owner.index, BitVec.ofNat 8 e.key.scope.code, BitVec.ofNat 8 e.kind.code, BitVec.ofNat 8 e.state.code],
    nameField e.key.name, wordBytes e.target, halfBytes e.generation, e.state.refusedBytes,
    [BitVec.ofNat 8 (s.answerFlags e), BitVec.ofNat 8 e.state.owed.length]]

theorem exportRecord_eq (s : State) (e : ExportEntry) : s.exportRecord e = (s.exportParts e).flatten := by
  have refused : (match e.state with
      | .refused p => halfBytes p.generation ++ byteOf p.station.val
      | _ => halfField 0 ++ byteOf 0xFF) = e.state.refusedBytes := by cases e.state <;> rfl
  simp only [State.exportParts, List.flatten_cons, List.flatten_nil, ← refused]
  simp only [State.exportRecord, byteOf, List.append_assoc, List.cons_append, List.nil_append, List.append_nil] <;> rfl

theorem exportParts_length (s : State) {e : ExportEntry} (name : e.key.name.length ≤ 24) : (s.exportParts e).flatten.length = 43 := by
  simp [State.exportParts, nameField_length name, refusedBytes_length, wordBytes, halfBytes]

/-- The flags of a member of the answer list, bit by bit (R187). -/
theorem answerFlags_bits (a o c : Bool) : (BitVec.ofNat 8 (a.toNat + 2 * o.toNat + 4 * c.toNat)).getLsbD 0 = a ∧
    (BitVec.ofNat 8 (a.toNat + 2 * o.toNat + 4 * c.toNat)).getLsbD 1 = o ∧
    (BitVec.ofNat 8 (a.toNat + 2 * o.toNat + 4 * c.toNat)).getLsbD 2 = c ∧
    (BitVec.ofNat 8 (a.toNat + 2 * o.toNat + 4 * c.toNat)).toNat < 8 := by
  revert a o c
  decide

theorem answerFlags_of_member {e : ExportEntry} {a : Answer} (h : s.answers.find? (fun a => decide (a.owner = e.owner)) = some a) :
    s.answerFlags e = true.toNat + 2 * a.owesOffer.toNat + 4 * (decide (e.state.owed ≠ [])).toNat := by
  rw [State.answerFlags, State.answer?, h]
  by_cases owed : e.state.owed = [] <;> simp [owed]

theorem answerFlags_of_absent {e : ExportEntry} (h : ∀ a ∈ s.answers, a.owner ≠ e.owner) : s.answerFlags e = 0 := by
  have none_ : s.answers.find? (fun a => decide (a.owner = e.owner)) = none := by simpa using h
  rw [State.answerFlags, State.answer?, none_]

/-- A name in a record, behind four bytes. -/
theorem recordName_of {words : List Word} {name : List Byte}
    (field : ∀ {k b}, (nameField name)[k]? = some b → recordByte words (4 + k) = b) (short : name.length ≤ 24) :
    RecordName words 4 name := by
  refine ⟨field (k := 0) rfl, fun i less => ?_⟩
  have inside : i + 1 < (nameField name).length := by rw [nameField_length short]; omega
  rw [show 4 + 1 + i = 4 + (i + 1) by omega, ← nameField_getD, List.getD_eq_getElem _ _ inside]
  exact field (List.getElem?_eq_getElem inside)

theorem exportRecord_layout (s : State) {e : ExportEntry} (short : e.key.name.length ≤ 24) :
    s.ExportLayout e (bytesWords (padTo 48 (s.exportRecord e))) := by
  have length := exportParts_length s short
  have fits : (s.exportParts e).flatten.length ≤ 4 * 12 := by rw [length]; decide
  rw [exportRecord_eq]
  obtain ⟨size, -, beyond⟩ := record_bytes fits
  rw [length] at beyond
  let p := s.exportParts e
  have width : ∀ i (h : i < 7), (p.take i).flatten.length = [0, 4, 32, 36, 38, 41, 43][i] := fun i h => by
    interval_cases i <;> simp [p, State.exportParts, nameField_length short, refusedBytes_length, wordBytes, halfBytes]
  have head := @record_part 12 _ fits (p.take 0) _ _ _ (width 0 (by decide)) rfl
  have name := @record_part 12 _ fits (p.take 1) _ _ _ (width 1 (by decide)) rfl
  have place := @record_part 12 _ fits (p.take 2) _ _ _ (width 2 (by decide)) rfl
  have generation := @record_part 12 _ fits (p.take 3) _ _ _ (width 3 (by decide)) rfl
  have refused := @record_part 12 _ fits (p.take 4) _ _ _ (width 4 (by decide)) rfl
  have flags := @record_part 12 _ fits (p.take 5) _ _ _ (width 5 (by decide)) rfl
  constructor
  case size => exact size
  case index => exact head (k := 0) rfl
  case scope => exact head (k := 1) rfl
  case kind => exact head (k := 2) rfl
  case state => exact head (k := 3) rfl
  case name => exact recordName_of name short
  case target => exact recordWord_of (j := 8) (place (k := 0) rfl) (place (k := 1) rfl) (place (k := 2) rfl) (place (k := 3) rfl)
  case generation => exact recordHalf_of (generation (k := 0) rfl) (generation (k := 1) rfl)
  case refused =>
    intro q state
    rw [state] at refused
    exact ⟨recordHalf_of (refused (k := 0) rfl) (refused (k := 1) rfl), refused (k := 2) rfl⟩
  case other =>
    intro other
    have none_ : e.state.refusedBytes = [0, 0, 0xFF] := by
      cases state : e.state with
      | refused q => exact absurd (by rw [state]; rfl) other
      | _ => rfl
    rw [none_] at refused
    exact ⟨recordHalf_of (h := 0) (refused (k := 0) rfl) (refused (k := 1) rfl), refused (k := 2) rfl⟩
  case member =>
    intro a found
    have bits := answerFlags_bits true a.owesOffer (decide (e.state.owed ≠ []))
    rw [← answerFlags_of_member found] at bits
    rw [show recordByte _ 0x29 = _ from flags (k := 0) rfl]
    exact bits
  case absent =>
    intro none_
    refine (flags (k := 0) rfl).trans ?_
    rw [answerFlags_of_absent none_]
    rfl
  case pairs => exact flags (k := 1) rfl
  case zero => exact fun i low _ => beyond i low

/-! ## REFERENCES (R84) -/

/-- The binding in a REFERENCES record. -/
def bindingBytes : Option Binding → List Byte
  | some b => byteOf 1 ++ byteOf b.definer.val ++ byteOf b.kind.code ++ halfBytes b.generation ++ halfField 0 ++ wordBytes b.target
  | none => List.replicate 11 0

/-- What the sites reflect, in a REFERENCES record. -/
def Reflect.bytes (r : Reflect) : List Byte := byteOf r.fields.1 ++ byteOf r.fields.2.1 ++ halfBytes r.fields.2.2

/-- The fault cause in a REFERENCES record. -/
def Phase.faultBytes : Phase → List Byte
  | .faulted c => byteOf c.code
  | .queued => byteOf 0
  | .seeking _ => byteOf 0
  | .waiting => byteOf 0
  | .patching _ => byteOf 0
  | .bound _ => byteOf 0

/-- The seek slot in a REFERENCES record. -/
def State.seekBytes (s : State) : Phase → List Byte
  | .seeking n =>
    match s.slots[n]? with
    | some (some x) => byteOf n ++ byteOf x.state.code ++ byteOf x.tries
    | _ => byteOf n ++ byteOf 0 ++ byteOf 0
  | .queued => byteOf 0xFF ++ byteOf 0 ++ byteOf 0
  | .waiting => byteOf 0xFF ++ byteOf 0 ++ byteOf 0
  | .patching _ => byteOf 0xFF ++ byteOf 0 ++ byteOf 0
  | .bound _ => byteOf 0xFF ++ byteOf 0 ++ byteOf 0
  | .faulted _ => byteOf 0xFF ++ byteOf 0 ++ byteOf 0

/-- The place on the backlog in a REFERENCES record. -/
def State.placeBytes (s : State) (r : Ref) : List Byte :=
  match r.phase with
  | .queued => halfField ((s.backlog.idxOf r.owner) + 1)
  | _ => halfField 0

theorem bindingBytes_length (b : Option Binding) : (bindingBytes b).length = 11 := by cases b <;> rfl

theorem reflectBytes_length (r : Reflect) : r.bytes.length = 4 := rfl

theorem faultBytes_length (p : Phase) : p.faultBytes.length = 1 := by cases p <;> rfl

theorem seekBytes_length (s : State) (p : Phase) : (s.seekBytes p).length = 3 := by
  cases p with
  | seeking n =>
    unfold State.seekBytes
    split
    · split <;> rfl
    all_goals rfl
  | _ => rfl

theorem placeBytes_length (s : State) (r : Ref) : (s.placeBytes r).length = 2 := by
  unfold State.placeBytes
  split <;> rfl

/-- The parts of a REFERENCES record. -/
def State.referenceParts (s : State) (r : Ref) : List (List Byte) :=
  [[BitVec.ofNat 8 r.owner.index, BitVec.ofNat 8 r.key.scope.code, BitVec.ofNat 8 r.expected.code, BitVec.ofNat 8 r.phase.code],
    nameField r.key.name, [BitVec.ofNat 8 r.sites.length], bindingBytes r.phase.binding?, r.reflect.bytes, r.phase.faultBytes,
    s.seekBytes r.phase, s.placeBytes r, [BitVec.ofNat 8 (if r.owner ∈ s.patchQueue then 1 else 0)]]

theorem referenceRecord_eq (s : State) (r : Ref) : s.referenceRecord r = (s.referenceParts r).flatten := by
  have binding : (match r.phase.binding? with
      | some b => byteOf 1 ++ byteOf b.definer.val ++ byteOf b.kind.code ++ halfBytes b.generation ++ halfField 0
          ++ wordBytes b.target
      | none => List.replicate 11 0) = bindingBytes r.phase.binding? := by cases r.phase.binding? <;> rfl
  have fault : (match r.phase with
      | .faulted c => byteOf c.code
      | _ => byteOf 0) = r.phase.faultBytes := by cases r.phase <;> rfl
  have seek : (match r.phase with
      | .seeking n =>
        match s.slots[n]? with
        | some (some x) => byteOf n ++ byteOf x.state.code ++ byteOf x.tries
        | _ => byteOf n ++ byteOf 0 ++ byteOf 0
      | _ => byteOf 0xFF ++ byteOf 0 ++ byteOf 0) = s.seekBytes r.phase := by cases r.phase <;> rfl
  simp only [State.referenceParts, List.flatten_cons, List.flatten_nil, ← binding, ← fault, ← seek, State.placeBytes, Reflect.bytes]
  simp only [State.referenceRecord, byteOf, List.append_assoc, List.cons_append, List.nil_append, List.append_nil] <;> rfl

theorem referenceParts_length (s : State) {r : Ref} (name : r.key.name.length ≤ 24) : (s.referenceParts r).flatten.length = 55 := by
  simp [State.referenceParts, nameField_length name, bindingBytes_length, reflectBytes_length, faultBytes_length, seekBytes_length,
    placeBytes_length]

/-- Where each part of a REFERENCES record begins. -/
theorem referenceParts_width (s : State) {r : Ref} (name : r.key.name.length ≤ 24) (i : Nat) (h : i < 9) :
    ((s.referenceParts r).take i).flatten.length = [0, 4, 32, 33, 44, 48, 49, 52, 54][i] := by
  interval_cases i <;>
    simp [State.referenceParts, nameField_length name, bindingBytes_length, reflectBytes_length, faultBytes_length,
      seekBytes_length, placeBytes_length]

section
variable {words : List Word}

theorem recordHalf_halfField {n : Nat} {offset : Nat} {part : List Byte}
    (field : ∀ {k b}, part[k]? = some b → recordByte words (offset + k) = b) (same : part = halfField n) :
    recordHalf words offset = BitVec.ofNat 16 n := by
  rw [same] at field
  exact recordHalf_of (field (k := 0) rfl) (field (k := 1) rfl)

/-- The binding's part of a REFERENCES record. -/
theorem bindingBytes_layout {o : Option Binding} (field : ∀ {k b}, (bindingBytes o)[k]? = some b → recordByte words (33 + k) = b) :
    (∀ b, o = some b → recordByte words 0x21 = 1 ∧ recordByte words 0x22 = BitVec.ofNat 8 b.definer.val ∧
      recordByte words 0x23 = BitVec.ofNat 8 b.kind.code ∧ recordHalf words 0x24 = b.generation ∧
      recordWord words 0x28 = b.target) ∧
    (o = none → RecordZero words 0x21 0x2C) ∧ RecordZero words 0x26 0x28 := by
  cases o with
  | none =>
    have zero : RecordZero words 0x21 0x2C := fun i low high => by
      obtain ⟨k, rfl⟩ := Nat.le.dest low
      exact field (List.getElem?_replicate_of_lt (by omega))
    exact ⟨fun _ h => (nomatch h), fun _ => zero, fun i low high => zero i (by omega) (by omega)⟩
  | some b =>
    refine ⟨fun b' h => ?_, fun h => (nomatch h), fun i low high => ?_⟩
    · cases h
      exact ⟨field (k := 0) rfl, field (k := 1) rfl, field (k := 2) rfl, recordHalf_of (field (k := 3) rfl) (field (k := 4) rfl),
        recordWord_of (j := 10) (field (k := 7) rfl) (field (k := 8) rfl) (field (k := 9) rfl) (field (k := 10) rfl)⟩
    · interval_cases i
      · exact field (k := 5) rfl
      · exact field (k := 6) rfl

/-- "Sites reflect" in a REFERENCES record. -/
theorem reflectBytes_layout {r : Reflect} (field : ∀ {k b}, r.bytes[k]? = some b → recordByte words (44 + k) = b) :
    match (generalizing := false) r with
    | .none => RecordZero words 0x2C 0x30
    | .stub => recordByte words 0x2C = 1 ∧ RecordZero words 0x2D 0x30
    | .unknown => recordByte words 0x2C = 2 ∧ RecordZero words 0x2D 0x30
    | .binding b => recordByte words 0x2C = 3 ∧ recordByte words 0x2D = BitVec.ofNat 8 b.definer.val ∧
        recordHalf words 0x2E = b.generation := by
  have zero : (∀ k, k < 4 → 1 ≤ k → r.bytes[k]? = some 0) → RecordZero words 0x2D 0x30 := fun h i low high => by
    obtain ⟨k, rfl⟩ := Nat.le.dest low
    rw [show 0x2D + k = 44 + (k + 1) by omega]
    exact field (h (k + 1) (by omega) (by omega))
  cases r with
  | none =>
    have rest := zero fun k hk hk' => by interval_cases k <;> rfl
    intro i low high
    rcases Nat.eq_or_lt_of_le low with rfl | above
    · exact field (k := 0) rfl
    · exact rest i above high
  | stub => exact ⟨field (k := 0) rfl, zero fun k hk hk' => by interval_cases k <;> rfl⟩
  | unknown => exact ⟨field (k := 0) rfl, zero fun k hk hk' => by interval_cases k <;> rfl⟩
  | binding b => exact ⟨field (k := 0) rfl, field (k := 1) rfl, recordHalf_of (field (k := 2) rfl) (field (k := 3) rfl)⟩

/-- The seek slot's part of a REFERENCES record. -/
theorem seekBytes_layout {p : Phase} (field : ∀ {k b}, (s.seekBytes p)[k]? = some b → recordByte words (49 + k) = b) :
    (∀ n x, p = .seeking n → s.slots[n]? = some (some x) → recordByte words 0x31 = BitVec.ofNat 8 n ∧
      recordByte words 0x32 = BitVec.ofNat 8 x.state.code ∧ recordByte words 0x33 = BitVec.ofNat 8 x.tries) ∧
    (p.code ≠ 2 → recordByte words 0x31 = 0xFF ∧ RecordZero words 0x32 0x34) := by
  refine ⟨fun n x phase slot => ?_, fun other => ?_⟩
  · have bytes : s.seekBytes p = byteOf n ++ byteOf x.state.code ++ byteOf x.tries := by
      rw [phase, State.seekBytes, slot]
    rw [bytes] at field
    exact ⟨field (k := 0) rfl, field (k := 1) rfl, field (k := 2) rfl⟩
  · have bytes : s.seekBytes p = [0xFF, 0, 0] := by
      cases p with
      | seeking n => exact absurd rfl other
      | _ => rfl
    rw [bytes] at field
    refine ⟨field (k := 0) rfl, fun i low high => ?_⟩
    interval_cases i
    · exact field (k := 1) rfl
    · exact field (k := 2) rfl

end

theorem placeBytes_eq (s : State) (r : Ref) :
    s.placeBytes r = halfField (if r.phase = .queued then s.backlog.idxOf r.owner + 1 else 0) := by
  unfold State.placeBytes
  split
  · next phase => rw [if_pos phase]
  · next other => rw [if_neg other]

theorem referenceRecord_layout (s : State) {r : Ref} (short : r.key.name.length ≤ 24) :
    s.ReferenceLayout r (bytesWords (padTo 64 (s.referenceRecord r))) := by
  have length := referenceParts_length s short
  have fits : (s.referenceParts r).flatten.length ≤ 4 * 16 := by rw [length]; decide
  rw [referenceRecord_eq]
  obtain ⟨size, -, beyond⟩ := record_bytes fits
  rw [length] at beyond
  have width := referenceParts_width s short
  have head := @record_part 16 _ fits ((s.referenceParts r).take 0) _ _ _ (width 0 (by decide)) rfl
  have name := @record_part 16 _ fits ((s.referenceParts r).take 1) _ _ _ (width 1 (by decide)) rfl
  have sites := @record_part 16 _ fits ((s.referenceParts r).take 2) _ _ _ (width 2 (by decide)) rfl
  obtain ⟨binding, unbound, zero⟩ :=
    bindingBytes_layout (@record_part 16 _ fits ((s.referenceParts r).take 3) _ _ _ (width 3 (by decide)) rfl)
  have reflect := reflectBytes_layout (@record_part 16 _ fits ((s.referenceParts r).take 4) _ _ _ (width 4 (by decide)) rfl)
  have fault := @record_part 16 _ fits ((s.referenceParts r).take 5) _ _ _ (width 5 (by decide)) rfl
  obtain ⟨seeking, still⟩ := seekBytes_layout (@record_part 16 _ fits ((s.referenceParts r).take 6) _ _ _ (width 6 (by decide)) rfl)
  have place := @record_part 16 _ fits ((s.referenceParts r).take 7) _ _ _ (width 7 (by decide)) rfl
  have walked := @record_part 16 _ fits ((s.referenceParts r).take 8) _ _ _ (width 8 (by decide)) rfl
  refine { size, index := head (k := 0) rfl, scope := head (k := 1) rfl, expected := head (k := 2) rfl, phase := head (k := 3) rfl
           name := recordName_of name short, sites := sites (k := 0) rfl, binding, unbound, reflect, fault := ?_, seeking, still
           place := ?_, walked := ?_, zero := ⟨zero, fun i low _ => beyond i low⟩ }
  · cases phase : r.phase <;> rw [phase] at fault <;> exact fault (k := 0) rfl
  · refine (recordHalf_halfField place (placeBytes_eq s r)).trans ?_
    split <;> rfl
  · refine (walked (k := 0) rfl).trans ?_
    split <;> rfl

/-! ## Every record -/

/-- A record of a listing has the layout of its kind. -/
theorem reportRecord_layout {sel : Selector} {m : Byte} {n : Nat} {words : List Word} (h : s.reportRecord sel m n = some words) :
    s.RecordLayout sel m n words := by
  unfold State.reportRecord at h
  obtain ⟨bs, found, rfl⟩ := Option.map_eq_some_iff.mp h
  cases sel with
  | station =>
    simp only at found
    split at found
    · next first => exact ⟨first, Option.some.inj found ▸ stationRecord_layout s⟩
    · cases found
  | peers =>
    obtain ⟨p, found, same⟩ := Option.map_eq_some_iff.mp found
    exact ⟨p, found, same ▸ peerRecord_layout p n⟩
  | modules =>
    obtain ⟨x, found, same⟩ := Option.map_eq_some_iff.mp found
    exact ⟨x, found, same ▸ moduleRecordBytes_layout x⟩
  | exports =>
    obtain ⟨e, found, same⟩ := Option.map_eq_some_iff.mp found
    exact ⟨e, found, fun short => same ▸ exportRecord_layout s short⟩
  | references =>
    obtain ⟨r, found, same⟩ := Option.map_eq_some_iff.mp found
    exact ⟨r, found, fun short => same ▸ referenceRecord_layout s short⟩

end Sys2Proof.Machine

/-! The runs of words that a REPORT and the Notice Unit write (R173, R175, R177, R180, R182). -/

namespace Sys2Proof.Machine

variable {s : State} {env : Env}

/-- A transfer's acknowledgement does not depend on where the step leaves its run. -/
theorem acks_runEnv (s : State) (c : Claimant) (env : Env) (k a : Nat) : acks (s.runEnv c env) k a = acks env k a := by
  rw [acks, acks, (runEnv_same s c env).1]

theorem mayTransfer_of {c : Claimant} (high : s.inReset = false) (granted : c ∈ s.granted) : s.mayTransfer c = true := by
  simp [State.mayTransfer, high, granted]

/-! ## The record that a REPORT writes (R173, R175) -/

/-- The state with these words written from this address on. -/
def State.written (s : State) (a : Nat) (words : List Word) : State := { s with mem := s.mem.setWords a words }

section
variable {tag : Half} {sel : Selector} {m : Byte} {buffer capacity n : Nat} {x : TakenRecord}

theorem recordAt_of (h : s.runs.record = some x ∨ (s.runs.record = none ∧ x.written = 0 ∧ s.reportRecord sel m n = some x.words)) :
    s.recordAt sel m n = some x := by
  unfold State.recordAt
  rcases h with taken | ⟨none_, first, content⟩
  · rw [taken]
  · rw [none_, content]
    obtain ⟨words, written⟩ := x
    simp only at first
    rw [first]
    rfl

variable (command : s.command = some (.report tag sel m buffer capacity n))
include command

theorem reporting_of : s.reporting = true := by rw [State.reporting, command]

theorem commandAsks_of_report : s.commandAsks = (s.recordAt sel m n).isSome := by rw [State.commandAsks, command]

theorem takeRecord_of (record : s.recordAt sel m n = some x) : s.takeRecord = s.setRecord (some x) := by
  conv_lhs => rw [State.takeRecord, command]
  simp only [record]

/-- Words that are all acknowledged are written; then the record is left, or the listing goes on. -/
theorem writeRecord_acked (record : s.recordAt sel m n = some x)
    (good : ∀ i, i < (wordsNow env (x.words.drop x.written)).length →
      acks env i (buffer + (n * sel.recordSize + 4 * x.written) + 4 * i) = true) :
    s.writeRecord env =
      let left := x.words.drop x.written
      let t := s.written (buffer + (n * sel.recordSize + 4 * x.written)) (wordsNow env left)
      if (wordsNow env left).length < left.length then
        t.setRecord (some { x with written := x.written + (wordsNow env left).length })
      else (t.setRecord none).afterRecord tag sel m buffer capacity (n + 1) := by
  conv_lhs => rw [State.writeRecord, command]
  simp only [record]
  rw [writeWords_acked env _ 0 _ s (by simpa using good)]
  rfl

/-- A word that is not acknowledged ends the REPORT. -/
theorem writeRecord_failed (record : s.recordAt sel m n = some x) {k : Nat}
    (inside : k < (wordsNow env (x.words.drop x.written)).length)
    (good : ∀ i, i < k → acks env i (buffer + (n * sel.recordSize + 4 * x.written) + 4 * i) = true)
    (bad : acks env k (buffer + (n * sel.recordSize + 4 * x.written) + 4 * k) = false) :
    s.writeRecord env =
      (((s.written (buffer + (n * sel.recordSize + 4 * x.written)) ((wordsNow env (x.words.drop x.written)).take k)).spoilWord
        (buffer + (n * sel.recordSize + 4 * x.written) + 4 * k)).endCommand tag .writeError
          (n * sel.recordSize + 4 * x.written + 4 * k)).setRecord none := by
  conv_lhs => rw [State.writeRecord, command]
  simp only [record]
  rw [writeWords_failed env _ 0 _ k s inside (by simpa using good) (by simpa using bad), Nat.zero_add]
  rfl

end

section
variable {tag : Half} {sel : Selector} {m : Byte} {buffer capacity n : Nat}

theorem afterRecord_last (last : s.reportRecord sel m n = none) :
    s.afterRecord tag sel m buffer capacity n = s.endCommand tag .ok n := if_pos (by rw [last]; rfl)

theorem afterRecord_cut (more : s.reportRecord sel m n ≠ none) (full : capacity ≤ n) :
    s.afterRecord tag sel m buffer capacity n = s.endCommand tag .ok (n + 0x80000000) :=
  (if_neg (mt Option.isNone_iff_eq_none.mp more)).trans (if_pos full)

theorem afterRecord_next (more : s.reportRecord sel m n ≠ none) (room : n < capacity) :
    s.afterRecord tag sel m buffer capacity n = { s with command := some (.report tag sel m buffer capacity n) } :=
  (if_neg (mt Option.isNone_iff_eq_none.mp more)).trans (if_neg (Nat.not_le.mpr room))

end

/-! The states in which a step leaves a REPORT. -/

theorem reportRecord_written (s : State) (env : Env) (a : Nat) (words : List Word) :
    (((s.forTransfers env).written a words).setRecord none).reportRecord = s.reportRecord := by
  have first : (s.forTransfers env).reportRecord = s.reportRecord := rfl
  have second : ((s.forTransfers env).written a words).reportRecord = (s.forTransfers env).reportRecord := rfl
  exact Eq.trans rfl (second.trans first)

theorem left_part (s : State) (env : Env) (a : Nat) (words : List Word) (x : TakenRecord) :
    (((s.forTransfers env).written a words).setRecord (some x)).served .commandEngine =
      ({ s with
        mem := (s.mem.afterStores env.stores).setWords a words, runs := { s.runs with record := some x } } : State).served
          .commandEngine := by
  simp only [State.forTransfers, State.written, State.setRecord]

theorem next_record (s : State) (env : Env) (a : Nat) (words : List Word) (c : Command) :
    ({ ((s.forTransfers env).written a words).setRecord none with command := some c } : State).served .commandEngine =
      ({ s with
        mem := (s.mem.afterStores env.stores).setWords a words, runs := { s.runs with record := none }
        command := some c } : State).served .commandEngine := by
  simp only [State.forTransfers, State.written, State.setRecord]

/-- The end of a REPORT whose last record has been written, and of one at a word that is not acknowledged. -/
theorem ended_whole (s : State) (env : Env) (tag : Half) (a detail : Nat) (words : List Word) :
    ((((s.forTransfers env).written a words).setRecord none).endCommand tag .ok detail).served .commandEngine =
      ({ s with
        mem := (s.mem.afterStores env.stores).setWords a words, freeCount := s.freeCount + 0
        runs := { s.runs with record := none }, notices := s.notices.take (.commandDone tag .ok detail)
        commandQueue := s.commandQueue.tail, command := none } : State).served .commandEngine := by
  simp only [State.forTransfers, State.written, State.setRecord, State.endCommand, State.post, Nat.add_zero]

theorem ended_written (s : State) (env : Env) (tag : Half) (a b detail : Nat) (words : List Word) :
    (((((s.forTransfers env).written a words).spoilWord b).endCommand tag .writeError detail).setRecord none).served .commandEngine =
      ({ s with
        mem := ((s.mem.afterStores env.stores).setWords a words).setWord b (Config.unknownWord s.freeCount)
        freeCount := s.freeCount + 1, runs := { s.runs with record := none }
        notices := s.notices.take (.commandDone tag .writeError detail)
        commandQueue := s.commandQueue.tail, command := none } : State).served .commandEngine := by
  simp only [State.forTransfers, State.written, State.setRecord, State.endCommand, State.post, State.spoilWord]

/-- Settles O37: the layouts, the codes, and the row by where the step leaves the record. -/
theorem reportRecordWrite : Obligations.ReportRecordWrite := by
  refine ⟨fun s sel m n words h => reportRecord_layout h, codesAsListed,
    fun s env tag sel m buffer capacity n high command noRecord missing goes => ?none_,
    fun s env tag sel m buffer capacity n x high command content => ?record⟩
  case none_ =>
    have record : s.recordAt sel m n = none := by rw [State.recordAt, noRecord, missing]; rfl
    have silent : s.commandAsks = false := by rw [commandAsks_of_report command, record]; rfl
    rw [exec, execReportRecordWrite, if_neg (by simp [high, reporting_of command]), if_neg goes, if_pos (by simp [silent]),
      State.writeRecord, command]
    simp only [record]
    rfl
  case record =>
    have record := recordAt_of content
    have row : exec (.reportRecordWrite env) s = .next (if env.upTo = some 0 then s.takeRecord
        else if !s.commandAsks then (s.writeRecord env).settleAgent
        else if s.mayTransfer .commandEngine then
          ((s.forTransfers env).writeRecord (s.runEnv .commandEngine env)).served .commandEngine
        else s) := by
      rw [exec, execReportRecordWrite, if_neg (by simp [high, reporting_of command])]
    refine ⟨fun stays => ?takes, ?writes⟩
    case takes =>
      rw [row, if_pos stays, takeRecord_of command record]
      rfl
    case writes =>
      intro goes granted left now place mem rest ended
      replace row := row.trans (by
        rw [if_neg goes, if_neg (by simp [commandAsks_of_report command, record]), if_pos (mayTransfer_of high granted)])
      have record' : (s.forTransfers env).recordAt sel m n = some x := record
      have then_ : ∀ {t u : State}, (s.forTransfers env).writeRecord (s.runEnv .commandEngine env) = t → t.served .commandEngine = u →
          exec (.reportRecordWrite env) s = .next u := fun run same => by rw [row, run, same]
      refine ⟨fun good => ?good, fun k inside good bad => ?bad⟩
      case good =>
        have run := writeRecord_acked (s := s.forTransfers env) (env := s.runEnv .commandEngine env) command record'
          fun i hi => by rw [acks_runEnv]; exact good i hi
        refine ⟨fun short => then_ (run.trans (if_pos short)) (left_part _ _ _ _ _), fun whole => ?_⟩
        have next := run.trans (if_neg (Nat.not_lt.mpr (Nat.le_of_eq whole.symm)))
        refine ⟨fun last => ?_, fun more full => ?_, fun more room => ?_⟩
        · rw [afterRecord_last (by rw [reportRecord_written]; exact last)] at next
          exact then_ next (ended_whole _ _ _ _ _ _)
        · rw [afterRecord_cut (by rw [reportRecord_written]; exact more) full] at next
          exact then_ next (ended_whole _ _ _ _ _ _)
        · rw [afterRecord_next (by rw [reportRecord_written]; exact more) room] at next
          exact then_ next (next_record _ _ _ _ _)
      case bad =>
        have run := writeRecord_failed (s := s.forTransfers env) (env := s.runEnv .commandEngine env) (k := k) command record'
          inside (fun i hi => by rw [acks_runEnv]; exact good i hi) (by rw [acks_runEnv]; exact bad)
        exact then_ run (ended_written _ _ _ _ _ _ _)

/-! ## The notice that is written (R177, R180, R186) -/

/-- The first word of a notice's slot, by its numbers. -/
theorem slotHead_eq {kind first second : Nat} (hf : first < 256) (hs : second < 65536) :
    BitVec.ofNat 32 (kind * 0x1000000 + first * 0x10000 + second) =
      (BitVec.ofNat 8 kind ++ BitVec.ofNat 8 first ++ BitVec.ofNat 16 second : Word) := by
  refine BitVec.eq_of_toNat_eq ?_
  rw [BitVec.toNat_append, ← Nat.shiftLeft_add_eq_or_of_lt (BitVec.isLt _), Nat.shiftLeft_eq, toNat_append8]
  simp only [BitVec.toNat_ofNat]
  omega

theorem words_eq_slotWords (x : Notice) {kind first second word : Nat} (fields : x.fields = (kind, first, second, word))
    (hf : first < 256) (hs : second < 65536) :
    x.words = slotWords (BitVec.ofNat 8 kind) (BitVec.ofNat 8 first) (BitVec.ofNat 16 second) (BitVec.ofNat 32 word) := by
  rw [Notice.words, fields]
  simp only [slotHead_eq hf hs]
  rfl

theorem status_code_lt (st : Status) : st.code < 256 := by cases st <;> decide

theorem moduleState_code_lt (st : ModuleState) : st.code < 65536 := by cases st <;> decide

theorem peerLoss_code_lt (c : PeerLoss) : c.code < 65536 := by cases c <;> decide

theorem words_eq_layout (x : Notice) (fits : x.indexFits = true) : x.words = x.layout := by
  cases x with
  | commandDone tag status detail =>
    rw [words_eq_slotWords (.commandDone tag status detail) rfl (status_code_lt status) tag.isLt, BitVec.ofNat_toNat, BitVec.setWidth_eq]
    rfl
  | moduleState m st =>
    rw [words_eq_slotWords (.moduleState m st) rfl m.isLt (moduleState_code_lt st), BitVec.ofNat_toNat, BitVec.setWidth_eq]
    rfl
  | referenceUnresolved r =>
    rw [words_eq_slotWords (.referenceUnresolved r) rfl r.module.isLt (of_decide_eq_true fits), BitVec.ofNat_toNat, BitVec.setWidth_eq]
    rfl
  | referenceRevoked r cause =>
    rw [words_eq_slotWords (.referenceRevoked r cause) rfl r.module.isLt (of_decide_eq_true fits), BitVec.ofNat_toNat, BitVec.setWidth_eq]
    rfl
  | referenceFaulted r cause site =>
    rw [words_eq_slotWords (.referenceFaulted r cause site) rfl r.module.isLt (of_decide_eq_true fits), BitVec.ofNat_toNat, BitVec.setWidth_eq,
      Nat.mul_comm]
    rfl
  | exportRefused e owner =>
    rw [words_eq_slotWords (.exportRefused e owner) rfl e.module.isLt (of_decide_eq_true fits), BitVec.ofNat_toNat, BitVec.setWidth_eq]
    rfl
  | peerGone n cause => exact words_eq_slotWords (.peerGone n cause) rfl (by omega) (peerLoss_code_lt cause)
  | busStall => rfl
  | stationIsolated => rfl
  | noticesDropped count => exact words_eq_slotWords (.noticesDropped count) rfl (by decide) (by decide)

/-- The drops of a failed write, notice by notice. -/
theorem failedDrops_eq (list : List Reserved) : failedDrops list = (list.map fun y => match y.notice with
    | .noticesDropped count => count
    | _ => 1).sum := by
  induction list with
  | nil => rfl
  | cons y rest ih =>
    obtain ⟨slot, notice⟩ := y
    rw [List.map_cons, List.sum_cons, ← ih]
    cases notice <;> rfl

section
variable {r : Ring} {x : Reserved}

theorem writeNotice_acked (good : ∀ i, i < (wordsNow env (s.noticeLeft x)).length →
      acks env i (s.noticePlace r x + 4 * i) = true) :
    s.writeNotice env r x =
      let now := wordsNow env (s.noticeLeft x)
      let t : State := { s with mem := s.mem.setWords (s.noticePlace r x) now }
      if now.length < (s.noticeLeft x).length then t.setNoticeWords (s.runs.noticeWords + now.length)
      else { t.setNoticeWords 0 with notices := t.notices.published r } := by
  rw [State.writeNotice]
  dsimp only
  rw [writeWords_acked env _ 0 _ s (by simpa using good)]

theorem writeNotice_failed {k : Nat} (inside : k < (wordsNow env (s.noticeLeft x)).length)
    (good : ∀ i, i < k → acks env i (s.noticePlace r x + 4 * i) = true) (bad : acks env k (s.noticePlace r x + 4 * k) = false) :
    s.writeNotice env r x =
      let t : State := ({ s with mem := s.mem.setWords (s.noticePlace r x) ((wordsNow env (s.noticeLeft x)).take k) } :
        State).spoilWord (s.noticePlace r x + 4 * k)
      { t.setNoticeWords 0 with notices := t.notices.writeFailed } := by
  rw [State.writeNotice]
  dsimp only
  rw [writeWords_failed env _ 0 _ k s inside (by simpa using good) (by simpa using bad)]

theorem exec_noticeWriteDone {behind : List Reserved} (high : s.inReset = false) (granted : .noticeUnit ∈ s.granted)
    (ring : s.notices.ring = some r) (list : s.notices.list = x :: behind) : exec (.noticeWriteDone env) s =
      .next (((s.forTransfers env).writeNotice (s.runEnv .noticeUnit env) r x).served .noticeUnit) := by
  rw [exec, execNoticeWriteDone, ring, list]
  simp only [mayTransfer_of high granted, if_true]

end

theorem wordsNow_length_le (env : Env) (words : List Word) : (wordsNow env words).length ≤ words.length := by
  unfold wordsNow
  split
  · exact List.length_take_le' _ _
  · exact Nat.le_refl _

theorem words_length (x : Notice) : x.words.length = 4 := rfl

/-- Settles O57: the layout, the codes, and the row by where the step leaves the notice. -/
theorem noticeWriteDone : Obligations.NoticeWriteDone := by
  refine ⟨words_eq_layout, codesAsListed,
    ?row⟩
  intro s env r x behind high granted ring list room left now place mem rest lost
  have row := exec_noticeWriteDone (env := env) high granted ring list
  have then_ : ∀ {t u : State}, (s.forTransfers env).writeNotice (s.runEnv .noticeUnit env) r x = t → t.served .noticeUnit = u →
      exec (.noticeWriteDone env) s = .next u := fun run same => by rw [row, run, same]
  have short : now.length + s.runs.noticeWords ≤ 4 ∨ now.length = 0 := by
    have few : now.length ≤ left.length := wordsNow_length_le (s.runEnv .noticeUnit env) left
    rw [List.length_drop, words_length] at few
    omega
  have acked : ∀ i, i < now.length → env.failAt ≠ some i → acks (s.runEnv .noticeUnit env) i (place + 4 * i) = true :=
    fun i hi good => by
      rw [acks_runEnv, acks, decide_eq_true good, Bool.true_and, decide_eq_true_eq, Config.localBytes]
      omega
  refine ⟨fun good => ?good, fun k inside fails => ?bad⟩
  case good =>
    have run := writeNotice_acked (s := s.forTransfers env) (env := s.runEnv .noticeUnit env) (r := r) (x := x)
      fun i hi => acked i hi fun fails => absurd (good i fails) (Nat.not_le.mpr hi)
    refine ⟨fun part => then_ (run.trans (if_pos part)) rfl,
      fun whole => then_ (run.trans (if_neg (Nat.not_lt.mpr (Nat.le_of_eq whole.symm)))) ?_⟩
    have published : s.notices.published r = { s.notices with producer := (s.notices.producer + 1) % r.size, list := behind } := by
      rw [NoticeUnit.published, list]
      rfl
    rw [← published]
    rfl
  case bad =>
    have run := writeNotice_failed (s := s.forTransfers env) (env := s.runEnv .noticeUnit env) (r := r) (x := x) inside
      (fun i hi => acked i (Nat.lt_trans hi inside) fun fails' => by
        rw [fails] at fails'
        cases fails'
        exact Nat.lt_irrefl _ hi)
      (by rw [acks_runEnv, acks, decide_eq_false (by simp [fails]), Bool.false_and])
    have failed : s.notices.writeFailed =
        { s.notices with drops := min 65535 (s.notices.drops + lost), list := [], writeFault := true } := by
      rw [NoticeUnit.writeFailed, list, failedDrops_eq]
      rfl
    refine then_ run ?_
    rw [← failed]
    rfl

end Sys2Proof.Machine

/-! The records of a descriptor as their checks (R19 to R24): a part of a pass ends with the first of its checks that fails,
and a record that is read holds what stands at its offset (R184). -/

namespace Sys2Proof.Machine

/-! ## Checks -/

theorem firstFault_eq_none_iff (cs : Checks) : firstFault cs = none ↔ ∀ c ∈ cs, c.1 = true := by
  rw [firstFault, Option.map_eq_none_iff, List.find?_eq_none]
  simp

/-- A pass whose checks all hold is read to its end. -/
theorem Checked.ok_of_passes {α : Type} {x : Except Ending α} {cs : Checks} (h : Checked x cs) (passes : firstFault cs = none) :
    ∃ a, x = .ok a := by
  cases x with
  | error e => exact nomatch ((h e).mp rfl).symm.trans passes
  | ok a => exact ⟨a, rfl⟩

theorem Checked.passes_of_ok {α : Type} {x : Except Ending α} {cs : Checks} (h : Checked x cs) {a : α} (ok : x = .ok a) :
    firstFault cs = none := by
  cases fault : firstFault cs with
  | none => rfl
  | some e => exact nomatch ok.symm.trans ((h e).mpr fault)

theorem Checked.of_eq {α : Type} {x : Except Ending α} {cs ds : Checks} (h : Checked x cs) (same : cs = ds) : Checked x ds := same ▸ h

/-- A part that only rearranges what it has read adds no check. -/
theorem Checked.map {α β : Type} {x : Except Ending α} {cs : Checks} (h : Checked x cs) (f : α → β) :
    Checked (x >>= fun a => .ok (f a)) cs :=
  (h.bind fun a _ => Checked.ok (f a)).of_eq (List.append_nil cs)

/-- Two tests made at one field. -/
theorem requireField_and_checked (a b : Bool) (offset : Nat) :
    Checked (requireField (a && b) offset) [fieldCheck a offset, fieldCheck b offset] := by
  cases a
  · exact Checked.check (fun _ => rfl) fun h => nomatch h
  · refine Checked.check (fun h => nomatch h) fun _ => ?_
    rw [Bool.true_and]
    exact requireField_checked b offset

theorem requireField_ok {ok : Bool} {offset : Nat} (h : requireField ok offset = .ok ()) : ok = true := require_ok h

/-- The first of a row of tests that fails. -/
theorem firstFault_map {l : List Nat} (ok : Nat → Bool) (place : Nat → Nat) :
    firstFault (l.map fun k => fieldCheck (ok k) (place k)) = (l.find? fun k => !ok k).map fun k => badDescriptor (place k) := by
  rw [firstFault, List.find?_map, Option.map_map]
  rfl

/-! ## Words and bytes -/

section
variable (r : Reading)

/-- A byte of a record at an offset that is a multiple of 4. -/
theorem byte_at {off : Nat} (h : off % 4 = 0) (c : Nat) : r.byte (off + c) = byteAt (r.content (off / 4 + c / 4)) (c % 4) := by
  rw [Reading.byte, show (off + c) / 4 = off / 4 + c / 4 by omega, show (off + c) % 4 = c % 4 by omega]

theorem byte_zero {off : Nat} (h : off % 4 = 0) : r.byte off = byteAt (r.content (off / 4)) 0 := byte_at r h 0

/-- The checks of a word all hold where it lies in local memory and is acknowledged. -/
theorem wordChecks_pass {w field : Nat} (good : r.env.failAt = none) (inside : r.base + 4 * w ≤ 0x0FFFFFFF) :
    ∀ c ∈ r.wordChecks w field, c.1 = true := by
  intro c hc
  simp only [Reading.wordChecks, List.mem_cons, List.not_mem_nil, or_false] at hc
  rcases hc with rfl | rfl
  · exact decide_eq_true inside
  · rw [acks, good, decide_eq_true (by simp), Bool.true_and, decide_eq_true_eq, Config.localBytes]
    omega

end

/-! ## Name fields (R1, R2) -/

section
variable {r : Reading} {off : Nat}

/-- The tests of the four bytes of word `j` of a name field. -/
def Reading.nameByteChecks (r : Reading) (off j : Nat) : Checks :=
  (List.range 4).map fun k =>
    fieldCheck (decide (1 ≤ 4 * j + k ∧ 4 * j + k ≤ (r.byte off).toNat →
      0x21 ≤ (r.byte (off + (4 * j + k))).toNat ∧ (r.byte (off + (4 * j + k))).toNat ≤ 0x7E)) (off + (4 * j + k))

/-- The bytes of word `j` of a name field, tested one after another. -/
theorem nameBytes_checked (aligned : off % 4 = 0) {α : Type} (j : Nat) {x : List (Nat × Byte) → Except Ending α} {cs : Checks}
    (then_ : Checked (x (nameBytesIn (r.byte off).toNat j (r.content (off / 4 + j)))) cs) :
    Checked (match (nameBytesIn (r.byte off).toNat j (r.content (off / 4 + j))).find? fun p => !isNameByte p.2 with
      | some p => .error (badDescriptor (off + p.1))
      | none => x (nameBytesIn (r.byte off).toNat j (r.content (off / 4 + j)))) (r.nameByteChecks off j ++ cs) := by
  have found : firstFault (r.nameByteChecks off j) =
      ((nameBytesIn (r.byte off).toNat j (r.content (off / 4 + j))).find? fun p => !isNameByte p.2).map
        fun p => badDescriptor (off + p.1) := by
    rw [Reading.nameByteChecks, firstFault_map, nameBytesIn, List.find?_filter, List.find?_map, Option.map_map]
    refine congrArg (Option.map fun k => badDescriptor (off + (4 * j + k))) (List.find?_congr fun k hk => ?_)
    have small := List.mem_range.mp hk
    have byte : r.byte (off + (4 * j + k)) = byteAt (r.content (off / 4 + j)) k := by
      rw [byte_at r aligned, show (4 * j + k) / 4 = j by omega, show (4 * j + k) % 4 = k by omega]
    rw [byte]
    by_cases h1 : 1 ≤ 4 * j + k <;> by_cases h2 : 4 * j + k ≤ (r.byte off).toNat <;>
      simp [isNameByte, h1, h2, ← decide_not]
  intro e
  rw [firstFault_append, found]
  cases (nameBytesIn (r.byte off).toNat j (r.content (off / 4 + j))).find? fun p => !isNameByte p.2 with
  | none => exact then_ e
  | some p => simp

theorem nameWords_checked (aligned : off % 4 = 0) : ∀ (n : Nat) (acc : List Byte), n ≤ 6 →
    Checked (r.nameWords off (r.byte off).toNat n acc)
      ((List.range' (7 - n) n).flatMap fun j => r.wordChecks (off / 4 + j) off ++ r.nameByteChecks off j)
  | 0, acc, _ => Checked.ok acc
  | n + 1, acc, h => by
    rw [show 7 - (n + 1) = 6 - n by omega, List.range'_succ, List.flatMap_cons, List.append_assoc,
      show 6 - n + 1 = 7 - n by omega]
    refine Checked.bind (word_checked r _ off) fun w read => ?_
    rw [word_ok read]
    exact nameBytes_checked aligned (6 - n) (x := fun here => r.nameWords off (r.byte off).toNat n (acc ++ here.map (·.2)))
      (nameWords_checked aligned n _ (by omega))

theorem name_checked (aligned : off % 4 = 0) : Checked (r.name off) (r.nameChecks off) := by
  have checks : r.nameChecks off = r.wordChecks (off / 4) off ++
      ([fieldCheck (decide (1 ≤ (r.byte off).toNat) && decide ((r.byte off).toNat ≤ 24)) off] ++ (r.nameByteChecks off 0 ++
        (List.range' 1 6).flatMap fun j => r.wordChecks (off / 4 + j) off ++ r.nameByteChecks off j)) := by
    have later : ∀ j ∈ List.range' 1 6, r.wordChecks (off / 4 + j) off
        ++ (if j = 0 then [fieldCheck (decide (1 ≤ (r.byte off).toNat ∧ (r.byte off).toNat ≤ 24)) off] else [])
        ++ r.nameByteChecks off j = r.wordChecks (off / 4 + j) off ++ r.nameByteChecks off j := fun j hj => by
      rw [if_neg (by have := List.mem_range'.mp hj; omega), List.append_nil]
    rw [← List.flatMap_congr later, ← Bool.decide_and]
    simp only [Reading.nameChecks, show List.range 7 = 0 :: List.range' 1 6 from rfl, List.flatMap_cons, List.append_assoc,
      if_true, Nat.add_zero, Reading.nameByteChecks]
  rw [checks]
  refine Checked.bind (word_checked r _ off) fun w read => ?_
  rw [word_ok read, ← byte_zero r aligned]
  refine Checked.bind (requireField_checked _ off) fun _ _ => ?_
  have rest := nameBytes_checked (r := r) aligned 0 (x := fun here => r.nameWords off (r.byte off).toNat 6 (here.map (·.2)))
    (nameWords_checked (r := r) aligned 6 _ (Nat.le_refl 6))
  rw [Nat.add_zero] at rest
  exact rest

theorem nameByte_eq (aligned : off % 4 = 0) (i : Nat) : r.nameByte off i = r.byte (off + 1 + i) := by
  rw [Reading.nameByte, show off + 1 + i = off + (i + 1) by omega, byte_at r aligned]

/-- A name field that is read holds the name. -/
theorem name_at (aligned : off % 4 = 0) {name : List Byte} (h : r.name off = .ok name) : r.NameAt off name := by
  obtain ⟨bytes, length, valid⟩ := name_ok h
  refine ⟨by rw [length, byte_zero r aligned], fun i b hb => ?_, valid⟩
  have inside : i < name.length := by
    by_contra outside
    rw [List.getElem?_eq_none (Nat.not_lt.mp outside)] at hb
    cases hb
  rw [bytes, List.getElem?_map, List.getElem?_range inside] at hb
  rw [← nameByte_eq aligned]
  exact Option.some.inj hb

/-- The name is that of its bytes. -/
theorem Reading.NameAt.bytes_eq {name : List Byte} (h : r.NameAt off name) :
    (List.range (r.byte off).toNat).map (fun i => r.byte (off + 1 + i)) = name := by
  refine List.ext_getElem (by simp [h.length]) fun i _ hi => ?_
  rw [List.getElem_map, List.getElem_range]
  exact h.bytes i _ (List.getElem?_eq_getElem hi)

theorem Reading.NameAt.unique {a b : List Byte} (ha : r.NameAt off a) (hb : r.NameAt off b) : a = b :=
  ha.bytes_eq.symm.trans hb.bytes_eq

theorem validName_iff (name : List Byte) : validName name = true ↔
    1 ≤ name.length ∧ name.length ≤ 24 ∧ ∀ b ∈ name, 0x21 ≤ b.toNat ∧ b.toNat ≤ 0x7E := by
  simp [validName, isNameByte, and_assoc]

/-- A good name field meets none of its faults. -/
theorem Reading.NameAt.checks_pass {name : List Byte} (h : r.NameAt off name) (aligned : off % 4 = 0) (good : r.env.failAt = none)
    (inside : r.base + off + 28 ≤ 0x10000000) : ∀ c ∈ r.nameChecks off, c.1 = true := by
  obtain ⟨least, most, bytes⟩ := (validName_iff name).mp h.valid
  intro c hc
  obtain ⟨j, hj, hc⟩ := List.mem_flatMap.mp hc
  have := List.mem_range.mp hj
  rw [List.mem_append, List.mem_append] at hc
  obtain (word | length) | byte := hc
  · exact wordChecks_pass r good (by omega) c word
  · split at length
    · rw [List.mem_singleton.mp length]
      exact decide_eq_true ⟨by rw [h.length]; exact least, by rw [h.length]; exact most⟩
    · cases length
  · obtain ⟨k, -, rfl⟩ := List.mem_map.mp byte
    refine decide_eq_true fun ⟨low, high⟩ => ?_
    rw [h.length] at high
    have at_ : r.byte (off + (4 * j + k)) = name[4 * j + k - 1] := by
      rw [← h.bytes (4 * j + k - 1) _ (List.getElem?_eq_getElem (by omega)), show off + 1 + (4 * j + k - 1) = off + (4 * j + k) by omega]
    rw [at_]
    exact bytes _ (List.getElem_mem _)

end

end Sys2Proof.Machine

/-! The records of a descriptor (R19 to R21): segments, exports, sites and imports, each read as its checks say and read to the
fields that stand at its offset. -/

namespace Sys2Proof.Machine

/-- A check that is made first. -/
theorem Checked.bindCheck {α β : Type} {x : Except Ending α} {f : α → Except Ending β} {c : Bool × Ending} {ds : Checks}
    (first : Checked x [c]) (then_ : ∀ a, x = .ok a → Checked (f a) ds) : Checked (x >>= f) (c :: ds) :=
  first.bind then_

/-- What a part reads is what a description names, where the description fixes it and keeps its checks. -/
theorem Checked.ok_iff {α : Type} {x : Except Ending α} {cs : Checks} (h : Checked x cs) {P : α → Prop}
    (sound : ∀ a, x = .ok a → P a) (passes : ∀ a, P a → ∀ c ∈ cs, c.1 = true) (unique : ∀ a b, P a → P b → a = b) (a : α) :
    x = .ok a ↔ P a := by
  refine ⟨sound a, fun ha => ?_⟩
  obtain ⟨b, hb⟩ := h.ok_of_passes ((firstFault_eq_none_iff cs).mpr (passes a ha))
  rw [hb, unique a b ha (sound b hb)]

theorem fieldCheck_pass {ok : Bool} {offset : Nat} (h : ok = true) : (fieldCheck ok offset).1 = true := h

theorem requireCode_ok {α : Type} {code : Option α} {offset : Nat} {a : α} (h : requireCode code offset = .ok a) : code = some a := by
  cases code with
  | none => cases h
  | some b =>
    cases h
    rfl

/-! ## Codes -/

theorem scopeOfCode_isSome (b : Byte) : (scopeOfCode b).isSome = decide (b = 1 ∨ b = 2) := by
  unfold scopeOfCode
  split_ifs with one two
  · simp [one]
  · simp [two]
  · exact (decide_eq_false (not_or.mpr ⟨one, two⟩)).symm

theorem kindOfCode_isSome (b : Byte) : (kindOfCode b).isSome = decide (b = 1 ∨ b = 2) := by
  unfold kindOfCode
  split_ifs with one two
  · simp [one]
  · simp [two]
  · exact (decide_eq_false (not_or.mpr ⟨one, two⟩)).symm

theorem expectedOfCode_isSome (b : Byte) : (expectedOfCode b).isSome = decide (1 ≤ b.toNat ∧ b.toNat ≤ 3) := by
  unfold expectedOfCode
  split_ifs with one two three
  · simp [one]
  · simp [two]
  · simp [three]
  · rw [Option.isSome_none, eq_comm, decide_eq_false_iff_not]
    have one := (byte_eq_iff b (n := 1) (by decide)).not.mp one
    have two := (byte_eq_iff b (n := 2) (by decide)).not.mp two
    have three := (byte_eq_iff b (n := 3) (by decide)).not.mp three
    omega

theorem formOfCode_isSome (b : Byte) : (formOfCode b).isSome = decide (1 ≤ b.toNat ∧ b.toNat ≤ 5) := by
  unfold formOfCode
  split_ifs with one two three four five
  · simp [one]
  · simp [two]
  · simp [three]
  · simp [four]
  · simp [five]
  · rw [Option.isSome_none, eq_comm, decide_eq_false_iff_not]
    have one := (byte_eq_iff b (n := 1) (by decide)).not.mp one
    have two := (byte_eq_iff b (n := 2) (by decide)).not.mp two
    have three := (byte_eq_iff b (n := 3) (by decide)).not.mp three
    have four := (byte_eq_iff b (n := 4) (by decide)).not.mp four
    have five := (byte_eq_iff b (n := 5) (by decide)).not.mp five
    omega

/-- The bytes of a site's location, by its form code (R6). -/
theorem formOfCode_size {b : Byte} {f : Form} (h : formOfCode b = some f) : f.size = if b.toNat = 1 ∨ b.toNat = 5 then 4 else 2 := by
  unfold formOfCode at h
  split_ifs at h with one two three four five <;> cases h <;> simp [Form.size, *]

/-- The fields of FLD are tested for FLD alone (R16, R21). -/
theorem fieldsOfForm_checked {b : Byte} {f : Form} (h : formOfCode b = some f) (w : Word) (off : Nat) :
    Checked (fieldsOfForm f w off)
      [fieldCheck (decide (b.toNat = 5 → (byteAt w 0).toNat ≤ 31)) (off + 0x08),
       fieldCheck (decide (b.toNat = 5 → 1 ≤ (byteAt w 1).toNat ∧ (byteAt w 1).toNat ≤ 32 ∧
        (byteAt w 0).toNat + (byteAt w 1).toNat ≤ 32)) (off + 0x09),
       fieldCheck (decide (b.toNat = 5 → (byteAt w 2).toNat ≤ 15)) (off + 0x0A)] := by
  by_cases fld : b.toNat = 5
  · have five : b = 5 := (byte_eq_iff b (n := 5) (by decide)).mpr fld
    subst five
    cases h
    simp only [fld, true_imp_iff]
    refine Checked.bindCheck (requireField_checked _ _) fun _ _ => ?_
    rw [Bool.decide_and, Bool.decide_and, ← Bool.and_assoc]
    refine Checked.bindCheck (requireField_checked _ _) fun _ _ => ?_
    exact (requireField_checked _ _).map _
  · simp only [fld, false_imp_iff, decide_true]
    have plain : fieldsOfForm f w off = .ok f := by
      unfold formOfCode at h
      split_ifs at h with one two three four five
      iterate 4
        cases h
        rfl
      exact absurd ((byte_eq_iff b (n := 5) (by decide)).mp five) fld
    rw [plain]
    exact Checked.check (fun h => nomatch h) fun _ => Checked.check (fun h => nomatch h) fun _ =>
      Checked.check (fun h => nomatch h) fun _ => Checked.ok f

section
variable {r : Reading} {segments : List Segment} {off : Nat}

/-! ## Segments (R6, R19) -/

theorem segment_checked (r : Reading) (off : Nat) : Checked (r.segment off) (r.segmentChecks off) := by
  rw [Reading.segmentChecks, List.append_assoc]
  refine Checked.bind (word_checked r _ _) fun base hb => Checked.bind (word_checked r _ _) fun length hl => ?_
  rw [word_ok hb, word_ok hl, Bool.decide_and]
  exact (requireField_and_checked _ _ off).map fun _ => _

theorem segment_ok {g : Segment} (h : r.segment off = .ok g) :
    g.base = r.content (off / 4) ∧ g.length = r.content (off / 4 + 1) ∧ 1 ≤ g.length.toNat ∧
      g.length.toNat ≤ 16777216 ∧ g.base.toNat + g.length.toNat ≤ 0x10000000 := by
  unfold Reading.segment at h
  obtain ⟨base, hb, h⟩ := bind_ok h
  obtain ⟨length, hl, h⟩ := bind_ok h
  obtain ⟨_, fits, h⟩ := bind_ok h
  cases h
  have fits := requireField_ok fits
  simp only [Bool.and_eq_true, decide_eq_true_eq] at fits
  obtain ⟨⟨least, most⟩, inside⟩ := fits
  exact ⟨word_ok hb, word_ok hl, least, most, inside⟩

theorem segment_ok_iff (good : r.env.failAt = none) (aligned : off % 4 = 0) (inside : r.base + off + 8 ≤ 0x10000000) (g : Segment) :
    r.segment off = .ok g ↔
      g.base = r.content (off / 4) ∧ g.length = r.content (off / 4 + 1) ∧ 1 ≤ g.length.toNat ∧
        g.length.toNat ≤ 16777216 ∧ g.base.toNat + g.length.toNat ≤ 0x10000000 := by
  refine (segment_checked r off).ok_iff (P := fun g : Segment => _) (fun _ => segment_ok) ?_ ?_ g
  · intro g ⟨base, length, least, most, fits⟩ c hc
    rw [base, length] at fits
    rw [length] at least most
    simp only [Reading.segmentChecks, List.mem_append, List.mem_cons, List.not_mem_nil, or_false] at hc
    obtain (hc | hc) | rfl | rfl := hc
    · exact wordChecks_pass r good (by omega) c hc
    · exact wordChecks_pass r good (by omega) c hc
    · exact decide_eq_true ⟨least, most⟩
    · exact decide_eq_true fits
  · intro a b ⟨abase, alength, _⟩ ⟨bbase, blength, _⟩
    cases a
    cases b
    cases abase.trans bbase.symm
    cases alength.trans blength.symm
    rfl

/-! ## Export records (R20) -/

theorem exportRecord_checked (aligned : off % 4 = 0) : Checked (r.exportRecord segments off) (r.exportChecks segments off) := by
  simp only [Reading.exportChecks, List.append_assoc, List.cons_append, List.nil_append]
  refine Checked.bind (name_checked aligned) fun name _ => Checked.bind (word_checked r _ _) fun w hw => ?_
  rw [word_ok hw]
  have scope : r.byte (off + 0x1C) = byteAt (r.content (off / 4 + 7)) 0 := byte_at r aligned 0x1C
  have kind : r.byte (off + 0x1D) = byteAt (r.content (off / 4 + 7)) 1 := byte_at r aligned 0x1D
  have segment : r.byte (off + 0x1E) = byteAt (r.content (off / 4 + 7)) 2 := byte_at r aligned 0x1E
  rw [scope, kind, segment, ← scopeOfCode_isSome, ← kindOfCode_isSome]
  refine Checked.bindCheck (requireCode_checked _ _) fun _ _ => Checked.bindCheck (requireCode_checked _ _) fun _ _ =>
    Checked.bindCheck (requireCode_checked _ _) fun g hg => Checked.bind (word_checked r _ _) fun offset ho => ?_
  rw [word_ok ho, requireCode_ok hg, Option.all_some]
  exact (requireField_checked _ _).map _

theorem exportRecord_ok (aligned : off % 4 = 0) {x : ExportRecord} (h : r.exportRecord segments off = .ok x) :
    r.NameAt off x.name ∧ scopeOfCode (r.byte (off + 0x1C)) = some x.scope ∧
      kindOfCode (r.byte (off + 0x1D)) = some x.kind ∧ segments[(r.byte (off + 0x1E)).toNat]? = some x.segment ∧
      x.offset = r.content (off / 4 + 8) ∧ x.offset.toNat < x.segment.length.toNat := by
  unfold Reading.exportRecord at h
  obtain ⟨name, named, h⟩ := bind_ok h
  obtain ⟨w, hw, h⟩ := bind_ok h
  obtain ⟨scope, scopedBy, h⟩ := bind_ok h
  obtain ⟨kind, kinded, h⟩ := bind_ok h
  obtain ⟨segment, segmented, h⟩ := bind_ok h
  obtain ⟨offset, ho, h⟩ := bind_ok h
  obtain ⟨_, fits, h⟩ := bind_ok h
  cases h
  rw [word_ok hw] at scopedBy kinded segmented
  rw [byte_at r aligned 0x1C, byte_at r aligned 0x1D, byte_at r aligned 0x1E]
  exact ⟨name_at aligned named, requireCode_ok scopedBy, requireCode_ok kinded, requireCode_ok segmented, word_ok ho,
    of_decide_eq_true (requireField_ok fits)⟩

theorem exportRecord_ok_iff (good : r.env.failAt = none) (aligned : off % 4 = 0) (inside : r.base + off + 36 ≤ 0x10000000)
    (x : ExportRecord) : r.exportRecord segments off = .ok x ↔
      r.NameAt off x.name ∧ scopeOfCode (r.byte (off + 0x1C)) = some x.scope ∧
        kindOfCode (r.byte (off + 0x1D)) = some x.kind ∧ segments[(r.byte (off + 0x1E)).toNat]? = some x.segment ∧
        x.offset = r.content (off / 4 + 8) ∧ x.offset.toNat < x.segment.length.toNat := by
  refine (exportRecord_checked aligned).ok_iff (P := fun x : ExportRecord => _) (fun _ => exportRecord_ok aligned) ?_ ?_ x
  · intro x ⟨name, scope, kind, segment, offset, fits⟩ c hc
    have kinds := kindOfCode_isSome (r.byte (off + 0x1D))
    rw [kind] at kinds
    simp only [Reading.exportChecks, ← scopeOfCode_isSome (r.byte (off + 0x1C)), scope, ← kinds, segment, Option.isSome_some,
      Option.all_some, ← offset, decide_eq_true fits,
      List.mem_append, List.mem_cons, List.not_mem_nil, or_false, or_assoc] at hc
    obtain hc | hc | rfl | rfl | rfl | hc | rfl := hc
    · exact name.checks_pass aligned good (by omega) c hc
    · exact wordChecks_pass r good (by omega) c hc
    · rfl
    · rfl
    · rfl
    · exact wordChecks_pass r good (by omega) c hc
    · rfl
  · intro a b ⟨aname, ascope, akind, asegment, aoffset, _⟩ ⟨bname, bscope, bkind, bsegment, boffset, _⟩
    cases a
    cases b
    cases aname.unique bname
    cases ascope.symm.trans bscope
    cases akind.symm.trans bkind
    cases asegment.symm.trans bsegment
    cases aoffset.trans boffset.symm
    rfl

/-! ## Site records (R16, R21) -/

theorem site_checked (aligned : off % 4 = 0) : Checked (r.site segments off) (r.siteChecks segments off) := by
  simp only [Reading.siteChecks, List.append_assoc, List.cons_append, List.nil_append]
  have index : r.byte (off + 0x01) = byteAt (r.content (off / 4)) 1 := byte_at r aligned 0x01
  have position : r.byte (off + 0x08) = byteAt (r.content (off / 4 + 2)) 0 := byte_at r aligned 0x08
  have width : r.byte (off + 0x09) = byteAt (r.content (off / 4 + 2)) 1 := byte_at r aligned 0x09
  have shift : r.byte (off + 0x0A) = byteAt (r.content (off / 4 + 2)) 2 := byte_at r aligned 0x0A
  rw [byte_zero r aligned, index, position, width, shift, ← formOfCode_isSome]
  refine Checked.bind (word_checked r _ _) fun w hw => ?_
  rw [word_ok hw]
  refine Checked.bindCheck (requireCode_checked _ _) fun form formed =>
    Checked.bindCheck (requireCode_checked _ _) fun g hg => Checked.bind (word_checked r _ _) fun offset ho => ?_
  rw [word_ok ho, requireCode_ok hg, Option.all_some, Option.all_some, formOfCode_size (requireCode_ok formed)]
  refine Checked.bindCheck (requireField_checked _ _) fun _ _ => Checked.bindCheck (requireField_checked _ _) fun _ _ =>
    Checked.bind (word_checked r _ _) fun fields hf => ?_
  rw [word_ok hf]
  exact Checked.bind (fieldsOfForm_checked (requireCode_ok formed) _ off) fun f _ => (word_checked r _ _).map _

/-- The form of the site record at `off`. -/
def Reading.formAt (r : Reading) (off : Nat) : Form :=
  if r.byte off = 1 then .a32 else if r.byte off = 2 then .hi16 else if r.byte off = 3 then .lo16
  else if r.byte off = 4 then .d16 else .fld (r.byte (off + 8)).toNat (r.byte (off + 9)).toNat (r.byte (off + 10)).toNat

theorem Reading.SiteAt.form_eq {x : Site} (h : r.SiteAt segments off x) : x.form = r.formAt off := by
  have form := h.form
  unfold Reading.formAt
  split at form
  · next e => rw [e, form]; rfl
  · next e => rw [e, form]; rfl
  · next e => rw [e, form]; rfl
  · next e => rw [e, form]; rfl
  · next e =>
    obtain ⟨code, position, width, shift, -⟩ := form
    rw [e, code, position, width, shift]
    rfl

theorem Reading.SiteAt.unique {x y : Site} (hx : r.SiteAt segments off x) (hy : r.SiteAt segments off y) : x = y := by
  have form := hx.form_eq.trans hy.form_eq.symm
  have index := hx.index.symm.trans hy.index
  have offset := hx.offset.trans hy.offset.symm
  have addend := hx.addend.trans hy.addend.symm
  obtain ⟨g, hg, -, xaddress, -⟩ := hx.place
  obtain ⟨g', hg', -, yaddress, -⟩ := hy.place
  rw [← index, hg] at hg'
  cases hg'
  rw [offset, ← yaddress] at xaddress
  cases x
  cases y
  subst form index offset addend xaddress
  rfl

/-- What the form code of a good site is, and which tests of FLD it keeps. -/
theorem Reading.SiteAt.code {x : Site} (h : r.SiteAt segments off x) : (1 ≤ (r.byte off).toNat ∧ (r.byte off).toNat ≤ 5) ∧
    x.form.size = (if (r.byte off).toNat = 1 ∨ (r.byte off).toNat = 5 then 4 else 2) ∧
    ((r.byte off).toNat = 5 → 1 ≤ (r.byte (off + 9)).toNat ∧ (r.byte (off + 8)).toNat + (r.byte (off + 9)).toNat ≤ 32 ∧
      (r.byte (off + 10)).toNat ≤ 15) := by
  have form := h.form
  split at form
  · next e => rw [e, form]; exact ⟨by decide, rfl, fun five => absurd five (by decide)⟩
  · next e => rw [e, form]; exact ⟨by decide, rfl, fun five => absurd five (by decide)⟩
  · next e => rw [e, form]; exact ⟨by decide, rfl, fun five => absurd five (by decide)⟩
  · next e => rw [e, form]; exact ⟨by decide, rfl, fun five => absurd five (by decide)⟩
  · next e =>
    obtain ⟨code, position, width, shift, least, inside, small⟩ := form
    rw [e, code]
    exact ⟨by decide, rfl, fun _ => ⟨by omega, by omega, by omega⟩⟩

/-- What the fields of a form that is read say of it. -/
theorem fieldsOfForm_ok {b : Byte} {f f' : Form} {w : Word} (h : formOfCode b = some f) : fieldsOfForm f w off = .ok f' →
    f'.size = f.size ∧ match f' with
    | .a32 => b = 1
    | .hi16 => b = 2
    | .lo16 => b = 3
    | .d16 => b = 4
    | .fld p n sh => b = 5 ∧ (byteAt w 0).toNat = p ∧ (byteAt w 1).toNat = n ∧ (byteAt w 2).toNat = sh ∧
        1 ≤ n ∧ p + n ≤ 32 ∧ sh ≤ 15 := by
  intro fields
  unfold formOfCode at h
  split_ifs at h with one two three four five
  · cases h; cases fields; exact ⟨rfl, one⟩
  · cases h; cases fields; exact ⟨rfl, two⟩
  · cases h; cases fields; exact ⟨rfl, three⟩
  · cases h; cases fields; exact ⟨rfl, four⟩
  · cases h
    unfold fieldsOfForm at fields
    obtain ⟨_, -, fields⟩ := bind_ok fields
    obtain ⟨_, wide, fields⟩ := bind_ok fields
    obtain ⟨_, small, fields⟩ := bind_ok fields
    cases fields
    have wide := requireField_ok wide
    simp only [Bool.and_eq_true, decide_eq_true_eq] at wide
    obtain ⟨⟨least, -⟩, inside⟩ := wide
    exact ⟨rfl, five, rfl, rfl, rfl, least, inside, of_decide_eq_true (requireField_ok small)⟩

theorem site_ok (aligned : off % 4 = 0) {x : Site} (h : r.site segments off = .ok x) : r.SiteAt segments off x := by
  unfold Reading.site at h
  obtain ⟨w, hw, h⟩ := bind_ok h
  obtain ⟨form, formed, h⟩ := bind_ok h
  obtain ⟨g, hg, h⟩ := bind_ok h
  obtain ⟨offset, ho, h⟩ := bind_ok h
  obtain ⟨_, fits, h⟩ := bind_ok h
  obtain ⟨_, whole, h⟩ := bind_ok h
  obtain ⟨fields, hf, h⟩ := bind_ok h
  obtain ⟨form', fielded, h⟩ := bind_ok h
  obtain ⟨addend, ha, h⟩ := bind_ok h
  cases h
  rw [word_ok hw, ← byte_zero r aligned] at formed
  rw [word_ok hf] at fielded
  obtain ⟨size, code⟩ := fieldsOfForm_ok (requireCode_ok formed) fielded
  have position : r.byte (off + 8) = byteAt (r.content (off / 4 + 2)) 0 := byte_at r aligned 8
  have width : r.byte (off + 9) = byteAt (r.content (off / 4 + 2)) 1 := byte_at r aligned 9
  have shift : r.byte (off + 10) = byteAt (r.content (off / 4 + 2)) 2 := byte_at r aligned 10
  have index : r.byte (off + 1) = byteAt (r.content (off / 4)) 1 := byte_at r aligned 1
  refine ⟨?_, by rw [index, word_ok hw], word_ok ho, word_ok ha, g, requireCode_ok hg, ?_, rfl, ?_⟩
  · rw [position, width, shift]
    exact code
  · rw [size]
    exact of_decide_eq_true (requireField_ok fits)
  · rw [size]
    exact of_decide_eq_true (requireField_ok whole)

theorem Reading.SiteAt.checks_pass {x : Site} (h : r.SiteAt segments off x) (aligned : off % 4 = 0) (good : r.env.failAt = none)
    (inside : r.base + off + 16 ≤ 0x10000000) : ∀ c ∈ r.siteChecks segments off, c.1 = true := by
  obtain ⟨code, size, fld⟩ := h.code
  obtain ⟨g, hg, fits, address, whole⟩ := h.place
  intro c hc
  simp only [Reading.siteChecks, ← size, ← h.offset, h.index, hg, Option.isSome_some, Option.all_some, ← address,
    List.mem_append, List.mem_cons, List.not_mem_nil, or_false, or_assoc] at hc
  obtain hc | rfl | rfl | hc | rfl | rfl | hc | rfl | rfl | rfl | hc := hc
  · exact wordChecks_pass r good (by omega) c hc
  · exact decide_eq_true code
  · rfl
  · exact wordChecks_pass r good (by omega) c hc
  · exact decide_eq_true fits
  · exact decide_eq_true whole
  · exact wordChecks_pass r good (by omega) c hc
  · exact decide_eq_true fun five => by have := fld five; omega
  · exact decide_eq_true fun five => by have := fld five; omega
  · exact decide_eq_true fun five => by have := fld five; omega
  · exact wordChecks_pass r good (by omega) c hc

theorem site_ok_iff (good : r.env.failAt = none) (aligned : off % 4 = 0) (inside : r.base + off + 16 ≤ 0x10000000) (x : Site) :
    r.site segments off = .ok x ↔ r.SiteAt segments off x :=
  (site_checked aligned).ok_iff (fun _ => site_ok aligned) (fun _ h => h.checks_pass aligned good inside) (fun _ _ ha hb => ha.unique hb) x

/-! ## Import records (R21) -/

theorem sites_checked (r : Reading) (segments : List Segment) : ∀ (n off : Nat), off % 4 = 0 →
    Checked (r.sites segments off n) ((List.range n).flatMap fun i => r.siteChecks segments (off + 16 * i))
  | 0, _, _ => Checked.ok []
  | n + 1, off, aligned => by
    have later : (List.range n).flatMap (fun i => r.siteChecks segments (off + 16 * (i + 1))) =
        (List.range n).flatMap fun i => r.siteChecks segments (off + 16 + 16 * i) :=
      List.flatMap_congr fun i _ => by rw [show off + 16 * (i + 1) = off + 16 + 16 * i by omega]
    rw [List.range_succ_eq_map, List.flatMap_cons, List.flatMap_map, Nat.mul_zero, Nat.add_zero]
    refine Checked.bind (site_checked aligned) fun x _ => ?_
    exact ((sites_checked r segments n (off + 16) (by omega)).map _).of_eq later.symm

theorem sites_ok : ∀ {n off : Nat} {xs : List Site}, off % 4 = 0 → r.sites segments off n = .ok xs →
    xs.length = n ∧ ∀ (i : Nat) (y : Site), xs[i]? = some y → r.SiteAt segments (off + 16 * i) y
  | 0, _, xs, _, h => by
    cases h
    exact ⟨rfl, fun i y hy => nomatch hy⟩
  | n + 1, off, xs, aligned, h => by
    unfold Reading.sites at h
    obtain ⟨x, hx, h⟩ := bind_ok h
    obtain ⟨rest, hr, h⟩ := bind_ok h
    cases h
    obtain ⟨length, at_⟩ := sites_ok (by omega) hr
    refine ⟨by rw [List.length_cons, length], fun i y hy => ?_⟩
    cases i with
    | zero =>
      cases hy
      exact site_ok aligned hx
    | succ i =>
      rw [show off + 16 * (i + 1) = off + 16 + 16 * i by omega]
      exact at_ i y hy

theorem importRecord_checked (aligned : off % 4 = 0) : Checked (r.importRecord segments off) (r.importChecks segments off) := by
  simp only [Reading.importChecks, List.append_assoc, List.cons_append, List.nil_append]
  refine Checked.bind (name_checked aligned) fun name _ => Checked.bind (word_checked r _ _) fun w hw => ?_
  rw [word_ok hw]
  have scope : r.byte (off + 0x1C) = byteAt (r.content (off / 4 + 7)) 0 := byte_at r aligned 0x1C
  have kind : r.byte (off + 0x1D) = byteAt (r.content (off / 4 + 7)) 1 := byte_at r aligned 0x1D
  have count : r.siteCount off = (byteAt (r.content (off / 4 + 7)) 2).toNat := congrArg BitVec.toNat (byte_at r aligned 0x1E)
  rw [scope, kind, count, ← scopeOfCode_isSome, ← expectedOfCode_isSome, Bool.decide_and]
  refine Checked.bindCheck (requireCode_checked _ _) fun _ _ => Checked.bindCheck (requireCode_checked _ _) fun _ _ =>
    Checked.bindCheck (requireField_checked _ _) fun _ _ => ?_
  exact (sites_checked r segments _ (off + 32) (by omega)).map _

theorem importRecord_ok (aligned : off % 4 = 0) {x : ImportRecord} (h : r.importRecord segments off = .ok x) :
    r.NameAt off x.name ∧ scopeOfCode (r.byte (off + 0x1C)) = some x.scope ∧
      expectedOfCode (r.byte (off + 0x1D)) = some x.expected ∧ (r.byte (off + 0x1E)).toNat = x.sites.length ∧
      1 ≤ x.sites.length ∧ x.sites.length ≤ 64 ∧
      ∀ (i : Nat) (y : Site), x.sites[i]? = some y → r.SiteAt segments (off + 32 + 16 * i) y := by
  unfold Reading.importRecord at h
  obtain ⟨name, named, h⟩ := bind_ok h
  obtain ⟨w, hw, h⟩ := bind_ok h
  obtain ⟨scope, scopedBy, h⟩ := bind_ok h
  obtain ⟨expected, expect, h⟩ := bind_ok h
  obtain ⟨_, some_, h⟩ := bind_ok h
  obtain ⟨sites, sited, h⟩ := bind_ok h
  cases h
  have some_ := requireField_ok some_
  simp only [Bool.and_eq_true, decide_eq_true_eq] at some_
  obtain ⟨least, most⟩ := some_
  obtain ⟨length, at_⟩ := sites_ok (by omega) sited
  rw [word_ok hw] at scopedBy expect
  rw [byte_at r aligned 0x1C, byte_at r aligned 0x1D, byte_at r aligned 0x1E, length, word_ok hw]
  rw [word_ok hw] at least most
  exact ⟨name_at aligned named, requireCode_ok scopedBy, requireCode_ok expect, rfl, least, most, at_⟩

theorem importRecord_ok_iff (good : r.env.failAt = none) (aligned : off % 4 = 0) (x : ImportRecord)
    (inside : r.base + off + 32 + 16 * x.sites.length ≤ 0x10000000) : r.importRecord segments off = .ok x ↔
      r.NameAt off x.name ∧ scopeOfCode (r.byte (off + 0x1C)) = some x.scope ∧
        expectedOfCode (r.byte (off + 0x1D)) = some x.expected ∧ (r.byte (off + 0x1E)).toNat = x.sites.length ∧
        1 ≤ x.sites.length ∧ x.sites.length ≤ 64 ∧
        ∀ (i : Nat) (y : Site), x.sites[i]? = some y → r.SiteAt segments (off + 32 + 16 * i) y := by
  refine ⟨importRecord_ok aligned, fun ⟨name, scope, expected, count, least, most, sites⟩ => ?_⟩
  have passes : ∀ c ∈ r.importChecks segments off, c.1 = true := by
    intro c hc
    simp only [Reading.importChecks, Reading.siteCount, count, ← scopeOfCode_isSome, ← expectedOfCode_isSome, scope, expected,
      Option.isSome_some, List.mem_append, List.mem_cons, List.not_mem_nil, or_false, or_assoc] at hc
    obtain hc | hc | rfl | rfl | rfl | hc := hc
    · exact name.checks_pass aligned good (by omega) c hc
    · exact wordChecks_pass r good (by omega) c hc
    · rfl
    · rfl
    · exact decide_eq_true ⟨least, most⟩
    · obtain ⟨i, hi, hc⟩ := List.mem_flatMap.mp hc
      have hi := List.mem_range.mp hi
      exact (sites i _ (List.getElem?_eq_getElem hi)).checks_pass (by omega) good (by omega) c hc
  obtain ⟨y, hy⟩ := (importRecord_checked aligned).ok_of_passes ((firstFault_eq_none_iff _).mpr passes)
  obtain ⟨name', scope', expected', count', -, -, sites'⟩ := importRecord_ok aligned hy
  have same : y.sites = x.sites := by
    refine List.ext_getElem (count'.symm.trans count) fun i hi hj => ?_
    exact (sites' i _ (List.getElem?_eq_getElem hi)).unique (sites i _ (List.getElem?_eq_getElem hj))
  rw [hy]
  cases x
  cases y
  cases name'.unique name
  cases scope'.symm.trans scope
  cases expected'.symm.trans expected
  cases same
  rfl

end

/-! ## The records of the commit pass (R25, R26, R29) -/

section
variable {s : State} {r : Reading} {segments : List Segment} {off : Nat}

theorem scope_of_code {b : Byte} {scope : Scope} (h : scopeOfCode b = some scope) : (if b = 2 then Scope.group else .common) = scope := by
  unfold scopeOfCode at h
  split_ifs at h with one two
  · cases h
    rw [if_neg (by rw [one]; decide)]
  · cases h
    rw [if_pos two]

/-- The key of an export record that is read. -/
theorem exportKey_eq (aligned : off % 4 = 0) {x : ExportRecord} (h : r.exportRecord segments off = .ok x) :
    s.exportKey r off = s.keyOf x.scope x.name := by
  obtain ⟨name, scope, -⟩ := exportRecord_ok aligned h
  rw [State.exportKey, State.keyOf, name.bytes_eq, scope_of_code scope]

/-- An export record with its key, against the keys of the records before it. -/
theorem checkedExport_checked (aligned : off % 4 = 0) (places : List Nat) (earlier : List Key)
    (same : places.map (s.exportKey r) = earlier) :
    Checked (s.checkedExport r segments off earlier) (r.exportChecks segments off ++ [s.keyCheck r places off]) := by
  refine Checked.bind (exportRecord_checked aligned) fun x hx => ?_
  have free : (!(earlier.any fun e => e.agrees (s.keyOf x.scope x.name)) && !(s.directory.any fun e => e.key.agrees (s.keyOf x.scope x.name)))
      = decide ((∀ o ∈ places, (s.exportKey r o).agrees (s.exportKey r off) = false) ∧
        ∀ e ∈ s.directory, e.key.agrees (s.exportKey r off) = false) := by
    rw [← same, exportKey_eq aligned hx, Bool.eq_iff_iff]
    simp
  rw [State.keyCheck, ← free]
  exact (require_checked _ _).map _

end

section
variable {s : State} {tag : Half} {m : Byte} {i j off sum : Nat} {rec : ModuleRecord}
  (command : s.command = some (.loadCommit tag m i j off sum)) (module : s.module? m = some rec) (wanted : s.wanted = [])
include command module wanted

/-- The next record of the commit pass is an export record (R25). -/
theorem readCommit_export (env : Env) (exports : i < rec.exportCount) : (s.forTransfers env).readCommit env =
    some ((s.forTransfers env).checkedExport (s.recordReading env rec off) rec.segments off [] >>= fun x => .ok (.exported x)) := by
  have wanted' : (s.forTransfers env).wanted = [] := wanted
  have module' : (s.forTransfers env).module? m = some rec := module
  have command' : (s.forTransfers env).command = _ := command
  unfold State.readCommit
  rw [command']
  simp only [module']
  rw [if_neg (not_not_intro wanted'), if_pos exports]
  rfl

/-- The next record of the commit pass is an import record (R26). -/
theorem readCommit_import (env : Env) (exports : rec.exportCount ≤ i) (imports : j < rec.importCount) :
    (s.forTransfers env).readCommit env = some ((s.recordReading env rec off).importRecord rec.segments off >>= fun x =>
      requireField (decide (sum + x.sites.length ≤ rec.siteCount)) (off + 0x1E) >>= fun _ => .ok (.imported x)) := by
  have wanted' : (s.forTransfers env).wanted = [] := wanted
  have module' : (s.forTransfers env).module? m = some rec := module
  have command' : (s.forTransfers env).command = _ := command
  unfold State.readCommit
  rw [command']
  simp only [module']
  rw [if_neg (not_not_intro wanted'), if_neg (Nat.not_lt.mpr exports), if_pos imports]
  rfl

end

/-- Settles O32: the three families of records, read and checked, and the records of the commit pass. -/
theorem descriptorRecords : Obligations.DescriptorRecords := by
  refine ⟨fun r segments off good aligned => ⟨fun g inside => ?_, fun x inside => ?_, fun x inside => ?_, fun x inside => ?_⟩,
    fun r segments off e aligned => ⟨?_, ?_, ?_, ?_⟩, fun s env tag m i j off sum rec e aligned command module wanted => ?_⟩
  · exact segment_ok_iff good aligned inside g
  · exact exportRecord_ok_iff good aligned inside x
  · exact site_ok_iff good aligned inside x
  · exact importRecord_ok_iff good aligned x inside
  · exact segment_checked r off e
  · exact exportRecord_checked aligned e
  · exact site_checked aligned e
  · exact importRecord_checked aligned e
  · refine ⟨fun exports => ?_, fun exports imports => ?_⟩
    · rw [readCommit_export command module wanted env exports, Option.some.injEq]
      exact (checkedExport_checked (s := s.forTransfers env) aligned [] [] rfl).map _ e
    · rw [readCommit_import command module wanted env exports imports, Option.some.injEq]
      refine Checked.bind (importRecord_checked aligned) (fun x hx => ?_) e
      obtain ⟨-, -, -, count, -⟩ := importRecord_ok aligned hx
      rw [Reading.siteCount, count]
      exact (requireField_checked _ _).map _

end Sys2Proof.Machine

/-! The first pass over a descriptor as its checks (R17 to R24), and the words of the head that a step leaves it with (R169, R182). -/

namespace Sys2Proof.Machine

/-! ## The parts of a first pass -/

section
variable {r : Reading} {segments : List Segment} {off : Nat}

theorem segments_checked (r : Reading) : ∀ (n off : Nat),
    Checked (r.segments off n) ((List.range n).flatMap fun i => r.segmentChecks (off + 8 * i))
  | 0, _ => Checked.ok []
  | n + 1, off => by
    have later : (List.range n).flatMap (fun i => r.segmentChecks (off + 8 * (i + 1))) =
        (List.range n).flatMap fun i => r.segmentChecks (off + 8 + 8 * i) :=
      List.flatMap_congr fun i _ => by rw [show off + 8 * (i + 1) = off + 8 + 8 * i by omega]
    rw [List.range_succ_eq_map, List.flatMap_cons, List.flatMap_map, Nat.mul_zero, Nat.add_zero]
    refine Checked.bind (segment_checked r off) fun g _ => ?_
    exact ((segments_checked r n (off + 8)).map _).of_eq later.symm

theorem segments_ok : ∀ {n off : Nat} {gs : List Segment}, r.segments off n = .ok gs →
    gs.length = n ∧ ∀ (i : Nat) (g : Segment), gs[i]? = some g → r.segment (off + 8 * i) = .ok g
  | 0, _, gs, h => by
    cases h
    exact ⟨rfl, fun i g hg => nomatch hg⟩
  | n + 1, off, gs, h => by
    unfold Reading.segments at h
    obtain ⟨g, hg, h⟩ := bind_ok h
    obtain ⟨rest, hr, h⟩ := bind_ok h
    cases h
    obtain ⟨length, at_⟩ := segments_ok hr
    refine ⟨by rw [List.length_cons, length], fun i x hx => ?_⟩
    cases i with
    | zero =>
      cases hx
      exact hg
    | succ i =>
      rw [show off + 8 * (i + 1) = off + 8 + 8 * i by omega]
      exact at_ i x hx

/-- The segment table of a descriptor, after the two words of its header (R15). -/
theorem segments_eq {n : Nat} {gs : List Segment} (h : r.segments 8 n = .ok gs) :
    gs = (List.range n).map fun i => { base := r.content (2 + 2 * i), length := r.content (3 + 2 * i) : Segment } := by
  obtain ⟨length, at_⟩ := segments_ok h
  refine List.ext_getElem (by simp [length]) fun i hi _ => ?_
  obtain ⟨base, len, -⟩ := segment_ok (at_ i _ (List.getElem?_eq_getElem hi))
  rw [show (8 + 8 * i) / 4 = 2 + 2 * i by omega] at base len
  rw [show 2 + 2 * i + 1 = 3 + 2 * i by omega] at len
  rw [List.getElem_map, List.getElem_range, ← base, ← len]

theorem checkExports_checked (s : State) (r : Reading) (segments : List Segment) : ∀ (n off : Nat) (places : List Nat)
    (earlier : List Key), off % 4 = 0 → places.map (s.exportKey r) = earlier →
    Checked (s.checkExports r segments off n earlier) ((List.range n).flatMap fun i =>
      r.exportChecks segments (off + 36 * i) ++ [s.keyCheck r (places ++ (List.range i).map fun k => off + 36 * k) (off + 36 * i)])
  | 0, _, _, _, _, _ => Checked.ok ()
  | n + 1, off, places, earlier, aligned, same => by
    have later : ∀ i, places ++ (List.range (i + 1)).map (fun k => off + 36 * k) =
        (places ++ [off]) ++ (List.range i).map fun k => off + 36 + 36 * k := fun i => by
      rw [List.range_succ_eq_map, List.map_cons, List.map_map, List.append_assoc]
      refine congrArg (places ++ ·) (congrArg (off :: ·) (List.map_congr_left fun k _ => ?_))
      change off + 36 * (k + 1) = _
      omega
    rw [List.range_succ_eq_map, List.flatMap_cons, List.flatMap_map]
    simp only [Nat.mul_zero, Nat.add_zero, List.range_zero, List.map_nil, List.append_nil, later]
    refine Checked.bind (checkedExport_checked aligned places earlier same) fun x hx => ?_
    have rest := checkExports_checked s r segments n (off + 36) (places ++ [off]) (earlier ++ [s.keyOf x.scope x.name]) (by omega) (by
      obtain ⟨x', hx', h⟩ := bind_ok hx
      obtain ⟨_, -, h⟩ := bind_ok h
      cases h
      rw [List.map_append, same, List.map_singleton, exportKey_eq aligned hx'])
    refine rest.of_eq (List.flatMap_congr fun i _ => ?_)
    rw [show off + 36 * (i + 1) = off + 36 + 36 * i by omega]

theorem checkImports_checked (r : Reading) (segments : List Segment) : ∀ (n off sum : Nat), off % 4 = 0 →
    Checked (checkImports r segments off n sum) ((r.importOffsets off n).flatMap fun o => r.importChecks segments o) ∧
      ∀ total, checkImports r segments off n sum = .ok total → total = sum + ((r.importOffsets off n).map r.siteCount).sum
  | 0, _, sum, _ => ⟨Checked.ok sum, fun total h => by cases h; rfl⟩
  | n + 1, off, sum, aligned => by
    have count : ∀ x, r.importRecord segments off = .ok x → x.sites.length = r.siteCount off := fun x hx => by
      obtain ⟨-, -, -, count, -⟩ := importRecord_ok aligned hx
      exact count.symm
    have next := fun sum => checkImports_checked r segments n (off + 32 + 16 * r.siteCount off) sum (by omega)
    rw [Reading.importOffsets, List.flatMap_cons, List.map_cons, List.sum_cons]
    refine ⟨Checked.bind (importRecord_checked aligned) fun x hx => ?_, fun total h => ?_⟩
    · rw [count x hx]
      exact (next _).1
    · obtain ⟨x, hx, h⟩ := bind_ok h
      rw [count x hx] at h
      rw [(next _).2 total h, Nat.add_assoc]

end

/-! ## The first pass (R17 to R24) -/

section
variable (s : State) (env : Env) (r : Reading)

theorem module?_isNone (id : Byte) : (s.module? id).isNone = decide (∀ m ∈ s.modules, m.id ≠ id) := by
  rw [Bool.eq_iff_iff, decide_eq_true_eq, State.module?, Option.isNone_iff_eq_none, List.find?_eq_none]
  simp

theorem firstPass_checked (d : Word) : Checked ((s.forReading env).firstPass r d) (s.firstPassChecks r) := by
  simp only [State.firstPassChecks, State.headerChecks, List.append_assoc, List.cons_append, List.nil_append]
  have b0 : r.byte 0 = byteAt (r.content 0) 0 := rfl
  have b1 : r.byte 1 = byteAt (r.content 0) 1 := rfl
  have b2 : r.byte 2 = byteAt (r.content 0) 2 := rfl
  have b3 : r.byte 3 = byteAt (r.content 0) 3 := rfl
  have b4 : r.byte 4 = byteAt (r.content 1) 0 := rfl
  have b5 : r.byte 5 = byteAt (r.content 1) 1 := rfl
  have b6 : r.byte 6 = byteAt (r.content 1) 2 := rfl
  have b7 : r.byte 7 = byteAt (r.content 1) 3 := rfl
  rw [b0, b1, b2, b3, b4, b5, b6, b7]
  have modules : s.otherModules = (s.forReading env).modules := rfl
  rw [modules, ← module?_isNone]
  refine Checked.bind (word_checked r 0 0) fun w0 h0 => ?_
  rw [word_ok h0]
  refine Checked.bindCheck (requireField_checked _ _) fun _ _ => Checked.bindCheck (require_checked _ _) fun _ _ =>
    Checked.bindCheck (require_checked _ _) fun _ _ => ?_
  rw [Bool.decide_and]
  refine Checked.bindCheck (requireField_checked _ _) fun _ _ => Checked.bindCheck (requireField_checked _ _) fun _ _ =>
    Checked.bindCheck (require_checked _ _) fun _ _ => Checked.bind (word_checked r 1 4) fun w1 h1 => ?_
  rw [word_ok h1]
  refine Checked.bindCheck (requireField_checked _ _) fun _ _ => Checked.bindCheck (require_checked _ _) fun _ _ =>
    Checked.bindCheck (requireField_checked _ _) fun _ _ => Checked.bindCheck (require_checked _ _) fun _ _ => ?_
  refine Checked.bind (segments_checked r _ 8) fun gs hgs => ?_
  rw [segments_eq hgs]
  refine Checked.bind ((checkExports_checked (s.forReading env) r _ _ _ [] [] (by omega) rfl).of_eq ?_) fun _ _ => ?_
  · rfl
  obtain ⟨checks, total⟩ := checkImports_checked r ((List.range (byteAt (r.content 0) 1).toNat).map fun i =>
    { base := r.content (2 + 2 * i), length := r.content (3 + 2 * i) : Segment }) (halfOf (byteAt (r.content 1) 0) (byteAt (r.content 1) 1)).toNat
    (8 + 8 * (byteAt (r.content 0) 1).toNat + 36 * (halfOf (byteAt (r.content 0) 2) (byteAt (r.content 0) 3)).toNat) 0 (by omega)
  refine Checked.bind checks fun sum hsum => ?_
  rw [total sum hsum, Nat.zero_add]
  exact (requireField_checked _ _).map _

end

end Sys2Proof.Machine

/-! LOAD (R17 to R24): its first pass read to the end, ended by the first fault, or left between two words. -/

namespace Sys2Proof.Machine

/-! ## Where the first fault is -/

/-- A list of checks whose first fault has a property: the head fails and has it, or the first fault of the rest has it. -/
theorem firstFault_walk {P : Ending → Prop} {ok : Bool} {e : Ending} {cs : Checks} (h : ∀ f, firstFault ((ok, e) :: cs) = some f → P f) :
    (ok = false → P e) ∧ (ok = true → ∀ f, firstFault cs = some f → P f) := by
  refine ⟨fun fails => h e ?_, fun passes f hf => h f ?_⟩
  · rw [fails]
    rfl
  · rw [passes]
    exact hf

/-- A pass that ends with READ-ERROR has passed every check before it that ends otherwise. -/
theorem firstFault_passed {ok : Bool} {e f : Ending} {cs : Checks} (h : firstFault ((ok, e) :: cs) = some f)
    (other : ok = false → e.status ≠ f.status) : ok = true ∧ firstFault cs = some f := by
  cases ok with
  | true => exact ⟨rfl, h⟩
  | false =>
    cases h
    exact absurd rfl (other rfl)

/-! ## A first pass that is read to its end -/

section
variable {s : State} {env : Env} {a d : Word}

theorem arguments_load (s : State) (env : Env) (a : Word) : s.arguments env a .load = [s.blockWord env a 1] := rfl

/-- LOAD taken in ACTIVE (R17). -/
theorem State.Holds.exec_load (h : s.Holds env a .load) (active : s.station = .active) : exec (.load env) s =
    .next (((s.forReading env).beginLoad env (s.tagAt env a) [s.blockWord env a 1]).endFetch.served .commandEngine) := by
  refine congrArg Host.Outcome.next ((h.runCommand _).trans ?_)
  rw [active]
  rfl

theorem State.Holds.load_error (h : s.Holds env a .load) (active : s.station = .active) {e : Ending}
    (fault : (s.forReading env).loadFirstPass env [s.blockWord env a 1] = .error e) :
    exec (.load env) s = .next (s.ended env (s.tagAt env a) e.status e.detail) := by
  rw [h.exec_load active, State.beginLoad, fault]
  exact congrArg Host.Outcome.next (endCommand_forReading s env _ _ _)

theorem loadFirstPass_bad (bad : d.toNat % 4 ≠ 0 ∨ 0x0FFFFFFF < d.toNat) :
    (s.forReading env).loadFirstPass env [d] = .error { status := .badCommand, detail := 0 } := by
  exact if_pos bad

theorem loadFirstPass_good (aligned : d.toNat % 4 = 0) (inside : d.toNat ≤ 0x0FFFFFFF) :
    (s.forReading env).loadFirstPass env [d] = (s.forReading env).firstPass (s.descriptorReading env d) d := by
  exact if_neg (by simp only [List.getD_cons_zero]; omega)

theorem firstPass_ok {t : State} {r : Reading} {m : ModuleRecord} (h : t.firstPass r d = .ok m) :
    ∃ gs, r.segments 8 (byteAt (r.content 0) 1).toNat = .ok gs ∧
      m = { id := byteAt (r.content 0) 0, descriptor := d, segmentCount := (byteAt (r.content 0) 1).toNat, segments := gs
            exportCount := (halfOf (byteAt (r.content 0) 2) (byteAt (r.content 0) 3)).toNat
            importCount := (halfOf (byteAt (r.content 1) 0) (byteAt (r.content 1) 1)).toNat
            siteCount := (halfOf (byteAt (r.content 1) 2) (byteAt (r.content 1) 3)).toNat, state := .loading } := by
  unfold State.firstPass at h
  obtain ⟨w0, h0, h⟩ := bind_ok h
  obtain ⟨_, -, h⟩ := bind_ok h
  obtain ⟨_, -, h⟩ := bind_ok h
  obtain ⟨_, -, h⟩ := bind_ok h
  obtain ⟨_, -, h⟩ := bind_ok h
  obtain ⟨_, -, h⟩ := bind_ok h
  obtain ⟨_, -, h⟩ := bind_ok h
  obtain ⟨w1, h1, h⟩ := bind_ok h
  obtain ⟨_, -, h⟩ := bind_ok h
  obtain ⟨_, -, h⟩ := bind_ok h
  obtain ⟨_, -, h⟩ := bind_ok h
  obtain ⟨_, -, h⟩ := bind_ok h
  obtain ⟨gs, hgs, h⟩ := bind_ok h
  obtain ⟨_, -, h⟩ := bind_ok h
  obtain ⟨_, -, h⟩ := bind_ok h
  obtain ⟨_, -, h⟩ := bind_ok h
  cases h
  rw [word_ok h0] at hgs ⊢
  rw [word_ok h1]
  exact ⟨gs, hgs, rfl⟩

theorem loadFirstPass_ok {m : ModuleRecord} (h : (s.forReading env).loadFirstPass env [d] = .ok m) :
    (s.forReading env).firstPass (s.descriptorReading env d) d = .ok m := by
  rw [State.loadFirstPass] at h
  split at h
  · cases h
  · exact h

/-- The word of the descriptor that a first pass reads. -/
theorem descriptorReading_content (i : Nat) : (s.descriptorReading env d).content i = s.descriptorWord env d i := rfl

theorem loadMade (tag : Half) (m : ModuleRecord) (pass : (s.forReading env).loadFirstPass env [d] = .ok m) :
    ((s.forReading env).beginLoad env tag [d]).endFetch.served .commandEngine = State.served { s with
      mem := s.mem.afterStores env.stores, runs := s.runsRead
      modules := s.otherModules ++ [m]
      command := some (.loadCommit tag m.id 0 0 (8 + 8 * m.segments.length) 0) } .commandEngine := by
  rw [State.beginLoad, pass]
  simp only [State.endFetch, State.forReading, State.forTransfers, State.runsRead]

end

/-! ## A head that is left between two words (R169, R182) -/

/-- More words read of a run whose words are those of `word`. -/
theorem fetchMore_eq {mem : Memory} {next : List Word → Nat} {word : Nat → Word} : ∀ (n : Nat) (ws : List Word),
    ws = (List.range ws.length).map word →
    (∀ i, ws.length ≤ i → i < ws.length + n → mem.word (next ((List.range i).map word)) = word i) →
    fetchMore mem next n ws = (List.range (ws.length + n)).map word
  | 0, ws, read, _ => read
  | n + 1, ws, read, place => by
    have one : ws ++ [mem.word (next ws)] = (List.range (ws.length + 1)).map word := by
      rw [List.range_succ, List.map_append, List.map_singleton, ← read, ← place ws.length (Nat.le_refl _) (by omega), ← read]
    have length : (ws ++ [mem.word (next ws)]).length = ws.length + 1 := by simp
    rw [fetchMore, fetchMore_eq n _ (by rw [length]; exact one) (fun i low high => place i (by omega) (by omega)), length,
      Nat.add_right_comm, Nat.add_assoc]

/-- Words kept are the first words of the run. -/
theorem fetched_eq {ws : List Word} {word : Nat → Word} (h : ∀ i w, ws[i]? = some w → word i = w) :
    ws = (List.range ws.length).map word := by
  refine List.ext_getElem (by simp) fun i hi _ => ?_
  rw [List.getElem_map, List.getElem_range, h i _ (List.getElem?_eq_getElem hi)]

section
variable {s : State} {env : Env} {a : Word} {p : Nat}

theorem resumed_runEnv (c : Claimant) (f : Option Nat) (n : Nat) :
    resumed { s.runEnv c env with failAt := f } n = resumed { env with failAt := f } n := by
  unfold State.runEnv
  split <;> rfl

theorem loadFirstPass_runEnv (t : State) (c : Claimant) (f : Option Nat) (words : List Word) :
    t.loadFirstPass { s.runEnv c env with failAt := f } words = t.loadFirstPass { env with failAt := f } words := by
  rw [State.loadFirstPass, State.loadFirstPass, resumed_runEnv]

theorem pauseAt_of_leaves {c : Claimant} (h : s.leavesAfter c env p) : pauseAt (s.runEnv c env) = some p := by
  obtain ⟨upTo, before⟩ := h
  have fail : (s.runEnv c env).failAt = env.failAt := (runEnv_same s c env).1
  rw [pauseAt, upTo, fail]
  cases failed : env.failAt with
  | none => rfl
  | some f => exact if_neg (Nat.not_lt.mpr (before f failed))

/-- The transfers before the one that a step would make next are acknowledged. -/
theorem readAcks_before {i b : Nat} (before : i < s.runs.fetched.length + p) (inside : b ≤ 0x0FFFFFFF) :
    s.readAcks { env with failAt := some p } i b = true := by
  have small : b < Config.localBytes := by
    rw [Config.localBytes]
    omega
  simp only [State.readAcks, acks, resumed, Option.map_some, Bool.and_eq_true, decide_eq_true_eq, ne_eq, Option.some.injEq]
  exact ⟨by omega, small⟩

theorem readAcks_inside {i b : Nat} (h : s.readAcks env i b = true) : b ≤ 0x0FFFFFFF := by
  simp only [State.readAcks, acks, Config.localBytes, Bool.and_eq_true] at h
  obtain ⟨-, small⟩ := h
  exact Nat.le_of_lt_succ (of_decide_eq_true small)

/-- The step leaves the head after the words that it reads, where the reading meets READ-ERROR at the transfer after them. -/
theorem headPause_of_error {t : State} {env : Env} {p : Nat} (pause : pauseAt env = some p)
    (more : (t.headReadError { env with failAt := some p }).isSome = true) :
    t.headPause env = some (fetchMore t.mem t.headAddress p t.runs.fetched) := by
  rw [State.headPause, pause]
  exact if_pos more

/-- A step that leaves the head there. -/
theorem runHead_left {kind : Option CommandKind} {words : List Word} (execute : s.mayExecute = true)
    (pause : (s.forReading env).headPause (s.runEnv .commandEngine env) = some words)
    (mine : (words.head?.map fun w => commandOfCode (byteAt w 0)) = some kind) (body : Half → List Word → State → State) :
    s.runHead kind env body = ((s.forReading env).leaveHead (s.runEnv .commandEngine env) words).served .commandEngine := by
  rw [State.runHead, if_pos execute]
  simp only [forReading_runEnv, pause]
  exact if_pos mine

/-! ## A first pass that is left between two words (R17, R182) -/

/-- Word `i` of the head, where it is a LOAD: of its block, then of its descriptor. -/
def State.loadWord (s : State) (env : Env) (a d : Word) (i : Nat) : Word :=
  if i < 2 then s.blockWord env a i else s.descriptorWord env d (i - 2)

theorem loadWord_fetched {d : Word} {i : Nat} {w : Word} (h : s.runs.fetched[i]? = some w) : s.loadWord env a d i = w := by
  unfold State.loadWord
  split
  · rw [State.blockWord, h]
    rfl
  · rw [State.descriptorWord, show 2 + (i - 2) = i by omega, h]
    rfl

theorem loadWord_words (d : Word) (n : Nat) : (List.range (2 + n)).map (s.loadWord env a d) =
    [s.blockWord env a 0, s.blockWord env a 1] ++ (List.range n).map (s.descriptorWord env d) := by
  rw [List.range_add, List.map_append, List.map_map]
  refine congrArg₂ (· ++ ·) rfl (List.map_congr_left fun i _ => ?_)
  rw [Function.comp, State.loadWord, if_neg (by omega), Nat.add_sub_cancel_left]

theorem blockWord_unread {i : Nat} (h : s.runs.fetched[i]? = none) :
    s.blockWord env a i = (s.mem.afterStores env.stores).word (a.toNat + 4 * i) := by
  rw [State.blockWord, h]
  rfl

/-- The words of the head that are read where a LOAD is left. -/
theorem fetchMore_load (head : s.commandQueue.head? = some a) (code : commandOfCode (byteAt (s.blockWord env a 0) 0) = some .load)
    (n : Nat) : fetchMore (s.mem.afterStores env.stores) (s.forReading env).headAddress n s.runs.fetched =
      (List.range (s.runs.fetched.length + n)).map (s.loadWord env a (s.blockWord env a 1)) := by
  have queue : ((s.forReading env).commandQueue.headD 0).toNat = a.toNat := by
    rw [show (s.forReading env).commandQueue = s.commandQueue from rfl, List.headD_eq_head?_getD, head]
    rfl
  refine fetchMore_eq n _ (fetched_eq fun i w => loadWord_fetched) fun i low _ => ?_
  have unread : ∀ j, i ≤ j → s.runs.fetched[j]? = none := fun j hj => List.getElem?_eq_none (by omega)
  match i, unread with
  | 0, unread =>
    refine Eq.trans ?_ (blockWord_unread (unread 0 (Nat.le_refl 0))).symm
    exact congrArg (s.mem.afterStores env.stores).word (congrArg (· + 0) queue)
  | 1, unread =>
    refine Eq.trans ?_ (blockWord_unread (unread 1 (Nat.le_refl 1))).symm
    exact congrArg (s.mem.afterStores env.stores).word (congrArg (· + 4) queue)
  | j + 2, unread =>
    rw [State.loadWord, if_neg (by omega), State.descriptorWord, unread _ (by omega), Nat.add_comm j 2, loadWord_words]
    refine congrArg (s.mem.afterStores env.stores).word ((if_pos code).trans ?_)
    simp

/-- The step has no word of the descriptor yet, and the table no LOADING record. -/
theorem otherModules_of_few (h : s.runs.fetched.length ≤ 2) : s.otherModules = s.modules := by
  refine otherModules_of_loadingId ?_
  rw [State.loadingId, State.firstPassLoad, Runs.load?]
  split
  · split
    · next w v rest fetched =>
      rw [fetched, List.length_cons, List.length_cons] at h
      rw [List.eq_nil_of_length_eq_zero (l := rest) (by omega)]
      split <;> rfl
    · rfl
  · rfl

theorem State.Block.withFail {k : CommandKind} (h : s.Block env a k) (most : k.moreWords < s.runs.fetched.length + p) :
    s.Block { env with failAt := some p } a k := by
  obtain ⟨⟨awake, idle, head, granted, first⟩, code, read⟩ := h
  exact ⟨⟨awake, idle, head, granted, readAcks_before (by omega) (readAcks_inside first)⟩, code,
    fun i low high => readAcks_before (by omega) (readAcks_inside (read i low high))⟩

/-- The READ-ERROR of the first pass, where the step leaves it. -/
theorem State.Block.firstPassReadError (h : s.Block env a .load) (active : s.station = .active) (two : 2 ≤ s.runs.fetched.length + p)
    {e : Ending} (fault : (s.forReading env).loadFirstPass { env with failAt := some p } [s.blockWord env a 1] = .error e)
    (status : e.status = .readError) :
    (s.forReading env).firstPassReadError { s.runEnv .commandEngine env with failAt := some p } = some (s.tagAt env a, e) := by
  have head := (h.withFail (p := p) two).readHead { s.runEnv .commandEngine env with failAt := some p } rfl
  have head : (s.forReading env).readHead { s.runEnv .commandEngine env with failAt := some p } =
    some (.whole (some .load) (s.tagAt env a) [s.blockWord env a 1]) := head
  have on : (s.forReading env).station = .active := active
  rw [State.firstPassReadError, head]
  simp only [if_pos on, loadFirstPass_runEnv, fault]
  exact if_pos status

theorem State.Block.headPause (h : s.Block env a .load) (active : s.station = .active) (leaves : s.leavesAfter .commandEngine env p)
    (two : 2 ≤ s.runs.fetched.length + p)
    {e : Ending} (fault : (s.forReading env).loadFirstPass { env with failAt := some p } [s.blockWord env a 1] = .error e)
    (status : e.status = .readError) : (s.forReading env).headPause (s.runEnv .commandEngine env) =
      some ([s.blockWord env a 0, s.blockWord env a 1] ++
        (List.range (s.runs.fetched.length + p - 2)).map (s.descriptorWord env (s.blockWord env a 1))) := by
  have head := (h.withFail (p := p) two).readHead { s.runEnv .commandEngine env with failAt := some p } rfl
  have head : (s.forReading env).readHead { s.runEnv .commandEngine env with failAt := some p } =
    some (.whole (some .load) (s.tagAt env a) [s.blockWord env a 1]) := head
  rw [headPause_of_error (pauseAt_of_leaves leaves) (by
    rw [State.headReadError, head]
    simp only [h.firstPassReadError active two fault status]
    rfl)]
  refine congrArg some ((fetchMore_load h.executes.head h.code p).trans ?_)
  rw [show s.runs.fetched.length + p = 2 + (s.runs.fetched.length + p - 2) by omega, loadWord_words, Nat.add_sub_cancel_left]

/-- A first pass that is left with word 0 of the descriptor read has found no fault in it (R17, R18). -/
theorem readError_header {d : Word} (three : 3 ≤ s.runs.fetched.length + p) {e : Ending}
    (fault : (s.forReading env).loadFirstPass { env with failAt := some p } [d] = .error e) (status : e.status = .readError) :
    byteAt (s.descriptorWord env d 0) 0 ≠ 0 ∧ (∀ x ∈ s.otherModules, x.id ≠ byteAt (s.descriptorWord env d 0) 0) ∧
      s.otherModules.length < 32 := by
  have good : ¬(d.toNat % 4 ≠ 0 ∨ 0x0FFFFFFF < d.toNat) := fun bad => by
    cases (loadFirstPass_bad (s := s) (env := { env with failAt := some p }) bad).symm.trans fault
    cases status
  have inside : d.toNat ≤ 0x0FFFFFFF := by omega
  have pass := (loadFirstPass_good (s := s) (env := { env with failAt := some p }) (d := d) (by omega) inside).symm.trans fault
  have first := ((firstPass_checked s { env with failAt := some p } (s.descriptorReading { env with failAt := some p } d) d) e).mp pass
  simp only [State.firstPassChecks, State.headerChecks, Reading.wordChecks, List.append_assoc, List.cons_append] at first
  obtain ⟨-, first⟩ := firstFault_passed first fun _ => by rw [status]; exact fun h => nomatch h
  obtain ⟨-, first⟩ := firstFault_passed first fun fails =>
    absurd ((readAcks_before (s := s) (env := env) (i := 2) (b := d.toNat) (by omega) inside).symm.trans fails) (by decide)
  obtain ⟨id, first⟩ := firstFault_passed first fun _ => by rw [status]; exact fun h => nomatch h
  obtain ⟨new, first⟩ := firstFault_passed first fun _ => by rw [status]; exact fun h => nomatch h
  obtain ⟨room, first⟩ := firstFault_passed first fun _ => by rw [status]; exact fun h => nomatch h
  exact ⟨of_decide_eq_true id, of_decide_eq_true new, of_decide_eq_true room⟩

theorem exec_load_left (h : s.Block env a .load) (active : s.station = .active) (leaves : s.leavesAfter .commandEngine env p)
    (two : 2 ≤ s.runs.fetched.length + p)
    {e : Ending} (fault : (s.forReading env).loadFirstPass { env with failAt := some p } [s.blockWord env a 1] = .error e)
    (status : e.status = .readError) : exec (.load env) s =
      .next (((s.forReading env).leaveHead (s.runEnv .commandEngine env) ([s.blockWord env a 0, s.blockWord env a 1] ++
        (List.range (s.runs.fetched.length + p - 2)).map (s.descriptorWord env (s.blockWord env a 1)))).served .commandEngine) := by
  refine congrArg Host.Outcome.next (runHead_left h.executes.mayExecute (h.headPause active leaves two fault status) ?_ _)
  rw [List.cons_append, List.head?_cons, Option.map_some, h.code]

/-- The words of a descriptor with its first read, as the head is left with them. -/
theorem leaveHead_made {t : State} {out : Env} {w d w0 : Word} {rest : List Word} (upTo : out.upTo = some p)
    (fault : (t.firstPassReadError { out with failAt := some p }).isSome = true) :
    t.leaveHead out (w :: d :: w0 :: rest) =
      { t with runs := { t.runs with fetched := w :: d :: w0 :: rest }, modules := t.modules ++ [loadingRecord d (w0 :: rest)] } :=
  if_pos (upTo ▸ fault)

theorem leaveHead_block (t : State) (out : Env) (w d : Word) :
    t.leaveHead out [w, d] = { t with runs := { t.runs with fetched := [w, d] } } := rfl

end

/-- The tests of the header, one after another, each with its ending. -/
theorem loadFirstPass_header {s : State} {env : Env} {d : Word} {ends : Status → Nat → Prop}
    (fails : ∀ e, firstFault (s.firstPassChecks (s.descriptorReading env d)) = some e → ends e.status e.detail)
    (inside : d.toNat ≤ 0x0FFFFFFF) :
    let w0 := s.descriptorWord env d 0
    let w1 := s.descriptorWord env d 1
    let id := byteAt w0 0
    let segments := (byteAt w0 1).toNat
    let exports := (halfOf (byteAt w0 2) (byteAt w0 3)).toNat
    let imports := (halfOf (byteAt w1 0) (byteAt w1 1)).toNat
    let sites := (halfOf (byteAt w1 2) (byteAt w1 3)).toNat
    (s.readAcks env 2 d.toNat = false → ends .readError 0) ∧
    (s.readAcks env 2 d.toNat = true → (id = 0 → ends .badDescriptor 0x00) ∧
    (id ≠ 0 → ((∃ x ∈ s.otherModules, x.id = id) → ends .duplicateModule id.toNat) ∧
    ((∀ x ∈ s.otherModules, x.id ≠ id) → (32 ≤ s.otherModules.length → ends .noRoom 1) ∧
    (s.otherModules.length < 32 → (segments = 0 ∨ 4 < segments → ends .badDescriptor 0x01) ∧
    (1 ≤ segments → segments ≤ 4 → (128 < exports → ends .badDescriptor 0x02) ∧
    (exports ≤ 128 → (512 - s.directory.length < exports → ends .noRoom 2) ∧
    (exports ≤ 512 - s.directory.length → (0x0FFFFFFF < d.toNat + 4 → ends .badDescriptor 0x04) ∧
    (d.toNat + 4 ≤ 0x0FFFFFFF → (s.readAcks env 3 (d.toNat + 4) = false → ends .readError 4) ∧
    (s.readAcks env 3 (d.toNat + 4) = true → (256 < imports → ends .badDescriptor 0x04) ∧
    (imports ≤ 256 → (1024 - s.refs.length < imports → ends .noRoom 3) ∧
    (imports ≤ 1024 - s.refs.length → (16384 < sites → ends .badDescriptor 0x06) ∧
    (sites ≤ 16384 → 4096 - s.sitesInUse < sites → ends .noRoom 4)))))))))))) := by
  intro w0 w1 id segments exports imports sites
  simp only [State.firstPassChecks, State.headerChecks, Reading.wordChecks, fieldCheck, List.append_assoc, List.cons_append,
    List.nil_append] at fails
  replace fails := (firstFault_walk fails).2 (decide_eq_true inside)
  obtain ⟨no, fails⟩ := firstFault_walk fails
  refine ⟨no, fun yes => ?_⟩
  replace fails := fails yes
  obtain ⟨no, fails⟩ := firstFault_walk fails
  refine ⟨fun bad => no (decide_eq_false (not_not_intro bad)), fun good => ?_⟩
  replace fails := fails (decide_eq_true good)
  obtain ⟨no, fails⟩ := firstFault_walk fails
  refine ⟨fun ⟨x, hx, same⟩ => no (decide_eq_false fun new => new x hx same), fun new => ?_⟩
  replace fails := fails (decide_eq_true new)
  obtain ⟨no, fails⟩ := firstFault_walk fails
  refine ⟨fun full => no (decide_eq_false (Nat.not_lt.mpr full)), fun room => ?_⟩
  replace fails := fails (decide_eq_true room)
  obtain ⟨no, fails⟩ := firstFault_walk fails
  refine ⟨fun bad => no (decide_eq_false fun ⟨least, most⟩ => ?_), fun least most => ?_⟩
  · change 1 ≤ segments at least
    change segments ≤ 4 at most
    omega
  replace fails := fails (decide_eq_true ⟨least, most⟩)
  obtain ⟨no, fails⟩ := firstFault_walk fails
  refine ⟨fun many => no (decide_eq_false (Nat.not_le.mpr many)), fun few => ?_⟩
  replace fails := fails (decide_eq_true few)
  obtain ⟨no, fails⟩ := firstFault_walk fails
  refine ⟨fun many => no (decide_eq_false (Nat.not_le.mpr many)), fun few => ?_⟩
  replace fails := fails (decide_eq_true few)
  obtain ⟨no, fails⟩ := firstFault_walk fails
  refine ⟨fun outside => no (decide_eq_false (Nat.not_le.mpr outside)), fun local_ => ?_⟩
  replace fails := fails (decide_eq_true local_)
  obtain ⟨no, fails⟩ := firstFault_walk fails
  refine ⟨no, fun yes => ?_⟩
  replace fails := fails yes
  obtain ⟨no, fails⟩ := firstFault_walk fails
  refine ⟨fun many => no (decide_eq_false (Nat.not_le.mpr many)), fun few => ?_⟩
  replace fails := fails (decide_eq_true few)
  obtain ⟨no, fails⟩ := firstFault_walk fails
  refine ⟨fun many => no (decide_eq_false (Nat.not_le.mpr many)), fun few => ?_⟩
  replace fails := fails (decide_eq_true few)
  obtain ⟨no, fails⟩ := firstFault_walk fails
  refine ⟨fun many => no (decide_eq_false (Nat.not_le.mpr many)), fun few => ?_⟩
  replace fails := fails (decide_eq_true few)
  obtain ⟨no, -⟩ := firstFault_walk fails
  exact fun many => no (decide_eq_false (Nat.not_le.mpr many))

/-- The LOADING record of a pass that has read the words of the descriptor up to word `n` (R17, R18, R19). -/
theorem loadingRecord_read {word : Nat → Word} {d : Word} {n : Nat} (some_ : 1 ≤ n) :
    let m := loadingRecord d ((List.range n).map word)
    m.id = byteAt (word 0) 0 ∧ m.descriptor = d ∧ m.state = .loading ∧ m.segmentCount = (byteAt (word 0) 1).toNat ∧
      m.exportCount = (halfOf (byteAt (word 0) 2) (byteAt (word 0) 3)).toNat ∧
      (2 ≤ n → m.importCount = (halfOf (byteAt (word 1) 0) (byteAt (word 1) 1)).toNat ∧
        m.siteCount = (halfOf (byteAt (word 1) 2) (byteAt (word 1) 3)).toNat) ∧
      m.segments.length = min m.segmentCount ((n - 2) / 2) ∧
      ∀ (i : Nat) (g : Segment), m.segments[i]? = some g → g.base = word (2 + 2 * i) ∧ g.length = word (3 + 2 * i) := by
  intro m
  have get : ∀ i, i < n → ((List.range n).map word).getD i 0 = word i := fun i hi => by
    rw [List.getD_eq_getElem?_getD, List.getElem?_map, List.getElem?_range hi]
    rfl
  have w0 := get 0 some_
  refine ⟨congrArg (byteAt · 0) w0, rfl, rfl, congrArg (fun w => (byteAt w 1).toNat) w0,
    congrArg (fun w => (halfOf (byteAt w 2) (byteAt w 3)).toNat) w0, fun two => ?_, ?_, fun i g hg => ?_⟩
  · have w1 := get 1 two
    exact ⟨congrArg (fun w => (halfOf (byteAt w 0) (byteAt w 1)).toNat) w1, congrArg (fun w => (halfOf (byteAt w 2) (byteAt w 3)).toNat) w1⟩
  · simp only [m, loadingRecord, List.length_map, List.length_range]
  · simp only [m, loadingRecord, List.length_map, List.length_range, List.getElem?_map, Option.map_eq_some_iff] at hg
    obtain ⟨j, hj, rfl⟩ := hg
    obtain ⟨small, rfl⟩ := List.getElem?_eq_some_iff.mp hj
    rw [List.length_range] at small
    rw [List.getElem_range]
    exact ⟨get _ (by omega), get _ (by omega)⟩

/-- Settles O28: the header test by test, the whole pass by its checks, and a pass that is left between two words. -/
theorem loadFirstPass : Obligations.LoadFirstPass := by
  refine ⟨fun s env a h active => ?_, fun s env a p h active leaves two => ?_⟩
  · intro d ends w0 w1 id segments exports imports sites
    have fault : ∀ e, (s.forReading env).loadFirstPass env [d] = .error e → ends e.status e.detail := fun e => h.load_error active
    have checks : d.toNat % 4 = 0 → d.toNat ≤ 0x0FFFFFFF →
        Checked ((s.forReading env).loadFirstPass env [d]) (s.firstPassChecks (s.descriptorReading env d)) := fun aligned inside => by
      rw [loadFirstPass_good aligned inside]
      exact firstPass_checked s env _ d
    refine ⟨fun bad => fault _ (loadFirstPass_bad bad), fun aligned inside => ?_, fun aligned inside => ⟨fun e first => ?_, ?_⟩, fault,
      fun m pass => ?_⟩
    · exact loadFirstPass_header (fun e first => fault e ((checks aligned inside e).mpr first)) inside
    · exact fault e ((checks aligned inside e).mpr first)
    · exact (checks aligned inside).ok_of_passes
    · obtain ⟨gs, hgs, made⟩ := firstPass_ok (loadFirstPass_ok pass)
      obtain ⟨length, at_⟩ := segments_ok hgs
      rw [h.exec_load active, loadMade _ m pass]
      cases made
      refine ⟨rfl, rfl, rfl, length, rfl, rfl, rfl, rfl, fun i g hg => ?_, fun g hg => ?_, by rw [length]; rfl⟩
      · obtain ⟨base, len, -⟩ := segment_ok (at_ i g hg)
        rw [show (8 + 8 * i) / 4 = 2 + 2 * i by omega] at base len
        rw [show 2 + 2 * i + 1 = 3 + 2 * i by omega] at len
        exact ⟨base, len⟩
      · obtain ⟨i, hi⟩ := List.mem_iff_getElem?.mp hg
        obtain ⟨-, -, good⟩ := segment_ok (at_ i g hi)
        exact good
  · intro d n words left w0 w1 ⟨e, fault, status⟩
    have exec := exec_load_left h active leaves two fault status
    refine ⟨fun none_ => ?_, fun some_ => ?_⟩
    · have none_ : s.runs.fetched.length + p - 2 = 0 := none_
      have few := otherModules_of_few (s := s) (by omega)
      have empty : words = [] := by
        change (List.range (s.runs.fetched.length + p - 2)).map _ = []
        rw [none_]
        rfl
      rw [exec]
      refine congrArg Host.Outcome.next ?_
      simp only [left, words] at empty ⊢
      rw [empty, List.append_nil, leaveHead_block, State.leftReading, State.forReading, few]
      rfl
    · obtain ⟨id, new, room⟩ := readError_header (s := s) (env := env) (p := p) (d := d) (by omega) fault status
      refine ⟨id, new, room, loadingRecord d words, ?_, loadingRecord_read some_⟩
      have upTo : (s.runEnv .commandEngine env).upTo = some p := leaves.1
      have error := h.firstPassReadError active two fault status
      obtain ⟨k, length⟩ : ∃ k, s.runs.fetched.length + p - 2 = k + 1 := ⟨n - 1, by omega⟩
      have cons : words = s.descriptorWord env d 0 :: (List.range k).map fun i => s.descriptorWord env d (i + 1) := by
        change (List.range (s.runs.fetched.length + p - 2)).map _ = _
        rw [length, List.range_succ_eq_map, List.map_cons, List.map_map]
        rfl
      rw [exec]
      refine congrArg Host.Outcome.next ?_
      simp only [left, words] at cons ⊢
      rw [cons]
      refine (congrArg (State.served · .commandEngine) (leaveHead_made upTo (Option.isSome_of_eq_some error))).trans ?_
      simp only [State.leftReading, State.forReading, State.forTransfers]
      rfl

end Sys2Proof.Machine

/-! The fixed stores stay within their room (R13, R68, R137, R143, R159, R168, R178), and no place of the transmit queue is left free
while a request waits (R138). -/

namespace Sys2Proof.Machine

variable {ok : Prop} {s t u : State}

/-! ## The room of each store -/

/-- The law of room but for the requests that wait. -/
structure State.Roomy (s : State) : Prop where
  transmit : s.txQueue.length ≤ 32
  receive : s.rxFrames ≤ 32
  commands : s.commandQueue.length ≤ 8
  modules : s.modules.length ≤ 32
  slots : s.slots.length = 16
  peers : s.peers.length = 16
  drops : s.notices.drops ≤ 65535

theorem withinRoom_iff (s : State) : s.WithinRoom ↔ s.Roomy ∧ (s.station ≠ .configured → s.RoomGranted) :=
  ⟨fun ⟨transmit, receive, commands, modules, slots, peers, drops, granted⟩ =>
    ⟨⟨transmit, receive, commands, modules, slots, peers, drops⟩, granted⟩,
   fun ⟨⟨transmit, receive, commands, modules, slots, peers, drops⟩, granted⟩ =>
    ⟨transmit, receive, commands, modules, slots, peers, drops, granted⟩⟩

theorem reserve_drops (n : NoticeUnit) (x : Notice) : (n.reserve x).drops = n.drops := by
  unfold NoticeUnit.reserve
  split <;> rfl

theorem testDrops_drops_le (n : NoticeUnit) : n.testDrops.drops ≤ n.drops := by
  unfold NoticeUnit.testDrops
  split
  · exact Nat.zero_le _
  · exact Nat.le_refl _

theorem addDrops_le (n k : Nat) : addDrops n k ≤ 65535 := Nat.min_le_left _ _

theorem take_drops_le {n : NoticeUnit} (h : n.drops ≤ 65535) (x : Notice) : (n.take x).drops ≤ 65535 := by
  unfold NoticeUnit.take
  dsimp only
  split
  · rw [reserve_drops]
    exact (testDrops_drops_le n).trans h
  · exact addDrops_le _ _

theorem NoticeMove.drops_le {n n' : NoticeUnit} (m : NoticeMove n n') (h : n.drops ≤ 65535) : n'.drops ≤ 65535 := by
  cases m with
  | release v =>
    unfold NoticeUnit.release
    split
    · exact (testDrops_drops_le _).trans h
    · exact h
  | clearFlags value => exact h
  | enable b => exact h
  | published r ring some_ => exact h
  | writeFailed => exact addDrops_le _ _

/-- Stores that do not grow stay within their room. -/
theorem State.Roomy.of_le (law : s.Roomy) (transmit : t.txQueue.length ≤ s.txQueue.length) (receive : t.rxFrames ≤ s.rxFrames)
    (commands : t.commandQueue.length ≤ s.commandQueue.length) (modules : t.modules.length ≤ s.modules.length)
    (slots : t.slots.length = s.slots.length) (peers : t.peers.length = s.peers.length)
    (drops : s.notices.drops ≤ 65535 → t.notices.drops ≤ 65535) : t.Roomy where
  transmit := transmit.trans law.transmit
  receive := receive.trans law.receive
  commands := commands.trans law.commands
  modules := modules.trans law.modules
  slots := slots.trans law.slots
  peers := peers.trans law.peers
  drops := drops law.drops

theorem State.Roomy.congr (law : s.Roomy) (transmit : t.txQueue = s.txQueue) (receive : t.rxQueue = s.rxQueue)
    (commands : t.commandQueue = s.commandQueue) (modules : t.modules.length = s.modules.length)
    (slots : t.slots.length = s.slots.length) (peers : t.peers.length = s.peers.length) (notices : t.notices = s.notices) : t.Roomy :=
  law.of_le (by rw [transmit]) (by rw [State.rxFrames, receive]; exact Nat.le_refl _) (by rw [commands]) modules.le slots peers
    (by rw [notices]; exact id)

theorem State.Roomy.post (law : s.Roomy) (x : Notice) : (s.post x).Roomy :=
  law.of_le (t := s.post x) (Nat.le_refl _) (Nat.le_refl _) (Nat.le_refl _) (Nat.le_refl _) rfl rfl fun h => take_drops_le h x

theorem Edit.roomy (h : Edit ok s t) (law : s.Roomy) : t.Roomy := by
  cases h with
  | post x => exact law.post x
  | lists h =>
    exact law.congr (by simpa [State.core] using congrArg State.txQueue h) (by simpa [State.core] using congrArg State.rxQueue h)
      (by simpa [State.core] using congrArg State.commandQueue h)
      (congrArg List.length (by simpa [State.core] using congrArg State.modules h))
      (congrArg List.length (by simpa [State.core] using congrArg State.slots h))
      (congrArg List.length (by simpa [State.core] using congrArg State.peers h))
      (by simpa [State.core] using congrArg State.notices h)
  | slots l length keys => exact law.congr rfl rfl rfl rfl length rfl rfl
  | queueSeek n x _ room => exact { law with transmit := by simpa using room }
  | placeFrame x xs _ room => exact { law with transmit := by simpa using room }
  | setModuleState m st => exact law.congr (t := s.setModuleState m st) rfl rfl rfl (by simp [State.setModuleState]) rfl rfl rfl
  | removeModule m _ _ =>
    exact law.of_le (t := s.removeModule m) (Nat.le_refl _) (Nat.le_refl _) (Nat.le_refl _) (List.length_filter_le _ _) rfl rfl id
  | _ => exact law.congr rfl rfl rfl rfl rfl rfl rfl

theorem markAbsent_roomy (law : s.Roomy) (n : Station) : (s.markAbsent n).Roomy :=
  law.congr (t := s.markAbsent n) rfl rfl rfl rfl rfl (by simp [State.markAbsent]) rfl

theorem rxFrames_append (s : State) (x : RxItem) :
    ({ s with rxQueue := s.rxQueue ++ [x] } : State).rxFrames ≤ s.rxFrames + 1 := by
  rw [State.rxFrames, List.filter_append, List.length_append]
  exact Nat.add_le_add_left (List.length_filter_le _ _) _

theorem refuse_roomy (law : s.Roomy) (o : Owner) (p : Pair) : (s.refuse o p).Roomy :=
  State.Roomy.post (s := (s.setEntry o (.refused p)).leaveAnswers fun x => decide (x = o)) (law.congr rfl rfl rfl rfl rfl rfl rfl) _

theorem oweOffer_roomy (law : s.Roomy) (o : Owner) : (s.oweOffer o).Roomy := by
  unfold State.oweOffer
  split <;> exact law.congr rfl rfl rfl rfl rfl rfl rfl

theorem oweClash_roomy (law : s.Roomy) (o : Owner) : (s.oweClash o).Roomy := by
  unfold State.oweClash
  split <;> exact law.congr rfl rfl rfl rfl rfl rfl rfl

theorem meetSeek_roomy (law : s.Roomy) (k : Key) : (s.meetSeek k).Roomy := by
  unfold State.meetSeek
  split
  · exact law
  · split
    · exact oweOffer_roomy law _
    all_goals exact law

theorem meetClaim_roomy (law : s.Roomy) (k : Key) (p : Pair) (refused : List Pair) : (s.meetClaim k p refused).Roomy := by
  unfold State.meetClaim
  split
  · exact law
  · split
    · exact refuse_roomy law _ _
    · split
      · exact refuse_roomy law _ _
      · exact oweClash_roomy (s := s.setEntry _ _) (law.congr rfl rfl rfl rfl rfl rfl rfl) _
    all_goals exact law

theorem meetOwnAnnounce_roomy (law : s.Roomy) (k : Key) (g : Half) : (s.meetOwnAnnounce k g).Roomy := by
  unfold State.meetOwnAnnounce
  split
  · exact law
  · split
    · exact law.congr rfl rfl rfl rfl rfl rfl rfl
    · exact law

theorem Base.roomy (h : Base ok s t) (law : s.Roomy) : t.Roomy := by
  cases h with
  | edit h => exact h.roomy law
  | depart n cause h => exact h.keeps (fun _ _ law h => h.roomy law) (markAbsent_roomy law n)
  | memory _ h =>
    exact law.congr (by simpa [State.core] using congrArg State.txQueue h) (by simpa [State.core] using congrArg State.rxQueue h)
      (by simpa [State.core] using congrArg State.commandQueue h)
      (congrArg List.length (by simpa [State.core] using congrArg State.modules h))
      (congrArg List.length (by simpa [State.core] using congrArg State.slots h))
      (congrArg List.length (by simpa [State.core] using congrArg State.peers h))
      (by simpa [State.core] using congrArg State.notices h)
  | notices h => exact { law with drops := h.drops_le law.drops }
  | retire => exact law.of_le (Nat.le_refl _) (Nat.le_refl _) (by simp) (Nat.le_refl _) rfl rfl id
  | setAside => exact law.of_le (Nat.le_refl _) (Nat.le_refl _) (Nat.le_refl _) (List.length_filter_le _ _) rfl rfl id
  | loading x _ _ _ room => exact { law with modules := by simpa using room }
  | beginCommit tag x off _ _ h => exact { law with modules := by simpa using h.room }
  | dropModule m _ _ _ _ =>
    exact law.of_le (t := s.removeModule m) (Nat.le_refl _) (Nat.le_refl _) (Nat.le_refl _) (List.length_filter_le _ _) rfl rfl id
  | updatePeer n f _ => exact law.congr (t := s.updatePeer n f) rfl rfl rfl rfl rfl (by simp [State.updatePeer]) rfl
  | meetSeek k => exact meetSeek_roomy law k
  | meetClaim k p refused _ => exact meetClaim_roomy law k p refused
  | meetOwnAnnounce k g => exact meetOwnAnnounce_roomy law k g
  | freePlace => exact law.of_le (by simp) (Nat.le_refl _) (Nat.le_refl _) (Nat.le_refl _) rfl rfl id
  | takeRx x rest h =>
    refine law.of_le (Nat.le_refl _) ?_ (Nat.le_refl _) (Nat.le_refl _) rfl rfl id
    rw [State.rxFrames, State.rxFrames, h]
    exact ((List.sublist_cons_self x rest).filter _).length_le
  | receive f _ room => exact { law with receive := (rxFrames_append s _).trans room }
  | marker n _ =>
    refine law.of_le (Nat.le_refl _) ?_ (Nat.le_refl _) (Nat.le_refl _) rfl rfl id
    simp [State.rxFrames]
  | emptyQueues _ => exact law.of_le (Nat.zero_le _) (Nat.zero_le _) (Nat.le_refl _) (Nat.le_refl _) rfl rfl id
  | enterExport x due =>
    unfold State.enterExport
    split <;> exact law.congr rfl rfl rfl rfl rfl rfl rfl
  | _ => exact law.congr rfl rfl rfl rfl rfl rfl rfl

theorem submit_roomy (law : s.Roomy) (value : Word) : (s.submit value).Roomy := by
  unfold State.submit
  split
  · exact law.congr rfl rfl rfl rfl rfl rfl rfl
  · split
    · exact law.congr rfl rfl rfl rfl rfl rfl rfl
    · next room =>
      refine { law with commands := ?_ }
      rw [List.length_append]
      exact Nat.lt_of_not_le room

theorem Change.roomy (h : Change s t) (law : s.Roomy) : t.Roomy := by
  cases h with
  | reset n cut =>
    exact ⟨Nat.zero_le _, Nat.zero_le _, Nat.zero_le _, Nat.zero_le _, List.length_replicate, List.length_replicate, Nat.zero_le _⟩
  | submit value => exact submit_roomy law value
  | configure c _ _ => exact { law with drops := (testDrops_drops_le _).trans law.drops }
  | join tag _ =>
    have joined : ({ s with station := .joining, busSeen := false, command := some (.start tag), wanted := [.join] } : State).Roomy :=
      law.congr rfl rfl rfl rfl rfl rfl rfl
    exact (arbitrate_edits (ok := False) _ []).keeps (fun _ _ law h => h.roomy law) joined
  | leave tag _ _ =>
    have left : ({ s with station := .leaving, command := some (.stop tag), wanted := [.leave] } : State).Roomy :=
      law.congr rfl rfl rfl rfl rfl rfl rfl
    exact (arbitrate_edits (ok := False) _ []).keeps (fun _ _ law h => h.roomy law) left
  | isolate =>
    exact law.of_le (t := s.cutFromBus) (Nat.zero_le _) (Nat.zero_le _) (Nat.le_refl _) (Nat.le_refl _) (by simp [State.cutFromBus])
      rfl id
  | left => exact { law with peers := List.length_replicate }
  | _ => exact law.congr rfl rfl rfl rfl rfl rfl rfl

/-! ## The requests that wait (R138) -/

theorem State.RoomGranted.congr (law : s.RoomGranted) (queue : t.txQueue = s.txQueue) (wanted : t.wanted = s.wanted)
    (slots : t.slots = s.slots) : t.RoomGranted := by
  rw [State.RoomGranted, State.NoneWaiting, queue, wanted, slots]
  exact law

theorem endEvent_roomGranted (s b : State) (order : List Bool) : (s.endEvent b order).RoomGranted := arbitrate_granted _ order

theorem endCommand_granted (law : s.RoomGranted) (tag : Half) (status : Status) (detail : Nat) :
    (s.endCommand tag status detail).endFetch.RoomGranted := law.congr rfl rfl rfl

theorem enterOut_granted (law : s.RoomGranted) (k : Key) : (s.enterOut k).RoomGranted := by
  unfold State.enterOut
  split
  · exact law
  · split
    · split
      · refine law.imp (fun ⟨wanted, slots⟩ => ⟨wanted, fun y hy awaits => ?_⟩) id
        obtain old | same := List.mem_or_eq_of_mem_set hy
        · exact slots y old awaits
        · cases same
          exact fun h => nomatch h
      · exact law
    · exact law

theorem refuse_granted (law : s.RoomGranted) (o : Owner) (p : Pair) : (s.refuse o p).RoomGranted := law.congr rfl rfl rfl

theorem meetSeek_granted (law : s.RoomGranted) (k : Key) : (s.meetSeek k).RoomGranted := by
  unfold State.meetSeek
  split
  · exact law
  · split
    · unfold State.oweOffer
      split <;> exact law.congr rfl rfl rfl
    all_goals exact law

theorem meetClaim_granted (law : s.RoomGranted) (k : Key) (p : Pair) (refused : List Pair) : (s.meetClaim k p refused).RoomGranted := by
  unfold State.meetClaim
  split
  · exact law
  · split
    · exact refuse_granted law _ _
    · split
      · exact refuse_granted law _ _
      · unfold State.oweClash
        split <;> exact law.congr rfl rfl rfl
    all_goals exact law

theorem meetOwnAnnounce_granted (law : s.RoomGranted) (k : Key) (g : Half) : (s.meetOwnAnnounce k g).RoomGranted := by
  unfold State.meetOwnAnnounce
  split
  · exact law
  · split
    · exact law.congr rfl rfl rfl
    · exact law

theorem Move.granted (h : Move ok s t) (on : s.station ≠ .configured) (law : s.RoomGranted) : t.RoomGranted := by
  cases h with
  | aside h =>
    exact law.congr (by simpa [State.core] using congrArg State.txQueue h) (by simpa [State.core] using congrArg State.wanted h)
      (by simpa [State.core] using congrArg State.slots h)
  | memory _ h =>
    exact law.congr (by simpa [State.core] using congrArg State.txQueue h) (by simpa [State.core] using congrArg State.wanted h)
      (by simpa [State.core] using congrArg State.slots h)
  | meetSeek k => exact meetSeek_granted law k
  | meetClaim k p refused _ => exact meetClaim_granted law k p refused
  | meetOwnAnnounce k g => exact meetOwnAnnounce_granted law k g
  | arbitrate order => exact arbitrate_granted s order
  | leaveQueue ts _ => exact arbitrate_granted _ []
  | enterOut k => exact enterOut_granted law k
  | retry n tries x _ => exact arbitrate_granted _ []
  | emptyQueues configured => exact absurd configured on
  | enterExport x due => exact arbitrate_granted _ []
  | event h b order _ => exact endEvent_roomGranted _ b order
  | abandon tag m begun _ _ =>
    rw [abandonModule_eq]
    exact endCommand_granted (endEvent_roomGranted _ s []) tag _ _
  | _ => exact law.congr rfl rfl rfl

theorem submit_granted (law : s.RoomGranted) (value : Word) : (s.submit value).RoomGranted := by
  unfold State.submit
  split
  · exact law.congr rfl rfl rfl
  · split <;> exact law.congr rfl rfl rfl

theorem isolated_granted (s : State) : s.cutFromBus.RoomGranted := by
  refine .inl ⟨rfl, fun x hx awaits => ?_⟩
  obtain ⟨y, -, hy⟩ := List.mem_map.mp hx
  cases y with
  | none => cases hy
  | some y =>
    cases hy
    cases awaits

theorem submit_station (s : State) (value : Word) : (s.submit value).station = s.station := by
  unfold State.submit
  split
  · rfl
  · split <;> rfl

theorem Change.granted (h : Change s t) (law : s.station ≠ .configured → s.RoomGranted) (on : t.station ≠ .configured) :
    t.RoomGranted := by
  cases h with
  | reset n cut => exact .inl reset_noneWaiting
  | submit value => exact submit_granted (law (submit_station s value ▸ on)) value
  | configure => exact absurd rfl on
  | join tag _ => exact arbitrate_granted _ []
  | leave tag _ _ => exact arbitrate_granted _ []
  | isolate => exact isolated_granted s
  | left => exact absurd rfl on
  | joined joining => exact (law (by rw [joining]; exact fun h => nomatch h)).congr rfl rfl rfl
  | resetLow => exact (law on).congr rfl rfl rfl

/-- Settles O10: the stores by their single edits, the requests that wait by the arbiter at the end of each event. -/
theorem withinRoomKept : Obligations.WithinRoomKept := by
  intro s t law h
  rw [withinRoom_iff] at law ⊢
  refine step_keeps_any (P := fun s => s.Roomy ∧ (s.station ≠ .configured → s.RoomGranted)) ?_ ?_ ?_ law h
  · rintro s q ⟨roomy, granted⟩
    exact ⟨roomy.congr rfl rfl rfl rfl rfl rfl rfl, fun on => (granted on).congr rfl rfl rfl⟩
  · rintro s t ⟨roomy, granted⟩ h
    refine ⟨h.keeps (fun _ _ law h => h.roomy law) roomy, fun on => ?_⟩
    have same := h.still.station
    exact h.granted (same ▸ on) (granted (same ▸ on))
  · rintro s t ⟨roomy, granted⟩ h
    exact ⟨h.roomy roomy, h.granted granted⟩

end Sys2Proof.Machine

/-! The commit pass has room for every entry it makes (R27, R38, R59, R60). -/

namespace Sys2Proof.Machine

variable {ok : Prop} {s t u : State}

/-! ## What the commit pass in progress has still to enter -/

/-- Records that count the same exports, imports and sites. -/
def SameCounts (x y : ModuleRecord) : Prop :=
  x.exportCount = y.exportCount ∧ x.importCount = y.importCount ∧ x.siteCount = y.siteCount

/-- Every record that the table of `t` names, the table of `s` names with the same counts. -/
def State.CountsFrom (t s : State) : Prop :=
  ∀ m x, t.module? m = some x → ∃ y, s.module? m = some y ∧ SameCounts x y

theorem countsFrom_of_eq (modules : t.modules = s.modules) : t.CountsFrom s := by
  intro m x h
  refine ⟨x, ?_, rfl, rfl, rfl⟩
  rw [State.module?, ← modules]
  exact h

theorem setModuleState_countsFrom (s : State) (m : Byte) (st : ModuleState) : (s.setModuleState m st).CountsFrom s := by
  intro k x h
  unfold State.module? State.setModuleState at h
  rw [List.find?_map, Option.map_eq_some_iff] at h
  obtain ⟨y, hy, rfl⟩ := h
  refine ⟨y, ?_, ?_⟩
  · rw [State.module?, ← hy]
    refine List.find?_congr fun z _ => ?_
    simp only [Function.comp]
    split <;> rfl
  · unfold SameCounts
    split <;> exact ⟨rfl, rfl, rfl⟩

theorem removeModule_countsFrom (s : State) (m : Byte) : (s.removeModule m).CountsFrom s := by
  intro k x h
  unfold State.module? State.removeModule at h
  rw [List.find?_filter] at h
  refine ⟨x, ?_, rfl, rfl, rfl⟩
  have other : k ≠ m := fun same => by
    have found := List.find?_some h
    rw [← same] at found
    simp at found
  rw [State.module?, ← h]
  refine List.find?_congr fun z _ => ?_
  by_cases id : z.id = k
  · simp [id, other]
  · simp [id]

/-- A pass that is no commit pass has nothing to enter. -/
theorem due_of_noCommit (h : ∀ c, s.command = some c → c.isCommit = false) : s.due = (0, 0, 0) := by
  unfold State.due
  split
  · next command => exact nomatch h _ command
  · rfl

theorem due_le (command : t.command = s.command) (modules : t.CountsFrom s) :
    t.due.1 ≤ s.due.1 ∧ t.due.2.1 ≤ s.due.2.1 ∧ t.due.2.2 ≤ s.due.2.2 := by
  unfold State.due
  rw [command]
  split
  · next m i j off sum _ =>
    cases found : t.module? m with
    | none => exact ⟨Nat.zero_le _, Nat.zero_le _, Nat.zero_le _⟩
    | some x =>
      obtain ⟨y, hy, exports, imports, sites⟩ := modules m x found
      rw [hy]
      dsimp only
      rw [exports, imports, sites]
      exact ⟨Nat.le_refl _, Nat.le_refl _, Nat.le_refl _⟩
  · exact ⟨Nat.le_refl _, Nat.le_refl _, Nat.le_refl _⟩

/-- The pass at a record of module `m`. -/
theorem due_of_commit {tag : Half} {m : Byte} {i j off sum : Nat} {rec : ModuleRecord}
    (command : s.command = some (.loadCommit tag m i j off sum)) (module : s.module? m = some rec) :
    s.due = (rec.exportCount - i, rec.importCount - j, rec.siteCount - sum) := by
  rw [State.due, command]
  simp only [module]

/-- While a command is in progress, no first pass has a LOADING record. -/
theorem otherModules_of_command {c : Command} (h : s.command = some c) : s.otherModules = s.modules :=
  otherModules_of_loadingId (by rw [State.loadingId, State.firstPassLoad, if_neg (by rw [h]; exact fun h => nomatch h)]; rfl)

theorem due_idle (h : s.command = none) : s.due = (0, 0, 0) := due_of_noCommit fun c some_ => by
  rw [h] at some_
  cases some_

theorem due_congr (command : t.command = s.command) (modules : t.modules = s.modules) : t.due = s.due := by
  simp only [State.due, State.module?, command, modules]

theorem setAside_due (s : State) : ({ s with modules := s.otherModules } : State).due = s.due := by
  cases command : s.command with
  | none => exact (due_idle rfl).trans (due_idle command).symm
  | some c => exact due_congr command.symm (otherModules_of_command command)

/-! ## The stores -/

/-- The numbers of sites of references, one by one. -/
def siteCounts (refs : List Ref) : List Nat := refs.map fun r => r.sites.length

theorem State.StoresWithinRoom.of_le (law : s.StoresWithinRoom) (directory : t.directory.length ≤ s.directory.length)
    (refs : (siteCounts t.refs).Sublist (siteCounts s.refs))
    (due : t.due.1 ≤ s.due.1 ∧ t.due.2.1 ≤ s.due.2.1 ∧ t.due.2.2 ≤ s.due.2.2) : t.StoresWithinRoom := by
  obtain ⟨exports, imports, sites⟩ := due
  obtain ⟨exportRoom, referenceRoom, siteRoom⟩ := law
  have count := refs.length_le
  simp only [siteCounts, List.length_map] at count
  have total : t.sitesInUse ≤ s.sitesInUse := refs.sum_le_sum fun _ _ => Nat.zero_le _
  exact ⟨by omega, by omega, by omega⟩

theorem State.StoresWithinRoom.congr (law : s.StoresWithinRoom) (directory : t.directory = s.directory) (refs : t.refs = s.refs)
    (command : t.command = s.command) (modules : t.modules = s.modules) : t.StoresWithinRoom :=
  law.of_le (by rw [directory]) (by rw [refs]) (due_le command (countsFrom_of_eq modules))

theorem siteCounts_map (refs : List Ref) {f : Ref → Ref} (h : ∀ r, (f r).sites = r.sites) :
    (siteCounts (refs.map f)).Sublist (siteCounts refs) := by
  have same : siteCounts (refs.map f) = siteCounts refs := by
    rw [siteCounts, siteCounts, List.map_map]
    exact List.map_congr_left fun r _ => congrArg List.length (h r)
  rw [same]

theorem addRef_storesWithinRoom (law : s.StoresWithinRoom) {x : ImportRecord} {tag : Half} {m : Byte} {i j off off' sum : Nat}
    {rec : ModuleRecord} (due : s.ImportDue x tag m i j off sum rec) {r : Ref} (sites : r.sites = x.sites)
    (refs : t.refs = s.refs ++ [r]) (command : t.command = some (.loadCommit tag m i (j + 1) off' (sum + x.sites.length)))
    (modules : t.modules = s.modules) (directory : t.directory = s.directory) : t.StoresWithinRoom := by
  obtain ⟨exportRoom, referenceRoom, siteRoom⟩ := law
  have left := due_of_commit command (by rw [State.module?, modules]; exact due.module)
  rw [due_of_commit due.command due.module] at exportRoom referenceRoom siteRoom
  have room := due.room
  have more := due.due
  have total : t.sitesInUse = s.sitesInUse + x.sites.length := by
    rw [State.sitesInUse, refs, List.map_append, List.sum_append, List.map_singleton, List.sum_singleton, sites]
    rfl
  refine ⟨by rw [left, directory]; exact exportRoom, ?_, ?_⟩
  · rw [left, refs, List.length_append, List.length_singleton]
    dsimp only at referenceRoom ⊢
    omega
  · rw [left, total]
    dsimp only at siteRoom ⊢
    omega

/-- The references keep their sites, or lose some references, or an import is entered. -/
theorem Edit.storesWithinRoom (h : Edit ok s t) (law : s.StoresWithinRoom) : t.StoresWithinRoom := by
  have directory := h.directory.length
  cases h with
  | lists h =>
    exact law.congr (by simpa [State.core] using congrArg State.directory h) (by simpa [State.core] using congrArg State.refs h)
      (by simpa [State.core] using congrArg State.command h) (by simpa [State.core] using congrArg State.modules h)
  | setPhase o p _ =>
    exact law.of_le directory (siteCounts_map _ fun r => by split <;> rfl) (due_le rfl (countsFrom_of_eq rfl))
  | seekPhases f n =>
    exact law.of_le directory (siteCounts_map _ fun r => by split <;> rfl) (due_le rfl (countsFrom_of_eq rfl))
  | setReflect o x =>
    exact law.of_le directory (siteCounts_map _ fun r => by split <;> rfl) (due_le rfl (countsFrom_of_eq rfl))
  | addRef x due => exact addRef_storesWithinRoom law due rfl rfl rfl rfl rfl
  | dropRefs p => exact law.of_le directory (List.filter_sublist.map _) (due_le rfl (countsFrom_of_eq rfl))
  | setModuleState m st => exact law.of_le directory (.refl _) (due_le rfl (setModuleState_countsFrom s m st))
  | removeModule m _ _ => exact law.of_le directory (.refl _) (due_le rfl (removeModule_countsFrom s m))
  | wantWithdraws m c other =>
    refine law.of_le directory (.refl _) ?_
    rw [due_of_noCommit (s := { s with wanted := s.withdrawFrames m, command := some c }) fun c' same => by cases same; exact other]
    exact ⟨Nat.zero_le _, Nat.zero_le _, Nat.zero_le _⟩
  | _ => exact law.of_le directory (.refl _) (due_le rfl (countsFrom_of_eq rfl))

theorem enterExport_fields {x : ExportRecord} {tag : Half} {m : Byte} {i j off sum : Nat}
    (command : s.command = some (.loadCommit tag m i j off sum)) :
    (s.enterExport x).directory = s.directory ++ [s.newEntry x m i] ∧ (s.enterExport x).refs = s.refs ∧
      (s.enterExport x).modules = s.modules ∧ (s.enterExport x).command = some (.loadCommit tag m (i + 1) j (off + 36) sum) := by
  unfold State.enterExport
  rw [command]
  exact ⟨rfl, rfl, rfl, rfl⟩

theorem meetSeek_storesWithinRoom (law : s.StoresWithinRoom) (k : Key) : (s.meetSeek k).StoresWithinRoom := by
  unfold State.meetSeek
  split
  · exact law
  · split
    · unfold State.oweOffer
      split <;> exact law.congr rfl rfl rfl rfl
    all_goals exact law

/-- What a claim, or the own ANNOUNCE, does to the tables it does to entries alone. -/
theorem meetClaim_others (s : State) (k : Key) (p : Pair) (refused : List Pair) :
    (s.meetClaim k p refused).refs = s.refs ∧ (s.meetClaim k p refused).modules = s.modules ∧
      (s.meetClaim k p refused).command = s.command := by
  unfold State.meetClaim
  split
  · exact ⟨rfl, rfl, rfl⟩
  · split
    · exact ⟨rfl, rfl, rfl⟩
    · split
      · exact ⟨rfl, rfl, rfl⟩
      · unfold State.oweClash
        split <;> exact ⟨rfl, rfl, rfl⟩
    all_goals exact ⟨rfl, rfl, rfl⟩

theorem meetOwnAnnounce_others (s : State) (k : Key) (g : Half) :
    (s.meetOwnAnnounce k g).refs = s.refs ∧ (s.meetOwnAnnounce k g).modules = s.modules ∧
      (s.meetOwnAnnounce k g).command = s.command := by
  unfold State.meetOwnAnnounce
  split
  · exact ⟨rfl, rfl, rfl⟩
  · split <;> exact ⟨rfl, rfl, rfl⟩

theorem Base.storesWithinRoom (h : Base ok s t) (law : s.StoresWithinRoom) : t.StoresWithinRoom := by
  have shrinks := h.directory
  cases h with
  | edit h => exact h.storesWithinRoom law
  | depart n cause h => exact h.keeps (fun _ _ law h => h.storesWithinRoom law) (law.congr (t := s.markAbsent n) rfl rfl rfl rfl)
  | memory _ h =>
    exact law.congr (by simpa [State.core] using congrArg State.directory h) (by simpa [State.core] using congrArg State.refs h)
      (by simpa [State.core] using congrArg State.command h) (by simpa [State.core] using congrArg State.modules h)
  | retire =>
    refine law.of_le (Nat.le_refl _) (.refl _) ?_
    rw [due_idle (s := { s with commandQueue := s.commandQueue.tail, command := none }) rfl]
    exact ⟨Nat.zero_le _, Nat.zero_le _, Nat.zero_le _⟩
  | proceed c other =>
    refine law.of_le (Nat.le_refl _) (.refl _) ?_
    rw [due_of_noCommit (s := { s with command := some c }) fun c' same => by cases same; exact other]
    exact ⟨Nat.zero_le _, Nat.zero_le _, Nat.zero_le _⟩
  | setAside =>
    refine law.of_le (Nat.le_refl _) (.refl _) ?_
    rw [setAside_due]
    exact ⟨Nat.le_refl _, Nat.le_refl _, Nat.le_refl _⟩
  | loading x _ idle _ _ =>
    refine law.of_le (Nat.le_refl _) (.refl _) ?_
    rw [due_idle (s := { s with modules := s.modules ++ [x] }) idle]
    exact ⟨Nat.zero_le _, Nat.zero_le _, Nat.zero_le _⟩
  | beginCommit tag x off _ _ h =>
    obtain ⟨exports, imports, sites⟩ := law
    have module : ({ s with modules := s.modules ++ [x], command := some (.loadCommit tag x.id 0 0 off 0) } : State).module? x.id =
        some x := by
      have fresh : s.modules.find? (fun y => decide (y.id = x.id)) = none := h.fresh
      rw [State.module?, List.find?_append, fresh]
      simp
    have due := due_of_commit (s := { s with modules := s.modules ++ [x], command := some (.loadCommit tag x.id 0 0 off 0) }) rfl module
    have exportRoom := h.exports
    have importRoom := h.imports
    have siteRoom := h.sites
    refine ⟨?_, ?_, ?_⟩
    · rw [due]
      dsimp only
      omega
    · rw [due]
      dsimp only
      omega
    · rw [due]
      change s.sitesInUse + _ ≤ _
      dsimp only
      omega
  | dropModule m _ _ _ _ => exact law.of_le (Nat.le_refl _) (.refl _) (due_le rfl (removeModule_countsFrom s m))
  | meetSeek k => exact meetSeek_storesWithinRoom law k
  | meetClaim k p refused _ =>
    obtain ⟨refs, modules, command⟩ := meetClaim_others s k p refused
    exact law.of_le (meetClaim_shrinks s k p refused).length (by rw [refs]) (due_le command (countsFrom_of_eq modules))
  | meetOwnAnnounce k g =>
    obtain ⟨refs, modules, command⟩ := meetOwnAnnounce_others s k g
    exact law.of_le (meetOwnAnnounce_shrinks s k g).length (by rw [refs]) (due_le command (countsFrom_of_eq modules))
  | removeWithdrawn k g =>
    exact law.of_le (t := s.removeWithdrawn k g) (List.length_filter_le _ _) (.refl _) (due_le rfl (countsFrom_of_eq rfl))
  | answered o => exact law.of_le (answered_shrinks s o).length (.refl _) (due_le rfl (countsFrom_of_eq rfl))
  | enterExport x due =>
    obtain ⟨exports, imports, sites⟩ := law
    obtain ⟨directory, refs, modules, command⟩ := enterExport_fields (x := x) due.command
    rw [due_of_commit due.command due.module] at exports imports sites
    have left := due_of_commit command (by rw [State.module?, modules]; exact due.module)
    have more := due.due
    refine ⟨?_, by rw [left, refs]; exact imports, by rw [left, State.sitesInUse, refs]; exact sites⟩
    rw [left, directory, List.length_append, List.length_singleton]
    dsimp only at exports ⊢
    omega
  | _ => exact law.congr rfl rfl rfl rfl

theorem submit_storesWithinRoom (law : s.StoresWithinRoom) (value : Word) : (s.submit value).StoresWithinRoom := by
  unfold State.submit
  split
  · exact law.congr rfl rfl rfl rfl
  · split <;> exact law.congr rfl rfl rfl rfl

theorem Change.storesWithinRoom (h : Change s t) (law : s.StoresWithinRoom) : t.StoresWithinRoom := by
  have directory := h.directory.length
  cases h with
  | reset n cut => exact ⟨Nat.zero_le _, Nat.zero_le _, Nat.zero_le _⟩
  | submit value => exact submit_storesWithinRoom law value
  | join tag _ =>
    have joined : ({ s with station := .joining, busSeen := false, command := some (.start tag), wanted := [.join] } :
        State).StoresWithinRoom := law.of_le (Nat.le_refl _) (.refl _) ⟨Nat.zero_le _, Nat.zero_le _, Nat.zero_le _⟩
    exact (arbitrate_edits (ok := False) _ []).keeps (fun _ _ law h => h.storesWithinRoom law) joined
  | leave tag _ _ =>
    have left : ({ s with station := .leaving, command := some (.stop tag), wanted := [.leave] } : State).StoresWithinRoom :=
      law.of_le (Nat.le_refl _) (.refl _) ⟨Nat.zero_le _, Nat.zero_le _, Nat.zero_le _⟩
    exact (arbitrate_edits (ok := False) _ []).keeps (fun _ _ law h => h.storesWithinRoom law) left
  | isolate => exact law.of_le directory (.refl _) (due_le rfl (countsFrom_of_eq rfl))
  | _ => exact law.congr rfl rfl rfl rfl

/-- Settles O18: a first pass leaves room for all it counts, and each record entered takes its place out of what is still due. -/
theorem storesWithinRoomKept : Obligations.StoresWithinRoomKept := fun _ _ law h =>
  step_keeps_any (P := State.StoresWithinRoom) (fun _ _ law => law.congr rfl rfl rfl rfl)
    (fun _ _ law h => h.keeps (fun _ _ law h => h.storesWithinRoom law) law) (fun _ _ law h => h.storesWithinRoom law) law h

end Sys2Proof.Machine

/-! Every name held is valid, and every owed refused list has at most one pair for each other station (R1, R2, R38, R129). -/

namespace Sys2Proof.Machine

variable {ok : Prop} {s t u : State}

/-! ## Entries -/

/-- What the law asks of an entry on station `n`. -/
structure ExportEntry.Sound (e : ExportEntry) (n : Station) : Prop where
  name : validName e.key.name = true
  once : (e.state.owed.map (·.station)).Nodup
  others : n ∉ e.state.owed.map (·.station)

theorem State.NamesValid.sound (law : s.NamesValid) : ∀ e ∈ s.directory, e.Sound s.number := fun e he =>
  ⟨law.entries e he, (law.owed e he).1, (law.owed e he).2⟩

theorem ExportEntry.Sound.of {e e' : ExportEntry} {n : Station} (h : e.Sound n) (key : e'.key = e.key)
    (owed : e'.state.owed.Sublist e.state.owed) : e'.Sound n :=
  ⟨by rw [key]; exact h.name, h.once.sublist (owed.map _), fun own => h.others ((owed.map _).subset own)⟩

theorem ExportEntry.Sound.nothing {e : ExportEntry} {n : Station} (name : validName e.key.name = true) (owed : e.state.owed = []) :
    e.Sound n := by
  refine ⟨name, ?_, ?_⟩ <;> rw [owed]
  · exact List.nodup_nil
  · exact List.not_mem_nil

/-- The names of the frames a list holds. -/
def FramesNamed (l : List TxEntry) : Prop := ∀ x ∈ l, ∀ n, x.name? = some n → validName n = true

/-- The law, where the tables hold no name but those they held. -/
theorem State.NamesValid.of (law : s.NamesValid) (number : t.number = s.number) (directory : ∀ e ∈ t.directory, e.Sound s.number)
    (refs : ∀ k ∈ t.refs.map (·.key), k ∈ s.refs.map (·.key)) (slots : ∀ x, some x ∈ t.slots → validName x.key.name = true)
    (queued : FramesNamed (t.txQueue ++ t.wanted)) (received : ∀ x ∈ t.rxQueue, x ∈ s.rxQueue) : t.NamesValid where
  entries e he := (directory e he).name
  refs r hr := by
    obtain ⟨r', hr', key⟩ := List.mem_map.mp (refs _ (List.mem_map_of_mem hr))
    rw [← key]
    exact law.refs r' hr'
  slots := slots
  queued := queued
  owed e he := number ▸ ⟨(directory e he).once, (directory e he).others⟩
  owners f hf := law.owners f (received _ hf)

theorem State.NamesValid.congr (law : s.NamesValid) (number : t.number = s.number) (directory : t.directory = s.directory)
    (refs : t.refs = s.refs) (slots : t.slots = s.slots) (queue : t.txQueue = s.txQueue) (wanted : t.wanted = s.wanted)
    (received : t.rxQueue = s.rxQueue) : t.NamesValid :=
  law.of number (directory ▸ law.sound) (refs ▸ fun _ => id) (slots ▸ law.slots) (by rw [queue, wanted]; exact law.queued)
    (received ▸ fun _ => id)

/-- Only the directory and the answer list change. -/
theorem State.NamesValid.entered (law : s.NamesValid) (number : t.number = s.number) (directory : ∀ e ∈ t.directory, e.Sound s.number)
    (refs : t.refs = s.refs) (slots : t.slots = s.slots) (queue : t.txQueue = s.txQueue) (wanted : t.wanted = s.wanted)
    (received : t.rxQueue = s.rxQueue) : t.NamesValid :=
  law.of number directory (refs ▸ fun _ => id) (slots ▸ law.slots) (by rw [queue, wanted]; exact law.queued) (received ▸ fun _ => id)

/-- A map of the entries that changes no key and lets owed pairs go, but adds none. -/
theorem sound_map {f : ExportEntry → ExportEntry} {n : Station} {d : List ExportEntry} (h : ∀ e ∈ d, e.Sound n)
    (kept : ∀ e, (f e).key = e.key ∧ (f e).state.owed.Sublist e.state.owed) : ∀ e ∈ d.map f, e.Sound n := by
  intro e he
  obtain ⟨e', he', rfl⟩ := List.mem_map.mp he
  exact (h e' he').of (kept e').1 (kept e').2

/-! ## The tables' edits -/

theorem keys_map (refs : List Ref) {f : Ref → Ref} (h : ∀ r, (f r).key = r.key) :
    ∀ k ∈ (refs.map f).map (·.key), k ∈ refs.map (·.key) := by
  intro k hk
  rw [List.map_map] at hk
  obtain ⟨r, hr, rfl⟩ := List.mem_map.mp hk
  exact List.mem_map.mpr ⟨r, hr, (h r).symm⟩

theorem withdrawFrames_named (law : s.NamesValid) (m : Byte) : FramesNamed (s.withdrawFrames m) := by
  intro x hx n hn
  obtain ⟨e, he, rfl⟩ := List.mem_map.mp hx
  cases hn
  exact law.entries e (List.mem_filter.mp he).1

theorem framesNamed_append {a b : List TxEntry} (ha : FramesNamed a) (hb : FramesNamed b) : FramesNamed (a ++ b) := fun x hx =>
  (List.mem_append.mp hx).elim (ha x) (hb x)

theorem State.NamesValid.queue (law : s.NamesValid) : FramesNamed s.txQueue := fun x hx => law.queued x (List.mem_append_left _ hx)

theorem State.NamesValid.requests (law : s.NamesValid) : FramesNamed s.wanted := fun x hx => law.queued x (List.mem_append_right _ hx)

theorem Edit.namesValid (h : Edit ok s t) (law : s.NamesValid) : t.NamesValid := by
  cases h with
  | lists h =>
    exact law.congr (by simpa [State.core] using congrArg State.number h) (by simpa [State.core] using congrArg State.directory h)
      (by simpa [State.core] using congrArg State.refs h) (by simpa [State.core] using congrArg State.slots h)
      (by simpa [State.core] using congrArg State.txQueue h) (by simpa [State.core] using congrArg State.wanted h)
      (by simpa [State.core] using congrArg State.rxQueue h)
  | setPhase o p _ =>
    exact law.of (t := s.setPhase o p) rfl law.sound (keys_map _ fun r => by split <;> rfl) law.slots law.queued fun _ => id
  | seekPhases f n => exact law.of rfl law.sound (keys_map _ fun r => by split <;> rfl) law.slots law.queued fun _ => id
  | setReflect o x =>
    exact law.of (t := s.setReflect o x) rfl law.sound (keys_map _ fun r => by split <;> rfl) law.slots law.queued fun _ => id
  | addRef x due =>
    refine { law with refs := fun r hr => ?_ }
    obtain old | new := List.mem_append.mp hr
    · exact law.refs r old
    · obtain rfl := List.mem_singleton.mp new
      exact due.valid
  | dropRefs p => exact { law with refs := fun r hr => law.refs r (List.mem_filter.mp hr).1 }
  | slots l _ keys =>
    refine { law with slots := fun x hx => ?_ }
    obtain ⟨y, hy, key⟩ | key := keys x hx
    · rw [← key]
      exact law.slots y hy
    · obtain ⟨r, hr, key⟩ := List.mem_map.mp key
      rw [← key]
      exact law.refs r hr
  | queueSeek n x hx _ =>
    refine { law with queued := framesNamed_append (framesNamed_append law.queue fun y hy n hn => ?_) law.requests }
    obtain rfl := List.mem_singleton.mp hy
    cases hn
    exact law.slots x hx
  | placeFrame x xs h _ =>
    have requests : FramesNamed (x :: xs) := h ▸ law.requests
    refine { law with queued := framesNamed_append (framesNamed_append law.queue fun y hy => ?_) fun y hy => ?_ }
    · obtain rfl := List.mem_singleton.mp hy
      exact requests y List.mem_cons_self
    · exact requests y (List.mem_cons_of_mem _ hy)
  | withdrawFrames => exact { law with queued := framesNamed_append law.queue fun _ h => nomatch h }
  | dropPairs gone =>
    refine law.entered (t := s.dropPairs gone) rfl (sound_map law.sound fun e => ?_) rfl rfl rfl rfl rfl
    split
    · next owed live => exact ⟨rfl, by rw [live]; exact List.filter_sublist⟩
    all_goals exact ⟨rfl, .refl _⟩
  | withdrawEntries m =>
    refine law.entered (t := s.withdrawEntries m) rfl (fun e he => ?_) rfl rfl rfl rfl rfl
    obtain ⟨e', he', kept⟩ := List.mem_filterMap.mp he
    refine (law.sound e' he').of (withdrawn_kept kept).1 ?_
    unfold ExportEntry.withdrawn at kept
    split at kept
    · split at kept <;> cases kept
      · exact List.nil_sublist _
      · exact List.nil_sublist _
      · exact .refl _
    · cases kept
      exact .refl _
  | wantWithdraws m c _ => exact { law with queued := framesNamed_append law.queue (withdrawFrames_named law m) }
  | dropEntries p _ => exact law.entered rfl (fun e he => law.sound e (List.mem_filter.mp he).1) rfl rfl rfl rfl rfl
  | _ => exact law.congr rfl rfl rfl rfl rfl rfl rfl

/-! ## Claims (R42, R43, R52) -/

theorem recordPair_stations (owed : List Pair) (p : Pair) : (recordPair owed p).map (·.station) =
    if p.station ∈ owed.map (·.station) then owed.map (·.station) else owed.map (·.station) ++ [p.station] := by
  have known : (owed.any fun q => decide (q.station = p.station)) = true ↔ p.station ∈ owed.map (·.station) := by
    rw [List.any_eq_true, List.mem_map]
    exact exists_congr fun q => and_congr_right fun _ => decide_eq_true_iff
  unfold recordPair
  split
  · next h =>
    rw [if_pos (known.mp h), List.map_map]
    refine List.map_congr_left fun q _ => ?_
    simp only [Function.comp]
    split
    · next same => exact same.symm
    · rfl
  · next h => rw [if_neg fun k => h (known.mpr k), List.map_append, List.map_singleton]

/-- A claim of another station leaves one pair for each station. -/
theorem recordPair_sound {e x : ExportEntry} {n : Station} {owed : List Pair} (h : e.Sound n) (live : e.state = .live owed) {p : Pair}
    (other : p.station ≠ n) (name : validName x.key.name = true) :
    ({ x with state := .live (recordPair owed p) } : ExportEntry).Sound n := by
  obtain ⟨-, once, others⟩ := h
  rw [live] at once others
  change (owed.map (·.station)).Nodup at once
  change n ∉ owed.map (·.station) at others
  refine ⟨name, ?_, ?_⟩
  · change ((recordPair owed p).map (·.station)).Nodup
    rw [recordPair_stations]
    split
    · exact once
    · next new => exact List.nodup_append.mpr ⟨once, List.nodup_singleton _, fun a ha b hb same => by
        obtain rfl := List.mem_singleton.mp hb
        exact new (same ▸ ha)⟩
  · change n ∉ (recordPair owed p).map (·.station)
    rw [recordPair_stations]
    split
    · exact others
    · rw [List.mem_append, List.mem_singleton]
      exact fun own => own.elim others fun same => other same.symm

theorem setEntry_namesValid (law : s.NamesValid) {e : ExportEntry} {st : ExportState}
    (sound : ∀ x ∈ s.directory, x.owner = e.owner → ({ x with state := st } : ExportEntry).Sound s.number) :
    (s.setEntry e.owner st).NamesValid := by
  refine law.entered (t := s.setEntry e.owner st) rfl (fun x hx => ?_) rfl rfl rfl rfl rfl
  obtain ⟨y, hy, rfl⟩ := List.mem_map.mp hx
  split
  · next same => exact sound y hy same
  · exact law.sound y hy

theorem setEntry_nothing (law : s.NamesValid) (e : ExportEntry) {st : ExportState} (owed : st.owed = []) :
    (s.setEntry e.owner st).NamesValid :=
  setEntry_namesValid law fun x hx _ => .nothing (law.entries x hx) owed

theorem refuse_namesValid (law : s.NamesValid) (e : ExportEntry) (p : Pair) : (s.refuse e.owner p).NamesValid :=
  (setEntry_nothing law e (st := .refused p) rfl).congr rfl rfl rfl rfl rfl rfl rfl

theorem meetSeek_namesValid (law : s.NamesValid) (k : Key) : (s.meetSeek k).NamesValid := by
  unfold State.meetSeek
  split
  · exact law
  · split
    · unfold State.oweOffer
      split <;> exact law.congr rfl rfl rfl rfl rfl rfl rfl
    all_goals exact law

theorem meetClaim_namesValid (law : s.NamesValid) (k : Key) {p : Pair} (refused : List Pair) (other : p.station ≠ s.number) :
    (s.meetClaim k p refused).NamesValid := by
  unfold State.meetClaim
  split
  · exact law
  · next e found =>
    split
    · exact refuse_namesValid law e p
    · next owed live =>
      split
      · exact refuse_namesValid law e p
      · have recorded : (s.setEntry e.owner (.live (recordPair owed p))).NamesValid :=
          setEntry_namesValid law fun x hx _ => recordPair_sound (law.sound e (entryOf_mem found)) live other (law.entries x hx)
        unfold State.oweClash
        split
        · exact recorded
        · exact recorded.congr rfl rfl rfl rfl rfl rfl rfl
    all_goals exact law

theorem meetOwnAnnounce_namesValid (law : s.NamesValid) (k : Key) (g : Half) : (s.meetOwnAnnounce k g).NamesValid := by
  unfold State.meetOwnAnnounce
  split
  · exact law
  · next e _ =>
    split
    · exact setEntry_nothing law e (st := .live []) rfl
    · exact law

theorem enterExport_namesValid (law : s.NamesValid) {x : ExportRecord} {tag : Half} {m : Byte} {i j off sum : Nat} {rec : ModuleRecord}
    (due : s.ExportDue x tag m i j off sum rec) : (s.enterExport x).NamesValid := by
  unfold State.enterExport
  rw [due.command]
  refine law.of rfl (fun e he => ?_) (fun _ => id) law.slots (framesNamed_append law.queue fun y hy n hn => ?_) fun _ => id
  · obtain old | new := List.mem_append.mp he
    · exact law.sound e old
    · obtain rfl := List.mem_singleton.mp new
      exact .nothing due.valid rfl
  · obtain rfl := List.mem_singleton.mp hy
    cases hn
    exact due.valid

/-- Every change of a move keeps the law where the claims met are other stations'. -/
theorem Base.namesValid (h : Base True s t) (law : s.NamesValid) : t.NamesValid := by
  cases h with
  | edit h => exact h.namesValid law
  | depart n cause h =>
    exact h.keeps (fun _ _ law h => h.namesValid law) (law.congr (t := s.markAbsent n) rfl rfl rfl rfl rfl rfl rfl)
  | memory _ h =>
    exact law.congr (by simpa [State.core] using congrArg State.number h) (by simpa [State.core] using congrArg State.directory h)
      (by simpa [State.core] using congrArg State.refs h) (by simpa [State.core] using congrArg State.slots h)
      (by simpa [State.core] using congrArg State.txQueue h) (by simpa [State.core] using congrArg State.wanted h)
      (by simpa [State.core] using congrArg State.rxQueue h)
  | meetSeek k => exact meetSeek_namesValid law k
  | meetClaim k p refused other => exact meetClaim_namesValid law k refused (other trivial)
  | meetOwnAnnounce k g => exact meetOwnAnnounce_namesValid law k g
  | removeWithdrawn k g =>
    exact law.entered (t := s.removeWithdrawn k g) rfl (fun e he => law.sound e (List.mem_filter.mp he).1) rfl rfl rfl rfl rfl
  | answered o =>
    refine law.entered (t := s.leaveSource (.answer o)) rfl (sound_map law.sound fun e => ?_) rfl rfl rfl rfl rfl
    split
    · split
      · exact ⟨rfl, List.nil_sublist _⟩
      · exact ⟨rfl, .refl _⟩
    all_goals exact ⟨rfl, .refl _⟩
  | freePlace =>
    exact { law with queued := framesNamed_append (fun x hx => law.queue x (List.mem_of_mem_tail hx)) law.requests }
  | takeRx x rest h => exact { law with owners := fun f hf => law.owners f (h ▸ List.mem_cons_of_mem x hf) }
  | receive f owner _ =>
    refine { law with owners := fun g hg => ?_ }
    obtain old | new := List.mem_append.mp hg
    · exact law.owners g old
    · cases List.mem_singleton.mp new
      exact owner
  | marker n _ =>
    refine { law with owners := fun g hg => ?_ }
    obtain old | new := List.mem_append.mp hg
    · exact law.owners g old
    · cases List.mem_singleton.mp new
  | emptyQueues _ => exact { law with queued := framesNamed_append (fun _ h => (nomatch h)) law.requests, owners := fun _ h => (nomatch h) }
  | enterExport x due => exact enterExport_namesValid law due
  | _ => exact law.congr rfl rfl rfl rfl rfl rfl rfl

theorem submit_namesValid (law : s.NamesValid) (value : Word) : (s.submit value).NamesValid := by
  unfold State.submit
  split
  · exact law.congr rfl rfl rfl rfl rfl rfl rfl
  · split <;> exact law.congr rfl rfl rfl rfl rfl rfl rfl

theorem isolated_namesValid (law : s.NamesValid) : s.cutFromBus.NamesValid := by
  refine law.of (t := s.cutFromBus) rfl (sound_map law.sound fun e => ?_) (fun _ => id) (fun x hx => ?_) (fun _ h => nomatch h)
    fun _ h => nomatch h
  · unfold ExportEntry.isolated
    split
    · exact ⟨rfl, List.nil_sublist _⟩
    all_goals exact ⟨rfl, .refl _⟩
  · obtain ⟨o, ho, isolated⟩ := List.mem_map.mp hx
    obtain ⟨y, rfl, rfl⟩ := Option.map_eq_some_iff.mp isolated
    exact law.slots y ho

theorem framesNamed_unnamed {x : TxEntry} (h : x.name? = none) : FramesNamed [x] := fun y hy n hn => by
  obtain rfl := List.mem_singleton.mp hy
  exact nomatch h.symm.trans hn

theorem Change.namesValid (h : Change s t) (law : s.NamesValid) : t.NamesValid := by
  cases h with
  | reset n cut =>
    exact ⟨fun _ h => (nomatch h), fun _ h => (nomatch h), fun _ h => absurd (List.eq_of_mem_replicate h) (by simp),
      fun _ h => (nomatch h), fun _ h => (nomatch h), fun _ h => (nomatch h)⟩
  | submit value => exact submit_namesValid law value
  | join tag _ =>
    have joined : ({ s with station := .joining, busSeen := false, command := some (.start tag), wanted := [.join] } :
        State).NamesValid := { law with queued := framesNamed_append law.queue (framesNamed_unnamed rfl) }
    exact (arbitrate_edits (ok := False) _ []).keeps (fun _ _ law h => h.namesValid law) joined
  | leave tag _ _ =>
    have left : ({ s with station := .leaving, command := some (.stop tag), wanted := [.leave] } : State).NamesValid :=
      { law with queued := framesNamed_append law.queue (framesNamed_unnamed rfl) }
    exact (arbitrate_edits (ok := False) _ []).keeps (fun _ _ law h => h.namesValid law) left
  | isolate => exact isolated_namesValid law
  | _ => exact law.congr rfl rfl rfl rfl rfl rfl rfl

/-! ## The frames begun (R129) -/

theorem name_length {name : List Byte} (h : validName name = true) : 1 ≤ name.length ∧ name.length ≤ 24 := by
  obtain ⟨least, most, -⟩ := (validName_iff name).mp h
  exact ⟨least, most⟩

/-- An owed refused list has at most one pair for each of the 15 other stations. -/
theorem ExportEntry.Sound.owed_length {e : ExportEntry} {n : Station} (h : e.Sound n) : e.state.owed.length ≤ 15 := by
  have all : (n :: e.state.owed.map (·.station)).Nodup := List.nodup_cons.mpr ⟨h.others, h.once⟩
  have most := all.length_le_card
  rw [List.length_cons, List.length_map, Fintype.card_fin] at most
  omega

theorem queuedFrame_carriable {x : TxEntry} (h : ∀ n, x.name? = some n → validName n = true) : (s.queuedFrame x).carriable = true := by
  cases x with
  | join => rfl
  | leave => rfl
  | announce k g target kind => exact decide_eq_true (name_length (h _ rfl))
  | withdraw k g => exact decide_eq_true (name_length (h _ rfl))
  | seek n k => exact decide_eq_true (name_length (h _ rfl))

theorem answerFrame_carriable (law : s.NamesValid) {o : Owner} {f : Frame} (h : s.answerFrame = some (o, f)) : f.carriable = true := by
  unfold State.answerFrame at h
  split at h
  · cases h
  · split at h
    · cases h
    · next e found =>
      cases h
      have member := List.mem_of_find?_eq_some found
      have name := name_length (law.entries e member)
      have most := (law.sound e member).owed_length
      unfold Frame.carriable
      cases owed : e.state.owed with
      | nil => exact decide_eq_true name
      | cons p ps =>
        rw [owed] at most
        exact decide_eq_true ⟨name.1, name.2, rfl, by simp, most⟩

/-- The heads that are dropped leave a queue whose names are valid. -/
theorem dropHeads_namesValid (n : Nat) : ∀ {s : State}, s.NamesValid → (s.dropHeads n).NamesValid := by
  induction n with
  | zero => exact fun law => law
  | succ n ih =>
    intro s law
    unfold State.dropHeads
    split
    · exact law
    · next x xs queue =>
      split
      · exact law
      · have freed : ({ s with txQueue := xs } : State).NamesValid :=
          { law with queued := framesNamed_append (fun y hy => law.queue y (queue ▸ List.mem_cons_of_mem x hy)) law.requests }
        exact ih ((arbitrate_edits (ok := False) _ []).keeps (fun _ _ law h => h.namesValid law) freed)

theorem beginFrame_carriable (law : s.NamesValid) {source : Source} {f : Frame} (quiet : s.line = .quiet)
    (line : s.beginFrame.line = .contending source f) : f.carriable = true := by
  cases answers : s.answers with
  | nil =>
    rw [beginFrame_of_queue answers] at line
    have dropped := dropHeads_namesValid s.headRounds law
    cases queue : (s.dropHeads s.headRounds).txQueue with
    | nil =>
      rw [beginQueued_of_nil queue, dropHeads_line, quiet] at line
      cases line
    | cons x xs =>
      rw [beginQueued_of_cons queue] at line
      cases line
      exact queuedFrame_carriable (dropped.queue x (queue ▸ List.mem_cons_self))
  | cons a as =>
    cases frame : s.answerFrame with
    | none =>
      have none_ : s.beginFrame = s := by
        unfold State.beginFrame
        split
        · rw [frame]
        · next empty => cases answers.symm.trans empty
      rw [none_, quiet] at line
      cases line
    | some p =>
      rw [beginFrame_of_answer answers frame] at line
      cases line
      exact answerFrame_carriable law frame

/-- Settles O19: names enter with records that have been read, and are copied; the frame begun is of a name held. -/
theorem namesValidKept : Obligations.NamesValidKept := by
  refine ⟨fun s t law h => ?_, fun s t idle source f law h moved line => ?_⟩
  · exact step_keeps (P := State.NamesValid) (fun _ _ law => law.congr rfl rfl rfl rfl rfl rfl rfl)
      (fun _ _ law h => h.keeps (fun _ _ law h => h.namesValid law) law) (fun _ _ law h => h.namesValid law) (fun _ law => law.owners) law h
  · by_cases may : s.mayBegin idle = true
    · rw [exec_frameBegin may] at h
      cases h
      obtain ⟨-, -, ⟨quiet, -⟩, -⟩ := (mayBegin_iff s idle).mp may
      exact beginFrame_carriable law quiet line
    · exact absurd (Host.Outcome.next.inj (h.symm.trans (congrArg Host.Outcome.next (if_neg may)))) moved

end Sys2Proof.Machine

/-! The law of definers (R61): a binding names the own station or a station that is present. A departure breaks it only until its
revocation has dropped the bindings of the station that goes (R87). -/

namespace Sys2Proof.Machine

variable {s t u : State}

/-! ## Stations present -/

theorem isPresent_updatePeer {n m : Station} {f : Peer → Peer} (h : ∀ p, p.present = true → (f p).present = true)
    (present : s.isPresent n = true) : (s.updatePeer m f).isPresent n = true := by
  unfold State.isPresent State.updatePeer at *
  rw [List.getElem?_modify]
  cases found : s.peers[n.val]? with
  | none =>
    rw [found] at present
    cases present
  | some p =>
    rw [found] at present
    simp only [Option.map_eq_map, Option.map_some]
    split
    · exact h p present
    · exact present

theorem isPresent_markAbsent {n m : Station} (other : n ≠ m) (present : s.isPresent n = true) :
    (s.markAbsent m).isPresent n = true := by
  unfold State.isPresent State.markAbsent State.updatePeer at *
  rw [List.getElem?_modify_ne _ _ (fun same => other (Fin.ext same.symm))]
  exact present

/-- The station a binding names is the own one or is present. -/
def State.Known (s : State) (b : Binding) : Prop := b.definer = s.number ∨ s.isPresent b.definer = true

theorem known_of_offers (law : s.DefinersPresent) {b : Binding} (h : s.Offers True b) : s.Known b := by
  obtain own | ⟨r, hr, binding⟩ | present := h
  · exact .inl own
  · exact law.definers r hr b binding
  · exact .inr (present trivial law.table)

/-! ## The parts of the law -/

/-- The law, of a state whose references, module table and presence come from one that keeps it. -/
theorem State.DefinersPresent.of (law : s.DefinersPresent) (number : t.number = s.number)
    (definers : ∀ r ∈ t.refs, ∀ b, r.phase.binding? = some b → s.Known b)
    (present : ∀ n, s.isPresent n = true → t.isPresent n = true) (received : ∀ x ∈ t.rxQueue, x ∈ s.rxQueue)
    (modules : ∀ r ∈ t.refs, ∃ m ∈ t.modules, m.id = r.owner.module)
    (joined : t.station ≠ .active → t.station ≠ .isolated → t.modules = []) (table : t.peers.length = s.peers.length) :
    t.DefinersPresent where
  definers r hr b hb := (definers r hr b hb).imp (fun own => own.trans number.symm) (present _)
  owners f hf := law.owners f (received _ hf)
  markers own := law.markers (number ▸ received _ own)
  modules := modules
  joined := joined
  table := table.trans law.table

theorem State.DefinersPresent.congr (law : s.DefinersPresent) (number : t.number = s.number) (refs : t.refs = s.refs)
    (peers : t.peers = s.peers) (received : t.rxQueue = s.rxQueue) (modules : t.modules = s.modules)
    (station : t.station = s.station) : t.DefinersPresent :=
  law.of number (refs ▸ law.definers) (fun n h => by rwa [State.isPresent, peers]) (received ▸ fun _ => id)
    (refs ▸ modules ▸ law.modules) (station ▸ modules ▸ law.joined) (by rw [peers])

/-- The references of modules that stay keep their modules. -/
theorem modules_filter (law : s.DefinersPresent) {p : ModuleRecord → Bool}
    (kept : ∀ r ∈ s.refs, ∀ m ∈ s.modules, m.id = r.owner.module → p m = true) :
    ∀ r ∈ s.refs, ∃ m ∈ s.modules.filter p, m.id = r.owner.module := by
  intro r hr
  obtain ⟨m, hm, id⟩ := law.modules r hr
  exact ⟨m, List.mem_filter.mpr ⟨hm, kept r hr m hm id⟩, id⟩

theorem ownsNothing_refs {m : Byte} (h : s.ownsNothing m = true) : ∀ r ∈ s.refs, r.owner.module ≠ m := by
  intro r hr same
  unfold State.ownsNothing at h
  simp only [Bool.and_eq_true, Bool.not_eq_true', List.any_eq_false, decide_eq_true_eq] at h
  exact h.2 r hr same

/-- References that keep their owners, with bindings that are known. -/
theorem definers_map (law : s.DefinersPresent) (number : t.number = s.number) {f : Ref → Ref} (refs : t.refs = s.refs.map f)
    (owner : ∀ r, (f r).owner = r.owner) (binding : ∀ r ∈ s.refs, ∀ b, (f r).phase.binding? = some b → s.Known b)
    (peers : t.peers = s.peers) (received : t.rxQueue = s.rxQueue) (modules : t.modules = s.modules)
    (station : t.station = s.station) : t.DefinersPresent := by
  refine law.of number (fun r hr b hb => ?_) (fun n h => by rwa [State.isPresent, peers]) (received ▸ fun _ => id) (fun r hr => ?_)
    (station ▸ modules ▸ law.joined) (by rw [peers])
  · rw [refs] at hr
    obtain ⟨r', hr', rfl⟩ := List.mem_map.mp hr
    exact binding r' hr' b hb
  · rw [refs] at hr
    obtain ⟨r', hr', rfl⟩ := List.mem_map.mp hr
    rw [owner, modules]
    exact law.modules r' hr'

theorem Edit.definersPresent (h : Edit True s t) (law : s.DefinersPresent) : t.DefinersPresent := by
  cases h with
  | lists h =>
    exact law.congr (by simpa [State.core] using congrArg State.number h) (by simpa [State.core] using congrArg State.refs h)
      (by simpa [State.core] using congrArg State.peers h) (by simpa [State.core] using congrArg State.rxQueue h)
      (by simpa [State.core] using congrArg State.modules h) (by simpa [State.core] using congrArg State.station h)
  | setPhase o p h =>
    refine definers_map (t := s.setPhase o p) law rfl rfl (fun r => by split <;> rfl) (fun r hr b hb => ?_) rfl rfl rfl rfl
    split at hb
    · exact known_of_offers law (h b hb)
    · exact law.definers r hr b hb
  | seekPhases f n =>
    refine definers_map law rfl rfl (fun r => by split <;> rfl) (fun r hr b hb => ?_) rfl rfl rfl rfl
    split at hb
    · cases hb
    · exact law.definers r hr b hb
  | setReflect o x =>
    refine definers_map (t := s.setReflect o x) law rfl rfl (fun r => by split <;> rfl) (fun r hr b hb => ?_) rfl rfl rfl rfl
    split at hb <;> exact law.definers r hr b hb
  | addRef x due =>
    refine { law with definers := fun r hr b hb => ?_, modules := fun r hr => ?_ }
    · obtain old | new := List.mem_append.mp hr
      · exact law.definers r old b hb
      · obtain rfl := List.mem_singleton.mp new
        cases hb
    · obtain old | new := List.mem_append.mp hr
      · exact law.modules r old
      · obtain rfl := List.mem_singleton.mp new
        exact ⟨_, List.mem_of_find?_eq_some due.module, by simpa using List.find?_some due.module⟩
  | dropRefs p =>
    exact { law with
      definers := fun r hr => law.definers r (List.mem_filter.mp hr).1, modules := fun r hr => law.modules r (List.mem_filter.mp hr).1 }
  | setModuleState m st =>
    refine law.of (t := s.setModuleState m st) rfl law.definers (fun _ => id) (fun _ => id) (fun r hr => ?_) (fun off out => ?_) rfl
    · obtain ⟨x, hx, id⟩ := law.modules r hr
      refine ⟨_, List.mem_map_of_mem hx, ?_⟩
      split <;> exact id
    · exact (congrArg (List.map _) (law.joined off out)).trans rfl
  | removeModule m gone _ =>
    refine law.of (t := s.removeModule m) rfl law.definers (fun _ => id) (fun _ => id)
      (modules_filter law fun r hr x _ id => decide_eq_true (id ▸ gone r hr)) (fun off out => ?_) rfl
    exact (congrArg (List.filter _) (law.joined off out)).trans rfl
  | _ => exact law.congr rfl rfl rfl rfl rfl rfl

/-! ## The station that goes (R87, R93, R94, R96) -/

/-- Stage 1 of a revocation leaves a binding only to references that it does not meet. -/
theorem dropBindings_refs (cause : RevocationCause) (l : List Ref) : ∀ (s : State) (r : Ref), r ∈ (l.foldl (State.dropBinding cause) s).refs →
    r.phase.binding?.isSome = true → r ∈ s.refs ∧ ∀ x ∈ l, x.owner ≠ r.owner := by
  induction l with
  | nil => exact fun s r hr _ => ⟨hr, fun _ h => nomatch h⟩
  | cons x l ih =>
    intro s r hr bound
    obtain ⟨member, others⟩ := ih _ r hr bound
    obtain ⟨r', hr', same⟩ := List.mem_map.mp (show r ∈ s.refs.map fun r => if r.owner = x.owner then { r with phase := .waiting } else r from member)
    split at same
    · rw [← same] at bound
      cases bound
    · next other =>
      subst same
      exact ⟨hr', fun y hy => (List.mem_cons.mp hy).elim (fun e => e ▸ fun h => other h.symm) (others y)⟩

theorem dropBinding_owners (cause : RevocationCause) (s : State) (r : Ref) :
    (State.dropBinding cause s r).refs.map (·.owner) = s.refs.map (·.owner) := by
  change (s.refs.map fun x => if x.owner = r.owner then { x with phase := .waiting } else x).map (·.owner) = _
  rw [List.map_map]
  refine List.map_congr_left fun x _ => ?_
  simp only [Function.comp]
  split <;> rfl

/-- Once the bindings of the station that goes have been dropped, every binding left is known. -/
theorem dropBindings_definersPresent (law : s.DefinersPresent) (n : Station) (cause : PeerLoss) :
    let v := (s.markAbsent n).post (.peerGone n cause)
    ((v.refs.filter (Ref.meets fun _ b => decide (b.definer = n))).foldl (State.dropBinding .peerGone) v).DefinersPresent := by
  intro v
  have kept := fun {α : Type} (g : State → α) (h : ∀ s r, g (State.dropBinding .peerGone s r) = g s) =>
    foldl_kept g (State.dropBinding .peerGone) h (v.refs.filter (Ref.meets fun _ b => decide (b.definer = n))) v
  have peers := kept State.peers fun _ _ => rfl
  have number := kept State.number fun _ _ => rfl
  have received := kept State.rxQueue fun _ _ => rfl
  have modules := kept State.modules fun _ _ => rfl
  have station := kept State.station fun _ _ => rfl
  have owners := kept (fun s => s.refs.map (·.owner)) (dropBinding_owners .peerGone)
  refine ⟨fun r hr b hb => ?_, fun f hf => law.owners f (received ▸ hf), fun own => law.markers ?_, fun r hr => ?_, fun off out => ?_, ?_⟩
  · obtain ⟨member, others⟩ := dropBindings_refs .peerGone _ v r hr (Option.isSome_of_eq_some hb)
    have other : b.definer ≠ n := fun gone =>
      others r (List.mem_filter.mpr ⟨member, by rw [Ref.meets, hb]; exact decide_eq_true gone⟩) rfl
    rw [number, State.isPresent, peers]
    exact (law.definers r member b hb).imp id (isPresent_markAbsent other)
  · rw [number, received] at own
    exact own
  · have owner : r.owner ∈ v.refs.map (·.owner) := owners ▸ List.mem_map_of_mem hr
    obtain ⟨r', hr', same⟩ := List.mem_map.mp owner
    rw [modules, ← same]
    exact law.modules r' hr'
  · rw [station] at off out
    rw [modules]
    exact law.joined off out
  · rw [peers]
    exact (List.length_modify ..).trans law.table

theorem depart_definersPresent (law : s.DefinersPresent) (n : Station) (cause : PeerLoss) :
    ((s.markAbsent n).losePeer n cause).DefinersPresent := by
  have dropped := dropBindings_definersPresent law n cause
  refine Edits.keeps (fun _ _ law h => h.definersPresent law) dropped (.tail ?_ (.dropPairs _ _))
  refine (Reworked.foldl (fun t r _ key => seekEntry_reworked t r key) fun r hr => ?_).edits
  have keys := foldl_kept (fun s => s.refs.map (·.key)) (State.dropBinding .peerGone) (fun s r => setPhase_keys s r.owner .waiting)
    (((s.markAbsent n).post (.peerGone n cause)).refs.filter (Ref.meets fun _ b => decide (b.definer = n)))
    ((s.markAbsent n).post (.peerGone n cause))
  exact (congrArg (r.key ∈ ·) keys).mpr (key_mem (List.mem_filter.mp hr).1)

theorem Base.definersPresent (h : Base True s t) (law : s.DefinersPresent) : t.DefinersPresent := by
  cases h with
  | edit h => exact h.definersPresent law
  | depart n cause _ => exact depart_definersPresent law n cause
  | memory _ h =>
    exact law.congr (by simpa [State.core] using congrArg State.number h) (by simpa [State.core] using congrArg State.refs h)
      (by simpa [State.core] using congrArg State.peers h) (by simpa [State.core] using congrArg State.rxQueue h)
      (by simpa [State.core] using congrArg State.modules h) (by simpa [State.core] using congrArg State.station h)
  | setAside =>
    refine law.of rfl law.definers (fun _ => id) (fun _ => id) (modules_filter law fun r hr m _ id => ?_) (fun off out => ?_) rfl
    · rw [Bool.not_eq_true', State.isLoading, Bool.and_eq_false_iff]
      refine .inr (Bool.eq_false_iff.mpr fun owns => ?_)
      exact ownsNothing_refs owns r hr id.symm
    · exact (congrArg (List.filter _) (law.joined off out)).trans rfl
  | loading x active _ _ _ =>
    refine { law with modules := fun r hr => ?_, joined := fun off _ => absurd active off }
    obtain ⟨m, hm, id⟩ := law.modules r hr
    exact ⟨m, List.mem_append_left _ hm, id⟩
  | beginCommit tag x off active _ _ =>
    refine { law with modules := fun r hr => ?_, joined := fun off _ => absurd active off }
    obtain ⟨m, hm, id⟩ := law.modules r hr
    exact ⟨m, List.mem_append_left _ hm, id⟩
  | dropModule m owns _ _ _ =>
    refine law.of (t := s.removeModule m) rfl law.definers (fun _ => id) (fun _ => id)
      (modules_filter law fun r hr x _ id => decide_eq_true (id ▸ ownsNothing_refs owns r hr)) (fun off out => ?_) rfl
    exact (congrArg (List.filter _) (law.joined off out)).trans rfl
  | updatePeer n f h =>
    exact law.of (t := s.updatePeer n f) rfl law.definers (fun _ => isPresent_updatePeer h) (fun _ => id) law.modules law.joined
      (List.length_modify ..)
  | meetSeek k =>
    unfold State.meetSeek
    split
    · exact law
    · split
      · unfold State.oweOffer
        split <;> exact law.congr rfl rfl rfl rfl rfl rfl
      all_goals exact law
  | meetClaim k p refused _ =>
    unfold State.meetClaim
    split
    · exact law
    · split
      · exact law.congr rfl rfl rfl rfl rfl rfl
      · split
        · exact law.congr rfl rfl rfl rfl rfl rfl
        · unfold State.oweClash
          split <;> exact law.congr rfl rfl rfl rfl rfl rfl
      all_goals exact law
  | meetOwnAnnounce k g =>
    unfold State.meetOwnAnnounce
    split
    · exact law
    · split
      · exact law.congr rfl rfl rfl rfl rfl rfl
      · exact law
  | takeRx x rest h =>
    refine law.of rfl law.definers (fun _ => id) (fun y hy => ?_) law.modules law.joined rfl
    rw [h]
    exact List.mem_cons_of_mem x hy
  | receive f owner _ =>
    refine { law with owners := fun g hg => ?_, markers := fun own => ?_ }
    · obtain old | new := List.mem_append.mp hg
      · exact law.owners g old
      · cases List.mem_singleton.mp new
        exact owner
    · obtain old | new := List.mem_append.mp own
      · exact law.markers old
      · cases List.mem_singleton.mp new
  | marker n other =>
    refine { law with owners := fun g hg => ?_, markers := fun own => ?_ }
    · obtain old | new := List.mem_append.mp hg
      · exact law.owners g old
      · cases List.mem_singleton.mp new
    · obtain old | new := List.mem_append.mp own
      · exact law.markers old
      · exact other (RxItem.lapse.inj (List.mem_singleton.mp new)).symm
  | emptyQueues _ => exact { law with owners := fun _ h => (nomatch h), markers := fun h => (nomatch h) }
  | enterExport x due =>
    unfold State.enterExport
    split <;> exact law.congr rfl rfl rfl rfl rfl rfl
  | _ => exact law.congr rfl rfl rfl rfl rfl rfl

theorem submit_definersPresent (law : s.DefinersPresent) (value : Word) : (s.submit value).DefinersPresent := by
  unfold State.submit
  split
  · exact law.congr rfl rfl rfl rfl rfl rfl
  · split <;> exact law.congr rfl rfl rfl rfl rfl rfl

/-- Without modules there is no reference. -/
theorem State.DefinersPresent.no_ref (law : s.DefinersPresent) (none_ : s.modules = []) (r : Ref) : r ∉ s.refs := fun hr => by
  obtain ⟨m, hm, -⟩ := law.modules r hr
  rw [none_] at hm
  cases hm

theorem Change.definersPresent (h : Change s t) (law : s.DefinersPresent) : t.DefinersPresent := by
  cases h with
  | reset n cut =>
    exact ⟨fun _ h => (nomatch h), fun _ h => (nomatch h), fun h => (nomatch h), fun _ h => (nomatch h), fun _ _ => rfl, List.length_replicate⟩
  | resetLow => exact law.congr rfl rfl rfl rfl rfl rfl
  | submit value => exact submit_definersPresent law value
  | configure c off _ =>
    exact { law with joined := fun _ _ => law.joined (by rw [off]; exact fun h => nomatch h) (by rw [off]; exact fun h => nomatch h) }
  | join tag configured =>
    have empty : s.modules = [] :=
      law.joined (by rw [configured]; exact fun h => nomatch h) (by rw [configured]; exact fun h => nomatch h)
    have joined : ({ s with station := .joining, busSeen := false, command := some (.start tag), wanted := [.join] } :
        State).DefinersPresent := { law with joined := fun _ _ => empty }
    exact (arbitrate_edits (ok := True) _ []).keeps (fun _ _ law h => h.definersPresent law) joined
  | leave tag _ empty =>
    have left : ({ s with station := .leaving, command := some (.stop tag), wanted := [.leave] } : State).DefinersPresent :=
      { law with joined := fun _ _ => empty }
    exact (arbitrate_edits (ok := True) _ []).keeps (fun _ _ law h => h.definersPresent law) left
  | isolate =>
    exact ⟨law.definers, fun _ h => (nomatch h), fun h => (nomatch h), law.modules, fun _ out => absurd rfl out, law.table⟩
  | left leaving =>
    have empty : s.modules = [] :=
      law.joined (by rw [leaving]; exact fun h => nomatch h) (by rw [leaving]; exact fun h => nomatch h)
    exact { law with
      definers := fun r hr => absurd hr (law.no_ref empty r), joined := fun _ _ => empty, table := List.length_replicate }
  | joined => exact { law with joined := fun out _ => absurd rfl out }

/-- Settles O17: a binding comes from the own directory, from a reference that holds it, or from a station that has just been
heard. -/
theorem definersPresentKept : Obligations.DefinersPresentKept := fun _ _ law h =>
  step_keeps (P := State.DefinersPresent) (fun _ _ law => law.congr rfl rfl rfl rfl rfl rfl)
    (fun _ _ law h => h.keeps (fun _ _ law h => h.definersPresent law) law) (fun _ _ law h => h.definersPresent law)
    (fun _ law => law.owners) law h

end Sys2Proof.Machine

/-! Every owner names one entry and one reference, each of a module of the table, and the commit pass has entered no record from its
next index on (R15, R25, R26, R35). -/

namespace Sys2Proof.Machine

variable {ok : Prop} {s t u : State}

/-! ## What no single edit breaks -/

/-- The owners of the entries of the directory and of the references. -/
def State.owners (s : State) : List Owner := s.directory.map (·.owner) ++ s.refs.map (·.owner)

/-- The law of owners but for the module of the commit pass in progress, which an abandoned LOAD outlives for part of its event. -/
structure State.OwnersOnce (s : State) : Prop where
  exportOwners : (s.directory.map (·.owner)).Nodup
  refOwners : (s.refs.map (·.owner)).Nodup
  modules : ∀ o ∈ s.owners, ∃ m ∈ s.modules, m.id = o.module
  commit : ∀ tag m nextExport nextImport offset sum, s.command = some (.loadCommit tag m nextExport nextImport offset sum) →
    (∀ e ∈ s.directory, e.owner.module = m → e.owner.index < nextExport) ∧
    (∀ r ∈ s.refs, r.owner.module = m → r.owner.index < nextImport)

/-- The module of the commit pass in progress is in the table. -/
def State.CommitModule (s : State) : Prop :=
  ∀ tag m nextExport nextImport offset sum, s.command = some (.loadCommit tag m nextExport nextImport offset sum) →
    ∃ x ∈ s.modules, x.id = m

theorem ownersDistinct_iff (s : State) : s.OwnersDistinct ↔ s.OwnersOnce ∧ s.CommitModule := by
  constructor
  · intro law
    refine ⟨⟨law.exportOwners, law.refOwners, fun o ho => ?_, fun tag m i j off sum command => (law.commit _ _ _ _ _ _ command).2⟩,
      fun tag m i j off sum command => (law.commit _ _ _ _ _ _ command).1⟩
    obtain entry | ref := List.mem_append.mp ho
    · obtain ⟨e, he, rfl⟩ := List.mem_map.mp entry
      exact law.exportModules e he
    · obtain ⟨r, hr, rfl⟩ := List.mem_map.mp ref
      exact law.refModules r hr
  · rintro ⟨law, commit⟩
    exact ⟨law.exportOwners, law.refOwners, fun e he => law.modules _ (List.mem_append_left _ (List.mem_map_of_mem he)),
      fun r hr => law.modules _ (List.mem_append_right _ (List.mem_map_of_mem hr)),
      fun tag m i j off sum command => ⟨commit _ _ _ _ _ _ command, law.commit _ _ _ _ _ _ command⟩⟩

/-- A commit pass of `t` is one of `s`. -/
def State.CommitOf (t s : State) : Prop := ∀ c, t.command = some c → c.isCommit = true → s.command = some c

theorem commitOf_of_eq (h : t.command = s.command) : t.CommitOf s := fun _ command _ => h ▸ command

theorem State.OwnersOnce.of (law : s.OwnersOnce) (directory : (t.directory.map (·.owner)).Sublist (s.directory.map (·.owner)))
    (refs : (t.refs.map (·.owner)).Sublist (s.refs.map (·.owner)))
    (modules : ∀ o ∈ t.owners, ∀ m ∈ s.modules, m.id = o.module → ∃ m ∈ t.modules, m.id = o.module) (commit : t.CommitOf s) :
    t.OwnersOnce where
  exportOwners := law.exportOwners.sublist directory
  refOwners := law.refOwners.sublist refs
  modules o ho := by
    obtain ⟨m, hm, id⟩ := law.modules o ((directory.append refs).subset ho)
    exact modules o ho m hm id
  commit tag m i j off sum command := by
    obtain ⟨entries, references⟩ := law.commit _ _ _ _ _ _ (commit _ command rfl)
    refine ⟨fun e he => ?_, fun r hr => ?_⟩
    · obtain ⟨e', he', same⟩ := List.mem_map.mp (directory.subset (List.mem_map_of_mem he))
      rw [← same]
      exact entries e' he'
    · obtain ⟨r', hr', same⟩ := List.mem_map.mp (refs.subset (List.mem_map_of_mem hr))
      rw [← same]
      exact references r' hr'

theorem State.OwnersOnce.congr (law : s.OwnersOnce) (directory : t.directory = s.directory) (refs : t.refs = s.refs)
    (modules : t.modules = s.modules) (command : t.command = s.command) : t.OwnersOnce :=
  law.of (by rw [directory]) (by rw [refs]) (fun o _ m hm id => ⟨m, modules ▸ hm, id⟩) (commitOf_of_eq command)

/-- References that keep their owners. -/
theorem owners_map (refs : List Ref) {f : Ref → Ref} (h : ∀ r, (f r).owner = r.owner) :
    ((refs.map f).map (·.owner)).Sublist (refs.map (·.owner)) := by
  have same : (refs.map f).map (·.owner) = refs.map (·.owner) := by
    rw [List.map_map]
    exact List.map_congr_left fun r _ => h r
  rw [same]

theorem owners_append (owners : List Owner) {o : Owner} (once : owners.Nodup) (new : o ∉ owners) : (owners ++ [o]).Nodup :=
  List.nodup_append.mpr ⟨once, List.nodup_singleton _, fun a ha b hb same => by
    obtain rfl := List.mem_singleton.mp hb
    exact new (same ▸ ha)⟩

theorem addRef_ownersOnce (law : s.OwnersOnce) {x : ImportRecord} {tag : Half} {m : Byte} {i j off off' sum sum' : Nat}
    {rec : ModuleRecord} (due : s.ImportDue x tag m i j off sum rec) {r : Ref} (owner : r.owner = { module := m, index := j })
    (refs : t.refs = s.refs ++ [r]) (command : t.command = some (.loadCommit tag m i (j + 1) off' sum'))
    (modules : t.modules = s.modules) (directory : t.directory = s.directory) : t.OwnersOnce := by
  obtain ⟨entries, references⟩ := law.commit _ _ _ _ _ _ due.command
  have known : ∃ x ∈ s.modules, x.id = m := ⟨_, List.mem_of_find?_eq_some due.module, by simpa using List.find?_some due.module⟩
  refine ⟨directory ▸ law.exportOwners, ?_, fun o ho => ?_, fun tag' m' i' j' off'' sum'' command' => ?_⟩
  · rw [refs, List.map_append, List.map_singleton, owner]
    refine owners_append _ law.refOwners fun old => ?_
    obtain ⟨r', hr', same⟩ := List.mem_map.mp old
    have := references r' hr' (by rw [same])
    rw [same] at this
    exact Nat.lt_irrefl _ this
  · rw [State.owners, directory, refs, List.map_append, ← List.append_assoc, List.map_singleton, owner] at ho
    rw [modules]
    obtain old | new := List.mem_append.mp ho
    · exact law.modules o old
    · obtain rfl := List.mem_singleton.mp new
      exact known
  · cases command.symm.trans command'
    refine ⟨directory ▸ entries, fun r' hr' same => ?_⟩
    rw [refs] at hr'
    obtain old | new := List.mem_append.mp hr'
    · exact Nat.lt_succ_of_lt (references r' old same)
    · obtain rfl := List.mem_singleton.mp new
      rw [owner]
      exact Nat.lt_succ_self j

theorem enterExport_ownersOnce (law : s.OwnersOnce) {x : ExportRecord} {tag : Half} {m : Byte} {i j off sum : Nat}
    {rec : ModuleRecord} (due : s.ExportDue x tag m i j off sum rec) : (s.enterExport x).OwnersOnce := by
  obtain ⟨entries, references⟩ := law.commit _ _ _ _ _ _ due.command
  have known : ∃ x ∈ s.modules, x.id = m := ⟨_, List.mem_of_find?_eq_some due.module, by simpa using List.find?_some due.module⟩
  obtain ⟨directory, refs, modules, command⟩ := enterExport_fields (x := x) due.command
  refine ⟨?_, refs ▸ law.refOwners, fun o ho => ?_, fun tag' m' i' j' off'' sum'' command' => ?_⟩
  · rw [directory, List.map_append, List.map_singleton]
    refine owners_append _ law.exportOwners fun old => ?_
    obtain ⟨e, he, same⟩ := List.mem_map.mp old
    have := entries e he (by rw [same]; rfl)
    rw [same] at this
    exact Nat.lt_irrefl _ this
  · rw [State.owners, refs, directory, List.map_append] at ho
    rw [modules]
    obtain entry | ref := List.mem_append.mp ho
    · obtain old | new := List.mem_append.mp entry
      · exact law.modules o (List.mem_append_left _ old)
      · obtain rfl := List.mem_singleton.mp new
        exact known
    · exact law.modules o (List.mem_append_right _ ref)
  · cases command.symm.trans command'
    refine ⟨fun e he same => ?_, refs ▸ references⟩
    rw [directory] at he
    obtain old | new := List.mem_append.mp he
    · exact Nat.lt_succ_of_lt (entries e old same)
    · obtain rfl := List.mem_singleton.mp new
      exact Nat.lt_succ_self i

/-- Modules that own something stay. -/
theorem modules_kept {m : Byte} (gone : ∀ o ∈ s.owners, o.module ≠ m) :
    ∀ o ∈ s.owners, ∀ x ∈ s.modules, x.id = o.module → ∃ x ∈ (s.removeModule m).modules, x.id = o.module :=
  fun o ho x hx id => ⟨x, List.mem_filter.mpr ⟨hx, decide_eq_true (id ▸ gone o ho)⟩, id⟩

theorem ownsNothing_owners {m : Byte} (h : s.ownsNothing m = true) : ∀ o ∈ s.owners, o.module ≠ m := by
  intro o ho same
  unfold State.ownsNothing at h
  simp only [Bool.and_eq_true, Bool.not_eq_true', List.any_eq_false, decide_eq_true_eq] at h
  obtain ⟨entries, references⟩ := h
  obtain entry | ref := List.mem_append.mp ho
  · obtain ⟨e, he, rfl⟩ := List.mem_map.mp entry
    exact entries e he same
  · obtain ⟨r, hr, rfl⟩ := List.mem_map.mp ref
    exact references r hr same

theorem Edit.ownersOnce (h : Edit ok s t) (law : s.OwnersOnce) : t.OwnersOnce := by
  have directory := h.directory.owners
  cases h with
  | lists h =>
    exact law.congr (by simpa [State.core] using congrArg State.directory h) (by simpa [State.core] using congrArg State.refs h)
      (by simpa [State.core] using congrArg State.modules h) (by simpa [State.core] using congrArg State.command h)
  | setPhase o p _ =>
    exact law.of directory (owners_map _ fun r => by split <;> rfl) (fun _ _ m hm id => ⟨m, hm, id⟩) (commitOf_of_eq rfl)
  | seekPhases f n =>
    exact law.of directory (owners_map _ fun r => by split <;> rfl) (fun _ _ m hm id => ⟨m, hm, id⟩) (commitOf_of_eq rfl)
  | setReflect o x =>
    exact law.of directory (owners_map _ fun r => by split <;> rfl) (fun _ _ m hm id => ⟨m, hm, id⟩) (commitOf_of_eq rfl)
  | addRef x due => exact addRef_ownersOnce law due rfl rfl rfl rfl rfl
  | dropRefs p => exact law.of directory (List.filter_sublist.map _) (fun _ _ m hm id => ⟨m, hm, id⟩) (commitOf_of_eq rfl)
  | setModuleState m st =>
    refine law.of directory (.refl _) (fun _ _ x hx id => ⟨_, List.mem_map_of_mem hx, ?_⟩) (commitOf_of_eq rfl)
    split <;> exact id
  | removeModule m refs entries =>
    refine law.of directory (.refl _) (modules_kept (s := s) (m := m) fun o ho => ?_) (commitOf_of_eq rfl)
    obtain entry | ref := List.mem_append.mp ho
    · obtain ⟨e, he, rfl⟩ := List.mem_map.mp entry
      exact entries e he
    · obtain ⟨r, hr, rfl⟩ := List.mem_map.mp ref
      exact refs r hr
  | wantWithdraws m c other =>
    refine law.of directory (.refl _) (fun _ _ m hm id => ⟨m, hm, id⟩) fun c' command commit => ?_
    cases command
    rw [other] at commit
    cases commit
  | _ => exact law.of directory (.refl _) (fun _ _ m hm id => ⟨m, hm, id⟩) (commitOf_of_eq rfl)

theorem Base.ownersOnce (h : Base ok s t) (law : s.OwnersOnce) : t.OwnersOnce := by
  cases h with
  | edit h => exact h.ownersOnce law
  | depart n cause h => exact h.keeps (fun _ _ law h => h.ownersOnce law) (law.congr (t := s.markAbsent n) rfl rfl rfl rfl)
  | memory _ h =>
    exact law.congr (by simpa [State.core] using congrArg State.directory h) (by simpa [State.core] using congrArg State.refs h)
      (by simpa [State.core] using congrArg State.modules h) (by simpa [State.core] using congrArg State.command h)
  | retire => exact law.of (.refl _) (.refl _) (fun _ _ m hm id => ⟨m, hm, id⟩) fun _ command _ => nomatch command
  | proceed c other =>
    refine law.of (.refl _) (.refl _) (fun _ _ m hm id => ⟨m, hm, id⟩) fun c' command commit => ?_
    cases command
    rw [other] at commit
    cases commit
  | setAside =>
    refine law.of (.refl _) (.refl _) (fun o ho m hm id => ⟨m, List.mem_filter.mpr ⟨hm, ?_⟩, id⟩) (commitOf_of_eq rfl)
    rw [Bool.not_eq_true', State.isLoading, Bool.and_eq_false_iff]
    exact .inr (Bool.eq_false_iff.mpr fun owns => ownsNothing_owners owns o ho id.symm)
  | loading x _ _ _ _ => exact law.of (.refl _) (.refl _) (fun _ _ m hm id => ⟨m, List.mem_append_left _ hm, id⟩) (commitOf_of_eq rfl)
  | beginCommit tag x off _ _ h =>
    have fresh : ∀ o ∈ s.owners, o.module ≠ x.id := fun o ho same => by
      obtain ⟨m, hm, id⟩ := law.modules o ho
      have none_ := List.find?_eq_none.mp h.fresh m hm
      exact none_ (decide_eq_true (id.trans same))
    refine ⟨law.exportOwners, law.refOwners, fun o ho => ?_, fun tag' m' i j off' sum command => ?_⟩
    · obtain ⟨m, hm, id⟩ := law.modules o ho
      exact ⟨m, List.mem_append_left _ hm, id⟩
    · cases command
      exact ⟨fun e he same => absurd same (fresh _ (List.mem_append_left _ (List.mem_map_of_mem he))),
        fun r hr same => absurd same (fresh _ (List.mem_append_right _ (List.mem_map_of_mem hr)))⟩
  | dropModule m owns _ _ _ => exact law.of (.refl _) (.refl _) (modules_kept (ownsNothing_owners owns)) (commitOf_of_eq rfl)
  | meetSeek k =>
    unfold State.meetSeek
    split
    · exact law
    · split
      · unfold State.oweOffer
        split <;> exact law.congr rfl rfl rfl rfl
      all_goals exact law
  | meetClaim k p refused _ =>
    obtain ⟨refs, modules, command⟩ := meetClaim_others s k p refused
    exact law.of (meetClaim_shrinks s k p refused).owners (by rw [refs]) (fun _ _ m hm id => ⟨m, modules ▸ hm, id⟩)
      (commitOf_of_eq command)
  | meetOwnAnnounce k g =>
    obtain ⟨refs, modules, command⟩ := meetOwnAnnounce_others s k g
    exact law.of (meetOwnAnnounce_shrinks s k g).owners (by rw [refs]) (fun _ _ m hm id => ⟨m, modules ▸ hm, id⟩)
      (commitOf_of_eq command)
  | removeWithdrawn k g =>
    exact law.of (t := s.removeWithdrawn k g) (List.filter_sublist.map _) (.refl _) (fun _ _ m hm id => ⟨m, hm, id⟩) (commitOf_of_eq rfl)
  | answered o => exact law.of (answered_shrinks s o).owners (.refl _) (fun _ _ m hm id => ⟨m, hm, id⟩) (commitOf_of_eq rfl)
  | enterExport x due => exact enterExport_ownersOnce law due
  | _ => exact law.congr rfl rfl rfl rfl

theorem submit_tables (s : State) (value : Word) : (s.submit value).refs = s.refs ∧ (s.submit value).modules = s.modules ∧
    (s.submit value).command = s.command ∧ (s.submit value).slots = s.slots ∧ (s.submit value).backlog = s.backlog ∧
    (s.submit value).patchQueue = s.patchQueue := by
  unfold State.submit
  split
  · exact ⟨rfl, rfl, rfl, rfl, rfl, rfl⟩
  · split <;> exact ⟨rfl, rfl, rfl, rfl, rfl, rfl⟩

theorem Change.ownersOnce (h : Change s t) (law : s.OwnersOnce) : t.OwnersOnce := by
  have directory := h.directory.owners
  cases h with
  | reset n cut => exact ⟨List.nodup_nil, List.nodup_nil, fun _ h => (nomatch h), fun _ _ _ _ _ _ h => (nomatch h)⟩
  | submit value =>
    obtain ⟨refs, modules, command, -⟩ := submit_tables s value
    exact law.congr (submit_directory s value) refs modules command
  | join tag _ =>
    have joined : ({ s with station := .joining, busSeen := false, command := some (.start tag), wanted := [.join] } :
        State).OwnersOnce := law.of (.refl _) (.refl _) (fun _ _ m hm id => ⟨m, hm, id⟩) fun _ command commit => by
          cases command
          cases commit
    exact (arbitrate_edits (ok := False) _ []).keeps (fun _ _ law h => h.ownersOnce law) joined
  | leave tag _ _ =>
    have left : ({ s with station := .leaving, command := some (.stop tag), wanted := [.leave] } : State).OwnersOnce :=
      law.of (.refl _) (.refl _) (fun _ _ m hm id => ⟨m, hm, id⟩) fun _ command commit => by
        cases command
        cases commit
    exact (arbitrate_edits (ok := False) _ []).keeps (fun _ _ law h => h.ownersOnce law) left
  | isolate => exact law.of directory (.refl _) (fun _ _ m hm id => ⟨m, hm, id⟩) (commitOf_of_eq rfl)
  | _ => exact law.congr rfl rfl rfl rfl

/-! ## The module of the commit pass -/

theorem ids_of_sameModules {a b : List ModuleRecord} (h : sameModules a b) : a.map (·.id) = b.map (·.id) := by
  have ids := congrArg (List.map ModuleRecord.id) h
  rw [List.map_map, List.map_map] at ids
  exact ids

theorem State.CommitModule.of (law : s.CommitModule) (ids : ∀ n ∈ s.modules.map (·.id), n ∈ t.modules.map (·.id)) (commit : t.CommitOf s) :
    t.CommitModule := by
  intro tag m i j off sum command
  obtain ⟨x, hx, id⟩ := law _ _ _ _ _ _ (commit _ command rfl)
  obtain ⟨y, hy, same⟩ := List.mem_map.mp (ids _ (List.mem_map_of_mem hx))
  exact ⟨y, hy, same.trans id⟩

theorem State.CommitModule.congr (law : s.CommitModule) (modules : t.modules = s.modules) (command : t.command = s.command) :
    t.CommitModule :=
  law.of (by rw [modules]; exact fun _ => id) (commitOf_of_eq command)

theorem State.CommitModule.frame (law : s.CommitModule) (modules : sameModules t.modules s.modules) (command : t.command = s.command) :
    t.CommitModule :=
  law.of (by rw [ids_of_sameModules modules]; exact fun _ => id) (commitOf_of_eq command)

theorem commitModule_other (h : ∀ c, s.command = some c → c.isCommit = false) : s.CommitModule := fun _ _ _ _ _ _ command =>
  nomatch h _ command

theorem Effect.commitModule (h : Effect ok s u) (law : s.CommitModule) : u.CommitModule := by
  cases h with
  | clash k b refused _ => exact law.frame (clashKey_frame s k b refused).modules (clashKey_frame s k b refused).command
  | revoke criterion cause => exact law.frame (revoke_frame s criterion cause).modules (revoke_frame s criterion cause).command
  | withdraw criterion cause gone =>
    have frame := (revoke_frame s criterion cause).table.trans (dropPairs_frame _ gone)
    exact law.frame frame.modules frame.command
  | depart n cause =>
    have frame := (markAbsent_frame s n).trans (losePeer_frame _ n cause)
    exact law.frame frame.modules frame.command
  | rejoin n cause => exact law.frame (losePeer_frame s n cause).modules (losePeer_frame s n cause).command
  | giveUp m begun c other => exact commitModule_other fun c' command => by cases command; exact other
  | exhaust n => exact law.frame (exhaust_frame s n).modules (exhaust_frame s n).command
  | enterImport x due =>
    have frame := enterImport_frame (x := x) due.command
    intro tag' m' i' j' off' sum' command
    rw [frame.command] at command
    cases command
    obtain ⟨y, hy, id⟩ := law _ _ _ _ _ _ due.command
    obtain ⟨z, hz, same⟩ := List.mem_map.mp ((ids_of_sameModules frame.modules).symm ▸ List.mem_map_of_mem (f := (·.id)) hy :
      y.id ∈ (s.enterImport x).modules.map (·.id))
    exact ⟨z, hz, same.trans id⟩
  | reseek p _ => exact law.frame (foldl_reseekRef_frame _ s).modules (foldl_reseekRef_frame _ s).command
  | beginWalk r _ => exact law.frame (beginWalk_frame s r).modules (beginWalk_frame s r).command
  | afterSite w => exact law.frame (afterSite_frame s w).modules (afterSite_frame s w).command
  | busFault o k => exact law.frame (busFault_frame s o k).modules (busFault_frame s o k).command

theorem Move.commitModule (h : Move ok s t) (law : s.CommitModule) : t.CommitModule := by
  cases h with
  | aside h => exact law.congr (by simpa [State.core] using congrArg State.modules h) (by simpa [State.core] using congrArg State.command h)
  | memory _ h => exact law.congr (by simpa [State.core] using congrArg State.modules h) (by simpa [State.core] using congrArg State.command h)
  | retire => exact commitModule_other fun c command => nomatch command
  | proceed c other => exact commitModule_other fun c' command => by cases command; exact other
  | setAside =>
    cases command : s.command with
    | none => exact commitModule_other fun c command' => nomatch command'
    | some c => exact law.congr (otherModules_of_command command) command.symm
  | loading x _ idle _ _ => exact commitModule_other fun c command => nomatch idle.symm.trans command
  | beginCommit tag x off _ _ _ =>
    intro tag' m' i j off' sum command
    cases command
    exact ⟨x, List.mem_append_right _ (List.mem_singleton_self x), rfl⟩
  | setModuleState m st =>
    refine law.of (t := s.setModuleState m st) (fun n hn => ?_) (commitOf_of_eq rfl)
    obtain ⟨x, hx, rfl⟩ := List.mem_map.mp hn
    refine List.mem_map.mpr ⟨_, List.mem_map_of_mem hx, ?_⟩
    split <;> rfl
  | dropModule m _ c command other =>
    refine commitModule_other (s := s.removeModule m) fun c' command' => ?_
    cases command.symm.trans command'
    exact other
  | meetSeek k => exact law.frame (meetSeek_frame s k).modules (meetSeek_frame s k).command
  | meetClaim k p refused _ => exact law.frame (meetClaim_frame s k p refused).modules (meetClaim_frame s k p refused).command
  | meetOwnAnnounce k g => exact law.frame (meetOwnAnnounce_frame s k g).modules (meetOwnAnnounce_frame s k g).command
  | arbitrate order => exact law.frame (arbitrate_frame s order).modules (arbitrate_frame s order).command
  | leaveQueue ts _ =>
    have frame := arbitrate_frame { s with txQueue := ts } []
    exact law.frame frame.modules frame.command
  | enterOut k => exact law.frame (enterOut_frame s k).modules (enterOut_frame s k).command
  | retry n tries x _ =>
    have frame := (enterToSend_frame s n x.key tries).trans (arbitrate_frame _ [])
    exact law.frame frame.modules frame.command
  | enterExport x due =>
    have frame := arbitrate_frame (s.enterExport x) []
    obtain ⟨-, -, modules, command⟩ := enterExport_fields (x := x) due.command
    intro tag' m' i' j' off' sum' command'
    rw [frame.command, command] at command'
    cases command'
    obtain ⟨y, hy, id⟩ := law _ _ _ _ _ _ due.command
    obtain ⟨z, hz, same⟩ := List.mem_map.mp ((ids_of_sameModules frame.modules).symm ▸ modules.symm ▸ List.mem_map_of_mem (f := (·.id)) hy :
      y.id ∈ ((s.enterExport x).arbitrate []).modules.map (·.id))
    exact ⟨z, hz, same.trans id⟩
  | event h b order _ => exact (h.commitModule law).frame (endEvent_frame _ b order).modules (endEvent_frame _ b order).command
  | abandon tag m begun _ _ => exact commitModule_other fun c command => nomatch command
  | _ => exact law.congr rfl rfl

theorem Change.commitModule (h : Change s t) (law : s.CommitModule) : t.CommitModule := by
  cases h with
  | reset n cut => exact commitModule_other fun c command => nomatch command
  | submit value =>
    obtain ⟨-, modules, command, -⟩ := submit_tables s value
    exact law.congr modules command
  | join tag _ =>
    refine commitModule_other fun c command => ?_
    rw [State.startJoining, (arbitrate_frame _ []).command] at command
    cases command
    rfl
  | leave tag _ _ =>
    refine commitModule_other fun c command => ?_
    rw [(arbitrate_frame _ []).command] at command
    cases command
    rfl
  | _ => exact law.congr rfl rfl

theorem Move.ownersDistinct (h : Move ok s t) (law : s.OwnersDistinct) : t.OwnersDistinct := by
  rw [ownersDistinct_iff] at law ⊢
  exact ⟨h.keeps (fun _ _ law h => h.ownersOnce law) law.1, h.commitModule law.2⟩

theorem Change.ownersDistinct (h : Change s t) (law : s.OwnersDistinct) : t.OwnersDistinct := by
  rw [ownersDistinct_iff] at law ⊢
  exact ⟨h.ownersOnce law.1, h.commitModule law.2⟩

end Sys2Proof.Machine

/-! The laws of seek slots and of the backlog on the tables that serving works on (R68, R77): what keeps them, and that serving
does (R78). -/

namespace Sys2Proof.Machine

/-! ## Keys -/

theorem agrees_iff (a b : Key) : a.agrees b = true ↔ a.scope = b.scope ∧ a.name = b.name ∧ (a.scope = .common ∨ a.group = b.group) := by
  simp [Key.agrees, and_assoc]

theorem agrees_symm {a b : Key} (h : a.agrees b = true) : b.agrees a = true := by
  obtain ⟨scope, name, group⟩ := (agrees_iff a b).mp h
  exact (agrees_iff b a).mpr ⟨scope.symm, name.symm, group.imp (scope ▸ ·) Eq.symm⟩

theorem agrees_trans {a b c : Key} (h : a.agrees b = true) (k : b.agrees c = true) : a.agrees c = true :=
  Key.agrees_of_both h (agrees_symm k)

/-! ## The law on the tables -/

/-- The phases that the slots and the backlog speak of: QUEUED and SEEKING. -/
def Phase.listed : Phase → Bool
  | .queued => true
  | .seeking _ => true
  | _ => false

/-- The laws of seek slots and of the backlog but for its serving, on the tables that serving works on. -/
structure SeekTables.Sound (x : SeekTables) : Prop where
  law : x.Law
  keys : ∀ (i j : Nat) (a b : Slot), x.slots[i]? = some (some a) → x.slots[j]? = some (some b) → a.key.agrees b.key = true → i = j
  used : ∀ (n : Nat) (a : Slot), x.slots[n]? = some (some a) → ∃ r ∈ x.refs, r.phase = .seeking n ∧ r.key.agrees a.key = true
  seeking : ∀ r ∈ x.refs, ∀ n, r.phase = .seeking n → ∃ a, x.slots[n]? = some (some a) ∧ a.key.agrees r.key = true

variable {x y : SeekTables}

/-- Slots that are freed or stay, and references that seek on or no longer. -/
theorem SeekTables.Sound.shrink (h : x.Sound) (law : y.Law)
    (slots : ∀ (n : Nat) (a : Slot), y.slots[n]? = some (some a) → ∃ b, x.slots[n]? = some (some b) ∧ a.key = b.key)
    (refs : ∀ r ∈ y.refs, ∀ n, r.phase = .seeking n → ∃ q ∈ x.refs, q.phase = .seeking n ∧ q.key = r.key)
    (used : ∀ (n : Nat) (a : Slot), y.slots[n]? = some (some a) → ∃ r ∈ y.refs, r.phase = .seeking n)
    (kept : ∀ r ∈ y.refs, ∀ n, r.phase = .seeking n → ∃ a, y.slots[n]? = some (some a)) : y.Sound := by
  have agree : ∀ r ∈ y.refs, ∀ n, r.phase = .seeking n → ∀ a, y.slots[n]? = some (some a) → a.key.agrees r.key = true := by
    intro r hr n phase a ha
    obtain ⟨q, hq, same, key⟩ := refs r hr n phase
    obtain ⟨b, hb, old⟩ := slots n a ha
    obtain ⟨b', hb', agrees⟩ := h.seeking q hq n same
    cases hb.symm.trans hb'
    rw [old, ← key]
    exact agrees
  refine ⟨law, fun i j a b ha hb agrees => ?_, fun n a ha => ?_, fun r hr n phase => ?_⟩
  · obtain ⟨a', ha', keyA⟩ := slots i a ha
    obtain ⟨b', hb', keyB⟩ := slots j b hb
    rw [keyA, keyB] at agrees
    exact h.keys i j a' b' ha' hb' agrees
  · obtain ⟨r, hr, phase⟩ := used n a ha
    exact ⟨r, hr, phase, agrees_symm (agree r hr n phase a ha)⟩
  · obtain ⟨a, ha⟩ := kept r hr n phase
    exact ⟨a, ha, agree r hr n phase a ha⟩

/-- References change, none of them from or to a phase that the slots or the backlog speak of. -/
theorem SeekTables.Sound.rephased (h : x.Sound) (f : Ref → Ref) (owner : ∀ r, (f r).owner = r.owner) (key : ∀ r ∈ x.refs, (f r).key = r.key)
    (phase : ∀ r ∈ x.refs, (f r).phase = r.phase ∨ r.phase.listed = false ∧ (f r).phase.listed = false) :
    SeekTables.Sound { x with refs := x.refs.map f } := by
  have same : ∀ r ∈ x.refs, ∀ p : Phase, p.listed = true → ((f r).phase = p ↔ r.phase = p) := by
    intro r hr p listed
    obtain same | ⟨was, is⟩ := phase r hr
    · rw [same]
    · constructor
      · rintro rfl
        rw [is] at listed
        cases listed
      · rintro rfl
        rw [was] at listed
        cases listed
  refine h.shrink (h.law.next f _ _ owner (.refl _) fun q hq => ?_) (fun n a ha => ⟨a, ha, rfl⟩) (fun r hr n phase => ?_)
    (fun n a ha => ?_) fun r hr n phase => ?_
  · rw [same q hq .queued rfl]
    exact ⟨fun queued => ⟨queued, (h.law.queued _).mpr ⟨q, hq, rfl, queued⟩⟩, And.left⟩
  · obtain ⟨q, hq, rfl⟩ := List.mem_map.mp hr
    exact ⟨q, hq, (same q hq _ rfl).mp phase, (key q hq).symm⟩
  · obtain ⟨q, hq, phase, -⟩ := h.used n a ha
    exact ⟨f q, List.mem_map_of_mem hq, (same q hq _ rfl).mpr phase⟩
  · obtain ⟨q, hq, rfl⟩ := List.mem_map.mp hr
    obtain ⟨a, ha, -⟩ := h.seeking q hq n ((same q hq _ rfl).mp phase)
    exact ⟨a, ha⟩

/-- References of a key join its slot. -/
theorem SeekTables.Sound.joins (h : x.Sound) (f : Ref → Ref) {n : Nat} {z : Slot} {backlog : List Owner}
    (law : SeekTables.Law { x with refs := x.refs.map f, backlog := backlog }) (slot : x.slots[n]? = some (some z))
    (key : ∀ r ∈ x.refs, (f r).key = r.key)
    (phase : ∀ r ∈ x.refs, (f r).phase = r.phase ∨
      (f r).phase = .seeking n ∧ z.key.agrees r.key = true ∧ ∀ m, r.phase ≠ .seeking m) :
    SeekTables.Sound { x with refs := x.refs.map f, backlog := backlog } := by
  refine ⟨law, h.keys, fun m a ha => ?_, fun r hr m seeks => ?_⟩
  · obtain ⟨q, hq, seeks, agrees⟩ := h.used m a ha
    refine ⟨f q, List.mem_map_of_mem hq, ?_, by rw [key q hq]; exact agrees⟩
    obtain same | ⟨-, -, never⟩ := phase q hq
    · exact same.trans seeks
    · exact absurd seeks (never m)
  · obtain ⟨q, hq, rfl⟩ := List.mem_map.mp hr
    rw [key q hq]
    obtain same | ⟨now, agrees, -⟩ := phase q hq
    · exact h.seeking q hq m (same.symm.trans seeks)
    · cases now.symm.trans seeks
      exact ⟨z, slot, agrees⟩

/-- References of a key that no slot holds take a free one. -/
theorem SeekTables.Sound.takes (h : x.Sound) (f : Ref → Ref) {n : Nat} {z : Slot} {backlog : List Owner}
    (law : SeekTables.Law { refs := x.refs.map f, slots := x.slots.set n (some z), backlog := backlog })
    (free : x.slots[n]? = some none) (new : ∀ a, some a ∈ x.slots → a.key.agrees z.key = false)
    (key : ∀ r ∈ x.refs, (f r).key = r.key)
    (phase : ∀ r ∈ x.refs, (f r).phase = r.phase ∨
      (f r).phase = .seeking n ∧ z.key.agrees r.key = true ∧ ∀ m, r.phase ≠ .seeking m)
    (first : ∃ r ∈ x.refs, (f r).phase = .seeking n ∧ r.key.agrees z.key = true) :
    SeekTables.Sound { refs := x.refs.map f, slots := x.slots.set n (some z), backlog := backlog } := by
  have inside : n < x.slots.length := (List.getElem?_eq_some_iff.mp free).1
  have old : ∀ (m : Nat) (a : Slot), m ≠ n → ((x.slots.set n (some z))[m]? = some (some a) ↔ x.slots[m]? = some (some a)) := by
    intro m a other
    rw [List.getElem?_set_ne other.symm]
  have here : (x.slots.set n (some z))[n]? = some (some z) := List.getElem?_set_self inside
  have another : ∀ (m : Nat) (a : Slot), x.slots[m]? = some (some a) → m ≠ n := by
    rintro m a ha rfl
    cases free.symm.trans ha
  refine ⟨law, fun i j a b ha hb agrees => ?_, fun m a ha => ?_, fun r hr m seeks => ?_⟩
  · by_cases hi : i = n <;> by_cases hj : j = n
    · rw [hi, hj]
    · rw [hi] at ha
      cases here.symm.trans ha
      have distinct := new b (List.mem_of_getElem? ((old j b hj).mp hb))
      rw [agrees_symm agrees] at distinct
      cases distinct
    · rw [hj] at hb
      cases here.symm.trans hb
      have distinct := new a (List.mem_of_getElem? ((old i a hi).mp ha))
      rw [agrees] at distinct
      cases distinct
    · exact h.keys i j a b ((old i a hi).mp ha) ((old j b hj).mp hb) agrees
  · by_cases hm : m = n
    · subst hm
      cases here.symm.trans ha
      obtain ⟨r, hr, seeks, agrees⟩ := first
      exact ⟨f r, List.mem_map_of_mem hr, seeks, by rw [key r hr]; exact agrees⟩
    · obtain ⟨q, hq, seeks, agrees⟩ := h.used m a ((old m a hm).mp ha)
      refine ⟨f q, List.mem_map_of_mem hq, ?_, by rw [key q hq]; exact agrees⟩
      obtain same | ⟨-, -, never⟩ := phase q hq
      · exact same.trans seeks
      · exact absurd seeks (never m)
  · obtain ⟨q, hq, rfl⟩ := List.mem_map.mp hr
    rw [key q hq]
    obtain same | ⟨now, agrees, -⟩ := phase q hq
    · obtain ⟨a, ha, agrees⟩ := h.seeking q hq m (same.symm.trans seeks)
      exact ⟨a, (old m a (another m a ha)).mpr ha, agrees⟩
    · cases now.symm.trans seeks
      exact ⟨z, here, agrees⟩

/-! ## Serving (R78) -/

theorem SeekTables.Law.oldest_queued (h : x.Law) {r : Ref} {rest : List Owner} (row : r ∈ x.refs) (oldest : x.backlog = r.owner :: rest) :
    r.phase = .queued := by
  obtain ⟨q, hq, owner, queued⟩ := (h.queued r.owner).mp (by rw [oldest]; exact List.mem_cons_self)
  rw [← eq_of_owner h.owners hq row owner]
  exact queued

theorem offered_phase (r : Ref) (b : Binding) : (r.offered b).phase.listed = false := by
  unfold Ref.offered
  dsimp only
  split <;> rfl

theorem replaced_owner {r r' : Ref} (owner : r'.owner = r.owner) (q : Ref) : (if q.owner = r.owner then r' else q).owner = q.owner := by
  split
  · next same => exact owner.trans same.symm
  · rfl

/-- Serving keeps the laws. -/
theorem State.Serving.sound {t : State} (h : t.Serving x y) (sound : x.Sound) : y.Sound := by
  induction h with
  | done x _ => exact sound
  | answered x y r rest b free row oldest found next ih =>
    have queued := sound.law.oldest_queued row oldest
    have only : ∀ q ∈ x.refs, q.owner = r.owner → q = r := fun q hq => eq_of_owner sound.law.owners hq row
    refine ih (sound.shrink (sound.law.leaves oldest rfl fun h => ?_) (fun n a ha => ⟨a, ha, rfl⟩) (fun q hq n seeks => ?_)
      (fun n a ha => ?_) fun q hq n seeks => ?_)
    · have listed := offered_phase r b
      rw [h] at listed
      cases listed
    · obtain ⟨q', hq', rfl⟩ := List.mem_map.mp hq
      split at seeks
      · have listed := offered_phase r b
        rw [seeks] at listed
        cases listed
      · next other => exact ⟨q', hq', seeks, by rw [if_neg other]⟩
    · obtain ⟨q, hq, seeks, -⟩ := sound.used n a ha
      refine ⟨_, List.mem_map_of_mem hq, ?_⟩
      rw [if_neg fun owner => ?_]
      · exact seeks
      · rw [only q hq owner, queued] at seeks
        cases seeks
    · obtain ⟨q', hq', rfl⟩ := List.mem_map.mp hq
      split at seeks
      · have listed := offered_phase r b
        rw [seeks] at listed
        cases listed
      · obtain ⟨a, ha, -⟩ := sound.seeking q' hq' n seeks
        exact ⟨a, ha⟩
  | joins x y r rest n z free row oldest found slot key next ih =>
    have queued := sound.law.oldest_queued row oldest
    refine ih (sound.joins _ (sound.law.leaves oldest rfl fun h => nomatch h) slot (fun q hq => ?_) fun q hq => ?_)
    · split
      · next owner => rw [eq_of_owner sound.law.owners hq row owner]
      · rfl
    · split
      · next owner =>
        cases eq_of_owner sound.law.owners hq row owner
        exact .inr ⟨rfl, key, fun m seeks => nomatch queued.symm.trans seeks⟩
      · exact .inl rfl
  | takes x y r rest n row oldest found noSlot free lowest next ih =>
    have queued := sound.law.oldest_queued row oldest
    have once := sound.law.once
    rw [oldest, List.nodup_cons] at once
    refine ih (sound.takes _ (sound.law.next _ _ _ (fun q => by split <;> rfl) ?_ fun q hq => ?_) free noSlot
      (fun q hq => by split <;> rfl) (fun q hq => ?_) ⟨r, row, by rw [if_pos ⟨queued, Key.agrees_self _⟩], Key.agrees_self _⟩)
    · rw [oldest]
      exact List.filter_sublist.trans (List.sublist_cons_self _ _)
    · have any : (x.refs.any fun p => decide (p.owner = q.owner) && p.key.agrees r.key) = q.key.agrees r.key := by
        rw [Bool.eq_iff_iff, List.any_eq_true]
        constructor
        · rintro ⟨p, hp, both⟩
          obtain ⟨owner, agrees⟩ := (Bool.and_eq_true _ _).mp both
          rw [← eq_of_owner sound.law.owners hp hq (of_decide_eq_true owner)]
          exact agrees
        · exact fun agrees => ⟨q, hq, by rw [agrees, decide_eq_true rfl]; rfl⟩
      rw [List.mem_filter, any]
      split
      · next both =>
        refine ⟨fun seeks => (nomatch seeks), fun ⟨_, _, other⟩ => ?_⟩
        rw [both.2] at other
        cases other
      · next either =>
        refine ⟨fun waits => ⟨waits, ?_, ?_⟩, And.left⟩
        · have member := (sound.law.queued q.owner).mpr ⟨q, hq, rfl, waits⟩
          rw [oldest] at member
          refine (List.mem_cons.mp member).resolve_left fun owner => either ?_
          cases eq_of_owner sound.law.owners hq row owner
          exact ⟨queued, Key.agrees_self _⟩
        · rw [Bool.not_eq_true', Bool.eq_false_iff]
          exact fun agrees => either ⟨waits, agrees⟩
    · split
      · next both => exact .inr ⟨rfl, agrees_symm both.2, fun m seeks => nomatch both.1.symm.trans seeks⟩
      · exact .inl rfl

end Sys2Proof.Machine

/-! The operations of an event on the seek tables: seek entry, revocation, taken frames, removal, faults (R64 to R67, R75, R79, R87,
R34, R123). -/

namespace Sys2Proof.Machine

variable {ok : Prop} {s t u : State}

/-! ## The law of a state is that of its tables -/

/-- The backlog is served (R77), on the tables. -/
def SeekTables.Served (x : SeekTables) : Prop := x.backlog = [] ∨ none ∉ x.slots

theorem unasked_some {n : Nat} {a : Slot} (h : s.slotsUnasked[n]? = some (some a)) :
    ∃ x, s.slots[n]? = some (some x) ∧ x.key = a.key := by
  rw [slotsUnasked_getElem?, Option.map_eq_some_iff] at h
  obtain ⟨o, slot, same⟩ := h
  obtain ⟨x, rfl, rfl⟩ := Option.map_eq_some_iff.mp same
  exact ⟨x, slot, rfl⟩

theorem unasked_of_some {n : Nat} {x : Slot} (h : s.slots[n]? = some (some x)) : s.slotsUnasked[n]? = some (some x.unasked) := by
  rw [slotsUnasked_getElem?, h]
  rfl

theorem unasked_none {n : Nat} (h : s.slots[n]? = some none) : s.slotsUnasked[n]? = some none := by
  rw [slotsUnasked_getElem?, h]
  rfl

theorem backlogServed_iff (s : State) : s.BacklogServed ↔ s.seekTables.Served := by
  refine or_congr Iff.rfl ⟨fun all free => ?_, fun full o ho => ?_⟩
  · have taken := all none ((none_mem_slotsUnasked s).mp free)
    cases taken
  · cases o with
    | none => exact absurd ((none_mem_slotsUnasked s).mpr ho) full
    | some x => rfl

theorem seekLaw_iff (s : State) : s.SeekLaw ↔ s.OwnersDistinct ∧ s.seekTables.Sound ∧ s.seekTables.Served := by
  rw [← backlogServed_iff]
  constructor
  · intro law
    refine ⟨law.owners, ⟨⟨law.owners.refOwners, law.once, law.queued⟩, fun i j a b ha hb agrees => ?_, fun n a ha => ?_, fun r hr n seeks => ?_⟩,
      law.served⟩
    · obtain ⟨x, hx, keyX⟩ := unasked_some ha
      obtain ⟨y, hy, keyY⟩ := unasked_some hb
      exact law.keys i j x y hx hy (by rw [keyX, keyY]; exact agrees)
    · obtain ⟨x, hx, key⟩ := unasked_some ha
      rw [← key]
      exact law.used n x hx
    · obtain ⟨x, hx, agrees⟩ := law.seeking r hr n seeks
      exact ⟨x.unasked, unasked_of_some hx, agrees⟩
  · rintro ⟨owners, sound, served⟩
    refine ⟨owners, fun i j x y hx hy => sound.keys i j x.unasked y.unasked (unasked_of_some hx) (unasked_of_some hy), fun n x hx => sound.used n x.unasked (unasked_of_some hx),
      fun r hr n seeks => ?_, sound.law.once, sound.law.queued, served⟩
    obtain ⟨a, ha, agrees⟩ := sound.seeking r hr n seeks
    obtain ⟨x, hx, key⟩ := unasked_some ha
    exact ⟨x, hx, by rw [key]; exact agrees⟩

theorem seekTables_congr (refs : t.refs = s.refs) (slots : t.slots = s.slots) (backlog : t.backlog = s.backlog) :
    t.seekTables = s.seekTables := by
  rw [State.seekTables, State.slotsUnasked, refs, slots, backlog]
  rfl

/-! ## Phases that the slots and the backlog do not speak of -/

/-- The references change their phases and what their sites reflect, but none of them from or to QUEUED or SEEKING; slots and
backlog stay. -/
structure State.Rephased (s t : State) : Prop where
  refs : ∃ f : Ref → Ref, t.refs = s.refs.map f ∧ (∀ r, (f r).owner = r.owner) ∧ (∀ r, (f r).key = r.key) ∧
    ∀ r ∈ s.refs, (f r).phase = r.phase ∨ r.phase.listed = false ∧ (f r).phase.listed = false
  slots : t.slots = s.slots
  backlog : t.backlog = s.backlog

theorem State.Rephased.sound (h : s.Rephased t) (sound : s.seekTables.Sound) : t.seekTables.Sound := by
  obtain ⟨⟨f, refs, owner, key, phase⟩, slots, backlog⟩ := h
  have same : t.seekTables = { s.seekTables with refs := s.seekTables.refs.map f } := by
    rw [State.seekTables, State.slotsUnasked, refs, slots, backlog]
    rfl
  rw [same]
  exact sound.rephased f owner (fun r _ => key r) phase

theorem State.Rephased.served (h : s.Rephased t) (served : s.seekTables.Served) : t.seekTables.Served := by
  rw [SeekTables.Served, State.seekTables, State.slotsUnasked, h.slots, h.backlog]
  exact served

theorem rephased_of_eq (refs : t.refs = s.refs) (slots : t.slots = s.slots) (backlog : t.backlog = s.backlog) : s.Rephased t :=
  ⟨⟨id, by rw [refs, List.map_id], fun _ => rfl, fun _ => rfl, fun _ _ => .inl rfl⟩, slots, backlog⟩

theorem State.Rephased.trans (h : s.Rephased t) (k : t.Rephased u) : s.Rephased u := by
  obtain ⟨⟨f, refs, owner, key, phase⟩, slots, backlog⟩ := h
  obtain ⟨⟨g, refs', owner', key', phase'⟩, slots', backlog'⟩ := k
  refine ⟨⟨g ∘ f, by rw [refs', refs, List.map_map], fun r => (owner' _).trans (owner r), fun r => (key' _).trans (key r), fun r hr => ?_⟩,
    slots'.trans slots, backlog'.trans backlog⟩
  have first := phase r hr
  have second := phase' (f r) (refs ▸ List.mem_map_of_mem hr)
  rcases first with same | ⟨was, is⟩
  · rcases second with same' | ⟨was', is'⟩
    · exact .inl (same'.trans same)
    · exact .inr ⟨same ▸ was', is'⟩
  · rcases second with same' | ⟨was', is'⟩
    · refine .inr ⟨was, ?_⟩
      rw [Function.comp, same']
      exact is
    · exact .inr ⟨was, is'⟩

/-- A phase set to references of an owner that are in no listed phase. -/
theorem setPhase_rephased (s : State) {o : Owner} {p : Phase} (now : p.listed = false)
    (was : ∀ r ∈ s.refs, r.owner = o → r.phase.listed = false) : s.Rephased (s.setPhase o p) := by
  refine ⟨⟨_, rfl, fun r => by split <;> rfl, fun r => by split <;> rfl, fun r hr => ?_⟩, rfl, rfl⟩
  split
  · next owner => exact .inr ⟨was r hr owner, now⟩
  · exact .inl rfl

theorem setReflect_rephased (s : State) (o : Owner) (x : Reflect) : s.Rephased (s.setReflect o x) :=
  ⟨⟨_, rfl, fun r => by split <;> rfl, fun r => by split <;> rfl, fun r _ => .inl (by split <;> rfl)⟩, rfl, rfl⟩

theorem offerBinding_rephased (s : State) (r : Ref) (b : Binding) (was : ∀ q ∈ s.refs, q.owner = r.owner → q.phase.listed = false) :
    s.Rephased (s.offerBinding r b) := by
  unfold State.offerBinding
  split
  · exact setPhase_rephased s rfl was
  · exact (setPhase_rephased s (p := .faulted .kind) rfl was).trans (rephased_of_eq rfl rfl rfl)

/-! ## Seek entry (R64 to R67) -/

/-- A reference that is to go through seek entry: those of its owner have its key, and are in no listed phase. -/
structure State.Enters (s : State) (r : Ref) : Prop where
  row : ∃ q ∈ s.refs, q.owner = r.owner
  same : ∀ q ∈ s.refs, q.owner = r.owner → q.key = r.key ∧ q.phase.listed = false

/-- An operation on the references of one owner that keeps the tables sound and served. -/
structure State.EntersAs (s t : State) (o : Owner) : Prop where
  sound : t.seekTables.Sound
  served : t.seekTables.Served
  refs : ∃ p : Phase, t.refs = s.refs.map fun q => if q.owner = o then { q with phase := p } else q

theorem offerBinding_phase (s : State) (r : Ref) (b : Binding) : ∃ p : Phase, (s.offerBinding r b).refs =
    s.refs.map fun q => if q.owner = r.owner then { q with phase := p } else q := by
  unfold State.offerBinding
  split
  · exact ⟨.patching b, rfl⟩
  · exact ⟨.faulted .kind, rfl⟩

theorem law_rephase {x : SeekTables} (law : x.Law) {o : Owner} {p : Phase} (was : ∀ q ∈ x.refs, q.owner = o → q.phase ≠ .queued)
    (now : p ≠ .queued) (slots : List (Option Slot)) :
    SeekTables.Law { refs := x.refs.map (fun q => if q.owner = o then { q with phase := p } else q), slots, backlog := x.backlog } := by
  refine law.next _ _ _ (fun q => by split <;> rfl) (.refl _) fun q hq => ?_
  split
  · next owner => exact ⟨fun h => absurd h now, fun h => absurd h.1 (was q hq owner)⟩
  · exact ⟨fun h => ⟨h, (law.queued _).mpr ⟨q, hq, rfl, h⟩⟩, And.left⟩

theorem not_listed_queued {p : Phase} (h : p.listed = false) : p ≠ .queued := by
  rintro rfl
  cases h

theorem not_listed_seeking {p : Phase} (h : p.listed = false) (n : Nat) : p ≠ .seeking n := by
  rintro rfl
  cases h

theorem seekEntry_enters (sound : s.seekTables.Sound) (served : s.seekTables.Served) {r : Ref} (h : s.Enters r) :
    s.EntersAs (s.seekEntry r) r.owner := by
  have unlisted : ∀ q ∈ s.refs, q.owner = r.owner → q.phase.listed = false := fun q hq owner => (h.same q hq owner).2
  unfold State.seekEntry
  split
  · next b _ =>
    have rephased := offerBinding_rephased s r b unlisted
    exact ⟨rephased.sound sound, rephased.served served, offerBinding_phase s r b⟩
  · split
    · next n slot =>
      obtain ⟨z, hz, agrees⟩ := slotOf_eq_some slot
      refine ⟨?_, served, .seeking n, rfl⟩
      refine sound.joins _ (law_rephase (p := .seeking n) sound.law (fun q hq owner => not_listed_queued (unlisted q hq owner)) (fun h => nomatch h) _)
        (unasked_of_some hz) (fun q _ => by split <;> rfl) fun q hq => ?_
      split
      · next owner =>
        refine .inr ⟨rfl, ?_, not_listed_seeking (unlisted q hq owner)⟩
        rw [(h.same q hq owner).1]
        exact agrees
      · exact .inl rfl
    · next noSlot =>
      split
      · next n free =>
        obtain ⟨isFree, -⟩ := freeSlot_eq_some free
        have tables : (s.takeSlot r n).seekTables =
            { refs := s.refs.map fun q => if q.owner = r.owner then { q with phase := .seeking n } else q
              slots := s.slotsUnasked.set n (some { key := r.key, state := .toSend, tries := 1, timer := false, awaitingRoom := false })
              backlog := s.backlog } :=
          congrArg (fun l => ({ refs := _, slots := l, backlog := _ } : SeekTables)) (enterToSend_unasked s n r.key 1)
        obtain ⟨q, hq, owner⟩ := h.row
        refine ⟨?_, ?_, .seeking n, rfl⟩
        · rw [tables]
          refine sound.takes _ (law_rephase (p := .seeking n) sound.law (fun q hq owner => not_listed_queued (unlisted q hq owner)) (fun h => nomatch h) _)
            (unasked_none isFree) (fun a ha => ?_) (fun q _ => by split <;> rfl) (fun q hq => ?_) ⟨q, hq, by rw [if_pos owner], ?_⟩
          · obtain ⟨i, hi⟩ := List.mem_iff_getElem?.mp ha
            obtain ⟨x, hx, key⟩ := unasked_some hi
            rw [← key]
            exact slotOf_eq_none noSlot x (List.mem_of_getElem? hx)
          · split
            · next owner =>
              refine .inr ⟨rfl, ?_, not_listed_seeking (unlisted q hq owner)⟩
              rw [(h.same q hq owner).1]
              exact Key.agrees_self _
            · exact .inl rfl
          · rw [(h.same q hq owner).1]
            exact Key.agrees_self _
        · rw [tables]
          exact .inl (served.resolve_right fun full => full (List.mem_of_getElem? (unasked_none isFree)))
      · next full =>
        have new : r.owner ∉ s.backlog := fun old => by
          obtain ⟨q, hq, owner, queued⟩ := (sound.law.queued _).mp old
          exact not_listed_queued (unlisted q hq owner) queued
        have law : SeekTables.Law { refs := s.refs.map (fun q => if q.owner = r.owner then { q with phase := .queued } else q)
                                    slots := s.slotsUnasked, backlog := s.backlog ++ [r.owner] } := by
          refine ⟨(owners_map s.refs fun q => by split <;> rfl).nodup sound.law.owners, owners_append _ sound.law.once new, fun o => ?_⟩
          rw [List.mem_append, List.mem_singleton]
          constructor
          · rintro (old | rfl)
            · obtain ⟨q, hq, rfl, queued⟩ := (sound.law.queued _).mp old
              exact ⟨_, List.mem_map_of_mem hq, by split <;> rfl, by split <;> [rfl; exact queued]⟩
            · obtain ⟨q, hq, owner⟩ := h.row
              exact ⟨_, List.mem_map_of_mem hq, by rw [if_pos owner]; exact owner, by rw [if_pos owner]⟩
          · rintro ⟨q', hq', rfl, queued⟩
            obtain ⟨q, hq, rfl⟩ := List.mem_map.mp hq'
            split at queued
            · next owner => exact .inr (by rw [if_pos owner]; exact owner)
            · next other => exact .inl (by rw [if_neg other]; exact (sound.law.queued _).mpr ⟨q, hq, rfl, queued⟩)
        refine ⟨sound.shrink law (fun n a ha => ⟨a, ha, rfl⟩) (fun q' hq' n seeks => ?_) (fun n a ha => ?_) fun q' hq' n seeks => ?_,
          .inr fun free => freeSlot_eq_none full ((none_mem_slotsUnasked s).mp free), .queued, rfl⟩
        · obtain ⟨q, hq, rfl⟩ := List.mem_map.mp hq'
          split at seeks
          · cases seeks
          · next other => exact ⟨q, hq, seeks, by rw [if_neg other]⟩
        · obtain ⟨q, hq, seeks, -⟩ := sound.used n a ha
          refine ⟨_, List.mem_map_of_mem hq, ?_⟩
          rw [if_neg fun owner => not_listed_seeking (unlisted q hq owner) n seeks]
          exact seeks
        · obtain ⟨q, hq, rfl⟩ := List.mem_map.mp hq'
          split at seeks
          · cases seeks
          · obtain ⟨a, ha, -⟩ := sound.seeking q hq n seeks
            exact ⟨a, ha⟩

/-- Operations on references of distinct owners, one after another. -/
theorem foldl_enters {F : State → Ref → State}
    (step : ∀ (s : State) (r : Ref), s.seekTables.Sound → s.seekTables.Served → s.Enters r → s.EntersAs (F s r) r.owner) (l : List Ref) :
    ∀ s : State, s.seekTables.Sound → s.seekTables.Served → (l.map (·.owner)).Nodup → (∀ r ∈ l, s.Enters r) →
      (l.foldl F s).seekTables.Sound ∧ (l.foldl F s).seekTables.Served := by
  induction l with
  | nil => exact fun s sound served _ _ => ⟨sound, served⟩
  | cons r l ih =>
    intro s sound served once enters
    obtain ⟨sound', served', p, refs⟩ := step s r sound served (enters r List.mem_cons_self)
    rw [List.map_cons, List.nodup_cons] at once
    refine ih (F s r) sound' served' once.2 fun x hx => ?_
    have other : x.owner ≠ r.owner := fun same => once.1 (same ▸ List.mem_map_of_mem hx)
    obtain ⟨⟨q, hq, owner⟩, same⟩ := enters x (List.mem_cons_of_mem r hx)
    refine ⟨⟨q, ?_, owner⟩, fun q' hq' owner' => ?_⟩
    · rw [refs]
      exact List.mem_map.mpr ⟨q, hq, if_neg (owner ▸ other)⟩
    · rw [refs] at hq'
      obtain ⟨q, hq, rfl⟩ := List.mem_map.mp hq'
      split at owner'
      · next now => exact absurd (owner'.symm.trans now) other
      · next not =>
        rw [if_neg not]
        exact same q hq owner'

end Sys2Proof.Machine

/-! The effects of an event keep the laws of the seek tables up to the serving of the backlog, which the end of the event makes (R77,
R78). -/

namespace Sys2Proof.Machine

variable {ok : Prop} {s t u : State}

/-! ## What the end of an event finds -/

/-- The tables are sound, and served unless a slot has been freed. -/
structure State.Prepared (s u : State) : Prop where
  sound : u.seekTables.Sound
  served : someFreed s.slots u.slots = false → u.seekTables.Served

theorem State.Rephased.prepared (h : s.Rephased u) (sound : s.seekTables.Sound) (served : s.seekTables.Served) : s.Prepared u :=
  ⟨h.sound sound, fun _ => h.served served⟩

theorem State.Prepared.congr (h : s.Prepared t) (tables : u.seekTables = t.seekTables) (slots : u.slots = t.slots) : s.Prepared u :=
  ⟨tables ▸ h.sound, fun unfreed => tables ▸ h.served (slots ▸ unfreed)⟩

/-- Slots that were used are used where none has been freed. -/
theorem used_of_unfreed {a b : List (Option Slot)} (length : b.length = a.length) (unfreed : someFreed a b = false) (full : none ∉ a) :
    none ∉ b := by
  intro free
  obtain ⟨i, hi, at_⟩ := List.mem_iff_getElem.mp free
  have inside : i < a.length := length ▸ hi
  have pair : (a[i], b[i]) ∈ a.zip b := List.mem_iff_getElem.mpr ⟨i, by rw [List.length_zip]; omega, List.getElem_zip⟩
  have kept := List.any_eq_false.mp unfreed _ pair
  rw [at_] at kept
  cases old : a[i] with
  | none => exact full (old ▸ List.getElem_mem inside)
  | some x =>
    rw [old] at kept
    exact kept rfl

/-- Where the backlog loses members and slots are only freed, the backlog stays served unless one is. -/
theorem served_of_unfreed (served : s.seekTables.Served) (backlog : u.backlog.Sublist s.backlog) (length : u.slots.length = s.slots.length)
    (unfreed : someFreed s.slots u.slots = false) : u.seekTables.Served := by
  refine served.imp (fun empty => ?_) fun full free => ?_
  · change s.backlog = [] at empty
    rw [empty] at backlog
    exact List.sublist_nil.mp backlog
  · exact used_of_unfreed length unfreed (fun none_ => full ((none_mem_slotsUnasked s).mpr none_)) ((none_mem_slotsUnasked u).mp free)

/-- The end of an event keeps the laws. -/
theorem endEvent_seeks {b : State} (prepared : s.Prepared u) (slots : b.slots = s.slots) (order : List Bool) :
    (u.endEvent b order).seekTables.Sound ∧ (u.endEvent b order).seekTables.Served := by
  have served := endEvent_servedFrom (b := u) b order prepared.sound.law rfl fun unfreed => by
    refine (prepared.served (slots ▸ unfreed)).imp id fun full free => full ((none_mem_slotsUnasked u).mpr free)
  exact ⟨served.serving.sound prepared.sound, (backlogServed_iff _).mp served.backlogServed⟩

/-! ## Revocation and RESEEK (R82, R87) -/

theorem meets_unlisted {criterion : Ref → Binding → Bool} {r : Ref} (h : r.meets criterion = true) : r.phase.listed = false := by
  unfold Ref.meets at h
  cases phase : r.phase with
  | queued => rw [phase] at h; cases h
  | seeking n => rw [phase] at h; cases h
  | _ => rfl

theorem nodup_filter {refs : List Ref} (once : (refs.map (·.owner)).Nodup) (p : Ref → Bool) : ((refs.filter p).map (·.owner)).Nodup :=
  once.sublist (List.filter_sublist.map _)

theorem revoke_seeks (sound : s.seekTables.Sound) (served : s.seekTables.Served) (criterion : Ref → Binding → Bool) (cause : RevocationCause) :
    (s.revoke criterion cause).seekTables.Sound ∧ (s.revoke criterion cause).seekTables.Served := by
  have once : (s.refs.map (·.owner)).Nodup := sound.law.owners
  have refs := foldl_refs_filter s once (State.dropBinding cause) (fun _ => .waiting) (fun _ _ => rfl) (Ref.meets criterion) s rfl
  have slots := foldl_kept State.slots (State.dropBinding cause) (fun _ _ => rfl) (s.refs.filter (Ref.meets criterion)) s
  have backlog := foldl_kept State.backlog (State.dropBinding cause) (fun _ _ => rfl) (s.refs.filter (Ref.meets criterion)) s
  have dropped : s.Rephased ((s.refs.filter (Ref.meets criterion)).foldl (State.dropBinding cause) s) := by
    refine ⟨⟨_, refs, fun r => by split <;> rfl, fun r => by split <;> rfl, fun r _ => ?_⟩, slots, backlog⟩
    split
    · next met => exact .inr ⟨meets_unlisted met, rfl⟩
    · exact .inl rfl
  refine foldl_enters (fun _ _ sound served enters => seekEntry_enters sound served enters) _ _ (dropped.sound sound) (dropped.served served) (nodup_filter once _) fun r hr => ?_
  obtain ⟨row, met⟩ := List.mem_filter.mp hr
  refine ⟨⟨_, refs ▸ List.mem_map_of_mem row, by split <;> rfl⟩, fun q' hq' owner => ?_⟩
  rw [refs] at hq'
  obtain ⟨q, hq, rfl⟩ := List.mem_map.mp hq'
  have same : q.owner = r.owner := by
    split at owner <;> exact owner
  obtain rfl := eq_of_owner once hq row same
  rw [if_pos met]
  exact ⟨rfl, rfl⟩

theorem reseekRef_enters (sound : s.seekTables.Sound) (served : s.seekTables.Served) {r : Ref} (h : s.Enters r) :
    s.EntersAs (s.reseekRef r) r.owner := by
  have waiting := setPhase_rephased s (o := r.owner) (p := .waiting) rfl fun q hq owner => (h.same q hq owner).2
  obtain ⟨q, hq, owner⟩ := h.row
  have enters : (s.setPhase r.owner .waiting).Enters r := by
    refine ⟨⟨_, List.mem_map_of_mem hq, by split <;> exact owner⟩, fun q' hq' owner' => ?_⟩
    obtain ⟨q, hq, rfl⟩ := List.mem_map.mp hq'
    split at owner'
    · next now =>
      rw [if_pos now]
      exact ⟨(h.same q hq now).1, rfl⟩
    · next other => exact absurd owner' other
  obtain ⟨sound', served', p, refs⟩ := seekEntry_enters (waiting.sound sound) (waiting.served served) enters
  refine ⟨sound', served', p, refs.trans ?_⟩
  rw [State.setPhase, List.map_map]
  refine List.map_congr_left fun q _ => ?_
  by_cases owner : q.owner = r.owner
  · simp [owner]
  · simp [owner]

theorem reseek_seeks (sound : s.seekTables.Sound) (served : s.seekTables.Served) (p : Ref → Bool)
    (reseekable : ∀ r, p r = true → r.reseekable = true) :
    ((s.refs.filter p).foldl State.reseekRef s).seekTables.Sound ∧ ((s.refs.filter p).foldl State.reseekRef s).seekTables.Served := by
  have once : (s.refs.map (·.owner)).Nodup := sound.law.owners
  refine foldl_enters (fun _ _ sound served enters => reseekRef_enters sound served enters) _ s sound served (nodup_filter once p) fun r hr => ?_
  obtain ⟨row, hit⟩ := List.mem_filter.mp hr
  refine ⟨⟨r, row, rfl⟩, fun q hq owner => ?_⟩
  obtain rfl := eq_of_owner once hq row owner
  have again := reseekable q hit
  unfold Ref.reseekable at again
  refine ⟨rfl, ?_⟩
  cases phase : q.phase with
  | queued => rw [phase] at again; cases again
  | seeking n => rw [phase] at again; cases again
  | _ => rfl

/-! ## Taken frames (R79, R99) -/

theorem slotKeysDistinct_of_sound (sound : s.seekTables.Sound) : s.SlotKeysDistinct := fun i j x y hx hy =>
  sound.keys i j x.unasked y.unasked (unasked_of_some hx) (unasked_of_some hy)

theorem clashMoves_iff (k : Key) (refused : List Pair) (r : Ref) : r.clashMoves k refused = true ↔
    r.key.agrees k = true ∧ (r.phase.isSeek = true ∨ r.boundToOne refused = true) := by
  simp [Ref.clashMoves]

theorem clash_prepared (sound : s.seekTables.Sound) (served : s.seekTables.Served) (k : Key) (b : Binding) (refused : List Pair) :
    s.Prepared (s.clashKey k b refused) := by
  have once : (s.refs.map (·.owner)).Nodup := sound.law.owners
  have tables := (clashKey_tables s k b refused sound.law (slotKeysDistinct_of_sound sound)).1
  have unmoved : ∀ r ∈ s.refs, ∀ n, (if r.clashMoves k refused then r.offered b else r).phase = .seeking n →
      r.clashMoves k refused = false ∧ r.phase = .seeking n := by
    intro r _ n seeks
    split at seeks
    · exact absurd seeks (not_listed_seeking (offered_phase r b) n)
    · next stays => exact ⟨Bool.eq_false_iff.mpr stays, seeks⟩
  have other : ∀ r ∈ s.refs, ∀ n, r.phase = .seeking n → r.clashMoves k refused = false → r.key.agrees k = false := by
    intro r _ n seeks stays
    rw [Bool.eq_false_iff] at stays ⊢
    exact fun agrees => stays ((clashMoves_iff k refused r).mpr ⟨agrees, .inl (by rw [seeks]; rfl)⟩)
  have slot : ∀ (n : Nat) (a : Slot), (s.slotsUnasked.map fun o => o.filter fun x => !x.key.agrees k)[n]? = some (some a) ↔
      s.slotsUnasked[n]? = some (some a) ∧ a.key.agrees k = false := by
    intro n a
    rw [List.getElem?_map, Option.map_eq_some_iff]
    simp [Option.filter_eq_some_iff]
  refine ⟨?_, served_of_unfreed served ?_ ?_⟩
  · rw [tables]
    refine sound.shrink (sound.law.next _ _ _ (fun q => by split <;> rfl) List.filter_sublist fun q hq => ?_) (fun n a ha => ?_)
      (fun r hr n seeks => ?_) (fun n a ha => ?_) fun r hr n seeks => ?_
    · have any : (s.refs.any fun p => decide (p.owner = q.owner) && p.key.agrees k) = q.key.agrees k := by
        rw [Bool.eq_iff_iff, List.any_eq_true]
        constructor
        · rintro ⟨p, hp, both⟩
          obtain ⟨owner, agrees⟩ := (Bool.and_eq_true _ _).mp both
          rw [← eq_of_owner once hp hq (of_decide_eq_true owner)]
          exact agrees
        · exact fun agrees => ⟨q, hq, by rw [agrees, decide_eq_true rfl]; rfl⟩
      rw [List.mem_filter, any, Bool.not_eq_true']
      split
      · next moves =>
        refine ⟨fun queued => absurd queued (not_listed_queued (offered_phase q b)), fun ⟨_, _, stays⟩ => ?_⟩
        rw [((clashMoves_iff k refused q).mp moves).1] at stays
        cases stays
      · next stays =>
        refine ⟨fun queued => ⟨queued, (sound.law.queued _).mpr ⟨q, hq, rfl, queued⟩, ?_⟩, And.left⟩
        rw [Bool.eq_false_iff]
        exact fun agrees => stays ((clashMoves_iff k refused q).mpr ⟨agrees, .inl (by rw [queued]; rfl)⟩)
    · exact ⟨a, ((slot n a).mp ha).1, rfl⟩
    · obtain ⟨q, hq, rfl⟩ := List.mem_map.mp hr
      obtain ⟨stays, seeks⟩ := unmoved q hq n seeks
      exact ⟨q, hq, seeks, by rw [if_neg (by simp [stays])]⟩
    · obtain ⟨old, free⟩ := (slot n a).mp ha
      obtain ⟨q, hq, seeks, agrees⟩ := sound.used n a old
      refine ⟨_, List.mem_map_of_mem hq, ?_⟩
      rw [if_neg fun moves => ?_]
      · exact seeks
      · rw [agrees_trans (agrees_symm agrees) ((clashMoves_iff k refused q).mp moves).1] at free
        cases free
    · obtain ⟨q, hq, rfl⟩ := List.mem_map.mp hr
      obtain ⟨stays, seeks⟩ := unmoved q hq n seeks
      obtain ⟨a, ha, agrees⟩ := sound.seeking q hq n seeks
      refine ⟨a, (slot n a).mpr ⟨ha, ?_⟩⟩
      rw [Bool.eq_false_iff]
      intro same
      have apart := other q hq n seeks stays
      rw [agrees_trans (agrees_symm agrees) same] at apart
      cases apart
  · change (s.clashKey k b refused).seekTables.backlog.Sublist _
    rw [tables]
    exact List.filter_sublist
  · have length := congrArg (fun x : SeekTables => x.slots.length) tables
    simpa [State.seekTables, State.slotsUnasked] using length

/-! ## Exhausted seeks (R75) -/

theorem exhaust_prepared (sound : s.seekTables.Sound) (served : s.seekTables.Served) (n : Nat) : s.Prepared (s.exhaust n) := by
  have once : (s.refs.map (·.owner)).Nodup := sound.law.owners
  have tables := (exhaust_tables s n once).1
  have other : ∀ r ∈ s.refs, ∀ m, (if r.phase = .seeking n then { r with phase := .waiting } else r : Ref).phase = .seeking m →
      r.phase = .seeking m ∧ m ≠ n := by
    intro r _ m seeks
    split at seeks
    · cases seeks
    · next here =>
      refine ⟨seeks, ?_⟩
      rintro rfl
      exact here seeks
  have slot : ∀ (m : Nat) (a : Slot), (s.slotsUnasked.set n none)[m]? = some (some a) ↔ m ≠ n ∧ s.slotsUnasked[m]? = some (some a) := by
    intro m a
    rw [List.getElem?_set]
    split
    · next same =>
      refine ⟨fun h => ?_, fun h => absurd same.symm h.1⟩
      split at h <;> cases h
    · next apart => exact ⟨fun h => ⟨fun same => apart same.symm, h⟩, And.right⟩
  refine ⟨?_, served_of_unfreed served ?_ ?_⟩
  · rw [tables]
    refine sound.shrink (sound.law.next _ _ _ (fun q => by split <;> rfl) (.refl _) fun q hq => ?_) (fun m a ha => ?_)
      (fun r hr m seeks => ?_) (fun m a ha => ?_) fun r hr m seeks => ?_
    · split
      · next seeks => exact ⟨fun h => (nomatch h), fun h => nomatch seeks.symm.trans h.1⟩
      · exact ⟨fun queued => ⟨queued, (sound.law.queued _).mpr ⟨q, hq, rfl, queued⟩⟩, And.left⟩
    · exact ⟨a, ((slot m a).mp ha).2, rfl⟩
    · obtain ⟨q, hq, rfl⟩ := List.mem_map.mp hr
      exact ⟨q, hq, (other q hq m seeks).1, by split <;> rfl⟩
    · obtain ⟨apart, old⟩ := (slot m a).mp ha
      obtain ⟨q, hq, seeks, -⟩ := sound.used m a old
      refine ⟨_, List.mem_map_of_mem hq, ?_⟩
      rw [if_neg fun here => apart (Phase.seeking.inj (seeks.symm.trans here))]
      exact seeks
    · obtain ⟨q, hq, rfl⟩ := List.mem_map.mp hr
      obtain ⟨seeks, apart⟩ := other q hq m seeks
      obtain ⟨a, ha, -⟩ := sound.seeking q hq m seeks
      exact ⟨a, (slot m a).mpr ⟨apart, ha⟩⟩
  · change (s.exhaust n).seekTables.backlog.Sublist _
    rw [tables]
  · have length := congrArg (fun x : SeekTables => x.slots.length) tables
    simpa [State.seekTables, State.slotsUnasked] using length

/-! ## Slots whose last reference has gone (R34, R102, R123) -/

/-- The slots without a SEEKING reference are freed. -/
theorem freeEmptySlots_prepared (law : t.seekTables.Law) (served : s.seekTables.Served) (sound : s.seekTables.Sound)
    (slots : t.slots = s.slots) (backlog : t.backlog.Sublist s.backlog)
    (refs : ∀ r ∈ t.refs, ∀ n, r.phase = .seeking n → ∃ q ∈ s.refs, q.phase = .seeking n ∧ q.key = r.key) :
    s.Prepared t.freeEmptySlots := by
  have kept : t.freeEmptySlots.slots = keepUsedSlots t.refs 0 t.slots := rfl
  have slot : ∀ (n : Nat) (a : Slot), t.freeEmptySlots.seekTables.slots[n]? = some (some a) ↔
      s.slotsUnasked[n]? = some (some a) ∧ ∃ r ∈ t.refs, r.phase = .seeking n := by
    intro n a
    have same : t.freeEmptySlots.seekTables.slots[n]? = s.slots[n]?.map fun o =>
        (if t.refs.any fun r => decide (r.phase = .seeking n) then o else none).map Slot.unasked := by
      rw [State.seekTables, slotsUnasked_getElem?, kept, keepUsedSlots_eq, slots, List.getElem?_mapIdx, Option.map_map,
        Nat.zero_add]
      rfl
    rw [same, slotsUnasked_getElem?]
    cases s.slots[n]? with
    | none => simp
    | some o =>
      simp only [Option.map_some, Option.some.injEq]
      by_cases any : (t.refs.any fun r => decide (r.phase = .seeking n)) = true
      · rw [if_pos any]
        rw [List.any_eq_true] at any
        obtain ⟨r, hr, seeks⟩ := any
        exact ⟨fun h => ⟨h, r, hr, of_decide_eq_true seeks⟩, And.left⟩
      · rw [if_neg any]
        refine ⟨fun h => (nomatch h), fun ⟨_, r, hr, seeks⟩ => absurd ?_ any⟩
        exact List.any_eq_true.mpr ⟨r, hr, decide_eq_true seeks⟩
  refine ⟨sound.shrink ?_ (fun n a ha => ⟨a, ((slot n a).mp ha).1, rfl⟩) refs (fun n a ha => ((slot n a).mp ha).2) fun r hr n seeks => ?_,
    served_of_unfreed served backlog ?_⟩
  · exact ⟨law.owners, law.once, law.queued⟩
  · obtain ⟨q, hq, same, -⟩ := refs r hr n seeks
    obtain ⟨a, ha, -⟩ := sound.seeking q hq n same
    exact ⟨a, (slot n a).mpr ⟨ha, r, hr, seeks⟩⟩
  · rw [kept, keepUsedSlots_eq, List.length_mapIdx, slots]

end Sys2Proof.Machine

/-! The seek slots stay lawful and the backlog served over every step (R68, R77). -/

namespace Sys2Proof.Machine

variable {ok : Prop} {s t u : State}

/-! ## Slots that keep their keys -/

/-- The laws of the seek tables but for the distinct owners. -/
structure State.Seeks (s : State) : Prop where
  sound : s.seekTables.Sound
  served : s.seekTables.Served

/-- The keys of the slots in use. -/
def State.slotKeys (s : State) : List (Option Key) := s.slots.map (Option.map Slot.key)

theorem slotKeys_slot (keys : t.slotKeys = s.slotKeys) {n : Nat} {a : Slot} (h : t.slotsUnasked[n]? = some (some a)) :
    ∃ b, s.slotsUnasked[n]? = some (some b) ∧ a.key = b.key := by
  obtain ⟨x, hx, keyX⟩ := unasked_some h
  have at_ := congrArg (·[n]?) keys
  simp only [State.slotKeys, List.getElem?_map, hx, Option.map_some] at at_
  obtain ⟨o, slot, same⟩ := Option.map_eq_some_iff.mp at_.symm
  obtain ⟨y, rfl, keyY⟩ := Option.map_eq_some_iff.mp same
  exact ⟨y.unasked, unasked_of_some slot, by rw [Slot.unasked_key, keyY, keyX]⟩

theorem none_mem_slotKeys (s : State) : none ∈ s.slotKeys ↔ none ∈ s.slotsUnasked := by
  rw [none_mem_slotsUnasked, State.slotKeys, List.mem_map]
  constructor
  · rintro ⟨o, ho, none_⟩
    rw [Option.map_eq_none_iff] at none_
    exact none_ ▸ ho
  · exact fun free => ⟨none, free, rfl⟩

/-- The laws of the seek tables speak of no more than the keys of the slots. -/
theorem State.Seeks.rekeyed (law : s.Seeks) (refs : t.refs = s.refs) (backlog : t.backlog = s.backlog)
    (keys : t.slotKeys = s.slotKeys) : t.Seeks := by
  obtain ⟨sound, served⟩ := law
  have row : ∀ r ∈ t.refs, r ∈ s.refs := fun r hr => refs ▸ hr
  have back : ∀ r ∈ s.refs, r ∈ t.refs := fun r hr => refs ▸ hr
  refine ⟨sound.shrink ?_ (fun n a ha => slotKeys_slot keys ha) (fun r hr n seeks => ⟨r, row r hr, seeks, rfl⟩) (fun n a ha => ?_)
    fun r hr n seeks => ?_, ?_⟩
  · refine ⟨?_, ?_, fun o => ?_⟩
    · change (t.refs.map _).Nodup
      rw [refs]
      exact sound.law.owners
    · change t.backlog.Nodup
      rw [backlog]
      exact sound.law.once
    · change o ∈ t.backlog ↔ ∃ r ∈ t.refs, _
      rw [backlog, refs]
      exact sound.law.queued o
  · obtain ⟨b, hb, -⟩ := slotKeys_slot keys ha
    obtain ⟨r, hr, seeks, -⟩ := sound.used n b hb
    exact ⟨r, back r hr, seeks⟩
  · obtain ⟨a, ha, -⟩ := sound.seeking r (row r hr) n seeks
    obtain ⟨b, hb, -⟩ := slotKeys_slot keys.symm ha
    exact ⟨b, hb⟩
  · refine served.imp backlog.trans fun full free => full ?_
    exact (none_mem_slotKeys s).mp (keys ▸ (none_mem_slotKeys t).mpr free)

theorem State.Seeks.congr (law : s.Seeks) (refs : t.refs = s.refs) (backlog : t.backlog = s.backlog) (slots : t.slots = s.slots) :
    t.Seeks :=
  law.rekeyed refs backlog (by rw [State.slotKeys, slots]; rfl)

/-- References, slots, backlog and patch queue. -/
def State.lists (s : State) : List Ref × List (Option Slot) × List Owner × List Owner := (s.refs, s.slots, s.backlog, s.patchQueue)

theorem State.Seeks.alike (law : s.Seeks) (h : t.lists = s.lists) : t.Seeks :=
  law.congr (congrArg (·.1) h) (congrArg (·.2.2.1) h) (congrArg (·.2.1) h)

theorem meetSeek_lists (s : State) (k : Key) : (s.meetSeek k).lists = s.lists := by
  unfold State.meetSeek
  split
  · rfl
  · split
    · unfold State.oweOffer
      split <;> rfl
    all_goals rfl

theorem meetClaim_lists (s : State) (k : Key) (p : Pair) (refused : List Pair) : (s.meetClaim k p refused).lists = s.lists := by
  unfold State.meetClaim
  split
  · rfl
  · split
    · rfl
    · split
      · rfl
      · unfold State.oweClash
        split <;> rfl
    all_goals rfl

theorem meetOwnAnnounce_lists (s : State) (k : Key) (g : Half) : (s.meetOwnAnnounce k g).lists = s.lists := by
  unfold State.meetOwnAnnounce
  split
  · rfl
  · split <;> rfl

theorem enterExport_lists (s : State) (x : ExportRecord) : (s.enterExport x).lists = s.lists := by
  unfold State.enterExport
  split <;> rfl

theorem core_lists (h : t.core = s.core) : t.lists = s.lists :=
  show t.core.lists = s.core.lists from congrArg State.lists h

theorem memory_lists (h : t.core = { s.core with mem := t.mem, freeCount := t.freeCount }) : t.lists = s.lists :=
  show t.core.lists = s.core.lists from (congrArg State.lists h).trans rfl

theorem State.Seeks.tables (law : s.Seeks) (same : t.seekTables = s.seekTables) : t.Seeks :=
  ⟨same ▸ law.sound, same ▸ law.served⟩

theorem State.Seeks.prepared (h : u.Seeks) : s.Prepared u := ⟨h.sound, fun _ => h.served⟩

/-- A slot in use that is set to one of its own key. -/
theorem slotKeys_set {n : Nat} {x y : Slot} (slot : s.slots[n]? = some (some x)) (key : y.key = x.key)
    (set : t.slots = s.slots.set n (some y)) : t.slotKeys = s.slotKeys := by
  rw [State.slotKeys, set, List.map_set, Option.map_some, key]
  refine List.ext_getElem? fun i => ?_
  rw [List.getElem?_set]
  split
  · next same =>
    subst same
    have inside := (List.getElem?_eq_some_iff.mp slot).1
    rw [if_pos (by rw [List.length_map]; exact inside), State.slotKeys, List.getElem?_map, slot]
    rfl
  · rfl

theorem enterOut_seeks (law : s.Seeks) (k : Key) : (s.enterOut k).Seeks := by
  unfold State.enterOut
  split
  · exact law
  · split
    · next x slot =>
      split
      · exact law.rekeyed rfl rfl (slotKeys_set (y := { x with state := .out, timer := true, awaitingRoom := false }) slot rfl rfl)
      · exact law
    · exact law

theorem enterToSend_seeks (law : s.Seeks) {n : Nat} {x : Slot} (slot : s.slots[n]? = some (some x)) (tries : Nat) :
    (s.enterToSend n x.key tries).Seeks :=
  law.rekeyed rfl rfl (slotKeys_set
    (y := { key := x.key, state := .toSend, tries, timer := false, awaitingRoom := !s.seekQueued n x.key }) slot rfl rfl)

theorem cutFromBus_slotKeys (s : State) : s.cutFromBus.slotKeys = s.slotKeys := by
  rw [State.slotKeys, State.cutFromBus, List.map_map]
  refine List.map_congr_left fun o _ => ?_
  cases o <;> rfl

/-! ## Removal and faults (R34, R123) -/

theorem removeRefs_prepared (law : s.Seeks) (refs : t.refs = s.refs) (backlog : t.backlog = s.backlog) (slots : t.slots = s.slots)
    (m : Byte) (begun : Bool) : s.Prepared (t.removeRefs m begun) := by
  refine freeEmptySlots_prepared ⟨?_, ?_, fun o => ?_⟩ law.served law.sound slots ?_ fun r hr n seeks => ?_
  · change ((t.refs.filter _).map _).Nodup
    rw [refs]
    exact nodup_filter law.sound.law.owners _
  · change (t.backlog.filter _).Nodup
    rw [backlog]
    exact law.sound.law.once.filter _
  · change o ∈ t.backlog.filter _ ↔ ∃ r ∈ t.refs.filter _, _
    rw [backlog, refs, List.mem_filter, decide_eq_true_iff]
    have queued := law.sound.law.queued o
    constructor
    · rintro ⟨old, other⟩
      obtain ⟨r, hr, rfl, waits⟩ := queued.mp old
      exact ⟨r, List.mem_filter.mpr ⟨hr, decide_eq_true other⟩, rfl, waits⟩
    · rintro ⟨r, hr, rfl, waits⟩
      obtain ⟨row, other⟩ := List.mem_filter.mp hr
      exact ⟨queued.mpr ⟨r, row, rfl, waits⟩, of_decide_eq_true other⟩
  · change (t.backlog.filter _).Sublist _
    rw [backlog]
    exact List.filter_sublist
  · have row := (List.mem_filter.mp hr).1
    exact ⟨r, refs ▸ row, seeks, rfl⟩

/-- The state before a BUS fault's last step, which frees the slots. -/
def State.busFaulted (s : State) (o : Owner) (k : Nat) : State :=
  ({ s with
      walk := none
      patchQueue := s.patchQueue.erase o
      backlog := s.backlog.filter fun x => decide (x ≠ o)
      refs := s.refs.map fun q => if q.owner = o then q.busFaulted else q } : State).post (.referenceFaulted o .bus k)

theorem busFault_eq (s : State) (o : Owner) (k : Nat) : s.busFault o k = (s.busFaulted o k).freeEmptySlots := by
  have refs : (s.refs.map fun q => if q.owner = o then { q with phase := .faulted .bus } else q).map
      (fun q => if q.owner = o then { q with reflect := .unknown } else q) = s.refs.map fun q => if q.owner = o then q.busFaulted else q := by
    rw [List.map_map]
    refine List.map_congr_left fun q _ => ?_
    by_cases owner : q.owner = o
    · simp [owner, Ref.busFaulted]
    · simp [owner]
  rw [State.busFaulted, ← refs]
  rfl

theorem busFault_prepared (law : s.Seeks) (o : Owner) (k : Nat) : s.Prepared (s.busFault o k) := by
  rw [busFault_eq]
  refine freeEmptySlots_prepared ?_ law.served law.sound rfl List.filter_sublist fun r hr n seeks => ?_
  · refine law.sound.law.next _ _ _ (fun q => by split <;> rfl) List.filter_sublist fun q hq => ?_
    change _ ↔ _ ∧ q.owner ∈ s.backlog.filter _
    rw [List.mem_filter, decide_eq_true_iff]
    split
    · next owner => exact ⟨fun h => (nomatch h), fun h => absurd owner h.2.2⟩
    · next other => exact ⟨fun queued => ⟨queued, (law.sound.law.queued _).mpr ⟨q, hq, rfl, queued⟩, other⟩, And.left⟩
  · obtain ⟨q, hq, rfl⟩ := List.mem_map.mp hr
    split at seeks
    · cases seeks
    · next other => exact ⟨q, hq, seeks, by rw [if_neg other]⟩

/-! ## Walks (R116, R119, R121) -/

/-- A reference with a binding is in no phase that the slots and the backlog speak of. -/
theorem unlisted_of_binding {r : Ref} {b : Binding} (h : r.phase.binding? = some b) : r.phase.listed = false := by
  cases phase : r.phase with
  | queued => rw [phase] at h; cases h
  | seeking n => rw [phase] at h; cases h
  | _ => rfl

theorem binding_of_currentValue {r : Ref} {b : Binding} (h : r.currentValue = .binding b) : r.phase.binding? = some b := by
  unfold Ref.currentValue at h
  split at h
  · next b' at_ =>
    cases h
    exact at_
  · cases h

/-- Where it holds a binding, the references of the owner are in no listed phase. -/
def State.Walks (s : State) (o : Owner) (v : WalkValue) : Prop :=
  ∀ b, v = .binding b → ∀ q ∈ s.refs, q.owner = o → q.phase.listed = false

theorem completeWalk_rephased {o : Owner} {v : WalkValue} (walks : s.Walks o v) : s.Rephased (s.completeWalk o v) := by
  have reflected : s.Rephased ({ s.setReflect o v.asReflect with patchQueue := s.patchQueue.erase o, walk := none } : State) :=
    (setReflect_rephased s o v.asReflect).trans (rephased_of_eq rfl rfl rfl)
  cases v with
  | stub => exact reflected
  | binding b =>
    refine reflected.trans (setPhase_rephased _ rfl fun r hr owner => ?_)
    obtain ⟨q, hq, rfl⟩ := List.mem_map.mp hr
    split at owner
    · next same =>
      rw [if_pos same]
      exact walks b rfl q hq same
    · next other => exact absurd owner other

theorem beginWrites_rephased {r : Ref} {v : WalkValue} (walks : s.Walks r.owner v) (values : List Word) :
    s.Rephased (s.beginWrites r v values) := by
  unfold State.beginWrites
  split
  · exact rephased_of_eq rfl rfl rfl
  · exact completeWalk_rephased walks

theorem walkStub_rephased (s : State) (r : Ref) : s.Rephased (s.walkStub r) := by
  have walks : s.Walks r.owner .stub := fun _ h => nomatch h
  exact beginWrites_rephased walks _

theorem walks_currentValue (law : s.Seeks) {r : Ref} (row : r ∈ s.refs) : s.Walks r.owner r.currentValue := by
  intro b value q hq owner
  obtain rfl := eq_of_owner law.sound.law.owners hq row owner
  exact unlisted_of_binding (binding_of_currentValue value)

theorem computeWalk_rephased (law : s.Seeks) {r : Ref} (row : r ∈ s.refs) : s.Rephased (s.computeWalk r) := by
  have walks := walks_currentValue law row
  unfold State.computeWalk
  split
  · exact walkStub_rephased s r
  · next b binding =>
    rw [Ref.currentValue, binding] at walks
    split
    · exact beginWrites_rephased walks _
    · next k _ =>
      have faulted : s.Rephased ((s.setPhase r.owner (.faulted .fit)).post (.referenceFaulted r.owner .fit k)) :=
        (setPhase_rephased s rfl (walks b rfl)).trans (rephased_of_eq rfl rfl rfl)
      exact faulted.trans (walkStub_rephased _ r)

theorem beginWalk_rephased (law : s.Seeks) {r : Ref} (row : r ∈ s.refs) : s.Rephased (s.beginWalk r) := by
  unfold State.beginWalk
  split
  · exact completeWalk_rephased (walks_currentValue law row)
  · exact computeWalk_rephased law row

theorem afterSite_rephased (law : s.Seeks) (w : Walk) : s.Rephased (s.afterSite w) := by
  unfold State.afterSite
  split
  · exact rephased_of_eq rfl rfl rfl
  · next r found =>
    have row := (mem_of_ref? found).1
    split
    · exact computeWalk_rephased law row
    · next same =>
      split
      · exact rephased_of_eq rfl rfl rfl
      · exact completeWalk_rephased (not_not.mp same ▸ walks_currentValue law row)

/-! ## Imports (R26) -/

theorem enterImport_seeks (owners : s.OwnersOnce) (law : s.Seeks) {x : ImportRecord} {tag : Half} {m : Byte} {i j off sum : Nat}
    {rec : ModuleRecord} (due : s.ImportDue x tag m i j off sum rec) : (s.enterImport x).Seeks := by
  unfold State.enterImport
  rw [due.command]
  dsimp only
  generalize ref : ({ key := s.keyOf x.scope x.name, owner := { module := m, index := j }, expected := x.expected, sites := x.sites
                      phase := .waiting, reflect := .none } : Ref) = r
  generalize entered : ({ s with
    refs := s.refs ++ [r]
    command := some (.loadCommit tag m i (j + 1) (off + 32 + 16 * x.sites.length) (sum + x.sites.length)) } : State) = t
  have waiting : r.phase = .waiting := by rw [← ref]
  have refs : t.refs = s.refs ++ [r] := by rw [← entered]
  have once : (t.refs.map (·.owner)).Nodup :=
    (addRef_ownersOnce owners due (r := r) (t := t) (by rw [← ref]) refs (by rw [← entered]) (by rw [← entered])
      (by rw [← entered])).refOwners
  have row : r ∈ t.refs := refs ▸ List.mem_append_right _ (List.mem_singleton_self r)
  have old : ∀ q ∈ t.refs, q.phase.listed = true → q ∈ s.refs := by
    intro q hq listed
    rw [refs] at hq
    refine (List.mem_append.mp hq).resolve_right fun new => ?_
    obtain rfl := List.mem_singleton.mp new
    rw [waiting] at listed
    cases listed
  have kept : ∀ q ∈ s.refs, q ∈ t.refs := fun q hq => refs ▸ List.mem_append_left _ hq
  have slots : t.seekTables.slots = s.seekTables.slots := by rw [← entered]; rfl
  have backlog : t.backlog = s.backlog := by rw [← entered]
  have sound : t.seekTables.Sound := by
    refine law.sound.shrink ⟨once, ?_, fun o => ?_⟩ (fun n a ha => ⟨a, slots ▸ ha, rfl⟩)
      (fun q hq n seeks => ⟨q, old q hq (by rw [seeks]; rfl), seeks, rfl⟩) (fun n a ha => ?_) fun q hq n seeks => ?_
    · change t.backlog.Nodup
      rw [backlog]
      exact law.sound.law.once
    · change o ∈ t.backlog ↔ _
      rw [backlog]
      refine (law.sound.law.queued o).trans ⟨fun ⟨q, hq, at_⟩ => ⟨q, kept q hq, at_⟩, fun ⟨q, hq, owner, queued⟩ => ?_⟩
      exact ⟨q, old q hq (by rw [queued]; rfl), owner, queued⟩
    · obtain ⟨q, hq, seeks, -⟩ := law.sound.used n a (slots ▸ ha)
      exact ⟨q, kept q hq, seeks⟩
    · obtain ⟨a, ha, -⟩ := law.sound.seeking q (old q hq (by rw [seeks]; rfl)) n seeks
      exact ⟨a, slots.symm ▸ ha⟩
  have served : t.seekTables.Served := by
    refine law.served.imp (fun empty => ?_) fun full => slots.symm ▸ full
    change t.backlog = []
    rw [backlog]
    exact empty
  obtain ⟨sound', served', -⟩ := seekEntry_enters sound served (r := r) ⟨⟨r, row, rfl⟩, fun q hq owner => by
    obtain rfl := eq_of_owner once hq row owner
    exact ⟨rfl, by rw [waiting]; rfl⟩⟩
  exact ⟨sound', served'⟩

/-! ## Every effect, move and change -/

theorem State.Seeks.of_and (h : s.seekTables.Sound ∧ s.seekTables.Served) : s.Seeks := ⟨h.1, h.2⟩

theorem State.Rephased.seeks (h : s.Rephased t) (law : s.Seeks) : t.Seeks := ⟨h.sound law.sound, h.served law.served⟩

theorem revoked_seeks (law : s.Seeks) (criterion : Ref → Binding → Bool) (cause : RevocationCause) : (s.revoke criterion cause).Seeks :=
  .of_and (revoke_seeks law.sound law.served criterion cause)

theorem losePeer_seeks (law : s.Seeks) (n : Station) (cause : PeerLoss) : (s.losePeer n cause).Seeks :=
  (revoked_seeks (law.congr (t := s.post (.peerGone n cause)) rfl rfl rfl) _ _).congr rfl rfl rfl

theorem Effect.prepared (h : Effect ok s u) (owners : s.OwnersOnce) (law : s.Seeks) : s.Prepared u := by
  cases h with
  | clash k b refused _ => exact clash_prepared law.sound law.served k b refused
  | revoke criterion cause => exact (revoked_seeks law criterion cause).prepared
  | withdraw criterion cause gone =>
    exact ((revoked_seeks law criterion cause).congr (t := (s.revoke criterion cause).dropPairs gone) rfl rfl rfl).prepared
  | depart n cause => exact (losePeer_seeks (law.congr (t := s.markAbsent n) rfl rfl rfl) n cause).prepared
  | rejoin n cause => exact (losePeer_seeks law n cause).prepared
  | giveUp m begun c _ =>
    exact (removeRefs_prepared (t := (s.setModuleState m .unloading).withdrawEntries m) law rfl rfl rfl m begun).congr rfl rfl
  | exhaust n => exact exhaust_prepared law.sound law.served n
  | enterImport x due => exact (enterImport_seeks owners law due).prepared
  | reseek p reseekable => exact (State.Seeks.of_and (reseek_seeks law.sound law.served p reseekable)).prepared
  | beginWalk r row => exact ((beginWalk_rephased law row).seeks law).prepared
  | afterSite w => exact ((afterSite_rephased law w).seeks law).prepared
  | busFault o k => exact busFault_prepared law o k

theorem abandon_seeks (law : s.Seeks) (tag : Half) (m : Byte) (begun : Bool) : (s.abandonModule tag m begun).Seeks := by
  have removed : s.Prepared (s.removeRefs m begun) := removeRefs_prepared law rfl rfl rfl m begun
  have prepared : s.Prepared (s.abandoned m begun) := removed.congr rfl rfl
  have ended : ((s.abandoned m begun).endEvent s []).Seeks := .of_and (endEvent_seeks prepared rfl [])
  rw [abandonModule_eq]
  generalize (s.abandoned m begun).endEvent s [] = u at ended ⊢
  exact ended.congr rfl rfl rfl

theorem arbitrate_seeks (law : s.Seeks) (order : List Bool) : (s.arbitrate order).Seeks := law.tables (arbitrate_seekTables s order)

theorem Move.seeks (h : Move ok s t) (owners : s.OwnersOnce) (law : s.Seeks) : t.Seeks := by
  cases h with
  | aside h => exact law.alike (core_lists h)
  | memory _ h => exact law.alike (memory_lists h)
  | meetSeek k => exact law.alike (meetSeek_lists s k)
  | meetClaim k p refused _ => exact law.alike (meetClaim_lists s k p refused)
  | meetOwnAnnounce k g => exact law.alike (meetOwnAnnounce_lists s k g)
  | arbitrate order => exact arbitrate_seeks law order
  | leaveQueue ts _ => exact arbitrate_seeks (s := { s with txQueue := ts }) (law.congr rfl rfl rfl) []
  | enterOut k => exact enterOut_seeks law k
  | retry n tries x slot => exact arbitrate_seeks (enterToSend_seeks law slot tries) []
  | enterExport x due => exact arbitrate_seeks (law.alike (enterExport_lists s x)) []
  | event h b order slots => exact .of_and (endEvent_seeks (h.prepared owners law) slots order)
  | abandon tag m begun _ _ => exact abandon_seeks law tag m begun
  | _ => exact law.congr rfl rfl rfl

theorem seeks_of_empty (refs : t.refs = []) (backlog : t.backlog = []) (slots : ∀ o ∈ t.slots, o = none) : t.Seeks := by
  have free : ∀ (n : Nat) (a : Slot), t.seekTables.slots[n]? ≠ some (some a) := by
    intro n a ha
    obtain ⟨x, hx, -⟩ := unasked_some ha
    cases slots _ (List.mem_of_getElem? hx)
  have none_ : ∀ r, r ∉ t.seekTables.refs := fun r hr => by
    change r ∈ t.refs at hr
    rw [refs] at hr
    cases hr
  refine ⟨⟨⟨?_, ?_, fun o => ⟨fun ho => ?_, fun ⟨r, hr, _⟩ => absurd hr (none_ r)⟩⟩, fun i j a b ha => absurd ha (free i a),
    fun n a ha => absurd ha (free n a), fun r hr => absurd hr (none_ r)⟩, .inl backlog⟩
  · change (t.refs.map _).Nodup
    rw [refs]
    exact List.nodup_nil
  · change t.backlog.Nodup
    rw [backlog]
    exact List.nodup_nil
  · change o ∈ t.backlog at ho
    rw [backlog] at ho
    cases ho

theorem Change.seeks (h : Change s t) (law : s.Seeks) : t.Seeks := by
  cases h with
  | reset n cut => exact seeks_of_empty (t := s.resetWith n cut) rfl rfl fun o ho => (List.mem_replicate.mp ho).2
  | submit value =>
    obtain ⟨refs, -, -, slots, backlog, -⟩ := submit_tables s value
    exact law.congr refs backlog slots
  | join tag _ =>
    exact arbitrate_seeks (s := { s with station := .joining, busSeen := false, command := some (.start tag), wanted := [.join] })
      (law.congr rfl rfl rfl) []
  | leave tag _ _ =>
    exact arbitrate_seeks (s := { s with station := .leaving, command := some (.stop tag), wanted := [.leave] })
      (law.congr rfl rfl rfl) []
  | isolate => exact law.rekeyed rfl rfl (cutFromBus_slotKeys s)
  | _ => exact law.congr rfl rfl rfl

theorem seekLaw_iff_seeks (s : State) : s.SeekLaw ↔ s.OwnersDistinct ∧ s.Seeks :=
  (seekLaw_iff s).trans (and_congr_right fun _ => ⟨.of_and, fun h => ⟨h.sound, h.served⟩⟩)

/-- Settles O12: the event's effects keep the tables sound, and the backlog served up to a slot they free; the end of the event
serves it. -/
theorem seekLawKept : Obligations.SeekLawKept := by
  intro s t law h
  refine step_keeps_any (P := State.SeekLaw) (fun s q law => ?_) (fun s t law move => ?_) (fun s t law change => ?_) law h
  · rw [seekLaw_iff_seeks] at law ⊢
    exact ⟨{ law.1 with }, law.2.congr rfl rfl rfl⟩
  · rw [seekLaw_iff_seeks] at law ⊢
    exact ⟨move.ownersDistinct law.1, move.seeks ((ownersDistinct_iff s).mp law.1).1 law.2⟩
  · rw [seekLaw_iff_seeks] at law ⊢
    exact ⟨change.ownersDistinct law.1, change.seeks law.2⟩

end Sys2Proof.Machine

/-! A BOUND reference's sites reflect its binding, and it is not on the patch queue (R63, R108). -/

namespace Sys2Proof.Machine

variable {ok : Prop} {s t u : State}

/-! ## Operations that begin and complete no walk -/

/-- The laws of bound references and of the patch queue but for the distinct owners. -/
structure State.BoundQueue (s : State) : Prop where
  queueOnce : s.patchQueue.Nodup
  bound : ∀ r ∈ s.refs, ∀ b, r.phase = .bound b → r.reflect = .binding b ∧ r.owner ∉ s.patchQueue

/-- Bound references stay as they are or go, and none of their owners joins the patch queue. -/
structure State.Unwalked (s t : State) : Prop where
  queue : t.patchQueue.Sublist s.patchQueue
  bound : ∀ r ∈ t.refs, ∀ b, r.phase = .bound b → r ∈ s.refs

theorem State.Unwalked.boundQueue (h : s.Unwalked t) (law : s.BoundQueue) : t.BoundQueue := by
  refine ⟨law.queueOnce.sublist h.queue, fun r hr b bound => ?_⟩
  obtain ⟨reflect, off⟩ := law.bound r (h.bound r hr b bound) b bound
  exact ⟨reflect, fun on => off (h.queue.subset on)⟩

theorem unwalked_of_eq (refs : t.refs = s.refs) (queue : t.patchQueue = s.patchQueue) : s.Unwalked t :=
  ⟨by rw [queue], fun _ hr _ _ => refs ▸ hr⟩

theorem unwalked_of_lists (h : t.lists = s.lists) : s.Unwalked t :=
  unwalked_of_eq (congrArg (·.1) h) (congrArg (·.2.2.2) h)

theorem State.BoundQueue.alike (law : s.BoundQueue) (refs : t.refs = s.refs) (queue : t.patchQueue = s.patchQueue) : t.BoundQueue :=
  (unwalked_of_eq refs queue).boundQueue law

theorem State.Unwalked.trans (h : s.Unwalked t) (k : t.Unwalked u) : s.Unwalked u :=
  ⟨k.queue.trans h.queue, fun r hr b bound => h.bound r (k.bound r hr b bound) b bound⟩

theorem unwalked_foldl {α : Type} {F : State → α → State} (step : ∀ (s : State) (x : α), s.Unwalked (F s x)) (l : List α) :
    ∀ s : State, s.Unwalked (l.foldl F s) := by
  induction l with
  | nil => exact fun s => unwalked_of_eq rfl rfl
  | cons x l ih => exact fun s => (step s x).trans (ih _)

/-- References rewritten, none of them to BOUND. -/
theorem unwalked_map {f : Ref → Ref} (refs : t.refs = s.refs.map f) (queue : t.patchQueue.Sublist s.patchQueue)
    (kept : ∀ r b, (f r).phase = .bound b → f r = r) : s.Unwalked t := by
  refine ⟨queue, fun r hr b bound => ?_⟩
  rw [refs] at hr
  obtain ⟨q, hq, rfl⟩ := List.mem_map.mp hr
  rw [kept q b bound]
  exact hq

theorem setPhase_unwalked (s : State) (o : Owner) {p : Phase} (unbound : ∀ b, p ≠ .bound b) : s.Unwalked (s.setPhase o p) := by
  refine unwalked_map rfl (.refl _) fun r b bound => ?_
  split at bound
  · exact absurd bound (unbound b)
  · next other => rw [if_neg other]

theorem offerBinding_unwalked (s : State) (r : Ref) (b : Binding) : s.Unwalked (s.offerBinding r b) := by
  unfold State.offerBinding
  split
  · exact setPhase_unwalked s _ fun _ h => nomatch h
  · exact (setPhase_unwalked s r.owner (p := .faulted .kind) fun _ h => nomatch h).trans (unwalked_of_eq rfl rfl)

theorem takeSlot_unwalked (s : State) (r : Ref) (n : Nat) : s.Unwalked (s.takeSlot r n) := by
  have sought : s.Unwalked (s.enterToSend n r.key 1) := unwalked_of_eq rfl rfl
  exact sought.trans (setPhase_unwalked (s.enterToSend n r.key 1) r.owner (p := .seeking n) fun _ h => nomatch h)

theorem seekEntry_unwalked (s : State) (r : Ref) : s.Unwalked (s.seekEntry r) := by
  unfold State.seekEntry
  split
  · exact offerBinding_unwalked s r _
  · split
    · exact setPhase_unwalked s _ fun _ h => nomatch h
    · split
      · exact takeSlot_unwalked s r _
      · exact (setPhase_unwalked s r.owner (p := .queued) fun _ h => nomatch h).trans (unwalked_of_eq rfl rfl)

theorem joinQueued_unwalked (s : State) (k : Key) (n : Nat) : s.Unwalked (s.joinQueued k n) := by
  refine unwalked_map rfl (.refl _) fun r b bound => ?_
  split at bound
  · cases bound
  · next other => rw [if_neg other]

theorem serveOne_unwalked (s : State) (r : Ref) (n : Nat) : s.Unwalked (s.serveOne r n) := by
  unfold State.serveOne
  split
  · exact offerBinding_unwalked s r _
  · split
    · exact setPhase_unwalked s _ fun _ h => nomatch h
    · exact (takeSlot_unwalked s r n).trans (joinQueued_unwalked _ _ _)

theorem serveRounds_unwalked (n : Nat) : ∀ s : State, s.Unwalked (s.serveRounds n) := by
  induction n with
  | zero => exact fun s => unwalked_of_eq rfl rfl
  | succ n ih =>
    intro s
    unfold State.serveRounds
    split
    · next free o rest _ _ =>
      have out : s.Unwalked { s with backlog := rest } := unwalked_of_eq rfl rfl
      dsimp only
      split
      · next r _ => exact out.trans ((serveOne_unwalked _ r free).trans (ih _))
      · exact out.trans (ih _)
    · exact unwalked_of_eq rfl rfl

theorem freeSlotOf_unwalked (s : State) (k : Key) : s.Unwalked (s.freeSlotOf k) := by
  unfold State.freeSlotOf
  split <;> exact unwalked_of_eq rfl rfl

theorem clashRef_unwalked (s : State) (r : Ref) (b : Binding) (refused : List Pair) : s.Unwalked (s.clashRef r b refused) := by
  unfold State.clashRef
  split
  · have out : s.Unwalked { s with backlog := s.backlog.filter fun o => decide (o ≠ r.owner) } := unwalked_of_eq rfl rfl
    exact out.trans (offerBinding_unwalked _ r b)
  · split
    · split
      · have posted : s.Unwalked (s.post (.referenceRevoked r.owner .refusedDefiner)) := unwalked_of_eq rfl rfl
        exact posted.trans (offerBinding_unwalked _ r b)
      · exact unwalked_of_eq rfl rfl
    · exact unwalked_of_eq rfl rfl

theorem clashKey_unwalked (s : State) (k : Key) (b : Binding) (refused : List Pair) : s.Unwalked (s.clashKey k b refused) :=
  (unwalked_foldl (fun s r => clashRef_unwalked s r b refused) _ s).trans (freeSlotOf_unwalked _ k)

theorem revoke_unwalked (s : State) (criterion : Ref → Binding → Bool) (cause : RevocationCause) : s.Unwalked (s.revoke criterion cause) := by
  have drop : ∀ (s : State) (r : Ref), s.Unwalked (State.dropBinding cause s r) := fun s r =>
    (setPhase_unwalked s r.owner (p := .waiting) fun _ h => nomatch h).trans (unwalked_of_eq rfl rfl)
  exact (unwalked_foldl drop _ s).trans (unwalked_foldl seekEntry_unwalked _ _)

theorem losePeer_unwalked (s : State) (n : Station) (cause : PeerLoss) : s.Unwalked (s.losePeer n cause) := by
  have posted : s.Unwalked (s.post (.peerGone n cause)) := unwalked_of_eq rfl rfl
  exact (posted.trans (revoke_unwalked _ _ _)).trans (unwalked_of_eq rfl rfl)

theorem removeRefs_unwalked (s : State) (m : Byte) (begun : Bool) : s.Unwalked (s.removeRefs m begun) :=
  ⟨List.filter_sublist, fun _ hr _ _ => (List.mem_filter.mp hr).1⟩

theorem exhaust_unwalked (s : State) (n : Nat) : s.Unwalked (s.exhaust n) := by
  have wait : ∀ (s : State) (r : Ref), s.Unwalked ((s.setPhase r.owner .waiting).post (.referenceUnresolved r.owner)) := fun s r =>
    (setPhase_unwalked s r.owner (p := .waiting) fun _ h => nomatch h).trans (unwalked_of_eq rfl rfl)
  exact (unwalked_foldl wait _ s).trans (unwalked_of_eq rfl rfl)

theorem enterImport_unwalked (s : State) (x : ImportRecord) : s.Unwalked (s.enterImport x) := by
  unfold State.enterImport
  split
  · dsimp only
    refine .trans ?_ (seekEntry_unwalked _ _)
    refine ⟨.refl _, fun r hr b bound => ?_⟩
    refine (List.mem_append.mp hr).resolve_right fun new => ?_
    obtain rfl := List.mem_singleton.mp new
    cases bound
  · exact unwalked_of_eq rfl rfl

theorem reseekRef_unwalked (s : State) (r : Ref) : s.Unwalked (s.reseekRef r) :=
  (setPhase_unwalked s r.owner (p := .waiting) fun _ h => nomatch h).trans (seekEntry_unwalked _ r)

theorem busFault_unwalked (s : State) (o : Owner) (k : Nat) : s.Unwalked (s.busFault o k) := by
  rw [busFault_eq]
  refine unwalked_map rfl List.erase_sublist fun r b bound => ?_
  split at bound
  · cases bound
  · next other => rw [if_neg other]

/-! ## Walks (R116, R119, R121) -/

/-- No reference of the owner is BOUND. -/
def State.Unbound (s : State) (o : Owner) : Prop := ∀ q ∈ s.refs, q.owner = o → ∀ b, q.phase ≠ .bound b

theorem completeWalk_boundQueue (law : s.BoundQueue) {o : Owner} {v : WalkValue} (stub : v = .stub → s.Unbound o) :
    (s.completeWalk o v).BoundQueue := by
  have shorter : (s.patchQueue.erase o).Sublist s.patchQueue := List.erase_sublist
  have once := law.queueOnce.sublist shorter
  cases v with
  | stub =>
    refine ⟨once, fun r hr b bound => ?_⟩
    obtain ⟨q, hq, rfl⟩ := List.mem_map.mp hr
    split at bound
    · next owner => exact absurd bound (stub rfl q hq owner b)
    · next other =>
      rw [if_neg other]
      obtain ⟨reflect, off⟩ := law.bound q hq b bound
      exact ⟨reflect, fun on => off (shorter.subset on)⟩
  | binding b =>
    refine ⟨once, fun r hr b' bound => ?_⟩
    obtain ⟨q', hq', rfl⟩ := List.mem_map.mp hr
    obtain ⟨q, hq, rfl⟩ := List.mem_map.mp hq'
    by_cases owner : q.owner = o
    · rw [if_pos owner, if_pos owner] at bound ⊢
      cases bound
      exact ⟨rfl, owner ▸ law.queueOnce.not_mem_erase⟩
    · rw [if_neg owner, if_neg owner] at bound ⊢
      obtain ⟨reflect, off⟩ := law.bound q hq b' bound
      exact ⟨reflect, fun on => off (shorter.subset on)⟩

theorem beginWrites_boundQueue (law : s.BoundQueue) {r : Ref} {v : WalkValue} (stub : v = .stub → s.Unbound r.owner)
    (values : List Word) : (s.beginWrites r v values).BoundQueue := by
  unfold State.beginWrites
  split
  · exact law.alike rfl rfl
  · exact completeWalk_boundQueue law stub

theorem unbound_of_stub (once : (s.refs.map (·.owner)).Nodup) {r : Ref} (row : r ∈ s.refs) (stub : r.phase.binding? = none) :
    s.Unbound r.owner := by
  intro q hq owner b bound
  obtain rfl := eq_of_owner once hq row owner
  rw [bound] at stub
  cases stub

theorem currentValue_stub {r : Ref} (h : r.currentValue = .stub) : r.phase.binding? = none := by
  unfold Ref.currentValue at h
  split at h
  · cases h
  · assumption

theorem computeWalk_boundQueue (law : s.BoundQueue) (once : (s.refs.map (·.owner)).Nodup) {r : Ref} (row : r ∈ s.refs) :
    (s.computeWalk r).BoundQueue := by
  unfold State.computeWalk
  split
  · next stub => exact beginWrites_boundQueue law (fun _ => unbound_of_stub once row stub) _
  · next b _ =>
    split
    · next values _ =>
      have binding : WalkValue.binding b = .stub → s.Unbound r.owner := fun h => nomatch h
      exact beginWrites_boundQueue law binding values
    · next k _ =>
      have faulted := setPhase_unwalked s r.owner (p := .faulted .fit) fun _ h => nomatch h
      have posted := faulted.trans (unwalked_of_eq (t := (s.setPhase r.owner (.faulted .fit)).post (.referenceFaulted r.owner .fit k)) rfl rfl)
      refine beginWrites_boundQueue (posted.boundQueue law) (fun _ q' hq' owner b bound => ?_) _
      obtain ⟨q, hq, rfl⟩ := List.mem_map.mp hq'
      split at bound
      · cases bound
      · next other =>
        rw [if_neg other] at owner
        exact other owner

theorem beginWalk_boundQueue (law : s.BoundQueue) (once : (s.refs.map (·.owner)).Nodup) {r : Ref} (row : r ∈ s.refs) :
    (s.beginWalk r).BoundQueue := by
  unfold State.beginWalk
  split
  · exact completeWalk_boundQueue law fun stub => unbound_of_stub once row (currentValue_stub stub)
  · exact computeWalk_boundQueue law once row

theorem afterSite_boundQueue (law : s.BoundQueue) (once : (s.refs.map (·.owner)).Nodup) (w : Walk) : (s.afterSite w).BoundQueue := by
  unfold State.afterSite
  split
  · exact State.Unwalked.boundQueue ⟨List.erase_sublist, fun _ hr _ _ => hr⟩ law
  · next r found =>
    have row := (mem_of_ref? found).1
    split
    · exact computeWalk_boundQueue law once row
    · next same =>
      split
      · exact law.alike rfl rfl
      · exact completeWalk_boundQueue law fun stub => unbound_of_stub once row (currentValue_stub ((not_not.mp same).trans stub))

/-! ## Every effect, move and change -/

theorem Effect.boundQueue (h : Effect ok s u) (once : (s.refs.map (·.owner)).Nodup) (law : s.BoundQueue) : u.BoundQueue := by
  cases h with
  | clash k b refused _ => exact (clashKey_unwalked s k b refused).boundQueue law
  | revoke criterion cause => exact (revoke_unwalked s criterion cause).boundQueue law
  | withdraw criterion cause gone =>
    have dropped : (s.revoke criterion cause).Unwalked ((s.revoke criterion cause).dropPairs gone) := unwalked_of_eq rfl rfl
    exact ((revoke_unwalked s criterion cause).trans dropped).boundQueue law
  | depart n cause =>
    have marked : s.Unwalked (s.markAbsent n) := unwalked_of_eq rfl rfl
    exact (marked.trans (losePeer_unwalked _ n cause)).boundQueue law
  | rejoin n cause => exact (losePeer_unwalked s n cause).boundQueue law
  | giveUp m begun c _ =>
    have withdrawn : s.Unwalked ((s.setModuleState m .unloading).withdrawEntries m) := unwalked_of_eq rfl rfl
    have given := (withdrawn.trans (removeRefs_unwalked _ m begun)).boundQueue law
    exact ⟨given.queueOnce, given.bound⟩
  | exhaust n => exact (exhaust_unwalked s n).boundQueue law
  | enterImport x _ => exact (enterImport_unwalked s x).boundQueue law
  | reseek p _ => exact (unwalked_foldl reseekRef_unwalked _ s).boundQueue law
  | beginWalk r row => exact beginWalk_boundQueue law once row
  | afterSite w => exact afterSite_boundQueue law once w
  | busFault o k => exact (busFault_unwalked s o k).boundQueue law

theorem needsWalk_of_bound {r : Ref} {b : Binding} (bound : r.phase = .bound b) (reflect : r.reflect = .binding b) :
    r.needsWalk = false := by
  rw [Ref.needsWalk, bound, reflect]
  exact decide_eq_false (not_not.mpr rfl)

theorem appendWalks_boundQueue (law : s.BoundQueue) (once : (s.refs.map (·.owner)).Nodup) : s.appendWalks.BoundQueue := by
  refine ⟨List.nodup_append.mpr ⟨law.queueOnce, nodup_filter once _, fun a ha b hb same => ?_⟩, fun r hr b bound => ?_⟩
  · obtain ⟨r, hr, rfl⟩ := List.mem_map.mp hb
    obtain ⟨-, needs⟩ := List.mem_filter.mp hr
    exact of_decide_eq_true (Bool.and_eq_true_iff.mp needs).2 (same ▸ ha)
  · obtain ⟨reflect, off⟩ := law.bound r hr b bound
    refine ⟨reflect, fun on => ?_⟩
    obtain old | new := List.mem_append.mp on
    · exact off old
    · obtain ⟨q, hq, owner⟩ := List.mem_map.mp new
      obtain ⟨row, needs⟩ := List.mem_filter.mp hq
      obtain rfl := eq_of_owner once row hr owner
      rw [needsWalk_of_bound bound reflect] at needs
      cases needs

theorem settleModules_unwalked (s : State) : s.Unwalked s.settleModules := by
  obtain ⟨refs, -, -, queue, -⟩ := settleModules_tables s
  exact unwalked_of_eq refs queue

theorem arbitrate_unwalked (s : State) (order : List Bool) : s.Unwalked (s.arbitrate order) := by
  obtain ⟨refs, -, -, queue⟩ := arbitrate_tables s order
  exact unwalked_of_eq refs queue

theorem endEvent_boundQueue (owners : u.OwnersOnce) (law : u.BoundQueue) (b : State) (order : List Bool) :
    (u.endEvent b order).BoundQueue := by
  obtain ⟨t, result, served | ⟨rfl, -⟩⟩ := endEvent_cases u b order
  · rw [result, served]
    have once := (Edits.keeps (P := State.OwnersOnce) (fun _ _ law h => h.ownersOnce law) owners (serveRounds_edits (ok := False) u.backlog.length u)).refOwners
    have walks := appendWalks_boundQueue ((serveRounds_unwalked u.backlog.length u).boundQueue law) once
    exact ((settleModules_unwalked _).trans (arbitrate_unwalked _ order)).boundQueue walks
  · rw [result]
    exact ((settleModules_unwalked _).trans (arbitrate_unwalked _ order)).boundQueue (appendWalks_boundQueue law owners.refOwners)

theorem Effect.ownersOnce (h : Effect ok s u) (law : s.OwnersOnce) : u.OwnersOnce := by
  have path := h.bases
  clear h
  induction path with
  | refl => exact law
  | tail _ last ih => exact last.ownersOnce ih

theorem abandon_boundQueue (owners : s.OwnersOnce) (law : s.BoundQueue) (tag : Half) (m : Byte) (begun : Bool) (answers : s.answers = []) :
    (s.abandonModule tag m begun).BoundQueue := by
  have gone : (s.abandoned m begun).OwnersOnce :=
    Edits.keeps (P := State.OwnersOnce) (fun _ _ law h => h.ownersOnce law) owners (abandoned_edits (ok := False) s m begun answers)
  have removed := (removeRefs_unwalked s m begun).boundQueue law
  have ended := endEvent_boundQueue gone (removed.alike rfl rfl) s []
  rw [abandonModule_eq]
  generalize (s.abandoned m begun).endEvent s [] = u at ended ⊢
  exact ended.alike rfl rfl

theorem enterOut_unwalked (s : State) (k : Key) : s.Unwalked (s.enterOut k) := by
  unfold State.enterOut
  split
  · exact unwalked_of_eq rfl rfl
  · split
    · split <;> exact unwalked_of_eq rfl rfl
    · exact unwalked_of_eq rfl rfl

theorem Move.boundQueue (h : Move ok s t) (owners : s.OwnersOnce) (law : s.BoundQueue) : t.BoundQueue := by
  have alike : ∀ u : State, u.lists = s.lists → u.BoundQueue := fun u same => (unwalked_of_lists same).boundQueue law
  cases h with
  | aside h => exact alike _ (core_lists h)
  | memory _ h => exact alike _ (memory_lists h)
  | meetSeek k => exact alike _ (meetSeek_lists s k)
  | meetClaim k p refused _ => exact alike _ (meetClaim_lists s k p refused)
  | meetOwnAnnounce k g => exact alike _ (meetOwnAnnounce_lists s k g)
  | arbitrate order => exact (arbitrate_unwalked s order).boundQueue law
  | leaveQueue ts _ =>
    have left : s.Unwalked { s with txQueue := ts } := unwalked_of_eq rfl rfl
    exact (left.trans (arbitrate_unwalked _ [])).boundQueue law
  | enterOut k => exact (enterOut_unwalked s k).boundQueue law
  | retry n tries x slot =>
    have sought : s.Unwalked (s.enterToSend n x.key tries) := unwalked_of_eq rfl rfl
    exact (sought.trans (arbitrate_unwalked _ [])).boundQueue law
  | enterExport x due => exact ((unwalked_of_lists (enterExport_lists s x)).trans (arbitrate_unwalked _ [])).boundQueue law
  | event h b order slots => exact endEvent_boundQueue (h.ownersOnce owners) (h.boundQueue owners.refOwners law) b order
  | abandon tag m begun _ answers => exact abandon_boundQueue owners law tag m begun answers
  | _ => exact alike _ rfl

theorem Change.boundQueue (h : Change s t) (law : s.BoundQueue) : t.BoundQueue := by
  have alike : ∀ u : State, u.lists = s.lists → u.BoundQueue := fun u same => (unwalked_of_lists same).boundQueue law
  cases h with
  | reset n cut => exact ⟨List.nodup_nil, fun _ h => nomatch h⟩
  | submit value =>
    obtain ⟨refs, -, -, -, -, queue⟩ := submit_tables s value
    exact (unwalked_of_eq refs queue).boundQueue law
  | join tag _ =>
    have joined : s.Unwalked { s with station := .joining, busSeen := false, command := some (.start tag), wanted := [.join] } :=
      unwalked_of_eq rfl rfl
    exact (joined.trans (arbitrate_unwalked _ [])).boundQueue law
  | leave tag _ _ =>
    have left : s.Unwalked { s with station := .leaving, command := some (.stop tag), wanted := [.leave] } := unwalked_of_eq rfl rfl
    exact (left.trans (arbitrate_unwalked _ [])).boundQueue law
  | isolate => exact law.alike rfl rfl
  | _ => exact alike _ rfl

theorem boundLaw_iff (s : State) : s.BoundLaw ↔ s.OwnersDistinct ∧ s.BoundQueue :=
  ⟨fun h => ⟨h.owners, h.queueOnce, h.bound⟩, fun h => ⟨h.1, h.2.queueOnce, h.2.bound⟩⟩

/-- Settles O16: no operation but the completion of a walk makes a reference BOUND, and the end of an event appends only walks that
are needed. -/
theorem boundLawKept : Obligations.BoundLawKept := by
  intro s t law h
  refine step_keeps_any (P := State.BoundLaw) (fun s q law => ?_) (fun s t law move => ?_) (fun s t law change => ?_) law h
  · exact { law with owners := { law.owners with } }
  · rw [boundLaw_iff] at law ⊢
    exact ⟨move.ownersDistinct law.1, move.boundQueue ((ownersDistinct_iff s).mp law.1).1 law.2⟩
  · rw [boundLaw_iff] at law ⊢
    exact ⟨change.ownersDistinct law.1, change.boundQueue law.2⟩

end Sys2Proof.Machine

/-! Frames as bits: what is sent is read as that frame (R129, R188, R189). -/

namespace Sys2Proof.Machine

/-! ## Numbers as bits (R188) -/

@[simp] theorem natBits_length (w n : Nat) : (natBits w n).length = w := by
  induction w with
  | zero => rfl
  | succ w ih => rw [natBits, List.length_cons, ih]

theorem bitsNat_append (a b : List Bool) : bitsNat (a ++ b) = 2 ^ b.length * bitsNat a + bitsNat b := by
  have shift : ∀ (b : List Bool) (n : Nat), b.foldl (fun n x => 2 * n + x.toNat) n = 2 ^ b.length * n + bitsNat b := by
    intro b
    induction b with
    | nil => intro n; simp [bitsNat]
    | cons x b ih =>
      intro n
      have first : bitsNat (x :: b) = 2 ^ b.length * x.toNat + bitsNat b := by
        change b.foldl _ (2 * 0 + x.toNat) = _
        rw [ih]
        simp
      rw [List.foldl_cons, ih, first, List.length_cons, Nat.pow_succ]
      ring
  rw [bitsNat, List.foldl_append, shift]
  rfl

theorem bitsNat_cons (x : Bool) (b : List Bool) : bitsNat (x :: b) = 2 ^ b.length * x.toNat + bitsNat b := by
  have := bitsNat_append [x] b
  simpa [bitsNat] using this

theorem bitsNat_lt (b : List Bool) : bitsNat b < 2 ^ b.length := by
  induction b with
  | nil => exact Nat.one_pos
  | cons x b ih =>
    rw [bitsNat_cons, List.length_cons, Nat.pow_succ]
    have : x.toNat ≤ 1 := Bool.toNat_le x
    nlinarith

theorem bitsNat_natBits (w n : Nat) : bitsNat (natBits w n) = n % 2 ^ w := by
  induction w with
  | zero => simp [natBits, bitsNat, Nat.mod_one]
  | succ w ih => rw [natBits, bitsNat_cons, natBits_length, ih, Nat.mod_pow_succ, Nat.toNat_testBit, Nat.add_comm]

theorem bitsNat_natBits_of_lt {w n : Nat} (h : n < 2 ^ w) : bitsNat (natBits w n) = n := by
  rw [bitsNat_natBits, Nat.mod_eq_of_lt h]

/-! ## The check (R189) -/

/-- Its own upper bits, sent after it, empty the check register. -/
theorem checkStep_own (r : Half) : ∀ w k : Nat, k + w = 16 → (natBits w r.toNat).foldl checkStep (r <<< k) = r <<< 16 := by
  intro w
  induction w with
  | zero =>
    intro k whole
    obtain rfl : k = 16 := whole
    rfl
  | succ w ih =>
    intro k whole
    have top : (r <<< k).getLsbD 15 = r.toNat.testBit w := by
      rw [BitVec.getLsbD_shiftLeft, BitVec.testBit_toNat, show 15 - k = w by omega]
      simp [show ¬ 15 < k by omega]
    rw [natBits, List.foldl_cons, checkStep, top, if_neg (by simp), ← BitVec.shiftLeft_add]
    exact ih (k + 1) (by omega)

theorem checkOf_own (bits : List Bool) : checkOf (bits ++ natBits 16 (checkOf bits).toNat) = 0 := by
  rw [checkOf, List.foldl_append]
  have own := checkStep_own (checkOf bits) 16 0 rfl
  rw [BitVec.shiftLeft_zero] at own
  refine own.trans ?_
  exact BitVec.shiftLeft_eq_zero (Nat.le_refl 16)

/-! ## Bytes as bits (R188) -/

@[simp] theorem byteBits_length (bs : List Byte) : (byteBits bs).length = 8 * bs.length := by
  induction bs with
  | nil => rfl
  | cons b bs ih =>
    rw [byteBits, List.flatMap_cons, List.length_append, natBits_length, List.length_cons]
    rw [byteBits] at ih
    omega

theorem bitsBytes_byteBits (bs : List Byte) (rest : List Bool) : bitsBytes bs.length (byteBits bs ++ rest) = bs := by
  induction bs with
  | nil => rfl
  | cons b bs ih =>
    have split : byteBits (b :: bs) ++ rest = natBits 8 b.toNat ++ (byteBits bs ++ rest) := by
      rw [byteBits, List.flatMap_cons, List.append_assoc]
      rfl
    rw [List.length_cons, bitsBytes, split, List.take_left' (natBits_length 8 _), List.drop_left' (natBits_length 8 _), ih,
      bitsNat_natBits_of_lt b.isLt, BitVec.ofNat_toNat, BitVec.setWidth_eq]

theorem bitsBytes_length (n : Nat) : ∀ bits : List Bool, (bitsBytes n bits).length = n := by
  induction n with
  | zero => exact fun _ => rfl
  | succ n ih => exact fun bits => by rw [bitsBytes, List.length_cons, ih]

theorem bitsBytes_getElem? (n : Nat) : ∀ (bits : List Bool) (j : Nat), j < n →
    (bitsBytes n bits)[j]? = some (BitVec.ofNat 8 (bitsNat ((bits.drop (8 * j)).take 8))) := by
  induction n with
  | zero => exact fun _ _ h => absurd h (Nat.not_lt_zero _)
  | succ n ih =>
    intro bits j inside
    cases j with
    | zero => rfl
    | succ j =>
      rw [bitsBytes, List.getElem?_cons_succ, ih _ _ (Nat.lt_of_succ_lt_succ inside), List.drop_drop,
        show 8 + 8 * j = 8 * (j + 1) by omega]

/-! ## Fields of a body (R188) -/

theorem scopeOfFlags_flagsByte (scope : Scope) (kind : Kind) : scopeOfFlags (flagsByte scope kind) = scope := by
  cases scope <;> cases kind <;> rfl

theorem kindOfFlags_flagsByte (scope : Scope) (kind : Kind) : kindOfFlags (flagsByte scope kind) = kind := by
  cases scope <;> cases kind <;> rfl

theorem halfOf_halfBytes (h : Half) : halfOf ((h >>> 8).setWidth 8) (h.setWidth 8) = h := by
  refine BitVec.eq_of_getLsbD_eq fun i hi => ?_
  rw [halfOf, BitVec.getLsbD_append]
  split
  · simp [*]
  · next high =>
    rw [BitVec.getLsbD_setWidth, BitVec.getLsbD_ushiftRight, show 8 + (i - 8) = i by omega]
    simp [show i - 8 < 8 by omega]

theorem readPairs_pairBytes (refused : List Pair) : readPairs (refused.flatMap pairBytes) = refused := by
  induction refused with
  | nil => rfl
  | cons p refused ih =>
    have station : (Fin.ofNat 16 (BitVec.ofNat 8 p.station.val).toNat : Station) = p.station := by
      apply Fin.ext
      have := p.station.isLt
      simp only [BitVec.toNat_ofNat, Fin.val_ofNat]
      omega
    rw [List.flatMap_cons]
    simp only [pairBytes, halfBytes, List.cons_append, List.nil_append, readPairs]
    rw [station, halfOf_halfBytes, ih]

theorem pairBytes_length (refused : List Pair) : (refused.flatMap pairBytes).length = 3 * refused.length := by
  induction refused with
  | nil => rfl
  | cons p refused ih =>
    rw [List.flatMap_cons, List.length_append, List.length_cons, ih]
    simp [pairBytes, halfBytes]
    omega

theorem toNat_lengthByte {α : Type} {l : List α} (h : l.length ≤ 24) : (BitVec.ofNat 8 l.length).toNat = l.length := by
  rw [BitVec.toNat_ofNat]
  omega

/-- The body of a kind with a name, from the bytes behind the name. -/
def bodyAfterName (flags : Byte) (name : List Byte) (code : Nat) (tail : List Byte) : Option Body :=
  match code, tail with
  | 7, [] => some (.seek (scopeOfFlags flags) name)
  | 5, [g0, g1] => some (.withdraw (scopeOfFlags flags) name (halfOf g0 g1))
  | 2, [g0, g1, t0, t1, t2, t3] =>
    some (.offer (scopeOfFlags flags) name (halfOf g0 g1) (wordOf t0 t1 t2 t3) (kindOfFlags flags))
  | 6, [g0, g1, t0, t1, t2, t3] =>
    some (.announce (scopeOfFlags flags) name (halfOf g0 g1) (wordOf t0 t1 t2 t3) (kindOfFlags flags))
  | 1, o :: g0 :: g1 :: t0 :: t1 :: t2 :: t3 :: c :: pairs =>
    if 1 ≤ c.toNat ∧ c.toNat ≤ 15 ∧ pairs.length = 3 * c.toNat then
      some (.clash (scopeOfFlags flags) name (Fin.ofNat 16 o.toNat) (halfOf g0 g1) (wordOf t0 t1 t2 t3) (kindOfFlags flags)
        (readPairs pairs))
    else none
  | _, _ => none

theorem readBody_eq {code : Nat} (named : code ≠ 3 ∧ code ≠ 4) (flags len : Byte) (rest : List Byte) :
    readBody code (flags :: len :: rest) =
      if len.toNat = 0 ∨ 24 < len.toNat then none
      else if code = 7 ∧ rest.length ≠ len.toNat then none
      else bodyAfterName flags (rest.take len.toNat) code (rest.drop len.toNat) := by
  unfold readBody bodyAfterName
  rw [if_neg named.1, if_neg named.2]
  dsimp only
  split
  · rfl
  · split
    · next ended =>
      by_cases length : rest.length = len.toNat
      · simp [length, ended]
      · simp [length]
    all_goals simp_all

theorem readBody_named {code : Nat} (named : code ≠ 3 ∧ code ≠ 4) {name : List Byte} (some_ : 1 ≤ name.length) (most : name.length ≤ 24)
    (flags : Byte) {tail : List Byte} (seek : code = 7 → tail = []) :
    readBody code (flags :: nameBytes name ++ tail) = bodyAfterName flags name code tail := by
  rw [nameBytes, List.cons_append, List.cons_append, readBody_eq named, toNat_lengthByte most, if_neg (by omega), if_neg,
    List.take_left, List.drop_left]
  rintro ⟨code, length⟩
  rw [seek code, List.append_nil] at length
  exact length rfl

theorem readBody_bytes {f : Frame} (carriable : f.carriable = true) : readBody f.body.kindCode f.body.bytes = some f.body := by
  unfold Frame.carriable at carriable
  cases body : f.body with
  | join => rfl
  | leave => rfl
  | seek scope name =>
    rw [body] at carriable
    obtain ⟨some_, most⟩ := of_decide_eq_true carriable
    have read := readBody_named (code := 7) (tail := []) ⟨by decide, by decide⟩ some_ most (flagsByte scope .entry) (fun _ => rfl)
    rw [List.append_nil] at read
    exact read.trans (by rw [bodyAfterName, scopeOfFlags_flagsByte])
  | withdraw scope name g =>
    rw [body] at carriable
    obtain ⟨some_, most⟩ := of_decide_eq_true carriable
    refine (readBody_named (code := 5) (tail := halfBytes g) ⟨by decide, by decide⟩ some_ most (flagsByte scope .entry) (fun h => nomatch h)).trans ?_
    simp only [bodyAfterName, halfBytes, scopeOfFlags_flagsByte, halfOf_halfBytes]
  | offer scope name g target kind =>
    rw [body] at carriable
    obtain ⟨some_, most⟩ := of_decide_eq_true carriable
    have read := readBody_named (code := 2) (tail := halfBytes g ++ wordBytes target) ⟨by decide, by decide⟩ some_ most (flagsByte scope kind) (fun h => nomatch h)
    rw [← List.append_assoc] at read
    refine read.trans ?_
    simp only [bodyAfterName, halfBytes, wordBytes, List.cons_append, List.nil_append, scopeOfFlags_flagsByte, kindOfFlags_flagsByte, halfOf_halfBytes,
      wordOf_byteAt]
  | announce scope name g target kind =>
    rw [body] at carriable
    obtain ⟨some_, most⟩ := of_decide_eq_true carriable
    have read := readBody_named (code := 6) (tail := halfBytes g ++ wordBytes target) ⟨by decide, by decide⟩ some_ most (flagsByte scope kind) (fun h => nomatch h)
    rw [← List.append_assoc] at read
    refine read.trans ?_
    simp only [bodyAfterName, halfBytes, wordBytes, List.cons_append, List.nil_append, scopeOfFlags_flagsByte, kindOfFlags_flagsByte, halfOf_halfBytes,
      wordOf_byteAt]
  | clash scope name owner g target kind refused =>
    rw [body] at carriable
    obtain ⟨some_, most, -, first, last⟩ := of_decide_eq_true carriable
    have read := readBody_named (code := 1) (tail := (BitVec.ofNat 8 owner.val :: halfBytes g) ++ wordBytes target
      ++ (BitVec.ofNat 8 refused.length :: refused.flatMap pairBytes)) ⟨by decide, by decide⟩ some_ most (flagsByte scope kind) (fun h => nomatch h)
    have station : (Fin.ofNat 16 (BitVec.ofNat 8 owner.val).toNat : Station) = owner := by
      apply Fin.ext
      have := owner.isLt
      simp only [BitVec.toNat_ofNat, Fin.val_ofNat]
      omega
    have count : (BitVec.ofNat 8 refused.length).toNat = refused.length := toNat_lengthByte (by omega)
    refine (congrArg (readBody 1) ?_).trans (read.trans ?_)
    · simp only [Body.bytes, List.append_assoc, List.cons_append]
    · simp only [bodyAfterName, halfBytes, wordBytes, List.cons_append, List.nil_append, scopeOfFlags_flagsByte, kindOfFlags_flagsByte,
        halfOf_halfBytes, wordOf_byteAt, station, count, pairBytes_length, readPairs_pairBytes]
      rw [if_pos ⟨first, last, trivial⟩]

end Sys2Proof.Machine

/-! Which bits are a good frame (R129, R131, R188, R189). -/

namespace Sys2Proof.Machine

/-! ## The fields of a frame as sent -/

/-- A field that stands behind bits of a known length. -/
theorem take_drop_field {before field after bits : List Bool} (split : bits = before ++ (field ++ after)) {i w : Nat}
    (at_ : before.length = i) (width : field.length = w) : (bits.drop i).take w = field := by
  rw [split, List.drop_left' at_, List.take_left' width]

theorem bytes_length_lt {f : Frame} (carriable : f.carriable = true) : f.body.bytes.length < 256 := by
  unfold Frame.carriable at carriable
  cases body : f.body with
  | join => exact Nat.zero_lt_succ _
  | leave => exact Nat.zero_lt_succ _
  | clash scope name owner g target kind refused =>
    rw [body] at carriable
    obtain ⟨-, most, -, -, last⟩ := of_decide_eq_true carriable
    simp only [Body.bytes, nameBytes, halfBytes, wordBytes, List.length_append, List.length_cons, List.length_nil, pairBytes_length]
    omega
  | _ =>
    rw [body] at carriable
    obtain ⟨-, most⟩ := of_decide_eq_true carriable
    simp only [Body.bytes, nameBytes, halfBytes, wordBytes, List.length_append, List.length_cons, List.length_nil]
    omega

theorem frameClass_lt (b : Body) : b.frameClass < 4 := by cases b <;> simp [Body.frameClass]
theorem kindCode_lt (b : Body) : b.kindCode < 16 := by cases b <;> simp [Body.kindCode]
theorem classOfCode_kindCode (b : Body) : classOfCode b.kindCode = some b.frameClass := by cases b <;> rfl

theorem natBits_take_two (n : Nat) : (natBits 6 n).take 2 = natBits 2 (n / 16) := by
  have high : ∀ i, (n / 16).testBit i = n.testBit (4 + i) := fun i =>
    show (n / 2 ^ 4).testBit i = _ from (Nat.testBit_div_two_pow n i).trans (by rw [Nat.add_comm])
  simp only [natBits, List.take_succ_cons, List.take_zero, high]

theorem ownerAgrees_of_carriable {f : Frame} (carriable : f.carriable = true) : f.body.ownerAgrees f.sender = true := by
  unfold Frame.carriable at carriable
  cases body : f.body with
  | clash scope name owner g target kind refused =>
    rw [body] at carriable
    obtain ⟨-, -, owner, -⟩ := of_decide_eq_true carriable
    exact decide_eq_true owner
  | _ => rfl

/-- The fields of a carriable frame's bits. -/
structure Frame.FieldsIn (f : Frame) (bits : List Bool) : Prop where
  length : bits.length = 29 + 8 * f.body.bytes.length + 16
  key : bitsNat (bits.take 6) = f.arbitrationKey
  frameClass : bitsNat (bits.take 2) = f.body.frameClass
  sequence : bitsNat ((bits.drop 6).take 8) = f.sequence.toNat
  kind : bitsNat ((bits.drop 14).take 4) = f.body.kindCode
  group : bitsNat ((bits.drop 18).take 3) = f.group.toNat
  count : bitsNat ((bits.drop 21).take 8) = f.body.bytes.length
  body : bitsBytes f.body.bytes.length (bits.drop 29) = f.body.bytes

theorem bits_fields {f : Frame} (carriable : f.carriable = true) : f.FieldsIn f.bits := by
  have key : f.arbitrationKey < 2 ^ 6 := by
    have := frameClass_lt f.body
    have := f.sender.isLt
    rw [Frame.arbitrationKey]
    omega
  generalize a : natBits 6 f.arbitrationKey = keyBits
  generalize b : natBits 8 f.sequence.toNat = sequenceBits
  generalize c : natBits 4 f.body.kindCode = kindBits
  generalize d : natBits 3 f.group.toNat = groupBits
  generalize e : natBits 8 f.body.bytes.length = lengthBits
  generalize g : natBits 16 (checkOf f.contentBits).toNat = checkBits
  have bits : f.bits = keyBits ++ (sequenceBits ++ (kindBits ++ (groupBits ++ (lengthBits ++ (byteBits f.body.bytes ++ checkBits))))) := by
    simp only [Frame.bits, Frame.contentBits, a, b, c, d, e, List.append_assoc, ← g]
  have keyLength : keyBits.length = 6 := a ▸ natBits_length 6 _
  have sequenceLength : sequenceBits.length = 8 := b ▸ natBits_length 8 _
  have kindLength : kindBits.length = 4 := c ▸ natBits_length 4 _
  have groupLength : groupBits.length = 3 := d ▸ natBits_length 3 _
  have countLength : lengthBits.length = 8 := e ▸ natBits_length 8 _
  have checkLength : checkBits.length = 16 := g ▸ natBits_length 16 _
  have kindAt : f.bits = (keyBits ++ sequenceBits) ++ (kindBits ++ (groupBits ++ (lengthBits ++ (byteBits f.body.bytes ++ checkBits)))) := by
    simp only [bits, List.append_assoc]
  have groupAt : f.bits = (keyBits ++ sequenceBits ++ kindBits) ++ (groupBits ++ (lengthBits ++ (byteBits f.body.bytes ++ checkBits))) := by
    simp only [bits, List.append_assoc]
  have countAt : f.bits = (keyBits ++ sequenceBits ++ kindBits ++ groupBits) ++ (lengthBits ++ (byteBits f.body.bytes ++ checkBits)) := by
    simp only [bits, List.append_assoc]
  have bodyAt : f.bits = (keyBits ++ sequenceBits ++ kindBits ++ groupBits ++ lengthBits) ++ (byteBits f.body.bytes ++ checkBits) := by
    simp only [bits, List.append_assoc]
  have first : f.bits.take 6 = keyBits := by rw [bits, List.take_left' keyLength]
  refine ⟨?_, ?_, ?_, ?_, ?_, ?_, ?_, ?_⟩
  · rw [bits]
    simp only [List.length_append, keyLength, sequenceLength, kindLength, groupLength, countLength, byteBits_length, checkLength]
    omega
  · rw [first, ← a, bitsNat_natBits_of_lt key]
  · have two : f.bits.take 2 = (f.bits.take 6).take 2 := by rw [List.take_take]; rfl
    have := f.sender.isLt
    rw [two, first, ← a, natBits_take_two, Frame.arbitrationKey, show (f.body.frameClass * 16 + f.sender.val) / 16 = f.body.frameClass by omega,
      bitsNat_natBits_of_lt (frameClass_lt _)]
  · rw [take_drop_field (field := sequenceBits) bits keyLength sequenceLength, ← b, bitsNat_natBits_of_lt f.sequence.isLt]
  · rw [take_drop_field (field := kindBits) kindAt (by simp only [List.length_append, keyLength, sequenceLength]) kindLength, ← c,
      bitsNat_natBits_of_lt (kindCode_lt _)]
  · rw [take_drop_field (field := groupBits) groupAt (by simp only [List.length_append, keyLength, sequenceLength, kindLength])
      groupLength, ← d, bitsNat_natBits_of_lt f.group.isLt]
  · rw [take_drop_field (field := lengthBits) countAt
      (by simp only [List.length_append, keyLength, sequenceLength, kindLength, groupLength]) countLength, ← e,
      bitsNat_natBits_of_lt (bytes_length_lt carriable)]
  · have behind : f.bits.drop 29 = byteBits f.body.bytes ++ checkBits := by
      rw [bodyAt, List.drop_left']
      simp only [List.length_append, keyLength, sequenceLength, kindLength, groupLength, countLength]
    rw [behind, bitsBytes_byteBits]

/-- A carriable frame's bits pass the check and are read as that frame. -/
theorem readFrame_bits {f : Frame} (carriable : f.carriable = true) : checkOf f.bits = 0 ∧ readFrame f.bits = some f := by
  have check : checkOf f.bits = 0 := checkOf_own f.contentBits
  refine ⟨check, ?_⟩
  obtain ⟨length, key, frameClass, sequence, kind, group, count, body⟩ := bits_fields carriable
  have sender : readSender f.bits = f.sender := by
    apply Fin.ext
    have := f.sender.isLt
    rw [readSender, key, Frame.arbitrationKey, Fin.val_ofNat]
    omega
  unfold readFrame
  simp only [declaredLength, count, kind, body, sender, frameClass, sequence, group, readBody_bytes carriable,
    classOfCode_kindCode, ownerAgrees_of_carriable carriable, BitVec.ofNat_toNat, BitVec.setWidth_eq, if_true]
  rw [if_neg (by omega), if_neg (not_not.mpr check), if_neg (not_not.mpr rfl)]

/-! ## The shapes of a body (R188) -/

/-- A body of this kind and length, with this name length, pair count and owner byte, is one of R188's. -/
def ShapeGiven (kind length n count owner sender : Nat) : Prop :=
  ((kind = 3 ∨ kind = 4) ∧ length = 0) ∨
    (1 ≤ n ∧ n ≤ 24 ∧
      ((kind = 7 ∧ length = 2 + n) ∨ (kind = 5 ∧ length = 4 + n) ∨ ((kind = 2 ∨ kind = 6) ∧ length = 8 + n) ∨
        (kind = 1 ∧ length = 10 + n + 3 * count ∧ 1 ≤ count ∧ count ≤ 15 ∧ owner % 16 = sender % 16)))

/-- The body has been read, and a CLASH names its sender. -/
def ReadsAs (sender : Station) (x : Option Body) : Prop := ∃ b, x = some b ∧ b.ownerAgrees sender = true

theorem readsAs_of_agrees {sender : Station} {b : Body} (h : b.ownerAgrees sender = true) : ReadsAs sender (some b) := ⟨b, rfl, h⟩

theorem not_readsAs_none (sender : Station) : ¬ ReadsAs sender none := fun ⟨_, h, _⟩ => nomatch h

theorem two_of_length {α : Type} {l : List α} (h : l.length = 2) : ∃ a b, l = [a, b] := List.length_eq_two.mp h

theorem six_of_length {α : Type} {l : List α} (h : l.length = 6) : ∃ a b c d e f, l = [a, b, c, d, e, f] := by
  match l, h with
  | [a, b, c, d, e, f], _ => exact ⟨a, b, c, d, e, f, rfl⟩

theorem eight_of_length {α : Type} {l : List α} (h : 8 ≤ l.length) : ∃ a b c d e f g i rest, l = a :: b :: c :: d :: e :: f :: g :: i :: rest := by
  match l, h with
  | a :: b :: c :: d :: e :: f :: g :: i :: rest, _ => exact ⟨a, b, c, d, e, f, g, i, rest, rfl⟩

theorem ofNat_station {o : Byte} {sender : Station} : (Fin.ofNat 16 o.toNat : Station) = sender ↔ o.toNat % 16 = sender.val % 16 := by
  have := sender.isLt
  rw [Fin.ext_iff, Fin.val_ofNat, Nat.mod_eq_of_lt this]

/-- What may stand behind the name. -/
theorem bodyAfterName_reads (flags : Byte) (name : List Byte) (code : Nat) (tail : List Byte) (sender : Station) :
    ReadsAs sender (bodyAfterName flags name code tail) ↔
      (code = 7 ∧ tail.length = 0) ∨ (code = 5 ∧ tail.length = 2) ∨ ((code = 2 ∨ code = 6) ∧ tail.length = 6) ∨
        (code = 1 ∧ tail.length = 8 + 3 * (tail.getD 7 0).toNat ∧ 1 ≤ (tail.getD 7 0).toNat ∧ (tail.getD 7 0).toNat ≤ 15 ∧
          (tail.getD 0 0).toNat % 16 = sender.val % 16) := by
  unfold bodyAfterName
  split
  · exact ⟨fun _ => .inl ⟨rfl, rfl⟩, fun _ => readsAs_of_agrees rfl⟩
  · exact ⟨fun _ => .inr (.inl ⟨rfl, rfl⟩), fun _ => readsAs_of_agrees rfl⟩
  · exact ⟨fun _ => .inr (.inr (.inl ⟨.inl rfl, rfl⟩)), fun _ => readsAs_of_agrees rfl⟩
  · exact ⟨fun _ => .inr (.inr (.inl ⟨.inr rfl, rfl⟩)), fun _ => readsAs_of_agrees rfl⟩
  · next o g0 g1 t0 t1 t2 t3 c pairs =>
    simp only [List.length_cons, List.getD_cons_succ, List.getD_cons_zero]
    split
    · next fits =>
      constructor
      · rintro ⟨b, read, agrees⟩
        cases read
        exact .inr (.inr (.inr ⟨trivial, by omega, fits.1, fits.2.1, ofNat_station.mp (of_decide_eq_true agrees)⟩))
      · intro shape
        have owner : o.toNat % 16 = sender.val % 16 := by omega
        exact readsAs_of_agrees (decide_eq_true (ofNat_station.mpr owner))
    · next fits =>
      refine ⟨fun read => absurd read (not_readsAs_none sender), fun shape => absurd ?_ fits⟩
      omega
  · next seek withdraw offer announce clash =>
    refine ⟨fun read => absurd read (not_readsAs_none sender), ?_⟩
    rintro (⟨rfl, length⟩ | ⟨rfl, length⟩ | ⟨rfl | rfl, length⟩ | ⟨rfl, length, -⟩)
    · exact (seek rfl (List.length_eq_zero_iff.mp length)).elim
    · obtain ⟨a, b, same⟩ := two_of_length length
      exact (withdraw a b rfl same).elim
    · obtain ⟨a, b, c, d, e, f, same⟩ := six_of_length length
      exact (offer a b c d e f rfl same).elim
    · obtain ⟨a, b, c, d, e, f, same⟩ := six_of_length length
      exact (announce a b c d e f rfl same).elim
    · obtain ⟨a, b, c, d, e, f, g, i, rest, same⟩ := eight_of_length (l := tail) (by omega)
      exact (clash a b c d e f g i rest rfl same).elim

/-- The bodies that are read (R188). -/
theorem readBody_reads {code : Nat} (kind : 1 ≤ code ∧ code ≤ 7) (bytes : List Byte) (sender : Station) :
    ReadsAs sender (readBody code bytes) ↔
      ShapeGiven code bytes.length (bytes.getD 1 0).toNat (bytes.getD (9 + (bytes.getD 1 0).toNat) 0).toNat
        (bytes.getD (2 + (bytes.getD 1 0).toNat) 0).toNat sender.val := by
  by_cases three : code = 3
  · subst three
    unfold readBody
    rw [if_pos rfl, ShapeGiven]
    split
    · next empty => exact ⟨fun _ => .inl ⟨.inl rfl, empty⟩, fun _ => readsAs_of_agrees rfl⟩
    · next some_ => exact ⟨fun read => absurd read (not_readsAs_none sender), fun shape => by omega⟩
  by_cases four : code = 4
  · subst four
    unfold readBody
    rw [if_neg three, if_pos rfl, ShapeGiven]
    split
    · next empty => exact ⟨fun _ => .inl ⟨.inr rfl, empty⟩, fun _ => readsAs_of_agrees rfl⟩
    · next some_ => exact ⟨fun read => absurd read (not_readsAs_none sender), fun shape => by omega⟩
  match bytes with
  | [] =>
    unfold readBody
    rw [if_neg three, if_neg four, ShapeGiven, List.length_nil]
    exact ⟨fun read => absurd read (not_readsAs_none sender), fun shape => by omega⟩
  | [flags] =>
    unfold readBody
    rw [if_neg three, if_neg four, ShapeGiven, List.length_singleton]
    exact ⟨fun read => absurd read (not_readsAs_none sender), fun shape => by omega⟩
  | flags :: len :: rest =>
    have nameLength : ((flags :: len :: rest).getD 1 0).toNat = len.toNat := rfl
    rw [nameLength, readBody_eq ⟨three, four⟩, ShapeGiven, List.length_cons, List.length_cons]
    split
    · exact ⟨fun read => absurd read (not_readsAs_none sender), fun shape => by omega⟩
    · next short =>
      have count : (flags :: len :: rest).getD (9 + len.toNat) 0 = (rest.drop len.toNat).getD 7 0 := by
        rw [show 9 + len.toNat = len.toNat + 7 + 1 + 1 by omega, List.getD_cons_succ, List.getD_cons_succ, List.getD_eq_getElem?_getD,
          List.getD_eq_getElem?_getD, List.getElem?_drop]
      have owner : (flags :: len :: rest).getD (2 + len.toNat) 0 = (rest.drop len.toNat).getD 0 0 := by
        rw [show 2 + len.toNat = len.toNat + 1 + 1 by omega, List.getD_cons_succ, List.getD_cons_succ, List.getD_eq_getElem?_getD,
          List.getD_eq_getElem?_getD, List.getElem?_drop, Nat.add_zero]
      rw [count, owner]
      split
      · next long => exact ⟨fun read => absurd read (not_readsAs_none sender), fun shape => by omega⟩
      · next fits =>
        rw [bodyAfterName_reads, List.length_drop]
        omega

/-! ## Good frames -/

theorem kind_of_classOfCode {code c : Nat} (h : classOfCode code = some c) : 1 ≤ code ∧ code ≤ 7 := by
  unfold classOfCode at h
  split at h
  · omega
  · split at h
    · omega
    · split at h
      · omega
      · split at h
        · omega
        · cases h

theorem readFrame_eq_none_of {bits : List Bool} (h : checkOf bits ≠ 0 ∨ bits.length ≠ 29 + 8 * bitsNat ((bits.drop 21).take 8) + 16 ∨
    ∀ c, classOfCode (bitsNat ((bits.drop 14).take 4)) = some c → bitsNat (bits.take 2) ≠ c) : readFrame bits = none := by
  unfold readFrame
  dsimp only
  split
  · rfl
  · next length =>
    split
    · rfl
    · next check =>
      split
      · rfl
      · next frameClass =>
        obtain bad | bad | bad := h
        · exact absurd bad check
        · exact absurd (.inr bad) length
        · exact absurd rfl (bad _ (not_not.mp frameClass))

/-- Bits of a good check, length and class are a frame exactly where their body is read. -/
theorem readFrame_eq_none_iff {bits : List Bool} (check : checkOf bits = 0)
    (length : bits.length = 29 + 8 * bitsNat ((bits.drop 21).take 8) + 16)
    (frameClass : classOfCode (bitsNat ((bits.drop 14).take 4)) = some (bitsNat (bits.take 2))) :
    readFrame bits = none ↔ ¬ ReadsAs (readSender bits)
      (readBody (bitsNat ((bits.drop 14).take 4)) (bitsBytes (bitsNat ((bits.drop 21).take 8)) (bits.drop 29))) := by
  unfold readFrame
  dsimp only
  rw [if_neg (by rw [declaredLength]; omega), if_neg (not_not.mpr check), if_neg (not_not.mpr frameClass)]
  split
  · next b read =>
    split
    · next agrees => exact ⟨fun h => (nomatch h), fun h => absurd ⟨b, read, agrees⟩ h⟩
    · next other =>
      refine ⟨fun _ ⟨b', read', agrees⟩ => ?_, fun _ => rfl⟩
      cases read.symm.trans read'
      exact other agrees
  · next unread => exact ⟨fun _ ⟨b, read, _⟩ => (nomatch unread.symm.trans read), fun _ => rfl⟩

/-- Byte `j` of the body of a frame's bits. -/
theorem bitsBytes_getD {n j : Nat} (inside : j < n) (bits : List Bool) :
    ((bitsBytes n (bits.drop 29)).getD j 0).toNat = bitsNat ((bits.drop (29 + 8 * j)).take 8) := by
  rw [List.getD_eq_getElem?_getD, bitsBytes_getElem? n _ j inside, Option.getD_some, List.drop_drop, BitVec.toNat_ofNat]
  refine Nat.mod_eq_of_lt (Nat.lt_of_lt_of_le (bitsNat_lt _) (Nat.pow_le_pow_right Nat.two_pos ?_))
  exact List.length_take_le _ _

/-- Settles O58: the fields of a frame as sent, and the shapes of a body. -/
theorem framesReadAsSent : Obligations.FramesReadAsSent := by
  refine ⟨fun f carriable => ?_, fun bits => readFrame_eq_none_of, ?_⟩
  · obtain ⟨check, read⟩ := readFrame_bits carriable
    exact ⟨(bits_fields carriable).length, check, read⟩
  · intro bits kind length byte n count given check whole frameClass
    rw [readFrame_eq_none_iff check whole frameClass, readBody_reads (kind_of_classOfCode frameClass), bitsBytes_length]
    refine not_congr ?_
    change ShapeGiven kind length _ _ _ _ ↔ ShapeGiven kind length n count (byte (2 + n)) (bitsNat (bits.take 6))
    have sender : (readSender bits).val = bitsNat (bits.take 6) % 16 := rfl
    rw [sender]
    by_cases two : 2 ≤ length
    · have nameLength : ((bitsBytes length (bits.drop 29)).getD 1 0).toNat = n := bitsBytes_getD two bits
      rw [nameLength]
      by_cases ten : 10 + n ≤ length
      · rw [bitsBytes_getD (by omega), bitsBytes_getD (by omega), ShapeGiven, ShapeGiven, Nat.mod_mod]
      · unfold ShapeGiven
        omega
    · unfold ShapeGiven
      omega

end Sys2Proof.Machine

/-! The own JOIN and LEAVE, and another station's SEEK (R47, R71, R72, R156, R158). -/

namespace Sys2Proof.Machine

variable {s t u : State} {f : Frame} {rest : List RxItem}

/-! ## JOIN and LEAVE self-received (R156, R158) -/

theorem isOwn_of_sender (own : f.sender = s.number) : s.isOwn f = true := decide_eq_true own

theorem exec_ownJoinTaken (takes : s.Takes f rest) (own : f.sender = s.number) (body : f.body = .join) :
    exec .ownJoinTaken s = .next ((({ s with
      rxQueue := rest
      peers := s.peers.modify f.sender.val fun p => { p with present := true, group := s.ownGroup } } : State).ownJoin).settleAgent) := by
  rw [exec, execOwnJoinTaken, takes.takeFrame (by rw [isOwn_of_sender own, body]; rfl), hear_own (s := { s with rxQueue := rest }) own]
  rfl

theorem exec_ownLeaveTaken (takes : s.Takes f rest) (own : f.sender = s.number) (body : f.body = .leave) :
    exec .ownLeaveTaken s = .next ((({ s with rxQueue := rest } : State).ownLeave).settleAgent) := by
  rw [exec, execOwnLeaveTaken, takes.takeFrame (by rw [isOwn_of_sender own, body]; rfl)]

/-- Settles O52: the row applies the frame, and the station state and the command are those it tests. -/
theorem ownJoinAndOwnLeave : Obligations.OwnJoinAndOwnLeave := by
  refine ⟨fun s f rest tag takes own body joining command => ?_, fun s f rest tag takes own body leaving command => ?_⟩
  · rw [exec_ownJoinTaken takes own body, own]
    simp only [State.ownJoin, joining, command, if_true]
    rfl
  · rw [exec_ownLeaveTaken takes own body]
    constructor
    · intro out
      cases outgoing : s.outgoing with
      | none => exact absurd outgoing out
      | some o =>
        simp only [State.ownLeave, leaving, if_true]
        rfl
    · intro none_
      simp only [State.ownLeave, leaving, none_, if_true, State.completeStop, command, Option.isNone_none]
      rfl

/-! ## Another station's SEEK (R47, R72) -/

theorem isOwn_of_other (other : f.sender ≠ s.number) : s.isOwn f = false := decide_eq_false other

theorem hear_other (other : f.sender ≠ s.number) : s.hear f =
    { s with peers := s.peers.modify f.sender.val fun p => { p with present := true, group := f.group } } := by
  rw [State.hear, isOwn_of_other other]
  rfl

theorem exec_seekTaken {scope : Scope} {name : List Byte} (takes : s.Takes f rest) (other : f.sender ≠ s.number)
    (seek : f.body = .seek scope name) :
    exec .seekTaken s = .next ((((({ s with
      rxQueue := rest
      peers := s.peers.modify f.sender.val fun p => { p with present := true, group := f.group } } : State).meetSeek
        (f.key scope name)).enterOut (f.key scope name)).arbitrate []).settleAgent) := by
  have named : f.body.seekName = some (scope, name) := by rw [seek]; rfl
  have heard := hear_other (s := { s with rxQueue := rest }) other
  rw [exec, execSeekTaken, takes.takeFrame (by rw [isOwn_of_other other, named]; rfl)]
  simp only [named, heard]

/-- Under the law of distinct keys the entry of a key is the one that has it (R39). -/
theorem entryOf_of_agrees (keys : s.DirectoryKeysDistinct) {k : Key} {e : ExportEntry} (row : e ∈ s.directory)
    (agrees : e.key.agrees k = true) : s.entryOf k = some e := by
  have distinct : s.directory.Pairwise fun a b => a.key.agrees b.key = false := keys
  unfold State.entryOf
  generalize s.directory = l at row distinct
  induction l with
  | nil => cases row
  | cons x l ih =>
    rw [List.pairwise_cons] at distinct
    rw [List.find?_cons]
    obtain rfl | later := List.mem_cons.mp row
    · rw [agrees]
    · have apart := distinct.1 e later
      have other : x.key.agrees k = false := Bool.eq_false_iff.mpr fun same => by
        rw [Key.agrees_of_both same agrees] at apart
        cases apart
      rw [other]
      exact ih later distinct.2

theorem entryOf_eq_none {k : Key} (none_ : ∀ e ∈ s.directory, e.key.agrees k = false) : s.entryOf k = none :=
  List.find?_eq_none.mpr fun e he => by rw [none_ e he]; exact Bool.false_ne_true

theorem isLive_iff (e : ExportEntry) : e.isLive = true ↔ ∃ owed, e.state = .live owed := by
  unfold ExportEntry.isLive
  cases e.state with
  | live owed => exact ⟨fun _ => ⟨owed, rfl⟩, fun _ => rfl⟩
  | pending => exact ⟨fun h => (nomatch h), fun ⟨_, h⟩ => nomatch h⟩
  | withdrawing => exact ⟨fun h => (nomatch h), fun ⟨_, h⟩ => nomatch h⟩
  | refused p => exact ⟨fun h => (nomatch h), fun ⟨_, h⟩ => nomatch h⟩

theorem meetSeek_of_live {k : Key} {e : ExportEntry} (found : s.entryOf k = some e) (live : e.isLive = true) :
    s.meetSeek k = s.oweOffer e.owner := by
  obtain ⟨owed, state⟩ := (isLive_iff e).mp live
  rw [State.meetSeek, found]
  simp only [state]

theorem meetSeek_of_notLive {k : Key} (dead : ∀ e, s.entryOf k = some e → e.isLive = false) : s.meetSeek k = s := by
  unfold State.meetSeek
  split
  · rfl
  · next e found =>
    have not := dead e found
    split
    · next owed state =>
      rw [(isLive_iff e).mpr ⟨owed, state⟩] at not
      cases not
    all_goals rfl

theorem answer?_eq_none {o : Owner} (none_ : ∀ a ∈ s.answers, a.owner ≠ o) : s.answer? o = none :=
  List.find?_eq_none.mpr fun a ha => by simpa using none_ a ha

theorem answer?_isSome {o : Owner} (member : ∃ a ∈ s.answers, a.owner = o) : ∃ a, s.answer? o = some a := by
  obtain ⟨a, ha, owner⟩ := member
  exact Option.isSome_iff_exists.mp (List.find?_isSome.mpr ⟨a, ha, decide_eq_true owner⟩)

/-- A SEEK leaves all but the answer list. -/
theorem meetSeek_eq (s : State) (k : Key) : s.meetSeek k = { s with answers := (s.meetSeek k).answers } := by
  unfold State.meetSeek
  split
  · rfl
  · split
    · unfold State.oweOffer
      split <;> rfl
    all_goals rfl

theorem enterOut_answers (s : State) (k : Key) : (s.enterOut k).answers = s.answers := (enterOut_frame s k).answers

/-- The arbiter leaves a slot that does not ask. -/
theorem arbitrate_unasking {n : Nat} {x : Slot} (slot : s.slots[n]? = some (some x)) (unasking : x.awaitingRoom = false) (order : List Bool) :
    (s.arbitrate order).slots[n]? = some (some x) := by
  unfold State.arbitrate
  split
  · simp only [State.withdrawRequests, List.getElem?_map, slot, Option.map_some, ← unasking]
  · obtain ⟨gs, -, -, -, granted, others⟩ := grantRounds_grants Config.transmitRoom order s
    by_cases member : n ∈ gs.filterMap Grant.slot?
    · obtain ⟨g, hg, at_⟩ := List.mem_filterMap.mp member
      cases g with
      | command c => cases at_
      | seek m k =>
        cases at_
        obtain ⟨y, slot', -, -, asks, -⟩ := granted n k hg
        cases slot.symm.trans slot'
        rw [unasking] at asks
        cases asks
    · rw [others n member, slot]

/-- Settles O45: the SEEK puts a LIVE entry on the answer list, and its key's slot enters OUT. -/
theorem seekTaken : Obligations.SeekTaken := by
  intro s f rest scope name takes other seek key heard
  let v : State := { s with rxQueue := rest, peers := heard }
  let u : State := { v with answers := (v.meetSeek key).answers }
  have met : v.meetSeek key = u := meetSeek_eq v key
  obtain ⟨refs, backlog, patchQueue, modules, notices⟩ := enterOut_tables u key
  obtain ⟨refs', slots', backlog', patchQueue'⟩ := arbitrate_tables (u.enterOut key) []
  have answers : ((u.enterOut key).arbitrate []).answers = (v.meetSeek key).answers :=
    (arbitrate_frame _ []).answers.trans (enterOut_answers u key)
  have frame : ReferenceFrame u (((u.enterOut key).arbitrate []).settleAgent) :=
    (enterOut_frame u key).trans ((arbitrate_frame _ []).trans (settleAgent_frame _))
  refine ⟨((u.enterOut key).arbitrate []).settleAgent, ?_, ?_, refs'.trans refs, backlog'.trans backlog, patchQueue'.trans patchQueue,
    (arbitrate_links _ []).modules.trans modules, (arbitrate_notices _ []).trans notices, ?notLive, ?live, ?out, ?toSend⟩
  · rw [exec_seekTaken takes other seek]
    exact congrArg (fun x : State => Host.Outcome.next ((x.enterOut key).arbitrate []).settleAgent) met
  · change ReferenceFrame { v with answers := _ } _
    change ReferenceFrame { v with answers := ((u.enterOut key).arbitrate []).answers } _
    rw [answers]
    exact frame
  case notLive =>
    intro dead
    have unmet : v.meetSeek key = v := meetSeek_of_notLive fun e found => ?_
    · exact answers.trans ((congrArg State.answers unmet).trans rfl)
    exact dead e (entryOf_mem found) (by simpa using List.find?_some found)
  case live =>
    intro keys e row agrees live
    have owes : (v.meetSeek key).answers = (v.oweOffer e.owner).answers :=
      congrArg State.answers (meetSeek_of_live (entryOf_of_agrees (s := v) keys row agrees) live)
    refine ⟨fun none_ => answers.trans (owes.trans ?_), fun member => answers.trans (owes.trans ?_)⟩
    · rw [State.oweOffer, answer?_eq_none (s := v) none_]
    · obtain ⟨a, found⟩ := answer?_isSome (s := v) member
      rw [State.oweOffer, found]
  case out =>
    intro out
    have unchanged : u.enterOut key = u := enterOut_of_noneToSend out
    refine slots'.trans ?_
    simp only [unchanged, State.slotsUnasked, u, v]
  case toSend =>
    intro keys n x slot agrees state
    have entered : u.enterOut key =
        { u with slots := s.slots.set n (some { x with state := .out, timer := true, awaitingRoom := false }) } :=
      enterOut_of_toSend (slotOf_of_agrees (s := u) keys slot agrees) slot state
    refine ⟨slots'.trans ?_, arbitrate_unasking ?_ rfl []⟩
    · simp only [entered, State.slotsUnasked, List.map_set, Option.map_some, Slot.unasked]
    · have inside := (List.getElem?_eq_some_iff.mp slot).1
      simp only [entered, List.getElem?_set, inside, if_true]

end Sys2Proof.Machine

/-! A taken frame with owner data meets the own entry of its key (R41 to R43, R49, R51, R52, R55). -/

namespace Sys2Proof.Machine

variable {s t u : State} {f : Frame} {rest : List RxItem} {c : Instr} {k : Key} {b : Binding} {refused : List Pair}

/-! ## Follow-up notices -/

/-- The change posts follow-up notices only. -/
def State.FollowsUp (s t : State) : Prop :=
  ∃ l : List Notice, (∀ x ∈ l, x.isFollowUp = true) ∧ t.notices = l.foldl NoticeUnit.take s.notices

theorem followsUp_of_eq (h : t.notices = s.notices) : s.FollowsUp t := ⟨[], fun _ h => (nomatch h), h⟩

theorem State.FollowsUp.trans (h : s.FollowsUp t) (j : t.FollowsUp u) : s.FollowsUp u := by
  obtain ⟨l, follow, posted⟩ := h
  obtain ⟨l', follow', posted'⟩ := j
  refine ⟨l ++ l', fun x hx => (List.mem_append.mp hx).elim (follow x) (follow' x), ?_⟩
  rw [posted', posted, List.foldl_append]

theorem post_followsUp (s : State) {x : Notice} (h : x.isFollowUp = true) : s.FollowsUp (s.post x) :=
  ⟨[x], fun _ hy => List.mem_singleton.mp hy ▸ h, rfl⟩

theorem followsUp_foldl {α : Type} {F : State → α → State} (step : ∀ (s : State) (x : α), s.FollowsUp (F s x)) (l : List α) :
    ∀ s : State, s.FollowsUp (l.foldl F s) := by
  induction l with
  | nil => exact fun s => followsUp_of_eq rfl
  | cons x l ih => exact fun s => (step s x).trans (ih _)

theorem offerBinding_followsUp (s : State) (r : Ref) (b : Binding) : s.FollowsUp (s.offerBinding r b) := by
  unfold State.offerBinding
  split
  · exact followsUp_of_eq rfl
  · exact (followsUp_of_eq (t := s.setPhase r.owner (.faulted .kind)) rfl).trans (post_followsUp _ rfl)

theorem serveOne_followsUp (s : State) (r : Ref) (n : Nat) : s.FollowsUp (s.serveOne r n) := by
  unfold State.serveOne
  split
  · exact offerBinding_followsUp s r _
  · split <;> exact followsUp_of_eq rfl

theorem serveRounds_followsUp (n : Nat) : ∀ s : State, s.FollowsUp (s.serveRounds n) := by
  induction n with
  | zero => exact fun s => followsUp_of_eq rfl
  | succ n ih =>
    intro s
    unfold State.serveRounds
    split
    · next free o rest _ _ =>
      have out : s.FollowsUp { s with backlog := rest } := followsUp_of_eq rfl
      dsimp only
      split
      · next r _ => exact out.trans ((serveOne_followsUp _ r free).trans (ih _))
      · exact out.trans (ih _)
    · exact followsUp_of_eq rfl

theorem settleModules_followsUp (s : State) : s.FollowsUp s.settleModules := by
  refine followsUp_foldl (fun s m => ?_) _ s
  unfold State.settleModule
  dsimp only
  split
  · exact (followsUp_of_eq (t := s.setModuleState m.id _) rfl).trans (post_followsUp _ rfl)
  · exact followsUp_of_eq rfl

theorem endEvent_followsUp (s b : State) (order : List Bool) : s.FollowsUp (s.endEvent b order) := by
  obtain ⟨t, result, served⟩ := endEvent_cases s b order
  have first : s.FollowsUp t := by
    obtain rfl | ⟨rfl, -⟩ := served
    · exact serveRounds_followsUp _ s
    · exact followsUp_of_eq rfl
  rw [result]
  have walks : t.FollowsUp t.appendWalks := followsUp_of_eq rfl
  exact first.trans (walks.trans ((settleModules_followsUp _).trans (followsUp_of_eq (arbitrate_notices _ order))))

theorem clashRef_followsUp (s : State) (r : Ref) (b : Binding) (refused : List Pair) : s.FollowsUp (s.clashRef r b refused) := by
  unfold State.clashRef
  split
  · have out : s.FollowsUp { s with backlog := s.backlog.filter fun o => decide (o ≠ r.owner) } := followsUp_of_eq rfl
    exact out.trans (offerBinding_followsUp _ r b)
  · split
    · split
      · exact (post_followsUp s (x := .referenceRevoked r.owner .refusedDefiner) rfl).trans (offerBinding_followsUp _ r b)
      · exact followsUp_of_eq rfl
    · exact followsUp_of_eq rfl

theorem clashKey_followsUp (s : State) (k : Key) (b : Binding) (refused : List Pair) : s.FollowsUp (s.clashKey k b refused) := by
  have freed : ∀ u : State, (u.freeSlotOf k).notices = u.notices := fun u => by
    unfold State.freeSlotOf
    split <;> rfl
  exact (followsUp_foldl (fun s r => clashRef_followsUp s r b refused) _ s).trans (followsUp_of_eq (freed _))

theorem posts_of_followsUp {first : List Notice} (posted : u.notices = first.foldl NoticeUnit.take s.notices) (h : u.FollowsUp t) :
    s.Posts t first [] := by
  obtain ⟨l, follow, last⟩ := h
  exact ⟨l, follow, by rw [last, posted, List.append_nil, List.foldl_append]⟩

/-! ## The rows of OFFER, ANNOUNCE and CLASH -/

/-- What the Directory does with owner data for a key (R41 to R43, R51, R52). -/
def State.claims (s : State) (f : Frame) (c : Instr) (k : Key) (b : Binding) (refused : List Pair) : State :=
  if f.sender = s.number then (if c = .ownAnnounceTaken then s.meetOwnAnnounce k b.generation else s)
  else s.meetClaim k b.pair refused

/-- The state in which the Directory has met the frame at the head of the receive queue. -/
def State.met (s : State) (rest : List RxItem) (f : Frame) (c : Instr) (k : Key) (b : Binding) (refused : List Pair) : State :=
  (({ s with rxQueue := rest } : State).hear f).claims f c k b refused

/-- Each row marks the sender present, lets the Directory meet the claim, then passes over the references of the key. -/
theorem exec_ownerData (takes : s.Takes f rest) (data : OwnerData s f c k b refused) :
    exec c s = .next ((((s.met rest f c k b refused).clashKey k b refused).endEvent s).settleAgent) := by
  cases data with
  | offer k b h =>
    rw [exec, execOfferTaken, takes.takeFrame (by rw [h]; rfl)]
    simp only [h, State.met, State.claims, ← bindKey_eq_clashKey, State.isOwn, decide_eq_true_eq]
    rfl
  | announce k b h other =>
    rw [exec, execAnnounceTaken, takes.takeFrame (by rw [isOwn_of_other other, h]; rfl)]
    have other' : f.sender ≠ (({ s with rxQueue := rest } : State).hear f).number := other
    simp only [h, State.met, State.claims, ← bindKey_eq_clashKey, if_neg other']
  | ownAnnounce k b h own =>
    rw [exec, execOwnAnnounceTaken, takes.takeFrame (by rw [isOwn_of_sender own, h]; rfl)]
    have own' : f.sender = (({ s with rxQueue := rest } : State).hear f).number := own
    simp only [h, State.met, State.claims, ← bindKey_eq_clashKey, if_pos own', if_true]
  | clash k b refused h =>
    rw [exec, execClashTaken, takes.takeFrame (by rw [h]; rfl)]
    simp only [h, State.met, State.claims, State.isOwn, decide_eq_true_eq]
    rfl

/-- The pass over the references and the end of the event leave directory, answers and line, and post follow-ups. -/
theorem ownerData_directory (u s : State) (k : Key) (b : Binding) (refused : List Pair) :
    ((u.clashKey k b refused).endEvent s).settleAgent.directory = u.directory ∧
    ((u.clashKey k b refused).endEvent s).settleAgent.answers = u.answers ∧
    ((u.clashKey k b refused).endEvent s).settleAgent.line = u.line ∧
    u.FollowsUp ((u.clashKey k b refused).endEvent s).settleAgent := by
  have frame := (clashKey_frame u k b refused).trans ((endEvent_frame _ s []).trans (settleAgent_frame _))
  refine ⟨frame.directory, frame.answers, frame.line, ?_⟩
  exact (clashKey_followsUp u k b refused).trans ((endEvent_followsUp _ s []).trans (followsUp_of_eq rfl))

/-! ## A claim meets the own entry (R42, R43, R52, R55) -/

theorem meetClaim_of_none (none_ : s.entryOf k = none) (p : Pair) (refused : List Pair) : s.meetClaim k p refused = s := by
  rw [State.meetClaim, none_]

theorem meetClaim_refuses {e : ExportEntry} (found : s.entryOf k = some e) (p : Pair)
    (h : e.state = .pending ∨ ∃ owed, e.state = .live owed ∧ ({ station := s.number, generation := e.generation } : Pair) ∈ refused) :
    s.meetClaim k p refused = s.refuse e.owner p := by
  rw [State.meetClaim, found]
  obtain state | ⟨owed, state, named⟩ := h
  · simp only [state]
  · simp only [state, named, if_true]

theorem meetClaim_records {e : ExportEntry} (found : s.entryOf k = some e) (p : Pair) {owed : List Pair} (state : e.state = .live owed)
    (unnamed : ({ station := s.number, generation := e.generation } : Pair) ∉ refused) :
    s.meetClaim k p refused = (s.setEntry e.owner (.live (recordPair owed p))).oweClash e.owner := by
  rw [State.meetClaim, found]
  simp only [state, unnamed, if_false]

theorem meetClaim_ignores {e : ExportEntry} (found : s.entryOf k = some e) (p : Pair)
    (h : e.state = .withdrawing ∨ ∃ q, e.state = .refused q) (refused : List Pair) : s.meetClaim k p refused = s := by
  rw [State.meetClaim, found]
  obtain state | ⟨q, state⟩ := h
  · simp only [state]
  · simp only [state]

theorem abandon_left (l : Line) (gone : Owner → Bool) :
    (∀ o f, l = .contending (.answer o) f → gone o = true → l.abandon gone = .quiet) ∧
    ((∀ o f, l = .contending (.answer o) f → gone o = false) → l.abandon gone = l) := by
  unfold Line.abandon
  split
  · next o f =>
    refine ⟨fun o' f' same out => ?_, fun stays => if_neg ?_⟩
    · cases same
      exact if_pos out
    · rw [stays o f rfl]
      exact Bool.false_ne_true
  all_goals exact ⟨fun _ _ same => (nomatch same), fun _ => rfl⟩

theorem recordPair_new {owed : List Pair} {p : Pair} (new : ∀ q ∈ owed, q.station ≠ p.station) : recordPair owed p = owed ++ [p] := by
  rw [recordPair, if_neg]
  rw [List.any_eq_true]
  rintro ⟨q, hq, same⟩
  exact new q hq (of_decide_eq_true same)

theorem recordPair_old {owed : List Pair} {p : Pair} (old : ∃ q ∈ owed, q.station = p.station) :
    recordPair owed p = owed.map fun q => if q.station = p.station then p else q := by
  obtain ⟨q, hq, same⟩ := old
  rw [recordPair, if_pos (List.any_eq_true.mpr ⟨q, hq, decide_eq_true same⟩)]

theorem oweClash_of_member {o : Owner} (member : ∃ a ∈ s.answers, a.owner = o) : s.oweClash o = s := by
  obtain ⟨a, found⟩ := answer?_isSome member
  rw [State.oweClash, found]

theorem oweClash_of_none {o : Owner} (none_ : ∀ a ∈ s.answers, a.owner ≠ o) :
    s.oweClash o = { s with answers := s.answers ++ [{ owner := o, owesOffer := false }] } := by
  rw [State.oweClash, answer?_eq_none none_]

theorem oweClash_others (s : State) (o : Owner) : (s.oweClash o).directory = s.directory ∧ (s.oweClash o).line = s.line ∧
    (s.oweClash o).notices = s.notices := by
  unfold State.oweClash
  split <;> exact ⟨rfl, rfl, rfl⟩

/-- Settles O48: the pass over the references leaves what the Directory has done with the claim. -/
theorem claimsRefuseOrAreRecorded : Obligations.ClaimsRefuseOrAreRecorded := by
  intro s f rest c key b refused takes data keys claim set
  let v : State := ({ s with rxQueue := rest } : State).hear f
  let u : State := s.met rest f c key b refused
  obtain ⟨directory, answers, line, follow⟩ := ownerData_directory u s key b refused
  have unmet : u = v → ((u.clashKey key b refused).endEvent s).settleAgent.directory = s.directory ∧
      ((u.clashKey key b refused).endEvent s).settleAgent.answers = s.answers ∧
      ((u.clashKey key b refused).endEvent s).settleAgent.line = s.line ∧
      s.Posts ((u.clashKey key b refused).endEvent s).settleAgent [] [] := fun same =>
    ⟨directory.trans ((congrArg State.directory same).trans rfl), answers.trans ((congrArg State.answers same).trans rfl),
      line.trans ((congrArg State.line same).trans rfl), posts_of_followsUp ((congrArg State.notices same).trans rfl) follow⟩
  refine ⟨_, exec_ownerData takes data, fun own notOwn => unmet ?_, fun other => ⟨fun none_ => unmet ?_, fun e row agrees => ?_⟩⟩
  · exact (if_pos own).trans (if_neg notOwn)
  · exact (if_neg other).trans (meetClaim_of_none (entryOf_eq_none (s := v) none_) _ _)
  · have found : v.entryOf key = some e := entryOf_of_agrees (s := v) keys row agrees
    have meets : u = v.meetClaim key b.pair refused := if_neg other
    refine ⟨fun refuses => ?_, fun owed state unnamed => ?_, fun ignores => unmet ?_⟩
    · have same : u = v.refuse e.owner b.pair := meets.trans (meetClaim_refuses found _ refuses)
      refine ⟨directory.trans (congrArg State.directory same), answers.trans ((congrArg State.answers same).trans ?_), ?_, ?_⟩
      · refine List.filter_congr fun a _ => ?_
        exact (decide_not (p := a.owner = e.owner)).symm
      · have left := abandon_left s.line fun x => decide (x = e.owner)
        have abandoned : ((u.clashKey key b refused).endEvent s).settleAgent.line = s.line.abandon fun x => decide (x = e.owner) :=
          line.trans (congrArg State.line same)
        refine ⟨fun o g contends gone => abandoned.trans (left.1 o g contends (decide_eq_true gone)), fun stays => abandoned.trans (left.2 ?_)⟩
        exact fun o g contends => decide_eq_false (stays o g contends)
      · exact posts_of_followsUp (u := u) (congrArg State.notices same) follow
    · have same : u = (v.setEntry e.owner (.live (recordPair owed b.pair))).oweClash e.owner :=
        meets.trans (meetClaim_records found _ state unnamed)
      let w : State := v.setEntry e.owner (.live (recordPair owed b.pair))
      obtain ⟨directory', line', notices'⟩ := oweClash_others w e.owner
      have recorded : ((u.clashKey key b refused).endEvent s).settleAgent.directory = set e (.live (recordPair owed b.pair)) :=
        directory.trans ((congrArg State.directory same).trans directory')
      refine ⟨fun new => ?_, fun old => ?_, fun member => ?_, fun none_ => ?_, line.trans ((congrArg State.line same).trans line'),
        posts_of_followsUp (u := u) ((congrArg State.notices same).trans notices') follow⟩
      · rw [recorded, recordPair_new new]
        rfl
      · rw [recorded, recordPair_old old]
        rfl
      · exact answers.trans ((congrArg State.answers same).trans ((congrArg State.answers (oweClash_of_member (s := w) member)).trans rfl))
      · exact answers.trans ((congrArg State.answers same).trans ((congrArg State.answers (oweClash_of_none (s := w) none_)).trans rfl))
    · exact meets.trans (meetClaim_ignores found _ ignores _)

/-! ## The own ANNOUNCE self-received (R41) -/

theorem meetOwnAnnounce_of_none {g : Half}
    (none_ : ∀ e ∈ s.directory, e.key.agrees k = true → e.generation = g → e.state ≠ .pending) : s.meetOwnAnnounce k g = s := by
  unfold State.meetOwnAnnounce
  split
  · rfl
  · next e found =>
    have both := List.find?_some found
    rw [Bool.and_eq_true] at both
    exact if_neg (none_ e (List.mem_of_find?_eq_some found) both.1 (of_decide_eq_true both.2))

theorem meetOwnAnnounce_of_pending (keys : s.DirectoryKeysDistinct) {e : ExportEntry} (row : e ∈ s.directory)
    (agrees : e.key.agrees k = true) (pending : e.state = .pending) : s.meetOwnAnnounce k e.generation = s.setEntry e.owner (.live []) := by
  have found : (s.directory.find? fun x => x.key.agrees k && decide (x.generation = e.generation)) = some e := by
    cases other : s.directory.find? fun x => x.key.agrees k && decide (x.generation = e.generation) with
    | none =>
      have none_ := List.find?_eq_none.mp other e row
      rw [agrees, decide_eq_true rfl] at none_
      exact absurd rfl none_
    | some x =>
      have both := List.find?_some other
      rw [Bool.and_eq_true] at both
      have first := entryOf_of_agrees keys (List.mem_of_find?_eq_some other) both.1
      rw [entryOf_of_agrees keys row agrees] at first
      exact first.symm
  unfold State.meetOwnAnnounce
  rw [found]
  exact if_pos pending

/-- Settles O49: under distinct keys the entry found is the one of the key. -/
theorem ownAnnounceMakesLive : Obligations.OwnAnnounceMakesLive := by
  intro s f rest key b takes data keys
  let v : State := ({ s with rxQueue := rest } : State).hear f
  let u : State := s.met rest f .ownAnnounceTaken key b []
  have own : f.sender = s.number := by
    cases data with
    | ownAnnounce _ _ _ own => exact own
  have meets : u = v.meetOwnAnnounce key b.generation := (if_pos own).trans (if_pos rfl)
  obtain ⟨directory, answers, line, follow⟩ := ownerData_directory u s key b []
  have others : u.answers = s.answers ∧ u.line = s.line ∧ u.notices = s.notices := by
    rw [meets]
    unfold State.meetOwnAnnounce
    split
    · exact ⟨rfl, rfl, rfl⟩
    · split <;> exact ⟨rfl, rfl, rfl⟩
  obtain ⟨answers', line', notices'⟩ := others
  refine ⟨_, exec_ownerData takes data, answers.trans answers', line.trans line', posts_of_followsUp (u := u) notices' follow,
    fun e row agrees generation pending => ?_, fun none_ => ?_⟩
  · rw [← generation, meetOwnAnnounce_of_pending (s := v) keys row agrees pending] at meets
    exact directory.trans ((congrArg State.directory meets).trans rfl)
  · rw [meetOwnAnnounce_of_none (s := v) none_] at meets
    exact directory.trans ((congrArg State.directory meets).trans rfl)

end Sys2Proof.Machine

/-! The commit pass reads its next record, or leaves it between two words (R25, R26, R182). -/

namespace Sys2Proof.Machine

section
variable {s : State} {env : Env} {onPause : State → State} {onRecord : CommitItem → State → State} {onFault : Ending → State → State}

/-! ## The record read whole -/

theorem commitStep_whole (reads : s.ReadsRecord env) : s.commitStep env onPause onRecord onFault = s.readRecord env onRecord onFault := by
  unfold State.commitStep
  rw [reads.whole]

theorem commitStep_ok (reads : s.ReadsRecord env) {item : CommitItem} (read : (s.forTransfers env).readCommit env = some (.ok item)) :
    s.commitStep env onPause onRecord onFault = onRecord item (s.forTransfers env).endFetch := by
  rw [commitStep_whole reads, State.readRecord, if_pos (mayTransfer_of reads.awake reads.granted)]
  simp only [read]

theorem commitStep_error (reads : s.ReadsRecord env) {e : Ending} (read : (s.forTransfers env).readCommit env = some (.error e)) :
    s.commitStep env onPause onRecord onFault = onFault e (s.forTransfers env).endFetch := by
  rw [commitStep_whole reads, State.readRecord, if_pos (mayTransfer_of reads.awake reads.granted)]
  simp only [read]

/-! ## The record left between two words (R182; log 15) -/

/-- Words read one after another from an address on. -/
theorem fetchMore_ascending (mem : Memory) (base : Nat) : ∀ (p : Nat) (ws : List Word),
    fetchMore mem (fun ws => base + 4 * ws.length) p ws =
      ws ++ (List.range p).map fun q => mem.word (base + 4 * (ws.length + q))
  | 0, ws => by rw [fetchMore, List.range_zero, List.map_nil, List.append_nil]
  | p + 1, ws => by
    rw [fetchMore, fetchMore_ascending mem base p, List.range_succ_eq_map, List.map_cons, List.map_map, List.length_append,
      List.length_singleton, List.append_assoc, List.singleton_append]
    refine congrArg (ws ++ mem.word (base + 4 * ws.length) :: ·) (List.map_congr_left fun q _ => ?_)
    rw [Function.comp, Nat.add_assoc, Nat.add_comm 1 q]

section
variable {tag : Half} {m : Byte} {i j off sum p : Nat} {rec : ModuleRecord}

theorem commitAddress_eq (command : s.command = some (.loadCommit tag m i j off sum)) (module : s.module? m = some rec) :
    s.commitAddress = fun ws => rec.descriptor.toNat + off + 4 * ws.length := by
  funext ws
  unfold State.commitAddress
  rw [command]
  simp only [module]

/-- A record of which the transfer after the step's would be made is left with the words read. -/
theorem commitStep_left (command : s.command = some (.loadCommit tag m i j off sum)) (module : s.module? m = some rec)
    (leaves : s.LeavesRecord env p) :
    s.commitStep env State.leaveRecord onRecord onFault =
      s.leftReading env (s.runs.fetched ++ (List.range p).map fun q =>
        (s.mem.afterStores env.stores).word (rec.descriptor.toNat + off + 4 * (s.runs.fetched.length + q))) := by
  obtain ⟨e, read, readError⟩ := leaves.more
  have command' : (s.forTransfers env).command = some (.loadCommit tag m i j off sum) := command
  have module' : (s.forTransfers env).module? m = some rec := module
  have same : (s.forTransfers env).readCommit { s.runEnv .commandEngine env with failAt := some p } =
      (s.forTransfers env).readCommit { env with failAt := some p } := by
    unfold State.readCommit
    rw [resumed_runEnv]
  have fails : (s.forTransfers env).commitReadFails { s.runEnv .commandEngine env with failAt := some p } = true := by
    rw [State.commitReadFails, same, read]
    exact decide_eq_true readError
  have pause : (s.forTransfers env).commitPause (s.runEnv .commandEngine env) = some { s.forTransfers env with
      runs := { s.runs with fetched := s.runs.fetched ++ (List.range p).map fun q =>
        (s.mem.afterStores env.stores).word (rec.descriptor.toNat + off + 4 * (s.runs.fetched.length + q)) } } := by
    rw [State.commitPause, pauseAt_of_leaves leaves.leaves]
    dsimp only
    rw [if_pos fails, commitAddress_eq command' module', fetchMore_ascending]
    rfl
  unfold State.commitStep
  rw [pause]
  exact if_pos (mayTransfer_of leaves.awake leaves.granted)

theorem exportDue_iff (command : s.command = some (.loadCommit tag m i j off sum)) (module : s.module? m = some rec) :
    s.exportDue = decide (i < rec.exportCount) := by
  unfold State.exportDue
  rw [command]
  simp only [module]

end

end

/-- Settles O33: the record read is entered and its ANNOUNCE granted or left wanted; a record left keeps its words. -/
theorem commitExport : Obligations.CommitExport := by
  refine ⟨?entered, fun s env tag m i j off sum p rec command module exports leaves => ?_⟩
  case entered =>
    intro s env tag m i j off sum rec x reads onBus command module exports idle read key target entered
    have row : exec (.loadCommitExport env) s =
        .next (((((s.forTransfers env).endFetch).enterExport x).arbitrate []).served .commandEngine) := by
      rw [exec, execLoadCommitExport, exportDue_iff command module, decide_eq_true exports, if_pos rfl, commitStep_ok reads read]
    have enters : ((s.forTransfers env).endFetch).enterExport x = { entered with wanted := [.announce key s.nextGeneration target x.kind] } := by
      have command' : ((s.forTransfers env).endFetch).command = some (.loadCommit tag m i j off sum) := command
      rw [State.enterExport, command']
      rfl
    rw [row, enters]
    let wants : State := { entered with wanted := [.announce key s.nextGeneration target x.kind] }
    refine ⟨fun room none_ => ?_, fun full => ?_⟩
    · have placed := arbitrate_command (s := wants) room rfl none_.2 onBus []
      refine congrArg (fun u : State => Host.Outcome.next (u.served .commandEngine)) (placed.trans ?_)
      rw [← idle]
    · have waits : wants.arbitrate [] = wants := (if_neg onBus).trans (grantRounds_full (s := wants) full _ _)
      exact congrArg (fun u : State => Host.Outcome.next (u.served .commandEngine)) waits
  · rw [exec, execLoadCommitExport, exportDue_iff command module, decide_eq_true exports, if_pos rfl, commitStep_left command module leaves]

end Sys2Proof.Machine

/-! The notices of the end of an event: the KIND faults of the serving of the backlog, in its order, then the MODULE-STATE notices
(R11, R31, R78). -/

namespace Sys2Proof.Machine

variable {s t u : State}

/-! ## One reference served (R78) -/

/-- What the serving of the reference of `r` leaves, before which the backlog behind it was `rest`. -/
structure State.Round (s t : State) (r : Ref) (rest : List Owner) (f : Ref → Ref) : Prop where
  refs : t.refs = s.refs.map f
  owner : ∀ q, (f q).owner = q.owner
  settled : ∀ q ∈ s.refs, q.phase ≠ .queued → f q = q
  queued : ∀ q ∈ s.refs, (f q).phase = .queued ↔ q.phase = .queued ∧ q.owner ∈ t.backlog
  faulted : ∀ q ∈ s.refs, q.owner ≠ r.owner → q.phase = .queued → (f q).phase ≠ .faulted .kind
  backlog : ∃ p : Owner → Bool, t.backlog = rest.filter p
  notices : t.notices = (if (f r).phase = .faulted .kind then [kindFault r.owner] else []).foldl NoticeUnit.take s.notices

/-- The member at the head of the backlog has a reference, in QUEUED, of which there is no other. -/
theorem oldest_queued (law : s.seekTables.Law) {o : Owner} {rest : List Owner} (oldest : s.backlog = o :: rest) :
    ∃ r ∈ s.refs, r.owner = o ∧ r.phase = .queued ∧ s.ref? o = some r := by
  obtain ⟨r, row, rfl, queued⟩ := (law.queued o).mp (show o ∈ s.backlog by rw [oldest]; exact List.mem_cons_self)
  refine ⟨r, row, rfl, queued, ?_⟩
  cases found : s.ref? r.owner with
  | none => exact absurd (List.find?_eq_none.mp found r row) (by simp)
  | some q =>
    obtain ⟨member, owner⟩ := mem_of_ref? found
    exact congrArg some (eq_of_owner law.owners member row owner)

theorem rest_queued (law : s.seekTables.Law) {r : Ref} {rest : List Owner} (oldest : s.backlog = r.owner :: rest) {q : Ref} (row : q ∈ s.refs)
    (other : q.owner ≠ r.owner) : q.phase = .queued ↔ q.owner ∈ rest := by
  refine ⟨fun queued => ?_, fun member => ?_⟩
  · have inside : q.owner ∈ s.backlog := (law.queued _).mpr ⟨q, row, rfl, queued⟩
    rw [oldest] at inside
    exact (List.mem_cons.mp inside).resolve_left other
  · obtain ⟨q', row', owner, queued⟩ := (law.queued q.owner).mp (show q.owner ∈ s.backlog by rw [oldest]; exact List.mem_cons_of_mem _ member)
    rw [← eq_of_owner law.owners row' row owner]
    exact queued

/-- The reference gets a phase that is not QUEUED, and no other changes. -/
theorem round_of_phase (law : s.seekTables.Law) {r : Ref} {rest : List Owner} (oldest : s.backlog = r.owner :: rest) (row : r ∈ s.refs)
    (was : r.phase = .queued) {p : Phase} (now : p ≠ .queued)
    (refs : t.refs = s.refs.map fun q => if q.owner = r.owner then { q with phase := p } else q) (backlog : t.backlog = rest)
    (notices : t.notices = (if p = .faulted .kind then [kindFault r.owner] else []).foldl NoticeUnit.take s.notices) :
    s.Round t r rest fun q => if q.owner = r.owner then { q with phase := p } else q := by
  have once : r.owner ∉ rest := by
    have nodup : s.backlog.Nodup := law.once
    rw [oldest, List.nodup_cons] at nodup
    exact nodup.1
  refine ⟨refs, fun q => by split <;> rfl, fun q hq other => ?_, fun q hq => ?_, fun q hq other queued => ?_, ⟨fun _ => true, ?_⟩, ?_⟩
  · refine if_neg fun owner => other ?_
    rw [eq_of_owner law.owners hq row owner]
    exact was
  · rw [backlog]
    split
    · next owner => exact ⟨fun h => absurd h now, fun h => absurd (owner ▸ h.2) once⟩
    · next other => exact ⟨fun h => ⟨h, (rest_queued law oldest hq other).mp h⟩, And.left⟩
  · rw [if_neg other, queued]
    exact fun h => nomatch h
  · rw [backlog, List.filter_true]
  · rw [notices, if_pos rfl]

theorem serveOne_round (law : s.seekTables.Law) {r : Ref} {rest : List Owner} (oldest : s.backlog = r.owner :: rest) (row : r ∈ s.refs)
    (was : r.phase = .queued) (free : Nat) : ∃ f, s.Round (({ s with backlog := rest } : State).serveOne r free) r rest f := by
  unfold State.serveOne
  split
  · next b _ =>
    unfold State.offerBinding
    split
    · exact ⟨_, round_of_phase law oldest row was (p := .patching b) (fun h => nomatch h) rfl rfl rfl⟩
    · exact ⟨_, round_of_phase law oldest row was (p := .faulted .kind) (fun h => nomatch h) rfl rfl rfl⟩
  · split
    · next n _ => exact ⟨_, round_of_phase law oldest row was (p := .seeking n) (fun h => nomatch h) rfl rfl rfl⟩
    · obtain ⟨refs, backlog⟩ := takes_refs s r free rest law row oldest
      refine ⟨_, refs, fun q => by split <;> rfl, fun q _ other => if_neg fun h => other h.1, fun q hq => ?_, fun q _ _ queued => ?_, ⟨_, backlog⟩, ?_⟩
      · have any : (s.refs.any fun p => decide (p.owner = q.owner) && p.key.agrees r.key) = q.key.agrees r.key := by
          rw [Bool.eq_iff_iff, List.any_eq_true]
          constructor
          · rintro ⟨p, hp, both⟩
            obtain ⟨owner, agrees⟩ := (Bool.and_eq_true _ _).mp both
            rw [← eq_of_owner law.owners hp hq (of_decide_eq_true owner)]
            exact agrees
          · exact fun agrees => ⟨q, hq, by rw [agrees, decide_eq_true rfl]; rfl⟩
        rw [backlog, List.mem_filter, any, Bool.not_eq_true']
        split
        · next both => exact ⟨fun h => (nomatch h), fun ⟨_, _, other⟩ => absurd (both.2.symm.trans other) (fun h => nomatch h)⟩
        · next either =>
          refine ⟨fun queued => ⟨queued, ?_, Bool.eq_false_iff.mpr fun agrees => either ⟨queued, agrees⟩⟩, And.left⟩
          refine (rest_queued law oldest hq fun owner => either ?_).mp queued
          rw [eq_of_owner law.owners hq row owner]
          exact ⟨was, Key.agrees_self _⟩
      · split
        · exact fun h => nomatch h
        · rw [queued]
          exact fun h => nomatch h
      · have taken : (if r.phase = .queued ∧ r.key.agrees r.key = true then { r with phase := .seeking free } else r : Ref).phase =
            .seeking free := by rw [if_pos ⟨was, Key.agrees_self _⟩]
        rw [taken, if_neg fun h => (nomatch h)]
        rfl

theorem State.Round.law {r : Ref} {rest : List Owner} {f : Ref → Ref} (h : s.Round t r rest f) (law : s.seekTables.Law)
    (oldest : s.backlog = r.owner :: rest) : t.seekTables.Law := by
  have next := law.next f t.slotsUnasked t.backlog h.owner ?_ h.queued
  · rw [State.seekTables, h.refs]
    exact next
  · obtain ⟨p, backlog⟩ := h.backlog
    rw [backlog]
    change List.Sublist _ s.backlog
    rw [oldest]
    exact List.filter_sublist.cons _

/-! ## The backlog served -/

/-- What the serving of the backlog of `s` leaves. -/
structure State.ServedTo (s v : State) : Prop where
  settled : ∀ r ∈ s.refs, r.phase ≠ .queued → r ∈ v.refs
  owners : v.refs.map (·.owner) = s.refs.map (·.owner)
  notices : v.notices = ((s.backlog.filter v.kindFaulted).map kindFault).foldl NoticeUnit.take s.notices

theorem kindFaulted_of_row {v : State} (once : (v.refs.map (·.owner)).Nodup) {q : Ref} (row : q ∈ v.refs) :
    v.kindFaulted q.owner = decide (q.phase = .faulted .kind) := by
  rw [Bool.eq_iff_iff, State.kindFaulted, List.any_eq_true, decide_eq_true_iff]
  constructor
  · rintro ⟨p, hp, both⟩
    obtain ⟨owner, faulted⟩ := (Bool.and_eq_true _ _).mp both
    rw [← eq_of_owner once hp row (of_decide_eq_true owner)]
    exact of_decide_eq_true faulted
  · exact fun faulted => ⟨q, row, by rw [faulted, decide_eq_true rfl, decide_eq_true rfl]; rfl⟩

/-- Nothing is served, and no member of the backlog is FAULTED. -/
theorem servedTo_self (law : s.seekTables.Law) : s.ServedTo s := by
  refine ⟨fun _ hr _ => hr, rfl, ?_⟩
  have none_ : s.backlog.filter s.kindFaulted = [] := List.filter_eq_nil_iff.mpr fun o ho => by
    obtain ⟨r, row, rfl, queued⟩ := (law.queued o).mp ho
    rw [kindFaulted_of_row law.owners row, queued]
    exact Bool.false_ne_true
  rw [none_]
  rfl

theorem State.Round.servedTo {v : State} {r : Ref} {rest : List Owner} {f : Ref → Ref} (h : s.Round t r rest f) (law : s.seekTables.Law)
    (oldest : s.backlog = r.owner :: rest) (row : r ∈ s.refs) (next : t.ServedTo v) : s.ServedTo v := by
  have inside : ∀ q ∈ s.refs, f q ∈ t.refs := fun q hq => h.refs ▸ List.mem_map_of_mem hq
  have tOwners : t.refs.map (·.owner) = s.refs.map (·.owner) := by
    rw [h.refs, List.map_map]
    exact List.map_congr_left fun q _ => h.owner q
  have owners := next.owners.trans tOwners
  have once : (v.refs.map (·.owner)).Nodup := by
    rw [owners]
    exact law.owners
  have nodup : s.backlog.Nodup := law.once
  rw [oldest, List.nodup_cons] at nodup
  have left : ∀ q ∈ s.refs, q.owner ∉ t.backlog → v.kindFaulted q.owner = decide ((f q).phase = .faulted .kind) := by
    intro q hq gone
    have stays := next.settled (f q) (inside q hq) fun queued => gone ((h.queued q hq).mp queued).2
    rw [← h.owner q]
    exact kindFaulted_of_row once stays
  obtain ⟨p, backlog⟩ := h.backlog
  refine ⟨fun q hq other => ?_, owners, ?_⟩
  · have same := h.settled q hq other
    exact next.settled q (same ▸ inside q hq) other
  · have others : rest.filter v.kindFaulted = t.backlog.filter v.kindFaulted := by
      rw [backlog, List.filter_filter]
      refine List.filter_congr fun o ho => ?_
      cases kept : p o with
      | true => rw [Bool.and_true]
      | false =>
        rw [Bool.and_false]
        obtain ⟨q, hq, rfl, queued⟩ := (law.queued o).mp (show o ∈ s.backlog by rw [oldest]; exact List.mem_cons_of_mem _ ho)
        have other : q.owner ≠ r.owner := fun same => nodup.1 (same ▸ ho)
        have gone : q.owner ∉ t.backlog := fun member => by
          rw [backlog, List.mem_filter, kept] at member
          cases member.2
        rw [left q hq gone]
        exact decide_eq_false (h.faulted q hq other queued)
    have first : r.owner ∉ t.backlog := fun member => by
      rw [backlog] at member
      exact nodup.1 (List.mem_filter.mp member).1
    rw [next.notices, h.notices, ← others, oldest, List.filter_cons, left r row first]
    by_cases faulted : (f r).phase = .faulted .kind
    · rw [if_pos faulted, decide_eq_true faulted, if_pos rfl]
      rfl
    · rw [if_neg faulted, decide_eq_false faulted, if_neg Bool.false_ne_true]
      rfl

theorem serveRounds_servedTo (n : Nat) : ∀ s : State, s.seekTables.Law → s.ServedTo (s.serveRounds n) := by
  induction n with
  | zero => exact fun s law => servedTo_self law
  | succ n ih =>
    intro s law
    unfold State.serveRounds
    split
    · next free o rest _ oldest =>
      obtain ⟨r, row, rfl, queued, found⟩ := oldest_queued law oldest
      have found' : ({ s with backlog := rest } : State).ref? r.owner = some r := found
      simp only [found']
      obtain ⟨f, round⟩ := serveOne_round law oldest row queued free
      exact round.servedTo law oldest row (ih _ (round.law law oldest))
    · exact servedTo_self law

/-! ## The end of an event (R31, R78) -/

theorem serveOne_modules (s : State) (r : Ref) (n : Nat) : (s.serveOne r n).modules = s.modules := by
  unfold State.serveOne
  split
  · unfold State.offerBinding
    split <;> rfl
  · split <;> rfl

theorem serveRounds_modules (n : Nat) : ∀ s : State, (s.serveRounds n).modules = s.modules := by
  induction n with
  | zero => exact fun _ => rfl
  | succ n ih =>
    intro s
    unfold State.serveRounds
    split
    · dsimp only
      split
      · exact (ih _).trans (serveOne_modules _ _ _)
      · exact ih _
    · rfl

theorem newStates_congr {s' t' : State} {out : Option Byte} (modules : s'.modules = s.modules) (refs : t'.refs = t.refs) :
    s'.newStates t' out = s.newStates t out := by
  have phases : ∀ m, t'.phasesOf m = t.phasesOf m := fun m => by rw [State.phasesOf, State.phasesOf, refs]
  rw [State.newStates, State.newStates, modules]
  simp only [phases]

theorem kindFaulted_congr {t' : State} (refs : t'.refs = t.refs) : t'.kindFaulted = t.kindFaulted := by
  funext o
  rw [State.kindFaulted, State.kindFaulted, refs]

/-- The end of an event posts the KIND faults of the backlog's members, in its order, then the MODULE-STATE notices; references that
are not QUEUED stay. -/
theorem endEvent_servedTo (law : u.seekTables.Law) (b : State) (order : List Bool) :
    (∀ r ∈ u.refs, r.phase ≠ .queued → r ∈ (u.endEvent b order).refs) ∧
    (u.endEvent b order).refs.map (·.owner) = u.refs.map (·.owner) ∧
    (u.endEvent b order).notices = ((u.backlog.filter (u.endEvent b order).kindFaulted).map kindFault
      ++ u.newStates (u.endEvent b order) none).foldl NoticeUnit.take u.notices := by
  obtain ⟨v, result, served⟩ := endEvent_cases u b order
  have rounds : u.ServedTo v ∧ v.modules = u.modules := by
    obtain rfl | ⟨rfl, -⟩ := served
    · exact ⟨serveRounds_servedTo _ u law, serveRounds_modules _ u⟩
    · exact ⟨servedTo_self law, rfl⟩
  obtain ⟨rounds, modules⟩ := rounds
  obtain ⟨refs', -⟩ := settleModules_tables v.appendWalks
  obtain ⟨refs'', -⟩ := arbitrate_tables v.appendWalks.settleModules order
  have refs : (u.endEvent b order).refs = v.refs := by rw [result, refs'', refs']; rfl
  refine ⟨fun r hr other => refs ▸ rounds.settled r hr other, by rw [refs, rounds.owners], ?_⟩
  have states : v.appendWalks.newStates v.appendWalks none = u.newStates (u.endEvent b order) none :=
    newStates_congr modules refs.symm
  rw [kindFaulted_congr refs, ← states, result, arbitrate_notices, settleModules_notices, List.foldl_append, ← rounds.notices]
  rfl

end Sys2Proof.Machine

/-! Events that touch no seek slot: a walk begins, goes on, completes (R109, R116 to R121). -/

namespace Sys2Proof.Machine

variable {s t u : State}

/-! ## The end of an event that leaves the seek tables -/

/-- The effects of the event leave slots, backlog, both queues of frames, and the modules. -/
structure State.Quiet (s u : State) : Prop where
  slots : u.slots = s.slots
  backlog : u.backlog = s.backlog
  txQueue : u.txQueue = s.txQueue
  wanted : u.wanted = s.wanted
  modules : u.modules = s.modules

theorem someFreed_self (l : List (Option Slot)) : someFreed l l = false := by
  refine List.any_eq_false.mpr fun p hp => ?_
  obtain ⟨i, hi, rfl⟩ := List.mem_iff_getElem.mp hp
  rw [List.getElem_zip]
  cases l[i]'(by simpa using hi) <;> exact Bool.false_ne_true

/-- What the end of such an event leaves. -/
structure State.QuietEnd (s u t : State) : Prop where
  refs : t.refs = u.refs
  seeks : s.SeeksKept t
  granted : s.Granted t s.wanted
  walks : t.WalksJoined u.patchQueue
  frame : ReferenceFrame u t
  notices : t.notices = (s.newStates t none).foldl NoticeUnit.take u.notices

theorem State.Quiet.ends (h : s.Quiet u) : s.QuietEnd u (u.endEvent s) := by
  have result : u.endEvent s = u.appendWalks.settleModules.arbitrate [] := by
    rw [State.endEvent, h.slots, someFreed_self]
    rfl
  obtain ⟨refs', slots', backlog', -⟩ := settleModules_tables u.appendWalks
  obtain ⟨refs'', slots'', backlog'', -⟩ := arbitrate_tables u.appendWalks.settleModules []
  have refs : (u.endEvent s).refs = u.refs := by rw [result, refs'', refs']; rfl
  refine ⟨refs, ⟨?_, ?_⟩, ?_, endEvent_walks u s [], endEvent_frame u s [], ?_⟩
  · rw [result, slots'', State.slotsUnasked, slots']
    exact congrArg (List.map (Option.map Slot.unasked)) h.slots
  · rw [result, backlog'', backlog']
    exact h.backlog
  · rw [← h.wanted]
    refine endEvent_granted s [] h.txQueue (fun n y slot _ asks => .inl ⟨y, h.slots ▸ slot, rfl, asks⟩) fun n x y old asks slot _ => .inl ?_
    rw [h.slots] at slot
    cases old.symm.trans slot
    exact asks
  · have states : u.appendWalks.newStates u.appendWalks none = s.newStates (u.endEvent s) none := newStates_congr h.modules refs.symm
    rw [← states, result, arbitrate_notices, settleModules_notices]
    rfl

/-- The agent's grant is no part of it. -/
theorem State.QuietEnd.agent {t' : State} (h : s.QuietEnd u t) {granted : List Claimant} (same : t' = { t with granted }) :
    s.QuietEnd u t' := by
  subst same
  obtain ⟨refs, seeks, ⟨gs, grants⟩, walks, frame, notices⟩ := h
  exact ⟨refs, ⟨seeks.slots, seeks.backlog⟩, ⟨gs, { grants with }⟩, walks, { frame with }, notices⟩

/-! ## The passes of a walk (R116) -/

theorem computeSites_ok {n : Station} {target : Word} : ∀ {sites : List Site} {values : List Word} (k : Nat),
    List.Forall₂ (fun x v => Site.encode n x target = some v) sites values → computeSites n target k sites = .ok values
  | _, _, _, .nil => rfl
  | x :: sites, v :: values, k, .cons fits rest => by
    rw [computeSites, fits]
    simp only [computeSites_ok (k + 1) rest]
    rfl

theorem computeSites_error {n : Station} {target : Word} {x : Site} (after : List Site) (misfit : Site.encode n x target = none) :
    ∀ (before : List Site) (k : Nat), (∀ y ∈ before, (Site.encode n y target).isSome = true) →
      computeSites n target k (before ++ x :: after) = .error (k + before.length)
  | [], k, _ => by
    rw [List.nil_append, computeSites, misfit]
    rfl
  | y :: before, k, fits => by
    obtain ⟨v, value⟩ := Option.isSome_iff_exists.mp (fits y List.mem_cons_self)
    rw [List.cons_append, computeSites, value]
    simp only [computeSites_error after misfit before (k + 1) fun z hz => fits z (List.mem_cons_of_mem _ hz)]
    rw [List.length_cons, Nat.add_right_comm]
    rfl

/-- A write pass begins at the first site. -/
theorem beginWrites_eq {r : Ref} {v : WalkValue} {values : List Word} (sites : r.sites ≠ []) (length : values.length = r.sites.length) :
    ∃ x, s.beginWrites r v values =
      { s with walk := some { ref := r.owner, value := v, pass := .write, next := 1, computed := values }, transfer := some x } ∧
      some x = (r.sites.zip values).head?.map fun p => { site := p.1, value := p.2 } := by
  unfold State.beginWrites
  match first : r.sites, values with
  | [], _ => exact absurd first sites
  | _ :: _, [] => rw [first] at length; cases length
  | x :: _, w :: _ => exact ⟨_, rfl, rfl⟩

/-- The state in which a walk of the reference writes these values. -/
structure State.Writes (s u : State) (r : Ref) (v : WalkValue) (values : List Word) : Prop where
  writing : u.Writing r.owner v r.sites values
  same : u = { s with walk := u.walk, transfer := u.transfer }

theorem beginWrites_writes {r : Ref} {v : WalkValue} {values : List Word} (sites : r.sites ≠ []) (length : values.length = r.sites.length) :
    s.Writes (s.beginWrites r v values) r v values := by
  obtain ⟨x, begun, first⟩ := beginWrites_eq (s := s) (v := v) sites length
  rw [begun]
  exact ⟨⟨rfl, first⟩, rfl⟩

theorem walkStub_writes {r : Ref} (sites : r.sites ≠ []) : s.Writes (s.walkStub r) r .stub (r.sites.map s.stubValue) :=
  beginWrites_writes sites (by rw [List.length_map])

theorem computeWalk_stub {r : Ref} (sites : r.sites ≠ []) (unbound : r.phase.binding? = none) :
    s.Writes (s.computeWalk r) r .stub (r.sites.map s.stubValue) := by
  rw [State.computeWalk, unbound]
  exact walkStub_writes sites

theorem computeWalk_binding {r : Ref} {b : Binding} {values : List Word} (sites : r.sites ≠ []) (bound : r.phase.binding? = some b)
    (fits : List.Forall₂ (fun x v => Site.encode s.number x b.target = some v) r.sites values) :
    s.Writes (s.computeWalk r) r (.binding b) values := by
  rw [State.computeWalk, bound]
  simp only [computeSites_ok 1 fits]
  exact beginWrites_writes sites fits.length_eq.symm

/-- A site that does not fit faults the reference, whose stub is then walked. -/
theorem computeWalk_misfit {r : Ref} {b : Binding} {before : List Site} {x : Site} {after : List Site} (bound : r.phase.binding? = some b)
    (sites : r.sites = before ++ x :: after) (fits : ∀ y ∈ before, (Site.encode s.number y b.target).isSome = true)
    (misfit : Site.encode s.number x b.target = none) :
    ((s.setPhase r.owner (.faulted .fit)).post (.referenceFaulted r.owner .fit (before.length + 1))).Writes (s.computeWalk r) r .stub
      (r.sites.map s.stubValue) := by
  have some_ : r.sites ≠ [] := by rw [sites]; exact List.append_ne_nil_of_right_ne_nil _ (List.cons_ne_nil _ _)
  have error : computeSites s.number b.target 1 r.sites = .error (before.length + 1) := by
    rw [sites, computeSites_error after misfit before 1 fits, Nat.add_comm]
  rw [State.computeWalk, bound]
  simp only [error]
  exact walkStub_writes some_

/-! ## The row WALK_BEGIN (R109) -/

theorem ref?_of_row (once : (s.refs.map (·.owner)).Nodup) {r : Ref} (row : r ∈ s.refs) : s.ref? r.owner = some r := by
  cases found : s.ref? r.owner with
  | none => exact absurd (List.find?_eq_none.mp found r row) (by simp)
  | some q =>
    obtain ⟨member, owner⟩ := mem_of_ref? found
    exact congrArg some (eq_of_owner once member row owner)

theorem exec_walkBegin {r : Ref} {queue : List Owner} (awake : s.inReset = false) (noWalk : s.walk = none) (noTransfer : s.transfer = none)
    (patches : s.patchQueue = r.owner :: queue) (row : r ∈ s.refs) (once : (s.refs.map (·.owner)).Nodup) :
    exec .walkBegin s = .next (((s.beginWalk r).endEvent s).settleAgent) := by
  rw [exec, execWalkBegin, awake, noWalk, noTransfer, patches]
  simp only [ref?_of_row once row]
  rfl

/-- References of one owner that are set to one value, where there is one. -/
theorem map_owner_eq {refs : List Ref} (once : (refs.map (·.owner)).Nodup) {r : Ref} (row : r ∈ refs) (f : Ref → Ref) :
    (refs.map fun x => if x.owner = r.owner then f x else x) = refs.map fun x => if x.owner = r.owner then f r else x := by
  refine List.map_congr_left fun q hq => ?_
  split
  · next owner => rw [eq_of_owner once hq row owner]
  · rfl

theorem completeWalk_refs {r : Ref} (v : WalkValue) (once : (s.refs.map (·.owner)).Nodup) (row : r ∈ s.refs) :
    (s.completeWalk r.owner v).refs = s.refs.map fun x => if x.owner = r.owner then r.completed v else x := by
  rw [← map_owner_eq once row fun x => x.completed v]
  cases v with
  | stub => rfl
  | binding b =>
    change (s.refs.map _).map _ = _
    rw [List.map_map]
    refine List.map_congr_left fun q _ => ?_
    by_cases owner : q.owner = r.owner
    · simp [owner, Ref.completed, WalkValue.asReflect]
    · simp [owner]

/-- A completed walk leaves all but the reference, the patch queue and the walk. -/
theorem completeWalk_eq (s : State) (o : Owner) (v : WalkValue) : s.completeWalk o v =
    { s with refs := (s.completeWalk o v).refs, patchQueue := s.patchQueue.erase o, walk := none } := by
  cases v <;> rfl

theorem State.Quiet.writes {p : State} {r : Ref} {v : WalkValue} {values : List Word} (h : s.Quiet p) (begins : p.Writes u r v values) :
    s.Quiet u := by
  rw [begins.same]
  exact ⟨h.slots, h.backlog, h.txQueue, h.wanted, h.modules⟩

/-- What an event leaves that begins a write pass after the changes that leave `p`. -/
structure State.BeginsIn (s p t : State) (r : Ref) (v : WalkValue) (values : List Word) : Prop where
  frame : ReferenceFrame { s with walk := t.walk, transfer := t.transfer } t
  refs : t.refs = p.refs
  writing : t.Writing r.owner v r.sites values
  seeks : s.SeeksKept t
  granted : s.Granted t s.wanted
  walks : t.WalksJoined p.patchQueue
  notices : t.notices = (s.newStates t none).foldl NoticeUnit.take p.notices

theorem State.QuietEnd.begins {p : State} {r : Ref} {v : WalkValue} {values : List Word} (h : s.QuietEnd u t)
    (frame : ReferenceFrame s p) (begins : p.Writes u r v values) : s.BeginsIn p t r v values := by
  obtain ⟨⟨walk, transfer⟩, same⟩ := begins
  have refs : u.refs = p.refs := by rw [same]
  have patches : u.patchQueue = p.patchQueue := by rw [same]
  have notices : u.notices = p.notices := by rw [same]
  refine ⟨?_, h.refs.trans refs, ⟨h.frame.walk.trans walk, h.frame.transfer.trans transfer⟩, h.seeks, h.granted, patches ▸ h.walks,
    notices ▸ h.notices⟩
  have before : ReferenceFrame { s with walk := u.walk, transfer := u.transfer } u := by
    rw [same]
    exact { frame with walk := rfl, transfer := rfl }
  rw [h.frame.walk, h.frame.transfer]
  exact before.trans h.frame

/-- Settles O54: the passes of a walk touch no seek slot, so the event ends with the walks, the module states and the grants. -/
theorem walkBegin : Obligations.WalkBegin := by
  intro s r queue awake noWalk noTransfer patches row once stub becomes seeks begun
  have exec_ := exec_walkBegin awake noWalk noTransfer patches row once
  refine ⟨fun reflects => ?complete, fun stale some_ => ?writes⟩
  case complete =>
    have value : s.beginWalk r = s.completeWalk r.owner r.currentValue := if_pos reflects
    have same := completeWalk_eq s r.owner r.currentValue
    rw [← value] at same
    have quiet : s.Quiet (s.beginWalk r) := by
      rw [same]
      exact ⟨rfl, rfl, rfl, rfl, rfl⟩
    have frame : ReferenceFrame s (s.beginWalk r) := by
      rw [same]
      exact { ReferenceFrame.refl s with walk := noWalk.symm }
    have ends := quiet.ends.agent (t' := ((s.beginWalk r).endEvent s).settleAgent) rfl
    have erased : (s.beginWalk r).patchQueue = queue := by
      rw [same]
      change s.patchQueue.erase r.owner = queue
      rw [patches, List.erase_cons_head]
    have notices : (s.beginWalk r).notices = s.notices := by rw [same]
    refine ⟨_, exec_, frame.trans ends.frame, ⟨ends.seeks, ends.granted⟩, ?_, erased ▸ ends.walks, ?_⟩
    · refine ends.refs.trans ?_
      rw [value]
      exact completeWalk_refs r.currentValue once row
    · rw [State.PostsInTurn, List.nil_append, List.append_nil, ← notices]
      exact ends.notices
  case writes =>
    have computes : s.beginWalk r = s.computeWalk r := if_neg stale
    have event : ∀ {p : State} {v : WalkValue} {values : List Word}, s.Quiet p → ReferenceFrame s p →
        p.Writes (s.computeWalk r) r v values →
        ∃ t, exec .walkBegin s = .next t ∧ s.BeginsIn p t r v values := by
      intro p v values quiet frame begins
      rw [← computes] at begins
      exact ⟨_, exec_, ((quiet.writes begins).ends.agent rfl).begins frame begins⟩
    have self : s.Quiet s := ⟨rfl, rfl, rfl, rfl, rfl⟩
    have posts : ∀ {t : State}, t.notices = (s.newStates t none).foldl NoticeUnit.take s.notices → s.PostsInTurn t [] [] := by
      intro t notices
      rw [State.PostsInTurn, List.nil_append, List.append_nil]
      exact notices
    refine ⟨fun unbound => ?_, fun b values bound fits => ?_, fun b before x after bound sites fits misfit => ?_⟩
    · obtain ⟨t, next, h⟩ := event self (.refl s) (computeWalk_stub some_ unbound)
      exact ⟨t, next, ⟨h.frame, ⟨h.seeks, h.granted⟩, h.walks⟩, h.refs, h.writing, posts h.notices⟩
    · obtain ⟨t, next, h⟩ := event self (.refl s) (computeWalk_binding some_ bound fits)
      exact ⟨t, next, ⟨h.frame, ⟨h.seeks, h.granted⟩, h.walks⟩, h.refs, h.writing, posts h.notices⟩
    · let p : State := (s.setPhase r.owner (.faulted .fit)).post (.referenceFaulted r.owner .fit (before.length + 1))
      have faults : ReferenceFrame s p := (setPhase_frame s r.owner _).trans (post_frame _ _)
      obtain ⟨t, next, h⟩ := event (p := p) ⟨rfl, rfl, rfl, rfl, rfl⟩ faults (computeWalk_misfit bound sites fits misfit)
      refine ⟨t, next, ⟨h.frame, ⟨h.seeks, h.granted⟩, h.walks⟩, ?_, h.writing, ?_⟩
      · exact h.refs.trans (map_owner_eq once row fun x => { x with phase := .faulted .fit })
      · rw [State.PostsInTurn, List.append_nil, List.foldl_append]
        exact h.notices

end Sys2Proof.Machine

/-! Events that take members out of the backlog and free slots: the tables from which the backlog is served (R78), and the seek
timers (R74, R75). -/

namespace Sys2Proof.Machine

variable {s t u : State}

/-! ## What the end of such an event leaves -/

/-- What the end of an event leaves after the effects that leave `u`. -/
structure State.ServedEnd (s u t : State) : Prop where
  settled : ∀ r ∈ u.refs, r.phase ≠ .queued → r ∈ t.refs
  owners : t.refs.map (·.owner) = u.refs.map (·.owner)
  served : s.ServedFrom t u.seekTables
  granted : s.Granted t u.wanted
  walks : t.WalksJoined u.patchQueue
  frame : ReferenceFrame u t
  notices : t.notices = ((u.backlog.filter t.kindFaulted).map kindFault ++ u.newStates t none).foldl NoticeUnit.take u.notices

/-- Every slot that the effects leave is as it was. -/
def State.SlotsLeft (s u : State) : Prop :=
  ∀ (n : Nat) (y : Slot), u.slots[n]? = some (some y) → s.slots[n]? = some (some y)

/-- The grants of the end of such an event. -/
theorem State.SlotsLeft.granted (slots : s.SlotsLeft u) (queue : u.txQueue = s.txQueue) (order : List Bool) :
    s.Granted (u.endEvent s order) u.wanted := by
  refine endEvent_granted s order queue (fun n y slot _ asks => .inl ⟨y, slots n y slot, rfl, asks⟩) fun n x y old asks slot _ => .inl ?_
  cases old.symm.trans (slots n y slot)
  exact asks

theorem State.Prepared.ends (h : s.Prepared u) (queue : u.txQueue = s.txQueue) (slots : s.SlotsLeft u) (order : List Bool) :
    s.ServedEnd u (u.endEvent s order) := by
  obtain ⟨settled, owners, notices⟩ := endEvent_servedTo h.sound.law s order
  refine ⟨settled, owners, endEvent_servedFrom s order h.sound.law queue fun unfreed => ?_, slots.granted queue order,
    endEvent_walks u s order, endEvent_frame u s order, notices⟩
  exact (h.served unfreed).imp_right fun full free => full ((none_mem_slotsUnasked u).mpr free)

/-- The agent's grant is no part of it. -/
theorem State.ServedEnd.agent {t' : State} (h : s.ServedEnd u t) {granted : List Claimant} (same : t' = { t with granted }) :
    s.ServedEnd u t' := by
  subst same
  obtain ⟨settled, owners, ⟨serving, seeks⟩, ⟨gs, grants⟩, walks, frame, notices⟩ := h
  exact ⟨settled, owners, ⟨serving.congr (t := t) (u := { t with granted }) rfl rfl, fun n y free taken => { seeks n y free taken with }⟩, ⟨gs, { grants with }⟩, walks,
    { frame with }, notices⟩

/-- Nothing is served where the backlog is empty. -/
theorem State.Serving.of_empty {x y : SeekTables} (h : t.Serving x y) (empty : x.backlog = []) : y = x := by
  cases h with
  | done => rfl
  | answered _ _ r rest b free row oldest => rw [empty] at oldest; cases oldest
  | joins _ _ r rest n z free row oldest => rw [empty] at oldest; cases oldest
  | takes _ _ r rest n row oldest => rw [empty] at oldest; cases oldest

theorem State.ServedFrom.slot_kept {x : SeekTables} (h : s.ServedFrom t x) {n : Nat} {a : Slot} (slot : x.slots[n]? = some (some a)) :
    ∃ z : Slot, t.slots[n]? = some (some z) ∧ z.unasked = a := by
  have kept : t.slotsUnasked[n]? = some (some a) := h.serving.used n a slot
  rw [slotsUnasked_getElem?, Option.map_eq_some_iff] at kept
  obtain ⟨o, slot, same⟩ := kept
  cases o with
  | none => cases same
  | some z => exact ⟨z, slot, Option.some.inj same⟩

theorem State.ServedFrom.slot_free {x : SeekTables} (h : s.ServedFrom t x) (empty : x.backlog = []) {n : Nat} (free : x.slots[n]? = some none) :
    t.slots[n]? = some none := by
  have same : t.slotsUnasked = x.slots := congrArg SeekTables.slots (h.serving.of_empty empty)
  rw [← same, slotsUnasked_getElem?, Option.map_eq_some_iff] at free
  obtain ⟨o, slot, none_⟩ := free
  cases o with
  | none => exact slot
  | some z => cases none_

/-- The KIND faults of the serving are those of the members that the effects leave in the backlog. -/
theorem servedFaults_eq (law : s.seekTables.Law) {met : Ref → Bool} {p : Owner → Bool} (backlog : u.backlog = s.backlog.filter p)
    (kept : ∀ r ∈ s.refs, r.phase = .queued → t.kindFaulted r.owner = true → p r.owner = !met r) :
    s.servedFaults t met = (u.backlog.filter t.kindFaulted).map kindFault := by
  rw [State.servedFaults, backlog, List.filter_filter]
  refine congrArg (List.map kindFault) (List.filter_congr fun o ho => ?_)
  obtain ⟨r, row, rfl, queued⟩ := (law.queued o).mp ho
  cases faulted : t.kindFaulted r.owner with
  | false => simp
  | true =>
    have any : (s.refs.any fun q => decide (q.owner = r.owner) && decide (q.phase = .queued) && !met q) = !met r := by
      rw [Bool.eq_iff_iff, List.any_eq_true]
      constructor
      · rintro ⟨q, hq, all⟩
        simp only [Bool.and_eq_true, decide_eq_true_eq] at all
        rw [← eq_of_owner law.owners hq row all.1.1]
        exact all.2
      · exact fun unmet => ⟨r, row, by rw [unmet, queued, decide_eq_true rfl, decide_eq_true rfl]; rfl⟩
    rw [any, kept r row queued faulted, Bool.and_true, Bool.true_and]

theorem servedFaults_all (law : s.seekTables.Law) (backlog : u.backlog = s.backlog) :
    s.servedFaults t (fun _ => false) = (u.backlog.filter t.kindFaulted).map kindFault :=
  servedFaults_eq law (p := fun _ => true) (by rw [backlog, List.filter_true]) fun _ _ _ _ => rfl

/-! ## One more try (R69, R74) -/

/-- With a place free and one slot waiting, its SEEK is placed. -/
theorem arbitrate_slot_only (free : s.txQueue.length < Config.transmitRoom) {k : Nat} {x : Slot} (slot : s.slots[k]? = some (some x))
    (wanted : s.wanted = []) (waits : x.awaitingRoom = true) (state : x.state = .toSend)
    (others : ∀ (i : Nat) (y : Slot), i ≠ k → s.slots[i]? = some (some y) → y.awaitingRoom = true → y.state ≠ .toSend)
    (on : s.station ≠ .isolated) (order : List Bool) :
    s.arbitrate order =
      { s with txQueue := s.txQueue ++ [.seek k x.key], slots := s.slots.set k (some { x with awaitingRoom := false }) } := by
  have inside := (List.getElem?_eq_some_iff.mp slot).1
  have first : s.waitingSlot = some k := by
    rw [State.waitingSlot, List.findIdx?_eq_some_iff_getElem]
    refine ⟨inside, ?_, fun j hj => ?_⟩
    · rw [(List.getElem?_eq_some_iff.mp slot).2]
      simp only [waits, state, decide_true, Bool.and_self]
    · cases at_ : s.slots[j] with
      | none => simp
      | some y =>
        have old : s.slots[j]? = some (some y) := by rw [List.getElem?_eq_getElem (by omega), at_]
        by_cases asks : y.awaitingRoom = true
        · simp [others j y (by omega) old asks]
        · simp [asks]
  let t : State :=
    { s with txQueue := s.txQueue ++ [.seek k x.key], slots := s.slots.set k (some { x with awaitingRoom := false }) }
  have none_ : t.NoneWaiting := by
    refine ⟨wanted, fun y hy asks => ?_⟩
    obtain ⟨i, hi⟩ := List.mem_iff_getElem?.mp hy
    change (s.slots.set k _)[i]? = _ at hi
    by_cases here : i = k
    · subst here
      rw [List.getElem?_set_self inside] at hi
      cases hi
      cases asks
    · rw [List.getElem?_set_ne (Ne.symm here)] at hi
      exact others i y here hi asks
  have grant : s.grantSlot k = t := by rw [State.grantSlot, slot]
  have round : s.grantRounds 32 order = t.grantRounds 31 order := by
    rw [State.grantRounds, if_neg (by omega), first, wanted, ← grant]
  rw [State.arbitrate, if_neg on]
  exact round.trans (grantRounds_noneWaiting none_ _ _)

section
variable {n elapsed : Nat} {x : Slot} {c : ConfigRecord}

theorem exec_seekTimerExpiry (awake : s.inReset = false) (slot : s.slots[n]? = some (some x)) (config : s.config = some c)
    (timer : x.timer = true) (state : x.state = .out) (passed : c.seekTimeout ≤ elapsed) :
    exec (.seekTimerExpiry n elapsed) s = .next (s.expire n x c).settleAgent := by
  simp only [exec, execSeekTimerExpiry, slot, config, awake, timer, state, decide_eq_true passed]
  rfl

/-- The slot that tries again, asking for room or not. -/
def State.retried (s : State) (n : Nat) (x : Slot) (asks : Bool) : State :=
  { s with slots := s.slots.set n (some { key := x.key, state := .toSend, tries := x.tries + 1, timer := false, awaitingRoom := asks }) }

/-- No other slot waits where none did. -/
theorem retried_others (none_ : s.NoneWaiting) (asks : Bool) (i : Nat) (y : Slot) (other : i ≠ n)
    (slot : (s.retried n x asks).slots[i]? = some (some y)) (waits : y.awaitingRoom = true) : y.state ≠ .toSend := by
  change (s.slots.set n _)[i]? = _ at slot
  rw [List.getElem?_set_ne (Ne.symm other)] at slot
  exact none_.2 y (List.mem_of_getElem? slot) waits

/-- A slot whose SEEK is queued still asks for no room, and gets none. -/
theorem arbitrate_retried (on : s.station ≠ .isolated) (granted : s.RoomGranted) :
    (s.retried n x false).arbitrate [] = s.retried n x false := by
  refine arbitrate_idle (s := s.retried n x false) (granted.imp_left fun none_ => ⟨none_.1, fun y hy waits => ?_⟩) on []
  obtain ⟨i, slot⟩ := List.mem_iff_getElem?.mp hy
  by_cases here : i = n
  · subst here
    change (s.slots.set i _)[i]? = _ at slot
    rw [List.getElem?_set] at slot
    split at slot
    · split at slot
      · cases slot
        cases waits
      · cases slot
    · next other => exact absurd rfl other
  · exact retried_others none_ false i y here slot waits

theorem retry_slot_fits (on : s.station ≠ .isolated) (granted : s.RoomGranted) (room : s.txQueue.length < 32) (slot : s.slots[n]? = some (some x)) :
    (s.retried n x true).arbitrate [] = { s.retried n x false with txQueue := s.txQueue ++ [.seek n x.key] } := by
  have none_ : s.NoneWaiting := granted.resolve_right (by omega)
  have inside := (List.getElem?_eq_some_iff.mp slot).1
  have here : (s.retried n x true).slots[n]? =
      some (some { key := x.key, state := .toSend, tries := x.tries + 1, timer := false, awaitingRoom := true }) :=
    List.getElem?_set_self inside
  refine (arbitrate_slot_only (s := s.retried n x true) room here none_.1 rfl rfl (retried_others none_ true) on []).trans ?_
  simp only [State.retried, List.set_set]

end

/-! ## No try left (R75) -/

theorem exhaust_notices (s : State) (n : Nat) : (s.exhaust n).notices =
    ((s.refs.filter fun r => decide (r.phase = .seeking n)).map fun r => Notice.referenceUnresolved r.owner).foldl NoticeUnit.take s.notices := by
  have posts : ∀ (l : List Ref) (t : State),
      (l.foldl (fun t r => (t.setPhase r.owner .waiting).post (.referenceUnresolved r.owner)) t).notices =
        (l.map fun r => Notice.referenceUnresolved r.owner).foldl NoticeUnit.take t.notices := by
    intro l
    induction l with
    | nil => exact fun _ => rfl
    | cons r l ih => exact fun t => ih _
  exact posts _ s

theorem exhaust_kept (s : State) (n : Nat) :
    (s.exhaust n).wanted = s.wanted ∧ (s.exhaust n).patchQueue = s.patchQueue ∧ (s.exhaust n).modules = s.modules := by
  let step := fun (t : State) (r : Ref) => (t.setPhase r.owner .waiting).post (.referenceUnresolved r.owner)
  let hit := s.refs.filter fun r => decide (r.phase = .seeking n)
  exact ⟨foldl_kept State.wanted step (fun _ _ => rfl) hit s, foldl_kept State.patchQueue step (fun _ _ => rfl) hit s,
    foldl_kept State.modules step (fun _ _ => rfl) hit s⟩

theorem exhaust_slots (s : State) (n : Nat) : (s.exhaust n).slots = s.slots.set n none :=
  congrArg (List.set · n none) (foldl_kept State.slots (fun (t : State) (r : Ref) => (t.setPhase r.owner .waiting).post (.referenceUnresolved r.owner))
    (fun _ _ => rfl) (s.refs.filter fun r => decide (r.phase = .seeking n)) s)

theorem exhaust_slotsLeft (s : State) (n : Nat) : s.SlotsLeft (s.exhaust n) := by
  intro m y slot
  rw [exhaust_slots, List.getElem?_set] at slot
  split at slot
  · split at slot <;> cases slot
  · exact slot

theorem exhaust_ends (law : s.Seeks) (n : Nat) : s.ServedEnd (s.exhaust n) ((s.exhaust n).endEvent s) :=
  (exhaust_prepared law.sound law.served n).ends (exhaust_tables s n law.sound.law.owners).2 (exhaust_slotsLeft s n) []

/-- Settles O53: one more try asks for room as R138 has it; with none left the slot is freed and the backlog served. -/
theorem timerExpiry : Obligations.TimerExpiry := by
  intro s n elapsed x c awake slot config timer state passed retry queued
  have exec_ := exec_seekTimerExpiry awake slot config timer state passed
  refine ⟨fun left on granted => ?retry, fun none_ law => ?exhaust⟩
  case retry =>
    have again : s.expire n x c = (s.retried n x (!s.seekQueued n x.key)).arbitrate [] := if_pos left
    rw [again] at exec_
    refine ⟨fun held => ?_, fun new room => ?_, fun new full => ?_⟩
    · rw [(seekQueued_iff s n x.key).mpr held] at exec_
      rw [exec_]
      exact congrArg (fun t : State => Host.Outcome.next t.settleAgent) (arbitrate_retried on granted)
    · rw [Bool.eq_false_iff.mpr fun held => new ((seekQueued_iff s n x.key).mp held)] at exec_
      rw [exec_]
      exact congrArg (fun t : State => Host.Outcome.next t.settleAgent) (retry_slot_fits on granted room slot)
    · rw [Bool.eq_false_iff.mpr fun held => new ((seekQueued_iff s n x.key).mp held)] at exec_
      rw [exec_]
      exact congrArg (fun t : State => Host.Outcome.next t.settleAgent) (arbitrate_idle (s := s.retried n x true) (.inr full) on [])
  case exhaust =>
    have seeks := ((seekLaw_iff_seeks s).mp law).2
    have spent : s.expire n x c = (s.exhaust n).endEvent s := if_neg (by omega)
    rw [spent] at exec_
    have ends : s.ServedEnd (s.exhaust n) ((s.exhaust n).endEvent s).settleAgent := (exhaust_ends seeks n).agent rfl
    generalize ((s.exhaust n).endEvent s).settleAgent = t at exec_ ends
    have tables := (exhaust_tables s n seeks.sound.law.owners).1
    obtain ⟨wanted, patches, modules⟩ := exhaust_kept s n
    have refs : (s.exhaust n).refs = s.refs.map fun r => if r.phase = .seeking n then { r with phase := .waiting } else r :=
      congrArg SeekTables.refs tables
    have backlog : (s.exhaust n).backlog = s.backlog := congrArg SeekTables.backlog tables
    have inside : n < s.slots.length := (List.getElem?_eq_some_iff.mp slot).1
    have served := ends.served
    rw [tables] at served
    refine ⟨t, exec_, (exhaust_frame s n).trans ends.frame, ?_, fun r row seeking => ?_, fun r row other waits => ?_, fun empty => ?_,
      fun i y other old => ?_, served, patches ▸ ends.walks, wanted ▸ ends.granted, ?_⟩
    · rw [ends.owners, refs, List.map_map]
      exact List.map_congr_left fun r _ => by dsimp only [Function.comp]; split <;> rfl
    · refine ends.settled _ ?_ fun h => nomatch h
      rw [refs]
      exact List.mem_map.mpr ⟨r, row, if_pos seeking⟩
    · refine ends.settled _ ?_ waits
      rw [refs]
      exact List.mem_map.mpr ⟨r, row, if_neg other⟩
    · refine served.slot_free empty (List.getElem?_set_self ?_)
      rw [State.slotsUnasked, List.length_map]
      exact inside
    · refine served.slot_kept ?_
      rw [List.getElem?_set_ne (Ne.symm other)]
      exact unasked_of_some old
    · have states : (s.exhaust n).newStates t none = s.newStates t none := newStates_congr modules rfl
      rw [State.PostsInTurn, ends.notices, exhaust_notices, states, servedFaults_all seeks.sound.law backlog, List.append_nil]
      simp only [List.foldl_append]

end Sys2Proof.Machine

/-! The end of a site's transfer (R114, R117 to R119, R122, R123, R125). -/

namespace Sys2Proof.Machine

variable {s t u b : State} {env : Env} {x : SiteTransfer}

/-! ## Statements about a state that has the same slots and the same queue -/

theorem State.Granted.base {wanted : List TxEntry} (h : b.Granted t wanted) (queue : b.txQueue = s.txQueue) (slots : b.slots = s.slots) : s.Granted t wanted := by
  have holds : ∀ (n : Nat) (k : Key), b.HoldsSeek n k ↔ s.HoldsSeek n k := fun n k => by simp only [State.HoldsSeek, queue]
  obtain ⟨gs, grants⟩ := h
  refine ⟨gs, ⟨queue ▸ grants.queue, grants.isolated, grants.command, grants.ascending, fun n k member => ?_, fun on n x y old => ?_⟩⟩
  · rw [← holds, ← slots]
    exact grants.seeks n k member
  · exact grants.kept on n x y (slots ▸ old)

theorem State.ServedFrom.base {y : SeekTables} (h : b.ServedFrom t y) (queue : b.txQueue = s.txQueue) : s.ServedFrom t y := by
  have holds : ∀ (n : Nat) (k : Key), b.HoldsSeek n k ↔ s.HoldsSeek n k := fun n k => by simp only [State.HoldsSeek, queue]
  refine ⟨h.serving, fun n z free taken => ?_⟩
  obtain ⟨isolated, held, asks⟩ := h.seeks n z free taken
  exact ⟨isolated, fun has => held ((holds _ _).mpr has), fun on new => queue ▸ asks on fun has => new ((holds _ _).mp has)⟩

/-! ## The transfer (R114, R122) -/

/-- The station after the transfer, which was acknowledged. -/
def State.sited (s : State) (env : Env) (x : SiteTransfer) : State :=
  { (s.forTransfers env).siteWritten x with transfer := none }

/-- The transfer has failed by an unacknowledged word. -/
def SiteTransfer.Fails (x : SiteTransfer) (env : Env) : Prop :=
  env.failAt = some 0 ∨ (env.failAt = some 1 ∧ x.site.form ≠ .a32)

/-- The station after a transfer that failed: a write leaves a free value in the site. -/
def State.unsited (s : State) (env : Env) (x : SiteTransfer) : State :=
  let mem := s.mem.afterStores env.stores
  let unknown := x.site.form = .a32 ∨ env.failAt = some 1
  { s with
    mem := if unknown then mem.setWord x.site.wordAddress (x.site.newWord (mem.word x.site.wordAddress) (Config.unknownWord s.freeCount)) else mem
    freeCount := if unknown then s.freeCount + 1 else s.freeCount
    transfer := none }

theorem acks_iff {k a : Nat} (inside : a < 0x10000000) : acks env k a = true ↔ env.failAt ≠ some k := by
  have reaches : decide (a < Config.localBytes) = true := decide_eq_true inside
  rw [acks, reaches, Bool.and_true, decide_eq_true_iff]

theorem makeTransfer_acked (inside : x.site.wordAddress < 0x10000000) (good : ¬ x.Fails env) :
    s.makeTransfer env x = (s.siteWritten x, true) := by
  obtain ⟨first, second⟩ := not_or.mp good
  have read := (acks_iff (env := env) (k := 0) inside).mpr first
  unfold State.makeTransfer
  by_cases form : x.site.form = .a32
  · simp only [form, if_true, read]
  · have write := (acks_iff (env := env) (k := 1) inside).mpr fun fails => second ⟨fails, form⟩
    simp only [if_neg form, read, write, if_true]

theorem makeTransfer_failed (inside : x.site.wordAddress < 0x10000000) (fails : x.Fails env) :
    s.makeTransfer env x =
      (if x.site.form = .a32 ∨ env.failAt = some 1 then s.siteSpoilt x else s, false) := by
  have read := acks_iff (env := env) (k := 0) inside
  have write := acks_iff (env := env) (k := 1) inside
  unfold State.makeTransfer
  obtain first | ⟨second, form⟩ := fails
  · have unread : acks env 0 x.site.wordAddress = false := Bool.eq_false_iff.mpr fun acked => read.mp acked first
    by_cases form : x.site.form = .a32
    · simp [form, unread]
    · simp [form, unread, first]
  · have acked := read.mpr (by rw [second]; exact fun h => nomatch h)
    have unwritten : acks env 1 x.site.wordAddress = false := Bool.eq_false_iff.mpr fun acked => write.mp acked second
    simp [form, acked, unwritten, second]

theorem exec_siteWriteDone (awake : s.inReset = false) (transfer : s.transfer = some x) (granted : .patchEngine ∈ s.granted) :
    exec (.siteWriteDone env) s = .next (((s.forTransfers env).endTransfer env x).served .patchEngine) := by
  simp only [exec, execSiteWriteDone, transfer, mayTransfer_of awake granted, if_true]

theorem endTransfer_acked (inside : x.site.wordAddress < 0x10000000) (good : ¬ x.Fails env) :
    (s.forTransfers env).endTransfer env x =
      match s.walk with
      | none => s.sited env x
      | some w => ((s.sited env x).afterSite w).endEvent (s.sited env x) := by
  simp only [State.endTransfer, makeTransfer_acked inside good]
  rfl

theorem cleared_unsited (s : State) (env : Env) (x : SiteTransfer) :
    ({ (if x.site.form = .a32 ∨ env.failAt = some 1 then (s.forTransfers env).siteSpoilt x else s.forTransfers env) with
       transfer := none } : State) = s.unsited env x := by
  by_cases unknown : x.site.form = .a32 ∨ env.failAt = some 1
  · simp only [State.unsited, if_pos unknown, State.siteSpoilt, State.siteWritten, State.forTransfers]
  · simp only [State.unsited, if_neg unknown, State.forTransfers]

theorem endTransfer_failed (inside : x.site.wordAddress < 0x10000000) (fails : x.Fails env) :
    (s.forTransfers env).endTransfer env x =
      match s.walk with
      | none => s.unsited env x
      | some w => ((s.unsited env x).busFault w.ref w.next).endEvent (s.unsited env x) := by
  rw [State.endTransfer, makeTransfer_failed inside fails]
  dsimp only
  rw [cleared_unsited]
  cases walk : s.walk <;> simp only [State.forTransfers, walk] <;> rfl

/-! ## The walk goes on (R117 to R119) -/

/-- What the event leaves where the walk goes on. -/
structure State.GoesOn (s : State) (env : Env) (x : SiteTransfer) (t : State) : Prop where
  frame : ReferenceFrame { s.sited env x with walk := t.walk, transfer := t.transfer } t
  seeks : s.SeeksKept t
  granted : s.Granted t s.wanted

theorem State.BeginsIn.goesOn {p : State} {r : Ref} {v : WalkValue} {values : List Word}
    (h : (s.sited env x).BeginsIn p t r v values) : s.GoesOn env x t :=
  ⟨h.frame, ⟨h.seeks.slots, h.seeks.backlog⟩, h.granted.base rfl rfl⟩

theorem State.QuietEnd.goesOn (h : (s.sited env x).QuietEnd u t)
    (frame : ReferenceFrame { s.sited env x with walk := u.walk, transfer := u.transfer } u) : s.GoesOn env x t := by
  refine ⟨?_, ⟨h.seeks.slots, h.seeks.backlog⟩, h.granted.base rfl rfl⟩
  rw [h.frame.walk, h.frame.transfer]
  exact frame.trans h.frame

theorem State.QuietEnd.inTurn (h : (s.sited env x).QuietEnd u t) (unposted : u.notices = s.notices) : s.PostsInTurn t [] [] := by
  rw [State.PostsInTurn, List.nil_append, List.append_nil, h.notices, unposted]
  rfl

theorem nextSite_walked (s : State) (w : Walk) (y : Site) :
    ReferenceFrame { s with walk := (s.nextSite w y).walk, transfer := (s.nextSite w y).transfer } (s.nextSite w y) :=
  { ReferenceFrame.refl (s.nextSite w y) with }

theorem completeWalk_walked (s : State) (o : Owner) (v : WalkValue) :
    ReferenceFrame { s with walk := (s.completeWalk o v).walk, transfer := (s.completeWalk o v).transfer } (s.completeWalk o v) := by
  rw [completeWalk_eq s o v]
  exact { ReferenceFrame.refl { s with walk := none } with }

/-- What is left of the walk, the transfer, the patch queue and the notices. -/
theorem completeWalk_fields (s : State) (o : Owner) (v : WalkValue) :
    (s.completeWalk o v).walk = none ∧ (s.completeWalk o v).transfer = s.transfer ∧
      (s.completeWalk o v).patchQueue = s.patchQueue.erase o ∧ (s.completeWalk o v).notices = s.notices := by
  rw [completeWalk_eq s o v]
  exact ⟨rfl, rfl, rfl, rfl⟩

theorem nextSite_others (s : State) (w : Walk) (y : Site) :
    (s.nextSite w y).refs = s.refs ∧ (s.nextSite w y).notices = s.notices := ⟨rfl, rfl⟩

theorem sited_others (s : State) (env : Env) (x : SiteTransfer) : (s.sited env x).refs = s.refs ∧ (s.sited env x).notices = s.notices ∧
    (s.sited env x).patchQueue = s.patchQueue := ⟨rfl, rfl, rfl⟩

theorem post_setPhase_patchQueue (s : State) (o : Owner) (p : Phase) (n : Notice) : ((s.setPhase o p).post n).patchQueue = s.patchQueue := rfl

theorem sited_stubValue (s : State) (env : Env) (x : SiteTransfer) : (s.sited env x).stubValue = s.stubValue := rfl

section
variable {w : Walk} {r : Ref}

theorem afterSite_row (row : s.ref? w.ref = some r) : s.afterSite w =
    if r.currentValue ≠ w.value then s.computeWalk r
    else match r.sites[w.next]? with
      | some y => s.nextSite w y
      | none => s.completeWalk r.owner w.value := by
  simp only [State.afterSite, row] <;> rfl

/-- The state in which the event of an acknowledged transfer ends. -/
def State.wentOn (s : State) (env : Env) (x : SiteTransfer) (u : State) : State :=
  (u.endEvent (s.sited env x)).served .patchEngine

theorem wentOn_ends (quiet : (s.sited env x).Quiet u) : (s.sited env x).QuietEnd u (s.wentOn env x u) :=
  quiet.ends.agent rfl

theorem exec_wentOn (awake : s.inReset = false) (transfer : s.transfer = some x) (granted : .patchEngine ∈ s.granted)
    (inside : x.site.wordAddress < 0x10000000) (good : ¬ x.Fails env) (walk : s.walk = some w) :
    exec (.siteWriteDone env) s = .next (s.wentOn env x ((s.sited env x).afterSite w)) := by
  rw [exec_siteWriteDone awake transfer granted, endTransfer_acked inside good, walk]
  rfl

end

/-! ## The BUS fault (R102, R122, R123) -/

theorem freeEmptySlots_slotsLeft (s : State) : s.SlotsLeft s.freeEmptySlots := by
  intro n y slot
  change (keepUsedSlots s.refs 0 s.slots)[n]? = _ at slot
  rw [keepUsedSlots_eq, List.getElem?_mapIdx, Option.map_eq_some_iff] at slot
  obtain ⟨o, old, kept⟩ := slot
  split at kept
  · exact kept ▸ old
  · cases kept

theorem busFault_slotsLeft (s : State) (o : Owner) (k : Nat) : s.SlotsLeft (s.busFault o k) := by
  rw [busFault_eq]
  exact freeEmptySlots_slotsLeft (s.busFaulted o k)

/-- All but the walk and what events may change is as it was. -/
theorem busFault_walkless (s : State) (o : Owner) (k : Nat) : ReferenceFrame { s with walk := none } (s.busFault o k) := by
  rw [busFault_eq]
  refine ReferenceFrame.trans ?_ (freeEmptySlots_frame _)
  exact { ReferenceFrame.refl { s with walk := none } with }

theorem slotsOf_kept {keeps : Ref → Bool} {n : Nat} {y : Slot} (slot : s.slots[n]? = some (some y))
    (used : ∃ q ∈ s.refs, keeps q = true ∧ q.phase = .seeking n) : (s.slotsOf keeps)[n]? = some (some y.unasked) := by
  obtain ⟨q, hq, kept, seeks⟩ := used
  rw [State.slotsOf, List.getElem?_mapIdx, unasked_of_some slot, Option.map_some,
    if_pos (List.any_eq_true.mpr ⟨q, hq, by rw [kept, decide_eq_true seeks]; rfl⟩)]

theorem slotsOf_free {keeps : Ref → Bool} {n : Nat} (inside : n < s.slots.length)
    (unused : ∀ q ∈ s.refs, q.phase = .seeking n → keeps q = false) : (s.slotsOf keeps)[n]? = some none := by
  have slot : s.slotsUnasked[n]? = some (s.slots[n].map Slot.unasked) := by
    rw [slotsUnasked_getElem?, List.getElem?_eq_getElem inside]
    rfl
  rw [State.slotsOf, List.getElem?_mapIdx, slot, Option.map_some, if_neg]
  rw [List.any_eq_true]
  rintro ⟨q, hq, both⟩
  obtain ⟨kept, seeks⟩ := (Bool.and_eq_true _ _).mp both
  rw [unused q hq (of_decide_eq_true seeks)] at kept
  cases kept

theorem busFault_ends (law : s.Seeks) (o : Owner) (k : Nat) : s.ServedEnd (s.busFault o k) ((s.busFault o k).endEvent s) :=
  (busFault_prepared law o k).ends rfl (busFault_slotsLeft s o k) []

/-- What the event leaves that ends with a BUS fault of `r` at site `k`; before the fault the station was `b`. -/
structure State.Faults (b t : State) (r : Ref) (k : Nat) : Prop where
  frame : ReferenceFrame { b with walk := none } t
  row : r.busFaulted ∈ t.refs
  others : ∀ q ∈ b.refs, q.owner ≠ r.owner → q.phase ≠ .queued → q ∈ t.refs
  left : r.owner ∉ t.backlog
  walks : t.WalksJoined (b.patchQueue.erase r.owner)
  granted : b.Granted t b.wanted
  served : b.ServedFrom t
    { refs := b.refs.map fun q => if q.owner = r.owner then r.busFaulted else q
      slots := b.slotsOf fun q => decide (q.owner ≠ r.owner)
      backlog := b.backlog.filter fun o => decide (o ≠ r.owner) }
  notices : b.PostsInTurn t (.referenceFaulted r.owner .bus k :: b.servedFaults t fun _ => false) []

theorem busFault_faults (law : b.Seeks) {r : Ref} (row : r ∈ b.refs) {k : Nat} (ends : b.ServedEnd (b.busFault r.owner k) t) :
    b.Faults t r k := by
  have once : (b.refs.map (·.owner)).Nodup := law.sound.law.owners
  have tables := (busFault_tables b r k once row).1
  have refs : (b.busFault r.owner k).refs = b.refs.map fun q => if q.owner = r.owner then r.busFaulted else q :=
    congrArg SeekTables.refs tables
  have backlog : (b.busFault r.owner k).backlog = b.backlog.filter fun o => decide (o ≠ r.owner) := congrArg SeekTables.backlog tables
  have served := ends.served
  rw [tables] at served
  have sound : t.seekTables.Sound := ends.served.serving.sound (busFault_prepared law r.owner k).sound
  have faulted : r.busFaulted ∈ t.refs := by
    refine ends.settled _ ?_ fun h => nomatch h
    rw [refs]
    exact List.mem_map.mpr ⟨r, row, if_pos rfl⟩
  have unkind : t.kindFaulted r.owner = false := by
    rw [← show r.busFaulted.owner = r.owner from rfl, kindFaulted_of_row sound.law.owners faulted]
    rfl
  refine ⟨(busFault_walkless b r.owner k).trans ends.frame, faulted, fun q hq other waits => ?_, fun queued => ?_, ends.walks, ends.granted,
    served, ?_⟩
  · refine ends.settled _ ?_ waits
    rw [refs]
    exact List.mem_map.mpr ⟨q, hq, if_neg other⟩
  · obtain ⟨q, hq, owner, waits⟩ := (sound.law.queued r.owner).mp queued
    rw [eq_of_owner sound.law.owners hq faulted owner] at waits
    cases waits
  · have faults : b.servedFaults t (fun _ => false) = ((b.busFault r.owner k).backlog.filter t.kindFaulted).map kindFault :=
      servedFaults_eq law.sound.law backlog fun q hq _ kind => decide_eq_true fun owner => by
        rw [owner, unkind] at kind
        cases kind
    rw [State.PostsInTurn, List.append_nil, ends.notices, faults]
    rfl

end Sys2Proof.Machine

/-! SITE_WRITE_DONE (R114, R117 to R119, R122, R123, R125). -/

namespace Sys2Proof.Machine

variable {s t u : State} {env : Env} {x : SiteTransfer} {w : Walk} {r : Ref}

theorem nextSite_quiet (s : State) (w : Walk) (y : Site) : s.Quiet (s.nextSite w y) := ⟨rfl, rfl, rfl, rfl, rfl⟩

theorem completeWalk_quiet (s : State) (o : Owner) (v : WalkValue) : s.Quiet (s.completeWalk o v) := by
  rw [completeWalk_eq s o v]
  exact ⟨rfl, rfl, rfl, rfl, rfl⟩

section
variable (awake : s.inReset = false) (transfer : s.transfer = some x) (granted : .patchEngine ∈ s.granted)
  (inside : x.site.wordAddress < 0x10000000) (good : ¬ x.Fails env) (walk : s.walk = some w) (row : s.ref? w.ref = some r)
include awake transfer granted inside good walk row

/-- The value is still the current one, and a site is left. -/
theorem siteWriteDone_next (current : r.currentValue = w.value) {y : Site} (more : r.sites[w.next]? = some y) :
    ∃ t, exec (.siteWriteDone env) s = .next t ∧ s.GoesOn env x t ∧ t.WalksJoined s.patchQueue ∧ t.refs = s.refs ∧
      t.walk = some { w with next := w.next + 1 } ∧ t.transfer = some { site := y, value := w.computed.getD w.next 0 } ∧
      s.PostsInTurn t [] [] := by
  have after : (s.sited env x).afterSite w = (s.sited env x).nextSite w y := by
    rw [afterSite_row (s := s.sited env x) row, if_neg (not_not.mpr current), more]
  have exec_ := exec_wentOn awake transfer granted inside good walk
  rw [after] at exec_
  obtain ⟨refs, notices⟩ := nextSite_others (s.sited env x) w y
  obtain ⟨refs', notices', -⟩ := sited_others s env x
  have ends := wentOn_ends (nextSite_quiet (s.sited env x) w y)
  exact ⟨_, exec_, ends.goesOn (nextSite_walked _ w y), ends.walks, ends.refs.trans (refs.trans refs'),
    ends.frame.walk, ends.frame.transfer, ends.inTurn (notices.trans notices')⟩

/-- The value is still the current one, and this was the last site. -/
theorem siteWriteDone_complete (once : (s.refs.map (·.owner)).Nodup) (current : r.currentValue = w.value)
    (last : r.sites[w.next]? = none) :
    ∃ t, exec (.siteWriteDone env) s = .next t ∧ s.GoesOn env x t ∧
      (t.refs = s.refs.map fun y => if y.owner = r.owner then r.completed w.value else y) ∧ t.walk = none ∧ t.transfer = none ∧
      t.WalksJoined (s.patchQueue.erase w.ref) ∧ s.PostsInTurn t [] [] := by
  obtain ⟨member, owner⟩ := mem_of_ref? row
  have after : (s.sited env x).afterSite w = (s.sited env x).completeWalk r.owner w.value := by
    rw [afterSite_row (s := s.sited env x) row, if_neg (not_not.mpr current), last]
  have exec_ := exec_wentOn awake transfer granted inside good walk
  rw [after] at exec_
  have refs := completeWalk_refs (s := s.sited env x) w.value once member
  have ends := wentOn_ends (completeWalk_quiet (s.sited env x) r.owner w.value)
  have frame := completeWalk_walked (s.sited env x) r.owner w.value
  obtain ⟨walk', transfer', patches, notices⟩ := completeWalk_fields (s.sited env x) r.owner w.value
  generalize (s.sited env x).completeWalk r.owner w.value = u at exec_ refs ends frame walk' transfer' patches notices
  refine ⟨_, exec_, ends.goesOn frame, ends.refs.trans refs, ends.frame.walk.trans walk', ends.frame.transfer.trans transfer', ?_,
    ends.inTurn notices⟩
  rw [← owner]
  exact patches ▸ ends.walks

/-- The value is no longer the current one: the compute pass begins the walk again, after the changes that leave `p`. -/
theorem siteWriteDone_again (stale : r.currentValue ≠ w.value) {p : State} {v : WalkValue} {values : List Word}
    (quiet : (s.sited env x).Quiet p) (frame : ReferenceFrame (s.sited env x) p) (patches : p.patchQueue = s.patchQueue)
    (begins : p.Writes ((s.sited env x).computeWalk r) r v values) :
    ∃ t, exec (.siteWriteDone env) s = .next t ∧ s.GoesOn env x t ∧ t.WalksJoined s.patchQueue ∧ t.refs = p.refs ∧
      t.Writing r.owner v r.sites values ∧ t.notices = (s.newStates t none).foldl NoticeUnit.take p.notices := by
  have after : (s.sited env x).afterSite w = (s.sited env x).computeWalk r := by
    rw [afterSite_row (s := s.sited env x) row, if_pos stale]
  have exec_ := exec_wentOn awake transfer granted inside good walk
  rw [after] at exec_
  have ends := (wentOn_ends (quiet.writes begins)).begins frame begins
  exact ⟨_, exec_, ends.goesOn, patches ▸ ends.walks, ends.refs, ends.writing, ends.notices⟩

end

/-- The three outcomes of the compute pass that begins a walk again. -/
theorem siteWriteDone_recomputes (awake : s.inReset = false) (transfer : s.transfer = some x) (granted : .patchEngine ∈ s.granted)
    (inside : x.site.wordAddress < 0x10000000) (good : ¬ x.Fails env) (walk : s.walk = some w) (row : r ∈ s.refs) (found : s.ref? w.ref = some r)
    (once : (s.refs.map (·.owner)).Nodup) (stale : r.currentValue ≠ w.value) (some_ : r.sites ≠ []) {goesOn : State → Prop}
    (goes : ∀ t, s.GoesOn env x t → goesOn t) :
    (r.phase.binding? = none →
      ∃ t, exec (.siteWriteDone env) s = .next t ∧ goesOn t ∧ t.WalksJoined s.patchQueue ∧ t.refs = s.refs ∧
        t.Writing r.owner .stub r.sites (r.sites.map s.stubValue) ∧ s.PostsInTurn t [] []) ∧
    (∀ b values, r.phase.binding? = some b →
      List.Forall₂ (fun x v => Site.encode s.number x b.target = some v) r.sites values →
      ∃ t, exec (.siteWriteDone env) s = .next t ∧ goesOn t ∧ t.WalksJoined s.patchQueue ∧ t.refs = s.refs ∧
        t.Writing r.owner (.binding b) r.sites values ∧ s.PostsInTurn t [] []) ∧
    ∀ b before y after, r.phase.binding? = some b → r.sites = before ++ y :: after →
      (∀ z ∈ before, (Site.encode s.number z b.target).isSome = true) → Site.encode s.number y b.target = none →
      ∃ t, exec (.siteWriteDone env) s = .next t ∧ goesOn t ∧ t.WalksJoined s.patchQueue ∧
        (t.refs = s.refs.map fun q => if q.owner = r.owner then { r with phase := .faulted .fit } else q) ∧
        t.Writing r.owner .stub r.sites (r.sites.map s.stubValue) ∧
        s.PostsInTurn t [.referenceFaulted r.owner .fit (before.length + 1)] [] := by
  have self : (s.sited env x).Quiet (s.sited env x) := ⟨rfl, rfl, rfl, rfl, rfl⟩
  have unposted : ∀ {t : State}, t.notices = (s.newStates t none).foldl NoticeUnit.take s.notices → s.PostsInTurn t [] [] := by
    intro t notices
    rw [State.PostsInTurn, List.nil_append, List.append_nil]
    exact notices
  refine ⟨fun unbound => ?_, fun b values bound fits => ?_, fun b before y after bound sites fits misfit => ?_⟩
  · obtain ⟨t, next, h, walks, refs, writing, notices⟩ := siteWriteDone_again awake transfer granted inside good walk found stale
      self (.refl _) rfl (computeWalk_stub (s := s.sited env x) some_ unbound)
    exact ⟨t, next, goes t h, walks, refs, writing, unposted notices⟩
  · obtain ⟨t, next, h, walks, refs, writing, notices⟩ := siteWriteDone_again awake transfer granted inside good walk found stale
      self (.refl _) rfl (computeWalk_binding (s := s.sited env x) some_ bound fits)
    exact ⟨t, next, goes t h, walks, refs, writing, unposted notices⟩
  · let p : State := ((s.sited env x).setPhase r.owner (.faulted .fit)).post (.referenceFaulted r.owner .fit (before.length + 1))
    have patches : p.patchQueue = s.patchQueue := (post_setPhase_patchQueue (s.sited env x) _ _ _).trans (sited_others s env x).2.2
    have faults : ReferenceFrame (s.sited env x) p := (setPhase_frame _ r.owner _).trans (post_frame _ _)
    obtain ⟨t, next, h, walks, refs, writing, notices⟩ := siteWriteDone_again awake transfer granted inside good walk found stale
      (p := p) ⟨rfl, rfl, rfl, rfl, rfl⟩ faults patches (computeWalk_misfit (s := s.sited env x) bound sites fits misfit)
    refine ⟨t, next, goes t h, walks, ?_, writing, ?_⟩
    · exact refs.trans (map_owner_eq once row fun x => { x with phase := .faulted .fit })
    · rw [State.PostsInTurn, List.append_nil, List.foldl_append]
      exact notices

/-- What a failed transfer leaves where a walk is in progress. -/
theorem siteWriteDone_fault (awake : s.inReset = false) (transfer : s.transfer = some x) (granted : .patchEngine ∈ s.granted)
    (inside : x.site.wordAddress < 0x10000000) (fails : x.Fails env) (walk : s.walk = some w) (row : r ∈ s.refs)
    (owner : r.owner = w.ref) (law : s.Seeks) :
    ∃ t, exec (.siteWriteDone env) s = .next t ∧ (s.unsited env x).Faults t r w.next := by
  have exec_ := exec_siteWriteDone (env := env) awake transfer granted
  rw [endTransfer_failed inside fails, walk] at exec_
  dsimp only at exec_
  rw [← owner] at exec_
  have seeks : (s.unsited env x).Seeks := law.congr rfl rfl rfl
  exact ⟨_, exec_, busFault_faults seeks row ((busFault_ends seeks r.owner w.next).agent rfl)⟩

/-- Settles O55: after a good transfer the event touches no seek slot; a failed one faults the reference, and the backlog is served. -/
theorem siteWriteDone : Obligations.SiteWriteDone := by
  intro s env x awake transfer granted inside mem written becomes goesOn keepsPlace fails
  have goes : ∀ t, s.GoesOn env x t → goesOn t := fun t h => ⟨h.frame, h.seeks, h.granted⟩
  refine ⟨fun good => ⟨fun none_ => ?gone, fun w r walk row owner once => ?good⟩, fun bad => ?bad⟩
  case gone =>
    rw [exec_siteWriteDone awake transfer granted, endTransfer_acked inside good]
    split
    · rfl
    · next walk => exact absurd (none_.symm.trans walk) (fun h => nomatch h)
  case good =>
    have found : s.ref? w.ref = some r := owner ▸ ref?_of_row once row
    refine ⟨fun current => ⟨fun y more => ?_, fun last => ?_⟩, fun stale some_ => ?_⟩
    · obtain ⟨t, next, h, rest⟩ := siteWriteDone_next awake transfer granted inside good walk found current more
      exact ⟨t, next, goes t h, rest⟩
    · obtain ⟨t, next, h, rest⟩ := siteWriteDone_complete awake transfer granted inside good walk found once current last
      exact ⟨t, next, goes t h, rest⟩
    · exact siteWriteDone_recomputes awake transfer granted inside good walk row found once stale some_ goes
  case bad =>
    refine ⟨fun none_ => ?_, fun w r walk row owner law => ?_⟩
    · rw [exec_siteWriteDone awake transfer granted, endTransfer_failed inside bad]
      split
      · rfl
      · next walk => exact absurd (none_.symm.trans walk) (fun h => nomatch h)
    · have seeks := ((seekLaw_iff_seeks s).mp law).2
      obtain ⟨t, next, faults⟩ := siteWriteDone_fault awake transfer granted inside bad walk row owner seeks
      have served : s.ServedFrom t
          { refs := s.refs.map fun q => if q.owner = r.owner then r.busFaulted else q
            slots := s.slotsOf fun q => decide (q.owner ≠ r.owner)
            backlog := s.backlog.filter fun o => decide (o ≠ r.owner) } := faults.served.base rfl
      refine ⟨t, next, faults.frame, faults.row, faults.others, faults.left, owner ▸ faults.walks, faults.granted.base rfl rfl,
        served.backlogServed, served, fun n y slot => ⟨fun ⟨q, hq, other, seeks⟩ => ?_, fun only empty => ?_⟩, faults.notices⟩
      · exact served.slot_kept (slotsOf_kept slot ⟨q, hq, decide_eq_true other, seeks⟩)
      · refine served.slot_free ?_ (slotsOf_free (List.getElem?_eq_some_iff.mp slot).1 fun q hq seeks => ?_)
        · change s.backlog.filter _ = []
          rw [empty]
          rfl
        · exact decide_eq_false (not_not.mpr (only q hq seeks))

end Sys2Proof.Machine

/-! A taken OFFER, ANNOUNCE or CLASH: the references of its key (R79 to R81, R98, R99). -/

namespace Sys2Proof.Machine

variable {s t u : State} {k : Key} {b : Binding} {refused : List Pair} {f : Frame} {c : Instr} {rest : List RxItem}

/-! ## What the Directory does with the claim (R42 to R45, R52, R55) -/

theorem meetClaim_eq (s : State) (k : Key) (p : Pair) (refused : List Pair) : s.meetClaim k p refused =
    { s with directory := (s.meetClaim k p refused).directory, answers := (s.meetClaim k p refused).answers
             line := (s.meetClaim k p refused).line, notices := (s.meetClaim k p refused).notices } := by
  unfold State.meetClaim State.refuse State.oweClash
  split
  · rfl
  · split
    · rfl
    · split
      · rfl
      · split <;> rfl
    · rfl
    · rfl

theorem meetOwnAnnounce_eq (s : State) (k : Key) (g : Half) :
    s.meetOwnAnnounce k g = { s with directory := (s.meetOwnAnnounce k g).directory } := by
  unfold State.meetOwnAnnounce
  split
  · rfl
  · split <;> rfl

theorem claims_eq (s : State) (f : Frame) (c : Instr) (k : Key) (b : Binding) (refused : List Pair) :
    ∃ directory answers line notices, s.claims f c k b refused = { s with directory, answers, line, notices } := by
  unfold State.claims
  split
  · split
    · exact ⟨_, _, _, _, meetOwnAnnounce_eq s k b.generation⟩
    · exact ⟨_, _, _, _, rfl⟩
  · exact ⟨_, _, _, _, meetClaim_eq s k b.pair refused⟩

/-- The members of the answer list that the claim refuses. -/
def State.refusedBy (s : State) (f : Frame) (k : Key) (b : Binding) (refused : List Pair) (o : Owner) : Prop :=
  .exportRefused o b.definer ∈ s.refusals f k b refused

theorem refusals_own (own : f.sender = s.number) : s.refusals f k b refused = [] := by
  unfold State.refusals
  split
  · exact if_neg fun h => h.1 own
  · rfl

theorem refusals_of_none (none_ : s.entryOf k = none) : s.refusals f k b refused = [] := by
  rw [State.refusals, show s.directory.find? (fun e => e.key.agrees k) = none from none_]

theorem refusals_of_refused {e : ExportEntry} (found : s.entryOf k = some e) (other : f.sender ≠ s.number)
    (h : e.state = .pending ∨ e.isLive = true ∧ ({ station := s.number, generation := e.generation } : Pair) ∈ refused) :
    s.refusals f k b refused = [.exportRefused e.owner b.definer] := by
  rw [State.refusals, show s.directory.find? (fun e => e.key.agrees k) = some e from found]
  exact if_pos ⟨other, h⟩

theorem refusals_of_kept {e : ExportEntry} (found : s.entryOf k = some e)
    (h : ¬ (e.state = .pending ∨ e.isLive = true ∧ ({ station := s.number, generation := e.generation } : Pair) ∈ refused)) :
    s.refusals f k b refused = [] := by
  rw [State.refusals, show s.directory.find? (fun e => e.key.agrees k) = some e from found]
  exact if_neg fun both => h both.2

/-- What the claim posts, and that it abandons a frame of the entry that it refuses. -/
structure State.Claimed (s u : State) (f : Frame) (k : Key) (b : Binding) (refused : List Pair) : Prop where
  notices : u.notices = (s.refusals f k b refused).foldl NoticeUnit.take s.notices
  line : s.AnswersLeft u (s.refusedBy f k b refused)

theorem claimed_of_none (none_ : s.refusals f k b refused = []) (notices : u.notices = s.notices) (line : u.line = s.line) :
    s.Claimed u f k b refused := by
  refine ⟨by rw [none_]; exact notices, fun o g _ gone => ?_, fun _ => line⟩
  rw [State.refusedBy, none_] at gone
  cases gone

theorem refuse_claimed {e : ExportEntry} (one : s.refusals f k b refused = [.exportRefused e.owner b.definer]) :
    s.Claimed (s.refuse e.owner b.pair) f k b refused := by
  have gone : ∀ o, s.refusedBy f k b refused o ↔ o = e.owner := by
    intro o
    rw [State.refusedBy, one, List.mem_singleton, Notice.exportRefused.injEq]
    exact and_iff_left rfl
  obtain ⟨stopped, other⟩ := abandon_left s.line fun x => decide (x = e.owner)
  refine ⟨by rw [one]; rfl, fun o g contends out => stopped o g contends (decide_eq_true ((gone o).mp out)), fun stays => other ?_⟩
  exact fun o g contends => decide_eq_false fun same => stays o g contends ((gone o).mpr same)

theorem meetClaim_claimed (other : f.sender ≠ s.number) : s.Claimed (s.meetClaim k b.pair refused) f k b refused := by
  cases found : s.entryOf k with
  | none =>
    rw [meetClaim_of_none found]
    exact claimed_of_none (refusals_of_none found) rfl rfl
  | some e =>
    cases state : e.state with
    | pending =>
      rw [meetClaim_refuses found _ (.inl state)]
      exact refuse_claimed (refusals_of_refused found other (.inl state))
    | live owed =>
      have live : e.isLive = true := by rw [ExportEntry.isLive, state]; rfl
      by_cases named : ({ station := s.number, generation := e.generation } : Pair) ∈ refused
      · rw [meetClaim_refuses found _ (.inr ⟨owed, state, named⟩)]
        exact refuse_claimed (refusals_of_refused found other (.inr ⟨live, named⟩))
      · rw [meetClaim_records found _ state named]
        obtain ⟨-, line, notices⟩ := oweClash_others (s.setEntry e.owner (.live (recordPair owed b.pair))) e.owner
        refine claimed_of_none (refusals_of_kept found ?_) notices line
        rintro (pending | ⟨-, both⟩)
        · cases state.symm.trans pending
        · exact named both
    | withdrawing =>
      rw [meetClaim_ignores found _ (.inl state)]
      refine claimed_of_none (refusals_of_kept found ?_) rfl rfl
      rintro (pending | ⟨live, -⟩)
      · cases state.symm.trans pending
      · rw [ExportEntry.isLive, state] at live
        cases live
    | refused q =>
      rw [meetClaim_ignores found _ (.inr ⟨q, state⟩)]
      refine claimed_of_none (refusals_of_kept found ?_) rfl rfl
      rintro (pending | ⟨live, -⟩)
      · cases state.symm.trans pending
      · rw [ExportEntry.isLive, state] at live
        cases live

theorem claims_claimed (s : State) (f : Frame) (c : Instr) (k : Key) (b : Binding) (refused : List Pair) :
    s.Claimed (s.claims f c k b refused) f k b refused := by
  unfold State.claims
  split
  · next own =>
    refine claimed_of_none (refusals_own own) ?_ ?_
    · split
      · rw [meetOwnAnnounce_eq]
      · rfl
    · split
      · rw [meetOwnAnnounce_eq]
      · rfl
  · next other => exact meetClaim_claimed other

theorem hear_eq (s : State) (f : Frame) : s.hear f =
    { s with peers := s.peers.modify f.sender.val fun p =>
               { p with present := true, group := if f.sender = s.number then s.ownGroup else f.group } } := by
  by_cases own : f.sender = s.number
  · rw [hear_own own]
    simp only [own, if_true]
  · rw [hear_other own]
    simp only [own, if_false]

/-- The state in which the frame is met differs from that before in these components only. -/
theorem met_eq (s : State) (rest : List RxItem) (f : Frame) (c : Instr) (k : Key) (b : Binding) (refused : List Pair) :
    ∃ directory answers line notices, s.met rest f c k b refused =
      { s with rxQueue := rest, directory, answers, line, notices
               peers := s.peers.modify f.sender.val fun p =>
                 { p with present := true, group := if f.sender = s.number then s.ownGroup else f.group } } := by
  obtain ⟨directory, answers, line, notices, same⟩ := claims_eq
    { s with rxQueue := rest
             peers := s.peers.modify f.sender.val fun p =>
               { p with present := true, group := if f.sender = s.number then s.ownGroup else f.group } } f c k b refused
  refine ⟨directory, answers, line, notices, ?_⟩
  rw [State.met, hear_eq]
  exact same

theorem met_claimed (s : State) (rest : List RxItem) (f : Frame) (c : Instr) (k : Key) (b : Binding) (refused : List Pair) :
    s.Claimed (s.met rest f c k b refused) f k b refused := by
  have claimed := claims_claimed (({ s with rxQueue := rest } : State).hear f) f c k b refused
  exact ⟨claimed.notices, claimed.line.stopped, claimed.line.other⟩

/-! ## The pass over the references (R79, R81, R98, R99) -/

theorem isSeek_unbound {r : Ref} (seeks : r.phase.isSeek = true) : r.boundToOne refused = false := by
  unfold Ref.boundToOne
  cases phase : r.phase with
  | patching => rw [phase] at seeks; cases seeks
  | bound => rw [phase] at seeks; cases seeks
  | _ => rfl

theorem clashRef_notices (s : State) (r : Ref) (b : Binding) (refused : List Pair) :
    (s.clashRef r b refused).notices = (r.passNotices b refused).foldl NoticeUnit.take s.notices := by
  rw [clashRef_eq, Ref.passNotices]
  by_cases seeks : r.phase.isSeek = true
  · rw [seeks, isSeek_unbound seeks, Bool.true_or, if_pos rfl, State.clashMove, if_pos seeks, State.bindFromFrame, offerBinding_notices]
    cases r.expected.accepts b.kind <;> rfl
  · rw [Bool.eq_false_iff.mpr seeks, Bool.false_or]
    cases r.boundToOne refused with
    | false => rfl
    | true =>
      rw [if_pos rfl, State.clashMove, if_neg seeks, offerBinding_notices]
      cases r.expected.accepts b.kind <;> rfl

theorem foldl_notices {F : State → Ref → State} {posts : Ref → List Notice}
    (step : ∀ s r, (F s r).notices = (posts r).foldl NoticeUnit.take s.notices) (l : List Ref) :
    ∀ s : State, (l.foldl F s).notices = (l.flatMap posts).foldl NoticeUnit.take s.notices := by
  induction l with
  | nil => exact fun _ => rfl
  | cons r l ih =>
    intro s
    rw [List.foldl_cons, ih, step, List.flatMap_cons, List.foldl_append]

theorem freeSlotOf_others (s : State) (k : Key) : s.freeSlotOf k = { s with slots := (s.freeSlotOf k).slots } := by
  unfold State.freeSlotOf
  split <;> rfl

theorem clashKey_notices (s : State) (k : Key) (b : Binding) (refused : List Pair) : (s.clashKey k b refused).notices =
    ((s.refs.filter fun r => r.key.agrees k).flatMap fun r => r.passNotices b refused).foldl NoticeUnit.take s.notices := by
  rw [State.clashKey, freeSlotOf_others]
  exact foldl_notices (fun s r => clashRef_notices s r b refused) _ s

theorem clashMove_modules (b : Binding) (s : State) (r : Ref) : (s.clashMove b r).modules = s.modules := by
  unfold State.clashMove State.bindFromFrame State.offerBinding
  split <;> split <;> rfl

theorem clashKey_kept (s : State) (k : Key) (b : Binding) (refused : List Pair) :
    (s.clashKey k b refused).wanted = s.wanted ∧ (s.clashKey k b refused).patchQueue = s.patchQueue ∧
      (s.clashKey k b refused).modules = s.modules := by
  let hit := s.refs.filter (Ref.clashMoves k refused)
  rw [clashKey_eq, freeSlotOf_others]
  exact ⟨foldl_kept State.wanted (State.clashMove b) (fun t r => (clashMove_kept b t r).2.2.2.2.1) hit s,
    foldl_kept State.patchQueue (State.clashMove b) (fun t r => (clashMove_kept b t r).2.2.2.1) hit s,
    foldl_kept State.modules (State.clashMove b) (clashMove_modules b) hit s⟩

theorem freeSlotOf_slotsLeft (s : State) (k : Key) : s.SlotsLeft (s.freeSlotOf k) := by
  intro n y slot
  unfold State.freeSlotOf at slot
  split at slot
  · exact slot
  · next m _ =>
    change (s.slots.set m none)[n]? = _ at slot
    rw [List.getElem?_set] at slot
    split at slot
    · split at slot <;> cases slot
    · exact slot

theorem clashKey_slotsLeft (s : State) (k : Key) (b : Binding) (refused : List Pair) : s.SlotsLeft (s.clashKey k b refused) := by
  have slots := foldl_kept State.slots (State.clashMove b) (fun t r => (clashMove_kept b t r).2.1) (s.refs.filter (Ref.clashMoves k refused)) s
  intro n y slot
  rw [clashKey_eq] at slot
  exact slots ▸ freeSlotOf_slotsLeft _ k n y slot

/-! ## The serving leaves the slot of the key free (R78) -/

/-- No slot holds the key, and no member of the backlog waits for it. -/
structure SeekTables.Without (x : SeekTables) (k : Key) : Prop where
  slots : ∀ z, some z ∈ x.slots → z.key.agrees k = false
  backlog : ∀ r ∈ x.refs, r.owner ∈ x.backlog → r.key.agrees k = false

theorem agrees_false_left {a b k : Key} (agrees : a.agrees b = true) (h : b.agrees k = false) : a.agrees k = false :=
  Bool.eq_false_iff.mpr fun same => Bool.eq_false_iff.mp h (agrees_trans (agrees_symm agrees) same)

theorem State.Serving.without {x y : SeekTables} (h : t.Serving x y) (without : x.Without k) : y.Without k := by
  induction h with
  | done x _ => exact without
  | answered x y r rest b free row oldest found next ih =>
    refine ih ⟨without.slots, fun q' hq' waits => ?_⟩
    obtain ⟨q, hq, rfl⟩ := List.mem_map.mp hq'
    split
    · exact without.backlog r row (by rw [oldest]; exact List.mem_cons_self)
    · next other =>
      rw [if_neg other] at waits
      exact without.backlog q hq (by rw [oldest]; exact List.mem_cons_of_mem _ waits)
  | joins x y r rest n z free row oldest found slot key next ih =>
    refine ih ⟨without.slots, fun q' hq' waits => ?_⟩
    obtain ⟨q, hq, rfl⟩ := List.mem_map.mp hq'
    split
    · exact without.backlog r row (by rw [oldest]; exact List.mem_cons_self)
    · next other =>
      rw [if_neg other] at waits
      exact without.backlog q hq (by rw [oldest]; exact List.mem_cons_of_mem _ waits)
  | takes x y r rest n row oldest found noSlot free lowest next ih =>
    refine ih ⟨fun z hz => ?_, fun q' hq' waits => ?_⟩
    · obtain old | new := List.mem_or_eq_of_mem_set hz
      · exact without.slots z old
      · cases new
        exact without.backlog r row (by rw [oldest]; exact List.mem_cons_self)
    · obtain ⟨q, hq, rfl⟩ := List.mem_map.mp hq'
      have kept : q.owner ∈ x.backlog → q.key.agrees k = false := without.backlog q hq
      have inside := (List.mem_filter.mp waits).1
      rw [oldest] at kept
      split at inside <;> split <;> exact kept (List.mem_cons_of_mem _ inside)

theorem clash_without (s : State) (k : Key) (refs : List Ref)
    (keys : ∀ r ∈ refs, ∃ q ∈ s.refs, q.owner = r.owner ∧ q.key = r.key) :
    SeekTables.Without
      { refs, slots := s.slotsUnasked.map fun o => o.filter fun x => !x.key.agrees k
        backlog := s.backlog.filter fun o => !(s.refs.any fun r => decide (r.owner = o) && r.key.agrees k) } k := by
  refine ⟨fun z hz => ?_, fun r hr waits => ?_⟩
  · obtain ⟨o, -, kept⟩ := List.mem_map.mp hz
    obtain ⟨-, free⟩ := Option.filter_eq_some_iff.mp kept
    exact (Bool.not_eq_true' _).mp free
  · obtain ⟨q, hq, owner, key⟩ := keys r hr
    have others := (List.mem_filter.mp waits).2
    rw [Bool.not_eq_true', List.any_eq_false] at others
    rw [Bool.eq_false_iff, ← key]
    exact fun agrees => others q hq (by rw [owner, agrees, decide_eq_true rfl]; rfl)

end Sys2Proof.Machine

/-! Owner data binds the references of its key (R11, R79 to R81, R98, R99). -/

namespace Sys2Proof.Machine

variable {s t u : State} {k : Key} {b : Binding} {refused : List Pair} {f : Frame} {c : Instr} {rest : List RxItem}

/-- Of the state before the event, its end reads the slots alone. -/
theorem endEvent_before {a b : State} (slots : a.slots = b.slots) (u : State) (order : List Bool) : u.endEvent a order = u.endEvent b order := by
  rw [State.endEvent, State.endEvent, slots]

theorem clash_ends (law : s.Seeks) (k : Key) (b : Binding) (refused : List Pair) :
    s.ServedEnd (s.clashKey k b refused) ((s.clashKey k b refused).endEvent s) :=
  (clash_prepared law.sound law.served k b refused).ends
    (clashKey_tables s k b refused law.sound.law (slotKeysDistinct_of_sound law.sound)).2 (clashKey_slotsLeft s k b refused) []

/-- What a taken frame with owner data leaves: `m` is the state in which the Directory has met it. -/
structure State.Binds (m t : State) (k : Key) (b : Binding) (refused : List Pair) : Prop where
  frame : ReferenceFrame m t
  owners : t.refs.map (·.owner) = m.refs.map (·.owner)
  moved : ∀ r ∈ m.refs, r.clashMoves k refused = true → r.offered b ∈ t.refs
  stayed : ∀ r ∈ m.refs, r.phase ≠ .queued → r.clashMoves k refused = false → r ∈ t.refs
  freed : ∀ x : Slot, some x ∈ t.slots → x.key.agrees k = false
  kept : ∀ (n : Nat) (x : Slot), m.slots[n]? = some (some x) → x.key.agrees k = false →
    ∃ y : Slot, t.slots[n]? = some (some y) ∧ y.unasked = x.unasked
  walks : t.WalksJoined m.patchQueue
  granted : m.Granted t m.wanted
  served : m.ServedFrom t
    { refs := m.refs.map fun r => if r.clashMoves k refused then r.offered b else r
      slots := m.slotsUnasked.map fun o => o.filter fun x => !x.key.agrees k
      backlog := m.backlog.filter fun o => !(m.refs.any fun r => decide (r.owner = o) && r.key.agrees k) }
  notices : m.PostsInTurn t (((m.refs.filter fun r => r.key.agrees k).flatMap fun r => r.passNotices b refused)
    ++ m.servedFaults t fun r => r.key.agrees k) []

theorem clash_binds (law : s.Seeks) (ends : s.ServedEnd (s.clashKey k b refused) t) : s.Binds t k b refused := by
  have once : (s.refs.map (·.owner)).Nodup := law.sound.law.owners
  have tables := (clashKey_tables s k b refused law.sound.law (slotKeysDistinct_of_sound law.sound)).1
  obtain ⟨wanted, patches, modules⟩ := clashKey_kept s k b refused
  have refs : (s.clashKey k b refused).refs = s.refs.map fun r => if r.clashMoves k refused then r.offered b else r :=
    congrArg SeekTables.refs tables
  have backlog : (s.clashKey k b refused).backlog =
      s.backlog.filter fun o => !(s.refs.any fun r => decide (r.owner = o) && r.key.agrees k) := congrArg SeekTables.backlog tables
  have served := ends.served
  rw [tables] at served
  refine ⟨(clashKey_frame s k b refused).trans ends.frame, ?_, fun r row moves => ?_, fun r row waits stays => ?_, fun x hx => ?_,
    fun n x slot other => ?_, patches ▸ ends.walks, wanted ▸ ends.granted, served, ?_⟩
  · rw [ends.owners, refs, List.map_map]
    exact List.map_congr_left fun r _ => by dsimp only [Function.comp]; split <;> rfl
  · refine ends.settled _ ?_ (not_listed_queued (offered_phase r b))
    rw [refs]
    exact List.mem_map.mpr ⟨r, row, if_pos moves⟩
  · refine ends.settled _ ?_ waits
    rw [refs]
    exact List.mem_map.mpr ⟨r, row, if_neg (by rw [stays]; exact Bool.false_ne_true)⟩
  · have without := served.serving.without (clash_without s k _ fun r hr => by
      obtain ⟨q, hq, rfl⟩ := List.mem_map.mp hr
      exact ⟨q, hq, by split <;> rfl, by split <;> rfl⟩)
    exact without.slots x.unasked (List.mem_map.mpr ⟨_, hx, rfl⟩)
  · refine served.slot_kept ?_
    rw [List.getElem?_map, unasked_of_some slot]
    exact congrArg some (Option.filter_eq_some_iff.mpr ⟨rfl, (Bool.not_eq_true' _).mpr other⟩)
  · have states : (s.clashKey k b refused).newStates t none = s.newStates t none := newStates_congr modules rfl
    have faults : s.servedFaults t (fun r => r.key.agrees k) = ((s.clashKey k b refused).backlog.filter t.kindFaulted).map kindFault := by
      refine servedFaults_eq law.sound.law backlog fun r row _ _ => congrArg _ ?_
      rw [Bool.eq_iff_iff, List.any_eq_true]
      constructor
      · rintro ⟨q, hq, both⟩
        obtain ⟨owner, agrees⟩ := (Bool.and_eq_true _ _).mp both
        rw [← eq_of_owner once hq row (of_decide_eq_true owner)]
        exact agrees
      · exact fun agrees => ⟨r, row, by rw [agrees, decide_eq_true rfl]; rfl⟩
    rw [State.PostsInTurn, ends.notices, states, clashKey_notices, faults, List.append_nil]
    simp only [List.foldl_append]

/-- Settles O47: the pass offers the binding and frees the slot of the key, and the end of the event serves the backlog from what is left. -/
theorem ownerDataBinds : Obligations.OwnerDataBinds := by
  intro s f rest c key b refused takes data law moves
  have seeks := ((seekLaw_iff_seeks s).mp law).2
  have exec_ := exec_ownerData takes data
  have claimed := met_claimed s rest f c key b refused
  obtain ⟨directory, answers, line, notices, met⟩ := met_eq s rest f c key b refused
  generalize s.met rest f c key b refused = m at exec_ claimed met
  have slots : m.slots = s.slots := by rw [met]
  have queue : m.txQueue = s.txQueue := by rw [met]
  have binds : m.Binds (((m.clashKey key b refused).endEvent s).settleAgent) key b refused := by
    have law : m.Seeks := seeks.congr (by rw [met]) (by rw [met]) slots
    rw [← endEvent_before slots]
    exact clash_binds law ((clash_ends law key b refused).agent rfl)
  generalize ((m.clashKey key b refused).endEvent s).settleAgent = t at exec_ binds
  have frame : TableFrame ({ s with rxQueue := rest } : State) m := by
    rw [met]
    exact { TableFrame.refl { s with rxQueue := rest } with }
  have stopped : t.line = m.line := binds.frame.line
  have posted := binds.notices
  rw [State.PostsInTurn, claimed.notices] at posted
  have left : s.AnswersLeft t (s.refusedBy f key b refused) :=
    ⟨fun o g contends gone => stopped.trans (claimed.line.stopped o g contends gone), fun stays => stopped.trans (claimed.line.other stays)⟩
  refine ⟨t, exec_, frame.trans binds.frame.table, binds.frame.walk.trans (by rw [met]), binds.frame.transfer.trans (by rw [met]), left,
    binds.frame.peers.trans (by rw [met]), ?_⟩
  have granted := binds.granted.base queue slots
  have served := binds.served.base queue
  have turn : s.PostsInTurn t
      (s.refusals f key b refused ++ ((s.refs.filter fun r => r.key.agrees key).flatMap fun r => r.passNotices b refused)
        ++ s.servedFaults t fun r => r.key.agrees key) [] := by
    rw [met] at posted
    rw [State.PostsInTurn, posted]
    simp only [List.foldl_append]
    rfl
  obtain ⟨-, owners, moved, stayed, freed, kept, walks, -, -, -⟩ := binds
  rw [met] at owners moved stayed kept walks granted served
  exact ⟨owners, moved, stayed, freed, kept, walks, granted, served, turn⟩

end Sys2Proof.Machine

/-! What the end of an event leaves under no law, and the removal of a module's references (R34, R78, R125). -/

namespace Sys2Proof.Machine

variable {s t u b : State} {m : Byte} {begun : Bool}

/-! ## The serving of any backlog -/

/-- Only members of the backlog have changed. -/
structure State.Thins (s t : State) : Prop where
  owners : t.refs.map (·.owner) = s.refs.map (·.owner)
  others : ∀ r ∈ s.refs, r.owner ∉ s.backlog → r ∈ t.refs
  backlog : t.backlog.Sublist s.backlog

theorem State.Thins.refl (s : State) : s.Thins s := ⟨rfl, fun _ hr _ => hr, .refl _⟩

theorem State.Thins.trans (h : s.Thins t) (k : t.Thins u) : s.Thins u :=
  ⟨k.owners.trans h.owners, fun r hr out => k.others r (h.others r hr out) fun inside => out (h.backlog.subset inside),
    k.backlog.trans h.backlog⟩

theorem thins_of_map (f : Ref → Ref) (refs : t.refs = s.refs.map f) (owner : ∀ r, (f r).owner = r.owner)
    (others : ∀ r, r.owner ∉ s.backlog → f r = r) (backlog : t.backlog.Sublist s.backlog) : s.Thins t := by
  refine ⟨?_, fun r hr out => ?_, backlog⟩
  · rw [refs, List.map_map]
    exact List.map_congr_left fun r _ => owner r
  · rw [refs]
    exact List.mem_map.mpr ⟨r, hr, others r out⟩

theorem setPhase_thins {o : Owner} {rest : List Owner} (oldest : s.backlog = o :: rest) (p : Phase)
    (refs : t.refs = s.refs.map fun q => if q.owner = o then { q with phase := p } else q) (backlog : t.backlog = rest) : s.Thins t := by
  refine thins_of_map _ refs (fun r => by split <;> rfl) (fun r out => if_neg fun owner => out ?_) ?_
  · rw [oldest, owner]
    exact List.mem_cons_self
  · rw [oldest, backlog]
    exact List.sublist_cons_self _ _

theorem serveOne_thins {r : Ref} {rest : List Owner} (oldest : s.backlog = r.owner :: rest) (free : Nat) :
    s.Thins (({ s with backlog := rest } : State).serveOne r free) := by
  unfold State.serveOne
  split
  · next b _ =>
    unfold State.offerBinding
    split
    · exact setPhase_thins oldest (.patching b) rfl rfl
    · exact setPhase_thins oldest (.faulted .kind) rfl rfl
  · split
    · next n _ => exact setPhase_thins oldest (.seeking n) rfl rfl
    · let taken : State := ({ s with backlog := rest } : State).takeSlot r free
      have first : s.Thins taken := setPhase_thins oldest (.seeking free) rfl rfl
      refine first.trans (thins_of_map (s := taken) _ rfl (fun q => by split <;> rfl) (fun q out => if_neg fun joins => out ?_)
        List.filter_sublist)
      exact (List.mem_filter.mp joins).1

theorem serveRounds_thins (n : Nat) : ∀ s : State, s.Thins (s.serveRounds n) := by
  induction n with
  | zero => exact .refl
  | succ n ih =>
    intro s
    unfold State.serveRounds
    split
    · next free o rest _ oldest =>
      dsimp only
      split
      · next r found =>
        obtain ⟨-, rfl⟩ := mem_of_ref? found
        exact (serveOne_thins oldest free).trans (ih _)
      · refine .trans (t := { s with backlog := rest }) ⟨rfl, fun _ hr _ => hr, ?_⟩ (ih _)
        rw [oldest]
        exact List.sublist_cons_self _ _
    · exact .refl s

theorem endEvent_thins (u b : State) (order : List Bool) : u.Thins (u.endEvent b order) := by
  obtain ⟨v, result, served⟩ := endEvent_cases u b order
  have rounds : u.Thins v := by
    obtain rfl | ⟨rfl, -⟩ := served
    · exact serveRounds_thins _ u
    · exact .refl v
  obtain ⟨refs', -, backlog', -⟩ := settleModules_tables v.appendWalks
  obtain ⟨refs'', -, backlog'', -⟩ := arbitrate_tables v.appendWalks.settleModules order
  have refs : (u.endEvent b order).refs = v.refs := by rw [result, refs'', refs']; rfl
  have backlog : (u.endEvent b order).backlog = v.backlog := by rw [result, backlog'', backlog']; rfl
  exact ⟨by rw [refs, rounds.owners], fun r hr out => refs ▸ rounds.others r hr out, by rw [backlog]; exact rounds.backlog⟩

/-! ## The removal of references (R34, R125) -/

/-- The walk in progress is of the module. -/
def State.walksIn (s : State) (m : Byte) : Bool :=
  match s.walk with
  | some w => decide (w.ref.module = m)
  | none => false

/-- What the removal of the module's references leaves before the backlog is served. -/
structure State.Removes (s u : State) (m : Byte) (begun : Bool) : Prop where
  refs : u.refs = s.refs.filter fun r => decide (r.owner.module ≠ m)
  backlog : u.backlog = s.backlog.filter fun o => decide (o.module ≠ m)
  patchQueue : u.patchQueue = s.patchQueue.filter fun o => decide (o.module ≠ m)
  walk : u.walk = if s.walksIn m then none else s.walk
  transfer : u.transfer = if s.walksIn m && !begun then none else s.transfer

theorem removeRefs_removes (s : State) (m : Byte) (begun : Bool) : s.Removes (s.removeRefs m begun) m begun := ⟨rfl, rfl, rfl, rfl, rfl⟩

theorem walksIn_of_walk {w : Walk} (walk : s.walk = some w) : s.walksIn m = decide (w.ref.module = m) := by
  rw [State.walksIn, walk]

theorem walksIn_eq_false (other : ∀ w, s.walk = some w → w.ref.module ≠ m) : s.walksIn m = false := by
  unfold State.walksIn
  split
  · next w walk => exact decide_eq_false (other w walk)
  · rfl

theorem State.Removes.walk_other (h : s.Removes u m begun) (w : Walk) (walk : u.walk = some w) : w.ref.module ≠ m := by
  rw [h.walk] at walk
  split at walk
  · cases walk
  · next off =>
    rw [walksIn_of_walk walk, decide_eq_true_eq] at off
    exact off

/-- The slots of the module's references freed, the timers stopped where the station has been isolated. -/
def State.timed (s t : State) (x : Slot) : Slot := if t.station = s.station then x else { x with timer := false }

/-- The tables from which the backlog is served once the references of the module are gone. -/
def State.tablesWithout (s t : State) (m : Byte) : SeekTables :=
  { refs := s.refs.filter fun r => decide (r.owner.module ≠ m)
    slots := (s.slotsOf fun r => decide (r.owner.module ≠ m)).map (Option.map (s.timed t))
    backlog := s.backlog.filter fun o => decide (o.module ≠ m) }

theorem slotsOf_some {keeps : Ref → Bool} {n : Nat} {y : Slot} (slot : (s.slotsOf keeps)[n]? = some (some y)) :
    ∃ r ∈ s.refs, keeps r = true ∧ r.phase = .seeking n := by
  rw [State.slotsOf, List.getElem?_mapIdx, Option.map_eq_some_iff] at slot
  obtain ⟨o, -, kept⟩ := slot
  split at kept
  · next any =>
    obtain ⟨r, hr, both⟩ := List.any_eq_true.mp any
    obtain ⟨kept, seeks⟩ := (Bool.and_eq_true _ _).mp both
    exact ⟨r, hr, kept, of_decide_eq_true seeks⟩
  · cases kept

/-- A module's references are removed, and the event ends. -/
theorem refsRemoved_of (removes : s.Removes u m begun) (thins : u.Thins t) (frame : ReferenceFrame u t) (walks : t.WalksJoined u.patchQueue)
    (served : s.SeekLaw → s.ServedFrom t (s.tablesWithout t m)) : s.RefsRemoved t m begun := by
  have owners : t.refs.map (·.owner) = (s.refs.filter fun r => decide (r.owner.module ≠ m)).map (·.owner) := by
    rw [thins.owners, removes.refs]
  rw [removes.patchQueue] at walks
  refine ⟨owners, fun r hr other out => ?_, ?_, ⟨fun o ho => ?_, walks⟩, fun law n x slot ⟨r, hr, other, seeks⟩ => ?_,
    fun law n only empty x slot => ?_, fun law => (served law).backlogServed, served, fun ⟨w, walk, inside⟩ => ?_, fun other => ?_⟩
  · refine thins.others r ?_ ?_
    · rw [removes.refs]
      exact List.mem_filter.mpr ⟨hr, decide_eq_true other⟩
    · rw [removes.backlog]
      exact fun inside => out (List.mem_filter.mp inside).1
  · rw [← removes.backlog]
    exact thins.backlog
  · rw [walks, List.mem_append] at ho
    obtain old | new := ho
    · exact of_decide_eq_true (List.mem_filter.mp old).2
    · obtain ⟨r, hr, rfl⟩ := List.mem_map.mp new
      have row : r.owner ∈ t.refs.map (·.owner) := List.mem_map_of_mem (List.mem_filter.mp hr).1
      rw [owners] at row
      obtain ⟨q, hq, same⟩ := List.mem_map.mp row
      rw [← same]
      exact of_decide_eq_true (List.mem_filter.mp hq).2
  · have kept : (s.tablesWithout t m).slots[n]? = some (some (s.timed t x.unasked)) := by
      rw [State.tablesWithout, List.getElem?_map, slotsOf_kept slot ⟨r, hr, decide_eq_true other, seeks⟩]
      rfl
    obtain ⟨z, slot', same⟩ := (served law).slot_kept kept
    refine ⟨z, slot', ?_⟩
    have parts : z.key = (s.timed t x.unasked).key ∧ z.state = (s.timed t x.unasked).state ∧ z.tries = (s.timed t x.unasked).tries ∧
        z.timer = (s.timed t x.unasked).timer := by
      rw [← same]
      exact ⟨rfl, rfl, rfl, rfl⟩
    obtain ⟨key, state, tries, timer⟩ := parts
    have same : (s.timed t x.unasked).key = x.key ∧ (s.timed t x.unasked).state = x.state ∧ (s.timed t x.unasked).tries = x.tries := by
      unfold State.timed
      split <;> exact ⟨rfl, rfl, rfl⟩
    refine ⟨key.trans same.1, state.trans same.2.1, tries.trans same.2.2, fun kept => timer.trans ?_⟩
    rw [State.timed, if_pos kept]
    rfl
  · have none_ : (s.tablesWithout t m).backlog = [] := List.filter_eq_nil_iff.mpr fun o ho out => of_decide_eq_true out (empty o ho)
    have slots := congrArg SeekTables.slots ((served law).serving.of_empty none_)
    have inside : t.seekTables.slots[n]? = some (some x.unasked) := unasked_of_some slot
    rw [slots, State.tablesWithout, List.getElem?_map, Option.map_eq_some_iff] at inside
    obtain ⟨o, kept, taken⟩ := inside
    obtain ⟨y, rfl, -⟩ := Option.map_eq_some_iff.mp taken
    obtain ⟨r, hr, other, seeks⟩ := slotsOf_some kept
    exact of_decide_eq_true other (only r hr seeks)
  · have walked : s.walksIn m = true := (walksIn_of_walk walk).trans (decide_eq_true inside)
    refine ⟨?_, ?_⟩
    · rw [frame.walk, removes.walk, walked, if_pos rfl]
    · rw [frame.transfer, removes.transfer, walked, Bool.true_and]
      cases begun <;> rfl
  · have unwalked := walksIn_eq_false other
    refine ⟨?_, ?_⟩
    · rw [frame.walk, removes.walk, unwalked, if_neg Bool.false_ne_true]
    · rw [frame.transfer, removes.transfer, unwalked, Bool.false_and, if_neg Bool.false_ne_true]

/-- The components that the statement speaks of. -/
theorem State.RefsRemoved.congr {t' : State} (h : s.RefsRemoved t m begun) (refs : t'.refs = t.refs) (slots : t'.slots = t.slots)
    (backlog : t'.backlog = t.backlog) (patchQueue : t'.patchQueue = t.patchQueue) (walk : t'.walk = t.walk)
    (transfer : t'.transfer = t.transfer) (station : t'.station = t.station) (queue : t'.txQueue = t.txQueue)
    (directory : t'.directory = t.directory) (number : t'.number = t.number) : s.RefsRemoved t' m begun := by
  have tables : t'.seekTables = t.seekTables := seekTables_congr refs slots backlog
  refine ⟨refs ▸ h.owners, refs ▸ h.others, backlog ▸ h.backlog, ⟨patchQueue ▸ h.queue.1, ?_⟩, fun law n x old used => ?_,
    slots ▸ h.emptied, fun law => ?_, fun law => ?_, fun walked => ?_, fun other => ?_⟩
  · rw [State.WalksJoined, patchQueue, refs]
    exact h.queue.2
  · rw [slots, station]
    exact h.shared law n x old used
  · rw [State.BacklogServed, slots, backlog]
    exact h.served law
  · obtain ⟨serving, seeks⟩ := h.tables law
    rw [← tables, ← station] at serving
    refine ⟨serving.congr directory number, fun n y free taken => ?_⟩
    rw [station] at free
    obtain ⟨isolated, held, asks⟩ := seeks n y free (slots ▸ taken)
    exact ⟨fun h => isolated (station ▸ h), held, fun on new => queue ▸ asks (station ▸ on) new⟩
  · rw [walk, transfer]
    exact h.walked walked
  · rw [walk, transfer]
    exact h.unwalked other

end Sys2Proof.Machine

/-! A module given up: its entries withdrawn, its references removed, its record gone or UNLOADING (R29, R33 to R35). -/

namespace Sys2Proof.Machine

variable {s t u b : State} {m : Byte} {begun : Bool} {c : Command}

/-! ## Module records at the end of an event (R14, R31) -/

theorem setModuleState_other {x y : ModuleRecord} {st : ModuleState} (row : x ∈ s.modules) (other : x.id ≠ y.id) :
    x ∈ (s.setModuleState y.id st).modules :=
  List.mem_map.mpr ⟨x, row, if_neg other⟩

theorem settleModule_other {x y : ModuleRecord} (row : x ∈ s.modules) (other : x.id = y.id → y.state.isDerived = false) :
    x ∈ (s.settleModule y).modules := by
  unfold State.settleModule
  dsimp only
  split
  · next derived =>
    refine setModuleState_other row fun same => ?_
    rw [other same] at derived
    cases derived
  · exact row

/-- A record stays where no record of its number is in a derived state. -/
theorem settleModules_other {x : ModuleRecord} (row : x ∈ s.modules) (underived : ∀ y ∈ s.modules, y.id = x.id → y.state.isDerived = false) :
    x ∈ s.settleModules.modules := by
  have fold : ∀ (l : List ModuleRecord) (t : State), (∀ y ∈ l, y.id = x.id → y.state.isDerived = false) → x ∈ t.modules →
      x ∈ (l.foldl State.settleModule t).modules := by
    intro l
    induction l with
    | nil => exact fun _ _ row => row
    | cons y l ih =>
      intro t all row
      refine ih _ (fun z hz => all z (List.mem_cons_of_mem y hz)) (settleModule_other row fun same => all y List.mem_cons_self same.symm)
  exact fold s.modules s underived row

theorem endEvent_module {x : ModuleRecord} (row : x ∈ u.modules) (underived : ∀ y ∈ u.modules, y.id = x.id → y.state.isDerived = false)
    (order : List Bool) : x ∈ (u.endEvent b order).modules := by
  obtain ⟨v, result, served⟩ := endEvent_cases u b order
  have modules : v.modules = u.modules := by
    obtain rfl | ⟨rfl, -⟩ := served
    · exact serveRounds_modules _ u
    · rfl
  have same : (u.endEvent b order).modules = v.appendWalks.settleModules.modules := by
    rw [result]
    unfold State.arbitrate
    split
    · rfl
    · exact grantRounds_kept State.modules (fun s k => by unfold State.grantSlot; split <;> rfl)
        (fun s => by unfold State.grantCommand; split <;> rfl) _ order _
  rw [same]
  refine settleModules_other (s := v.appendWalks) ?_ ?_
  · change x ∈ v.modules
    rw [modules]
    exact row
  · change ∀ y ∈ v.modules, _
    rw [modules]
    exact underived

theorem sameModules_filter {l l' : List ModuleRecord} (same : sameModules l l') (m : Byte) :
    sameModules (l.filter fun x => decide (x.id ≠ m)) (l'.filter fun x => decide (x.id ≠ m)) := by
  have filter : ∀ l : List ModuleRecord, (l.filter fun x => decide (x.id ≠ m)).map (fun x => { x with state := .loading }) =
      (l.map fun x => { x with state := .loading }).filter fun x => decide (x.id ≠ m) := fun l => by
    rw [List.filter_map]
    rfl
  rw [sameModules, filter, filter, same]

/-- The records of the module in a state that none derives take no part in the MODULE-STATE notices. -/
theorem newStates_unloading (s t : State) (m : Byte) : (s.setModuleState m .unloading).newStates t none = s.newStates t (some m) := by
  rw [State.newStates, State.newStates, State.setModuleState, List.filterMap_map]
  refine List.filterMap_congr fun x _ => ?_
  by_cases here : x.id = m
  · simp [here]
  · simp [here, Ne.symm here]

/-! ## The entries withdrawn (R33, R45, R46) -/

/-- The directory once the module's entries are withdrawn. -/
def State.withdrawnDirectory (s : State) (m : Byte) : List ExportEntry :=
  s.directory.filterMap fun e =>
    if e.owner.module = m then (if e.state.code = 4 then none else some { e with state := .withdrawing }) else some e

theorem withdrawn_eq (e : ExportEntry) (m : Byte) : e.withdrawn m =
    if e.owner.module = m then (if e.state.code = 4 then none else some { e with state := .withdrawing }) else some e := by
  obtain ⟨key, owner, target, kind, generation, state⟩ := e
  unfold ExportEntry.withdrawn
  split
  · cases state <;> rfl
  · rfl

theorem withdrawEntries_directory (s : State) (m : Byte) : (s.withdrawEntries m).directory = s.withdrawnDirectory m :=
  List.filterMap_congr fun e _ => withdrawn_eq e m

/-- The WITHDRAWs of a module's entries, in directory order. -/
def withdrawsOf (directory : List ExportEntry) (m : Byte) : List TxEntry :=
  (directory.filter fun e => decide (e.owner.module = m)).map fun e => .withdraw e.key e.generation

theorem withdrawFrames_withdrawn (directory : t.directory = s.withdrawnDirectory m) : t.withdrawFrames m = withdrawsOf t.directory m := by
  rw [State.withdrawFrames, withdrawsOf]
  refine congrArg _ (List.filter_congr fun e he => ?_)
  rw [directory, State.withdrawnDirectory, List.mem_filterMap] at he
  obtain ⟨x, -, kept⟩ := he
  split at kept
  · split at kept
    · cases kept
    · cases kept
      rw [decide_eq_true rfl, Bool.and_true]
  · next other =>
    cases kept
    rw [decide_eq_false other, Bool.false_and]

/-! ## The effects on the tables -/

/-- The module given up, with this command in progress. -/
def State.givingUp (s : State) (m : Byte) (begun : Bool) (c : Command) : State := { s.giveUp m begun with command := some c }

theorem givingUp_removes (s : State) (m : Byte) (begun : Bool) (c : Command) : s.Removes (s.givingUp m begun c) m begun :=
  ⟨rfl, rfl, rfl, rfl, rfl⟩

theorem givingUp_directory (s : State) (m : Byte) (begun : Bool) (c : Command) :
    (s.givingUp m begun c).directory = s.withdrawnDirectory m := withdrawEntries_directory s m

theorem givingUp_wanted (s : State) (m : Byte) (begun : Bool) (c : Command) :
    (s.givingUp m begun c).wanted = withdrawsOf (s.givingUp m begun c).directory m :=
  withdrawFrames_withdrawn (t := s.givingUp m begun c) (givingUp_directory s m begun c)

theorem givingUp_slotsLeft (s : State) (m : Byte) (begun : Bool) (c : Command) : s.SlotsLeft (s.givingUp m begun c) :=
  freeEmptySlots_slotsLeft { s with refs := s.refs.filter fun r => decide (r.owner.module ≠ m) }

theorem givingUp_prepared (law : s.Seeks) (m : Byte) (begun : Bool) (c : Command) : s.Prepared (s.givingUp m begun c) :=
  (removeRefs_prepared (t := (s.setModuleState m .unloading).withdrawEntries m) law rfl rfl rfl m begun).congr rfl rfl

theorem givingUp_tables (s : State) (m : Byte) (begun : Bool) (c : Command) : (s.givingUp m begun c).seekTables =
    { refs := s.refs.filter fun r => decide (r.owner.module ≠ m)
      slots := s.slotsOf fun r => decide (r.owner.module ≠ m)
      backlog := s.backlog.filter fun o => decide (o.module ≠ m) } := by
  have tables := removeRefs_tables s ((s.setModuleState m .unloading).withdrawEntries m) m begun id rfl rfl
    (by rw [Option.map_id_fun, List.map_id_fun]; rfl)
  rw [Option.map_id_fun, List.map_id_fun] at tables
  exact tables

theorem tablesWithout_of_station (station : t.station = s.station) : s.tablesWithout t m =
    { refs := s.refs.filter fun r => decide (r.owner.module ≠ m)
      slots := s.slotsOf fun r => decide (r.owner.module ≠ m)
      backlog := s.backlog.filter fun o => decide (o.module ≠ m) } := by
  have timed : s.timed t = id := funext fun x => if_pos station
  rw [State.tablesWithout, timed, Option.map_id_fun, List.map_id_fun]
  rfl

/-! ## The module given up (R29, R33, R34) -/

theorem State.GivenUp.congr {t' : State} (h : s.GivenUp t m begun)
    (same : t' = { t with modules := t'.modules, notices := t'.notices, commandQueue := t'.commandQueue, command := t'.command
                          runs := t'.runs, granted := t'.granted }) : s.GivenUp t' m begun := by
  rw [same]
  obtain ⟨directory, frames, answers, line, ⟨gs, grants⟩, walk, removed, peers⟩ := h
  exact ⟨directory, frames, answers, { line with }, ⟨gs, { grants with }⟩, walk,
    removed.congr rfl rfl rfl rfl rfl rfl rfl rfl rfl rfl, peers⟩

/-- The state at the end of the event in which the module is given up, but for the end of its removal. -/
def State.gaveUp (b : State) (m : Byte) (begun : Bool) (c : Command) (order : List Bool) : State :=
  (b.givingUp m begun c).endEvent b order

theorem gaveUp_frame (b : State) (m : Byte) (begun : Bool) (c : Command) (order : List Bool) :
    ReferenceFrame (b.givingUp m begun c) (b.gaveUp m begun c order) := endEvent_frame _ b order

theorem gaveUp_granted (b : State) (m : Byte) (begun : Bool) (c : Command) (order : List Bool) :
    b.Granted (b.gaveUp m begun c order) (b.givingUp m begun c).wanted :=
  (givingUp_slotsLeft b m begun c).granted rfl order

theorem gaveUp_ends (law : b.Seeks) (m : Byte) (begun : Bool) (c : Command) (order : List Bool) :
    b.ServedEnd (b.givingUp m begun c) (b.gaveUp m begun c order) :=
  (givingUp_prepared law m begun c).ends rfl (givingUp_slotsLeft b m begun c) order

/-- The Command Engine's frames among those placed. -/
theorem grants_commands (gs : List Grant) : (gs.filterMap Grant.command?).Sublist (gs.map Grant.frame) := by
  induction gs with
  | nil => exact .refl _
  | cons g gs ih =>
    cases g with
    | seek n k => exact ih.cons _
    | command x => exact ih.cons_cons x

/-- The frames that the Command Engine wants are on the queue or still wanted. -/
theorem granted_frames {wanted : List TxEntry} (granted : s.Granted t wanted) (on : t.station ≠ .isolated) :
    wanted.Sublist (t.txQueue ++ t.wanted) := by
  obtain ⟨gs, grants⟩ := granted
  rw [grants.command on, grants.queue, List.append_assoc]
  exact ((grants_commands gs).append (.refl _)).trans (List.sublist_append_right _ _)

end Sys2Proof.Machine

/-! UNLOAD, and a commit pass at fault: the module given up, its removal completed or awaited (R29, R32 to R35). -/

namespace Sys2Proof.Machine

variable {s t : State} {env : Env} {m : Byte} {begun : Bool} {c : Command} {tag : Half} {status : Status} {detail : Nat} {order : List Bool}

/-! ## The event -/

/-- The effects leave `u`, the end of the event `t`. -/
structure State.GaveUp (s u t : State) (m : Byte) (begun : Bool) : Prop where
  removes : s.Removes u m begun
  directory : u.directory = s.withdrawnDirectory m
  answers : u.answers = s.answers.filter fun a => !decide (a.owner.module = m)
  line : u.line = s.line.abandon fun o => decide (o.module = m)
  peers : u.peers = s.peers
  station : u.station = s.station
  modules : u.modules = s.modules.map fun x => if x.id = m then { x with state := .unloading } else x
  wanted : u.wanted = withdrawsOf u.directory m
  granted : s.Granted t u.wanted
  thins : u.Thins t
  walks : t.WalksJoined u.patchQueue
  frame : ReferenceFrame u t
  served : s.SeekLaw → s.ServedFrom t
    { refs := s.refs.filter fun r => decide (r.owner.module ≠ m)
      slots := s.slotsOf fun r => decide (r.owner.module ≠ m)
      backlog := s.backlog.filter fun o => decide (o.module ≠ m) }

theorem gaveUp_self (s : State) (m : Byte) (begun : Bool) (c : Command) (order : List Bool) :
    s.GaveUp (s.givingUp m begun c) (s.gaveUp m begun c order) m begun where
  removes := givingUp_removes s m begun c
  directory := givingUp_directory s m begun c
  answers := rfl
  line := rfl
  peers := rfl
  station := rfl
  modules := rfl
  wanted := givingUp_wanted s m begun c
  granted := gaveUp_granted s m begun c order
  thins := endEvent_thins _ s order
  walks := endEvent_walks _ s order
  frame := gaveUp_frame s m begun c order
  served law := by
    have served := (gaveUp_ends ((seekLaw_iff_seeks s).mp law).2 m begun c order).served
    rw [givingUp_tables s m begun c] at served
    exact served

/-- Local memory and the runs of transfers are no part of it. -/
theorem State.GaveUp.base {b u : State} (h : b.GaveUp u t m begun) {mem : Memory} {runs : Runs} (same : b = { s with mem, runs }) :
    s.GaveUp u t m begun := by
  subst same
  obtain ⟨removes, directory, answers, line, peers, station, modules, wanted, granted, thins, walks, frame, served⟩ := h
  refine ⟨⟨removes.refs, removes.backlog, removes.patchQueue, removes.walk, removes.transfer⟩, directory, answers, line, peers, station, modules,
    wanted, granted.base rfl rfl, thins, walks, frame, fun law => (served ?_).base rfl⟩
  rw [seekLaw_iff_seeks] at law ⊢
  exact ⟨{ law.1 with }, law.2.congr rfl rfl rfl⟩

section
variable {u : State}

theorem State.GaveUp.givenUp (h : s.GaveUp u t m begun) (on : s.station ≠ .isolated) : s.GivenUp t m begun := by
  have directory : t.directory = s.withdrawnDirectory m := h.frame.directory.trans h.directory
  have station : t.station = s.station := h.frame.station.trans h.station
  have granted := h.granted
  rw [h.wanted, ← h.frame.directory] at granted
  have stopped : t.line = s.line.abandon fun o => decide (o.module = m) := h.frame.line.trans h.line
  obtain ⟨left, stays⟩ := abandon_left s.line fun o => decide (o.module = m)
  have served : s.SeekLaw → s.ServedFrom t (s.tablesWithout t m) := by
    rw [tablesWithout_of_station station]
    exact h.served
  refine ⟨directory, granted_frames granted (station ▸ on), ?_, ⟨fun o f contends gone => ?_, fun others => ?_⟩, granted,
    fun w walk => h.removes.walk_other w (h.frame.walk ▸ walk), refsRemoved_of h.removes h.thins h.frame h.walks served,
    h.frame.peers.trans h.peers⟩
  · refine (h.frame.answers.trans h.answers).trans (List.filter_congr fun a _ => ?_)
    exact (decide_not (p := a.owner.module = m)).symm
  · exact stopped.trans (left o f contends (decide_eq_true gone))
  · exact stopped.trans (stays fun o f contends => decide_eq_false (others o f contends))

/-- The module's record is UNLOADING. -/
theorem State.GaveUp.unloading (h : s.GaveUp u t m begun) (x : ModuleRecord) (row : x ∈ u.modules) (here : x.id = m) : x.state = .unloading := by
  rw [h.modules] at row
  obtain ⟨y, -, rfl⟩ := List.mem_map.mp row
  split at here
  · next now => rw [if_pos now]
  · next other => exact absurd here other

theorem gaveUp_record (row : ∃ x ∈ s.modules, x.id = m) (c : Command) (order : List Bool) :
    ∃ x ∈ (s.gaveUp m begun c order).modules, x.id = m ∧ x.state = .unloading := by
  have gave := gaveUp_self s m begun c order
  obtain ⟨y, hy, here⟩ := row
  have inside : { y with state := .unloading } ∈ (s.givingUp m begun c).modules := by
    rw [gave.modules]
    exact List.mem_map.mpr ⟨y, hy, if_pos here⟩
  refine ⟨_, endEvent_module inside (fun z hz same => ?_) order, here, rfl⟩
  rw [gave.unloading z hz (same.trans here)]
  rfl

theorem State.GaveUp.sameModules (h : s.GaveUp u t m begun) : sameModules t.modules s.modules := by
  have frame := h.frame.modules
  rw [h.modules] at frame
  exact frame.trans (sameModules_setState m .unloading s.modules)

/-- Whether the removal completes: the module has no reference, so only its entries count. -/
theorem ownsNothing_gaveUp (given : s.GivenUp t m begun) : t.ownsNothing m = true ↔ ∀ e ∈ t.directory, e.owner.module ≠ m := by
  have norefs : (t.refs.any fun r => decide (r.owner.module = m)) = false := List.any_eq_false.mpr fun r hr inside => by
    have row : r.owner ∈ t.refs.map (·.owner) := List.mem_map_of_mem hr
    rw [given.removed.owners] at row
    obtain ⟨q, hq, same⟩ := List.mem_map.mp row
    have out := of_decide_eq_true (List.mem_filter.mp hq).2
    rw [same] at out
    exact out (of_decide_eq_true inside)
  rw [State.ownsNothing, norefs, Bool.not_false, Bool.and_true, Bool.not_eq_true', List.any_eq_false]
  exact forall₂_congr fun e _ => by rw [decide_eq_true_eq]

end

/-! ## The removal completed or awaited (R29, R35) -/

/-- The command in progress ends so when its module owns nothing. -/
def Command.EndsRemoval (c : Command) (m : Byte) (tag : Half) (status : Status) (detail : Nat) : Prop :=
  ∀ t : State, t.command = some c → t.finishRemoval =
    if t.ownsNothing m then (t.removeModule m).endCommand tag status detail else t

theorem unload_endsRemoval (tag : Half) (m : Byte) : (Command.unload tag m).EndsRemoval m tag .ok m.toNat := by
  intro t command
  unfold State.finishRemoval
  rw [command]

theorem loadTakeOut_endsRemoval (tag : Half) (m : Byte) (e : Ending) :
    (Command.loadTakeOut tag m e).EndsRemoval m tag e.status e.detail := by
  intro t command
  unfold State.finishRemoval
  rw [command]

theorem servedFaults_congr {v : State} (s : State) (refs : t.refs = v.refs) {met : Ref → Bool} : s.servedFaults t met = s.servedFaults v met := by
  rw [State.servedFaults, State.servedFaults, kindFaulted_congr refs]

/-- What the event posts before the end of a command. -/
structure State.PostsStates (s t : State) (m : Byte) : Prop where
  posts : s.Posts t [] []
  turn : s.SeekLaw → s.PostsInTurn t (s.servedFaults t fun _ => false) [] (some m)

theorem gaveUp_faults (law : s.Seeks) (m : Byte) (begun : Bool) (c : Command) (order : List Bool) :
    s.servedFaults (s.gaveUp m begun c order) (fun _ => false) =
      ((s.givingUp m begun c).backlog.filter (s.gaveUp m begun c order).kindFaulted).map kindFault := by
  have ends := gaveUp_ends law m begun c order
  have removes := givingUp_removes s m begun c
  refine servedFaults_eq law.sound.law removes.backlog fun r hr _ kind => ?_
  obtain ⟨q, hq, both⟩ := List.any_eq_true.mp kind
  obtain ⟨owner, -⟩ := (Bool.and_eq_true _ _).mp both
  have inside : q.owner ∈ (s.givingUp m begun c).refs.map (·.owner) := ends.owners ▸ List.mem_map_of_mem hq
  obtain ⟨x, hx, same⟩ := List.mem_map.mp inside
  rw [removes.refs] at hx
  rw [← of_decide_eq_true owner, ← same]
  exact (List.mem_filter.mp hx).2

theorem givingUp_notices (s : State) (m : Byte) (begun : Bool) (c : Command) : (s.givingUp m begun c).notices = s.notices := rfl

theorem gaveUp_posts (s : State) (m : Byte) (begun : Bool) (c : Command) (order : List Bool) :
    s.PostsStates (s.gaveUp m begun c order) m := by
  refine ⟨?_, fun law => ?_⟩
  · obtain ⟨l, follow, last⟩ := endEvent_followsUp (s.givingUp m begun c) s order
    exact ⟨l, follow, by rw [List.nil_append, List.append_nil]; exact last⟩
  · have seeks := ((seekLaw_iff_seeks s).mp law).2
    have states : (s.givingUp m begun c).newStates (s.gaveUp m begun c order) none = s.newStates (s.gaveUp m begun c order) (some m) :=
      newStates_unloading s (s.gaveUp m begun c order) m
    have notices := (gaveUp_ends seeks m begun c order).notices
    rw [givingUp_notices] at notices
    rw [State.PostsInTurn, List.append_nil, gaveUp_faults seeks, ← states]
    exact notices

theorem State.PostsStates.base {b : State} (h : b.PostsStates t m) {mem : Memory} {runs : Runs} (same : b = { s with mem, runs }) :
    s.PostsStates t m := by
  subst same
  refine ⟨h.posts, fun law => h.turn ?_⟩
  rw [seekLaw_iff_seeks] at law ⊢
  exact ⟨{ law.1 with }, law.2.congr rfl rfl rfl⟩

section
variable {u v : State}

/-- What the effects leave of the components that they do not touch. -/
structure State.Unmoved (s u : State) (mem : Memory) (c : Command) : Prop where
  number : u.number = s.number
  config : u.config = s.config
  inReset : u.inReset = s.inReset
  rxQueue : u.rxQueue = s.rxQueue
  outgoing : u.outgoing = s.outgoing
  held : u.held = s.held
  nextSequence : u.nextSequence = s.nextSequence
  busSeen : u.busSeen = s.busSeen
  nextGeneration : u.nextGeneration = s.nextGeneration
  commandQueue : u.commandQueue = s.commandQueue
  lastSubmit : u.lastSubmit = s.lastSubmit
  command : u.command = some c
  mem : u.mem = mem
  freeCount : u.freeCount = s.freeCount
  pending : u.pending = s.pending
  queue : u.txQueue = s.txQueue

theorem givingUp_unmoved (s : State) (m : Byte) (begun : Bool) (c : Command) : s.Unmoved (s.givingUp m begun c) s.mem c := by
  have frame := giveUp_frame s m begun
  exact ⟨frame.number, frame.config, frame.inReset, frame.rxQueue, frame.outgoing, frame.held, frame.nextSequence, frame.busSeen,
    frame.nextGeneration, frame.commandQueue, frame.lastSubmit, rfl, frame.mem, frame.freeCount, frame.pending, rfl⟩

theorem removed_done (gave : s.GaveUp u v m begun) (unmoved : s.Unmoved u (s.mem.afterStores env.stores) c) (posts : s.PostsStates v m)
    (none_ : ∀ e ∈ v.directory, e.owner.module ≠ m) {granted : List Claimant}
    (result : t = { (v.removeModule m).endCommand tag status detail with runs := s.runsRead, granted }) :
    s.Removed t env m c tag status detail := by
  have unwanted : u.wanted = [] := by
    rw [gave.wanted, ← gave.frame.directory, withdrawsOf, List.filter_eq_nil_iff.mpr fun e he here => none_ e he (of_decide_eq_true here)]
    rfl
  have directory : t.directory = v.directory := by rw [result]; rfl
  have frame := gave.frame
  refine ⟨fun _ => ⟨?_, ?_, ?_, fun law => ?_⟩, fun ⟨e, he, here⟩ => absurd here (none_ e (directory ▸ he))⟩
  · rw [result]
    obtain ⟨joined, queue, placed⟩ := frame.queue
    exact {
      station := frame.station.trans gave.station, number := frame.number.trans unmoved.number
      config := frame.config.trans unmoved.config, inReset := frame.inReset.trans unmoved.inReset
      rxQueue := frame.rxQueue.trans unmoved.rxQueue, outgoing := frame.outgoing.trans unmoved.outgoing
      held := frame.held.trans unmoved.held, nextSequence := frame.nextSequence.trans unmoved.nextSequence
      busSeen := frame.busSeen.trans unmoved.busSeen, nextGeneration := frame.nextGeneration.trans unmoved.nextGeneration
      commandQueue := congrArg List.tail (frame.commandQueue.trans unmoved.commandQueue)
      lastSubmit := frame.lastSubmit.trans unmoved.lastSubmit, command := rfl, runs := rfl
      mem := frame.mem.trans unmoved.mem, freeCount := frame.freeCount.trans unmoved.freeCount
      pending := frame.pending.trans unmoved.pending
      queue := ⟨joined, queue.trans (by rw [unmoved.queue]), fun on => ⟨[], by
        obtain ⟨now, all, -⟩ := placed (gave.station ▸ on)
        rw [unwanted] at all
        exact (List.append_eq_nil_iff.mp all.symm).2.symm, List.nil_sublist _⟩⟩
      modules := sameModules_filter gave.sameModules m }
  · rw [result]
    exact fun x hx => of_decide_eq_true (List.mem_filter.mp hx).2
  · obtain ⟨l, follow, last⟩ := posts.posts
    refine ⟨l, follow, ?_⟩
    rw [result, List.foldl_append]
    rw [List.append_nil] at last
    exact congrArg (fun n : NoticeUnit => n.take (.commandDone tag status detail)) last
  · have refs : t.refs = v.refs := by rw [result]; rfl
    have notices : t.notices = v.notices.take (.commandDone tag status detail) := by rw [result]; rfl
    have turn := posts.turn law
    rw [State.PostsInTurn, List.append_nil, ← servedFaults_congr s refs, ← newStates_congr (s := s) (s' := s) rfl refs] at turn
    rw [State.PostsInTurn, List.foldl_append, notices]
    exact congrArg (fun n : NoticeUnit => n.take (.commandDone tag status detail)) turn

theorem removed_waits (gave : s.GaveUp u v m begun) (unmoved : s.Unmoved u (s.mem.afterStores env.stores) c) (posts : s.PostsStates v m)
    (record : ∃ x ∈ v.modules, x.id = m ∧ x.state = .unloading) (owns : ¬ ∀ e ∈ v.directory, e.owner.module ≠ m) {granted : List Claimant}
    (result : t = { v with runs := s.runsRead, granted }) : s.Removed t env m c tag status detail := by
  have directory : t.directory = v.directory := by rw [result]
  have frame := gave.frame
  refine ⟨fun none_ => absurd (directory ▸ none_) owns, fun _ => ⟨?_, ?_, ?_, fun law => ?_⟩⟩
  · rw [result]
    obtain ⟨joined, queue, placed⟩ := frame.queue
    rw [gave.wanted, ← frame.directory, gave.station] at placed
    exact {
      station := frame.station.trans gave.station, number := frame.number.trans unmoved.number
      config := frame.config.trans unmoved.config, inReset := frame.inReset.trans unmoved.inReset
      rxQueue := frame.rxQueue.trans unmoved.rxQueue, outgoing := frame.outgoing.trans unmoved.outgoing
      held := frame.held.trans unmoved.held, nextSequence := frame.nextSequence.trans unmoved.nextSequence
      busSeen := frame.busSeen.trans unmoved.busSeen, nextGeneration := frame.nextGeneration.trans unmoved.nextGeneration
      commandQueue := frame.commandQueue.trans unmoved.commandQueue
      lastSubmit := frame.lastSubmit.trans unmoved.lastSubmit, command := frame.command.trans unmoved.command, runs := rfl
      mem := frame.mem.trans unmoved.mem, freeCount := frame.freeCount.trans unmoved.freeCount
      pending := frame.pending.trans unmoved.pending
      queue := ⟨joined, queue.trans (by rw [unmoved.queue]), placed⟩
      modules := gave.sameModules }
  · rw [result]
    exact record
  · rw [result]
    exact posts.posts
  · rw [result]
    exact posts.turn law

end

/-- The module is given up and the removal tested, in a state that differs from `s` in local memory and the runs of transfers. -/
theorem removed_of {b : State} {runs : Runs} (same : b = { s with mem := s.mem.afterStores env.stores, runs })
    (on : s.station ≠ .isolated) (row : ∃ x ∈ s.modules, x.id = m) (ends : c.EndsRemoval m tag status detail) {granted : List Claimant}
    (result : t = { (b.gaveUp m env.siteBegun c env.order).finishRemoval with runs := s.runsRead, granted }) :
    s.GivenUp t m env.siteBegun ∧ s.Removed t env m c tag status detail := by
  have gave : s.GaveUp (b.givingUp m env.siteBegun c) (b.gaveUp m env.siteBegun c env.order) m env.siteBegun :=
    (gaveUp_self b m env.siteBegun c env.order).base same
  have posts : s.PostsStates (b.gaveUp m env.siteBegun c env.order) m := (gaveUp_posts b m env.siteBegun c env.order).base same
  have record : ∃ x ∈ (b.gaveUp m env.siteBegun c env.order).modules, x.id = m ∧ x.state = .unloading :=
    gaveUp_record (by rw [same]; exact row) c env.order
  have unmoved : s.Unmoved (b.givingUp m env.siteBegun c) (s.mem.afterStores env.stores) c := by
    have unmoved := givingUp_unmoved b m env.siteBegun c
    generalize b.givingUp m env.siteBegun c = u at unmoved ⊢
    subst same
    exact { unmoved with }
  generalize b.givingUp m env.siteBegun c = u at gave unmoved
  generalize b.gaveUp m env.siteBegun c env.order = v at gave posts record result
  have given := gave.givenUp on
  have finish := ends v (gave.frame.command.trans unmoved.command)
  have owns := ownsNothing_gaveUp given
  by_cases done : v.ownsNothing m = true
  · rw [finish, if_pos done] at result
    exact ⟨given.congr (by rw [result]; rfl), removed_done gave unmoved posts (owns.mp done) result⟩
  · rw [finish, if_neg done] at result
    exact ⟨given.congr (by rw [result]), removed_waits gave unmoved posts record (fun none_ => done (owns.mpr none_)) result⟩

end Sys2Proof.Machine

/-! UNLOAD (R32 to R35), and the commit pass that finds its next record at fault (R29). -/

namespace Sys2Proof.Machine

variable {s t : State} {env : Env} {a : Word} {m : Byte}

theorem module?_eq_none (none_ : ∀ x ∈ s.modules, x.id ≠ m) : s.module? m = none :=
  List.find?_eq_none.mpr fun x hx here => none_ x hx (of_decide_eq_true here)

/-! ## UNLOAD -/

theorem exec_unload (h : s.Holds env a .unload) (active : s.station = .active) :
    exec (.unload env) s = .next (((s.forTransfers env).unloadModule env (s.tagAt env a) (s.arguments env a .unload)).endFetch.served .commandEngine) :=
  congrArg Host.Outcome.next (h.taken (by decide) (decide_eq_true active) _)

theorem moduleArgument_unload (s : State) (env : Env) (a : Word) :
    moduleArgument (s.arguments env a .unload) = byteAt (s.blockWord env a 1) 3 := rfl

theorem unloadModule_none {words : List Word} (arg : moduleArgument words = m) (none_ : s.module? m = none) (env : Env) (tag : Half) :
    s.unloadModule env tag words = s.endCommand tag .unknownModule m.toNat := by
  simp only [State.unloadModule, arg, none_]

theorem unloadModule_some {words : List Word} (arg : moduleArgument words = m) (some_ : (s.module? m).isSome = true) (env : Env) (tag : Half) :
    s.unloadModule env tag words = (s.gaveUp m env.siteBegun (.unload tag m) env.order).finishRemoval := by
  obtain ⟨rec, found⟩ := Option.isSome_iff_exists.mp some_
  simp only [State.unloadModule, arg, found]
  rfl

theorem finishRemoval_runs (s : State) : s.finishRemoval.runs = s.runs := by
  unfold State.finishRemoval
  split
  · split <;> rfl
  · split <;> rfl
  · rfl

theorem gaveUp_runs (s : State) (m : Byte) (begun : Bool) (c : Command) (order : List Bool) :
    (s.gaveUp m begun c order).finishRemoval.runs = s.runs := by
  have gave : (s.gaveUp m begun c order).runs = (s.givingUp m begun c).runs := (gaveUp_frame s m begun c order).runs
  have giving : (s.givingUp m begun c).runs = s.runs := (giveUp_frame s m begun).runs
  exact (finishRemoval_runs _).trans (gave.trans giving)

/-- Settles O29: the command ends at once, or its module is given up and its removal tested. -/
theorem unloadOutcomes : Obligations.UnloadOutcomes := by
  intro s env a h active m
  refine ⟨fun none_ => ?_, fun row => ?_⟩
  · rw [exec_unload h active, unloadModule_none (s := s.forTransfers env) (moduleArgument_unload s env a) (module?_eq_none none_),
      h.endCommand (by decide)]
  · have known : ((s.forTransfers env).module? m).isSome = true := (module?_isSome_iff (s.forTransfers env) m).mpr row
    have exec_ := exec_unload h active
    rw [unloadModule_some (moduleArgument_unload s env a) known] at exec_
    have runs : ((s.forTransfers env).gaveUp m env.siteBegun (.unload (s.tagAt env a) m) env.order).finishRemoval.runs = s.runs :=
      gaveUp_runs ..
    have removed := fun t granted => removed_of (t := t) (granted := granted) (b := s.forTransfers env) (runs := s.runs) rfl (by rw [active]; exact fun h => nomatch h) row
      (unload_endsRemoval (s.tagAt env a) m)
    generalize ((s.forTransfers env).gaveUp m env.siteBegun (.unload (s.tagAt env a) m) env.order).finishRemoval = v at exec_ runs removed
    refine ⟨_, exec_, removed _ (v.endFetch.grantAfter .commandEngine) ?_⟩
    rw [State.runsRead, ← runs]
    rfl

/-! ## A commit pass at fault -/

theorem takeOut_eq {tag : Half} {i j off sum : Nat} (command : s.command = some (.loadCommit tag m i j off sum)) (e : Ending) :
    s.takeOut env e = (s.gaveUp m env.siteBegun (.loadTakeOut tag m e) env.order).finishRemoval := by
  rw [State.takeOut, command]
  rfl

theorem exec_loadCommitFault (reads : s.ReadsRecord env) {e : Ending} (read : (s.forTransfers env).readCommit env = some (.error e)) :
    exec (.loadCommitFault env) s = .next ((s.forTransfers env).endFetch.commitFault env e) := by
  rw [exec, execLoadCommitFault, commitStep_error reads read]

/-- Settles O36: the module is given up and its removal tested, whichever row finds the fault. -/
theorem commitFault : Obligations.CommitFault := by
  intro s env tag m i j off sum rec e reads on command module read
  have fault := exec_loadCommitFault reads read
  refine ⟨?_, fun exports => ?_, fun imports => ?_⟩
  · have command' : (s.forTransfers env).endFetch.command = some (.loadCommit tag m i j off sum) := command
    have exec_ := fault
    rw [State.commitFault, takeOut_eq command'] at exec_
    have row := (module?_isSome_iff s m).mp (by rw [module]; rfl)
    have runs : ((s.forTransfers env).endFetch.gaveUp m env.siteBegun (.loadTakeOut tag m e) env.order).finishRemoval.runs = s.runsRead :=
      gaveUp_runs ..
    have removed := fun t granted => removed_of (t := t) (granted := granted) (b := (s.forTransfers env).endFetch) (runs := s.runsRead) rfl on row
      (loadTakeOut_endsRemoval tag m e)
    generalize ((s.forTransfers env).endFetch.gaveUp m env.siteBegun (.loadTakeOut tag m e) env.order).finishRemoval = v at exec_ runs removed
    refine ⟨_, exec_, removed _ (v.grantAfter .commandEngine) ?_⟩
    rw [← runs]
    rfl
  · rw [fault, exec, execLoadCommitExport, exportDue_iff command module, decide_eq_true exports, if_pos rfl, commitStep_error reads read]
  · rw [fault, exec, execLoadCommitImport, exportDue_iff command module, decide_eq_false (Nat.not_lt.mpr imports), if_neg Bool.false_ne_true,
      commitStep_error reads read]

end Sys2Proof.Machine

/-! The isolation of the station (R36, R57, R85, R126, R148, R162). -/

namespace Sys2Proof.Machine

variable {s t u v : State} {m : Byte} {begun : Bool} {c : Command}

/-! ## What every block does -/

/-- The station cut from the bus, with STATION-ISOLATED posted. -/
structure State.Cut (s v : State) : Prop where
  station : v.station = .isolated
  txQueue : v.txQueue = []
  rxQueue : v.rxQueue = []
  wanted : v.wanted = []
  answers : v.answers = []
  outgoing : v.outgoing = none
  held : v.held = none
  line : v.line = .quiet
  slots : v.slots = s.slots.map (Option.map Slot.isolated)
  directory : v.directory = s.directory.map ExportEntry.isolated
  refs : v.refs = s.refs
  backlog : v.backlog = s.backlog
  patchQueue : v.patchQueue = s.patchQueue
  walk : v.walk = s.walk
  transfer : v.transfer = s.transfer
  modules : v.modules = s.modules
  command : v.command = s.command
  commandQueue : v.commandQueue = s.commandQueue
  runs : v.runs = s.runs
  notices : v.notices = s.notices.take .stationIsolated

theorem cut_self (s : State) : s.Cut (s.cutFromBus.post .stationIsolated) :=
  ⟨rfl, rfl, rfl, rfl, rfl, rfl, rfl, rfl, rfl, rfl, rfl, rfl, rfl, rfl, rfl, rfl, rfl, rfl, rfl, rfl⟩

theorem isolated_entry (e : ExportEntry) : e.isolated = if e.isLive then { e with state := .live [] } else e := by
  obtain ⟨key, owner, target, kind, generation, state⟩ := e
  cases state <;> rfl

theorem State.Cut.directory_eq (cut : s.Cut v) :
    v.directory = s.directory.map fun e => if e.isLive then { e with state := .live [] } else e :=
  cut.directory.trans (List.map_congr_left fun e _ => isolated_entry e)

theorem isolated_owed (e : ExportEntry) : e.isolated.state.owed = [] := by
  obtain ⟨key, owner, target, kind, generation, state⟩ := e
  cases state <;> rfl

theorem State.Cut.owed (cut : s.Cut v) : ∀ e ∈ v.directory, e.state.owed = [] := by
  intro e he
  rw [cut.directory] at he
  obtain ⟨x, -, rfl⟩ := List.mem_map.mp he
  exact isolated_owed x

/-- No timer runs, and no slot asks for room. -/
def Slot.Off (x : Slot) : Prop := x.timer = false ∧ x.awaitingRoom = false

theorem State.Cut.slots_off (cut : s.Cut v) : ∀ x, some x ∈ v.slots → x.Off := by
  intro x hx
  rw [cut.slots] at hx
  obtain ⟨o, -, off⟩ := List.mem_map.mp hx
  obtain ⟨y, -, rfl⟩ := Option.map_eq_some_iff.mp off
  exact ⟨rfl, rfl⟩

/-- What every isolation leaves. -/
structure State.OffBus (s t : State) : Prop where
  station : t.station = .isolated
  queues : t.txQueue = [] ∧ t.rxQueue = [] ∧ t.wanted = [] ∧ t.answers = []
  frames : t.outgoing = none ∧ t.held = none ∧ t.line = .quiet
  slots : ∀ x, some x ∈ t.slots → x.timer = false ∧ x.awaitingRoom = false
  owed : ∀ e ∈ t.directory, e.state.owed = []

theorem State.Cut.offBus (cut : s.Cut v) {modules : List ModuleRecord} {notices : NoticeUnit} {commandQueue : List Word} {command : Option Command}
    {runs : Runs} {granted : List Claimant} (same : t = { v with modules, notices, commandQueue, command, runs, granted }) : s.OffBus t := by
  subst same
  exact ⟨cut.station, ⟨cut.txQueue, cut.rxQueue, cut.wanted, cut.answers⟩, ⟨cut.outgoing, cut.held, cut.line⟩, cut.slots_off, cut.owed⟩

/-- What the isolation keeps of the station. -/
structure State.StaysOn (s t : State) : Prop where
  kept : t.number = s.number ∧ t.config = s.config ∧ t.peers = s.peers ∧ t.nextSequence = s.nextSequence ∧
    t.nextGeneration = s.nextGeneration ∧ t.mem = s.mem ∧ t.inReset = s.inReset ∧ t.lastSubmit = s.lastSubmit ∧
    t.freeCount = s.freeCount

/-! ## No module is abandoned -/

/-- The tables that stay where no module is abandoned. -/
theorem State.Cut.others (cut : s.Cut v) {modules : List ModuleRecord} {notices : NoticeUnit} {commandQueue : List Word} {command : Option Command}
    {runs : Runs} {granted : List Claimant} (same : t = { v with modules, notices, commandQueue, command, runs, granted })
    (kept : s.firstPassLoad = none → modules = s.modules) :
    t.refs = s.refs ∧ (s.firstPassLoad = none → t.modules = s.modules) ∧ t.backlog = s.backlog ∧ t.patchQueue = s.patchQueue ∧
    t.slots = s.slots.map (Option.map fun x => { x with timer := false, awaitingRoom := false }) ∧
    t.walk = s.walk ∧ t.transfer = s.transfer ∧
    t.directory = s.directory.map fun e => if e.isLive then { e with state := .live [] } else e := by
  subst same
  exact ⟨cut.refs, kept, cut.backlog, cut.patchQueue, cut.slots, cut.walk, cut.transfer, cut.directory_eq⟩

theorem firstPassLoad_of_command (command : s.command = some c) : s.firstPassLoad = none := by
  rw [State.firstPassLoad, command]
  rfl

/-- The command in progress goes on: there is none, or it is a REPORT. -/
theorem State.Cut.goesOn (cut : s.Cut v) (stays : s.StaysOn t) (idle : (s.command = none ∧ s.firstPassLoad = none) ∨ s.reporting = true)
    {granted : List Claimant} (same : t = { v with granted }) : s.Isolated t begun := by
  have off := cut.offBus (t := t) same
  have others := cut.others (t := t) same fun _ => cut.modules
  have noModule : ∀ c, s.command = some c → c.moduleOf = none ∧ s.reporting = true := by
    intro c command
    obtain ⟨none_, -⟩ | report := idle
    · cases none_.symm.trans command
    · refine ⟨?_, report⟩
      rw [State.reporting, command] at report
      cases c with
      | report => rfl
      | _ => cases report
  have noPass : s.firstPassLoad = none := by
    obtain ⟨-, none_⟩ | report := idle
    · exact none_
    · cases command : s.command with
      | none => rw [State.reporting, command] at report; cases report
      | some c => exact firstPassLoad_of_command command
  refine ⟨off.station, off.queues, off.frames, off.slots, off.owed, stays.kept, fun _ => ?_, fun c command unreporting => ?_, fun tag id pass => ?_,
    fun c m command module => ?_, fun _ => others⟩
  · subst same
    exact ⟨cut.command, cut.commandQueue, cut.runs, cut.notices⟩
  · rw [(noModule c command).2] at unreporting
    cases unreporting
  · cases noPass.symm.trans pass
  · cases (noModule c command).1.symm.trans module

/-- A START or STOP in progress ends. -/
theorem State.Cut.endsCommand (cut : s.Cut v) (stays : s.StaysOn t) {c : Command} (command : s.command = some c) (noModule : c.moduleOf = none)
    (unreporting : s.reporting = false) {granted : List Claimant} (same : t = { v.endCommand c.tag .refusedState 0 with granted }) :
    s.Isolated t begun := by
  have noPass := firstPassLoad_of_command command
  have off := cut.offBus (t := t) same
  have others := cut.others (t := t) same fun _ => cut.modules
  have notices : t.notices = (s.notices.take .stationIsolated).take (.commandDone c.tag .refusedState 0) := by
    rw [same, ← cut.notices]
    rfl
  refine ⟨off.station, off.queues, off.frames, off.slots, off.owed, stays.kept, fun going => ?_, fun c' command' _ => ?_, fun tag id pass => ?_,
    fun c' m command' module => ?_, fun _ => others⟩
  · obtain ⟨none_, -⟩ | report := going
    · cases none_.symm.trans command
    · cases unreporting.symm.trans report
  · cases command.symm.trans command'
    refine ⟨?_, ?_, ⟨[], fun _ h => (nomatch h), ?_⟩, fun _ => ⟨?_, notices⟩⟩
    · rw [same]; rfl
    · rw [same, ← cut.commandQueue]; rfl
    · rw [noModule]
      exact notices
    · rw [same, ← cut.runs]; rfl
  · cases noPass.symm.trans pass
  · cases command.symm.trans command'
    cases noModule.symm.trans module

theorem isolated_owner (e : ExportEntry) : e.isolated.owner = e.owner := by
  rw [isolated_entry]
  split <;> rfl

theorem State.Cut.otherModules (cut : s.Cut v) : v.otherModules = s.otherModules := by
  have owns : ∀ m, v.ownsNothing m = s.ownsNothing m := by
    intro m
    rw [State.ownsNothing, State.ownsNothing, cut.directory, cut.refs, List.any_map]
    simp only [Function.comp_def, isolated_owner]
  have loading : v.loadingId = s.loadingId := by
    rw [State.loadingId, State.loadingId, State.firstPassLoad, State.firstPassLoad, cut.command, cut.runs]
  rw [State.otherModules, State.otherModules, cut.modules]
  refine List.filter_congr fun x _ => ?_
  rw [State.isLoading, State.isLoading, loading, owns]

/-- A LOAD in its first pass ends. -/
theorem State.Cut.endsFirstPass (cut : s.Cut v) (stays : s.StaysOn t) {tag : Half} {id : Option Byte} (pass : s.firstPassLoad = some (tag, id))
    {granted : List Claimant}
    (same : t = { (v.withoutLoading.endCommand tag .refusedState ((id.map (·.toNat)).getD 0)).endFetch with granted }) :
    s.Isolated t begun := by
  have idle : s.command = none := by
    rw [State.firstPassLoad] at pass
    split at pass
    · assumption
    · cases pass
  have same' : t = { v with modules := v.otherModules, notices := v.notices.take (.commandDone tag .refusedState ((id.map (·.toNat)).getD 0))
                            commandQueue := v.commandQueue.tail, command := none, runs := v.runsRead, granted } := by
    rw [same]
    simp only [State.endFetch, State.endCommand, State.post, State.withoutLoading, State.runsRead]
  have off := cut.offBus same'
  have others := cut.others same' fun none_ => nomatch none_.symm.trans pass
  refine ⟨off.station, off.queues, off.frames, off.slots, off.owed, stays.kept, fun going => ?_, fun c command _ => ?_, fun tag' id' pass' => ?_,
    fun c m command _ => ?_, fun _ => others⟩
  · obtain ⟨-, none_⟩ | report := going
    · cases none_.symm.trans pass
    · rw [State.reporting, idle] at report
      cases report
  · cases idle.symm.trans command
  · cases pass.symm.trans pass'
    refine ⟨?_, ?_, ?_, ?_, ?_⟩
    · rw [same']
    · rw [same', ← cut.commandQueue]
    · rw [same', State.runsRead, State.runsRead, ← cut.runs]
    · rw [same', ← cut.otherModules]
    · rw [same', ← cut.notices]
  · cases idle.symm.trans command

end Sys2Proof.Machine

/-! The command of an isolated station's module is abandoned with the module (R36), and the rows that isolate (R145, R148, R162). -/

namespace Sys2Proof.Machine

variable {s t u v b : State} {m : Byte} {begun : Bool} {c : Command}

/-! ## The end of an event in ISOLATED (R85) -/

/-- No slot's timer runs. -/
def State.Untimed (s : State) : Prop := ∀ x, some x ∈ s.slots → x.timer = false

theorem takeSlot_untimed (h : s.Untimed) (r : Ref) (n : Nat) : (s.takeSlot r n).Untimed := by
  intro x hx
  obtain old | new := List.mem_or_eq_of_mem_set hx
  · exact h x old
  · cases new
    rfl

theorem serveOne_untimed (h : s.Untimed) (r : Ref) (n : Nat) : (s.serveOne r n).Untimed := by
  unfold State.serveOne
  split
  · unfold State.offerBinding
    split <;> exact h
  · split
    · exact h
    · exact takeSlot_untimed h r n

theorem serveRounds_untimed (n : Nat) : ∀ s : State, s.Untimed → (s.serveRounds n).Untimed := by
  induction n with
  | zero => exact fun _ h => h
  | succ n ih =>
    intro s h
    unfold State.serveRounds
    split
    · next free o rest _ _ =>
      have h : ({ s with backlog := rest } : State).Untimed := h
      dsimp only
      split
      · exact ih _ (serveOne_untimed h _ _)
      · exact ih _ h
    · exact h

/-- The end of an event in ISOLATED: no frame is queued or wanted, no slot's timer runs, and none asks for room. -/
structure State.EndsOff (t : State) : Prop where
  txQueue : t.txQueue = []
  wanted : t.wanted = []
  slots : ∀ x, some x ∈ t.slots → x.Off

theorem endEvent_off (station : u.station = .isolated) (queue : u.txQueue = []) (untimed : u.Untimed) (order : List Bool) :
    (u.endEvent b order).EndsOff := by
  obtain ⟨w, result, served⟩ := endEvent_cases u b order
  have rounds : w.txQueue = [] ∧ w.Untimed ∧ w.station = .isolated := by
    obtain rfl | ⟨rfl, -⟩ := served
    · exact ⟨(serveRounds_taken _ u).queue.trans queue, serveRounds_untimed _ u untimed, (serveRounds_frame _ u).station.trans station⟩
    · exact ⟨queue, untimed, station⟩
  obtain ⟨queue, untimed, station⟩ := rounds
  obtain ⟨-, slots, -, -, txQueue, -⟩ := settleModules_tables w.appendWalks
  have here : w.appendWalks.settleModules.station = .isolated := ((appendWalks_frame w).trans (settleModules_frame _)).station.trans station
  rw [result, State.arbitrate, if_pos here]
  refine ⟨txQueue.trans queue, rfl, fun x hx => ?_⟩
  obtain ⟨o, ho, off⟩ := List.mem_map.mp hx
  obtain ⟨y, rfl, rfl⟩ := Option.map_eq_some_iff.mp off
  rw [slots] at ho
  exact ⟨untimed y ho, rfl⟩

/-! ## The module abandoned (R36) -/

theorem abandoned_removes (cut : s.Cut v) (m : Byte) (begun : Bool) : s.Removes (v.abandoned m begun) m begun := by
  have walks : v.walksIn m = s.walksIn m := by rw [State.walksIn, State.walksIn, cut.walk]
  have removes : v.Removes (v.abandoned m begun) m begun := ⟨rfl, rfl, rfl, rfl, rfl⟩
  obtain ⟨refs, backlog, patchQueue, walk, transfer⟩ := removes
  rw [cut.refs] at refs
  rw [cut.backlog] at backlog
  rw [cut.patchQueue] at patchQueue
  rw [walks, cut.walk] at walk
  rw [walks, cut.transfer] at transfer
  exact ⟨refs, backlog, patchQueue, walk, transfer⟩

theorem abandoned_slotsLeft (v : State) (m : Byte) (begun : Bool) : v.SlotsLeft (v.abandoned m begun) :=
  freeEmptySlots_slotsLeft { v with refs := v.refs.filter fun r => decide (r.owner.module ≠ m) }

theorem State.SlotsLeft.untimed (left : v.SlotsLeft u) (untimed : v.Untimed) : u.Untimed := by
  intro x hx
  obtain ⟨i, hi⟩ := List.mem_iff_getElem?.mp hx
  exact untimed x (List.mem_of_getElem? (left i x hi))

theorem State.Cut.seeks (cut : s.Cut v) (law : s.Seeks) : v.Seeks := by
  refine law.rekeyed cut.refs cut.backlog ?_
  rw [State.slotKeys, cut.slots]
  exact cutFromBus_slotKeys s

theorem abandoned_prepared (law : v.Seeks) (m : Byte) (begun : Bool) : v.Prepared (v.abandoned m begun) :=
  (removeRefs_prepared (t := v) law rfl rfl rfl m begun).congr rfl rfl

theorem State.Cut.slotsUnasked (cut : s.Cut v) : v.slotsUnasked = s.slotsUnasked.map (Option.map fun x => { x with timer := false }) := by
  rw [State.slotsUnasked, State.slotsUnasked, cut.slots, List.map_map, List.map_map]
  refine List.map_congr_left fun o _ => ?_
  cases o <;> rfl

theorem abandoned_tables (cut : s.Cut v) (on : s.station ≠ .isolated) (isolated : t.station = .isolated) (m : Byte) (begun : Bool) :
    (v.abandoned m begun).seekTables = s.tablesWithout t m := by
  have timed : s.timed t = fun x => { x with timer := false } := funext fun x =>
    if_neg fun same : t.station = s.station => on (same.symm.trans isolated)
  rw [State.tablesWithout, timed]
  exact removeRefs_tables s v m begun _ cut.refs cut.backlog cut.slotsUnasked

/-- The event in which the module is abandoned. -/
structure State.Abandons (s v u t : State) (m : Byte) (begun : Bool) : Prop where
  removes : s.Removes u m begun
  directory : u.directory = v.directory.filter fun e => decide (e.owner.module ≠ m)
  modules : u.modules = s.modules.filter fun x => decide (x.id ≠ m)
  notices : u.notices = v.notices
  station : u.station = .isolated
  rxQueue : u.rxQueue = []
  answers : u.answers = []
  outgoing : u.outgoing = none
  held : u.held = none
  line : u.line = .quiet
  commandQueue : u.commandQueue = s.commandQueue
  runs : u.runs = s.runs
  frame : ReferenceFrame u t
  thins : u.Thins t
  walks : t.WalksJoined u.patchQueue
  off : t.EndsOff
  follow : u.FollowsUp t
  served : s.SeekLaw → v.ServedFrom t (s.tablesWithout t m)
  faults : s.SeekLaw → t.notices =
    (s.servedFaults t (fun _ => false) ++ s.newStates t (some m)).foldl NoticeUnit.take u.notices

theorem newStates_without (s t : State) (m : Byte) :
    ({ s with modules := s.modules.filter fun x => decide (x.id ≠ m) } : State).newStates t none = s.newStates t (some m) := by
  rw [State.newStates, State.newStates, List.filterMap_filter]
  refine List.filterMap_congr fun x _ => ?_
  by_cases here : x.id = m
  · simp [here]
  · simp [here, Ne.symm here]

theorem removes_faults (law : s.Seeks) (removes : s.Removes u m begun) (owners : t.refs.map (·.owner) = u.refs.map (·.owner)) :
    s.servedFaults t (fun _ => false) = (u.backlog.filter t.kindFaulted).map kindFault := by
  refine servedFaults_eq law.sound.law removes.backlog fun r hr _ kind => ?_
  obtain ⟨q, hq, both⟩ := List.any_eq_true.mp kind
  obtain ⟨owner, -⟩ := (Bool.and_eq_true _ _).mp both
  have inside : q.owner ∈ u.refs.map (·.owner) := owners ▸ List.mem_map_of_mem hq
  obtain ⟨x, hx, same⟩ := List.mem_map.mp inside
  rw [removes.refs] at hx
  rw [← of_decide_eq_true owner, ← same]
  exact (List.mem_filter.mp hx).2

theorem abandoned_fields (v : State) (m : Byte) (begun : Bool) :
    (v.abandoned m begun).directory = (v.directory.filter fun e => decide (e.owner.module ≠ m)) ∧
    (v.abandoned m begun).modules = (v.modules.filter fun x => decide (x.id ≠ m)) ∧ (v.abandoned m begun).notices = v.notices :=
  ⟨rfl, rfl, rfl⟩

theorem abandons_self (cut : s.Cut v) (on : s.station ≠ .isolated) (m : Byte) (begun : Bool) :
    s.Abandons v (v.abandoned m begun) ((v.abandoned m begun).endEvent v) m begun := by
  have removes := abandoned_removes cut m begun
  obtain ⟨directory, modules, notices⟩ := abandoned_fields v m begun
  have left := abandoned_slotsLeft v m begun
  have untimed : v.Untimed := fun x hx => (cut.slots_off x hx).1
  have frame := endEvent_frame (v.abandoned m begun) v []
  have kept : TableFrame v (v.removeRefs m begun) := removeRefs_frame v m begun
  have station : (v.abandoned m begun).station = .isolated := kept.station.trans cut.station
  have tables := abandoned_tables (t := (v.abandoned m begun).endEvent v) cut on (frame.station.trans station) m begun
  have ends : s.SeekLaw → v.ServedEnd (v.abandoned m begun) ((v.abandoned m begun).endEvent v) := fun law =>
    (abandoned_prepared (cut.seeks ((seekLaw_iff_seeks s).mp law).2) m begun).ends rfl left []
  refine ⟨removes, directory, modules.trans (by rw [cut.modules]), notices, station, kept.rxQueue.trans cut.rxQueue, cut.answers,
    kept.outgoing.trans cut.outgoing, kept.held.trans cut.held, cut.line, kept.commandQueue.trans cut.commandQueue,
    kept.runs.trans cut.runs, frame, endEvent_thins _ v [], endEvent_walks _ v [], ?_, endEvent_followsUp _ v [], fun law => ?_, fun law => ?_⟩
  · exact endEvent_off station cut.txQueue (left.untimed untimed) []
  · rw [← tables]
    exact (ends law).served
  · have states : (v.abandoned m begun).newStates ((v.abandoned m begun).endEvent v) none =
        s.newStates ((v.abandoned m begun).endEvent v) (some m) := by
      rw [← newStates_without]
      exact newStates_congr (modules.trans (by rw [cut.modules])) rfl
    rw [removes_faults ((seekLaw_iff_seeks s).mp law).2 removes (ends law).owners, ← states]
    exact (ends law).notices

theorem State.Abandons.refsRemoved (h : s.Abandons v u t m begun) : s.RefsRemoved t m begun := by
  refine refsRemoved_of h.removes h.thins h.frame h.walks fun law => ⟨(h.served law).serving, fun n y _ slot => ?_⟩
  have asks := (h.off.slots y (List.mem_of_getElem? slot)).2
  have isolated : t.station = .isolated := h.frame.station.trans h.station
  exact ⟨fun _ => asks, fun _ => asks, fun on => absurd isolated on⟩

/-- A command on a module ends, and its module is abandoned. -/
theorem State.Cut.abandons (cut : s.Cut v) (on : s.station ≠ .isolated) (stays : s.StaysOn t) {c : Command} (command : s.command = some c)
    (module : c.moduleOf = some m) (unreporting : s.reporting = false) {granted : List Claimant}
    (same : t = { v.abandonModule c.tag m begun with granted }) : s.Isolated t begun := by
  have noPass := firstPassLoad_of_command command
  have event := abandons_self cut on m begun
  rw [abandonModule_eq] at same
  generalize v.abandoned m begun = u at event same
  generalize u.endEvent v = e at event same
  have same' : t = { e with notices := e.notices.take (.commandDone c.tag .refusedState m.toNat), commandQueue := e.commandQueue.tail
                            command := none, runs := { e.runs with fetched := [] }, granted } := by
    rw [same]
    simp only [State.endFetch, State.endCommand, State.post]
  have frame := event.frame
  have directory : t.directory = ((s.directory.filter fun e => decide (e.owner.module ≠ m)).map fun e =>
      if e.isLive then { e with state := .live [] } else e) := by
    have entries : t.directory = v.directory.filter fun e => decide (e.owner.module ≠ m) := by
      rw [same']
      exact frame.directory.trans event.directory
    rw [entries, cut.directory_eq, List.filter_map]
    congr 1
    refine List.filter_congr fun x _ => ?_
    dsimp only [Function.comp]
    split <;> rfl
  have runs : t.runs = s.runsRead := by
    rw [same']
    change ({ e.runs with fetched := [] } : Runs) = _
    rw [State.runsRead, ← event.runs, ← frame.runs]
  have posted : e.notices.take (.commandDone c.tag .refusedState m.toNat) = t.notices := by rw [same']
  have first : u.notices = s.notices.take .stationIsolated := event.notices.trans cut.notices
  have refs : t.refs = e.refs := by rw [same']
  refine ⟨?_, ⟨?_, ?_, ?_, ?_⟩, ⟨?_, ?_, ?_⟩, ?_, ?_, stays.kept, fun going => ?_, fun c' command' _ => ?_, fun tag id pass => ?_,
    fun c' m' command' module' => ?_, fun none_ => ?_⟩
  · rw [same']; exact frame.station.trans event.station
  · rw [same']; exact event.off.txQueue
  · rw [same']; exact frame.rxQueue.trans event.rxQueue
  · rw [same']; exact event.off.wanted
  · rw [same']; exact frame.answers.trans event.answers
  · rw [same']; exact frame.outgoing.trans event.outgoing
  · rw [same']; exact frame.held.trans event.held
  · rw [same']; exact frame.line.trans event.line
  · rw [same']; exact event.off.slots
  · intro x hx
    rw [directory] at hx
    obtain ⟨y, -, rfl⟩ := List.mem_map.mp hx
    rw [← isolated_entry]
    exact isolated_owed y
  · obtain ⟨none_, -⟩ | report := going
    · cases none_.symm.trans command
    · cases unreporting.symm.trans report
  · cases command.symm.trans command'
    obtain ⟨l, follow, last⟩ := event.follow
    refine ⟨by rw [same'], ?_, ⟨l, follow, ?_⟩, fun none_ => nomatch none_.symm.trans module⟩
    · rw [same']
      exact congrArg List.tail (frame.commandQueue.trans event.commandQueue)
    · rw [← posted, last, first, module, List.foldl_append, List.foldl_append]
      rfl
  · cases noPass.symm.trans pass
  · cases command.symm.trans command'
    cases module.symm.trans module'
    refine ⟨?_, directory, ?_, runs, fun law => ?_⟩
    · rw [same']
      have modules := frame.modules
      rw [event.modules] at modules
      exact modules
    · rw [same']
      exact event.refsRemoved.congr rfl rfl rfl rfl rfl rfl rfl rfl rfl rfl
    · rw [State.PostsInTurn, ← posted, event.faults law, first, servedFaults_congr s refs, newStates_congr (s := s) (s' := s) rfl refs,
        List.foldl_append (l := _ ++ _)]
      rfl
  · cases (none_ c command).symm.trans module

/-! ## The isolation -/

theorem dropTransfer_eq (s : State) : ∃ granted, s.dropTransfer = { s with granted } := by
  unfold State.dropTransfer
  split
  · exact ⟨_, rfl⟩
  · exact ⟨_, rfl⟩

/-- The command in progress ended, in a state cut from the bus. -/
def State.endIsolated (v : State) (begun : Bool) : State :=
  match v.command with
  | some (.loadCommit tag m _ _ _ _) => (v.abandonModule tag m begun).dropTransfer
  | some (.loadTakeOut tag m _) => (v.abandonModule tag m begun).dropTransfer
  | some (.unload tag m) => (v.abandonModule tag m begun).dropTransfer
  | some (.start tag) => (v.endCommand tag .refusedState 0).dropTransfer
  | some (.stop tag) => (v.endCommand tag .refusedState 0).dropTransfer
  | some (.report ..) => v.settleAgent
  | none =>
    match v.firstPassLoad with
    | some (tag, id) => (v.withoutLoading.endCommand tag .refusedState ((id.map (·.toNat)).getD 0)).endFetch.dropTransfer
    | none => v.settleAgent

theorem isolate_eq (s : State) (operand : Bool) :
    s.isolate operand = (s.cutFromBus.post .stationIsolated).endIsolated (s.siteBegan operand) := rfl

theorem endIsolated_isolated (cut : s.Cut v) (on : s.station ≠ .isolated) (stays : s.StaysOn (v.endIsolated begun)) :
    s.Isolated (v.endIsolated begun) begun := by
  have reporting : ∀ c, s.command = some c → (∀ tag sel m buffer capacity n, c ≠ .report tag sel m buffer capacity n) → s.reporting = false := by
    intro c command other
    rw [State.reporting, command]
    cases c with
    | report tag sel m buffer capacity n => exact absurd rfl (other tag sel m buffer capacity n)
    | _ => rfl
  have abandons : ∀ c m, s.command = some c → c.moduleOf = some m → v.endIsolated begun = (v.abandonModule c.tag m begun).dropTransfer →
      s.Isolated (v.endIsolated begun) begun := by
    intro c m command module result
    obtain ⟨granted, same⟩ := dropTransfer_eq (v.abandonModule c.tag m begun)
    refine cut.abandons on stays command module (reporting c command ?_) (result.trans same)
    rintro tag sel m' buffer capacity n rfl
    cases module
  have ends : ∀ c, s.command = some c → c.moduleOf = none → s.reporting = false →
      v.endIsolated begun = (v.endCommand c.tag .refusedState 0).dropTransfer → s.Isolated (v.endIsolated begun) begun := by
    intro c command module unreporting result
    obtain ⟨granted, same⟩ := dropTransfer_eq (v.endCommand c.tag .refusedState 0)
    exact cut.endsCommand stays command module unreporting (result.trans same)
  cases command : s.command with
  | some c =>
    have now : v.command = some c := cut.command.trans command
    cases c with
    | loadCommit tag m i j off sum => exact abandons _ m command rfl (by rw [State.endIsolated, now]; rfl)
    | loadTakeOut tag m e => exact abandons _ m command rfl (by rw [State.endIsolated, now]; rfl)
    | unload tag m => exact abandons _ m command rfl (by rw [State.endIsolated, now]; rfl)
    | start tag => exact ends _ command rfl (reporting _ command fun _ _ _ _ _ _ h => nomatch h) (by rw [State.endIsolated, now]; rfl)
    | stop tag => exact ends _ command rfl (reporting _ command fun _ _ _ _ _ _ h => nomatch h) (by rw [State.endIsolated, now]; rfl)
    | report tag sel m buffer capacity n =>
      have settles : v.endIsolated begun = v.settleAgent := by rw [State.endIsolated, now]
      exact cut.goesOn stays (.inr (by rw [State.reporting, command])) (granted := v.settleAgent.granted) (settles.trans rfl)
  | none =>
    have now : v.command = none := cut.command.trans command
    have pass : v.firstPassLoad = s.firstPassLoad := by rw [State.firstPassLoad, State.firstPassLoad, cut.command, cut.runs]
    cases first : s.firstPassLoad with
    | none =>
      have settles : v.endIsolated begun = v.settleAgent := by
        rw [State.endIsolated, now]
        simp only [pass.trans first]
      exact cut.goesOn stays (.inl ⟨command, first⟩) (granted := v.settleAgent.granted) (settles.trans rfl)
    | some p =>
      obtain ⟨tag, id⟩ := p
      obtain ⟨granted, same⟩ := dropTransfer_eq (v.withoutLoading.endCommand tag .refusedState ((id.map (·.toNat)).getD 0)).endFetch
      refine cut.endsFirstPass stays first (granted := granted) ?_
      rw [← same, State.endIsolated, now]
      simp only [pass.trans first]

/-- A station isolated with this in its held-frame record and this seen of the bus. -/
theorem isolate_isolated (on : s.station ≠ .isolated) {held : Option HeldRecord} {busSeen : Bool} (operand : Bool) :
    s.Isolated (({ s with held, busSeen } : State).isolate operand) (s.siteBegan operand) ∧
      (({ s with held, busSeen } : State).isolate operand).busSeen = busSeen := by
  have kept := isolate_kept { s with held, busSeen } operand
  have stays : s.StaysOn (({ s with held, busSeen } : State).isolate operand) :=
    ⟨kept.number, kept.config, kept.peers, kept.nextSequence, kept.nextGeneration, kept.mem, kept.inReset, kept.lastSubmit, kept.freeCount⟩
  have cut : s.Cut (({ s with held, busSeen } : State).cutFromBus.post .stationIsolated) :=
    ⟨rfl, rfl, rfl, rfl, rfl, rfl, rfl, rfl, rfl, rfl, rfl, rfl, rfl, rfl, rfl, rfl, rfl, rfl, rfl, rfl⟩
  have seen := kept.busSeen
  rw [isolate_eq] at stays seen ⊢
  exact ⟨endIsolated_isolated cut on stays, seen⟩

theorem listens_station (listens : s.listens = true) : s.station ≠ .isolated := by
  intro isolated
  rw [State.listens, isolated, Bool.and_false] at listens
  cases listens

/-- Settles O42: both rows isolate the station; what the command in progress comes to follows its kind. -/
theorem duplicateNumberIsolates : Obligations.DuplicateNumberIsolates := by
  refine ⟨fun s bits begun f listens line key read own => ?_, fun s idle begun h listens line none_ lapse held own => ?_⟩
  · have exec_ := exec_frameArrival begun (canArrive_of_listens listens (.inl line)) key
    have arrives : s.arrive bits begun = s.isolate begun := by
      simp only [State.arrive, read]
      exact if_pos ⟨own, by rw [line]; exact fun h => nomatch h⟩
    rw [arrives] at exec_
    obtain ⟨isolated, seen⟩ := isolate_isolated (listens_station listens) (held := s.held) (busSeen := s.busSeen) begun
    exact ⟨_, exec_, isolated, seen⟩
  · have lapses : s.lapseReservation begun = ({ s with held := none, busSeen := true } : State).isolate begun := by
      simp only [State.lapseReservation, held]
      exact if_pos own
    have passed : Config.lapseIdle ≤ idle := lapse
    have exec_ : exec (.reservationLapse idle begun) s = .next (s.lapseReservation begun) := by
      rw [exec, execReservationLapse, listens, line, none_, decide_eq_true passed]
      rfl
    rw [lapses] at exec_
    obtain ⟨isolated, seen⟩ := isolate_isolated (listens_station listens) (held := none) (busSeen := true) begun
    exact ⟨_, exec_, isolated, seen⟩

end Sys2Proof.Machine

/-! Seek entry of several references, one after another (R64 to R67): each gets its phase by what the state before the event holds. -/

namespace Sys2Proof.Machine

variable {s t u x y : State} {hit : Ref → Bool} {r : Ref} {p : Phase} {g : Ref → Phase} {done : List Ref} {base : NoticeUnit}

/-! ## One seek entry -/

/-- What the seek entry of `r` makes of the slots and the backlog, with the phase that `r` gets. -/
inductive State.EntryStep (x y : State) (r : Ref) (p : Phase) : Prop
  | binds (b : Binding) (hand : x.bindingAtHand r.key = some b) (phase : p = (r.offered b).phase) (slots : y.slots = x.slots)
      (backlog : y.backlog = x.backlog)
  | joins (n : Nat) (hand : x.bindingAtHand r.key = none) (slot : x.slotOf r.key = some n) (phase : p = .seeking n) (slots : y.slots = x.slots)
      (backlog : y.backlog = x.backlog)
  | takes (n : Nat) (hand : x.bindingAtHand r.key = none) (noSlot : x.slotOf r.key = none) (free : x.freeSlot = some n) (phase : p = .seeking n)
      (slots : y.slots = x.slots.set n
        (some { key := r.key, state := .toSend, tries := 1, timer := false, awaitingRoom := !x.seekQueued n r.key }))
      (backlog : y.backlog = x.backlog)
  | queues (hand : x.bindingAtHand r.key = none) (noSlot : x.slotOf r.key = none) (full : x.freeSlot = none) (phase : p = .queued)
      (slots : y.slots = x.slots) (backlog : y.backlog = x.backlog ++ [r.owner])

/-- The seek entry of `r`, from `x` to `y`. -/
structure State.EntersWith (x y : State) (r : Ref) (p : Phase) : Prop where
  refs : y.refs = x.refs.map fun q => if q.owner = r.owner then { q with phase := p } else q
  notices : y.notices = (if p = .faulted .kind then [kindFault r.owner] else []).foldl NoticeUnit.take x.notices
  same : y = { x with refs := y.refs, slots := y.slots, backlog := y.backlog, notices := y.notices }
  step : x.EntryStep y r p

theorem offerBinding_enters {b : Binding} (hand : x.bindingAtHand r.key = some b) :
    x.EntersWith (x.offerBinding r b) r (r.offered b).phase := by
  unfold State.offerBinding Ref.offered
  by_cases accepts : r.expected.accepts b.kind = true
  · rw [if_pos accepts, if_pos accepts]
    exact ⟨rfl, rfl, rfl, .binds b hand (by rw [Ref.offered, if_pos accepts]) rfl rfl⟩
  · rw [if_neg accepts, if_neg accepts]
    exact ⟨rfl, rfl, rfl, .binds b hand (by rw [Ref.offered, if_neg accepts]) rfl rfl⟩

theorem seekEntry_entersWith (x : State) (r : Ref) : ∃ p, x.EntersWith (x.seekEntry r) r p := by
  unfold State.seekEntry
  split
  · next b hand => exact ⟨_, offerBinding_enters hand⟩
  · next hand =>
    split
    · next n slot => exact ⟨.seeking n, rfl, rfl, rfl, .joins n hand slot rfl rfl rfl⟩
    · next noSlot =>
      split
      · next n free => exact ⟨.seeking n, rfl, rfl, rfl, .takes n hand noSlot free rfl rfl rfl⟩
      · next full => exact ⟨.queued, rfl, rfl, rfl, .queues hand noSlot full rfl rfl rfl⟩

/-! ## What steps 1 and 2 find (R65, R66) -/

/-- The LIVE own export of a key. -/
def State.liveExport (s : State) (k : Key) : Option ExportEntry := s.directory.find? fun e => e.key.agrees k && e.isLive

/-- The oldest reference of a key with a binding that is not of the event. -/
def State.sibling (s : State) (hit : Ref → Bool) (k : Key) : Option Ref :=
  s.refs.find? fun q => !hit q && q.key.agrees k && q.phase.binding?.isSome

/-- The binding that steps 1 and 2 find for a key: that of the LIVE own export, or of the sibling. -/
def State.handed (s : State) (hit : Ref → Bool) (k : Key) : Option Binding :=
  match s.liveExport k with
  | some e => some { definer := s.number, generation := e.generation, target := e.target, kind := e.kind }
  | none => (s.sibling hit k).bind fun q => q.phase.binding?

theorem bindingAtHand_eq (x : State) (k : Key) : x.bindingAtHand k =
    match x.liveExport k with
    | some e => some { definer := x.number, generation := e.generation, target := e.target, kind := e.kind }
    | none => (x.refs.find? fun q => q.key.agrees k && q.phase.binding?.isSome).bind fun q => q.phase.binding? := by
  unfold State.bindingAtHand State.liveExport
  change (match x.directory.find? fun e => e.key.agrees k && e.isLive with | some e => _ | none => _) = _
  split
  · rfl
  · cases x.refs.find? fun q => q.key.agrees k && q.phase.binding?.isSome <;> rfl

/-- Finding in a list of which the other elements are unchanged, and those hit hold what would be found. -/
theorem find?_sibling {k : Key} {b : Option Binding} (f : Ref → Ref) : ∀ l : List Ref,
    (∀ q ∈ l, hit q = false → f q = q) →
    (∀ q ∈ l, hit q = true → (f q).key.agrees k = true → (f q).phase.binding? = none ∨ (f q).phase.binding? = b) →
    ((l.find? fun q => !hit q && q.key.agrees k && q.phase.binding?.isSome).bind fun q => q.phase.binding?) = b →
    (((l.map f).find? fun q => q.key.agrees k && q.phase.binding?.isSome).bind fun q => q.phase.binding?) = b
  | [], _, _, found => found
  | q :: l, others, hits, found => by
    have rest := find?_sibling f l (fun q hq => others q (List.mem_cons_of_mem _ hq)) fun q hq => hits q (List.mem_cons_of_mem _ hq)
    rw [List.map_cons, List.find?_cons]
    rw [List.find?_cons] at found
    cases of : hit q with
    | false =>
      rw [others q List.mem_cons_self of]
      rw [of, Bool.not_false, Bool.true_and] at found
      split
      · next holds =>
        rw [holds] at found
        exact found
      · next other =>
        rw [other] at found
        exact rest found
    | true =>
      rw [of, Bool.not_true, Bool.false_and, Bool.false_and] at found
      split
      · next holds =>
        obtain ⟨agrees, some_⟩ := (Bool.and_eq_true _ _).mp holds
        refine (hits q List.mem_cons_self of agrees).resolve_left fun none_ => ?_
        rw [none_] at some_
        cases some_
      · exact rest found

theorem agrees_congr {a b : Key} (same : a.agrees b = true) (c : Key) : c.agrees a = c.agrees b := by
  rw [Bool.eq_iff_iff]
  exact ⟨fun h => agrees_trans h same, fun h => agrees_trans h (agrees_symm same)⟩

theorem handed_congr (s : State) (hit : Ref → Bool) {a b : Key} (same : a.agrees b = true) : s.handed hit a = s.handed hit b := by
  simp only [State.handed, State.liveExport, State.sibling, agrees_congr same]

theorem slotOf_congr (s : State) {a b : Key} (same : a.agrees b = true) : s.slotOf a = s.slotOf b := by
  rw [State.slotOf, State.slotOf]
  refine congrArg (fun f => s.slots.findIdx? f) (funext fun o => ?_)
  cases o with
  | none => rfl
  | some z => exact agrees_congr same z.key

/-! ## References that have entered -/

/-- The phase `p` that the seek entry of `r` has given it, in the terms of the state `s` before the event. -/
structure State.Entered (s x : State) (hit : Ref → Bool) (r : Ref) (p : Phase) : Prop where
  binds : ∀ b, s.handed hit r.key = some b → p = (r.offered b).phase
  seeks : s.handed hit r.key = none → (∀ n, s.slotOf r.key = some n → p = .seeking n) ∧
    (s.slotOf r.key = none →
      (∃ n y, p = .seeking n ∧ s.slots[n]? = some none ∧ x.slots[n]? = some (some y) ∧ y.key.agrees r.key = true) ∨
      (p = .queued ∧ r.owner ∈ x.backlog ∧ ∀ o ∈ x.slots, o.isSome = true))

/-- The references `done`, all of the event, have gone through seek entry; the phases are then those of `g`. -/
structure State.Entering (s x : State) (hit : Ref → Bool) (done : List Ref) (g : Ref → Phase) (base : NoticeUnit) : Prop where
  hits : ∀ r ∈ done, r ∈ s.refs ∧ hit r = true
  refs : x.refs = s.refs.map fun r => { r with phase := g r }
  others : ∀ r ∈ s.refs, hit r = false → g r = r.phase
  unbound : ∀ r ∈ s.refs, hit r = true → r ∉ done → (g r).binding? = none
  entered : ∀ r ∈ done, s.Entered x hit r (g r)
  used : ∀ (n : Nat) (z : Slot), s.slots[n]? = some (some z) → x.slots[n]? = some (some z)
  length : x.slots.length = s.slots.length
  new : ∀ (n : Nat) (z : Slot), s.slots[n]? = some none → x.slots[n]? = some (some z) →
    (z.state = .toSend ∧ z.tries = 1 ∧ z.timer = false ∧ z.awaitingRoom = !s.seekQueued n z.key) ∧ s.slotOf z.key = none ∧
    ∃ r ∈ done, g r = .seeking n
  lowest : ∀ (m n : Nat) (z : Slot), m < n → s.slots[m]? = some none → s.slots[n]? = some none → x.slots[n]? = some (some z) →
    x.slots[m]? ≠ some none
  backlog : x.backlog = s.backlog ++ (done.filter fun r => decide (g r = .queued)).map (·.owner)
  live : ∀ k, x.liveExport k = s.liveExport k
  number : x.number = s.number
  queue : x.txQueue = s.txQueue
  patchQueue : x.patchQueue = s.patchQueue
  wanted : x.wanted = s.wanted
  modules : x.modules = s.modules
  notices : x.notices = ((done.filter fun r => decide (g r = .faulted .kind)).map fun r => kindFault r.owner).foldl NoticeUnit.take base

theorem offered_binding (r : Ref) (b : Binding) : (r.offered b).phase.binding? = none ∨ (r.offered b).phase.binding? = some b := by
  unfold Ref.offered
  dsimp only
  split
  · exact .inr rfl
  · exact .inl rfl

/-- A reference that has entered holds no binding but the one found for its key. -/
theorem State.Entered.binding (h : s.Entered x hit r p) : p.binding? = none ∨ p.binding? = s.handed hit r.key := by
  cases found : s.handed hit r.key with
  | some b =>
    rw [h.binds b found]
    exact offered_binding r b
  | none =>
    obtain ⟨slot, noSlot⟩ := h.seeks found
    cases at_ : s.slotOf r.key with
    | some n =>
      rw [slot n at_]
      exact .inl rfl
    | none =>
      obtain ⟨n, z, rfl, -⟩ | ⟨rfl, -⟩ := noSlot at_
      · exact .inl rfl
      · exact .inl rfl

/-- What seek entry finds for a key, whichever references of the event have gone through it. -/
theorem State.Entering.hand (h : s.Entering x hit done g base) (k : Key) : x.bindingAtHand k = s.handed hit k := by
  rw [bindingAtHand_eq, State.handed, h.live k, h.number]
  cases live : s.liveExport k with
  | some e => rfl
  | none =>
    have handed : s.handed hit k = (s.sibling hit k).bind fun q => q.phase.binding? := by rw [State.handed, live]
    dsimp only
    rw [h.refs]
    refine find?_sibling _ s.refs (fun q hq other => ?_) (fun q hq of agrees => ?_) rfl
    · rw [h.others q hq other]
    · by_cases inside : q ∈ done
      · have binding := (h.entered q inside).binding
        rw [handed_congr s hit (show q.key.agrees k = true from agrees), handed] at binding
        exact binding
      · exact .inl (h.unbound q hq of inside)

/-! ## The slot of a key -/

theorem slotOf_of_first {n : Nat} {z : Slot} {k : Key} (slot : x.slots[n]? = some (some z)) (agrees : z.key.agrees k = true)
    (before : ∀ (m : Nat) (z : Slot), m < n → x.slots[m]? = some (some z) → z.key.agrees k = false) : x.slotOf k = some n := by
  rw [State.slotOf, List.findIdx?_eq_some_iff_getElem]
  obtain ⟨inside, at_⟩ := List.getElem?_eq_some_iff.mp slot
  refine ⟨inside, ?_, fun m hm => ?_⟩
  · rw [at_]
    exact agrees
  · cases old : x.slots[m] with
    | none => simp
    | some z =>
      have row : x.slots[m]? = some (some z) := by rw [List.getElem?_eq_getElem (by omega), old]
      simp [before m z hm row]

theorem slotOf_first {n : Nat} {k : Key} (slot : s.slotOf k = some n) (m : Nat) (z : Slot) (before : m < n)
    (row : s.slots[m]? = some (some z)) : z.key.agrees k = false := by
  rw [State.slotOf, List.findIdx?_eq_some_iff_getElem] at slot
  obtain ⟨inside, -, first⟩ := slot
  have none_ := first m before
  rw [(List.getElem?_eq_some_iff.mp row).2] at none_
  exact Bool.eq_false_iff.mpr none_

/-- A slot of `x` was used before the event, or is new. -/
theorem State.Entering.slot_cases (h : s.Entering x hit done g base) {n : Nat} {z : Slot} (row : x.slots[n]? = some (some z)) :
    s.slots[n]? = some (some z) ∨ s.slots[n]? = some none := by
  have inside : n < s.slots.length := h.length ▸ (List.getElem?_eq_some_iff.mp row).1
  cases old : s.slots[n] with
  | none => exact .inr (by rw [List.getElem?_eq_getElem inside, old])
  | some w =>
    have was : s.slots[n]? = some (some w) := by rw [List.getElem?_eq_getElem inside, old]
    cases (h.used n w was).symm.trans row
    exact .inl was

theorem State.Entering.slotOf_some (h : s.Entering x hit done g base) {k : Key} {n : Nat} (slot : s.slotOf k = some n) :
    x.slotOf k = some n := by
  obtain ⟨z, row, agrees⟩ := slotOf_eq_some slot
  refine slotOf_of_first (h.used n z row) agrees fun m w before new => ?_
  obtain old | free := h.slot_cases new
  · exact slotOf_first slot m w before old
  · obtain ⟨-, noSlot, -⟩ := h.new m w free new
    rw [Bool.eq_false_iff]
    intro same
    have distinct := slotOf_eq_none noSlot z (List.mem_of_getElem? row)
    rw [agrees_trans agrees (agrees_symm same)] at distinct
    cases distinct

theorem State.Entering.slotOf_new (h : s.Entering x hit done g base) {k : Key} {n : Nat} (none_ : s.slotOf k = none)
    (slot : x.slotOf k = some n) : ∃ z, s.slots[n]? = some none ∧ x.slots[n]? = some (some z) ∧ z.key.agrees k = true := by
  obtain ⟨z, row, agrees⟩ := slotOf_eq_some slot
  obtain old | free := h.slot_cases row
  · have distinct := slotOf_eq_none none_ z (List.mem_of_getElem? old)
    rw [agrees] at distinct
    cases distinct
  · exact ⟨z, free, row, agrees⟩

end Sys2Proof.Machine

/-! Seek entry of several references (R64 to R67): one after another, and the end of the event (R63, R69, R78). -/

namespace Sys2Proof.Machine

variable {s t u x y : State} {hit : Ref → Bool} {r : Ref} {p : Phase} {g : Ref → Phase} {done : List Ref} {base : NoticeUnit}

/-! ## Slots and backlog under one seek entry -/

theorem State.EntryStep.slots_kept (h : x.EntryStep y r p) {n : Nat} {z : Slot} (row : x.slots[n]? = some (some z)) :
    y.slots[n]? = some (some z) := by
  cases h with
  | binds _ _ _ slots => rw [slots, row]
  | joins _ _ _ _ slots => rw [slots, row]
  | queues _ _ _ _ slots => rw [slots, row]
  | takes m _ _ free _ slots =>
    have other : m ≠ n := by
      rintro rfl
      cases (freeSlot_eq_some free).1.symm.trans row
    rw [slots, List.getElem?_set_ne other, row]

theorem State.EntryStep.length (h : x.EntryStep y r p) : y.slots.length = x.slots.length := by
  cases h with
  | binds _ _ _ slots => rw [slots]
  | joins _ _ _ _ slots => rw [slots]
  | queues _ _ _ _ slots => rw [slots]
  | takes _ _ _ _ _ slots => rw [slots, List.length_set]

theorem State.EntryStep.backlog_eq (h : x.EntryStep y r p) : y.backlog = x.backlog ++ if p = .queued then [r.owner] else [] := by
  cases h with
  | binds b _ phase _ backlog =>
    have other : p ≠ .queued := by
      rw [phase, Ref.offered]
      dsimp only
      split <;> exact fun h => nomatch h
    rw [backlog, if_neg other, List.append_nil]
  | joins n _ _ phase _ backlog => rw [backlog, phase, if_neg (fun h => nomatch h), List.append_nil]
  | takes n _ _ _ phase _ backlog => rw [backlog, phase, if_neg (fun h => nomatch h), List.append_nil]
  | queues _ _ _ phase _ backlog => rw [backlog, if_pos phase]

/-- A slot in use after a seek entry was in use before it, or is the one just taken. -/
theorem State.EntryStep.slot_cases (h : x.EntryStep y r p) {n : Nat} {z : Slot} (row : y.slots[n]? = some (some z)) :
    x.slots[n]? = some (some z) ∨
      x.bindingAtHand r.key = none ∧ x.slotOf r.key = none ∧ x.freeSlot = some n ∧ p = .seeking n ∧
        z = { key := r.key, state := .toSend, tries := 1, timer := false, awaitingRoom := !x.seekQueued n r.key } := by
  cases h with
  | binds _ _ _ slots => exact .inl (slots ▸ row)
  | joins _ _ _ _ slots => exact .inl (slots ▸ row)
  | queues _ _ _ _ slots => exact .inl (slots ▸ row)
  | takes m hand noSlot free phase slots =>
    rw [slots, List.getElem?_set] at row
    split at row
    · next same =>
      subst same
      split at row
      · cases row
        exact .inr ⟨hand, noSlot, free, phase, rfl⟩
      · cases row
    · exact .inl row

/-- Slots in use stay, and a member of the backlog too. -/
theorem State.Entered.mono {q : Ref} {p' : Phase} (h : s.Entered x hit q p') (length : y.slots.length = x.slots.length)
    (slots : ∀ (n : Nat) (z : Slot), x.slots[n]? = some (some z) → y.slots[n]? = some (some z))
    (backlog : ∀ o ∈ x.backlog, o ∈ y.backlog) : s.Entered y hit q p' := by
  refine ⟨h.binds, fun none_ => ?_⟩
  obtain ⟨slot, noSlot⟩ := h.seeks none_
  refine ⟨slot, fun without => ?_⟩
  obtain ⟨n, z, phase, was, now, agrees⟩ | ⟨phase, waits, full⟩ := noSlot without
  · exact .inl ⟨n, z, phase, was, slots n z now, agrees⟩
  · refine .inr ⟨phase, backlog _ waits, fun o ho => ?_⟩
    obtain ⟨n, inside, rfl⟩ := List.mem_iff_getElem.mp ho
    have before : n < x.slots.length := length ▸ inside
    obtain ⟨z, some_⟩ := Option.isSome_iff_exists.mp (full _ (List.getElem_mem before))
    have row := slots n z (by rw [List.getElem?_eq_getElem before, some_])
    rw [(List.getElem?_eq_some_iff.mp row).2]
    rfl

/-- What a seek entry with the references `done` before it gives its own reference. -/
theorem State.Entering.entered_step (h : s.Entering x hit done g base) (step : x.EntryStep y r p) : s.Entered y hit r p := by
  have hand := h.hand r.key
  have noSlot : x.slotOf r.key = none → s.slotOf r.key = none := fun none_ => by
    cases old : s.slotOf r.key with
    | none => rfl
    | some n => cases (h.slotOf_some old).symm.trans none_
  cases step with
  | binds b found phase =>
    refine ⟨fun b' found' => ?_, fun none_ => ?_⟩
    · cases found.symm.trans (hand.trans found')
      exact phase
    · cases found.symm.trans (hand.trans none_)
  | joins n found slot phase slots =>
    refine ⟨fun b found' => ?_, fun _ => ⟨fun m old => ?_, fun none_ => ?_⟩⟩
    · cases found.symm.trans (hand.trans found')
    · cases slot.symm.trans (h.slotOf_some old)
      exact phase
    · obtain ⟨z, was, now, agrees⟩ := h.slotOf_new none_ slot
      exact .inl ⟨n, z, phase, was, slots ▸ now, agrees⟩
  | takes n found without free phase slots =>
    refine ⟨fun b found' => ?_, fun _ => ⟨fun m old => ?_, fun _ => .inl ⟨n, { key := r.key, state := .toSend, tries := 1, timer := false, awaitingRoom := !x.seekQueued n r.key }, phase, ?_, ?_,
      Key.agrees_self r.key⟩⟩⟩
    · cases found.symm.trans (hand.trans found')
    · cases (noSlot without).symm.trans old
    · have now := (freeSlot_eq_some free).1
      have inside : n < s.slots.length := h.length ▸ (List.getElem?_eq_some_iff.mp now).1
      cases old : s.slots[n] with
      | none => rw [List.getElem?_eq_getElem inside, old]
      | some z => cases now.symm.trans (h.used n z (by rw [List.getElem?_eq_getElem inside, old]))
    · rw [slots, List.getElem?_set_self (List.getElem?_eq_some_iff.mp (freeSlot_eq_some free).1).1]
  | queues found without full phase slots backlog =>
    refine ⟨fun b found' => ?_, fun _ => ⟨fun m old => ?_, fun _ => .inr ⟨phase, ?_, fun o ho => ?_⟩⟩⟩
    · cases found.symm.trans (hand.trans found')
    · cases (noSlot without).symm.trans old
    · rw [backlog]
      exact List.mem_append_right _ List.mem_cons_self
    · cases o with
      | some z => rfl
      | none => exact absurd (slots ▸ ho) (freeSlot_eq_none full)

/-! ## One reference more -/

/-- The phases with that of one reference set. -/
def phaseSet (g : Ref → Phase) (r : Ref) (p : Phase) (q : Ref) : Phase := if q.owner = r.owner then p else g q

theorem phaseSet_self (g : Ref → Phase) (r : Ref) (p : Phase) : phaseSet g r p r = p := if_pos rfl

theorem phaseSet_other (once : (s.refs.map (·.owner)).Nodup) (row : r ∈ s.refs) {q : Ref} (hq : q ∈ s.refs) (other : q ≠ r) :
    phaseSet g r p q = g q := if_neg fun owner => other (eq_of_owner once hq row owner)

theorem refs_phaseSet {refs : List Ref} (g : Ref → Phase) (r : Ref) (p : Phase) :
    ((refs.map fun q => { q with phase := g q }).map fun q => if q.owner = r.owner then { q with phase := p } else q) =
      refs.map fun q => { q with phase := phaseSet g r p q } := by
  rw [List.map_map]
  refine List.map_congr_left fun q _ => ?_
  unfold phaseSet
  dsimp only [Function.comp]
  split <;> rfl

/-- Without a binding, a reference of the event waits for its seek entry in any phase. -/
theorem State.Entering.rephase (h : s.Entering x hit done g base) (once : (s.refs.map (·.owner)).Nodup) (row : r ∈ s.refs)
    (of : hit r = true) (fresh : r ∉ done) (unbound : p.binding? = none) :
    s.Entering (x.setPhase r.owner p) hit done (phaseSet g r p) base := by
  have same : ∀ q ∈ done, phaseSet g r p q = g q := fun q hq =>
    phaseSet_other once row (h.hits q hq).1 fun is => fresh (is ▸ hq)
  have kept : ∀ ph : Phase, (done.filter fun q => decide (phaseSet g r p q = ph)) = done.filter fun q => decide (g q = ph) :=
    fun ph => List.filter_congr fun q hq => by rw [same q hq]
  refine { h with refs := ?_, others := fun q hq other => ?_, unbound := fun q hq hit' out => ?_, entered := fun q hq => ?_
                  new := fun n z was now => ?_, backlog := ?_, notices := ?_ }
  · change x.refs.map _ = _
    rw [h.refs, refs_phaseSet]
  · rw [phaseSet_other once row hq fun is => by rw [is, of] at other; cases other]
    exact h.others q hq other
  · by_cases is : q = r
    · rw [is, phaseSet_self]
      exact unbound
    · rw [phaseSet_other once row hq is]
      exact h.unbound q hq hit' out
  · rw [same q hq]
    exact (h.entered q hq).mono rfl (fun _ _ row => row) fun _ ho => ho
  · obtain ⟨fields, without, q, hq, seeks⟩ := h.new n z was now
    exact ⟨fields, without, q, hq, (same q hq).trans seeks⟩
  · rw [kept]
    exact h.backlog
  · rw [kept]
    exact h.notices

/-- One reference of the event goes through seek entry. -/
theorem State.Entering.enters (h : s.Entering x hit done g base) (once : (s.refs.map (·.owner)).Nodup) (row : r ∈ s.refs)
    (of : hit r = true) (fresh : r ∉ done) (enters : x.EntersWith y r p) :
    s.Entering y hit (done ++ [r]) (phaseSet g r p) base := by
  have same : ∀ q ∈ done, phaseSet g r p q = g q := fun q hq =>
    phaseSet_other once row (h.hits q hq).1 fun is => fresh (is ▸ hq)
  have kept : ∀ ph : Phase, (done.filter fun q => decide (phaseSet g r p q = ph)) = done.filter fun q => decide (g q = ph) :=
    fun ph => List.filter_congr fun q hq => by rw [same q hq]
  have step := enters.step
  refine {
    hits := fun q hq => ?_, refs := by rw [enters.refs, h.refs, refs_phaseSet], others := fun q hq other => ?_,
    unbound := fun q hq hit' out => ?_, entered := fun q hq => ?_
    used := fun n z old => step.slots_kept (h.used n z old), length := step.length.trans h.length
    new := fun n z was now => ?_, lowest := fun m n z before free free' now => ?_, backlog := ?_
    live := fun k => (congrArg (State.liveExport · k) enters.same).trans (h.live k)
    number := (congrArg State.number enters.same).trans h.number
    queue := (congrArg State.txQueue enters.same).trans h.queue
    patchQueue := (congrArg State.patchQueue enters.same).trans h.patchQueue
    wanted := (congrArg State.wanted enters.same).trans h.wanted
    modules := (congrArg State.modules enters.same).trans h.modules, notices := ?_ }
  · obtain old | new := List.mem_append.mp hq
    · exact h.hits q old
    · rw [List.mem_singleton.mp new]
      exact ⟨row, of⟩
  · rw [phaseSet_other once row hq fun is => by rw [is, of] at other; cases other]
    exact h.others q hq other
  · rw [phaseSet_other once row hq fun is => out (is ▸ List.mem_append_right _ List.mem_cons_self)]
    exact h.unbound q hq hit' fun inside => out (List.mem_append_left _ inside)
  · obtain old | new := List.mem_append.mp hq
    · rw [same q old]
      refine (h.entered q old).mono step.length (fun _ _ row => step.slots_kept row) fun o ho => ?_
      rw [step.backlog_eq]
      exact List.mem_append_left _ ho
    · rw [List.mem_singleton.mp new, phaseSet_self]
      exact h.entered_step step
  · obtain old | ⟨-, without, -, phase, rfl⟩ := step.slot_cases now
    · obtain ⟨fields, none_, q, hq, seeks⟩ := h.new n z was old
      exact ⟨fields, none_, q, List.mem_append_left _ hq, (same q hq).trans seeks⟩
    · refine ⟨⟨rfl, rfl, rfl, ?_⟩, ?_, r, List.mem_append_right _ List.mem_cons_self, (phaseSet_self g r p).trans phase⟩
      · simp only [State.seekQueued, h.queue]
      · cases old : s.slotOf r.key with
        | none => rfl
        | some m => cases (h.slotOf_some old).symm.trans without
  · have used : x.slots[m]? ≠ some none := by
      obtain old | ⟨-, -, first, -, -⟩ := step.slot_cases now
      · exact h.lowest m n z before free free' old
      · exact (freeSlot_eq_some first).2 m before
    have inside : m < x.slots.length := h.length ▸ (List.getElem?_eq_some_iff.mp free).1
    cases old : x.slots[m] with
    | none => exact absurd (by rw [List.getElem?_eq_getElem inside, old]) used
    | some w =>
      rw [step.slots_kept (show x.slots[m]? = some (some w) by rw [List.getElem?_eq_getElem inside, old])]
      exact fun h => nomatch h
  · rw [step.backlog_eq, h.backlog, List.filter_append, List.map_append, List.append_assoc,
      kept, List.filter_singleton, phaseSet_self]
    by_cases queued : p = .queued
    · simp [queued]
    · simp [queued]
  · rw [enters.notices, h.notices, List.filter_append, List.map_append, List.foldl_append,
      kept, List.filter_singleton, phaseSet_self]
    by_cases faulted : p = .faulted .kind
    · simp [faulted]
    · simp [faulted]

/-- The references of the event, one after another. -/
theorem foldl_entering (once : (s.refs.map (·.owner)).Nodup) (f : State → Ref → State)
    (step : ∀ {x done g r}, s.Entering x hit done g base → r ∈ s.refs → hit r = true → r ∉ done →
      ∃ g', s.Entering (f x r) hit (done ++ [r]) g' base) :
    ∀ (l : List Ref) {done : List Ref} {x : State} {g : Ref → Phase}, s.Entering x hit done g base → (done ++ l).Nodup →
      (∀ r ∈ l, r ∈ s.refs ∧ hit r = true) → ∃ g', s.Entering (l.foldl f x) hit (done ++ l) g' base
  | [], done, x, g, h, _, _ => ⟨g, by rw [List.append_nil]; exact h⟩
  | r :: l, done, x, g, h, nodup, all => by
    obtain ⟨row, of⟩ := all r List.mem_cons_self
    have fresh : r ∉ done := fun inside => (List.nodup_append.mp nodup).2.2 r inside r List.mem_cons_self rfl
    obtain ⟨g', next⟩ := step h row of fresh
    have rest := foldl_entering once f step l next (by rw [← List.append_cons]; exact nodup) fun q hq => all q (List.mem_cons_of_mem _ hq)
    rw [← List.append_cons] at rest
    exact rest

/-- The references of the event all go through seek entry. -/
theorem filter_entering (once : (s.refs.map (·.owner)).Nodup) (f : State → Ref → State)
    (step : ∀ {x done g r}, s.Entering x hit done g base → r ∈ s.refs → hit r = true → r ∉ done →
      ∃ g', s.Entering (f x r) hit (done ++ [r]) g' base) (h : s.Entering x hit [] g base) :
    ∃ g', s.Entering ((s.refs.filter hit).foldl f x) hit (s.refs.filter hit) g' base :=
  foldl_entering once f step (s.refs.filter hit) h (nodup_filter once hit).of_map fun _ hr => List.mem_filter.mp hr

end Sys2Proof.Machine

/-! The end of an event that has sent references to seek entry: no slot is freed, so nothing is served (R63, R69, R78). -/

namespace Sys2Proof.Machine

variable {s t x y b : State} {hit : Ref → Bool} {r : Ref} {p : Phase} {g : Ref → Phase} {base : NoticeUnit}

/-! ## The end of an event that frees no slot -/

theorem someFreed_of_kept {before after : List (Option Slot)}
    (kept : ∀ (n : Nat) (z : Slot), before[n]? = some (some z) → after[n]? = some (some z)) : someFreed before after = false := by
  refine List.any_eq_false.mpr fun q hq => ?_
  obtain ⟨n, inside, rfl⟩ := List.mem_iff_getElem.mp hq
  rw [List.length_zip] at inside
  have here : n < before.length := by omega
  rw [List.getElem_zip]
  cases old : before[n] with
  | none => exact Bool.false_ne_true
  | some z =>
    have row := kept n z (by rw [List.getElem?_eq_getElem here, old])
    rw [(List.getElem?_eq_some_iff.mp row).2]
    exact Bool.false_ne_true

/-- What the end of an event leaves where no slot is freed. -/
structure State.PlainEnd (y t : State) (order : List Bool) : Prop where
  arbitrated : t = y.appendWalks.settleModules.arbitrate order
  refs : t.refs = y.refs
  backlog : t.backlog = y.backlog
  slots : t.slotsUnasked = y.slotsUnasked
  notices : t.notices = (y.newStates t none).foldl NoticeUnit.take y.notices

theorem plainEnd (b y : State) (order : List Bool) (kept : someFreed b.slots y.slots = false) : y.PlainEnd (y.endEvent b order) order := by
  have result : y.endEvent b order = y.appendWalks.settleModules.arbitrate order := by
    rw [State.endEvent, kept]
    rfl
  obtain ⟨refs', slots', backlog', -⟩ := settleModules_tables y.appendWalks
  obtain ⟨refs'', slots'', backlog'', -⟩ := arbitrate_tables y.appendWalks.settleModules order
  have refs : (y.endEvent b order).refs = y.refs := by rw [result, refs'', refs']; rfl
  refine ⟨result, refs, ?_, ?_, ?_⟩
  · rw [result, backlog'', backlog']; rfl
  · rw [result, slots'', State.slotsUnasked, slots']; rfl
  · have states : y.appendWalks.newStates y.appendWalks none = y.newStates (y.endEvent b order) none := newStates_congr rfl refs.symm
    rw [← states, result, arbitrate_notices, settleModules_notices]
    rfl

theorem slot_of_unasked (slots : t.slotsUnasked = y.slotsUnasked) {n : Nat} {z : Slot} (row : y.slots[n]? = some (some z)) :
    ∃ w : Slot, t.slots[n]? = some (some w) ∧ w.unasked = z.unasked := by
  have same : t.slotsUnasked[n]? = y.slotsUnasked[n]? := by rw [slots]
  rw [slotsUnasked_getElem?, slotsUnasked_getElem?, row, Option.map_some] at same
  obtain ⟨o, slot, same⟩ := Option.map_eq_some_iff.mp same
  cases o with
  | none => cases same
  | some w => exact ⟨w, slot, Option.some.inj same⟩

theorem free_of_unasked (slots : t.slotsUnasked = y.slotsUnasked) {n : Nat} (row : y.slots[n]? = some none) : t.slots[n]? = some none := by
  have same : t.slotsUnasked[n]? = y.slotsUnasked[n]? := by rw [slots]
  rw [slotsUnasked_getElem?, slotsUnasked_getElem?, row, Option.map_some] at same
  obtain ⟨o, slot, same⟩ := Option.map_eq_some_iff.mp same
  cases o with
  | none => exact slot
  | some w => cases same

/-- A slot of the end was one of the effects. -/
theorem slot_before (slots : t.slotsUnasked = y.slotsUnasked) {n : Nat} {w : Slot} (row : t.slots[n]? = some (some w)) :
    ∃ z : Slot, y.slots[n]? = some (some z) ∧ w.unasked = z.unasked := by
  obtain ⟨z, slot, same⟩ := slot_of_unasked slots.symm row
  exact ⟨z, slot, same.symm⟩

/-! ## The statement -/

/-- The components that seek entry and its end read. -/
structure State.Alike (x y : State) : Prop where
  refs : y.refs = x.refs
  slots : y.slots = x.slots
  backlog : y.backlog = x.backlog
  txQueue : y.txQueue = x.txQueue
  wanted : y.wanted = x.wanted
  patchQueue : y.patchQueue = x.patchQueue
  modules : y.modules = x.modules
  notices : y.notices = x.notices

/-- What the end of an event leaves after the effects that leave `y`, `base` being what was posted before the seek entries. -/
structure State.EntryEnd (s y t : State) (hit : Ref → Bool) (base : NoticeUnit) : Prop where
  entries : s.SeekEntries t hit
  outcome : ∀ r ∈ s.refs, hit r = true → ∃ p x, { r with phase := p } ∈ t.refs ∧ s.Entered x hit r p
  frame : ReferenceFrame y t
  notices : t.notices = (s.entryFaults t hit ++ s.newStates t none).foldl NoticeUnit.take base

theorem State.SeekObtained.congr {t' : State} {n : Nat} {z : Slot} (h : s.SeekObtained t n z) (station : t'.station = t.station)
    (queue : t'.txQueue = t.txQueue) : s.SeekObtained t' n z := by
  obtain ⟨isolated, held, asks⟩ := h
  exact ⟨station ▸ isolated, held, by rw [station, queue]; exact asks⟩

theorem State.Granted.congr {t' : State} {wanted : List TxEntry} (h : s.Granted t wanted) (station : t'.station = t.station)
    (queue : t'.txQueue = t.txQueue) (slots : t'.slots = t.slots) (wants : t'.wanted = t.wanted) : s.Granted t' wanted := by
  obtain ⟨gs, grants⟩ := h
  have holds : ∀ (n : Nat) (k : Key), t'.HoldsSeek n k ↔ t.HoldsSeek n k := fun n k => by simp only [State.HoldsSeek, queue]
  refine ⟨gs, queue ▸ grants.queue, ?_, ?_, grants.ascending, slots ▸ grants.seeks, fun on n z w old asks new same => ?_⟩
  · rw [station, wants]
    exact grants.isolated
  · rw [station, wants]
    exact grants.command
  · rw [holds]
    exact grants.kept (station ▸ on) n z w old asks (slots ▸ new) same

/-- The components that the statement speaks of. -/
theorem State.SeekEntries.congr {t' : State} (h : s.SeekEntries t hit) (station : t'.station = t.station) (refs : t'.refs = t.refs)
    (slots : t'.slots = t.slots) (backlog : t'.backlog = t.backlog) (patchQueue : t'.patchQueue = t.patchQueue)
    (queue : t'.txQueue = t.txQueue) (wanted : t'.wanted = t.wanted) : s.SeekEntries t' hit := by
  refine ⟨refs ▸ h.owners, refs ▸ h.others, fun r row of => ?_, slots ▸ h.used, slots ▸ h.lowest, ?_, ?_, ?_,
    h.granted.congr station queue slots wanted⟩
  · obtain ⟨p, here, live, rest⟩ := h.phases r row of
    refine ⟨p, refs ▸ here, live, fun none_ => ?_⟩
    obtain ⟨bound, unbound⟩ := rest none_
    refine ⟨bound, fun none_ => ?_⟩
    obtain ⟨slot, without⟩ := unbound none_
    refine ⟨slot, fun none_ => ?_⟩
    rw [slots, backlog]
    obtain ⟨n, z, seeks, was, now, key, state, tries, timer, obtained⟩ | queued := without none_
    · exact .inl ⟨n, z, seeks, was, now, key, state, tries, timer, obtained.congr station queue⟩
    · exact .inr queued
  · rw [slots, refs]
    exact h.taken
  · rw [backlog, refs]
    exact h.backlog
  · rw [State.WalksJoined, patchQueue, refs]
    exact h.walks

theorem entryFaults_congr {t' : State} (refs : t'.refs = t.refs) : s.entryFaults t' hit = s.entryFaults t hit := by
  rw [State.entryFaults, State.entryFaults, kindFaulted_congr refs]

/-- The agent's grant is no part of it. -/
theorem State.EntryEnd.agent {t' : State} (h : s.EntryEnd y t hit base) {granted : List Claimant} (same : t' = { t with granted }) :
    s.EntryEnd y t' hit base := by
  subst same
  obtain ⟨entries, outcome, frame, notices⟩ := h
  exact ⟨entries.congr rfl rfl rfl rfl rfl rfl rfl, outcome, { frame with }, notices⟩

/-! ## From the fold to the statement -/

section
variable (h : s.Entering x hit (s.refs.filter hit) g base)
include h

/-- A slot that the end finds new has the fields of a slot just taken, and has obtained its SEEK. -/
theorem State.Entering.obtained {order : List Bool} {n : Nat} {z : Slot} (alike : x.Alike y) (ends : y.PlainEnd t order) (free : s.slots[n]? = some none)
    (row : x.slots[n]? = some (some z)) :
    ∃ w : Slot, t.slots[n]? = some (some w) ∧ w.key = z.key ∧ w.state = .toSend ∧ w.tries = 1 ∧ w.timer = false ∧ s.SeekObtained t n w := by
  obtain ⟨⟨state, tries, timer, asks⟩, -, -⟩ := h.new n z free row
  obtain ⟨w, slot, same⟩ := slot_of_unasked ends.slots (alike.slots ▸ row)
  have parts : w.key = z.key ∧ w.state = z.state ∧ w.tries = z.tries ∧ w.timer = z.timer := by
    rw [Slot.unasked, Slot.unasked, Slot.mk.injEq] at same
    exact ⟨same.1, same.2.1, same.2.2.1, same.2.2.2.1⟩
  obtain ⟨key', state', tries', timer'⟩ := parts
  refine ⟨w, slot, key', state'.trans state, tries'.trans tries, timer'.trans timer, ?_⟩
  obtain ⟨-, slots, -, -, queue, -⟩ := settleModules_tables y.appendWalks
  rw [ends.arbitrated] at slot ⊢
  refine arbitrate_obtains order (y := z) ?_ ?_ state asks slot
  · exact queue.trans (alike.txQueue.trans h.queue)
  · rw [slots]
    exact alike.slots ▸ row

/-- The phase of a reference of the event, in the terms of the statement. -/
theorem State.Entering.entryPhase {order : List Bool} (alike : x.Alike y) (ends : y.PlainEnd t order) (entered : s.Entered x hit r p) :
    s.EntryPhase t hit r p := by
  refine ⟨fun e found => ?_, fun none_ => ?_⟩
  · refine entered.binds _ ?_
    rw [State.handed, show s.liveExport r.key = some e from found]
  · have live : s.liveExport r.key = none := List.find?_eq_none.mpr fun e he => Bool.eq_false_iff.mp (none_ e he)
    have handed : s.handed hit r.key = (s.sibling hit r.key).bind fun q => q.phase.binding? := by rw [State.handed, live]
    refine ⟨fun q b' found bound => entered.binds b' ?_, fun unbound => ?_⟩
    · rw [handed, show s.sibling hit r.key = some q from found]
      exact bound
    · have none_ : s.handed hit r.key = none := by
        rw [handed, show s.sibling hit r.key = none from List.find?_eq_none.mpr fun q hq => Bool.eq_false_iff.mp (unbound q hq)]
        rfl
      obtain ⟨slot, noSlot⟩ := entered.seeks none_
      refine ⟨slot, fun without => ?_⟩
      obtain ⟨n, z, seeks, free, row, agrees⟩ | ⟨queued, waits, full⟩ := noSlot without
      · obtain ⟨w, now, key, state, tries, timer, obtained⟩ := h.obtained alike ends free row
        exact .inl ⟨n, w, seeks, free, now, key ▸ agrees, state, tries, timer, obtained⟩
      · refine .inr ⟨queued, ?_, fun o ho => ?_⟩
        · rw [ends.backlog, alike.backlog]
          exact waits
        · cases o with
          | some w => rfl
          | none =>
            have free : none ∈ x.slots := by
              rw [← alike.slots, ← none_mem_slotsUnasked, ← ends.slots, none_mem_slotsUnasked]
              exact ho
            cases full none free

theorem State.Entering.row (alike : x.Alike y) {order : List Bool} (ends : y.PlainEnd t order) (row : r ∈ s.refs) : { r with phase := g r } ∈ t.refs := by
  rw [ends.refs, alike.refs, h.refs]
  exact List.mem_map_of_mem row

theorem State.Entering.entryFaults (alike : x.Alike y) {order : List Bool} (ends : y.PlainEnd t order) (once : (t.refs.map (·.owner)).Nodup) :
    s.entryFaults t hit = ((s.refs.filter hit).filter fun r => decide (g r = .faulted .kind)).map fun r => kindFault r.owner := by
  rw [State.entryFaults]
  congr 1
  refine List.filter_congr fun r hr => ?_
  exact kindFaulted_of_row once (h.row alike ends (List.mem_filter.mp hr).1)

/-- The end of an event whose references have all gone through seek entry. -/
theorem State.Entering.ends (once : (s.refs.map (·.owner)).Nodup) (alike : x.Alike y) (slots : b.slots = s.slots) (order : List Bool) :
    s.EntryEnd y (y.endEvent b order) hit base := by
  have used : ∀ (n : Nat) (z : Slot), s.slots[n]? = some (some z) → y.slots[n]? = some (some z) := by
    rw [alike.slots]
    exact h.used
  have ends := plainEnd b y order (someFreed_of_kept (slots ▸ used))
  have walks := endEvent_walks y b order
  have frame := endEvent_frame y b order
  have granted : s.Granted (y.endEvent b order) y.wanted := by
    refine endEvent_granted b order (alike.txQueue.trans h.queue) (fun n z row _ asks => ?_) fun n z w old asks row _ => .inl ?_
    · rw [alike.slots] at row
      obtain old | free := h.slot_cases row
      · exact .inl ⟨z, old, rfl, asks⟩
      · obtain ⟨⟨-, -, -, asks'⟩, -, -⟩ := h.new n z free row
        refine .inr fun holds => ?_
        rw [asks', (seekQueued_iff s n z.key).mpr holds] at asks
        cases asks
    · cases (used n z old).symm.trans row
      exact asks
  generalize y.endEvent b order = t at ends walks frame granted
  have owners : t.refs.map (·.owner) = s.refs.map (·.owner) := by
    rw [ends.refs, alike.refs, h.refs, List.map_map]
    rfl
  have once' : (t.refs.map (·.owner)).Nodup := owners ▸ once
  have member : ∀ r ∈ s.refs, hit r = true → r ∈ s.refs.filter hit := fun r hr of => List.mem_filter.mpr ⟨hr, of⟩
  refine ⟨⟨owners, fun r row other => ?_, fun r row of => ⟨g r, h.row alike ends row, h.entryPhase alike ends (h.entered r (member r row of))⟩,
    fun n z old => slot_of_unasked ends.slots (used n z old), fun m n w before free free' row => ?_, fun n w free row => ?_, ?_, ?_, ?_⟩,
    fun r row of => ⟨g r, x, h.row alike ends row, h.entered r (member r row of)⟩, frame, ?_⟩
  · have here := h.row alike ends row
    rw [h.others r row other] at here
    exact here
  · obtain ⟨z, row, -⟩ := slot_before ends.slots row
    rw [alike.slots] at row
    have taken := h.lowest m n z before free free' row
    intro none_
    have none_ := free_of_unasked ends.slots.symm none_
    exact taken (alike.slots ▸ none_)
  · obtain ⟨z, row, -⟩ := slot_before ends.slots row
    rw [alike.slots] at row
    obtain ⟨-, -, r, hr, seeks⟩ := h.new n z free row
    obtain ⟨hr, of⟩ := List.mem_filter.mp hr
    exact ⟨r, hr, of, seeks ▸ h.row alike ends hr⟩
  · refine ⟨_, List.filter_sublist.map _, ends.backlog.trans (alike.backlog.trans h.backlog), fun o ho => ?_⟩
    obtain ⟨r, hr, rfl⟩ := List.mem_map.mp ho
    obtain ⟨hr, queued⟩ := List.mem_filter.mp hr
    exact ⟨_, h.row alike ends (List.mem_filter.mp hr).1, rfl, of_decide_eq_true queued⟩
  · rw [← h.patchQueue, ← alike.patchQueue]
    exact walks
  · rw [← h.wanted, ← alike.wanted]
    exact granted
  · rw [h.entryFaults alike ends once', List.foldl_append, ← h.notices, ← alike.notices, ends.notices]
    exact congrArg (fun l => List.foldl NoticeUnit.take y.notices l) (newStates_congr (alike.modules.trans h.modules) rfl)

end

end Sys2Proof.Machine

/-! RESEEK (R82, R83): every WAITING or FAULTED reference of the modules concerned goes through seek entry. -/

namespace Sys2Proof.Machine

variable {s t u x : State} {hit : Ref → Bool} {g : Ref → Phase} {env : Env} {a : Word} {m : Byte}

/-! ## Before the first seek entry -/

/-- No reference of the event has gone through seek entry yet. -/
theorem entering_none (alike : s.Alike { x with refs := s.refs, notices := s.notices }) (refs : x.refs = s.refs.map fun r => { r with phase := g r })
    (others : ∀ r ∈ s.refs, hit r = false → g r = r.phase) (unbound : ∀ r ∈ s.refs, hit r = true → (g r).binding? = none)
    (live : ∀ k, x.liveExport k = s.liveExport k) (number : x.number = s.number) : s.Entering x hit [] g x.notices where
  hits _ h := (nomatch h)
  refs := refs
  others := others
  unbound r hr of _ := unbound r hr of
  entered _ h := (nomatch h)
  used _ _ old := alike.slots ▸ old
  length := congrArg List.length alike.slots
  new n z free row := by
    rw [alike.slots, free] at row
    cases row
  lowest m n z _ _ free row := by
    rw [alike.slots, free] at row
    cases row
  backlog := alike.backlog.trans (List.append_nil _).symm
  live := live
  number := number
  queue := alike.txQueue
  patchQueue := alike.patchQueue
  wanted := alike.wanted
  modules := alike.modules
  notices := rfl

/-! ## RESEEK -/

/-- The references that a RESEEK of module `m`, or of all for 0, sends to seek entry. -/
def Ref.reseeks (m : Byte) (r : Ref) : Bool := r.reseekable && (decide (m = 0) || decide (r.owner.module = m))

theorem reseeks_eq (m : Byte) : Ref.reseeks m = fun r : Ref =>
    (decide (r.phase.code = 3) || decide (r.phase.code = 6)) && (decide (m = 0) || decide (r.owner.module = m)) := by
  funext r
  unfold Ref.reseeks Ref.reseekable
  cases r.phase <;> rfl

theorem reseekable_unbound {r : Ref} (h : r.reseekable = true) : r.phase.binding? = none := by
  unfold Ref.reseekable at h
  cases phase : r.phase with
  | waiting => rfl
  | faulted => rfl
  | queued => rfl
  | seeking => rfl
  | patching => rw [phase] at h; cases h
  | bound => rw [phase] at h; cases h

/-- The state that the RESEEK's seek entries leave. -/
def State.reseeked (s : State) (m : Byte) : State := (s.refs.filter (Ref.reseeks m)).foldl State.reseekRef s

theorem reseeked_entering (once : (s.refs.map (·.owner)).Nodup) (m : Byte) :
    ∃ g, s.Entering (s.reseeked m) (Ref.reseeks m) (s.refs.filter (Ref.reseeks m)) g s.notices := by
  have start : s.Entering s (Ref.reseeks m) [] (·.phase) s.notices :=
    entering_none ⟨rfl, rfl, rfl, rfl, rfl, rfl, rfl, rfl⟩ (List.map_id s.refs).symm (fun _ _ _ => rfl)
      (fun r _ of => reseekable_unbound ((Bool.and_eq_true _ _).mp of).1) (fun _ => rfl) rfl
  refine filter_entering once State.reseekRef (fun {x done g r} h row of fresh => ?_) start
  obtain ⟨p, enters⟩ := seekEntry_entersWith (x.setPhase r.owner .waiting) r
  exact ⟨_, (h.rephase once row of fresh rfl).enters once row of fresh enters⟩

theorem reseeked_ends (once : (s.refs.map (·.owner)).Nodup) (m : Byte) :
    s.EntryEnd (s.reseeked m) ((s.reseeked m).endEvent s) (Ref.reseeks m) s.notices := by
  obtain ⟨g, entering⟩ := reseeked_entering once m
  exact entering.ends once ⟨rfl, rfl, rfl, rfl, rfl, rfl, rfl, rfl⟩ rfl []

theorem reseeked_frame (s : State) (m : Byte) : ReferenceFrame s (s.reseeked m) := foldl_reseekRef_frame _ s

theorem reseekModules_none {words : List Word} (arg : moduleArgument words = m) (some_ : m ≠ 0) (none_ : s.module? m = none) (tag : Half) :
    s.reseekModules tag words = s.endCommand tag .unknownModule m.toNat := by
  simp only [State.reseekModules, arg]
  rw [none_]
  exact if_pos ⟨some_, rfl⟩

theorem reseekModules_some {words : List Word} (arg : moduleArgument words = m) (known : m = 0 ∨ (s.module? m).isSome = true) (tag : Half) :
    s.reseekModules tag words = ((s.reseeked m).endEvent s).endCommand tag .ok (s.refs.filter (Ref.reseeks m)).length := by
  simp only [State.reseekModules, arg]
  rw [if_neg ?_]
  · rfl
  · rintro ⟨some_, none_⟩
    obtain zero | known := known
    · exact some_ zero
    · rw [Option.isNone_iff_eq_none] at none_
      rw [none_] at known
      cases known

theorem exec_reseek (h : s.Holds env a .reseek) (active : s.station = .active) :
    exec (.reseek env) s = .next (((s.forTransfers env).reseekModules (s.tagAt env a) (s.arguments env a .reseek)).endFetch.served .commandEngine) :=
  congrArg Host.Outcome.next (h.taken (by decide) (decide_eq_true active) _)

theorem moduleArgument_reseek (s : State) (env : Env) (a : Word) :
    moduleArgument (s.arguments env a .reseek) = byteAt (s.blockWord env a 1) 3 := rfl

/-- Local memory, and how far the reading has come, are no part of the seek entries. -/
theorem State.EntryEnd.of_mem {b y : State} {posted : NoticeUnit} (h : b.EntryEnd y t hit posted) {mem : Memory} (same : b = { s with mem }) :
    s.SeekEntries t hit ∧ t.notices = (s.entryFaults t hit ++ s.newStates t none).foldl NoticeUnit.take posted := by
  subst same
  obtain ⟨⟨owners, others, phases, used, lowest, taken, backlog, walks, granted⟩, -, -, notices⟩ := h
  refine ⟨⟨owners, others, fun r row of => ?_, used, lowest, taken, backlog, walks, granted.base rfl rfl⟩, notices⟩
  obtain ⟨p, here, live, rest⟩ := phases r row of
  refine ⟨p, here, live, fun none_ => ⟨(rest none_).1, fun unbound => ⟨((rest none_).2 unbound).1, fun without => ?_⟩⟩⟩
  obtain ⟨n, z, seeks, was, now, key, state, tries, timer, obtained⟩ | queued := ((rest none_).2 unbound).2 without
  · exact .inl ⟨n, z, seeks, was, now, key, state, tries, timer, { obtained with }⟩
  · exact .inr queued

/-- Settles O30: the command ends at once, or each reference concerned goes through seek entry in table order. -/
theorem reseekOutcomes : Obligations.ReseekOutcomes := by
  intro s env a h active m hit
  have exec_ := exec_reseek h active
  refine ⟨fun some_ none_ => ?_, fun known law => ?_⟩
  · rw [exec_, reseekModules_none (s := s.forTransfers env) (moduleArgument_reseek s env a) some_ (module?_eq_none none_),
      h.endCommand (by decide)]
  · have known' : m = 0 ∨ ((s.forTransfers env).module? m).isSome = true :=
      known.imp_right (module?_isSome_iff (s.forTransfers env) m).mpr
    rw [reseekModules_some (s := s.forTransfers env) (moduleArgument_reseek s env a) known'] at exec_
    have once : (s.refs.map (·.owner)).Nodup := ((seekLaw_iff_seeks s).mp law).2.sound.law.owners
    have ends := reseeked_ends (s := s.forTransfers env) once m
    have frame := (reseeked_frame (s.forTransfers env) m).trans ends.frame
    obtain ⟨entries, notices⟩ := ends.of_mem (s := s) rfl
    have same : Ref.reseeks m = hit := reseeks_eq m
    have count : ((s.forTransfers env).refs.filter (Ref.reseeks m)).length = s.refs.countP hit := by
      rw [same, List.countP_eq_length_filter]
      rfl
    rw [same] at entries notices
    rw [count] at exec_
    generalize ((s.forTransfers env).reseeked m).endEvent (s.forTransfers env) = v at exec_ frame entries notices
    simp only [State.served, State.endFetch, State.endCommand, State.post] at exec_
    refine ⟨_, exec_, ?_, entries.congr rfl rfl rfl rfl rfl rfl rfl, ?_⟩
    · exact { frame with
              commandQueue := congrArg List.tail frame.commandQueue, command := rfl
              runs := congrArg (fun r : Runs => { r with fetched := [] }) frame.runs }
    · rw [State.PostsInTurn, List.foldl_append]
      exact congrArg (fun n : NoticeUnit => n.take (.commandDone (s.tagAt env a) .ok (s.refs.countP hit))) notices

end Sys2Proof.Machine

/-! Revocation: its references drop their bindings, then go through seek entry (R87, R89). -/

namespace Sys2Proof.Machine

variable {s t v x y b : State} {hit : Ref → Bool} {r : Ref} {p : Phase} {criterion : Ref → Binding → Bool} {cause : RevocationCause}

/-! ## Stage 1: the bindings dropped -/

theorem dropBindings_notices (cause : RevocationCause) : ∀ (l : List Ref) (s : State), (l.foldl (State.dropBinding cause) s).notices =
    (l.map fun r => Notice.referenceRevoked r.owner cause).foldl NoticeUnit.take s.notices
  | [], _ => rfl
  | _ :: l, _ => dropBindings_notices cause l _

/-- The state before a revocation differs from that before its event in the receive queue, the peer table, the directory and
the notices, and has the same LIVE exports. -/
structure State.Unrevoked (s v : State) : Prop where
  same : v = { s with rxQueue := v.rxQueue, peers := v.peers, directory := v.directory, notices := v.notices }
  live : ∀ k, v.liveExport k = s.liveExport k

theorem State.Unrevoked.alike (h : s.Unrevoked v) : s.Alike { v with notices := s.notices } := by
  rw [h.same]
  exact ⟨rfl, rfl, rfl, rfl, rfl, rfl, rfl, rfl⟩

theorem State.Unrevoked.number (h : s.Unrevoked v) : v.number = s.number := by rw [h.same]

theorem live_congr {s t : State} (directory : t.directory = s.directory) (k : Key) : t.liveExport k = s.liveExport k := by
  rw [State.liveExport, State.liveExport, directory]

theorem liveExport_mem {k : Key} {e : ExportEntry} (h : s.liveExport k = some e) : e ∈ s.directory ∧ e.key.agrees k = true ∧ e.isLive = true := by
  rw [State.liveExport] at h
  have found := List.find?_some h
  exact ⟨List.mem_of_find?_eq_some h, (Bool.and_eq_true _ _).mp found⟩

theorem sibling_mem {k : Key} {q : Ref} (h : s.sibling hit k = some q) : q ∈ s.refs ∧ hit q = false ∧ q.key.agrees k = true := by
  rw [State.sibling] at h
  have found := List.find?_some h
  obtain ⟨both, -⟩ := (Bool.and_eq_true _ _).mp found
  obtain ⟨other, agrees⟩ := (Bool.and_eq_true _ _).mp both
  exact ⟨List.mem_of_find?_eq_some h, (Bool.not_eq_true' _).mp other, agrees⟩

/-- The notices of the references revoked, after those of `v`. -/
def State.revocations (v : State) (criterion : Ref → Binding → Bool) (cause : RevocationCause) : NoticeUnit :=
  ((v.refs.filter (Ref.meets criterion)).map fun r => Notice.referenceRevoked r.owner cause).foldl NoticeUnit.take v.notices

theorem revoke_entering (once : (s.refs.map (·.owner)).Nodup) (before : s.Unrevoked v) (criterion : Ref → Binding → Bool) (cause : RevocationCause) :
    ∃ g, s.Entering (v.revoke criterion cause) (Ref.meets criterion) (s.refs.filter (Ref.meets criterion)) g (v.revocations criterion cause) := by
  have same := before.alike
  have refs' : v.refs = s.refs := same.refs
  let dropped : State := (s.refs.filter (Ref.meets criterion)).foldl (State.dropBinding cause) v
  have kept := fun {α : Type} (f : State → α) (h : ∀ s r, f (State.dropBinding cause s r) = f s) =>
    foldl_kept f (State.dropBinding cause) h (s.refs.filter (Ref.meets criterion)) v
  have alike : s.Alike { dropped with refs := s.refs, notices := s.notices } :=
    ⟨rfl, (kept State.slots fun _ _ => rfl).trans same.slots, (kept State.backlog fun _ _ => rfl).trans same.backlog,
      (kept State.txQueue fun _ _ => rfl).trans same.txQueue, (kept State.wanted fun _ _ => rfl).trans same.wanted,
      (kept State.patchQueue fun _ _ => rfl).trans same.patchQueue, (kept State.modules fun _ _ => rfl).trans same.modules, rfl⟩
  have refs : dropped.refs = s.refs.map fun r => { r with phase := if Ref.meets criterion r then .waiting else r.phase } := by
    refine (foldl_refs_filter s once (State.dropBinding cause) (fun _ => .waiting) (fun _ _ => rfl) (Ref.meets criterion) v refs').trans ?_
    refine List.map_congr_left fun r _ => ?_
    split <;> rfl
  have start := entering_none (hit := Ref.meets criterion) alike refs (fun r _ other => if_neg (Bool.eq_false_iff.mp other))
    (fun r _ of => congrArg Phase.binding? (if_pos of))
    (fun k => (live_congr (kept State.directory fun _ _ => rfl) k).trans (before.live k))
    ((kept State.number fun _ _ => rfl).trans before.number)
  have notices : dropped.notices = v.revocations criterion cause := by
    rw [State.revocations, refs']
    exact dropBindings_notices cause _ v
  have result : v.revoke criterion cause = (s.refs.filter (Ref.meets criterion)).foldl State.seekEntry dropped := by
    rw [State.revoke, refs']
  rw [notices] at start
  rw [result]
  refine filter_entering once State.seekEntry (fun {x done g r} h row of fresh => ?_) start
  obtain ⟨p, enters⟩ := seekEntry_entersWith x r
  exact ⟨_, h.enters once row of fresh enters⟩

/-- The end of an event that revokes; what comes between changes no component that seek entry reads. -/
theorem revoke_ends (once : (s.refs.map (·.owner)).Nodup) (before : s.Unrevoked v) (alike : (v.revoke criterion cause).Alike y)
    (slots : b.slots = s.slots) (order : List Bool) :
    s.EntryEnd y (y.endEvent b order) (Ref.meets criterion) (v.revocations criterion cause) := by
  obtain ⟨g, entering⟩ := revoke_entering once before criterion cause
  exact entering.ends once alike slots order

/-! ## What a revoked reference is bound to -/

theorem State.Entered.code (h : s.Entered x hit r p) : p.code ≠ 3 ∧ p.code ≠ 5 := by
  cases found : s.handed hit r.key with
  | some b =>
    rw [h.binds b found, Ref.offered]
    dsimp only
    split <;> exact ⟨nofun, nofun⟩
  | none =>
    obtain ⟨slot, noSlot⟩ := h.seeks found
    cases at_ : s.slotOf r.key with
    | some n =>
      rw [slot n at_]
      exact ⟨nofun, nofun⟩
    | none =>
      obtain ⟨n, z, rfl, -⟩ | ⟨rfl, -⟩ := noSlot at_ <;> exact ⟨nofun, nofun⟩

/-- A reference that has entered holds a binding of its own station's LIVE export, or of a reference that is not of the event. -/
theorem State.Entered.bound_cases (h : s.Entered x hit r p) {b : Binding} (bound : p.binding? = some b) :
    (∃ e ∈ s.directory, e.key.agrees r.key = true ∧ e.isLive = true ∧ b.definer = s.number ∧ b.generation = e.generation) ∨
      ∃ q ∈ s.refs, hit q = false ∧ q.key.agrees r.key = true ∧ q.phase.binding? = some b := by
  obtain none_ | found := h.binding
  · cases none_.symm.trans bound
  · rw [bound] at found
    unfold State.handed at found
    split at found
    · next e live =>
      cases found
      obtain ⟨row, agrees, isLive⟩ := liveExport_mem live
      exact .inl ⟨e, row, agrees, isLive, rfl, rfl⟩
    · obtain ⟨q, sibling, bound'⟩ := Option.bind_eq_some_iff.mp found.symm
      obtain ⟨row, other, agrees⟩ := sibling_mem sibling
      exact .inr ⟨q, row, other, agrees, bound'⟩

theorem meets_eq (criterion : Ref → Binding → Bool) (r : Ref) : r.meets criterion = r.phase.binding?.any (criterion r) := by
  unfold Ref.meets
  cases r.phase.binding? <;> rfl

end Sys2Proof.Machine

/-! The departure of another station (R53, R87 to R89, R93 to R96, R160). -/

namespace Sys2Proof.Machine

variable {s t v x y b : State} {n : Station} {rest : List RxItem} {c : Instr} {cause : PeerLoss} {joined : BitVec 3}

/-! ## The pairs dropped (R53) -/

theorem dropPairs_directory (s : State) (gone : Key → Pair → Bool) : (s.dropPairs gone).directory = s.directory.map fun e =>
    match e.state with
    | .live owed => { e with state := .live (owed.filter fun p => !gone e.key p) }
    | _ => e := by
  refine List.map_congr_left fun e _ => ?_
  obtain ⟨key, owner, target, kind, generation, state⟩ := e
  cases state <;> rfl

theorem dropPairs_answers (s : State) (gone : Key → Pair → Bool) : (s.dropPairs gone).answers = s.answers.filter fun a =>
    a.owesOffer || (s.dropPairs gone).directory.any fun e => decide (e.owner = a.owner) && decide (e.state.owed ≠ []) := rfl

theorem dropPairs_alike (s : State) (gone : Key → Pair → Bool) : s.Alike (s.dropPairs gone) := ⟨rfl, rfl, rfl, rfl, rfl, rfl, rfl, rfl⟩

/-! ## The station lost -/

/-- A binding to station `n`. -/
def definedBy (n : Station) (_ : Ref) (b : Binding) : Bool := decide (b.definer = n)

theorem meets_definedBy (n : Station) : Ref.meets (definedBy n) = fun r : Ref => decide ((r.phase.binding?.map (·.definer)) = some n) := by
  funext r
  unfold Ref.meets definedBy
  cases r.phase.binding? with
  | none => rfl
  | some b => exact decide_eq_decide.mpr (Option.some.injEq _ _ ▸ Iff.rfl)

/-- The state in which the departing station has been marked. -/
def State.marked (s : State) (n : Station) (rest : List RxItem) (cause : PeerLoss) (joined : BitVec 3) : State :=
  { s with
    rxQueue := rest
    peers := s.peers.modify n.val fun p =>
      if cause = .rejoin then { p with present := true, group := joined } else { p with present := false } }

/-- The state that the loss of the station leaves. -/
def State.bereft (s : State) (n : Station) (rest : List RxItem) (cause : PeerLoss) (joined : BitVec 3) : State :=
  (s.marked n rest cause joined).losePeer n cause

theorem marked_unrevoked (s : State) (n : Station) (rest : List RxItem) (cause : PeerLoss) (joined : BitVec 3) :
    s.Unrevoked ((s.marked n rest cause joined).post (.peerGone n cause)) := ⟨rfl, fun _ => rfl⟩

theorem bereft_eq (s : State) (n : Station) (rest : List RxItem) (cause : PeerLoss) (joined : BitVec 3) : s.bereft n rest cause joined =
    (((s.marked n rest cause joined).post (.peerGone n cause)).revoke (definedBy n) .peerGone).dropPairs fun _ p => decide (p.station = n) := rfl

theorem bereft_ends (once : (s.refs.map (·.owner)).Nodup) (n : Station) (rest : List RxItem) (cause : PeerLoss) (joined : BitVec 3) :
    s.EntryEnd (s.bereft n rest cause joined) ((s.bereft n rest cause joined).endEvent s) (Ref.meets (definedBy n))
      ((.peerGone n cause :: (s.refs.filter (Ref.meets (definedBy n))).map fun r => Notice.referenceRevoked r.owner .peerGone).foldl
        NoticeUnit.take s.notices) := by
  rw [bereft_eq]
  exact revoke_ends once (marked_unrevoked s n rest cause joined) (dropPairs_alike _ _) rfl []

theorem bereft_frame (s : State) (n : Station) (rest : List RxItem) (cause : PeerLoss) (joined : BitVec 3) :
    TableFrame { s with rxQueue := rest } (s.bereft n rest cause joined) := by
  refine .trans (t := s.marked n rest cause joined) ?_ (losePeer_frame _ n cause)
  exact { TableFrame.refl { s with rxQueue := rest } with }

/-- What the loss of the station leaves of the components that are not of the tables. -/
structure State.Bereft (s y : State) (n : Station) (peers : List Peer) : Prop where
  peers : y.peers = peers
  walk : y.walk = s.walk
  transfer : y.transfer = s.transfer
  line : y.line = s.line
  directory : y.directory = s.directory.map fun e => match e.state with
    | .live owed => { e with state := .live (owed.filter fun p => decide (p.station ≠ n)) }
    | _ => e
  answers : y.answers = s.answers.filter fun a =>
    a.owesOffer || y.directory.any fun e => decide (e.owner = a.owner) && decide (e.state.owed ≠ [])

theorem bereft_tables (s : State) (n : Station) (rest : List RxItem) (cause : PeerLoss) (joined : BitVec 3) :
    s.Bereft (s.bereft n rest cause joined) n (s.marked n rest cause joined).peers := by
  have frame := revoke_frame ((s.marked n rest cause joined).post (.peerGone n cause)) (definedBy n) .peerGone
  rw [bereft_eq]
  generalize ((s.marked n rest cause joined).post (.peerGone n cause)).revoke (definedBy n) .peerGone = w at frame
  refine ⟨frame.peers, frame.walk, frame.transfer, frame.line, ?_, ?_⟩
  · rw [dropPairs_directory, frame.directory]
    refine List.map_congr_left fun e _ => ?_
    obtain ⟨key, owner, target, kind, generation, state⟩ := e
    cases state with
    | live owed => simp only [decide_not]
    | _ => rfl
  · rw [dropPairs_answers, frame.answers]
    rfl

/-! ## The rows -/

theorem departs_eq (s : State) (n : Station) (rest : List RxItem) (joined : BitVec 3) (left : cause ≠ .rejoin) :
    ({ s with rxQueue := rest } : State).departs n cause =
      if s.isPresent n then (s.bereft n rest cause joined).endEvent s else { s with rxQueue := rest } := by
  have marked : ({ s with rxQueue := rest } : State).markAbsent n = s.marked n rest cause joined := by
    simp only [State.markAbsent, State.updatePeer, State.marked, if_neg left]
  unfold State.departs
  rw [marked]
  exact if_congr Iff.rfl (endEvent_before rfl _ _) rfl

/-- The group that a JOIN gives. -/
def State.joinedGroup (s : State) : BitVec 3 :=
  match s.rxQueue with
  | .frame f :: _ => f.group
  | _ => 0

/-- The row in which the station departs, by whether it was marked present. -/
theorem exec_departure (onBus : s.onBus = true) (departs : Departure s n rest c cause) (other : n ≠ s.number) :
    exec c s = .next (State.settleAgent
      (if s.isPresent n then (s.bereft n rest cause s.joinedGroup).endEvent s
       else if cause = .rejoin then s.marked n rest cause s.joinedGroup else { s with rxQueue := rest })) := by
  cases departs with
  | leave f head sender body =>
    subst sender
    have takes : s.Takes f rest := ⟨head, onBus⟩
    rw [exec, execLeaveTaken, takes.takeFrame (by rw [isOwn_of_other other, body]; rfl), departs_eq s f.sender rest s.joinedGroup (by decide)]
    rfl
  | lapse head =>
    rw [exec, execLapse, head]
    simp only [onBus, if_true, departs_eq s n rest s.joinedGroup (cause := .lapse) (by decide)]
    rfl
  | join f head sender body =>
    subst sender
    have takes : s.Takes f rest := ⟨head, onBus⟩
    have marked : ({ s with rxQueue := rest } : State).hear f = s.marked f.sender rest .rejoin s.joinedGroup := by
      rw [hear_other (s := { s with rxQueue := rest }) other, State.joinedGroup, head]
      rfl
    rw [exec, execJoinTaken, takes.takeFrame (by rw [isOwn_of_other other, body]; rfl), marked]
    rfl

/-- A revoked reference of the station is bound to another. -/
theorem State.Entered.rebound {r : Ref} {p : Phase} (h : s.Entered x (Ref.meets (definedBy n)) r p) (other : n ≠ s.number) (b : Binding)
    (bound : p.binding? = some b) : b.definer ≠ n := by
  obtain ⟨e, -, -, -, definer, -⟩ | ⟨q, -, unhit, -, bound⟩ := h.bound_cases bound
  · exact fun same => other (same.symm.trans definer)
  · rw [Ref.meets, bound] at unhit
    exact of_decide_eq_false unhit

/-- Settles O51: the station's bindings are revoked, its pairs dropped, and the revoked references go through seek entry. -/
theorem departuresRevoke : Obligations.DeparturesRevoke := by
  intro s n rest c cause onBus departs other peers joined hit
  have exec_ := exec_departure onBus departs other
  have same : s.joinedGroup = joined := rfl
  rw [same] at exec_
  refine ⟨fun absent left => ?_, fun absent rejoins => ?_, fun present once => ?_⟩
  · rw [exec_, absent, if_neg Bool.false_ne_true, if_neg left]
  · rw [exec_, absent, if_neg Bool.false_ne_true, if_pos rejoins]
    rfl
  · rw [present, if_pos rfl] at exec_
    have hits : Ref.meets (definedBy n) = hit := meets_definedBy n
    have tables := bereft_tables s n rest cause joined
    have frame := bereft_frame s n rest cause joined
    have ends := (bereft_ends once n rest cause joined).agent (t' := ((s.bereft n rest cause joined).endEvent s).settleAgent) rfl
    generalize ((s.bereft n rest cause joined).endEvent s).settleAgent = t at exec_ ends
    generalize s.bereft n rest cause joined = y at tables frame ends
    obtain ⟨entries, outcome, after, notices⟩ := ends
    rw [hits] at entries notices
    refine ⟨t, exec_, frame.trans after.table, after.peers.trans tables.peers, after.walk.trans tables.walk, after.transfer.trans tables.transfer,
      after.line.trans tables.line, entries, fun r row of => ?_, ?_, after.directory.trans tables.directory, ?_⟩
    · obtain ⟨p, x, here, entered⟩ := outcome r row (hits ▸ of)
      exact ⟨p, here, entered.code.1, entered.code.2, entered.rebound other⟩
    · rw [State.PostsInTurn, notices, ← List.foldl_append, List.append_nil, List.cons_append, List.cons_append, List.append_assoc]
    · rw [after.answers, tables.answers, after.directory]

end Sys2Proof.Machine

/-! A taken WITHDRAW (R45, R53, R87 to R92). -/

namespace Sys2Proof.Machine

variable {s t u v x y : State} {f : Frame} {rest : List RxItem} {k : Key} {g : Half} {pair : Pair} {m : Byte} {tag : Half} {status : Status} {detail : Nat}

/-! ## The revocation -/

/-- A binding of the key to this pair. -/
def withdrawnBy (k : Key) (pair : Pair) (r : Ref) (b : Binding) : Bool := r.key.agrees k && decide (b.pair = pair)

theorem meets_withdrawnBy (k : Key) (pair : Pair) : Ref.meets (withdrawnBy k pair) = fun r : Ref =>
    r.key.agrees k && decide ((r.phase.binding?.map Binding.pair) = some pair) := by
  funext r
  unfold Ref.meets withdrawnBy
  cases r.phase.binding? with
  | none => exact (Bool.and_false _).symm
  | some b => simp only [Option.map_some, Option.some.injEq]

/-- A revoked reference is not bound to the pair again, unless a LIVE own entry of the key has its generation. -/
theorem State.Entered.unpaired {r : Ref} {p : Phase} (h : s.Entered x (Ref.meets (withdrawnBy k pair)) r p) (of : r.key.agrees k = true)
    (live : pair.station = s.number → ∀ e ∈ s.directory, e.isLive = true → e.key.agrees k = true → e.generation ≠ pair.generation)
    (b : Binding) (bound : p.binding? = some b) : b.pair ≠ pair := by
  rintro rfl
  obtain ⟨e, row, agrees, isLive, definer, generation⟩ | ⟨q, -, unhit, agrees, bound⟩ := h.bound_cases bound
  · exact live definer e row isLive (agrees_trans agrees of) generation.symm
  · rw [Ref.meets, bound] at unhit
    have both : withdrawnBy k b.pair q b = true := by
      rw [withdrawnBy, agrees_trans agrees of, decide_eq_true rfl]
      rfl
    exact Bool.false_ne_true (unhit.symm.trans both)

/-- The sender has been heard, and the frame taken. -/
def State.heard (s : State) (f : Frame) (rest : List RxItem) : State :=
  { s with
    rxQueue := rest
    peers := s.peers.modify f.sender.val fun p =>
      { p with present := true, group := if f.sender = s.number then s.ownGroup else f.group } }

theorem hear_taken (s : State) (f : Frame) (rest : List RxItem) : ({ s with rxQueue := rest } : State).hear f = s.heard f rest :=
  hear_eq { s with rxQueue := rest } f

theorem heard_frame (s : State) (f : Frame) (rest : List RxItem) : TableFrame { s with rxQueue := rest } (s.heard f rest) :=
  { TableFrame.refl { s with rxQueue := rest } with }

/-- What the statement says of the references, whoever sent the frame. -/
structure State.Withdrawn (s t : State) (k : Key) (pair : Pair) : Prop where
  entries : s.SeekEntries t (Ref.meets (withdrawnBy k pair))
  walk : t.walk = s.walk
  transfer : t.transfer = s.transfer
  line : t.line = s.line
  rebound : ∀ r ∈ s.refs, Ref.meets (withdrawnBy k pair) r = true → ∃ p, { r with phase := p } ∈ t.refs ∧ p.code ≠ 3 ∧ p.code ≠ 5 ∧
    ((pair.station = s.number → ∀ e ∈ s.directory, e.isLive = true → e.key.agrees k = true → e.generation ≠ pair.generation) →
      ∀ b, p.binding? = some b → b.pair ≠ pair)
  notices : t.notices = (((s.refs.filter (Ref.meets (withdrawnBy k pair))).map fun r => Notice.referenceRevoked r.owner .withdrawn)
    ++ s.entryFaults t (Ref.meets (withdrawnBy k pair)) ++ s.newStates t none).foldl NoticeUnit.take s.notices

theorem State.Withdrawn.congr {t' : State} (h : s.Withdrawn t k pair) {modules : List ModuleRecord} {commandQueue : List Word}
    {command : Option Command} {granted : List Claimant} (same : t' = { t with modules, commandQueue, command, granted }) :
    s.Withdrawn t' k pair := by
  subst same
  exact ⟨h.entries.congr rfl rfl rfl rfl rfl rfl rfl, h.walk, h.transfer, h.line, h.rebound, h.notices⟩

theorem meets_agrees {r : Ref} (of : Ref.meets (withdrawnBy k pair) r = true) : r.key.agrees k = true := by
  unfold Ref.meets at of
  split at of
  · exact ((Bool.and_eq_true _ _).mp of).1
  · cases of

/-- The revocation, in an event that then changes the directory and the answer list alone. -/
theorem withdrawn_of (once : (s.refs.map (·.owner)).Nodup) (before : s.Unrevoked v) (unposted : v.notices = s.notices)
    (kept : y = { v.revoke (withdrawnBy k pair) .withdrawn with directory := y.directory, answers := y.answers }) :
    s.Withdrawn (y.endEvent s) k pair ∧ ReferenceFrame y (y.endEvent s) := by
  have frame := revoke_frame v (withdrawnBy k pair) .withdrawn
  have alike : (v.revoke (withdrawnBy k pair) .withdrawn).Alike y := by
    rw [kept]
    exact ⟨rfl, rfl, rfl, rfl, rfl, rfl, rfl, rfl⟩
  obtain ⟨entries, outcome, after, notices⟩ := revoke_ends (b := s) once before alike rfl []
  have posted : v.revocations (withdrawnBy k pair) .withdrawn =
      ((s.refs.filter (Ref.meets (withdrawnBy k pair))).map fun r => Notice.referenceRevoked r.owner .withdrawn).foldl
        NoticeUnit.take s.notices := by
    rw [State.revocations, before.alike.refs.symm.symm, unposted]
  generalize v.revoke (withdrawnBy k pair) .withdrawn = w at frame kept
  have same : y.walk = s.walk ∧ y.transfer = s.transfer ∧ y.line = s.line := by
    rw [kept]
    refine ⟨frame.walk.trans ?_, frame.transfer.trans ?_, frame.line.trans ?_⟩ <;> rw [before.same]
  obtain ⟨walk, transfer, line⟩ := same
  refine ⟨⟨entries, after.walk.trans walk, after.transfer.trans transfer, after.line.trans line, fun r row of => ?_, ?_⟩, after⟩
  · obtain ⟨p, x, here, entered⟩ := outcome r row of
    exact ⟨p, here, entered.code.1, entered.code.2, fun live => entered.unpaired (meets_agrees of) live⟩
  · rw [notices, posted, ← List.foldl_append, List.append_assoc]

/-! ## Another station's WITHDRAW (R53, R90) -/

/-- The state that another station's WITHDRAW leaves before the end of its event. -/
def State.withdrawnOther (s : State) (f : Frame) (rest : List RxItem) (k : Key) (pair : Pair) : State :=
  ((s.heard f rest).revoke (withdrawnBy k pair) .withdrawn).dropPairs fun k' q => k'.agrees k && decide (q = pair)

theorem exec_withdrawTaken {scope : Scope} {name : List Byte} (takes : s.Takes f rest) (body : f.body = .withdraw scope name g) (other : f.sender ≠ s.number) :
    exec .withdrawTaken s = .next
      ((((s.withdrawnOther f rest { scope, group := f.group, name } { station := f.sender, generation := g }).endEvent s)).settleAgent) := by
  have data : f.withdrawData = some ({ scope, group := f.group, name }, g) := by rw [Frame.withdrawData, body]; rfl
  rw [exec, execWithdrawTaken, takes.takeFrame (by rw [isOwn_of_other other, data]; rfl)]
  simp only [data, hear_taken]
  rfl

theorem withdrawnOther_directory (s : State) (f : Frame) (rest : List RxItem) (k : Key) (pair : Pair) :
    (s.withdrawnOther f rest k pair).directory = s.directory.map fun e => match e.state with
      | .live owed => if e.key.agrees k then { e with state := .live (owed.filter fun p => decide (p ≠ pair)) } else e
      | _ => e := by
  rw [State.withdrawnOther, dropPairs_directory, (revoke_frame _ _ _).directory]
  refine List.map_congr_left fun e _ => ?_
  obtain ⟨key, owner, target, kind, generation, state⟩ := e
  cases state with
  | live owed =>
    by_cases agrees : key.agrees k = true
    · simp only [agrees, if_true, Bool.true_and, decide_not]
    · simp [agrees]
  | _ => rfl

theorem withdrawnOther_answers (s : State) (f : Frame) (rest : List RxItem) (k : Key) (pair : Pair) :
    (s.withdrawnOther f rest k pair).answers = s.answers.filter fun a =>
      a.owesOffer || (s.withdrawnOther f rest k pair).directory.any fun e => decide (e.owner = a.owner) && decide (e.state.owed ≠ []) := by
  rw [State.withdrawnOther, dropPairs_answers, (revoke_frame _ _ _).answers]
  rfl

theorem withdrawnOther_frame (s : State) (f : Frame) (rest : List RxItem) (k : Key) (pair : Pair) :
    TableFrame { s with rxQueue := rest } (s.withdrawnOther f rest k pair) :=
  ((heard_frame s f rest).trans (revoke_frame _ _ _).table).trans (dropPairs_frame _ _)

theorem withdrawnOther_peers (s : State) (f : Frame) (rest : List RxItem) (k : Key) (pair : Pair) :
    (s.withdrawnOther f rest k pair).peers = (s.heard f rest).peers := (revoke_frame (s.heard f rest) _ _).peers

/-! ## The own WITHDRAW (R35, R45, R91, R92) -/

/-- The state that the own WITHDRAW leaves before the end of its event. -/
def State.withdrawnOwn (s : State) (f : Frame) (rest : List RxItem) (k : Key) (g : Half) : State :=
  ((s.heard f rest).removeWithdrawn k g).revoke (withdrawnBy k { station := s.number, generation := g }) .withdrawn

theorem exec_ownWithdrawTaken {scope : Scope} {name : List Byte} (takes : s.Takes f rest) (body : f.body = .withdraw scope name g) (own : f.sender = s.number) :
    exec .ownWithdrawTaken s = .next
      (((s.withdrawnOwn f rest { scope, group := f.group, name } g).endEvent s).finishRemoval.settleAgent) := by
  have data : f.withdrawData = some ({ scope, group := f.group, name }, g) := by rw [Frame.withdrawData, body]; rfl
  rw [exec, execOwnWithdrawTaken, takes.takeFrame (by rw [isOwn_of_sender own, data]; rfl)]
  simp only [data, hear_taken]
  rfl

/-- LIVE entries are not removed. -/
theorem removeWithdrawn_live (s : State) (k' : Key) (g : Half) (k : Key) : (s.removeWithdrawn k' g).liveExport k = s.liveExport k := by
  change (s.directory.filter _).find? _ = _
  rw [List.find?_filter, State.liveExport]
  congr 1
  funext e
  cases state : e.state <;> simp [ExportEntry.isLive, ExportState.code, state]

theorem withdrawnOwn_unrevoked (s : State) (f : Frame) (rest : List RxItem) (k : Key) (g : Half) :
    s.Unrevoked ((s.heard f rest).removeWithdrawn k g) := ⟨rfl, removeWithdrawn_live (s.heard f rest) k g⟩

theorem withdrawnOwn_frame (s : State) (f : Frame) (rest : List RxItem) (k : Key) (g : Half) :
    ReferenceFrame ((s.heard f rest).removeWithdrawn k g) (s.withdrawnOwn f rest k g) := revoke_frame _ _ _

theorem withdrawnOwn_table (s : State) (f : Frame) (rest : List RxItem) (k : Key) (g : Half) :
    TableFrame { s with rxQueue := rest } (s.withdrawnOwn f rest k g) :=
  ((heard_frame s f rest).trans (removeWithdrawn_frame _ _ _)).trans (withdrawnOwn_frame s f rest k g).table

/-- The command in progress waits for the module to own nothing, and ends so. -/
def State.AwaitsRemoval (s : State) (tag : Half) (m : Byte) (status : Status) (detail : Nat) : Prop :=
  (s.command = some (.unload tag m) ∧ status = .ok ∧ detail = m.toNat) ∨ s.command = some (.loadTakeOut tag m { status, detail })

theorem finishRemoval_awaits (awaits : s.AwaitsRemoval tag m status detail) (command : t.command = s.command) :
    t.finishRemoval = if t.ownsNothing m then (t.removeModule m).endCommand tag status detail else t := by
  obtain ⟨unload, rfl, rfl⟩ | takeOut := awaits
  · exact unload_endsRemoval tag m t (command.trans unload)
  · exact loadTakeOut_endsRemoval tag m { status, detail } t (command.trans takeOut)

theorem finishRemoval_kept (none_ : ∀ tag m status detail, s.AwaitsRemoval tag m status detail → t.ownsNothing m = false)
    (command : t.command = s.command) : t.finishRemoval = t := by
  unfold State.finishRemoval
  split
  · next tag m at_ => rw [none_ tag m .ok m.toNat (.inl ⟨command.symm.trans at_, rfl, rfl⟩), if_neg Bool.false_ne_true]
  · next tag m e at_ => rw [none_ tag m e.status e.detail (.inr (command.symm.trans at_)), if_neg Bool.false_ne_true]
  · rfl

theorem ownsNothing_iff (s : State) (m : Byte) :
    s.ownsNothing m = true ↔ (∀ e ∈ s.directory, e.owner.module ≠ m) ∧ ∀ r ∈ s.refs, r.owner.module ≠ m := by
  simp only [State.ownsNothing, Bool.and_eq_true, Bool.not_eq_true', List.any_eq_false, decide_eq_true_eq, ne_eq]

theorem owners_modules (owners : t.refs.map (·.owner) = s.refs.map (·.owner)) (m : Byte) :
    (∀ r ∈ t.refs, r.owner.module ≠ m) ↔ ∀ r ∈ s.refs, r.owner.module ≠ m := by
  have all : ∀ l : List Ref, (∀ r ∈ l, r.owner.module ≠ m) ↔ ∀ o ∈ l.map (·.owner), o.module ≠ m := fun l => by
    simp only [List.forall_mem_map]
  rw [all, all, owners]

end Sys2Proof.Machine

/-! WITHDRAW_TAKEN and OWN_WITHDRAW_TAKEN: what the rows leave (R35, R45, R53, R87 to R92). -/

namespace Sys2Proof.Machine

variable {s t v : State} {f : Frame} {rest : List RxItem} {k : Key} {g : Half} {pair : Pair} {m : Byte} {tag : Half} {status : Status} {detail : Nat}

theorem State.Withdrawn.agent (h : s.Withdrawn t k pair) : s.Withdrawn t.settleAgent k pair := by
  obtain ⟨entries, walk, transfer, line, rebound, notices⟩ := h
  exact ⟨entries.congr rfl rfl rfl rfl rfl rfl rfl, walk, transfer, line, rebound, notices⟩

/-- The notices before those of the modules. -/
def State.withdrawals (s t : State) (k : Key) (pair : Pair) : List Notice :=
  ((s.refs.filter (Ref.meets (withdrawnBy k pair))).map fun r => Notice.referenceRevoked r.owner .withdrawn)
    ++ s.entryFaults t (Ref.meets (withdrawnBy k pair))

theorem State.Withdrawn.inTurn (h : s.Withdrawn t k pair) : s.PostsInTurn t (s.withdrawals t k pair) [] := by
  rw [State.PostsInTurn, List.append_nil]
  exact h.notices

/-! ## Another station's -/

/-- The outcome of another station's WITHDRAW. -/
structure State.WithdrawTaken (s t : State) (f : Frame) (rest : List RxItem) (k : Key) (pair : Pair) : Prop where
  frame : TableFrame { s with rxQueue := rest } t
  peers : t.peers = (s.heard f rest).peers
  withdrawn : s.Withdrawn t k pair
  directory : t.directory = s.directory.map fun e => match e.state with
    | .live owed => if e.key.agrees k then { e with state := .live (owed.filter fun p => decide (p ≠ pair)) } else e
    | _ => e
  answers : t.answers = s.answers.filter fun a =>
    a.owesOffer || t.directory.any fun e => decide (e.owner = a.owner) && decide (e.state.owed ≠ [])

theorem withdrawnOther_ends (once : (s.refs.map (·.owner)).Nodup) (f : Frame) (rest : List RxItem) (k : Key) (pair : Pair) :
    s.WithdrawTaken ((s.withdrawnOther f rest k pair).endEvent s).settleAgent f rest k pair := by
  obtain ⟨withdrawn, after⟩ := withdrawn_of (y := s.withdrawnOther f rest k pair) once (v := s.heard f rest) ⟨rfl, fun _ => rfl⟩ rfl rfl
  have frame := withdrawnOther_frame s f rest k pair
  have peers := withdrawnOther_peers s f rest k pair
  have directory := withdrawnOther_directory s f rest k pair
  have answers := withdrawnOther_answers s f rest k pair
  generalize (s.withdrawnOther f rest k pair).endEvent s = t at withdrawn after
  generalize s.withdrawnOther f rest k pair = y at frame peers directory answers after
  have last := after.trans (settleAgent_frame t)
  exact ⟨frame.trans last.table, last.peers.trans peers, withdrawn.agent, last.directory.trans directory, by
    rw [last.answers, answers, last.directory]⟩

/-! ## The own -/

/-- What the own WITHDRAW leaves before the end of a removal. -/
structure State.OwnWithdrawn (s t : State) (f : Frame) (rest : List RxItem) (k : Key) (g : Half) : Prop where
  frame : TableFrame { s with rxQueue := rest } t
  peers : t.peers = (s.heard f rest).peers
  withdrawn : s.Withdrawn t k { station := s.number, generation := g }
  directory : t.directory = s.directory.filter fun e => !(e.key.agrees k && decide (e.generation = g) && decide (e.state = .withdrawing))
  answers : t.answers = s.answers

theorem withdrawnOwn_ends (once : (s.refs.map (·.owner)).Nodup) (f : Frame) (rest : List RxItem) (k : Key) (g : Half) :
    s.OwnWithdrawn ((s.withdrawnOwn f rest k g).endEvent s) f rest k g := by
  obtain ⟨withdrawn, after⟩ := withdrawn_of (y := s.withdrawnOwn f rest k g) once (withdrawnOwn_unrevoked s f rest k g) rfl rfl
  have frame := withdrawnOwn_table s f rest k g
  have before := (withdrawnOwn_frame s f rest k g).trans after
  exact ⟨frame.trans after.table, before.peers, withdrawn, before.directory, before.answers⟩

theorem State.OwnWithdrawn.agent (h : s.OwnWithdrawn t f rest k g) : s.OwnWithdrawn t.settleAgent f rest k g := by
  obtain ⟨frame, peers, withdrawn, directory, answers⟩ := h
  exact ⟨frame.trans (settleAgent_frame t).table, peers, withdrawn.agent, directory, answers⟩

/-- The module owns nothing, by the directory after the event and the references before it. -/
def State.Emptied (s t : State) (m : Byte) : Prop :=
  (∀ e ∈ t.directory, e.owner.module ≠ m) ∧ ∀ r ∈ s.refs, r.owner.module ≠ m

theorem State.OwnWithdrawn.ownsNothing (h : s.OwnWithdrawn t f rest k g) (m : Byte) : t.ownsNothing m = true ↔ s.Emptied t m := by
  rw [ownsNothing_iff, owners_modules h.withdrawn.entries.owners m]
  exact Iff.rfl

theorem awaits_unique {tag' : Half} {m' : Byte} {status' : Status} {detail' : Nat} (h : s.AwaitsRemoval tag m status detail)
    (h' : s.AwaitsRemoval tag' m' status' detail') : tag' = tag ∧ m' = m ∧ status' = status ∧ detail' = detail := by
  obtain ⟨c, rfl, rfl⟩ | c := h
  · obtain ⟨c', rfl, rfl⟩ | c' := h'
    · cases c.symm.trans c'
      exact ⟨rfl, rfl, rfl, rfl⟩
    · cases c.symm.trans c'
  · obtain ⟨c', rfl, rfl⟩ | c' := h'
    · cases c.symm.trans c'
    · cases c.symm.trans c'
      exact ⟨rfl, rfl, rfl, rfl⟩

/-- The outcome of the own WITHDRAW. -/
structure State.OwnWithdrawTaken (s t : State) (f : Frame) (rest : List RxItem) (k : Key) (g : Half) : Prop where
  peers : t.peers = (s.heard f rest).peers
  entries : s.SeekEntries t (Ref.meets (withdrawnBy k { station := s.number, generation := g }))
  kept : t.walk = s.walk ∧ t.transfer = s.transfer ∧ t.line = s.line ∧ t.answers = s.answers
  rebound : ∀ r ∈ s.refs, Ref.meets (withdrawnBy k { station := s.number, generation := g }) r = true →
    ∃ p, { r with phase := p } ∈ t.refs ∧ p.code ≠ 3 ∧ p.code ≠ 5 ∧
      ((∀ e ∈ s.directory, e.isLive = true → e.key.agrees k = true → e.generation ≠ g) →
        ∀ b, p.binding? = some b → b.pair ≠ { station := s.number, generation := g })
  directory : t.directory = s.directory.filter fun e => !(e.key.agrees k && decide (e.generation = g) && decide (e.state = .withdrawing))
  done : ∀ tag m status detail, s.AwaitsRemoval tag m status detail → s.Emptied t m →
    TableFrame { s with rxQueue := rest, command := none, commandQueue := s.commandQueue.tail
                        modules := s.modules.filter fun x => decide (x.id ≠ m) } t ∧
    s.PostsInTurn t (s.withdrawals t k { station := s.number, generation := g }) [.commandDone tag status detail]
  stays : (∀ tag m status detail, s.AwaitsRemoval tag m status detail → ¬ s.Emptied t m) →
    TableFrame { s with rxQueue := rest } t ∧ s.PostsInTurn t (s.withdrawals t k { station := s.number, generation := g }) []

theorem State.OwnWithdrawn.removes (h : s.OwnWithdrawn v f rest k g) (awaits : s.AwaitsRemoval tag m status detail) (empty : s.Emptied v m)
    {granted : List Claimant} (result : t = { (v.removeModule m).endCommand tag status detail with granted }) :
    s.OwnWithdrawTaken t f rest k g := by
  obtain ⟨frame, peers, withdrawn, directory, answers⟩ := h
  have same : t = { v with modules := v.modules.filter fun x => decide (x.id ≠ m), notices := v.notices.take (.commandDone tag status detail)
                           commandQueue := v.commandQueue.tail, command := none, granted } := by
    rw [result]
    simp only [State.endCommand, State.post, State.removeModule]
  subst same
  refine ⟨peers, withdrawn.entries.congr rfl rfl rfl rfl rfl rfl rfl, ⟨withdrawn.walk, withdrawn.transfer, withdrawn.line, answers⟩,
    fun r row of => ?_, directory, fun tag' m' status' detail' awaits' _ => ?_, fun none_ => absurd empty (none_ tag m status detail awaits)⟩
  · obtain ⟨p, here, unwaiting, unbound, live⟩ := withdrawn.rebound r row of
    exact ⟨p, here, unwaiting, unbound, fun none_ => live fun _ => none_⟩
  · obtain ⟨rfl, rfl, rfl, rfl⟩ := awaits_unique awaits awaits'
    refine ⟨{ frame with commandQueue := congrArg List.tail frame.commandQueue, command := rfl, modules := sameModules_filter frame.modules m' }, ?_⟩
    rw [State.PostsInTurn, List.foldl_append]
    exact congrArg (fun n : NoticeUnit => n.take (.commandDone tag' status' detail')) withdrawn.notices

theorem State.OwnWithdrawn.remains (h : s.OwnWithdrawn t f rest k g)
    (owns : ∀ tag m status detail, s.AwaitsRemoval tag m status detail → ¬ s.Emptied t m) : s.OwnWithdrawTaken t f rest k g := by
  obtain ⟨frame, peers, withdrawn, directory, answers⟩ := h
  refine ⟨peers, withdrawn.entries, ⟨withdrawn.walk, withdrawn.transfer, withdrawn.line, answers⟩, fun r row of => ?_, directory,
    fun tag m status detail awaits empty => absurd empty (owns tag m status detail awaits), fun _ => ⟨frame, withdrawn.inTurn⟩⟩
  obtain ⟨p, here, unwaiting, unbound, live⟩ := withdrawn.rebound r row of
  exact ⟨p, here, unwaiting, unbound, fun none_ => live fun _ => none_⟩

theorem withdrawnOwn_taken (once : (s.refs.map (·.owner)).Nodup) (f : Frame) (rest : List RxItem) (k : Key) (g : Half) :
    s.OwnWithdrawTaken ((s.withdrawnOwn f rest k g).endEvent s).finishRemoval.settleAgent f rest k g := by
  have ends := withdrawnOwn_ends once f rest k g
  generalize (s.withdrawnOwn f rest k g).endEvent s = v at ends
  by_cases completes : ∃ tag m status detail, s.AwaitsRemoval tag m status detail ∧ s.Emptied v m
  · obtain ⟨tag, m, status, detail, awaits, empty⟩ := completes
    rw [finishRemoval_awaits awaits ends.frame.command, if_pos ((ends.ownsNothing m).mpr empty)]
    exact ends.removes awaits empty rfl
  · have owns : ∀ tag m status detail, s.AwaitsRemoval tag m status detail → ¬ s.Emptied v m := fun tag m status detail awaits empty =>
      completes ⟨tag, m, status, detail, awaits, empty⟩
    rw [finishRemoval_kept (fun tag m status detail awaits => Bool.eq_false_iff.mpr fun none_ =>
      owns tag m status detail awaits ((ends.ownsNothing m).mp none_)) ends.frame.command]
    exact ends.agent.remains owns

/-- Settles O50: the pair's bindings are revoked and the revoked references go through seek entry; then the own entry has gone,
or the pair has left the lists owed. -/
theorem withdrawalsRevoke : Obligations.WithdrawalsRevoke := by
  intro s f rest scope name g takes body once key pair hit withdrawn revoked heard notices
  have hits : Ref.meets (withdrawnBy key pair) = hit := meets_withdrawnBy key pair
  have listed : ∀ t, s.withdrawals t key pair = notices t := fun t => by
    rw [State.withdrawals, hits]
  refine ⟨fun other => ?_, fun own => ?_⟩
  · have exec_ := exec_withdrawTaken takes body other
    obtain ⟨frame, peers, taken, directory, answers⟩ := withdrawnOther_ends once f rest key pair
    refine ⟨_, exec_, frame, peers, ⟨hits ▸ taken.entries, taken.walk, taken.transfer, taken.line, fun r row of => ?_⟩, ?_, directory, answers⟩
    · exact taken.rebound r row (hits ▸ of)
    · rw [← listed]
      exact taken.inTurn
  · have exec_ := exec_ownWithdrawTaken takes body own
    obtain ⟨peers, entries, ⟨walk, transfer, line, answers⟩, rebound, directory, done, stays⟩ := withdrawnOwn_taken once f rest key g
    have station : ({ station := s.number, generation := g } : Pair) = pair := by rw [← own]
    rw [station] at entries rebound done stays
    rw [hits] at entries rebound
    simp only [listed] at done stays
    exact ⟨_, exec_, peers, ⟨entries, walk, transfer, line, fun r row of => by
      obtain ⟨p, here, unwaiting, unbound, live⟩ := rebound r row of
      exact ⟨p, here, unwaiting, unbound, fun none_ => live (none_ own)⟩⟩, answers, directory, done, stays⟩

end Sys2Proof.Machine

/-! LOAD_COMMIT_IMPORT (R26, R64 to R67): one reference more goes through seek entry. -/

namespace Sys2Proof.Machine

variable {s t x y : State} {r : Ref} {p : Phase} {b : Binding}

/-! ## The reference entered -/

theorem State.EntryStep.phase (h : x.EntryStep y r p) : p ≠ .faulted .bus := by
  cases h with
  | binds b _ phase =>
    rw [phase, Ref.offered]
    dsimp only
    split <;> exact nofun
  | joins n _ _ phase => rw [phase]; exact nofun
  | takes n _ _ _ phase => rw [phase]; exact nofun
  | queues _ _ _ phase => rw [phase]; exact nofun

/-- A reference that has entered and whose sites reflect nothing needs a walk. -/
theorem State.EntryStep.owesWalk (h : x.EntryStep y r p) (unwritten : r.reflect = .none) : ({ r with phase := p } : Ref).owesWalk = true := by
  unfold Ref.owesWalk
  split
  · rw [unwritten]
    rfl
  · rw [unwritten, decide_eq_true h.phase]
    rfl

/-- The table with the reference, which holds no binding. -/
def State.withImport (s : State) (r : Ref) : State := { s with refs := s.refs ++ [r] }

theorem withImport_hand (s : State) (waits : r.phase = .waiting) (k : Key) : (s.withImport r).bindingAtHand k = s.bindingAtHand k := by
  have unbound : (r.key.agrees k && r.phase.binding?.isSome) = false := by
    rw [waits]
    exact Bool.and_false _
  rw [bindingAtHand_eq, bindingAtHand_eq]
  change (match s.liveExport k with | some e => _ | none => ((s.refs ++ [r]).find? _).bind _) = _
  rw [List.find?_append, List.find?_singleton, unbound, if_neg Bool.false_ne_true, Option.or_none] <;> rfl

/-- The reference `r` has been entered with the phase `p`, from `s` to `t`. -/
structure State.Imported (s t : State) (r : Ref) (p : Phase) (y : State) : Prop where
  entered : (s.withImport r).EntersWith y r p
  ends : y.PlainEnd t []
  walks : t.WalksJoined s.patchQueue
  granted : s.Granted t s.wanted
  frame : ReferenceFrame y t

theorem imported_of (s : State) (enters : (s.withImport r).EntersWith y r p) : s.Imported (y.endEvent s) r p y := by
  have step := enters.step
  have queue : y.txQueue = s.txQueue := by rw [enters.same]; rfl
  have patches : y.patchQueue = s.patchQueue := by rw [enters.same]; rfl
  have wanted : y.wanted = s.wanted := by rw [enters.same]; rfl
  have kept : ∀ (n : Nat) (z : Slot), s.slots[n]? = some (some z) → y.slots[n]? = some (some z) := fun _ _ row => step.slots_kept row
  refine ⟨enters, plainEnd s y [] (someFreed_of_kept kept), patches ▸ endEvent_walks y s [], ?_, endEvent_frame y s []⟩
  rw [← wanted]
  refine endEvent_granted s [] queue (fun n z row _ asks => ?_) fun n z w old asks row _ => .inl ?_
  · obtain old | ⟨-, -, -, -, rfl⟩ := step.slot_cases row
    · exact .inl ⟨z, old, rfl, asks⟩
    · refine .inr fun holds => ?_
      have held : (s.withImport r).seekQueued n r.key = true := (seekQueued_iff s n r.key).mpr holds
      rw [held] at asks
      cases asks
  · cases (kept n z old).symm.trans row
    exact asks

section
variable (h : s.Imported t r p y)
include h

theorem State.Imported.refs (fresh : ∀ q ∈ s.refs, q.owner ≠ r.owner) : t.refs = s.refs ++ [{ r with phase := p }] := by
  rw [h.ends.refs, h.entered.refs]
  change (s.refs ++ [r]).map _ = _
  rw [List.map_append, List.map_singleton, if_pos rfl]
  refine congrArg (· ++ _) ((List.map_congr_left fun q hq => ?_).trans (List.map_id s.refs))
  exact if_neg (fresh q hq)

theorem State.Imported.queued (fresh : ∀ q ∈ s.refs, q.owner ≠ r.owner) (unwritten : r.reflect = .none) : r.owner ∈ t.patchQueue := by
  have walks := h.walks
  rw [State.WalksJoined, h.refs fresh] at walks
  rw [walks]
  by_cases old : r.owner ∈ s.patchQueue
  · exact List.mem_append_left _ old
  · refine List.mem_append_right _ (List.mem_map.mpr ⟨{ r with phase := p }, List.mem_filter.mpr ⟨?_, ?_⟩, rfl⟩)
    · exact List.mem_append_right _ List.mem_cons_self
    · rw [h.entered.step.owesWalk unwritten]
      exact decide_eq_true old

theorem State.Imported.alone (fresh : ∀ q ∈ s.refs, q.owner ≠ r.owner) (unwritten : r.reflect = .none) (new : r.owner ∉ s.patchQueue)
    (owed : ∀ q ∈ s.refs, q.owesWalk = true → q.owner ∈ s.patchQueue) : t.patchQueue = s.patchQueue ++ [r.owner] := by
  have walks := h.walks
  have others : (s.refs.filter fun q => q.owesWalk && decide (q.owner ∉ s.patchQueue)) = [] := by
    refine List.filter_eq_nil_iff.mpr fun q hq both => ?_
    obtain ⟨owes, out⟩ := (Bool.and_eq_true _ _).mp both
    exact of_decide_eq_true out (owed q hq owes)
  have joins : (({ r with phase := p } : Ref).owesWalk && decide (r.owner ∉ s.patchQueue)) = true := by
    rw [h.entered.step.owesWalk unwritten]
    exact decide_eq_true new
  have last : ([{ r with phase := p }].filter fun q : Ref => q.owesWalk && decide (q.owner ∉ s.patchQueue)) = [{ r with phase := p }] :=
    List.filter_cons_of_pos joins
  rw [State.WalksJoined, h.refs fresh, List.filter_append, others, last] at walks
  exact walks

theorem State.Imported.inTurn : s.PostsInTurn t (if p = .faulted .kind then [kindFault r.owner] else []) [] := by
  have modules : y.modules = s.modules := by rw [h.entered.same]; rfl
  have states : y.newStates t none = s.newStates t none := newStates_congr modules rfl
  rw [State.PostsInTurn, h.ends.notices, h.entered.notices, List.append_nil, List.foldl_append, states]
  rfl

theorem State.Imported.kept (slots : y.slots = s.slots) (backlog : y.backlog = s.backlog) : s.SeeksKept t :=
  ⟨h.ends.slots.trans (congrArg (List.map (Option.map Slot.unasked)) slots), h.ends.backlog.trans backlog⟩

/-- A binding at hand is offered. -/
theorem State.Imported.binds (waits : r.phase = .waiting) (hand : s.bindingAtHand r.key = some b) :
    p = (if r.expected.accepts b.kind then .patching b else .faulted .kind) ∧ s.SeeksKept t := by
  have hand' := (withImport_hand s waits r.key).trans hand
  cases h.entered.step with
  | binds b' found phase slots backlog =>
    cases found.symm.trans hand'
    exact ⟨phase, h.kept slots backlog⟩
  | joins n found => cases found.symm.trans hand'
  | takes n found => cases found.symm.trans hand'
  | queues found => cases found.symm.trans hand'

section
variable (waits : r.phase = .waiting) (hand : s.bindingAtHand r.key = none)
include waits hand

/-- The slot of the key is joined. -/
theorem State.Imported.joins {n : Nat} (slot : s.slotOf r.key = some n) : p = .seeking n ∧ s.SeeksKept t := by
  have hand' := (withImport_hand s waits r.key).trans hand
  have slot' : (s.withImport r).slotOf r.key = some n := slot
  cases h.entered.step with
  | binds b found => cases found.symm.trans hand'
  | joins m found at_ phase slots backlog =>
    cases at_.symm.trans slot'
    exact ⟨phase, h.kept slots backlog⟩
  | takes m found none_ => cases none_.symm.trans slot'
  | queues found none_ => cases none_.symm.trans slot'

/-- A free slot is taken, and obtains its SEEK. -/
theorem State.Imported.takes {n : Nat} (noSlot : s.slotOf r.key = none) (free : s.freeSlot = some n) :
    p = .seeking n ∧ t.backlog = s.backlog ∧ ∃ z : Slot, t.slots[n]? = some (some z) ∧ z.key = r.key ∧ z.state = .toSend ∧ z.tries = 1 ∧
      z.timer = false ∧ t.slotsUnasked = s.slotsUnasked.set n (some z.unasked) ∧ s.SeekObtained t n z := by
  have hand' := (withImport_hand s waits r.key).trans hand
  have noSlot' : (s.withImport r).slotOf r.key = none := noSlot
  have free' : (s.withImport r).freeSlot = some n := free
  have queue : y.txQueue = s.txQueue := by rw [h.entered.same]; rfl
  cases h.entered.step with
  | binds b found => cases found.symm.trans hand'
  | joins m found slot => cases noSlot'.symm.trans slot
  | queues found none_ full => cases full.symm.trans free'
  | takes m found none_ at_ phase slots backlog =>
    cases at_.symm.trans free'
    let w : Slot := { key := r.key, state := .toSend, tries := 1, timer := false, awaitingRoom := !s.seekQueued n r.key }
    have slots : y.slots = s.slots.set n (some w) := slots
    have inside : n < s.slots.length := (List.getElem?_eq_some_iff.mp (freeSlot_eq_some free).1).1
    have row : y.slots[n]? = some (some w) := by rw [slots, List.getElem?_set_self inside]
    obtain ⟨z, slot, same⟩ := slot_of_unasked h.ends.slots row
    have parts : z.key = w.key ∧ z.state = w.state ∧ z.tries = w.tries ∧ z.timer = w.timer := by
      rw [Slot.unasked, Slot.unasked, Slot.mk.injEq] at same
      exact ⟨same.1, same.2.1, same.2.2.1, same.2.2.2.1⟩
    obtain ⟨key, state, tries, timer⟩ := parts
    refine ⟨phase, h.ends.backlog.trans backlog, z, slot, key, state, tries, timer, ?_, ?_⟩
    · rw [h.ends.slots, State.slotsUnasked, slots, List.map_set, same]
      rfl
    · obtain ⟨-, settled, -, -, queued, -⟩ := settleModules_tables y.appendWalks
      rw [h.ends.arbitrated] at slot ⊢
      refine arbitrate_obtains [] (y := w) (queued.trans queue) ?_ rfl rfl slot
      rw [settled]
      exact row

/-- No slot being free, the reference joins the backlog. -/
theorem State.Imported.queues (noSlot : s.slotOf r.key = none) (full : s.freeSlot = none) :
    p = .queued ∧ t.slotsUnasked = s.slotsUnasked ∧ t.backlog = s.backlog ++ [r.owner] := by
  have hand' := (withImport_hand s waits r.key).trans hand
  have noSlot' : (s.withImport r).slotOf r.key = none := noSlot
  have full' : (s.withImport r).freeSlot = none := full
  cases h.entered.step with
  | binds b found => cases found.symm.trans hand'
  | joins m found slot => cases noSlot'.symm.trans slot
  | takes m found none_ at_ => cases full'.symm.trans at_
  | queues found none_ _ phase slots backlog =>
    exact ⟨phase, h.ends.slots.trans (congrArg (List.map (Option.map Slot.unasked)) slots), h.ends.backlog.trans backlog⟩

end

end

/-! ## LOAD_COMMIT_IMPORT -/

section
variable {env : Env} {tag : Half} {m : Byte} {i j off sum : Nat}

/-- The reference that a record makes (R26). -/
def State.imports (s : State) (m : Byte) (j : Nat) (x : ImportRecord) : Ref :=
  { key := { scope := x.scope, group := s.ownGroup, name := x.name }, owner := { module := m, index := j }
    expected := x.expected, sites := x.sites, phase := .waiting, reflect := .none }

/-- The station with the command moved past the record. -/
def State.pastImport (s : State) (env : Env) (tag : Half) (m : Byte) (i j off sum : Nat) (x : ImportRecord) : State :=
  { s with
    mem := s.mem.afterStores env.stores
    runs := s.runsRead
    command := some (.loadCommit tag m i (j + 1) (off + 32 + 16 * x.sites.length) (sum + x.sites.length)) }

theorem exec_loadCommitImport {rec : ModuleRecord} {x : ImportRecord} (reads : s.ReadsRecord env)
    (command : s.command = some (.loadCommit tag m i j off sum)) (module : s.module? m = some rec) (imports : rec.exportCount ≤ i)
    (read : (s.forTransfers env).readCommit env = some (.ok (.imported x))) : exec (.loadCommitImport env) s =
      .next (((((s.pastImport env tag m i j off sum x).withImport (s.imports m j x)).seekEntry (s.imports m j x)).endEvent
        (s.pastImport env tag m i j off sum x)).served .commandEngine) := by
  have enters : (s.forTransfers env).endFetch.enterImport x =
      ((s.pastImport env tag m i j off sum x).withImport (s.imports m j x)).seekEntry (s.imports m j x) := by
    have command' : (s.forTransfers env).endFetch.command = some (.loadCommit tag m i j off sum) := command
    rw [State.enterImport, command']
    rfl
  rw [exec, execLoadCommitImport, exportDue_iff command module, decide_eq_false (Nat.not_lt.mpr imports), if_neg Bool.false_ne_true,
    commitStep_ok reads read]
  dsimp only
  rw [enters]
  exact congrArg (fun u : State => Host.Outcome.next (u.served .commandEngine)) (endEvent_before rfl _ _)

/-- The agent's grant is no part of it. -/
theorem State.Granted.agent {wanted : List TxEntry} (h : s.Granted t wanted) (granted : List Claimant) :
    s.Granted { t with granted } wanted := h.congr rfl rfl rfl rfl

end

end Sys2Proof.Machine

/-! What LOAD_COMMIT_IMPORT leaves (R26, R63 to R67). -/

namespace Sys2Proof.Machine

variable {s t v y : State} {env : Env} {r : Ref} {p : Phase}

/-! ## The phase, by the first step that applies -/

/-- What the statement says of the phase of the reference `r`. -/
structure State.ImportPhase (s t : State) (r : Ref) (p : Phase) : Prop where
  binds : ∀ b, s.bindingAtHand r.key = some b → p = (if r.expected.accepts b.kind then .patching b else .faulted .kind) ∧ s.SeeksKept t
  joins : s.bindingAtHand r.key = none → ∀ n, s.slotOf r.key = some n → p = .seeking n ∧ s.SeeksKept t
  takes : s.bindingAtHand r.key = none → s.slotOf r.key = none → ∀ n, s.freeSlot = some n → p = .seeking n ∧ t.backlog = s.backlog ∧
    ∃ z : Slot, t.slots[n]? = some (some z) ∧ z.key = r.key ∧ z.state = .toSend ∧ z.tries = 1 ∧ z.timer = false ∧
      t.slotsUnasked = s.slotsUnasked.set n (some z.unasked) ∧ s.SeekObtained t n z
  queues : s.bindingAtHand r.key = none → s.slotOf r.key = none → s.freeSlot = none →
    p = .queued ∧ t.slotsUnasked = s.slotsUnasked ∧ t.backlog = s.backlog ++ [r.owner]

theorem State.Imported.phase (h : s.Imported t r p y) (waits : r.phase = .waiting) : s.ImportPhase t r p :=
  ⟨fun _ hand => h.binds waits hand, fun hand _ slot => h.joins waits hand slot, fun hand noSlot _ free => h.takes waits hand noSlot free,
    fun hand noSlot full => h.queues waits hand noSlot full⟩

/-- The agent's grant is no part of it. -/
theorem State.ImportPhase.agent (h : s.ImportPhase t r p) (granted : List Claimant) : s.ImportPhase { t with granted } r p := by
  obtain ⟨binds, joins, takes, queues⟩ := h
  refine ⟨fun b hand => ?_, fun hand n slot => ?_, fun hand noSlot n free => ?_, queues⟩
  · obtain ⟨phase, kept⟩ := binds b hand
    exact ⟨phase, { kept with }⟩
  · obtain ⟨phase, kept⟩ := joins hand n slot
    exact ⟨phase, { kept with }⟩
  · obtain ⟨phase, backlog, z, slot, key, state, tries, timer, slots, obtained⟩ := takes hand noSlot n free
    exact ⟨phase, backlog, z, slot, key, state, tries, timer, slots, { obtained with }⟩

/-- Memory, the runs of transfers and the command in progress are no part of it. -/
theorem State.ImportPhase.of_command (h : v.ImportPhase t r p) {mem : Memory} {runs : Runs} {command : Option Command}
    (same : v = { s with mem, runs, command }) : s.ImportPhase t r p := by
  subst same
  obtain ⟨binds, joins, takes, queues⟩ := h
  refine ⟨fun b hand => ?_, fun hand n slot => ?_, fun hand noSlot n free => ?_, queues⟩
  · obtain ⟨phase, kept⟩ := binds b hand
    exact ⟨phase, { kept with }⟩
  · obtain ⟨phase, kept⟩ := joins hand n slot
    exact ⟨phase, { kept with }⟩
  · obtain ⟨phase, backlog, z, slot, key, state, tries, timer, slots, obtained⟩ := takes hand noSlot n free
    exact ⟨phase, backlog, z, slot, key, state, tries, timer, slots, { obtained with }⟩

/-! ## The row -/

section
variable {tag : Half} {m : Byte} {i j off sum : Nat} {x : ImportRecord}

theorem pastImport_frame (s : State) (env : Env) (tag : Half) (m : Byte) (i j off sum : Nat) (x : ImportRecord) (r : Ref) :
    ReferenceFrame (s.pastImport env tag m i j off sum x) ((s.pastImport env tag m i j off sum x).withImport r) :=
  { ReferenceFrame.refl (s.pastImport env tag m i j off sum x) with }

/-- What the row leaves. -/
structure State.ImportTaken (s t v : State) (r : Ref) (p : Phase) : Prop where
  frame : ReferenceFrame v t
  refs : t.refs = s.refs ++ [{ r with phase := p }]
  queued : r.owner ∈ t.patchQueue
  walks : t.WalksJoined s.patchQueue
  alone : r.owner ∉ s.patchQueue → (∀ q ∈ s.refs, q.owesWalk = true → q.owner ∈ s.patchQueue) → t.patchQueue = s.patchQueue ++ [r.owner]
  granted : s.Granted t s.wanted
  notices : s.PostsInTurn t (if p = .faulted .kind then [kindFault r.owner] else []) []
  phase : s.ImportPhase t r p

theorem importTaken_of (fresh : ∀ q ∈ s.refs, q.owner ≠ { module := m, index := j }) :
    ∃ p, s.ImportTaken (((((s.pastImport env tag m i j off sum x).withImport (s.imports m j x)).seekEntry (s.imports m j x)).endEvent
      (s.pastImport env tag m i j off sum x)).served .commandEngine) (s.pastImport env tag m i j off sum x) (s.imports m j x) p := by
  obtain ⟨p, enters⟩ := seekEntry_entersWith ((s.pastImport env tag m i j off sum x).withImport (s.imports m j x)) (s.imports m j x)
  have before := (pastImport_frame s env tag m i j off sum x (s.imports m j x)).trans (seekEntry_frame _ (s.imports m j x))
  have imported := imported_of _ enters
  generalize ((s.pastImport env tag m i j off sum x).withImport (s.imports m j x)).seekEntry (s.imports m j x) = y at before imported
  generalize y.endEvent (s.pastImport env tag m i j off sum x) = t at imported
  have frame := before.trans imported.frame
  have phase := (imported.phase rfl).of_command (s := s) rfl
  have refs := imported.refs fresh
  have queued := imported.queued fresh rfl
  have alone := imported.alone fresh rfl
  have turn := imported.inTurn
  exact ⟨p, { frame with }, refs, queued, imported.walks, alone, (imported.granted.base (s := s) rfl rfl).agent _, turn, phase.agent _⟩

theorem liveExport_none {k : Key} (none_ : ∀ e ∈ s.directory, e.key.agrees k = true → e.isLive = false) : s.liveExport k = none := by
  refine List.find?_eq_none.mpr fun e he both => ?_
  obtain ⟨agrees, live⟩ := (Bool.and_eq_true _ _).mp both
  cases (none_ e he agrees).symm.trans live

theorem hand_of_live {k : Key} {e : ExportEntry} (live : s.liveExport k = some e) :
    s.bindingAtHand k = some { definer := s.number, generation := e.generation, target := e.target, kind := e.kind } := by
  rw [bindingAtHand_eq, live]

theorem hand_of_bound {k : Key} {q : Ref} {b : Binding} (none_ : s.liveExport k = none)
    (found : s.refs.find? (fun q => q.key.agrees k && q.phase.binding?.isSome) = some q) (bound : q.phase.binding? = some b) :
    s.bindingAtHand k = some b := by
  rw [bindingAtHand_eq, none_, found]
  exact bound

theorem hand_none {k : Key} (none_ : s.liveExport k = none) (unbound : ∀ q ∈ s.refs, q.key.agrees k = true → q.phase.binding? = none) :
    s.bindingAtHand k = none := by
  have absent : s.refs.find? (fun q => q.key.agrees k && q.phase.binding?.isSome) = none := by
    refine List.find?_eq_none.mpr fun q hq both => ?_
    obtain ⟨agrees, bound⟩ := (Bool.and_eq_true _ _).mp both
    rw [unbound q hq agrees] at bound
    cases bound
  rw [bindingAtHand_eq, none_, absent]
  rfl

end

/-- Settles O34: the reference takes the first step of seek entry that applies, and joins the patch queue; a record left keeps its words. -/
theorem commitImport : Obligations.CommitImport := by
  refine ⟨?entered, fun s env tag m i j off sum p rec command module imports leaves => ?_⟩
  case entered =>
    intro s env tag m i j off sum rec x reads command module imports read fresh key owner binds
    have exec_ := exec_loadCommitImport reads command module imports read
    obtain ⟨p, frame, refs, queued, walks, alone, granted, notices, phase⟩ :=
      importTaken_of (env := env) (tag := tag) (i := i) (off := off) (sum := sum) (x := x) fresh
    refine ⟨_, p, exec_, frame, refs, queued, walks, alone, granted, notices, fun e live => phase.binds _ (hand_of_live live), fun none_ => ?_⟩
    have dead := liveExport_none none_
    refine ⟨fun q b found bound => phase.binds b (hand_of_bound dead found bound), fun unbound => ?_⟩
    have hand := hand_none dead unbound
    exact ⟨phase.joins hand, fun noSlot => ⟨phase.takes hand noSlot, phase.queues hand noSlot⟩⟩
  · rw [exec, execLoadCommitImport, exportDue_iff command module, decide_eq_false (Nat.not_lt.mpr imports), if_neg Bool.false_ne_true,
      commitStep_left command module leaves]

end Sys2Proof.Machine

/-! How the reading of the head of the command queue fails (R24, R169), and the agent's timeout (R182). -/

namespace Sys2Proof.Machine

section
variable {s : State} {env out : Env} {a : Word} {k : CommandKind} {e : Ending}

/-! ## The reading of the block (R169) -/

theorem acks_congr (same : out.failAt = env.failAt) (i b : Nat) : acks out i b = acks env i b := by
  simp only [acks, same]

/-- The transfers of the step, as a reading of the same operands numbers them. -/
theorem acks_resumed (same : out.failAt = env.failAt) (i b : Nat) : acks (resumed out s.runs.fetched.length) i b = s.readAcks env i b :=
  acks_congr (congrArg (Option.map (· + s.runs.fetched.length)) same) i b

theorem queue_of_head (head : s.commandQueue.head? = some a) : ∃ rest, s.commandQueue = a :: rest :=
  List.head?_eq_some_iff.mp head

theorem readHead_unread (head : s.commandQueue.head? = some a) (unread : acks (resumed out s.runs.fetched.length) 0 a.toNat = false) :
    (s.forReading env).readHead out = some (.failed none 0 { status := .readError, detail := 0 }) := by
  obtain ⟨rest, queue⟩ := queue_of_head head
  have queue : (s.forReading env).commandQueue = a :: rest := queue
  have unread : acks (resumed out (s.forReading env).runs.fetched.length) 0 a.toNat = false := unread
  rw [State.readHead, queue]
  simp only [unread]
  rfl

section
variable (head : s.commandQueue.head? = some a) (first : acks (resumed out s.runs.fetched.length) 0 a.toNat = true)
include head first

/-- The block, once its first word is read. -/
theorem readHead_first : (s.forReading env).readHead out =
    match commandOfCode (byteAt (s.blockWord env a 0) 0) with
    | none => some (.whole none (s.tagAt env a) [])
    | some k =>
      match blockWords (s.mem.afterStores env.stores) s.runs.fetched (resumed out s.runs.fetched.length) a.toNat 1 k.moreWords with
      | .ok ws => some (.whole (some k) (s.tagAt env a) ws)
      | .error e => some (.failed (some (some k)) (s.tagAt env a) e) := by
  obtain ⟨rest, queue⟩ := queue_of_head head
  have queue : (s.forReading env).commandQueue = a :: rest := queue
  have first : acks (resumed out (s.forReading env).runs.fetched.length) 0 a.toNat = true := first
  rw [State.readHead, queue]
  simp only [first, if_true]
  rfl

theorem readHead_unknown (code : commandOfCode (byteAt (s.blockWord env a 0) 0) = none) :
    (s.forReading env).readHead out = some (.whole none (s.tagAt env a) []) := by
  rw [readHead_first head first, code]

theorem readHead_failed (code : commandOfCode (byteAt (s.blockWord env a 0) 0) = some k)
    (fails : blockWords (s.mem.afterStores env.stores) s.runs.fetched (resumed out s.runs.fetched.length) a.toNat 1 k.moreWords = .error e) :
    (s.forReading env).readHead out = some (.failed (some (some k)) (s.tagAt env a) e) := by
  rw [readHead_first head first, code]
  simp only [fails]

end

/-- The words of a block up to the first that lies beyond local memory. -/
theorem blockWords_outside (mem : Memory) (fetched : List Word) {a i : Nat} (outside : 0x0FFFFFFF < a + 4 * i) : ∀ (n k : Nat), k ≤ i → i < k + n →
    (∀ j, k ≤ j → j < i → acks env j (a + 4 * j) = true) →
    blockWords mem fetched env a k n = .error { status := .badCommand, detail := 0 }
  | 0, k, low, high, _ => by omega
  | n + 1, k, low, high, read => by
    rw [blockWords]
    by_cases here : k = i
    · rw [if_pos (here ▸ outside)]
    · have one := read k (Nat.le_refl k) (by omega)
      have rest := blockWords_outside mem fetched outside n (k + 1) (by omega) (by omega) fun j hj => read j (by omega)
      by_cases beyond : 0x0FFFFFFF < a + 4 * k
      · rw [if_pos beyond]
      · rw [if_neg beyond, if_pos one, rest]
        rfl

/-- The words of a block up to the first whose transfer is not acknowledged. -/
theorem blockWords_unread (mem : Memory) (fetched : List Word) {a i : Nat} (inside : a + 4 * i ≤ 0x0FFFFFFF)
    (unread : acks env i (a + 4 * i) = false) : ∀ (n k : Nat), k ≤ i → i < k + n → (∀ j, k ≤ j → j < i → acks env j (a + 4 * j) = true) →
    blockWords mem fetched env a k n = .error { status := .readError, detail := 4 * i }
  | 0, k, low, high, _ => by omega
  | n + 1, k, low, high, read => by
    rw [blockWords, if_neg (by omega)]
    by_cases here : k = i
    · rw [here, unread, if_neg Bool.false_ne_true]
    · rw [if_pos (read k (Nat.le_refl k) (by omega)), blockWords_unread mem fetched inside unread n (k + 1) (by omega) (by omega)
        fun j hj => read j (by omega)]
      rfl

/-! ## The row of the head -/

/-- The reading fails: the command ends so. -/
theorem runHead_failed {kind : Option CommandKind} {first : Option (Option CommandKind)} {tag : Half} (execute : s.mayExecute = true)
    (whole : s.ReadsOn env) (read : (s.forReading env).readHead (s.runEnv .commandEngine env) = some (.failed first tag e))
    (mine : first = none ∨ first = some kind) (body : Half → List Word → State → State) :
    s.runHead kind env body = s.ended env tag e.status e.detail := by
  rw [State.runHead, if_pos execute]
  simp only [forReading_runEnv, show (s.forReading env).headPause (s.runEnv .commandEngine env) = none from whole, read]
  rw [if_pos mine]
  exact endCommand_forReading s env tag e.status e.detail

theorem runHead_whole {kind : Option CommandKind} {tag : Half} {words : List Word} (execute : s.mayExecute = true)
    (whole : s.ReadsOn env) (read : (s.forReading env).readHead (s.runEnv .commandEngine env) = some (.whole kind tag words))
    (body : Half → List Word → State → State) :
    s.runHead kind env body = (body tag words (s.forReading env)).endFetch.served .commandEngine := by
  rw [State.runHead, if_pos execute]
  simp only [forReading_runEnv, show (s.forReading env).headPause (s.runEnv .commandEngine env) = none from whole, read]
  exact if_pos trivial

/-! ## MEMORY_ACK_TIMEOUT at the head -/

theorem State.Executes.mayTransfer (h : s.Executes env a) : s.mayTransfer .commandEngine = true := mayTransfer_of h.awake h.granted

/-- The timeout reaches a command whose block, or whose first pass, is being read. -/
theorem exec_timeoutAtHead {tag : Half} (execute : s.mayTransfer .commandEngine = true) (idle : s.command = none)
    (reaches : s.reachesFailure .commandEngine env = true)
    (read : (s.forReading env).headReadError (toTheEnd env) = some (tag, e)) :
    exec (.memoryAckTimeout .commandEngine env) s = .next (s.ended env tag e.status e.detail) := by
  have reaches : s.reachesFailure .commandEngine (toTheEnd env) = true := reaches
  have read : (s.forReading (toTheEnd env)).headReadError (toTheEnd env) = some (tag, e) := read
  refine congrArg Host.Outcome.next ?_
  change s.commandTimeout (toTheEnd env) = _
  rw [State.commandTimeout, execute, reaches, idle]
  refine Eq.trans (show _ = s.timeoutAtHead (toTheEnd env) from rfl) ?_
  rw [State.timeoutAtHead]
  simp only [read]
  exact endCommand_forReading s (toTheEnd env) tag e.status e.detail

theorem headReadError_failed {t : State} {first : Option (Option CommandKind)} {tag : Half} (read : t.readHead out = some (.failed first tag e))
    (status : e.status = .readError) : t.headReadError out = some (tag, e) := by
  rw [State.headReadError, read]
  exact if_pos status

theorem headReadError_first {t : State} {tag : Half} {words : List Word} (read : t.readHead out = some (.whole (some .load) tag words))
    (active : t.station = .active) (pass : t.loadFirstPass out words = .error e) (status : e.status = .readError) :
    t.headReadError out = some (tag, e) := by
  rw [State.headReadError, read]
  simp only [State.firstPassReadError, read, if_pos active, pass]
  exact if_pos status

end

end Sys2Proof.Machine

/-! MEMORY_ACK_TIMEOUT (R182): the failure that the row of the transfer finds. -/

namespace Sys2Proof.Machine

section
variable {s : State} {env : Env} {c : Claimant} {k : Nat}

/-! ## A step that meets its failure -/

/-- A step that reaches its failure does not leave its run before. -/
theorem pauseAt_of_reaches (reaches : s.reachesFailure c env = true) : pauseAt (s.runEnv c (toTheEnd env)) = none := by
  unfold State.runEnv
  by_cases others : s.othersAsk c = true
  · rw [State.reachesFailure, others] at reaches
    have first : env.failAt = some 0 := of_decide_eq_true reaches
    rw [if_pos others, pauseAt]
    simp only [toTheEnd, first]
    rfl
  · rw [if_neg others]
    rfl

theorem wordsNow_toTheEnd (env : Env) (words : List Word) : wordsNow (toTheEnd env) words = words := rfl

/-- The word at fault is one of those that the step has to write, and those before it are the first of all. -/
theorem wordsNow_reaches (reaches : s.reachesFailure c env = true) (fails : env.failAt = some k) {words : List Word} (inside : k < words.length) :
    k < (wordsNow (s.runEnv c (toTheEnd env)) words).length ∧ (wordsNow (s.runEnv c (toTheEnd env)) words).take k = words.take k := by
  unfold State.runEnv
  by_cases others : s.othersAsk c = true
  · rw [State.reachesFailure, others, fails] at reaches
    have first : k = 0 := Option.some.inj (of_decide_eq_true reaches)
    subst first
    rw [if_pos others]
    refine ⟨?_, rfl⟩
    change 0 < (words.take 1).length
    rw [List.length_take]
    omega
  · rw [if_neg others, wordsNow_toTheEnd]
    exact ⟨inside, rfl⟩

theorem acks_failing (fails : env.failAt = some k) {i b : Nat} (before : i ≠ k) (inside : b < 0x10000000) : acks env i b = true :=
  (acks_iff inside).mpr fun same => before (Option.some.inj (same.symm.trans fails))

theorem acks_failed (fails : env.failAt = some k) (b : Nat) : acks env k b = false := by
  rw [acks, fails]
  simp

/-! ## The commit pass, and a REPORT -/

theorem commandTimeout_eq (env : Env) (s : State) : exec (.memoryAckTimeout .commandEngine env) s = .next (s.commandTimeout (toTheEnd env)) := rfl

/-- Without the grant nothing happens. -/
theorem commandTimeout_idle (idle : s.mayTransfer .commandEngine = false) : s.commandTimeout env = s := by
  rw [State.commandTimeout, idle]
  rfl

/-- The commit pass is at fault at its next record. -/
theorem commandTimeout_record (may : s.mayTransfer .commandEngine = true) (reaches : s.reachesFailure .commandEngine env = true)
    (busy : s.command.isNone = false) (reporting : s.reporting = false) : s.commandTimeout env =
      s.readRecord env (fun _ _ => s) fun e t => if e.status = .readError then t.commitFault env e else s := by
  rw [State.commandTimeout, may, reaches, busy, reporting]
  rfl

theorem commandTimeout_report (may : s.mayTransfer .commandEngine = true) (reaches : s.reachesFailure .commandEngine env = true)
    (busy : s.command.isNone = false) (reporting : s.reporting = true) : s.commandTimeout env = s.timeoutInReport env := by
  rw [State.commandTimeout, may, reaches, busy, reporting]
  rfl

theorem readCommit_toTheEnd (env : Env) (s : State) : s.readCommit (toTheEnd env) = s.readCommit env := rfl

theorem timeout_commit {tag : Half} {m : Byte} {i j off sum : Nat} {e : Ending} (command : s.command = some (.loadCommit tag m i j off sum))
    (reaches : s.reachesFailure .commandEngine env = true) (read : (s.forTransfers env).readCommit env = some (.error e))
    (status : e.status = .readError) :
    exec (.memoryAckTimeout .commandEngine env) s = exec (.loadCommitFault (toTheEnd env)) s := by
  have read : (s.forTransfers (toTheEnd env)).readCommit (toTheEnd env) = some (.error e) := read
  have reaches' : s.reachesFailure .commandEngine (toTheEnd env) = true := reaches
  have whole : (s.forTransfers (toTheEnd env)).commitPause (s.runEnv .commandEngine (toTheEnd env)) = none := by
    rw [State.commitPause, pauseAt_of_reaches reaches]
  refine (commandTimeout_eq env s).trans (congrArg Host.Outcome.next ?_)
  have row : s.commitStep (toTheEnd env) (fun _ => s) (fun _ _ => s) (fun e t => t.commitFault (toTheEnd env) e) =
      s.readRecord (toTheEnd env) (fun _ _ => s) fun e t => t.commitFault (toTheEnd env) e := by
    rw [State.commitStep, whole]
  rw [row]
  cases may : s.mayTransfer .commandEngine with
  | false =>
    rw [commandTimeout_idle may, State.readRecord, may]
    rfl
  | true =>
    have reporting : s.reporting = false := by rw [State.reporting, command]
    have busy : s.command.isNone = false := by rw [command]; rfl
    rw [commandTimeout_record may reaches' busy reporting, State.readRecord, State.readRecord, may]
    simp only [read, if_true, status]

theorem exec_reportRecordWrite {tag : Half} {sel : Selector} {m : Byte} {buffer capacity n : Nat} {x : TakenRecord} (awake : s.inReset = false)
    (command : s.command = some (.report tag sel m buffer capacity n)) (record : s.recordAt sel m n = some x) (some_ : env.upTo ≠ some 0) :
    exec (.reportRecordWrite env) s = .next (if s.mayTransfer .commandEngine then
      ((s.forTransfers env).writeRecord (s.runEnv .commandEngine env)).served .commandEngine else s) := by
  have asks : s.commandAsks = true := by rw [commandAsks_of_report command, record]; rfl
  have reporting : s.reporting = true := reporting_of command
  rw [exec, execReportRecordWrite, awake, reporting, asks, if_neg some_]
  rfl

theorem timeout_report {tag : Half} {sel : Selector} {m : Byte} {buffer capacity n : Nat} {x : TakenRecord} (awake : s.inReset = false)
    (command : s.command = some (.report tag sel m buffer capacity n)) (record : s.recordAt sel m n = some x)
    (inside : x.written + k < x.words.length) (fails : env.failAt = some k) (reaches : s.reachesFailure .commandEngine env = true)
    (room : buffer + n * sel.recordSize + 4 * x.words.length ≤ 0x10000000) :
    exec (.memoryAckTimeout .commandEngine env) s = exec (.reportRecordWrite (toTheEnd env)) s := by
  rw [exec_reportRecordWrite awake command record (show (none : Option Nat) ≠ some 0 from nofun), commandTimeout_eq]
  refine congrArg Host.Outcome.next ?_
  cases may : s.mayTransfer .commandEngine with
  | false =>
    rw [commandTimeout_idle may]
    rfl
  | true =>
    let t := s.forTransfers (toTheEnd env)
    have reaches' : s.reachesFailure .commandEngine (toTheEnd env) = true := reaches
    have reporting : s.reporting = true := reporting_of command
    have busy : s.command.isNone = false := by rw [command]; rfl
    have command' : t.command = some (.report tag sel m buffer capacity n) := command
    have record' : t.recordAt sel m n = some x := record
    have left : k < (x.words.drop x.written).length := by rw [List.length_drop]; omega
    have fails' : (toTheEnd env).failAt = some k := fails
    have failsRun : (s.runEnv .commandEngine (toTheEnd env)).failAt = some k := (runEnv_same s .commandEngine (toTheEnd env)).1.trans fails
    obtain ⟨now, before⟩ := wordsNow_reaches reaches fails left
    have place : ∀ i, i < k → buffer + (n * sel.recordSize + 4 * x.written) + 4 * i < 0x10000000 := fun i hi => by omega
    have end_ : t.writeRecord (toTheEnd env) = t.writeRecord (s.runEnv .commandEngine (toTheEnd env)) := by
      rw [writeRecord_failed command' record' (env := toTheEnd env) left (fun i hi => acks_failing fails' (Nat.ne_of_lt hi) (place i hi))
          (acks_failed fails' _),
        writeRecord_failed command' record' now (fun i hi => acks_failing failsRun (Nat.ne_of_lt hi) (place i hi)) (acks_failed failsRun _),
        before, wordsNow_toTheEnd]
    have meets : (State.writeWords (toTheEnd env) 0 (buffer + (n * sel.recordSize + 4 * x.written)) (x.words.drop x.written) t).2.isSome = true := by
      rw [writeWords_failed (toTheEnd env) _ 0 _ k t left (fun i hi => by
        rw [Nat.zero_add]
        exact acks_failing fails' (Nat.ne_of_lt hi) (place i hi)) (by rw [Nat.zero_add]; exact acks_failed fails' _)]
      rfl
    rw [commandTimeout_report may reaches' busy reporting]
    have report : s.timeoutInReport (toTheEnd env) = (t.writeRecord (toTheEnd env)).served .commandEngine := by
      unfold State.timeoutInReport
      dsimp only
      rw [command']
      dsimp only
      rw [record']
      exact if_pos meets
    rw [report, end_]
    rfl

/-! ## A site's transfer, and a notice -/

theorem makeTransfer_unacked {x : SiteTransfer} (fails : env.failAt = some 0 ∨ (env.failAt = some 1 ∧ x.site.form ≠ .a32)) :
    (s.makeTransfer env x).2 = false := by
  unfold State.makeTransfer
  obtain first | ⟨second, form⟩ := fails
  · have unread := acks_failed first x.site.wordAddress
    by_cases form : x.site.form = .a32
    · simp [form, unread]
    · simp [form, unread]
  · have unwritten := acks_failed second x.site.wordAddress
    cases read : acks env 0 x.site.wordAddress <;> simp [form, read, unwritten]

theorem timeout_site {x : SiteTransfer} (transfer : s.transfer = some x)
    (fails : env.failAt = some 0 ∨ (env.failAt = some 1 ∧ x.site.form ≠ .a32)) :
    exec (.memoryAckTimeout .patchEngine env) s = exec (.siteWriteDone env) s := by
  have bad : ((s.forTransfers (toTheEnd env)).makeTransfer (toTheEnd env) x).2 = false := makeTransfer_unacked fails
  refine congrArg Host.Outcome.next ?_
  change s.patchTimeout (toTheEnd env) = _
  rw [State.patchTimeout, transfer]
  simp only [bad]
  rw [Bool.not_false, Bool.and_true]
  rfl

theorem noticePlace_inside {r : Ring} {x : Reserved} {behind : List Reserved} (law : s.RingLaw) (ring : s.notices.ring = some r)
    (list : s.notices.list = x :: behind) (inside : r.base + 16 * r.size ≤ 0x10000000) (few : s.runs.noticeWords + k < 4) :
    s.noticePlace r x + 4 * k < 0x10000000 := by
  obtain ⟨size, producer, -, -⟩ := law.sizes r ring
  have slot := law.slots r ring 0 x (by rw [list]; rfl)
  have less : x.slot < r.size := by
    rw [slot]
    exact Nat.mod_lt _ (by omega)
  unfold State.noticePlace
  omega

theorem timeout_notice (few : s.runs.noticeWords + k < 4) (fails : env.failAt = some k) (reaches : s.reachesFailure .noticeUnit env = true)
    (law : s.RingLaw) (rings : ∀ r, s.notices.ring = some r → r.base + 16 * r.size ≤ 0x10000000) :
    exec (.memoryAckTimeout .noticeUnit env) s = exec (.noticeWriteDone (toTheEnd env)) s := by
  refine congrArg Host.Outcome.next ?_
  change s.noticeTimeout (toTheEnd env) = _
  rw [State.noticeTimeout]
  cases ring : s.notices.ring with
  | none => rfl
  | some r =>
    cases list : s.notices.list with
    | nil => rfl
    | cons x behind =>
      let t := s.forTransfers (toTheEnd env)
      have reaches' : s.reachesFailure .noticeUnit (toTheEnd env) = true := reaches
      have fails' : (toTheEnd env).failAt = some k := fails
      have failsRun : (s.runEnv .noticeUnit (toTheEnd env)).failAt = some k := (runEnv_same s .noticeUnit (toTheEnd env)).1.trans fails
      have left : k < (t.noticeLeft x).length := by
        rw [State.noticeLeft, List.length_drop, words_length]
        change k < 4 - s.runs.noticeWords
        omega
      obtain ⟨now, before⟩ := wordsNow_reaches reaches fails left
      have place : ∀ i, i < k → t.noticePlace r x + 4 * i < 0x10000000 := fun i hi =>
        noticePlace_inside (s := s) law ring list (rings r ring) (by omega)
      have end_ : t.writeNotice (toTheEnd env) r x = t.writeNotice (s.runEnv .noticeUnit (toTheEnd env)) r x := by
        rw [writeNotice_failed (env := toTheEnd env) left (fun i hi => acks_failing fails' (Nat.ne_of_lt hi) (place i hi)) (acks_failed fails' _),
          writeNotice_failed now (fun i hi => acks_failing failsRun (Nat.ne_of_lt hi) (place i hi)) (acks_failed failsRun _), before,
          wordsNow_toTheEnd]
      have meets : (State.writeWords (toTheEnd env) 0 (t.noticePlace r x) (t.noticeLeft x) t).2.isSome = true := by
        rw [writeWords_failed (toTheEnd env) _ 0 _ k t left (fun i hi => by
          rw [Nat.zero_add]
          exact acks_failing fails' (Nat.ne_of_lt hi) (place i hi)) (by rw [Nat.zero_add]; exact acks_failed fails' _)]
        rfl
      simp only [reaches', Bool.and_true]
      rw [meets, Bool.and_true]
      exact if_congr Iff.rfl (congrArg (State.served · .noticeUnit) end_) rfl

end

/-- Settles O56: the timeout does what the row of the transfer does that finds the same failure. -/
theorem acknowledgeTimeout : Obligations.AcknowledgeTimeout := by
  intro s env awake
  refine ⟨fun a k i executes reaches code one most inside before unread => ?_, fun a idle head granted none_ fails => ?_,
    fun a e block reaches active pass status => ?_, fun tag m i j off sum e command reaches read status => timeout_commit command reaches read status,
    fun tag sel m buffer capacity n x k command record inside fails reaches room => timeout_report awake command record inside fails reaches room,
    fun x transfer fails => timeout_site transfer fails, fun k few fails reaches law rings => timeout_notice few fails reaches law rings⟩
  · have failed := readHead_failed (out := toTheEnd env) executes.head ((acks_resumed rfl _ _).trans executes.read) code
      (blockWords_unread _ _ inside ((acks_resumed rfl _ _).trans unread) _ _ one (by omega) fun j low high =>
        (acks_resumed rfl _ _).trans (before j low high))
    exact exec_timeoutAtHead executes.mayTransfer executes.idle reaches (headReadError_failed failed rfl)
  · have fails' : (resumed (toTheEnd env) s.runs.fetched.length).failAt = some 0 := by
      simp only [resumed, toTheEnd, fails, none_]
      rfl
    have failed := readHead_unread (env := env) (out := toTheEnd env) head (acks_failed fails' a.toNat)
    have reaches : s.reachesFailure .commandEngine env = true := by
      rw [State.reachesFailure, fails]
      exact Bool.or_true _
    exact exec_timeoutAtHead (mayTransfer_of awake granted) idle reaches (headReadError_failed failed rfl)
  · have read := block.readHead (toTheEnd env) rfl
    rw [← status]
    exact exec_timeoutAtHead block.executes.mayTransfer block.executes.idle reaches (headReadError_first read active pass status)

end Sys2Proof.Machine

/-! A reading makes its transfers in ascending order and leaves none out: where the transfer that fails is not one of them, the
reading ends as any other such reading does (R23, R24, R169). -/

namespace Sys2Proof.Machine

section
variable {α β : Type} {f : Nat → Except Ending α} {g : Nat → α → Except Ending β} {low high : Nat} {stop : α → Nat} {stop' : β → Nat}
  {x : Except Ending α}

/-! ## Readings by the number of the transfer that fails -/

/-- A result other than READ-ERROR. -/
def NoReadError (x : Except Ending α) : Prop := ∀ e, x = .error e → e.status ≠ .readError

theorem NoReadError.ok (a : α) : NoReadError (.ok a) := fun _ h => nomatch h

theorem NoReadError.error {e : Ending} (good : e.status ≠ .readError) : NoReadError (.error e : Except Ending α) := fun _ h => by
  cases h
  exact good

theorem NoReadError.bind {h : α → Except Ending β} (first : NoReadError x) (then_ : ∀ a, NoReadError (h a)) : NoReadError (x >>= h) := by
  cases x with
  | error e => exact .error (first e rfl)
  | ok a => exact then_ a

/-- The reading makes the transfers from `low` up to `high`: it meets READ-ERROR at each, and otherwise ends with `x`. -/
structure Sweep (f : Nat → Except Ending α) (low high : Nat) (x : Except Ending α) : Prop where
  order : low ≤ high
  fails : ∀ n, low ≤ n → n < high → ∃ e, f n = .error e ∧ e.status = .readError
  kept : ∀ n, n < low ∨ high ≤ n → f n = x
  good : NoReadError x

/-- The reading makes transfers from `low` on. -/
def Sweeps (f : Nat → Except Ending α) (low : Nat) : Prop := ∃ high x, Sweep f low high x

/-- So it does, up to `stop` of its result. -/
def Reads (f : Nat → Except Ending α) (low : Nat) (stop : α → Nat) : Prop :=
  ∃ high x, Sweep f low high x ∧ ∀ a, x = .ok a → high = stop a

theorem Reads.sweeps (h : Reads f low stop) : Sweeps f low := by
  obtain ⟨high, x, sweep, -⟩ := h
  exact ⟨high, x, sweep⟩

theorem sweep_const (good : NoReadError x) (low : Nat) : Sweep (fun _ => x) low low x :=
  ⟨Nat.le_refl low, fun _ hn less => absurd hn (Nat.not_le.mpr less), fun _ _ => rfl, good⟩

theorem Reads.ok {a : α} (here : low = stop a) : Reads (fun _ => .ok a) low stop :=
  ⟨low, .ok a, sweep_const (.ok a) low, fun b same => by cases same; exact here⟩

theorem Reads.error {e : Ending} (good : e.status ≠ .readError) : Reads (fun _ => (.error e : Except Ending α)) low stop :=
  ⟨low, .error e, sweep_const (.error good) low, fun _ h => (nomatch h)⟩

/-- After a reading that ends at fault nothing more is read. -/
theorem Sweep.bind_error {e : Ending} (h : Sweep f low high (.error e)) : Sweep (fun n => f n >>= g n) low high (.error e) := by
  refine ⟨h.order, fun n hn less => ?_, fun n out => ?_, .error (h.good e rfl)⟩
  · obtain ⟨e', fails, status⟩ := h.fails n hn less
    exact ⟨e', by rw [fails]; rfl, status⟩
  · rw [h.kept n out]
    rfl

/-- One reading after another. -/
theorem Sweep.bind_ok {a : α} {high' : Nat} {y : Except Ending β} (h : Sweep f low high (.ok a)) (k : Sweep (fun n => g n a) high high' y) :
    Sweep (fun n => f n >>= g n) low high' y := by
  refine ⟨h.order.trans k.order, fun n hn less => ?_, fun n out => ?_, k.good⟩
  · by_cases first : n < high
    · obtain ⟨e, fails, status⟩ := h.fails n hn first
      exact ⟨e, by rw [fails]; rfl, status⟩
    · obtain ⟨e, fails, status⟩ := k.fails n (Nat.not_lt.mp first) less
      exact ⟨e, by rw [h.kept n (.inr (Nat.not_lt.mp first))]; exact fails, status⟩
  · have h1 := h.order
    have h2 := k.order
    rw [h.kept n (by omega)]
    exact k.kept n (by omega)

theorem Reads.bind (h : Reads f low stop) (k : ∀ a, Reads (fun n => g n a) (stop a) stop') : Reads (fun n => f n >>= g n) low stop' := by
  obtain ⟨high, x, sweep, at_⟩ := h
  cases x with
  | error e => exact ⟨high, .error e, sweep.bind_error, fun _ h => (nomatch h)⟩
  | ok a =>
    obtain ⟨high', y, sweep', at'⟩ := k a
    exact ⟨high', y, sweep.bind_ok (at_ a rfl ▸ sweep'), at'⟩

theorem Sweeps.bind (h : Reads f low stop) (k : ∀ a, Sweeps (fun n => g n a) (stop a)) : Sweeps (fun n => f n >>= g n) low := by
  obtain ⟨high, x, sweep, at_⟩ := h
  cases x with
  | error e => exact ⟨high, .error e, sweep.bind_error⟩
  | ok a =>
    obtain ⟨high', y, sweep'⟩ := k a
    exact ⟨high', y, sweep.bind_ok (at_ a rfl ▸ sweep')⟩

/-- A test that makes no transfer. -/
theorem Reads.test (good : NoReadError x) (k : ∀ a, Reads (fun n => g n a) low stop') :
    Reads (fun n => x >>= g n) low stop' :=
  .bind (stop := fun _ => low) ⟨low, x, sweep_const good low, fun _ _ => rfl⟩ k

theorem Sweeps.test (good : NoReadError x) (k : ∀ a, Sweeps (fun n => g n a) low) :
    Sweeps (fun n => x >>= g n) low :=
  Sweeps.bind (stop := fun _ => low) ⟨low, x, sweep_const good low, fun _ _ => rfl⟩ k

theorem Sweeps.bindTest (h : Sweeps f low) (good : ∀ a, NoReadError (g 0 a)) (const : ∀ a n, g n a = g 0 a) :
    Sweeps (fun n => f n >>= g n) low := by
  obtain ⟨high, x, sweep⟩ := h
  refine Sweeps.bind (stop := fun _ => high) ⟨high, x, sweep, fun _ _ => rfl⟩ fun a => ⟨high, g 0 a, ?_⟩
  have same : (fun n => g n a) = fun _ => g 0 a := funext fun n => const a n
  rw [same]
  exact sweep_const (good a) high

end

/-! ## The tests of a descriptor (R17 to R22) -/

theorem require_good {ok : Bool} {e : Ending} (good : e.status ≠ .readError) : NoReadError (require ok e) := by
  unfold require
  split
  · exact .ok ()
  · exact .error good

theorem requireField_good {ok : Bool} {offset : Nat} : NoReadError (requireField ok offset) := require_good (e := badDescriptor offset) nofun

theorem requireCode_good {α : Type} {code : Option α} {offset : Nat} : NoReadError (requireCode code offset) := by
  unfold requireCode
  split
  · exact .ok _
  · exact .error nofun

theorem fieldsOfForm_good {form : Form} {w : Word} {off : Nat} : NoReadError (fieldsOfForm form w off) := by
  unfold fieldsOfForm
  split
  · exact .bind requireField_good fun _ => .bind requireField_good fun _ => .bind requireField_good fun _ => .ok _
  · exact .ok form

/-! ## The parts of a descriptor -/

/-- The reading in which transfer `n` fails. -/
def Reading.failing (r : Reading) (n : Nat) : Reading := { r with env := { r.env with failAt := some n } }

section
variable {r : Reading}

theorem word_reads (w field : Nat) : Reads (fun n => (r.failing n).word w field) (r.transfer w) fun _ => r.transfer w + 1 := by
  by_cases outside : 0x0FFFFFFF < r.base + 4 * w
  · have same : (fun n => (r.failing n).word w field) = fun _ => .error (badDescriptor field) := funext fun n => if_pos outside
    rw [same]
    exact .error nofun
  · have acked : ∀ n, acks (r.failing n).env (r.transfer w) (r.base + 4 * w) = decide (n ≠ r.transfer w) := fun n => by
      by_cases here : n = r.transfer w
      · rw [acks_failed (congrArg some here), here]
        simp
      · rw [acks_failing (k := n) rfl (Ne.symm here) (by omega), decide_eq_true here]
    have word : ∀ n, (r.failing n).word w field =
        if n = r.transfer w then .error { status := .readError, detail := 4 * w } else .ok (r.content w) := fun n => by
      refine (if_neg outside).trans ?_
      change (if acks (r.failing n).env (r.transfer w) (r.base + 4 * w) = true then _ else _) = _
      rw [acked n]
      by_cases here : n = r.transfer w <;> simp [here]
      rfl
    refine ⟨r.transfer w + 1, .ok (r.content w), ⟨by omega, fun n low less => ?_, fun n out => ?_, .ok _⟩, fun _ _ => rfl⟩
    · exact ⟨_, (word n).trans (if_pos (by omega)), rfl⟩
    · exact (word n).trans (if_neg (by omega))

variable (whole : r.firstWord = 0)
include whole

theorem transfer_eq (w : Nat) : r.transfer w = r.firstTransfer + w := by rw [Reading.transfer, whole, Nat.sub_zero]

theorem word_reads_at (w field : Nat) : Reads (fun n => (r.failing n).word w field) (r.firstTransfer + w) fun _ => r.firstTransfer + (w + 1) := by
  have reads := word_reads (r := r) w field
  rw [transfer_eq whole] at reads
  exact reads

theorem nameWords_reads (off len : Nat) : ∀ (k : Nat) (acc : List Byte), k ≤ 6 →
    Reads (fun n => (r.failing n).nameWords off len k acc) (r.firstTransfer + (off / 4 + (7 - k))) fun _ => r.firstTransfer + (off / 4 + 7)
  | 0, acc, _ => .ok rfl
  | k + 1, acc, few => by
    refine .bind (stop := fun _ => r.firstTransfer + (off / 4 + (7 - k))) ?_ fun w => ?_
    · have reads := word_reads_at whole (off / 4 + (6 - k)) off
      rw [show off / 4 + (6 - k) + 1 = off / 4 + (7 - k) by omega] at reads
      rw [show 7 - (k + 1) = 6 - k by omega]
      exact reads
    · dsimp only
      split
      · exact .error nofun
      · exact nameWords_reads off len k _ (by omega)

theorem name_reads (off : Nat) : Reads (fun n => (r.failing n).name off) (r.firstTransfer + off / 4) fun _ => r.firstTransfer + (off / 4 + 7) := by
  refine .bind (word_reads_at whole (off / 4) off) fun w => .test requireField_good fun _ => ?_
  dsimp only
  split
  · exact .error nofun
  · exact nameWords_reads whole off _ 6 _ (Nat.le_refl 6)

theorem segment_reads (off : Nat) : Reads (fun n => (r.failing n).segment off) (r.firstTransfer + off / 4) fun _ => r.firstTransfer + (off / 4 + 2) :=
  .bind (word_reads_at whole (off / 4) off) fun _ => .bind (word_reads_at whole (off / 4 + 1) (off + 4)) fun _ =>
    .test requireField_good fun _ => .ok rfl

theorem segments_reads : ∀ (k off : Nat),
    Reads (fun n => (r.failing n).segments off k) (r.firstTransfer + off / 4) fun _ => r.firstTransfer + (off / 4 + 2 * k)
  | 0, off => .ok rfl
  | k + 1, off => by
    refine .bind (segment_reads whole off) fun x => .bind (stop := fun _ => r.firstTransfer + (off / 4 + 2 * (k + 1))) ?_ fun _ => .ok rfl
    have reads := segments_reads k (off + 8)
    rw [show (off + 8) / 4 = off / 4 + 2 by omega, show off / 4 + 2 + 2 * k = off / 4 + 2 * (k + 1) by omega] at reads
    exact reads

theorem exportRecord_reads (segments : List Segment) (off : Nat) :
    Reads (fun n => (r.failing n).exportRecord segments off) (r.firstTransfer + off / 4) fun _ => r.firstTransfer + (off / 4 + 9) :=
  .bind (name_reads whole off) fun _ => .bind (word_reads_at whole (off / 4 + 7) (off + 0x1C)) fun _ => .test requireCode_good fun _ =>
    .test requireCode_good fun _ => .test requireCode_good fun _ => .bind (word_reads_at whole (off / 4 + 8) (off + 0x20)) fun _ =>
      .test requireField_good fun _ => .ok rfl

theorem site_reads (segments : List Segment) (off : Nat) :
    Reads (fun n => (r.failing n).site segments off) (r.firstTransfer + off / 4) fun _ => r.firstTransfer + (off / 4 + 4) :=
  .bind (word_reads_at whole (off / 4) off) fun _ => .test requireCode_good fun _ => .test requireCode_good fun _ =>
    .bind (word_reads_at whole (off / 4 + 1) (off + 0x04)) fun _ => .test requireField_good fun _ => .test requireField_good fun _ =>
      .bind (word_reads_at whole (off / 4 + 2) (off + 0x08)) fun _ => .test fieldsOfForm_good fun _ =>
        .bind (word_reads_at whole (off / 4 + 3) (off + 0x0C)) fun _ => .ok rfl

theorem sites_reads (segments : List Segment) : ∀ (k off : Nat),
    Reads (fun n => (r.failing n).sites segments off k) (r.firstTransfer + off / 4) fun xs => r.firstTransfer + (off / 4 + 4 * xs.length)
  | 0, off => .ok rfl
  | k + 1, off => by
    refine .bind (site_reads whole segments off) fun x =>
      .bind (stop := fun xs => r.firstTransfer + (off / 4 + 4 * (xs.length + 1))) ?_ fun _ => .ok rfl
    have reads := sites_reads segments k (off + 16)
    have place : ∀ xs : List Site, (off + 16) / 4 + 4 * xs.length = off / 4 + 4 * (xs.length + 1) := fun xs => by omega
    simp only [place] at reads
    rw [show (off + 16) / 4 = off / 4 + 4 by omega] at reads
    exact reads

theorem importRecord_reads (segments : List Segment) (off : Nat) :
    Reads (fun n => (r.failing n).importRecord segments off) (r.firstTransfer + off / 4)
      fun x => r.firstTransfer + ((off + 32 + 16 * x.sites.length) / 4) := by
  refine .bind (name_reads whole off) fun _ => .bind (word_reads_at whole (off / 4 + 7) (off + 0x1C)) fun w => .test requireCode_good fun _ =>
    .test requireCode_good fun _ => .test requireField_good fun _ =>
      .bind (stop := fun xs => r.firstTransfer + ((off + 32 + 16 * xs.length) / 4)) ?_ fun _ => .ok rfl
  have reads := sites_reads whole segments (byteAt w 2).toNat (off + 32)
  have place : ∀ xs : List Site, (off + 32) / 4 + 4 * xs.length = (off + 32 + 16 * xs.length) / 4 := fun xs => by omega
  simp only [place] at reads
  rw [show (off + 32) / 4 = off / 4 + 7 + 1 by omega] at reads
  exact reads

/-! ## The first pass (R17 to R22) -/

theorem checkExports_reads (s : State) (segments : List Segment) : ∀ (k off : Nat) (earlier : List Key),
    Reads (fun n => s.checkExports (r.failing n) segments off k earlier) (r.firstTransfer + off / 4)
      fun _ => r.firstTransfer + (off / 4 + 9 * k)
  | 0, off, earlier => .ok rfl
  | k + 1, off, earlier => by
    refine .bind (stop := fun _ => r.firstTransfer + (off / 4 + 9)) ?_ fun x => ?_
    · exact .bind (exportRecord_reads whole segments off) fun _ => .test (require_good nofun) fun _ => .ok rfl
    · have reads := checkExports_reads s segments k (off + 36) (earlier ++ [s.keyOf x.scope x.name])
      rw [show (off + 36) / 4 = off / 4 + 9 by omega, show off / 4 + 9 + 9 * k = off / 4 + 9 * (k + 1) by omega] at reads
      exact reads

theorem checkImports_sweeps (segments : List Segment) : ∀ (k off sum : Nat),
    Sweeps (fun n => checkImports (r.failing n) segments off k sum) (r.firstTransfer + off / 4)
  | 0, off, _ => (Reads.ok (stop := fun _ => r.firstTransfer + off / 4) rfl).sweeps
  | k + 1, off, _ => .bind (importRecord_reads whole segments off) fun _ => checkImports_sweeps segments k _ _

theorem firstPass_sweeps (s : State) (address : Word) : Sweeps (fun n => s.firstPass (r.failing n) address) r.firstTransfer := by
  refine .bind (word_reads_at whole 0 0) fun w0 => ?_
  refine .test requireField_good fun _ => .test (require_good nofun) fun _ => .test (require_good nofun) fun _ => ?_
  refine .test requireField_good fun _ => .test requireField_good fun _ => .test (require_good nofun) fun _ => ?_
  refine .bind (word_reads_at whole 1 4) fun w1 => ?_
  refine .test requireField_good fun _ => .test (require_good nofun) fun _ => .test requireField_good fun _ => .test (require_good nofun) fun _ => ?_
  refine .bind (segments_reads whole (byteAt w0 1).toNat 8) fun segments => ?_
  have place : 8 / 4 + 2 * (byteAt w0 1).toNat = (8 + 8 * (byteAt w0 1).toNat) / 4 := by omega
  have exports := checkExports_reads whole s segments (halfOf (byteAt w0 2) (byteAt w0 3)).toNat (8 + 8 * (byteAt w0 1).toNat) []
  rw [← place] at exports
  refine .bind exports fun _ => ?_
  have imports := checkImports_sweeps whole segments (halfOf (byteAt w1 0) (byteAt w1 1)).toNat
    (8 + 8 * (byteAt w0 1).toNat + 36 * (halfOf (byteAt w0 2) (byteAt w0 3)).toNat) 0
  have place' : 8 / 4 + 2 * (byteAt w0 1).toNat + 9 * (halfOf (byteAt w0 2) (byteAt w0 3)).toNat =
      (8 + 8 * (byteAt w0 1).toNat + 36 * (halfOf (byteAt w0 2) (byteAt w0 3)).toNat) / 4 := by omega
  rw [← place'] at imports
  exact imports.bindTest (fun _ => .bind requireField_good fun _ => .ok _) fun _ _ => rfl

end

end Sys2Proof.Machine

/-! How a block, an unknown code or the station state ends a command, and what a step leaves that leaves the reading (R169, R182). -/

namespace Sys2Proof.Machine

section
variable {s t : State} {env out : Env} {a : Word} {k : CommandKind} {e : Ending} {p : Nat}

/-! ## The READ-ERROR of the head, by the transfer that fails -/

/-- The step in which transfer `p` of the run fails. -/
def failingAt (env : Env) (p : Nat) : Env := { env with failAt := some p }

theorem blockWords_reads (mem : Memory) (fetched : List Word) (env : Env) (a : Nat) : ∀ (n k : Nat),
    Reads (fun i => blockWords mem fetched (failingAt env i) a k n) k fun _ => k + n
  | 0, k => .ok rfl
  | n + 1, k => by
    have rest := blockWords_reads mem fetched env a n (k + 1)
    rw [show k + 1 + n = k + (n + 1) by omega] at rest
    by_cases outside : 0x0FFFFFFF < a + 4 * k
    · have same : (fun i => blockWords mem fetched (failingAt env i) a k (n + 1)) = fun _ => .error { status := .badCommand, detail := 0 } :=
        funext fun i => if_pos outside
      rw [same]
      exact .error nofun
    · have acked : ∀ i, acks (failingAt env i) k (a + 4 * k) = decide (i ≠ k) := fun i => by
        by_cases here : i = k
        · rw [here, acks_failed rfl]
          simp
        · rw [acks_failing (k := i) rfl (Ne.symm here) (by omega), decide_eq_true here]
      have word : Reads (fun i => if i = k then .error { status := .readError, detail := 4 * k } else .ok (blockContent mem fetched a k)) k
          fun _ => k + 1 :=
        ⟨k + 1, .ok (blockContent mem fetched a k), ⟨by omega, fun i low less => ⟨_, if_pos (by omega), rfl⟩, fun i out => if_neg (by omega), .ok _⟩,
          fun _ _ => rfl⟩
      have same : (fun i => blockWords mem fetched (failingAt env i) a k (n + 1)) = fun i =>
          (if i = k then .error { status := .readError, detail := 4 * k } else .ok (blockContent mem fetched a k)) >>= fun w =>
            blockWords mem fetched (failingAt env i) a (k + 1) n >>= fun ws => .ok (w :: ws) := by
        funext i
        rw [blockWords, if_neg outside, acked i]
        by_cases here : i = k
        · simp [here]
          rfl
        · simp [here]
          rfl
      rw [same]
      exact word.bind fun _ => .bind rest fun _ => .ok rfl

/-- Where the transfer `n` of a run does not fail it, the next would not either. -/
theorem Sweep.later {α : Type} {f : Nat → Except Ending α} {low high n : Nat} {x : Except Ending α} (h : Sweep f low high x) (from_ : low ≤ n)
    (good : NoReadError (f n)) : high ≤ n ∧ f n = x ∧ f (n + 1) = x := by
  have past : high ≤ n := by
    by_contra before
    obtain ⟨e, fails, status⟩ := h.fails n from_ (by omega)
    exact good e fails status
  exact ⟨past, h.kept n (.inr past), h.kept (n + 1) (.inr (by omega))⟩

theorem loadFirstPass_sweeps (t : State) (env : Env) (words : List Word) : ∃ f : Nat → Except Ending ModuleRecord, Sweeps f 2 ∧
    ∀ p, t.loadFirstPass (failingAt env p) words = f (p + t.runs.fetched.length) := by
  by_cases bad : (words.getD 0 0).toNat % 4 ≠ 0 ∨ 0x0FFFFFFF < (words.getD 0 0).toNat
  · have good : NoReadError (.error { status := .badCommand, detail := 0 } : Except Ending ModuleRecord) := .error nofun
    exact ⟨fun _ => .error { status := .badCommand, detail := 0 }, ⟨2, _, sweep_const good 2⟩, fun p => if_pos bad⟩
  · let r : Reading := { mem := t.mem, env := resumed env t.runs.fetched.length, base := (words.getD 0 0).toNat, firstWord := 0
                         firstTransfer := 2, fetched := t.runs.fetched }
    exact ⟨fun n => t.firstPass (r.failing n) (words.getD 0 0), firstPass_sweeps (r := r) rfl t _, fun p => if_neg bad⟩

theorem readErrorOf_none_iff {tag : Half} : readErrorOf tag e = none ↔ e.status ≠ .readError := by
  unfold readErrorOf
  split
  · next read => exact ⟨fun h => (nomatch h), fun good => absurd read good⟩
  · next good => exact ⟨fun _ => good, fun _ => rfl⟩

/-- The first pass of the LOAD at the head meets no READ-ERROR. -/
theorem firstPassReadError_none_iff {tag : Half} {words : List Word} (head : t.readHead out = some (.whole (some k) tag words)) :
    t.firstPassReadError out = none ↔ (k = .load → t.station = .active → NoReadError (t.loadFirstPass out words)) := by
  unfold State.firstPassReadError
  rw [head]
  split
  · next tag' words' same =>
    cases same
    by_cases active : t.station = .active
    · rw [if_pos active]
      split
      · next e fails =>
        rw [readErrorOf_none_iff, fails]
        exact ⟨fun good _ _ => .error good, fun all => all rfl active e rfl⟩
      · next m passes =>
        rw [passes]
        exact ⟨fun _ _ _ => .ok m, fun _ => rfl⟩
    · rw [if_neg active]
      exact ⟨fun _ _ on => absurd on active, fun _ => rfl⟩
  · next other =>
    exact ⟨fun _ load => absurd (congrArg (fun k => some (HeadRead.whole (some k) tag words)) load) (other tag words), fun _ => rfl⟩

/-- The words of the block after its first, as the reading has them. -/
def State.blockRead (t : State) (out : Env) (a : Word) (k : CommandKind) : Except Ending (List Word) :=
  blockWords t.mem t.runs.fetched (resumed out t.runs.fetched.length) a.toNat 1 k.moreWords

/-- The reading of the head meets no READ-ERROR. -/
theorem headReadError_none_iff {rest : List Word} (queue : t.commandQueue = a :: rest) : t.headReadError out = none ↔
    acks (resumed out t.runs.fetched.length) 0 a.toNat = true ∧
    ∀ k, commandOfCode (byteAt (blockContent t.mem t.runs.fetched a.toNat 0) 0) = some k → NoReadError (t.blockRead out a k) ∧
      ∀ ws, t.blockRead out a k = .ok ws → k = .load → t.station = .active → NoReadError (t.loadFirstPass out ws) := by
  have head : t.readHead out = if acks (resumed out t.runs.fetched.length) 0 a.toNat then
      match commandOfCode (byteAt (blockContent t.mem t.runs.fetched a.toNat 0) 0) with
      | none => some (.whole none (tagOf (blockContent t.mem t.runs.fetched a.toNat 0)) [])
      | some k =>
        match t.blockRead out a k with
        | .ok ws => some (.whole (some k) (tagOf (blockContent t.mem t.runs.fetched a.toNat 0)) ws)
        | .error e => some (.failed (some (some k)) (tagOf (blockContent t.mem t.runs.fetched a.toNat 0)) e)
      else some (.failed none 0 { status := .readError, detail := 0 }) := by
    rw [State.readHead, queue]
    rfl
  by_cases first : acks (resumed out t.runs.fetched.length) 0 a.toNat = true
  case neg =>
    rw [if_neg first] at head
    rw [headReadError_failed head rfl]
    exact ⟨fun h => (nomatch h), fun h => absurd h.1 first⟩
  rw [if_pos first] at head
  cases code : commandOfCode (byteAt (blockContent t.mem t.runs.fetched a.toNat 0) 0) with
  | none =>
    rw [code] at head
    have none_ : t.headReadError out = none := by rw [State.headReadError, State.firstPassReadError, head]
    exact ⟨fun _ => ⟨first, fun _ h => (nomatch h)⟩, fun _ => none_⟩
  | some k =>
    cases read : t.blockRead out a k with
    | error e =>
      simp only [code, read] at head
      have same : t.headReadError out = readErrorOf (tagOf (blockContent t.mem t.runs.fetched a.toNat 0)) e := by
        rw [State.headReadError, head]
      rw [same, readErrorOf_none_iff]
      refine ⟨fun good => ⟨first, fun k' is => ?_⟩, fun ⟨_, all⟩ => (all k rfl).1 e read⟩
      cases is
      rw [read]
      exact ⟨.error good, fun _ h => (nomatch h)⟩
    | ok ws =>
      simp only [code, read] at head
      have same : t.headReadError out = t.firstPassReadError out := by rw [State.headReadError, head]
      rw [same, firstPassReadError_none_iff head]
      refine ⟨fun pass => ⟨first, fun k' is => ?_⟩, fun ⟨_, all⟩ => (all k rfl).2 ws read⟩
      cases is
      rw [read]
      refine ⟨.ok ws, fun ws' is => ?_⟩
      cases is
      exact pass

/-- Where no transfer after the words kept is made, a failure one transfer later meets none either. -/
theorem headReadError_later (none_ : t.headReadError (failingAt env p) = none) : t.headReadError (failingAt env (p + 1)) = none := by
  cases queue : t.commandQueue with
  | nil =>
    have empty : ∀ out, t.readHead out = none := fun out => by rw [State.readHead, queue]
    rw [State.headReadError, State.firstPassReadError, empty]
  | cons a rest =>
    let n := p + t.runs.fetched.length
    let run := resumed env t.runs.fetched.length
    have next : p + 1 + t.runs.fetched.length = n + 1 := by omega
    have later : resumed (failingAt env (p + 1)) t.runs.fetched.length = failingAt run (n + 1) := by
      rw [← next]
      rfl
    rw [headReadError_none_iff queue] at none_ ⊢
    obtain ⟨first, block⟩ := none_
    have one : n ≠ 0 := fun zero => by
      rw [acks_failed (congrArg some zero) a.toNat] at first
      cases first
    have inside : a.toNat < 0x10000000 := by
      rw [acks, Bool.and_eq_true] at first
      exact of_decide_eq_true first.2
    refine ⟨?_, fun k code => ?_⟩
    · rw [later]
      exact acks_failing rfl (Ne.symm (Nat.succ_ne_zero n)) inside
    · obtain ⟨good, pass⟩ := block k code
      obtain ⟨high, x, sweep, stop⟩ := blockWords_reads t.mem t.runs.fetched run a.toNat k.moreWords 1
      obtain ⟨past, now, after⟩ := sweep.later (n := n) (by omega) good
      have same : t.blockRead (failingAt env (p + 1)) a k = t.blockRead (failingAt env p) a k := by
        refine (?_ : _ = x).trans now.symm
        rw [State.blockRead, later]
        exact after
      rw [same]
      refine ⟨good, fun ws read load active => ?_⟩
      have two : 2 ≤ n := by
        have ends := stop ws (now.symm.trans read)
        rw [load] at ends
        exact (show high = 2 from ends) ▸ past
      obtain ⟨f, ⟨high', y, sweep'⟩, at_⟩ := loadFirstPass_sweeps t env ws
      have good' := pass ws read load active
      rw [at_] at good' ⊢
      obtain ⟨-, now', after'⟩ := sweep'.later two good'
      rw [next, after', ← now']
      exact good'

end

end Sys2Proof.Machine

/-! The rows of the command queue: how they end a command, and what a step leaves that leaves its block (R169, R182). -/

namespace Sys2Proof.Machine

section
variable {s t : State} {env out : Env} {a : Word} {k : CommandKind} {p : Nat} {c : Claimant}

/-! ## A row is a reading of the head -/

theorem exec_row_eq (k : CommandKind) (env : Env) (s : State) :
    ∃ body : Half → List Word → State → State, exec (k.row env) s = .next (s.runHead (some k) env body) := by
  cases k <;> exact ⟨_, rfl⟩

/-- Where the reading of the head fails, so ends the command. -/
theorem exec_row_failed {first : Option (Option CommandKind)} {tag : Half} {e : Ending} (execute : s.mayExecute = true) (whole : s.ReadsOn env)
    (read : (s.forReading env).readHead (s.runEnv .commandEngine env) = some (.failed first tag e)) (mine : first = none ∨ first = some (some k)) :
    exec (k.row env) s = .next (s.ended env tag e.status e.detail) := by
  obtain ⟨body, row⟩ := exec_row_eq k env s
  rw [row, runHead_failed execute whole read mine]

theorem acks_run (i b : Nat) : acks (resumed (s.runEnv .commandEngine env) s.runs.fetched.length) i b = s.readAcks env i b :=
  acks_resumed (runEnv_same s .commandEngine env).1 i b

/-! ## A word that is not read -/

/-- A block of which word `i` lies beyond local memory, or is not acknowledged. -/
theorem exec_row_block {e : Ending} (executes : s.Executes env a) (whole : s.ReadsOn env) (code : commandOfCode (byteAt (s.blockWord env a 0) 0) = some k)
    (fails : blockWords (s.mem.afterStores env.stores) s.runs.fetched (resumed (s.runEnv .commandEngine env) s.runs.fetched.length)
      a.toNat 1 k.moreWords = .error e) :
    exec (k.row env) s = .next (s.ended env (s.tagAt env a) e.status e.detail) :=
  exec_row_failed executes.mayExecute whole (readHead_failed executes.head ((acks_run _ _).trans executes.read) code fails) (.inr rfl)

/-- A step whose first transfer fails, and that makes it, does not leave its run before. -/
theorem pauseAt_first (some_ : env.upTo ≠ some 0) (fails : env.failAt = some 0) : pauseAt (s.runEnv c env) = none := by
  unfold State.runEnv
  split
  · simp only [pauseAt, fails]
    cases upTo : env.upTo with
    | none => rfl
    | some p =>
      refine if_pos ?_
      have : p ≠ 0 := fun zero => some_ (zero ▸ upTo)
      rw [Option.getD_some]
      omega
  · cases upTo : env.upTo with
    | none => simp only [pauseAt, upTo]
    | some p =>
      simp only [pauseAt, upTo, fails]
      refine if_pos ?_
      have : p ≠ 0 := fun zero => some_ (zero ▸ upTo)
      omega

/-! ## A block that is left between two words -/

/-- The table holds no LOADING record of a first pass, where the block of the head is not read whole. -/
theorem otherModules_of_block (code : commandOfCode (byteAt (s.blockWord env a 0) 0) = some k) (part : s.runs.fetched.length ≤ k.moreWords) :
    s.otherModules = s.modules := by
  by_cases load : k = .load
  · subst load
    exact otherModules_of_few (part.trans (by decide))
  · refine otherModules_of_loadingId ?_
    have none_ : s.runs.load? = none := Runs.load?_of_code fun w first is => by
      rw [blockWord_zero first, is] at code
      exact load (Option.some.inj code).symm
    rw [State.loadingId, State.firstPassLoad, none_]
    split <;> rfl

theorem forReading_of_block (code : commandOfCode (byteAt (s.blockWord env a 0) 0) = some k) (part : s.runs.fetched.length ≤ k.moreWords) :
    s.forReading env = s.forTransfers env := by
  rw [State.forReading, otherModules_of_block code part]
  rfl

/-- The address of the next word of a block, with `i` words read. -/
theorem headAddress_block (head : s.commandQueue.head? = some a) (code : commandOfCode (byteAt (s.blockWord env a 0) 0) = some k) {i : Nat}
    (less : i < k.moreWords + 1) : (s.forReading env).headAddress ((List.range i).map (s.blockWord env a)) = a.toNat + 4 * i := by
  have queue : ((s.forReading env).commandQueue.headD 0).toNat = a.toNat := by
    rw [show (s.forReading env).commandQueue = s.commandQueue from rfl, List.headD_eq_head?_getD, head]
    rfl
  have length : ((List.range i).map (s.blockWord env a)).length = i := by rw [List.length_map, List.length_range]
  unfold State.headAddress
  dsimp only
  rw [queue]
  split
  · next w d rest words =>
    have more : 2 ≤ i := by
      rw [← length, words, List.length_cons, List.length_cons]
      omega
    have first : w = s.blockWord env a 0 := by
      have at_ := congrArg List.head? words
      rw [List.head?_map, List.head?_range, if_neg (by omega)] at at_
      exact (Option.some.inj at_).symm
    have other : k ≠ .load := by
      rintro rfl
      exact absurd (less.trans_le (by decide : CommandKind.load.moreWords + 1 ≤ 2)) (Nat.not_lt.mpr more)
    rw [first, code, if_neg fun same => other (Option.some.inj same), length]
  · rw [length]

/-- The words of the block that are read where it is left. -/
theorem fetchMore_block (head : s.commandQueue.head? = some a) (code : commandOfCode (byteAt (s.blockWord env a 0) 0) = some k)
    (part : s.runs.fetched.length + p ≤ k.moreWords) :
    fetchMore (s.mem.afterStores env.stores) (s.forReading env).headAddress p s.runs.fetched =
      (List.range (s.runs.fetched.length + p)).map (s.blockWord env a) := by
  refine fetchMore_eq p _ (fetched_eq fun i w kept => ?_) fun i low high => ?_
  · rw [State.blockWord, kept]
    rfl
  · rw [headAddress_block head code (by omega), blockWord_unread (List.getElem?_eq_none low)]

/-- Words that are no part of a first pass are kept, and nothing else. -/
theorem leaveHead_none (none_ : t.firstPassReadError { out with failAt := out.upTo } = none) (words : List Word) :
    t.leaveHead out words = { t with runs := { t.runs with fetched := words } } := by
  unfold State.leaveHead
  dsimp only
  split
  · rw [none_]
    rfl
  · rfl

section
variable (executes : s.Executes env a) (code : commandOfCode (byteAt (s.blockWord env a 0) 0) = some k) (some_ : 1 ≤ s.runs.fetched.length + p)
  (part : s.runs.fetched.length + p ≤ k.moreWords) (inside : a.toNat + 4 * (s.runs.fetched.length + p) ≤ 0x0FFFFFFF)
include executes code some_ part inside

/-- The transfer after those of the step is one of the block. -/
theorem readHead_next : (s.forReading env).readHead { s.runEnv .commandEngine env with failAt := some p } =
    some (.failed (some (some k)) (s.tagAt env a) { status := .readError, detail := 4 * (s.runs.fetched.length + p) }) := by
  have acked : ∀ i b, i < s.runs.fetched.length + p → b ≤ 0x0FFFFFFF →
      acks (resumed { s.runEnv .commandEngine env with failAt := some p } s.runs.fetched.length) i b = true := fun i b before small =>
    (acks_resumed (env := { env with failAt := some p }) rfl i b).trans (readAcks_before before small)
  refine readHead_failed executes.head (acked 0 _ (by omega) (readAcks_inside executes.read)) code ?_
  refine blockWords_unread _ _ inside (acks_failed ?_ _) _ _ some_ (by omega) fun j low high => acked j _ high (by omega)
  rw [Nat.add_comm s.runs.fetched.length p]
  rfl

theorem leaveHead_part (upTo : (s.runEnv .commandEngine env).upTo = some p) (words : List Word) :
    (s.forReading env).leaveHead (s.runEnv .commandEngine env) words = { s.forTransfers env with runs := { s.runs with fetched := words } } := by
  have read := readHead_next executes code some_ part inside
  rw [← upTo] at read
  rw [leaveHead_none (by rw [State.firstPassReadError, read]), forReading_of_block code (Nat.le_trans (Nat.le_add_right _ p) part)]
  rfl

/-- The step leaves the block there. -/
theorem exec_row_left (leaves : s.leavesAfter .commandEngine env p) : exec (k.row env) s =
    .next (s.leftReading env ((List.range (s.runs.fetched.length + p)).map (s.blockWord env a))) := by
  obtain ⟨body, row⟩ := exec_row_eq k env s
  have more : ((s.forReading env).headReadError { s.runEnv .commandEngine env with failAt := some p }).isSome = true := by
    rw [headReadError_failed (readHead_next executes code some_ part inside) rfl]
    rfl
  have pause : (s.forReading env).headPause (s.runEnv .commandEngine env) =
      some ((List.range (s.runs.fetched.length + p)).map (s.blockWord env a)) := by
    rw [headPause_of_error (pauseAt_of_leaves leaves) more]
    exact congrArg some (fetchMore_block executes.head code part)
  have mine : (((List.range (s.runs.fetched.length + p)).map (s.blockWord env a)).head?.map fun w => commandOfCode (byteAt w 0)) = some (some k) := by
    rw [List.head?_map, List.head?_range, if_neg (by omega), Option.map_some, Option.map_some, code]
  rw [row, runHead_left executes.mayExecute pause mine body, leaveHead_part executes code some_ part inside leaves.1]
  rfl

end

/-! ## A step that reads on (R182) -/

theorem headReadError_toTheEnd (t : State) (out : Env) : t.headReadError (toTheEnd out) = t.headReadError out := rfl

theorem readHead_runEnv (t : State) (c : Claimant) (env : Env) : t.readHead (s.runEnv c env) = t.readHead env := by
  unfold State.runEnv
  split <;> rfl

/-- While another claimant waits, a step that makes a transfer makes one. -/
theorem runEnv_toTheEnd (others : s.othersAsk c = true) (some_ : env.upTo ≠ some 0) : s.runEnv c (toTheEnd env) = s.runEnv c env := by
  rw [State.runEnv, State.runEnv, if_pos others, if_pos others]
  cases upTo : env.upTo with
  | none => rfl
  | some p =>
    have one : min 1 p = 1 := Nat.min_eq_left (Nat.one_le_iff_ne_zero.mpr fun zero => some_ (zero ▸ upTo))
    rw [Option.getD_some, one]
    rfl

/-- A step that reads the head to its end does so without its operand. -/
theorem readsOn_toTheEnd (whole : s.ReadsOn env) : s.ReadsOn (toTheEnd env) := by
  by_cases others : s.othersAsk .commandEngine = true
  case neg =>
    unfold State.ReadsOn State.runEnv
    rw [if_neg others]
    rfl
  by_cases some_ : env.upTo = some 0
  case neg =>
    unfold State.ReadsOn
    rw [runEnv_toTheEnd others some_]
    exact whole
  have none_ : (s.forReading env).headReadError (failingAt env 0) = none := by
    have pause : pauseAt (s.runEnv .commandEngine env) = some 0 := by
      rw [State.runEnv, if_pos others, some_]
      unfold pauseAt
      cases env.failAt <;> rfl
    have whole : (s.forReading env).headPause (s.runEnv .commandEngine env) = none := whole
    rw [State.headPause, pause] at whole
    by_contra some_
    refine absurd whole ?_
    have fails : ((s.forReading env).headReadError { s.runEnv .commandEngine env with failAt := some 0 }).isSome = true := by
      rw [State.runEnv, if_pos others]
      exact Option.isSome_iff_ne_none.mpr some_
    dsimp only
    rw [if_pos fails]
    exact nofun
  have later := headReadError_later none_
  unfold State.ReadsOn State.headPause
  split
  · next p pause =>
    have one : p = 1 := by
      rw [State.runEnv, if_pos others] at pause
      have upTo := upTo_of_pauseAt pause
      exact (Option.some.inj upTo).symm
    have same : (s.forReading (toTheEnd env)).headReadError { s.runEnv .commandEngine (toTheEnd env) with failAt := some p } = none := by
      rw [State.runEnv, if_pos others, one]
      exact later
    rw [same]
    rfl
  · rfl

theorem runHead_toTheEnd {kind : Option CommandKind} (whole : s.ReadsOn env) (body : Half → List Word → State → State) :
    s.runHead kind env body = s.runHead kind (toTheEnd env) body := by
  have whole' := readsOn_toTheEnd whole
  have read : (s.forReading env).readHead (s.runEnv .commandEngine env) =
      (s.forReading (toTheEnd env)).readHead (s.runEnv .commandEngine (toTheEnd env)) := by
    rw [readHead_runEnv, readHead_runEnv]
    rfl
  unfold State.runHead
  simp only [forReading_runEnv, show (s.forReading env).headPause (s.runEnv .commandEngine env) = none from whole,
    show (s.forReading (toTheEnd env)).headPause (s.runEnv .commandEngine (toTheEnd env)) = none from whole', read]
  rfl

end

theorem takenIn_iff (st : StationState) :
    (CommandKind.configure.takenIn st = true ↔ st = .off) ∧ (CommandKind.start.takenIn st = true ↔ st = .configured) ∧
    (CommandKind.stop.takenIn st = true ↔ st = .active) ∧ (CommandKind.load.takenIn st = true ↔ st = .active) ∧
    (CommandKind.unload.takenIn st = true ↔ st = .active) ∧ (CommandKind.reseek.takenIn st = true ↔ st = .active) ∧
    CommandKind.report.takenIn st = true :=
  ⟨decide_eq_true_iff, decide_eq_true_iff, decide_eq_true_iff, decide_eq_true_iff, decide_eq_true_iff, decide_eq_true_iff, rfl⟩

/-- Settles O25: each clause is one outcome of the reading of the head; a step that reads on makes no transfer after its words. -/
theorem blocksThatEndACommand : Obligations.BlocksThatEndACommand := by
  refine ⟨takenIn_iff, fun s env a => ⟨fun executes whole none_ => ?unknown, fun k h refused => h.exec_row refused,
    fun k i executes whole code one most before => ⟨fun outside => ?_, fun inside unread => ?_⟩,
    fun awake idle head inside granted none_ some_ fails => ?unread,
    fun k p executes code leaves one part inside => exec_row_left executes code one part inside leaves, fun k whole => ?_⟩⟩
  case unknown =>
    have read := readHead_unknown executes.head ((acks_run (s := s) (env := env) _ _).trans executes.read) none_
    refine congrArg Host.Outcome.next ((runHead_whole executes.mayExecute whole read _).trans ?_)
    exact endCommand_forReading s env _ _ _
  case unread =>
    have fails' : (resumed (s.runEnv .commandEngine env) s.runs.fetched.length).failAt = some 0 := by
      change (s.runEnv .commandEngine env).failAt.map (· + s.runs.fetched.length) = some 0
      rw [(runEnv_same s .commandEngine env).1, fails, none_]
      rfl
    have read := readHead_unread (env := env) head (acks_failed fails' a.toNat)
    have whole : s.ReadsOn env := by
      rw [State.ReadsOn, State.headPause, pauseAt_first some_ fails]
    have execute : s.mayExecute = true := by
      rw [State.mayExecute, mayTransfer_of awake granted, idle]
      rfl
    exact ⟨congrArg Host.Outcome.next (runHead_failed execute whole read (.inl rfl) _), fun k => exec_row_failed execute whole read (.inl rfl)⟩
  · exact exec_row_block executes whole code (blockWords_outside _ _ outside _ _ one (by omega) fun j low high =>
      (acks_run _ _).trans (before j low high))
  · exact exec_row_block executes whole code (blockWords_unread _ _ inside ((acks_run _ _).trans unread) _ _ one (by omega) fun j low high =>
      (acks_run _ _).trans (before j low high))
  · cases k <;> exact congrArg Host.Outcome.next (runHead_toTheEnd whole _)

end Sys2Proof.Machine

/-! What the memory agent sees of a step: local memory, the count of the free values in it, and the grant. No operation on the
tables touches any of them (R114, R127, R182). -/

namespace Sys2Proof.Machine

variable {s t : State}

/-- Local memory, the count of its free values, and the claimants granted. -/
def State.busSide (s : State) : Memory × Nat × List Claimant := (s.mem, s.freeCount, s.granted)

theorem busSide_eq_iff : t.busSide = s.busSide ↔ t.mem = s.mem ∧ t.freeCount = s.freeCount ∧ t.granted = s.granted := by
  simp [State.busSide]

theorem granted_of_busSide (h : t.busSide = s.busSide) : t.granted = s.granted := (busSide_eq_iff.mp h).2.2

theorem foldl_busSide {α : Type} {f : State → α → State} (h : ∀ s x, (f s x).busSide = s.busSide) (l : List α) :
    ∀ s : State, (l.foldl f s).busSide = s.busSide := by
  induction l with
  | nil => exact fun _ => rfl
  | cons x l ih => exact fun s => (ih (f s x)).trans (h s x)

/-! ## Notices, references and slots -/

@[simp] theorem post_busSide (s : State) (x : Notice) : (s.post x).busSide = s.busSide := rfl

@[simp] theorem setPhase_busSide (s : State) (o : Owner) (p : Phase) : (s.setPhase o p).busSide = s.busSide := rfl

@[simp] theorem setReflect_busSide (s : State) (o : Owner) (x : Reflect) : (s.setReflect o x).busSide = s.busSide := rfl

@[simp] theorem setModuleState_busSide (s : State) (m : Byte) (st : ModuleState) : (s.setModuleState m st).busSide = s.busSide := rfl

@[simp] theorem enterToSend_busSide (s : State) (n : Nat) (k : Key) (tries : Nat) : (s.enterToSend n k tries).busSide = s.busSide := rfl

@[simp] theorem takeSlot_busSide (s : State) (r : Ref) (n : Nat) : (s.takeSlot r n).busSide = s.busSide := rfl

@[simp] theorem joinQueued_busSide (s : State) (k : Key) (n : Nat) : (s.joinQueued k n).busSide = s.busSide := rfl

@[simp] theorem freeEmptySlots_busSide (s : State) : s.freeEmptySlots.busSide = s.busSide := rfl

@[simp] theorem appendWalks_busSide (s : State) : s.appendWalks.busSide = s.busSide := rfl

@[simp] theorem withdrawRequests_busSide (s : State) : s.withdrawRequests.busSide = s.busSide := rfl

@[simp] theorem dropBinding_busSide (c : RevocationCause) (s : State) (r : Ref) : (s.dropBinding c r).busSide = s.busSide := rfl

@[simp] theorem grantSlot_busSide (s : State) (k : Nat) : (s.grantSlot k).busSide = s.busSide := by
  unfold State.grantSlot
  split <;> rfl

@[simp] theorem grantCommand_busSide (s : State) : s.grantCommand.busSide = s.busSide := by
  unfold State.grantCommand
  split <;> rfl

@[simp] theorem grantRounds_busSide (n : Nat) : ∀ (order : List Bool) (s : State), (s.grantRounds n order).busSide = s.busSide := by
  induction n with
  | zero => exact fun _ _ => rfl
  | succ n ih =>
    intro order s
    unfold State.grantRounds
    split
    · rfl
    · split
      · split <;> simp [ih]
      · split <;> simp [ih]

@[simp] theorem arbitrate_busSide (s : State) (order : List Bool) : (s.arbitrate order).busSide = s.busSide := by
  unfold State.arbitrate
  split
  · rfl
  · exact grantRounds_busSide _ _ s

@[simp] theorem offerBinding_busSide (s : State) (r : Ref) (b : Binding) : (s.offerBinding r b).busSide = s.busSide := by
  unfold State.offerBinding
  split <;> rfl

@[simp] theorem enterOut_busSide (s : State) (k : Key) : (s.enterOut k).busSide = s.busSide := by
  unfold State.enterOut
  split
  · rfl
  · split
    · split <;> rfl
    · rfl

@[simp] theorem freeSlotOf_busSide (s : State) (k : Key) : (s.freeSlotOf k).busSide = s.busSide := by
  unfold State.freeSlotOf
  split <;> rfl

@[simp] theorem seekEntry_busSide (s : State) (r : Ref) : (s.seekEntry r).busSide = s.busSide := by
  unfold State.seekEntry
  split
  · exact offerBinding_busSide ..
  · split
    · rfl
    · split <;> rfl

@[simp] theorem serveOne_busSide (s : State) (r : Ref) (n : Nat) : (s.serveOne r n).busSide = s.busSide := by
  unfold State.serveOne
  split
  · exact offerBinding_busSide ..
  · split <;> rfl

@[simp] theorem serveRounds_busSide (n : Nat) : ∀ s : State, (s.serveRounds n).busSide = s.busSide := by
  induction n with
  | zero => exact fun _ => rfl
  | succ n ih =>
    intro s
    unfold State.serveRounds
    split
    · dsimp only
      split
      · exact (ih _).trans (serveOne_busSide ..)
      · exact ih _
    · rfl

@[simp] theorem settleModules_busSide (s : State) : s.settleModules.busSide = s.busSide := by
  refine foldl_busSide (fun s m => ?_) s.modules s
  unfold State.settleModule
  dsimp only
  split <;> rfl

@[simp] theorem endEvent_busSide (s before : State) (order : List Bool) : (s.endEvent before order).busSide = s.busSide := by
  unfold State.endEvent
  have served : (if someFreed before.slots s.slots then s.serve else s).busSide = s.busSide := by
    split
    · exact serveRounds_busSide _ s
    · rfl
  simp [served]

@[simp] theorem bindFromFrame_busSide (s : State) (r : Ref) (b : Binding) : (s.bindFromFrame r b).busSide = s.busSide :=
  offerBinding_busSide ..

@[simp] theorem bindKey_busSide (s : State) (k : Key) (b : Binding) : (s.bindKey k b).busSide = s.busSide :=
  (freeSlotOf_busSide ..).trans (foldl_busSide (fun t r => bindFromFrame_busSide t r b) _ s)

theorem clashRef_busSide (s : State) (r : Ref) (b : Binding) (refused : List Pair) :
    (s.clashRef r b refused).busSide = s.busSide := by
  unfold State.clashRef
  split
  · exact bindFromFrame_busSide ..
  · split
    · split
      · exact offerBinding_busSide ..
      · rfl
    · rfl

@[simp] theorem clashKey_busSide (s : State) (k : Key) (b : Binding) (refused : List Pair) :
    (s.clashKey k b refused).busSide = s.busSide :=
  (freeSlotOf_busSide ..).trans (foldl_busSide (fun t r => clashRef_busSide t r b refused) _ s)

@[simp] theorem revoke_busSide (s : State) (criterion : Ref → Binding → Bool) (cause : RevocationCause) :
    (s.revoke criterion cause).busSide = s.busSide :=
  (foldl_busSide seekEntry_busSide _ _).trans (foldl_busSide (fun t r => dropBinding_busSide cause t r) _ s)

@[simp] theorem exhaust_busSide (s : State) (n : Nat) : (s.exhaust n).busSide = s.busSide :=
  foldl_busSide (f := fun t (r : Ref) => (t.setPhase r.owner .waiting).post (.referenceUnresolved r.owner)) (fun _ _ => rfl) _ s

/-! ## The directory and the peer table -/

@[simp] theorem setEntry_busSide (s : State) (o : Owner) (st : ExportState) : (s.setEntry o st).busSide = s.busSide := rfl

@[simp] theorem removeWithdrawn_busSide (s : State) (k : Key) (g : Half) : (s.removeWithdrawn k g).busSide = s.busSide := rfl

@[simp] theorem dropPairs_busSide (s : State) (gone : Key → Pair → Bool) : (s.dropPairs gone).busSide = s.busSide := rfl

@[simp] theorem updatePeer_busSide (s : State) (n : Station) (f : Peer → Peer) : (s.updatePeer n f).busSide = s.busSide := rfl

@[simp] theorem removeRefs_busSide (s : State) (m : Byte) (begun : Bool) : (s.removeRefs m begun).busSide = s.busSide := rfl

@[simp] theorem removeModule_busSide (s : State) (m : Byte) : (s.removeModule m).busSide = s.busSide := rfl

@[simp] theorem hear_busSide (s : State) (f : Frame) : (s.hear f).busSide = s.busSide := rfl

@[simp] theorem markAbsent_busSide (s : State) (n : Station) : (s.markAbsent n).busSide = s.busSide := rfl

@[simp] theorem oweClash_busSide (s : State) (o : Owner) : (s.oweClash o).busSide = s.busSide := by
  unfold State.oweClash
  split <;> rfl

@[simp] theorem refuse_busSide (s : State) (o : Owner) (p : Pair) : (s.refuse o p).busSide = s.busSide := rfl

@[simp] theorem meetClaim_busSide (s : State) (k : Key) (p : Pair) (refused : List Pair) :
    (s.meetClaim k p refused).busSide = s.busSide := by
  unfold State.meetClaim
  split
  · rfl
  · split
    · rfl
    · split
      · rfl
      · exact oweClash_busSide ..
    · rfl
    · rfl

@[simp] theorem meetSeek_busSide (s : State) (k : Key) : (s.meetSeek k).busSide = s.busSide := by
  unfold State.meetSeek
  split
  · rfl
  · split
    · unfold State.oweOffer
      split <;> rfl
    all_goals rfl

@[simp] theorem meetOwnAnnounce_busSide (s : State) (k : Key) (g : Half) : (s.meetOwnAnnounce k g).busSide = s.busSide := by
  unfold State.meetOwnAnnounce
  split
  · rfl
  · split <;> rfl

@[simp] theorem losePeer_busSide (s : State) (n : Station) (cause : PeerLoss) : (s.losePeer n cause).busSide = s.busSide :=
  (dropPairs_busSide ..).trans (revoke_busSide ..)

@[simp] theorem departs_busSide (s : State) (n : Station) (cause : PeerLoss) : (s.departs n cause).busSide = s.busSide := by
  unfold State.departs
  split
  · simp
  · rfl

/-! ## Walks -/

theorem completeWalk_busSide (s : State) (o : Owner) (v : WalkValue) : (s.completeWalk o v).busSide = s.busSide := by
  cases v <;> rfl

theorem beginWrites_busSide (s : State) (r : Ref) (v : WalkValue) (ws : List Word) :
    (s.beginWrites r v ws).busSide = s.busSide := by
  unfold State.beginWrites
  split
  · rfl
  · exact completeWalk_busSide ..

theorem computeWalk_busSide (s : State) (r : Ref) : (s.computeWalk r).busSide = s.busSide := by
  unfold State.computeWalk
  split
  · exact beginWrites_busSide ..
  · split
    · exact beginWrites_busSide ..
    · exact beginWrites_busSide ..

@[simp] theorem beginWalk_busSide (s : State) (r : Ref) : (s.beginWalk r).busSide = s.busSide := by
  unfold State.beginWalk
  split
  · exact completeWalk_busSide ..
  · exact computeWalk_busSide ..

/-! ## Commands -/

@[simp] theorem endFetch_busSide (s : State) : s.endFetch.busSide = s.busSide := rfl

@[simp] theorem endCommand_busSide (s : State) (tag : Half) (st : Status) (d : Nat) : (s.endCommand tag st d).busSide = s.busSide := rfl

@[simp] theorem setRecord_busSide (s : State) (x : Option TakenRecord) : (s.setRecord x).busSide = s.busSide := rfl

@[simp] theorem finishRemoval_busSide (s : State) : s.finishRemoval.busSide = s.busSide := by
  unfold State.finishRemoval
  split
  · split <;> rfl
  · split <;> rfl
  · rfl

@[simp] theorem completeStop_busSide (s : State) : s.completeStop.busSide = s.busSide := by
  unfold State.completeStop
  split <;> rfl

/-! ## The line -/

@[simp] theorem dropHeads_busSide (n : Nat) : ∀ s : State, (State.dropHeads n s).busSide = s.busSide := by
  induction n with
  | zero => exact fun _ => rfl
  | succ n ih =>
    intro s
    unfold State.dropHeads
    split
    · rfl
    · split
      · rfl
      · exact (ih _).trans (arbitrate_busSide ..)

@[simp] theorem beginFrame_busSide (s : State) : s.beginFrame.busSide = s.busSide := by
  unfold State.beginFrame
  split
  · split <;> rfl
  · dsimp only
    split
    · exact dropHeads_busSide ..
    · exact dropHeads_busSide ..

@[simp] theorem leaveSource_busSide (s : State) (x : Source) : (s.leaveSource x).busSide = s.busSide := by
  cases x with
  | queue => exact arbitrate_busSide ..
  | answer o => rfl

@[simp] theorem openWindow_busSide (s : State) (bits : List Bool) (a : Arrival) : (s.openWindow bits a).busSide = s.busSide := rfl

@[simp] theorem cutFromBus_busSide (s : State) : s.cutFromBus.busSide = s.busSide := rfl

@[simp] theorem abandonModule_busSide (s : State) (tag : Half) (m : Byte) (begun : Bool) :
    (s.abandonModule tag m begun).busSide = s.busSide := by
  rw [abandonModule_eq, endFetch_busSide, endCommand_busSide, endEvent_busSide]
  rfl

end Sys2Proof.Machine

/-! How an event ends for the memory agent in which no claimant's transfer ends (R182; log 8). -/

namespace Sys2Proof.Machine

variable {s t u : State}

/-! ## What the requests depend on -/

/-- The two states agree in all that the claimants' requests depend on. -/
structure State.SameRequests (s t : State) : Prop where
  command : t.command = s.command
  commandQueue : t.commandQueue = s.commandQueue
  modules : t.modules = s.modules
  wanted : t.wanted = s.wanted
  runs : t.runs = s.runs
  peers : t.peers.length = s.peers.length
  directory : t.directory = s.directory
  refs : t.refs = s.refs
  transfer : t.transfer = s.transfer
  ring : t.notices.ring = s.notices.ring
  list : t.notices.list = s.notices.list

/-- Whether a listing has a record depends on the lengths of the tables alone (R173). -/
theorem State.SameRequests.recordAt_isSome (h : s.SameRequests t) (sel : Selector) (m : Byte) (n : Nat) :
    (t.recordAt sel m n).isSome = (s.recordAt sel m n).isSome := by
  unfold State.recordAt
  rw [h.runs]
  cases s.runs.record with
  | some x => rfl
  | none =>
    simp only [Option.isSome_map, State.reportRecord]
    cases sel with
    | station => simp only [apply_ite Option.isSome, Option.isSome_some, Option.isSome_none]
    | peers =>
      rw [Option.isSome_map, Option.isSome_map, Bool.eq_iff_iff]
      simp [Option.isSome_iff_exists, List.getElem?_eq_some_iff, h.peers]
    | modules => simp [h.modules]
    | exports => simp [h.directory]
    | references => simp [h.refs]

theorem State.SameRequests.commitAtEnd (h : s.SameRequests t) : t.commitAtEnd = s.commitAtEnd := by
  simp only [State.commitAtEnd, State.module?, h.command, h.modules, h.wanted]

theorem State.SameRequests.asks (h : s.SameRequests t) : t.asks = s.asks := by
  funext c
  cases c with
  | commandEngine =>
    simp only [State.asks, State.commandAsks, h.command, h.commandQueue, State.module?, h.modules, h.wanted, h.commitAtEnd,
      h.recordAt_isSome]
  | patchEngine => simp only [State.asks, h.transfer]
  | noticeUnit => simp only [State.asks, h.ring, h.list]

/-! ## The ends of such an event -/

/-- What the agent does at the end of an event without an end of transfers: nothing where no request has changed, else as
`settleAgent` says; at an isolation the transfer of the command it ends may be dropped. -/
inductive AgentEnd (s : State) : State → Prop where
  | kept {t : State} (bus : t.busSide = s.busSide) (asks : t.asks = s.asks) : AgentEnd s t
  | settled {u : State} (bus : u.busSide = s.busSide) : AgentEnd s u.settleAgent
  | isolated {u t : State} (bus : u.busSide = s.busSide) (on : s.station ≠ .isolated) (off : t.station = .isolated)
      (ends : t = u.dropTransfer ∨ t = u.settleAgent) : AgentEnd s t

theorem AgentEnd.refl (s : State) : AgentEnd s s := .kept rfl rfl

theorem AgentEnd.of_same (bus : t.busSide = s.busSide) (h : s.SameRequests t) : AgentEnd s t := .kept bus h.asks

/-- A change that the agent does not see may precede the event. -/
theorem AgentEnd.after (bus : u.busSide = s.busSide) (asks : u.asks = s.asks) (station : u.station = s.station)
    (h : AgentEnd u t) : AgentEnd s t := by
  cases h with
  | kept bus' asks' => exact .kept (bus'.trans bus) (asks'.trans asks)
  | settled bus' => exact .settled (bus'.trans bus)
  | isolated bus' on off ends => exact .isolated (bus'.trans bus) (station ▸ on) off ends

@[simp] theorem settleAgent_mem (s : State) : s.settleAgent.mem = s.mem := rfl

theorem dropTransfer_memory (s : State) : s.dropTransfer.mem = s.mem ∧ s.dropTransfer.freeCount = s.freeCount := by
  unfold State.dropTransfer
  split <;> exact ⟨rfl, rfl⟩

/-- Local memory stays as it is. -/
theorem AgentEnd.memory (h : AgentEnd s t) : t.mem = s.mem ∧ t.freeCount = s.freeCount := by
  cases h with
  | kept bus _ =>
    obtain ⟨mem, free, _⟩ := busSide_eq_iff.mp bus
    exact ⟨mem, free⟩
  | settled bus =>
    obtain ⟨mem, free, _⟩ := busSide_eq_iff.mp bus
    exact ⟨mem, free⟩
  | isolated bus _ _ ends =>
    obtain ⟨mem, free, _⟩ := busSide_eq_iff.mp bus
    obtain dropped | settled := ends
    · rw [dropped]
      exact ⟨(dropTransfer_memory _).1.trans mem, (dropTransfer_memory _).2.trans free⟩
    · rw [settled]
      exact ⟨mem, free⟩

theorem agentLaw_of_kept (law : s.AgentLaw) (granted : t.granted = s.granted) (asks : t.asks = s.asks) : t.AgentLaw where
  asking c h := by rw [asks]; exact law.asking c (granted ▸ h)
  once := granted ▸ law.once
  busy c h := by rw [granted]; exact law.busy c (asks ▸ h)

theorem dropTransfer_agentLaw (once : s.granted.Nodup) : s.dropTransfer.AgentLaw := by
  unfold State.dropTransfer
  split
  · exact served_agentLaw s _
  · exact settleAgent_agentLaw once

/-- The law of the grant is kept. -/
theorem AgentEnd.agentLaw (h : AgentEnd s t) (law : s.AgentLaw) : t.AgentLaw := by
  cases h with
  | kept bus asks => exact agentLaw_of_kept law (granted_of_busSide bus) asks
  | settled bus => exact settleAgent_agentLaw (granted_of_busSide bus ▸ law.once)
  | isolated bus _ _ ends =>
    have once := granted_of_busSide bus ▸ law.once
    obtain dropped | settled := ends
    · exact dropped ▸ dropTransfer_agentLaw once
    · exact settled ▸ settleAgent_agentLaw once

theorem settleAgent_granted_of_idle (h : u.granted = []) : u.settleAgent.granted = claimants.filter u.asks := by
  simp [State.settleAgent, h]

theorem settleAgent_granted_of_asks (h : ∃ x ∈ u.granted, u.asks x = true) :
    u.settleAgent.granted = u.granted.filter u.asks := by
  have standing : u.granted.any u.asks = true := List.any_eq_true.mpr h
  simp [State.settleAgent, standing]

/-- Where the station is not isolated, an idle agent grants what is asked, and a grant stands while its claimant asks. -/
theorem AgentEnd.grants (h : AgentEnd s t) (law : s.AgentLaw) (station : t.station = s.station ∨ t.station ≠ .isolated) :
    (s.granted = [] → t.granted = claimants.filter t.asks) ∧
    ((∃ x ∈ s.granted, t.asks x = true) → t.granted = s.granted.filter t.asks) := by
  cases h with
  | kept bus asks =>
    have granted := granted_of_busSide bus
    refine ⟨fun idle => ?_, fun _ => ?_⟩
    · rw [granted, idle, eq_comm, List.filter_eq_nil_iff]
      exact fun c _ asking => law.busy c (asks ▸ asking) idle
    · rw [granted, asks, eq_comm, List.filter_eq_self]
      exact law.asking
  | @settled u bus =>
    have granted := granted_of_busSide bus
    rw [settleAgent_asks]
    exact ⟨fun idle => settleAgent_granted_of_idle (granted.trans idle),
      fun standing => granted ▸ settleAgent_granted_of_asks (granted.symm ▸ standing)⟩
  | isolated _ on off _ =>
    obtain same | other := station
    · exact absurd (same.symm.trans off) on
    · exact absurd off other

/-! ## The isolation -/

theorem endFirstPass_busSide (s : State) (tag : Half) (d : Nat) :
    (s.withoutLoading.endCommand tag .refusedState d).endFetch.busSide = s.busSide := by
  rw [endFetch_busSide, endCommand_busSide]
  rfl

/-- At the isolation the agent drops the transfer of the command that ends, or goes on. -/
theorem endIsolated_ends (v : State) (begun : Bool) :
    ∃ u : State, u.busSide = v.busSide ∧ (v.endIsolated begun = u.dropTransfer ∨ v.endIsolated begun = u.settleAgent) := by
  unfold State.endIsolated
  split
  · exact ⟨_, abandonModule_busSide .., .inl rfl⟩
  · exact ⟨_, abandonModule_busSide .., .inl rfl⟩
  · exact ⟨_, abandonModule_busSide .., .inl rfl⟩
  · exact ⟨_, endCommand_busSide .., .inl rfl⟩
  · exact ⟨_, endCommand_busSide .., .inl rfl⟩
  · exact ⟨v, rfl, .inr rfl⟩
  · split
    · exact ⟨_, endFirstPass_busSide .., .inl rfl⟩
    · exact ⟨v, rfl, .inr rfl⟩

theorem isolate_busSide_ends (s : State) (begun : Bool) :
    ∃ u : State, u.busSide = s.busSide ∧ (s.isolate begun = u.dropTransfer ∨ s.isolate begun = u.settleAgent) := by
  rw [isolate_eq]
  exact endIsolated_ends (s.cutFromBus.post .stationIsolated) (s.siteBegan begun)

theorem isolate_agentEnd (on : s.station ≠ .isolated) (begun : Bool) : AgentEnd s (s.isolate begun) := by
  obtain ⟨u, bus, ends⟩ := isolate_busSide_ends s begun
  exact .isolated bus on (Moves.still (ok := False) (isolate_moves s begun)).station ends

end Sys2Proof.Machine

/-! The rows that make no transfer: how each of them ends for the memory agent (R182). -/

namespace Sys2Proof.Machine

variable {s t : State}

/-! ## The host's writes -/

theorem windowWrite_agentEnd {f : State → State} (h : AgentEnd s (f s)) : AgentEnd s (s.windowWrite f) := by
  obtain same | ⟨_, writes⟩ := windowWrite_cases s f
  · rw [same]
    exact .refl s
  · rw [writes]
    exact h

theorem writePctl_agentEnd {value : Word} (plain : value.getLsbD 31 = false) (cut : Cut) : AgentEnd s (s.writePctl value cut) := by
  have enables : s.writePctl value cut = { s with notices := { s.notices with interruptEnable := value.getLsbD 0 } } := by
    rw [State.writePctl, plain]
    rfl
  rw [enables]
  exact .of_same rfl ⟨rfl, rfl, rfl, rfl, rfl, rfl, rfl, rfl, rfl, rfl, rfl⟩

@[simp] theorem submit_busSide (s : State) (value : Word) : (s.submit value).busSide = s.busSide := by
  unfold State.submit
  split
  · rfl
  · split <;> rfl

/-! ## The line -/

theorem openWindow_agentEnd (s : State) (bits : List Bool) (a : Arrival) : AgentEnd s (s.openWindow bits a) :=
  .of_same rfl ⟨rfl, rfl, rfl, rfl, rfl, rfl, rfl, rfl, rfl, rfl, rfl⟩

theorem frameBegin_agentEnd (s : State) (idle : Nat) :
    AgentEnd s (if s.mayBegin idle then s.beginFrame.settleAgent else s) := by
  split
  · exact .settled (beginFrame_busSide s)
  · exact .refl s

theorem contentionLost_agentEnd {bit : Nat} (h : exec (.contentionLost bit) s = .next t) : AgentEnd s t := by
  cases h
  split
  · split
    · exact .of_same rfl ⟨rfl, rfl, rfl, rfl, rfl, rfl, rfl, rfl, rfl, rfl, rfl⟩
    · exact .refl s
  all_goals exact .refl s

theorem contentionWon_agentEnd (h : exec .contentionWon s = .next t) : AgentEnd s t := by
  cases h
  split
  · split
    · exact .refl s
    · exact .settled (leaveSource_busSide ..)
  all_goals exact .refl s

theorem senderBitMismatch_agentEnd {pos : Nat} (h : exec (.senderBitMismatch pos) s = .next t) : AgentEnd s t := by
  cases h
  split
  · split
    · exact .of_same rfl ⟨rfl, rfl, rfl, rfl, rfl, rfl, rfl, rfl, rfl, rfl, rfl⟩
    · exact .refl s
  · exact .refl s

theorem frameCutOff_agentEnd {bits : List Bool} {quiet : Nat} (h : exec (.frameCutOff bits quiet) s = .next t) : AgentEnd s t := by
  cases h
  split
  · exact openWindow_agentEnd ..
  · exact .refl s

theorem arrive_agentEnd (on : s.station ≠ .isolated) (bits : List Bool) (begun : Bool) : AgentEnd s (s.arrive bits begun) := by
  unfold State.arrive
  split
  · exact openWindow_agentEnd ..
  · split
    · exact isolate_agentEnd on begun
    · split
      · exact openWindow_agentEnd ..
      · split
        · exact openWindow_agentEnd ..
        · split
          · exact openWindow_agentEnd ..
          · exact .of_same rfl ⟨rfl, rfl, rfl, rfl, rfl, List.length_modify .., rfl, rfl, rfl, rfl, rfl⟩

theorem frameArrival_agentEnd {bits : List Bool} {begun : Bool} (h : exec (.frameArrival bits begun) s = .next t) : AgentEnd s t := by
  cases h
  split
  · next may =>
    simp only [State.canArrive, Bool.and_eq_true] at may
    obtain ⟨⟨listens, _⟩, _⟩ := may
    exact arrive_agentEnd (listens_station listens) bits begun
  · exact .refl s

theorem countHold_agentEnd (s : State) : AgentEnd s s.countHold := by
  unfold State.countHold
  split
  · exact .refl s
  · dsimp only
    split
    · exact .settled rfl
    · exact .of_same rfl ⟨rfl, rfl, rfl, rfl, rfl, rfl, rfl, rfl, rfl, rfl, rfl⟩

/-- Neither the line, nor what is sent on it, nor the held-frame record is the agent's. -/
theorem line_same (s : State) (held : Option HeldRecord) (line : Line) (outgoing : Option Outgoing) (busSeen : Bool) :
    s.SameRequests { s with held, line, outgoing, busSeen } :=
  ⟨rfl, rfl, rfl, rfl, rfl, rfl, rfl, rfl, rfl, rfl, rfl⟩

theorem windowHeld_agentEnd (s : State) (w : Window) : AgentEnd s (s.windowHeld w) := by
  unfold State.windowHeld
  have closed := (line_same s (some (heldRecordAfter s.held w)) .quiet s.outgoing s.busSeen).asks
  dsimp only
  split
  · exact .after (u := { s with held := some (heldRecordAfter s.held w), line := .quiet }) rfl closed rfl (countHold_agentEnd _)
  · exact .kept rfl closed

theorem windowCarried_agentEnd (s : State) (w : Window) : AgentEnd s (s.windowCarried w) := by
  unfold State.windowCarried
  dsimp only
  split
  · split
    · exact .settled (completeStop_busSide _)
    · exact .kept rfl (line_same s none .quiet none true).asks
  · exact .kept rfl (line_same s none .quiet s.outgoing true).asks

theorem holdWindowEnd_agentEnd {othersPull : Bool} (h : exec (.holdWindowEnd othersPull) s = .next t) : AgentEnd s t := by
  cases h
  split
  · split
    · exact .refl s
    · split
      · exact windowHeld_agentEnd ..
      · exact windowCarried_agentEnd ..
  all_goals exact .refl s

theorem repeatFrame_agentEnd {idle : Nat} (h : exec (.repeatFrame idle) s = .next t) : AgentEnd s t := by
  cases h
  split
  · split
    · exact .of_same rfl ⟨rfl, rfl, rfl, rfl, rfl, rfl, rfl, rfl, rfl, rfl, rfl⟩
    · exact .refl s
  · exact .refl s

theorem lapseReservation_agentEnd (on : s.station ≠ .isolated) (begun : Bool) : AgentEnd s (s.lapseReservation begun) := by
  have lapsed := (line_same s none s.line s.outgoing true).asks
  unfold State.lapseReservation
  dsimp only
  split
  · exact .kept rfl lapsed
  · split
    · exact .after (u := s.lapsed) rfl lapsed rfl (isolate_agentEnd (s := s.lapsed) on begun)
    · split
      · exact .kept rfl lapsed
      · exact .of_same rfl ⟨rfl, rfl, rfl, rfl, rfl, rfl, rfl, rfl, rfl, rfl, rfl⟩

theorem reservationLapse_agentEnd {idle : Nat} {begun : Bool} (h : exec (.reservationLapse idle begun) s = .next t) :
    AgentEnd s t := by
  cases h
  split
  · next may =>
    simp only [Bool.and_eq_true] at may
    obtain ⟨⟨⟨listens, _⟩, _⟩, _⟩ := may
    exact lapseReservation_agentEnd (listens_station listens) begun
  · exact .refl s

/-! ## Receive processing -/

theorem takeFrame_agentEnd {mine : Frame → Bool} {f : Frame → State → State}
    (bus : ∀ x v, v.busSide = s.busSide → (f x v).busSide = s.busSide) : AgentEnd s (s.takeFrame mine f) := by
  have cases := takeFrame_cases s mine f
  generalize s.takeFrame mine f = t at cases
  cases cases with
  | nothing => exact .refl s
  | taken x rest _ _ _ => exact .settled (bus x _ rfl)

theorem lapse_agentEnd (h : exec .lapse s = .next t) : AgentEnd s t := by
  cases h
  split
  · split
    · exact .settled (departs_busSide ..)
    · exact .refl s
  all_goals exact .refl s

theorem seekTaken_agentEnd (h : exec .seekTaken s = .next t) : AgentEnd s t := by
  cases h
  refine takeFrame_agentEnd fun x v bus => ?_
  split
  · simp [bus]
  · rfl

theorem ownSeekTaken_agentEnd (h : exec .ownSeekTaken s = .next t) : AgentEnd s t := by
  cases h
  refine takeFrame_agentEnd fun x v bus => ?_
  split
  · simp [bus]
  · rfl

theorem claimed_busSide (own : Bool) (s : State) (k : Key) (p : Pair) (refused : List Pair) :
    (if own then s else s.meetClaim k p refused).busSide = s.busSide := by
  split
  · rfl
  · exact meetClaim_busSide ..

theorem offerTaken_agentEnd (h : exec .offerTaken s = .next t) : AgentEnd s t := by
  cases h
  refine takeFrame_agentEnd fun x v bus => ?_
  split
  · simp [claimed_busSide, bus]
  · rfl

theorem announceTaken_agentEnd (h : exec .announceTaken s = .next t) : AgentEnd s t := by
  cases h
  refine takeFrame_agentEnd fun x v bus => ?_
  split
  · simp [bus]
  · rfl

theorem ownAnnounceTaken_agentEnd (h : exec .ownAnnounceTaken s = .next t) : AgentEnd s t := by
  cases h
  refine takeFrame_agentEnd fun x v bus => ?_
  split
  · simp [bus]
  · rfl

theorem clashTaken_agentEnd (h : exec .clashTaken s = .next t) : AgentEnd s t := by
  cases h
  refine takeFrame_agentEnd fun x v bus => ?_
  split
  · simp [claimed_busSide, bus]
  · rfl

theorem withdrawTaken_agentEnd (h : exec .withdrawTaken s = .next t) : AgentEnd s t := by
  cases h
  refine takeFrame_agentEnd fun x v bus => ?_
  split
  · simp [State.revokeWithdrawn, bus]
  · rfl

theorem ownWithdrawTaken_agentEnd (h : exec .ownWithdrawTaken s = .next t) : AgentEnd s t := by
  cases h
  refine takeFrame_agentEnd fun x v bus => ?_
  split
  · simp [State.revokeWithdrawn, bus]
  · rfl

theorem leaveTaken_agentEnd (h : exec .leaveTaken s = .next t) : AgentEnd s t := by
  cases h
  exact takeFrame_agentEnd fun x v bus => (departs_busSide ..).trans bus

theorem joinTaken_agentEnd (h : exec .joinTaken s = .next t) : AgentEnd s t := by
  cases h
  refine takeFrame_agentEnd fun x v bus => ?_
  split <;> simp [bus]

theorem ownLeave_busSide (s : State) : s.ownLeave.busSide = s.busSide := by
  unfold State.ownLeave
  split
  · dsimp only
    split
    · exact completeStop_busSide _
    · rfl
  · rfl

theorem ownJoin_busSide (s : State) : s.ownJoin.busSide = s.busSide := by
  unfold State.ownJoin
  split
  · dsimp only
    split <;> rfl
  · rfl

theorem ownLeaveTaken_agentEnd (h : exec .ownLeaveTaken s = .next t) : AgentEnd s t := by
  cases h
  exact takeFrame_agentEnd fun x v bus => (ownLeave_busSide v).trans bus

theorem ownJoinTaken_agentEnd (h : exec .ownJoinTaken s = .next t) : AgentEnd s t := by
  cases h
  exact takeFrame_agentEnd fun x v bus => (ownJoin_busSide _).trans bus

/-! ## The engines, and the end of a commit pass -/

theorem seekTimerExpiry_agentEnd {slot elapsed : Nat} (h : exec (.seekTimerExpiry slot elapsed) s = .next t) : AgentEnd s t := by
  cases h
  split
  · split
    · refine .settled ?_
      unfold State.expire
      split <;> simp
    · exact .refl s
  · exact .refl s

theorem walkBegin_agentEnd (h : exec .walkBegin s = .next t) : AgentEnd s t := by
  cases h
  split
  · exact .refl s
  · split
    · exact .refl s
    · split
      · exact .refl s
      · exact .settled ((endEvent_busSide ..).trans (beginWalk_busSide ..))

theorem loadCommitEnd_agentEnd (h : exec .loadCommitEnd s = .next t) : AgentEnd s t := by
  cases h
  split
  · split
    · exact .settled ((endCommand_busSide ..).trans ((post_busSide ..).trans (setModuleState_busSide ..)))
    · exact .refl s
  · exact .refl s

/-! ## The rows together -/

/-- A row that makes no transfer and is no reset ends as the agent ends an event without transfers. -/
theorem exec_agentEnd {c : Instr} (free : claimOf c = none) (high : c.isReset = false) (h : exec c s = .next t) : AgentEnd s t := by
  cases c with
  | portReset value cut => cases h; exact windowWrite_agentEnd (writePctl_agentEnd high cut)
  | interruptEnableWrite value => cases h; exact windowWrite_agentEnd (writePctl_agentEnd high {})
  | submission value => cases h; exact windowWrite_agentEnd (.settled (submit_busSide s value))
  | nconsWrite value => cases h; exact windowWrite_agentEnd (.settled rfl)
  | istatWrite value =>
    cases h
    exact windowWrite_agentEnd (.of_same rfl ⟨rfl, rfl, rfl, rfl, rfl, rfl, rfl, rfl, rfl, rfl, rfl⟩)
  | ignoredRegisterWrite offset width value => cases h; exact .refl s
  | loadCommitEnd => exact loadCommitEnd_agentEnd h
  | frameBegin idle => cases h; exact frameBegin_agentEnd s idle
  | contentionLost bit => exact contentionLost_agentEnd h
  | contentionWon => exact contentionWon_agentEnd h
  | senderBitMismatch pos => exact senderBitMismatch_agentEnd h
  | frameCutOff bits quiet => exact frameCutOff_agentEnd h
  | frameArrival bits begun => exact frameArrival_agentEnd h
  | holdWindowEnd othersPull => exact holdWindowEnd_agentEnd h
  | repeatFrame idle => exact repeatFrame_agentEnd h
  | reservationLapse idle begun => exact reservationLapse_agentEnd h
  | lapse => exact lapse_agentEnd h
  | seekTaken => exact seekTaken_agentEnd h
  | ownSeekTaken => exact ownSeekTaken_agentEnd h
  | offerTaken => exact offerTaken_agentEnd h
  | announceTaken => exact announceTaken_agentEnd h
  | ownAnnounceTaken => exact ownAnnounceTaken_agentEnd h
  | clashTaken => exact clashTaken_agentEnd h
  | withdrawTaken => exact withdrawTaken_agentEnd h
  | ownWithdrawTaken => exact ownWithdrawTaken_agentEnd h
  | leaveTaken => exact leaveTaken_agentEnd h
  | ownLeaveTaken => exact ownLeaveTaken_agentEnd h
  | joinTaken => exact joinTaken_agentEnd h
  | ownJoinTaken => exact ownJoinTaken_agentEnd h
  | seekTimerExpiry slot elapsed => exact seekTimerExpiry_agentEnd h
  | walkBegin => exact walkBegin_agentEnd h
  | resetLow => cases h; exact .of_same rfl ⟨rfl, rfl, rfl, rfl, rfl, rfl, rfl, rfl, rfl, rfl, rfl⟩
  | pinReset straps cut => cases high
  | unknownCommandCode _ | configure _ | start _ | stop _ | load _ | loadCommitExport _ | loadCommitImport _ | loadCommitFault _
    | unload _ | reseek _ | report _ | reportRecordWrite _ | siteWriteDone _ | memoryAckTimeout _ _ | noticeWriteDone _ => cases free

/-- The rows that leave local memory as it is make no transfer, and are no resets. -/
theorem transferless_of_mayChangeMemory {c : Instr} (h : c.mayChangeMemory = false) : claimOf c = none ∧ c.isReset = false := by
  cases c with
  | interruptEnableWrite value => exact ⟨rfl, h⟩
  | pinReset _ _ | portReset _ _ | unknownCommandCode _ | configure _ | start _ | stop _ | load _ | loadCommitExport _
    | loadCommitImport _ | loadCommitFault _ | unload _ | reseek _ | report _ | reportRecordWrite _ | siteWriteDone _
    | memoryAckTimeout _ _ | noticeWriteDone _ => cases h
  | _ => exact ⟨rfl, rfl⟩

end Sys2Proof.Machine

/-! The rows that make transfers: none is made without the grant, one at the most while another claimant waits, and when the
transfers end the next claimant is granted (R182). -/

namespace Sys2Proof.Machine

variable {s t : State} {c : Claimant} {env : Env} {kind : Option CommandKind} {body : Half → List Word → State → State}

/-! ## Without the grant -/

theorem mayTransfer_of_not_granted (h : c ∉ s.granted) : s.mayTransfer c = false := by
  rw [State.mayTransfer, decide_eq_false h, Bool.and_false]

theorem runHead_of_not_granted (h : .commandEngine ∉ s.granted) : s.runHead kind env body = s := by
  simp [State.runHead, State.mayExecute, mayTransfer_of_not_granted h]

theorem readRecord_of_not_granted (h : .commandEngine ∉ s.granted) (onRecord : CommitItem → State → State)
    (onFault : Ending → State → State) : s.readRecord env onRecord onFault = s := by
  simp [State.readRecord, mayTransfer_of_not_granted h]

theorem commitStep_of_not_granted (h : .commandEngine ∉ s.granted) (onPause : State → State) (onRecord : CommitItem → State → State)
    (onFault : Ending → State → State) : s.commitStep env onPause onRecord onFault = s := by
  unfold State.commitStep
  rw [readRecord_of_not_granted h, mayTransfer_of_not_granted h]
  split <;> rfl

theorem siteWriteDone_of_not_granted (h : .patchEngine ∉ s.granted) : exec (.siteWriteDone env) s = .next s := by
  change Host.Outcome.next _ = _
  rw [mayTransfer_of_not_granted h]
  split <;> rfl

theorem noticeWriteDone_of_not_granted (h : .noticeUnit ∉ s.granted) : exec (.noticeWriteDone env) s = .next s := by
  change Host.Outcome.next _ = _
  rw [mayTransfer_of_not_granted h]
  split <;> rfl

theorem memoryAckTimeout_of_not_granted (h : c ∉ s.granted) : exec (.memoryAckTimeout c env) s = .next s := by
  change Host.Outcome.next _ = _
  have may := mayTransfer_of_not_granted h
  cases c with
  | commandEngine => simp [State.commandTimeout, may]
  | patchEngine =>
    simp only [State.patchTimeout, may]
    split <;> rfl
  | noticeUnit =>
    simp only [State.noticeTimeout, may]
    split <;> rfl

theorem reportRecordWrite_of_not_granted (asks : s.asks .commandEngine = true) (some_ : env.upTo ≠ some 0)
    (h : .commandEngine ∉ s.granted) : exec (.reportRecordWrite env) s = .next s := by
  have asks : s.commandAsks = true := asks
  change Host.Outcome.next _ = _
  rw [mayTransfer_of_not_granted h, asks, if_neg some_]
  split <;> rfl

/-- A step whose claimant is not granted does nothing. -/
theorem exec_of_not_granted {i : Instr} (claim : claimOf i = some (c, env)) (some_ : env.upTo ≠ some 0) (asks : s.asks c = true)
    (h : c ∉ s.granted) : exec i s = .next s := by
  cases i with
  | unknownCommandCode _ | configure _ | start _ | stop _ | load _ | unload _ | reseek _ | report _ =>
    cases claim
    exact congrArg Host.Outcome.next (runHead_of_not_granted h)
  | loadCommitExport _ =>
    cases claim
    refine congrArg Host.Outcome.next ?_
    rw [commitStep_of_not_granted h, ite_self]
  | loadCommitImport _ =>
    cases claim
    refine congrArg Host.Outcome.next ?_
    rw [commitStep_of_not_granted h, ite_self]
  | loadCommitFault _ =>
    cases claim
    exact congrArg Host.Outcome.next (commitStep_of_not_granted h _ _ _)
  | reportRecordWrite _ => cases claim; exact reportRecordWrite_of_not_granted asks some_ h
  | siteWriteDone _ => cases claim; exact siteWriteDone_of_not_granted h
  | memoryAckTimeout _ _ => cases claim; exact memoryAckTimeout_of_not_granted h
  | noticeWriteDone _ => cases claim; exact noticeWriteDone_of_not_granted h
  | _ => cases claim

/-! ## While another claimant waits -/

theorem othersAsk_of (h : ∃ x, x ≠ c ∧ s.asks x = true) : s.othersAsk c = true := by
  obtain ⟨x, other, asks⟩ := h
  exact List.any_eq_true.mpr ⟨x, mem_rotationAfter c x, by rw [decide_eq_true other, asks]; rfl⟩

/-- The same surroundings, the step leaving its run after one transfer. -/
def leavingAfterOne (env : Env) : Env := { env with upTo := some 1 }

theorem leavingAfterOne_upTo (env : Env) : (leavingAfterOne env).upTo ≠ some 0 := by simp [leavingAfterOne]

theorem runEnv_leavingAfterOne (others : s.othersAsk c = true) (some_ : env.upTo ≠ some 0) :
    s.runEnv c env = s.runEnv c (leavingAfterOne env) :=
  (runEnv_toTheEnd others some_).symm.trans (runEnv_toTheEnd (env := leavingAfterOne env) others (leavingAfterOne_upTo env))

theorem runHead_leavingAfterOne (others : s.othersAsk .commandEngine = true) (some_ : env.upTo ≠ some 0) :
    s.runHead kind env body = s.runHead kind (leavingAfterOne env) body := by
  unfold State.runHead
  rw [runEnv_leavingAfterOne others some_]

theorem commitStep_leavingAfterOne (others : s.othersAsk .commandEngine = true) (some_ : env.upTo ≠ some 0)
    (onPause : State → State) (onRecord : CommitItem → State → State) (onFault : Ending → State → State) :
    s.commitStep env onPause onRecord onFault = s.commitStep (leavingAfterOne env) onPause onRecord onFault := by
  unfold State.commitStep
  rw [runEnv_leavingAfterOne others some_]
  rfl

theorem reportRecordWrite_leavingAfterOne (others : s.othersAsk .commandEngine = true) (some_ : env.upTo ≠ some 0)
    (asks : s.commandAsks = true) : exec (.reportRecordWrite env) s = exec (.reportRecordWrite (leavingAfterOne env)) s := by
  refine congrArg Host.Outcome.next ?_
  rw [if_neg some_, if_neg (leavingAfterOne_upTo env), asks, runEnv_leavingAfterOne others some_]
  rfl

theorem noticeWriteDone_leavingAfterOne (others : s.othersAsk .noticeUnit = true) (some_ : env.upTo ≠ some 0) :
    exec (.noticeWriteDone env) s = exec (.noticeWriteDone (leavingAfterOne env)) s := by
  refine congrArg Host.Outcome.next ?_
  rw [runEnv_leavingAfterOne others some_]
  rfl

/-- A step of the Command Engine or the Notice Unit makes one transfer at the most while another claimant waits. -/
theorem exec_leftAfterOne {i : Instr} (claim : claimOf i = some (c, env)) (some_ : env.upTo ≠ some 0) (asks : s.asks c = true)
    (patch : c ≠ .patchEngine) (others : s.othersAsk c = true) : exec i s = exec i.leftAfterOne s := by
  cases i with
  | unknownCommandCode _ | configure _ | start _ | stop _ | load _ | unload _ | reseek _ | report _ =>
    cases claim
    exact congrArg Host.Outcome.next (runHead_leavingAfterOne others some_)
  | loadCommitExport _ =>
    cases claim
    refine congrArg Host.Outcome.next ?_
    rw [commitStep_leavingAfterOne others some_]
    rfl
  | loadCommitImport _ =>
    cases claim
    refine congrArg Host.Outcome.next ?_
    rw [commitStep_leavingAfterOne others some_]
    rfl
  | loadCommitFault _ =>
    cases claim
    exact congrArg Host.Outcome.next (commitStep_leavingAfterOne others some_ _ _ _)
  | reportRecordWrite _ => cases claim; exact reportRecordWrite_leavingAfterOne others some_ asks
  | noticeWriteDone _ => cases claim; exact noticeWriteDone_leavingAfterOne others some_
  | siteWriteDone _ => cases claim; exact absurd rfl patch
  | memoryAckTimeout _ _ => rfl
  | _ => cases claim

theorem reachesFailure_of_later (others : s.othersAsk c = true) (later : env.failAt ≠ some 0) : s.reachesFailure c env = false := by
  rw [State.reachesFailure, others, decide_eq_false later]
  rfl

/-- The timeout of a transfer after the first does not come while another claimant waits. -/
theorem memoryAckTimeout_of_later (patch : c ≠ .patchEngine) (others : s.othersAsk c = true) (later : env.failAt ≠ some 0) :
    exec (.memoryAckTimeout c env) s = .next s := by
  have never : s.reachesFailure c (toTheEnd env) = false := reachesFailure_of_later others later
  change Host.Outcome.next _ = _
  cases c with
  | commandEngine => simp [State.commandTimeout, never]
  | patchEngine => exact absurd rfl patch
  | noticeUnit =>
    simp only [State.noticeTimeout, never]
    split
    · simp
    · rfl

/-! ## The end of the transfers -/

/-- The step does nothing, or ends transfers of the claimant. -/
def ServedOr (s : State) (c : Claimant) (t : State) : Prop := t = s ∨ ∃ u : State, t = u.served c

theorem runHead_servedOr (s : State) (kind : Option CommandKind) (env : Env) (body : Half → List Word → State → State) :
    ServedOr s .commandEngine (s.runHead kind env body) := by
  have cases := runHead_cases s kind env body
  generalize s.runHead kind env body = t at cases
  cases cases with
  | nothing => exact .inl rfl
  | left _ _ _ _ => exact .inr ⟨_, rfl⟩
  | failed _ _ => exact .inr ⟨_, rfl⟩
  | whole _ _ _ _ => exact .inr ⟨_, rfl⟩

theorem readRecord_servedOr {onRecord : CommitItem → State → State} {onFault : Ending → State → State}
    (record : ∀ item u, ServedOr s .commandEngine (onRecord item u)) (fault : ∀ e u, ServedOr s .commandEngine (onFault e u)) :
    ServedOr s .commandEngine (s.readRecord env onRecord onFault) := by
  have cases := readRecord_cases s env onRecord onFault
  generalize s.readRecord env onRecord onFault = t at cases
  cases cases with
  | nothing => exact .inl rfl
  | record item _ => exact record item _
  | fault e _ => exact fault e _

theorem commitStep_servedOr {onPause : State → State} {onRecord : CommitItem → State → State} {onFault : Ending → State → State}
    (pause : ∀ u, ServedOr s .commandEngine (onPause u)) (record : ∀ item u, ServedOr s .commandEngine (onRecord item u))
    (fault : ∀ e u, ServedOr s .commandEngine (onFault e u)) :
    ServedOr s .commandEngine (s.commitStep env onPause onRecord onFault) := by
  unfold State.commitStep
  split
  · split
    · exact pause _
    · exact .inl rfl
  · exact readRecord_servedOr record fault

theorem loadCommitExport_servedOr (h : exec (.loadCommitExport env) s = .next t) : ServedOr s .commandEngine t := by
  cases h
  split
  · refine commitStep_servedOr (fun _ => .inr ⟨_, rfl⟩) (fun item _ => ?_) (fun _ _ => .inr ⟨_, rfl⟩)
    cases item with
    | exported x => exact .inr ⟨_, rfl⟩
    | imported x => exact .inl rfl
  · exact .inl rfl

theorem loadCommitImport_servedOr (h : exec (.loadCommitImport env) s = .next t) : ServedOr s .commandEngine t := by
  cases h
  split
  · exact .inl rfl
  · refine commitStep_servedOr (fun _ => .inr ⟨_, rfl⟩) (fun item _ => ?_) (fun _ _ => .inr ⟨_, rfl⟩)
    cases item with
    | exported x => exact .inl rfl
    | imported x => exact .inr ⟨_, rfl⟩

theorem siteWriteDone_servedOr (h : exec (.siteWriteDone env) s = .next t) : ServedOr s .patchEngine t := by
  cases h
  split
  · split
    · exact .inr ⟨_, rfl⟩
    · exact .inl rfl
  · exact .inl rfl

theorem noticeWriteDone_servedOr (h : exec (.noticeWriteDone env) s = .next t) : ServedOr s .noticeUnit t := by
  cases h
  split
  · split
    · exact .inr ⟨_, rfl⟩
    · exact .inl rfl
  · exact .inl rfl

theorem commandTimeout_servedOr (s : State) (env : Env) : ServedOr s .commandEngine (s.commandTimeout env) := by
  unfold State.commandTimeout
  split
  · exact .inl rfl
  · split
    · unfold State.timeoutAtHead
      dsimp only
      split
      · exact .inr ⟨_, rfl⟩
      · exact .inl rfl
    · split
      · unfold State.timeoutInReport
        dsimp only
        split
        · split
          · split
            · exact .inr ⟨_, rfl⟩
            · exact .inl rfl
          · exact .inl rfl
        · exact .inl rfl
      · refine readRecord_servedOr (fun _ _ => .inl rfl) fun e u => ?_
        split
        · exact .inr ⟨_, rfl⟩
        · exact .inl rfl

theorem memoryAckTimeout_servedOr (h : exec (.memoryAckTimeout c env) s = .next t) : ServedOr s c t := by
  cases h
  cases c with
  | commandEngine => exact commandTimeout_servedOr s _
  | patchEngine =>
    change ServedOr s _ (s.patchTimeout _)
    unfold State.patchTimeout
    split
    · dsimp only
      split
      · exact .inr ⟨_, rfl⟩
      · exact .inl rfl
    · exact .inl rfl
  | noticeUnit =>
    change ServedOr s _ (s.noticeTimeout _)
    unfold State.noticeTimeout
    split
    · dsimp only
      split
      · exact .inr ⟨_, rfl⟩
      · exact .inl rfl
    · exact .inl rfl

theorem reportRecordWrite_servedOr (some_ : env.upTo ≠ some 0) (asks : s.commandAsks = true)
    (h : exec (.reportRecordWrite env) s = .next t) : ServedOr s .commandEngine t := by
  cases h
  rw [if_neg some_, asks]
  split
  · exact .inl rfl
  · split
    · next never => cases never
    · split
      · exact .inr ⟨_, rfl⟩
      · exact .inl rfl

/-- A row that makes transfers, other than the writing of a report record. -/
theorem exec_servedOr {i : Instr} (claim : claimOf i = some (c, env)) (other : i ≠ .reportRecordWrite env) (h : exec i s = .next t) :
    ServedOr s c t := by
  cases i with
  | unknownCommandCode _ | configure _ | start _ | stop _ | load _ | unload _ | reseek _ | report _ =>
    cases claim
    cases h
    exact runHead_servedOr ..
  | loadCommitExport _ => cases claim; exact loadCommitExport_servedOr h
  | loadCommitImport _ => cases claim; exact loadCommitImport_servedOr h
  | loadCommitFault _ =>
    cases claim
    cases h
    exact commitStep_servedOr (fun _ => .inl rfl) (fun _ _ => .inl rfl) (fun _ _ => .inr ⟨_, rfl⟩)
  | siteWriteDone _ => cases claim; exact siteWriteDone_servedOr h
  | memoryAckTimeout _ _ => cases claim; exact memoryAckTimeout_servedOr h
  | noticeWriteDone _ => cases claim; exact noticeWriteDone_servedOr h
  | reportRecordWrite _ => cases claim; exact absurd rfl other
  | _ => cases claim

theorem ServedOr.granted (h : ServedOr s c t) : t = s ∨ t.granted = t.grantAfter c := by
  obtain same | ⟨u, rfl⟩ := h
  · exact .inl same
  · refine .inr ?_
    rw [State.grantAfter, served_asks]
    rfl

theorem ServedOr.agentLaw (h : ServedOr s c t) (law : s.AgentLaw) : t.AgentLaw := by
  obtain same | ⟨u, rfl⟩ := h
  · exact same ▸ law
  · exact served_agentLaw u c

end Sys2Proof.Machine

/-! Local memory and the memory agent (R114, R127, R128, R182). -/

namespace Sys2Proof.Machine

variable {s t : State}

/-! ## Who asks -/

theorem asks_patchEngine (s : State) : s.asks .patchEngine = true ↔ s.transfer ≠ none := Option.isSome_iff_ne_none

theorem asks_noticeUnit (s : State) : s.asks .noticeUnit = true ↔ s.notices.ring ≠ none ∧ s.notices.list ≠ [] := by
  simp [State.asks, Option.isSome_iff_ne_none]

theorem asks_of_idle (idle : s.command = none) : s.asks .commandEngine = true ↔ s.commandQueue ≠ [] := by
  simp [State.asks, State.commandAsks, idle]

theorem asks_of_commit {tag : Half} {m : Byte} {i j off sum : Nat} (command : s.command = some (.loadCommit tag m i j off sum)) :
    s.asks .commandEngine = true ↔
      s.wanted = [] ∧ ∃ rec, s.module? m = some rec ∧ (i < rec.exportCount ∨ j < rec.importCount) := by
  simp only [State.asks, State.commandAsks, State.commitAtEnd, command]
  cases s.module? m with
  | none => simp
  | some rec =>
    by_cases wanted : s.wanted = []
    · simp [wanted]
    · simp [wanted]

theorem asks_of_report {tag : Half} {sel : Selector} {m : Byte} {buffer capacity n : Nat}
    (command : s.command = some (.report tag sel m buffer capacity n)) :
    s.asks .commandEngine = true ↔ s.runs.record ≠ none ∨ s.reportRecord sel m n ≠ none := by
  simp only [State.asks, State.commandAsks, State.recordAt, command]
  cases s.runs.record with
  | some x => simp
  | none => simp [Option.isSome_iff_ne_none]

theorem asks_of_moduleless {c : Command} (command : s.command = some c) (module : c.moduleOf = none) (unreporting : s.reporting = false) :
    s.asks .commandEngine = false := by
  cases c with
  | start tag => simp [State.asks, State.commandAsks, command]
  | stop tag => simp [State.asks, State.commandAsks, command]
  | report tag sel m buffer capacity n => simp [State.reporting, command] at unreporting
  | loadCommit _ _ _ _ _ _ | loadTakeOut _ _ _ | unload _ _ => cases module

theorem asks_of_removal {c : Command} (command : s.command = some c) {tag : Half} {m : Byte} {e : Ending}
    (removal : c = .unload tag m ∨ c = .loadTakeOut tag m e) : s.asks .commandEngine = false := by
  obtain rfl | rfl := removal <;> simp [State.asks, State.commandAsks, command]

/-! ## The rotation -/

theorem find?_three {α : Type} (p : α → Bool) (a b c : α) :
    ([a, b, c].find? p).toList = if p a then [a] else if p b then [b] else if p c then [c] else [] := by
  cases ha : p a <;> cases hb : p b <;> cases hc : p c <;> simp [List.find?, ha, hb, hc]

/-! ## The law of the grant -/

theorem resetWith_asks (s : State) (n : Station) (cut : Cut) (c : Claimant) : (s.resetWith n cut).asks c = false := by
  cases c <;> rfl

theorem resetWith_agentLaw (s : State) (n : Station) (cut : Cut) : (s.resetWith n cut).AgentLaw where
  asking c h := nomatch h
  once := List.nodup_nil
  busy c h := absurd h (by rw [resetWith_asks]; exact Bool.false_ne_true)

theorem windowWrite_agentLaw {f : State → State} (law : s.AgentLaw) (writes : (f s).AgentLaw) : (s.windowWrite f).AgentLaw := by
  obtain same | ⟨_, same⟩ := windowWrite_cases s f
  · rw [same]
    exact law
  · rw [same]
    exact writes

theorem writePctl_agentLaw {value : Word} (reset : value.getLsbD 31 = true) (cut : Cut) : (s.writePctl value cut).AgentLaw := by
  rw [State.writePctl, if_pos reset]
  exact resetWith_agentLaw ..

theorem exec_reset_agentLaw {c : Instr} (reset : c.isReset = true) (law : s.AgentLaw) (h : exec c s = .next t) : t.AgentLaw := by
  cases c with
  | pinReset straps cut => cases h; exact resetWith_agentLaw ..
  | portReset value cut => cases h; exact windowWrite_agentLaw law (writePctl_agentLaw reset cut)
  | interruptEnableWrite value => cases h; exact windowWrite_agentLaw law (writePctl_agentLaw reset {})
  | _ => cases reset

/-- The taking of a record's content changes no request: the listing had the record. -/
theorem takeRecord_asks (s : State) : s.takeRecord.asks = s.asks := by
  unfold State.takeRecord
  split
  · next tag sel m buffer capacity n command =>
    funext c
    cases c with
    | commandEngine =>
      simp only [State.asks, State.commandAsks, State.setRecord, command]
      cases taken : s.recordAt sel m n with
      | some x => rfl
      | none =>
        have untaken : s.runs.record = none := by
          cases same : s.runs.record with
          | none => rfl
          | some x => simp [State.recordAt, same] at taken
        simp only [State.recordAt, untaken] at taken ⊢
        exact congrArg Option.isSome taken
    | patchEngine => rfl
    | noticeUnit => rfl
  · rfl

theorem takeRecord_busSide (s : State) : s.takeRecord.busSide = s.busSide := by
  unfold State.takeRecord
  split <;> rfl

/-- A listing that has no further record ends. -/
theorem writeRecord_busSide_of_end (asks : s.commandAsks = false) (env : Env) : (s.writeRecord env).busSide = s.busSide := by
  unfold State.writeRecord
  split
  · next tag sel m buffer capacity n command =>
    have none_ : s.recordAt sel m n = none := by simpa [State.commandAsks, command] using asks
    rw [none_]
    exact endCommand_busSide ..
  · rfl

theorem reportRecordWrite_agentLaw {env : Env} (law : s.AgentLaw) (h : exec (.reportRecordWrite env) s = .next t) : t.AgentLaw := by
  by_cases some_ : env.upTo = some 0
  · cases h
    rw [if_pos some_]
    split
    · exact law
    · exact agentLaw_of_kept law (granted_of_busSide (takeRecord_busSide s)) (takeRecord_asks s)
  · cases asks : s.commandAsks with
    | true => exact (reportRecordWrite_servedOr some_ asks h).agentLaw law
    | false =>
      cases h
      rw [if_neg some_, asks]
      split
      · exact law
      · exact settleAgent_agentLaw (granted_of_busSide (writeRecord_busSide_of_end asks env) ▸ law.once)

theorem exec_agentLaw {c : Instr} (law : s.AgentLaw) (h : exec c s = .next t) : t.AgentLaw := by
  cases claim : claimOf c with
  | none =>
    cases reset : c.isReset with
    | true => exact exec_reset_agentLaw reset law h
    | false => exact (exec_agentEnd claim reset h).agentLaw law
  | some p =>
    obtain ⟨claimant, env⟩ := p
    by_cases report : c = .reportRecordWrite env
    · subst report
      exact reportRecordWrite_agentLaw law h
    · exact (exec_servedOr claim report h).agentLaw law

theorem step_agentLaw (law : s.AgentLaw) (h : step s = .next t) : t.AgentLaw := by
  unfold step at h
  split at h
  · cases h
    exact law
  · next rest _ =>
    have queued : s.SameRequests { s with pending := rest } := ⟨rfl, rfl, rfl, rfl, rfl, rfl, rfl, rfl, rfl, rfl, rfl⟩
    exact exec_agentLaw (s := { s with pending := rest }) (agentLaw_of_kept law rfl queued.asks) h

/-! ## The statement -/

theorem exec_claimed_ends {c : Instr} {claimant : Claimant} {env : Env} (claim : claimOf c = some (claimant, env))
    (some_ : env.upTo ≠ some 0) (asks : s.asks claimant = true) (h : exec c s = .next t) : ServedOr s claimant t := by
  by_cases report : c = .reportRecordWrite env
  · subst report
    cases claim
    exact reportRecordWrite_servedOr some_ asks h
  · exact exec_servedOr claim report h

/-- Settles O6: every row that makes no transfer ends with the tables changed and the agent settled (`exec_agentEnd`), every other
with its claimant served (`exec_claimed_ends`). -/
theorem memoryUnchangedWithoutTransfers : Obligations.MemoryUnchangedWithoutTransfers := by
  refine ⟨fun c s t keeps h => ?_, fun s => ?_, fun s => ⟨find?_three .., find?_three .., find?_three ..⟩,
    fun c s claimant env claim some_ asks => ⟨exec_of_not_granted claim some_ asks, fun patch others => ?_, fun t h => ?_⟩,
    fun c s t law free high station h => (exec_agentEnd free high h).grants law station, fun s => settleAgent_of_law,
    fun s t => step_agentLaw⟩
  · obtain ⟨free, high⟩ := transferless_of_mayChangeMemory keeps
    exact (exec_agentEnd free high h).memory
  · exact ⟨asks_patchEngine s, asks_noticeUnit s, asks_of_idle, fun _ _ _ _ _ _ => asks_of_commit, fun _ _ _ _ _ _ => asks_of_report,
      fun c command => ⟨asks_of_moduleless command, fun _ _ _ => asks_of_removal command⟩⟩
  · refine ⟨exec_leftAfterOne claim some_ asks patch (othersAsk_of others), ?_⟩
    rintro rfl later
    exact memoryAckTimeout_of_later patch (othersAsk_of others) later
  · exact (exec_claimed_ends claim some_ asks h).granted

end Sys2Proof.Machine
